-- ==== Sys2Proof/Word.lean ====
section
/-! DEFINITION. The word types of the IK960 module (R1, R5, R8): bytes, 16-bit numeric codes, 32-bit register
words and 64-bit words. -/

namespace Sys2Proof

/-- A byte of memory. -/
abbrev Byte := BitVec 8

/-- A stored numeric code: no stored numeric value is wider than 16 bits (R1). -/
abbrev W16 := BitVec 16

/-- A register word or a scalar register (R335, R81). -/
abbrev W32 := BitVec 32

/-- A 64-bit word: dither words, job seeds, tables of scratchpad ECC words (R40, R105). -/
abbrev W64 := BitVec 64

end Sys2Proof
end

