-- ==== Sys2Proof/Syntax.lean ====
section
/-! DEFINITION. The commands the module takes: one constructor of `Instr` for each row of the table of operations and
events, with the operands the rule of that row names. Numbers are operands as the manual writes them; WellFormed.lean
holds their ranges. An input from outside the module (a sensor, a partner, an ECC outcome, a time) is an operand. -/

namespace Sys2Proof

/-- Who makes a register access (R336). `runtime` is UCIe traffic of die 6 with CONTEXT 0. -/
inductive Agent where
  | runtime
  | service (ctx : Nat)
  | kindler
  | mgmt
  | other (ctx : Nat)
deriving DecidableEq, Repr

/-- What the ECC of the data read shows: clean, corrected or uncorrectable where it is stored (R98, R105, R228); corrected or
uncorrectable in a line of the hearth (R143); uncorrectable in the page table that a translation walks (R241); corrected or
uncorrectable in the unit's own tile registers, row buffer or side memory (R136); corrected by an HBM stack itself, which reports it
(R228); an error of a package's link, which is retried (R230). -/
inductive Ecc where
  | ok | ce | ue | hearthCe | hearthUe | walkUe | unitCe | unitUe | dieCe | linkCe
deriving DecidableEq, Repr

/-- Stored formats (R75). -/
inductive Fmt where
  | f4 | i4s | i4u | i3s | i3u | i2s | t2 | b8 | b16 | n16
deriving DecidableEq, Repr

/-- Grains (R75). -/
inductive Grain where
  | none | lin16 | lin32 | lin64 | lin128 | square
deriving DecidableEq, Repr

/-- Tensor classes (R74). -/
inductive Cls where
  | act | wt | grad | state
deriving DecidableEq, Repr

/-- Operand specifiers (R74). `addr` is the byte offset in the window; `stride` is in bytes. -/
inductive Opd where
  | none
  | direct (addr stride : Nat) (fmt : Fmt) (grain : Grain) (zp : Nat) (cls : Cls)
  | indirect (reg stride : Nat) (fmt : Fmt) (grain : Grain) (zp : Nat) (cls : Cls)
  | chair (lift : Nat) (tail : Bool) (fmt : Fmt) (grain : Grain) (zp : Nat) (cls : Cls)
  | pool (index : Nat)
  | mem (reg : Nat)
deriving DecidableEq, Repr

/-- What every instruction of a stream carries at its issue (R72): the sequencer that issues it, the header's wait and
post fields, whether an OPX goes before it (R73), what the ECC of its program store word shows (R98), and what the
ECC of the data it reads shows (R106): in which of the operands it reads, in their order, and at which byte of that operand.
OFFSET is time (R85). -/
structure Iss where
  st : Nat
  sq : Nat
  offset : Nat
  waitEn : Bool
  waitSem : Nat
  postEn : Bool
  postSem : Nat
  opx : Bool
  ps : Ecc
  rd : Ecc
  rdOpd : Nat := 0
  rdByte : Nat := 0
deriving DecidableEq, Repr

/-- The fields of a product: operands A to F, word 1 and the α of its OPX (R80). -/
structure ProdOps where
  a : Opd
  b : Opd
  c : Opd
  d : Opd
  e : Opd
  f : Opd
  red : Nat
  redReg : Bool
  func : Nat
  gs : Nat
  deriv : Bool
  second : Bool
  alpha : W16
deriving DecidableEq, Repr

/-- The fields of a ROWOP: word 1 and the OPX's EPS and E0REG (R130). -/
structure RowOps where
  handle : Nat
  rowOff : Nat
  eps : W16
  e0reg : Nat
  a : Opd
  b : Opd
  c : Opd
  d : Opd
  e : Opd
deriving DecidableEq, Repr

/-- The fields of a VOP: word 1 of R126 and operands A to F (R120). -/
structure VopOps where
  cycles : Nat
  breg : Nat
  rbreg : Nat
  cbreg : Nat
  engine : Nat
  a : Opd
  b : Opd
  c : Opd
  d : Opd
  e : Opd
  f : Opd
deriving DecidableEq, Repr

/-- The fields of a HATOM: word 1 of R152 and operands A and B. -/
structure HatomOps where
  ra : Nat
  rb : Nat
  rc : Nat
  a : Opd
  b : Opd
deriving DecidableEq, Repr

/-- The fields of a COLL: word 1 of R295 and operands A and B; and what the check of a remote peer's mapping finds, for PUT and GET
(`far`). -/
structure CollOps where
  piste : Nat
  reg : Nat
  inplace : Bool
  a : Opd
  b : Opd
  far : Bool
deriving DecidableEq, Repr

/-- How a beat ends (R53, R62, R64, R67): its checks pass, with or without a corrected error in the replay buffer or the accumulator
bank; the sum of a group, or of a sub-sum of it in square grain, has another residue than its operands give; a rescale station's
result has another residue than what it adds; or one of the two memories shows an uncorrectable error. `row` and `lane` count from
the unit's first; `written` says how many of the beat's rows the drain had written before the failure (R63). -/
inductive BeatRes where
  | pass
  | corrected
  | mismatch (row lane group sub observed written : Nat)
  | station (row lane group observed written : Nat)
  | replayUe
  | accUe
deriving DecidableEq, Repr

/-- A holder set: owner and up to two mirrors, each a logical ID and a stove (R181). -/
structure Holders where
  owner : Nat
  ownerStove : Nat
  mirrors : List (Nat × Nat)
deriving DecidableEq, Repr

/-- The header of a fabric message (R288) but for its type and destination position: SHAPE, VIA_RINK and VIA_SEAT stand in `via` as they
do in bits [67:54]. -/
structure MsgHdr where
  dst : Nat
  src : Nat
  srcRink : Nat
  srcSeat : Nat
  ctx : Nat
  jtag : Nat
  step : Nat
  cseq : Nat
  via : Nat
  len : Nat
  arg : Nat
deriving DecidableEq, Repr

/-- A key of an embedding table (R166). -/
structure Key where
  table : Nat
  row : Nat
deriving DecidableEq, Repr

/-- A stage-1 partial: the merge record of R172 less its generation. -/
structure Partial where
  key : Key
  source : Nat
  pass : Nat
  occ : Nat
  elems : List W16
deriving DecidableEq, Repr

/-- What a sweep's reads meet: the rows whose master, and those whose merge records, are uncorrectable, by stove; the dense blocks, by
entry and block; the reduction lines with an error, each by an element of it (R143, R215, R241). -/
structure SweepErr where
  rows : List (Nat × Key)
  dense : List (Nat × Nat)
  merge : List (Nat × Key)
  lines : List (Nat × Ecc)
deriving DecidableEq, Repr

/-- What a commit meets: the log entries that cannot be read, by stove the rows that the audit comes to before the next verdict, and
the rows whose master the audit cannot read (R212, R222). -/
structure CommitErr where
  log : List Nat
  audited : List Nat
  audit : List (Nat × Key)
deriving DecidableEq, Repr

/-- What a command carries, with what the error codes report of the memory it meets. -/
structure Met (α : Type) where
  val : α
  ecc : Ecc
deriving DecidableEq, Repr

/-- What the error codes report of a row's working record, or its ember line, and of its master (R177). -/
structure RowEcc where
  row : Ecc
  master : Ecc
deriving DecidableEq, Repr

/-- The kindler watchdog: its sub-cause, and the sub-unit in training where a step's budget has expired (R307, R316). -/
structure Hang where
  sub : Nat
  detail : Nat
deriving DecidableEq, Repr

/-- An access of the host die: a write of `data`, or a read of `len` bytes. -/
structure HostAcc where
  write : Bool
  data : List Byte
  len : Nat
  ecc : Ecc
deriving DecidableEq, Repr

/-- A power state to enter, with the time that each sequencer of the stove has waited (R253). -/
structure PowerTo where
  state : Nat
  waited : List Nat
deriving DecidableEq, Repr

/-- A module of a UCIe link tries a flit again, with success or not (R263). -/
structure FlitRetry where
  m : Nat
  ok : Bool
deriving DecidableEq, Repr

/-- A PCIe peer's data, and whether its address is the other root port's (R278). -/
structure PeerData where
  data : List Byte
  across : Bool
deriving DecidableEq, Repr

/-- A flit's payload and its CRC (R285). -/
structure FlitBody where
  payload : List Byte
  crc : Nat
deriving DecidableEq, Repr

/-- What another holder or member asks a sweep engine for (R215 to R217, R222, R241): the stove; what (`kind`, as `Fix`, and 9 for a
row's master); the key; the block, or the dense entry and its block; the blocks of a shard; and the number to answer under. -/
structure FixReq where
  st : Nat
  kind : Nat
  key : Key
  index : Nat
  block : Nat
  blocks : List Nat
  id : Nat
deriving DecidableEq, Repr

/-- What a GET asks for: so many bytes from its address on, or what a sweep needs (R288, R295, R215). -/
structure GetAsk where
  len : Nat
  sweep : Option FixReq
  ecc : Ecc
deriving DecidableEq, Repr

/-- One module's contribution to a verdict (R15, R189, R298). -/
structure Contribution where
  overflow : Bool
  taint : Bool
  listOk : Bool
  reqTotal : Nat
  partTotal : Nat
  hotShard : Nat
  hotTable : Nat
  hotStove : Nat
  hotReq : Nat
  listDigest : W64
  digest : List Byte
deriving DecidableEq, Repr

/-- The fields of a stoker command record (R258). `junk` says that a bit the command does not use is not zero. -/
structure StkRec where
  ctx : Nat
  kind : Nat
  slot : Nat
  prio : Nat
  aspace : Nat
  groups : Nat
  lend : Bool
  lendSem : Nat
  granules : Nat
  seqs : Nat
  weightWays : Nat
  atomicWays : Nat
  redWays : Nat
  mergeWays : Nat
  fabShare : Nat
  hbmQuota : Nat
  coldQuota : Nat
  va : Nat
  pages : Nat
  hint : Nat
  write : Bool
  host : Bool
  stove : Nat
  seq : Nat
  pslot : Nat
  entry : Nat
  sem : Nat
  chair : Bool
  hintUs : Nat
  junk : Bool
deriving DecidableEq, Repr

/-- The identity a port's partner sends in training (R282). -/
structure Partner where
  rink : Nat
  seat : Nat
  port : Nat
deriving DecidableEq, Repr

/-- The header of a link flit (R285). -/
structure FlitHdr where
  kind : Nat
  vc : Nat
  first : Bool
  last : Bool
  seq : Nat
  ack : Nat
  nak : Bool
  cvc : Nat
  credits : Nat
  len : Nat
deriving DecidableEq, Repr

/-- A memory tier's controller: stove `d` of the HBM tier, or chimney `d` of the cold tier (R239, R240). -/
inductive Tier where
  | hbm (d : Nat)
  | cold (d : Nat)
deriving DecidableEq, Repr

/-- What a transfer of migrated state carries (R193): a row's records, or an authoritative override entry of 64 bytes with no
master record. -/
structure Shipment where
  table : Nat
  row : Nat
  working : List Byte
  master : List Byte
deriving DecidableEq, Repr

/-- The commands, in the order of the table of operations and events. -/
inductive Instr where
  -- reset, power and kindling
  | powerOn
  | modResetN (lowSamples : Nat)
  | pltModReset (ag : Agent) (die : Nat) (value : W32)
  | kindlerWatchdog (w : Hang)
  | pllUnlock (die : Nat)
  | thermalTrip (die : Nat) (reading : Nat) (time : Nat)
  | tripCooldownRestart (hottest : Nat) (elapsedMs : Nat)
  | domainRelease (checkOk : Bool)
  | kindlingStep (pass : Bool) (detail : Nat) (straps : Nat)
  | journalEraseDone
  | railFault (rail : Nat)
  | inputLockout (overVolt : Bool)
  | preMate
  | mainSwitchClose (presentLow : Bool) (bulkWithin1V : Bool)
  | presentNBreak
  | softReset (ag : Agent) (die page : Nat)
  | srstDone (die page : Nat)
  | firmwareUpdate (type : Nat) (manifest image : List Byte)
  | clearStep (ag : Agent)
  | advanceSvn (ag : Agent)
  | preferCopy (ag : Agent)
  | attest (ag : Agent)
  | setRrstKey (ag : Agent)
  | jnlAppend (ag : Agent)
  | jnlRead (ag : Agent)
  | setHostpart (ag : Agent)
  | haltRelease (ag : Agent)
  | revokeKey (ag : Agent)
  | getVersion (req : List Byte)
  | getCapabilities (req : List Byte)
  | negotiateAlgorithms (req : List Byte)
  | getDigests (req : List Byte)
  | getCertificate (slot off len : Nat)
  | challenge (nonce : List Byte)
  | getMeasurements (index : Nat)
  | resetReq (payload : List Byte) (sinceMs : Nat)
  -- register pages
  | registerWrite (ag : Agent) (die page off : Nat) (value : W32) (be : BitVec 4)
  | loReadLatch (ag : Agent) (die page off : Nat)
  | hiReadLatched (ag : Agent) (die page off : Nat)
  | evtStatusClear (ag : Agent) (die page : Nat) (value sameCycle : W32)
  | evtSet (ag : Agent) (die page : Nat) (value : W32)
  | evtEnableWrite (ag : Agent) (die page : Nat) (value : W32)
  | evtIrqEnWrite (ag : Agent) (die page : Nat) (on : Bool)
  | blockEnableClear (ag : Agent) (die page : Nat)
  | blockEnableSet (ag : Agent) (die page : Nat)
  | errPop (ag : Agent) (die page : Nat)
  | errCountClear (ag : Agent) (die page : Nat) (value : W32)
  | lockCfg (ag : Agent) (die page : Nat)
  | lockEvt (ag : Agent) (die page : Nat)
  | sourceUnmask (ag : Agent) (die src : Nat) (value : W32)
  | holeAccess (addr : Nat) (a : HostAcc)
  -- program store and scalar streams
  | seqLoad (ag : Agent) (st : Nat) (value : W32)
  | gateDone (st : Nat) (timing : Option (Nat × Nat))
  | seqCommit (ag : Agent) (st : Nat) (value : W32)
  | slotTableWrite (ag : Agent) (st slot : Nat) (owner : Bool) (value : W32)
  | nop (i : Iss)
  | marker (i : Iss) (value : W32) (propagate : Bool) (cycle : Nat)
  | markerUnitRecord (ctx : Nat) (value : W32) (source cycle : Nat)
  | endI (i : Iss)
  | endStop (st sq : Nat)
  | br (i : Iss) (cond a b target : Nat)
  | loop (i : Iss) (n target : Nat)
  | sli (i : Iss) (d : Nat) (imm : W32)
  | salu (i : Iss) (fn d a b : Nat)
  | sld (i : Iss) (d : Nat) (a : Opd)
  | sst (i : Iss) (r : Nat) (a : Opd)
  | semopPost (i : Iss) (sem value : Nat)
  | semopSet (i : Iss) (sem value : Nat)
  -- units
  | matmul (i : Iss) (p : ProdOps)
  | matmulT (i : Iss) (p : ProdOps)
  | matmulWg (i : Iss) (p : ProdOps)
  | reduceToScalar (i : Iss) (op d : Nat) (shift : Int) (thresh : W16) (a : Opd)
  | copy (i : Iss) (a b : Opd)
  | liftFill (i : Iss) (a b : Opd)
  | liftRelease (i : Iss) (a : Opd)
  | vop (i : Iss) (v : VopOps)
  | lnFwd (i : Iss) (r : RowOps)
  | lnBwd (i : Iss) (r : RowOps)
  | rmsFwd (i : Iss) (r : RowOps)
  | rmsBwd (i : Iss) (r : RowOps)
  | smaxFwd (i : Iss) (r : RowOps)
  | smaxBwd (i : Iss) (r : RowOps)
  | lsmaxFwd (i : Iss) (r : RowOps)
  | lsmaxBwd (i : Iss) (r : RowOps)
  | chunk (i : Iss) (r : RowOps)
  | finish (i : Iss) (r : RowOps)
  | resetRows (i : Iss) (r : RowOps)
  | embLookup (i : Iss) (features : Nat) (a b c : Opd)
  | embGrad (i : Iss) (features : Nat) (a c : Opd)
  | embGradFragments (id : Nat)
  | addN16 (i : Iss) (h : HatomOps)
  | addB16 (i : Iss) (h : HatomOps)
  | maxN16 (i : Iss) (h : HatomOps)
  | minN16 (i : Iss) (h : HatomOps)
  | cas32 (i : Iss) (h : HatomOps)
  | inc32 (i : Iss) (h : HatomOps)
  | rbClose (i : Iss) (sem : Nat)
  | allReduce (i : Iss) (c : CollOps)
  | reduceScatter (i : Iss) (c : CollOps)
  | allGather (i : Iss) (c : CollOps)
  | allToAll (i : Iss) (c : CollOps)
  | broadcast (i : Iss) (c : CollOps)
  | flagOr (i : Iss) (c : CollOps)
  | maxColl (i : Iss) (c : CollOps)
  | put (i : Iss) (c : CollOps)
  | get (i : Iss) (c : CollOps)
  | piste (i : Iss) (c : CollOps)
  | stepEnd (i : Iss)
  | instructionComplete (id : Nat)
  | arrayBeat (st arr : Nat) (res : BeatRes)
  | beatReexec (st failed sub : Nat) (res : BeatRes)
  | treePass (id : Nat) (tile : Met Nat)
  | clearMismatchCnt (ag : Agent) (st arr : Nat)
  | markRetest (ag : Agent) (st arr : Nat)
  -- scratchpad and lifts
  | scrubRead (st slice : Nat) (ecc : Ecc) (syndrome : Nat)
  | hostScratchpadWrite (addr : Nat) (data : Met (List Byte))
  | liftEnable (ag : Agent) (st k : Nat) (value : W32)
  | liftDisable (ag : Agent) (st k : Nat) (value : W32)
  | liftReset (ag : Agent) (st k : Nat)
  | chairFillComplete (st k chair : Nat) (ecc : Ecc)
  -- row-engine handles
  | handleWrite (ag : Agent) (st : Nat)
  | handleRead (ag : Agent) (st : Nat)
  | handleClear (ag : Agent) (st : Nat)
  -- hearth
  | rbAddition (n : Nat) (ecc : Ecc)
  | rbCloseCounted (slot ctx : Nat)
  | rbWalk (st slot : Nat)
  | rbEnable (ag : Agent) (st slot : Nat) (value : W32)
  | rbDisable (ag : Agent) (st slot : Nat) (value : W32)
  | atomAddApply (st w : Nat)
  | atomTimeout (st w n : Nat)
  | atomicWindowBind (ag : Agent) (st w : Nat)
  | atomicWindowUnbind (ag : Agent) (st w : Nat)
  | atomicWindowReset (ag : Agent) (st w : Nat)
  | hthFlush (ag : Agent) (st : Nat)
  -- embedding complex
  | hopperRingEnable (ag : Agent) (st h : Nat) (value : W32)
  | hopperDoorbell (ag : Agent) (st h tail : Nat)
  | announcementReread (st h : Nat)
  | hopperBlockWrite (st h : Nat) (ecc : Ecc)
  | blockCoverage (st : Nat)
  | fragment (st : Nat)
  | lookup (st : Nat) (m : MsgHdr) (k : Key) (epoch : Nat) (eval : Bool) (reqStove : Nat) (ecc : RowEcc)
  | row (st : Nat) (m : MsgHdr) (k : Key) (data : List Byte)
  | redirect (st : Nat) (m : MsgHdr) (k : Key) (h : Holders)
  | invalid (st : Nat) (m : MsgHdr) (k : Key) (reason : Nat)
  | partialI (st : Nat) (m : MsgHdr) (p : Met Partial)
  | emberAdmit (st slot : Nat) (k : Key)
  | replica (st : Nat) (m : MsgHdr) (k : Key) (epoch : Nat) (data : List Byte)
  | embJobEnable (ag : Agent) (st slot : Nat) (value : W32)
  | embJobDisable (ag : Agent) (st slot : Nat) (value : W32)
  -- steps, verdict, sweep
  | step (ctx : Nat)
  | stepWaitResume (ctx : Nat)
  | verdictStart (slot : Nat)
  | verdict (m : MsgHdr) (c : Contribution)
  | verdictDone (slot : Nat) (e : SweepErr) (unit : List (Nat × Ecc))
  | verdictTimeout (slot : Nat)
  | ship (st : Nat) (m : MsgHdr) (s : Shipment)
  | ack (st : Nat) (m : MsgHdr) (what : Nat)
  | digest (st : Nat) (m : MsgHdr) (table number : Nat) (shard : Bool) (value : List Byte)
  | commitVoteJoin (slot : Nat)
  | vote (m : MsgHdr) (fault overflow : Bool)
  | voteResult (slot : Nat)
  | voteTimeout (slot : Nat)
  | sweepCommit (slot : Nat) (e : CommitErr)
  | swpJobEnable (ag : Agent) (st slot : Nat) (value : W32)
  | swpJobDisable (ag : Agent) (st slot : Nat) (value : W32)
  | swpDmpInit (ag : Agent) (st slot : Nat) (value : W32)
  | suspectClear (ag : Agent) (st n : Nat) (value : W32)
  | suspLostClear (ag : Agent) (st : Nat) (value : W32)
  -- memory tiers
  | tmDecay (st : Nat)
  | pageMoveComplete (n : Nat) (ecc : Ecc)
  | patrolScrub (t : Tier) (unit : Nat) (ecc : Ecc) (syndrome : Nat)
  | accessLate (t : Tier) (ctx cause cycles : Nat)
  | requestTimeout (t : Tier) (part ctx addr : Nat) (cls : Nat)
  -- stoker
  | create (ag : Agent) (st : Nat) (r : StkRec)
  | lease (ag : Agent) (st : Nat) (r : StkRec)
  | start (ag : Agent) (st : Nat) (r : StkRec)
  | stop (ag : Agent) (st : Nat) (r : StkRec)
  | resume (ag : Agent) (st : Nat) (r : StkRec)
  | release (ag : Agent) (st : Nat) (r : StkRec)
  | destroy (ag : Agent) (st : Nat) (r : StkRec)
  | map (ag : Agent) (st : Nat) (r : StkRec)
  | unmap (ag : Agent) (st : Nat) (r : StkRec)
  | hint (ag : Agent) (st : Nat) (r : StkRec)
  | contextBind (ctx : Met Nat)
  | rebindComplete (ctx : Nat) (us : Met Nat)
  | loanCut (ctx : Nat)
  | borrowerStopped (ctx : Nat)
  | powerStateEnter (st : Nat) (p : PowerTo)
  | powerExit (st : Nat)
  | wake (st : Nat) (heldCycles : Nat)
  | coldEnter (ag : Agent)
  | coldExit (source : Nat)
  | throttleLevelChange (st temp power : Nat)
  | thermalHold (st : Nat)
  | thermalGateEnd (st : Nat)
  -- host coupling
  | ucieFlitRetry (die link : Nat) (r : FlitRetry)
  | linkRetrain (die link m : Nat) (ok : Bool) (repaired : Bool)
  | retrain (ag : Agent) (die link : Nat)
  | badPacket (die link : Nat) (word0 : W32)
  | ringWrite (ag : Agent) (st : Nat)
  | ringRead (ag : Agent) (st : Nat)
  | doorbell (ag : Agent) (ctx : Nat) (value : W32)
  | descriptorFetch (ctx : Nat)
  | descriptorReread (ctx : Nat)
  | run (ctx : Nat)
  | inlineI (ctx : Met Nat)
  | post (ctx : Nat)
  | note (ctx : Nat)
  | completionRecordAck (ctx : Nat)
  | flashMailboxStore (ag : Agent) (st : Nat) (data : List Byte)
  | stopNow (st : Nat)
  | stopNowComplete (ctx : Nat)
  | lossScaleOverride (st : Nat)
  | standinDirective (st : Nat)
  | standinDone
  | ntTimeout
  | peerAccess (port addr : Nat) (write : Bool) (d : PeerData)
  -- fabric
  | portTraining (p : Nat) (partner : Partner)
  | portRetrain (ag : Agent) (p : Nat)
  | flit (p : Nat) (h : FlitHdr) (b : FlitBody)
  | portDown (p : Nat)
  | getRequest (m : MsgHdr) (addr : Nat) (q : GetAsk)
  | putRequest (m : MsgHdr) (addr : Nat) (data : List Byte)
  | data (m : MsgHdr) (id : Nat) (bytes : List Byte)
  | unreachable (m : MsgHdr) (st : Nat) (k : Option Key) (id : Nat)
  | cdata (m : MsgHdr) (op count chunk level node : Nat) (bytes : List Byte)
  | collectiveTimeout (slot cseq : Nat)
  | abort (m : MsgHdr)
  | nameUpdate (lid rink seat version oldRink oldSeat from_ : Nat)
  | nameAck (lid rink seat version : Nat) (conflict : Bool)
  | seatState (rink seat state lid : Nat)
  | linkState (rink rink2 : Nat) (up : Bool)
  | pisteLoad (ag : Agent) (value : W32)
  | pisteSwitch (slot : Nat)
  | drain (ag : Agent)
  | colJobEnable (ag : Agent) (slot : Nat) (value : W32)
  | colJobDisable (ag : Agent) (slot : Nat) (value : W32)
  | tempHigh (die temp : Nat)
  | berHigh (p : Nat) (measured : W32)
deriving DecidableEq, Repr

end Sys2Proof
end

