-- ==== Sys2Proof/Config.lean ====
section
/-! DEFINITION. What one implementation fixes and the spec leaves open. Every constant here is opaque: nothing can be
proved of its value, so a statement that mentions one holds whatever it is. -/

namespace Sys2Proof

/-- SEQ_LAT_LEVEL: the latency-table level of the loaded stove microcode (R91, R100). -/
opaque Config.latLevel : BitVec 16

/-- The destination of a collective that ends with a failure is left undefined (R297): byte `k` of the n-th such
destination. A free value, drawn with the counter `State.free`. -/
opaque Config.freeByte : Nat → Nat → Byte

/-- An N16 value that the spec does not state: `n` is drawn from `State.free`, `k` tells the values of one draw apart. -/
opaque Config.freeW16 : Nat → Nat → W16

/-- An N16 value that the spec does not state and that its logical inputs fix, so that a rerun of the work gives it again (R2). -/
opaque Config.stableW16 : List Nat → W16

/-- Fused key digests 0 to 3, 64 bytes each, as sensed at release 1 (R321). -/
opaque Config.fusedKeyDigest : Nat → List Byte

/-- The 64-byte fused unique seed (R325). -/
opaque Config.fuseSeed : List Byte

/-- The manifest of an image that the module was delivered with: copy × 16 + type (R318, R320). -/
opaque Config.factoryManifest : Nat → List Byte

/-- Pure Ed448 signature check of RFC 8032 with empty context: public key, message, signature (R321, R328). The
standard is named by the spec and not laid down in it. -/
opaque Config.ed448Verify : List Byte → List Byte → List Byte → Bool

/-- Ed448 public key of a private key (R325, RFC 8032). -/
opaque Config.ed448Public : List Byte → List Byte

/-- Ed448 signature of a message by a private key (R326, RFC 8032). -/
opaque Config.ed448Sign : List Byte → List Byte → List Byte

/-- The identity certificate chain, X.509 in DER, held in the recovery region (R325). -/
opaque Config.certChain : List Byte

/-- SPDM response bodies fixed by DMTF SPDM 1.3 and not by the spec (R327): request code and request body. -/
opaque Config.spdmBody : Nat → List Byte → List Byte

/-- The job seed of the job that bears a job tag (R40, R294). The spec makes it an input of every rounding and names no
register that holds it. -/
opaque Config.jobSeed : W32 → W64

/-- Byte `k` of the payload of a journal record of a type with fields (R331: the fields are named, their places are not). -/
opaque Config.jnlByte : Nat → List Nat → Nat → Byte

/-- Bytes that an entry of the key area takes (R173): kind 0 a block's coverage, 1 a run, 2 a fragment of `n` elements. -/
opaque Config.keyBytes : Nat → Nat → Nat

/-- The four hash functions of the admission sketch (R175): function `k` of table and row. -/
opaque Config.sketchHash : Nat → Nat → Nat → Nat

/-- The hottest die of stack 5 × stove + c, in °C (R242), at a moment that the model's counter names. -/
opaque Config.stackTemp : Nat → Nat → BitVec 8

/-- Does a stack refresh at the raised rate (R242)? -/
opaque Config.stackHot : Nat → Nat → Bool

/-- KiB that a link end has sent (0) or received (1): die × 8 + link (R279). -/
opaque Config.linkKb : Nat → Nat → Nat → W32

/-- Is the local link between two other seats of the rink up, at a moment that the model's counter names (R289)? A module sees its own
links only. -/
opaque Config.localLink : Nat → Nat → Nat → Bool

/-- Codewords that a port's FEC has corrected (0) or could not correct (1), at a moment that the model's counter names (R305): no
command tells them. -/
opaque Config.fecWords : Nat → Nat → Nat → W32

/-- The number of the die's sensor that trips (R309, R331): nothing names it. -/
opaque Config.tripSensor : Nat → Nat → Nat

/-- Where in a slot the manifest of a copy of a type is written (R318): copy × 16 + type, and the image's length. -/
opaque Config.slotPlace : Nat → Nat → Nat

/-- The manifest that the report's entry of the recovery bundle is made from (R326): the spec does not say which of the members', or
what of them. -/
opaque Config.bundleManifest : List (List Byte) → List Byte

/-- R, the number of rinks of the system (R284): no register names it. -/
opaque Config.rinks : Nat

end Sys2Proof
end

