-- ==== Sys2Proof/Machine/Bits.lean ====
section
/-! DEFINITION. Bit fields, byte order, saturating counts and the two cyclic redundancy codes of the manual (R285, R329).
All multi-byte values are little-endian (R69). -/

namespace Sys2Proof.Machine

/-- Bits [hi:lo] of a number. -/
def bits (w hi lo : Nat) : Nat := w / 2 ^ lo % 2 ^ (hi + 1 - lo)

/-- Bit `k` of a number. -/
def bitOf (w k : Nat) : Bool := w / 2 ^ k % 2 == 1

/-- A flag as a number. -/
def b2n (b : Bool) : Nat := if b then 1 else 0

/-- Field [hi:lo] of a register word. -/
def fld (w : W32) (hi lo : Nat) : Nat := bits w.toNat hi lo

/-- A register word with field [hi:lo] replaced. -/
def setFld (w : W32) (hi lo v : Nat) : W32 :=
  let m := 2 ^ (hi + 1 - lo) - 1
  BitVec.ofNat 32 ((w.toNat &&& (0xFFFFFFFF - m * 2 ^ lo)) ||| (v % (m + 1)) * 2 ^ lo)

/-- A number as a register word. -/
def w32 (n : Nat) : W32 := BitVec.ofNat 32 n

/-- A sum of fields `(value, lowest bit)` as a register word. -/
def pack : List (Nat × Nat) → W32
  | [] => 0
  | (v, lo) :: t => w32 (v * 2 ^ lo) + pack t

/-- The little-endian value of a byte list. -/
def leNat : List Byte → Nat
  | [] => 0
  | b :: t => b.toNat + 256 * leNat t

/-- `n` little-endian bytes of a number. -/
def leBytes : Nat → Nat → List Byte
  | 0, _ => []
  | n + 1, v => BitVec.ofNat 8 (v % 256) :: leBytes n (v / 256)

/-- The value of bytes [off, off + n) of a list, little-endian; bytes past its end count as zero. -/
def leAt (l : List Byte) (off n : Nat) : Nat := leNat ((l.drop off).take n)

/-- A list cut or filled with zero bytes to a length. -/
def fitBytes (n : Nat) (l : List Byte) : List Byte := l.take n ++ List.replicate (n - l.length) 0

/-- A count that stops at its limit. -/
def satAdd (lim a b : Nat) : Nat := min lim (a + b)

/-- Rounds up to a multiple. -/
def alignUp (n k : Nat) : Nat := (n + k - 1) / k * k

/-- Quotient rounded up. -/
def cdiv (a b : Nat) : Nat := (a + b - 1) / b

/-- The numbers of a list that satisfy a test, lowest `n` first. -/
def pick (n : Nat) (p : Nat → Bool) (l : List Nat) : List Nat := (l.filter p).take n

/-- Entry `k` of a list, or a default. -/
def nth {α : Type} (d : α) (l : List α) (k : Nat) : α := l.getD k d

/-- Is the number listed? -/
def has (l : List Nat) (k : Nat) : Bool := l.contains k

/-- A list with a number put at its end unless it is there already. -/
def addOnce (l : List Nat) (k : Nat) : List Nat := if l.contains k then l else l ++ [k]

end Sys2Proof.Machine
end

