-- ==== Sys2Proof/Machine/Num.lean ====
section
/-! DEFINITION. Exact values, grids, rounding, scales and the dither generator (R21 to R30, R40, R41). Every stored value is a
code; between codes the arithmetic is exact, over the rationals. -/

namespace Sys2Proof.Machine

/-- 2 to an integer power. -/
def pow2 (e : Int) : ℚ := if 0 ≤ e then ((2 ^ e.toNat : Nat) : ℚ) else 1 / ((2 ^ (-e).toNat : Nat) : ℚ)

/-- Magnitude. -/
def rabs (x : ℚ) : ℚ := if x < 0 then -x else x

/-- Floor of a rational. -/
def rfloor (x : ℚ) : Int := x.num.fdiv x.den

/-- k with 2^k ≤ x < 2^(k+1), for positive x. -/
def ilog2 (x : ℚ) : Int :=
  let k : Int := (Nat.log2 x.num.natAbs : Int) - (Nat.log2 x.den : Int)
  if pow2 k ≤ x then k else k - 1

/-- The grid spacing of N16 at a magnitude (R27). -/
def qN16 (x : ℚ) : ℚ := if x = 0 then pow2 (-70) else pow2 (max (ilog2 (rabs x)) (-62) - 8)

/-- round_grid (R28). `none` rounds to nearest even, `some u` stochastically with the draw `u`. -/
def roundGrid (x q : ℚ) (u : Option Nat) : ℚ :=
  let n := rfloor (x / q)
  let lo := (n : ℚ) * q
  let f := (x - lo) / q
  if f = 0 then lo
  else
    match u with
    | none => if f > 1 / 2 then lo + q else if f < 1 / 2 then lo else if n % 2 = 0 then lo else lo + q
    | some u => if (u : Int) < rfloor (f * 65536) then lo + q else lo

/-- A rounded value with the range events of R28. -/
structure Rd where
  val : ℚ
  sat : Bool
  flush : Bool
deriving DecidableEq, Repr

/-- The end of a conversion (R28): saturation at ± `lim`, then the flush test. -/
def finishRd (x r lim : ℚ) : Rd :=
  if rabs r > lim then { val := if x < 0 then -lim else lim, sat := true, flush := false }
  else { val := r, sat := false, flush := x ≠ 0 ∧ r = 0 }

/-- The largest N16 magnitude (R27). -/
def maxN16 : ℚ := pow2 56 * 511

/-- Conversion to N16 (R27, R28). -/
def roundN16 (x : ℚ) (u : Option Nat) : Rd := finishRd x (roundGrid x (qN16 x) u) maxN16

/-- The value of an N16 code (R27). -/
def decN16 (c : W16) : ℚ :=
  let n := c.toNat
  let e := bits n 14 8
  let m : ℚ := if e = 0 then (bits n 7 0 : ℚ) * pow2 (-70) else ((256 + bits n 7 0 : Nat) : ℚ) * pow2 ((e : Int) - 71)
  if bitOf n 15 then -m else m

/-- The N16 code of a value of the N16 grid; zero is positive zero (R28). -/
def encN16 (v : ℚ) : W16 :=
  if v = 0 then 0
  else
    let a := rabs v
    let s := if v < 0 then 0x8000 else 0
    if a < pow2 (-62) then BitVec.ofNat 16 (s + (rfloor (a * pow2 70)).toNat)
    else
      let k := ilog2 a
      BitVec.ofNat 16 (s + (k + 63).toNat * 256 + ((rfloor (a * pow2 (8 - k))).toNat - 256))

/-- Round to nearest even, to a code. -/
def rneN16 (x : ℚ) : W16 := encN16 (roundN16 x none).val

/-- The value of an F4 code (R21). -/
def decF4 (c : Nat) : ℚ :=
  let m : ℚ := match c % 8 with
    | 0 => 0 | 1 => 1 / 2 | 2 => 1 | 3 => 3 / 2 | 4 => 2 | 5 => 3 | 6 => 4 | _ => 6
  if c % 16 < 8 then m else -m

/-- A two's complement field as an integer. -/
def sx (n w : Nat) : Int := if n % 2 ^ w < 2 ^ (w - 1) then (n % 2 ^ w : Int) else (n % 2 ^ w : Int) - 2 ^ w

/-- The code value of an element (R21 to R23, R26), less its scale: F4 at its R21 value, block formats as fractions. -/
def codeVal (f : Fmt) (zp c : Nat) : ℚ :=
  match f with
  | .f4 => decF4 c
  | .i4s => sx c 4
  | .i4u => (c % 16 : Int) - zp
  | .i3s => sx c 3
  | .i3u => (c % 8 : Int) - zp
  | .i2s => sx c 2
  | .t2 => if c % 4 = 1 then 1 else if c % 4 = 3 then -1 else 0
  | .b8 => sx c 8
  | .b16 => sx c 16
  | .n16 => decN16 (BitVec.ofNat 16 c)

/-- The 5-bit multiplier operand of an element (R24): twice an F4 value, otherwise the value. -/
def mulOperand (f : Fmt) (zp c : Nat) : Int :=
  match f with
  | .f4 => rfloor (2 * decF4 c)
  | _ => rfloor (codeVal f zp c)

/-- What is taken from a scale exponent to reach the grid of a format: 127, or 134 and 142 with the fraction bits of the
block formats (R25, R26). -/
def scaleBias : Fmt → Int
  | .b8 => 134
  | .b16 => 142
  | _ => 127

/-- The exact value of an element of a scaled format, or of N16, which has no scale. -/
def elemVal (f : Fmt) (zp c e : Nat) : ℚ :=
  match f with
  | .n16 => decN16 (BitVec.ofNat 16 c)
  | _ => codeVal f zp c * pow2 ((e : Int) - scaleBias f)

/-- Does the format carry block scales? -/
def scaled : Fmt → Bool
  | .n16 => false
  | _ => true

/-- Bits an element takes in memory (R75, R26, R27). -/
def fmtBits : Fmt → Nat
  | .f4 | .i4s | .i4u | .i3s | .i3u => 4
  | .i2s | .t2 => 2
  | .b8 => 8
  | .b16 | .n16 => 16

/-- The bounds L_pos and L_neg of R30. -/
def fmtBounds (f : Fmt) (zp : Nat) : ℚ × ℚ :=
  match f with
  | .f4 => (6, 6)
  | .i4s => (7, 8)
  | .i3s => (3, 4)
  | .i2s => (1, 2)
  | .t2 => (1, 1)
  | .i4u => (((15 : Int) - zp : Int), zp)
  | .i3u => (((7 : Int) - zp : Int), zp)
  | .b8 => (127, 127)
  | .b16 => (32767, 32767)
  | .n16 => (maxN16, maxN16)

/-- The smallest exponent k with y ≤ 2^k, for positive y. -/
def ceilLog2 (y : ℚ) : Int := let k := ilog2 y; if pow2 k = y then k else k + 1

/-- The S8 that one value asks for (R30); a value beyond a zero bound asks for none. -/
def needScale (f : Fmt) (zp : Nat) (x : ℚ) : Nat :=
  let b := fmtBounds f zp
  let l := if x < 0 then b.2 else b.1
  if x = 0 ∨ l = 0 then 0
  else (min 255 (max 0 (ceilLog2 (rabs x / l) + scaleBias f))).toNat

/-- The S8 chosen for a block (R30). -/
def chooseScale (f : Fmt) (zp : Nat) (xs : List ℚ) : Nat := xs.foldl (fun e x => max e (needScale f zp x)) 0

/-- The F4 magnitudes in half units. -/
def f4Grid : List Nat := [0, 1, 2, 3, 4, 6, 8, 12]

/-- The largest F4 value not above y, and the smallest above it, within −6 to 6 (R28). -/
def f4Below (y : ℚ) : ℚ :=
  let vals : List ℚ := (f4Grid.map fun n => (n : ℚ) / 2) ++ (f4Grid.map fun n => -((n : ℚ) / 2))
  (vals.filter fun v => v ≤ y).foldl max (-6)

/-- The smallest F4 value above y. -/
def f4Above (y : ℚ) : ℚ :=
  let vals : List ℚ := (f4Grid.map fun n => (n : ℚ) / 2) ++ (f4Grid.map fun n => -((n : ℚ) / 2))
  (vals.filter fun v => y < v).foldl min 6

/-- The F4 code of a value of the F4 set. -/
def f4Code (v : ℚ) : Nat :=
  let i := ((f4Grid.zipIdx.find? fun p => (p.1 : ℚ) / 2 = rabs v).map (·.2)).getD 0
  if v < 0 then i + 8 else i

/-- F4 rounding on y = x / 2^(e−127) (R28). -/
def roundF4 (y : ℚ) (u : Option Nat) : Rd :=
  if rabs y > 6 then { val := if y < 0 then -6 else 6, sat := true, flush := false }
  else
    let lo := f4Below y
    let hi := f4Above y
    let r :=
      if y = lo then lo
      else
        match u with
        | none => if hi - y < y - lo then hi else if y - lo < hi - y then lo
                  else if f4Code lo % 2 = 0 then lo else hi
        | some u => if (u : Int) < rfloor ((y - lo) / (hi - lo) * 65536) then hi else lo
    { val := r, sat := false, flush := y ≠ 0 ∧ r = 0 }

/-- Two's complement bits of an integer. -/
def twos (n : Int) (w : Nat) : Nat := (n % 2 ^ w).toNat

/-- A conversion to a scaled format at scale e: its code and its range events (R28, R30). -/
def quantize (f : Fmt) (zp e : Nat) (x : ℚ) (u : Option Nat) : Nat × Rd :=
  match f with
  | .f4 =>
    let r := roundF4 (x * pow2 (127 - e)) u
    (f4Code r.val, r)
  | .n16 =>
    let r := roundN16 x u
    ((encN16 r.val).toNat, r)
  | _ =>
    let g := pow2 ((e : Int) - scaleBias f)
    let b := fmtBounds f zp
    let r := roundGrid x g u / g
    let rd : Rd :=
      if (b.1 = 0 ∧ x > 0) ∨ (b.2 = 0 ∧ x < 0) then { val := 0, sat := true, flush := false }
      else if r > b.1 then { val := b.1, sat := true, flush := false }
      else if r < -b.2 then { val := -b.2, sat := true, flush := false }
      else { val := r, sat := false, flush := x ≠ 0 ∧ r = 0 }
    let c := rfloor rd.val
    let code := match f with
      | .i4u | .i3u => (c + zp).toNat
      | .t2 => twos c 2
      | .i4s => twos c 4
      | .i3s => twos c 3
      | .i2s => twos c 2
      | .b8 => twos c 8
      | _ => twos c 16
    (code, { rd with val := rd.val * g })

/-- A rotation of a 64-bit word (R40). -/
def rotl64 (v : W64) (c : Nat) : W64 := v.rotateLeft c

/-- One round of the dither generator (R40): k, x, y. -/
def ditherRound (t : W64 × W64 × W64) : W64 × W64 × W64 :=
  let k := t.1 + 0x9E3779B97F4A7C15
  let x := (t.2.1 ^^^ k) * 0xB7E151628AED2A6B
  let y := (t.2.2 + rotl64 x 23) * 0xE3C69A57B24D1F35
  (k, x ^^^ rotl64 y 41, y)

/-- dither(seed, step, tid, idx, site) (R40). -/
def dither (seed : W64) (step tid idx site : Nat) : W64 :=
  let x := BitVec.ofNat 64 (idx + site * 2 ^ 40 + tid % 65536 * 2 ^ 48)
  let y := BitVec.ofNat 64 (step + tid / 65536 * 2 ^ 48 + 0x5C * 2 ^ 56)
  let r := ditherRound (ditherRound (ditherRound (ditherRound (ditherRound (ditherRound (seed, x, y))))))
  r.2.1 ^^^ r.2.2

/-- fold40 (R41). -/
def fold40 (a b : Nat) : Nat :=
  let t : W64 := BitVec.ofNat 64 (a % 2 ^ 64)
  let t := t ^^^ (t >>> 40)
  let t := t * 0xD35A2D971C6F8B63
  let t := t ^^^ (t >>> 29)
  (t.toNat + b) % 2 ^ 40

/-- The two inputs of the dither that a context or a job fixes (R40, R44). -/
structure Draw where
  seed : W64
  step : Nat
deriving DecidableEq, Repr

/-- The 16-bit draw of one rounding (R40). -/
def Draw.u (d : Draw) (tid idx site : Nat) : Option Nat := some ((dither d.seed d.step tid idx site).toNat % 65536)

/-- Stored N16 values that count as near limit (R45). -/
def nearN16 (v : ℚ) : Bool := v ≠ 0 ∧ (rabs v ≥ pow2 64 ∨ rabs v < pow2 (-61))

/-- Block scales that count as near limit (R45): a block of zeros never does. -/
def nearScale (e : Nat) (xs : List ℚ) : Bool := (e ≤ 1 || e ≥ 254) && xs.any (· ≠ 0)

/-- N16 combine: stochastic rounding of a sum at a site (R34, R36, R37). -/
def combineN16 (d : Draw) (tid site idx : Nat) (x : ℚ) : Rd := roundN16 x (d.u tid idx site)

/-- Range events of roundings that are not stored: saturated and flushed counts. -/
abbrev Ev := Nat × Nat

/-- Adds the events of a rounding. -/
def evAdd (e : Ev) (r : Rd) : Ev := (e.1 + b2n r.sat, e.2 + b2n r.flush)

/-- One level of tree_sum (R36): pairs are combined in order, an odd last value is carried up. -/
def treeLevel (rnd : Nat → ℚ → Rd) : Nat → Ev → List ℚ → List ℚ × Nat × Ev
  | n, e, a :: b :: t =>
    let r := rnd n (a + b)
    let x := treeLevel rnd (n + 1) (evAdd e r) t
    (r.val :: x.1, x.2)
  | n, e, t => (t, n, e)

/-- tree_sum over at most 2^fuel values (R36). -/
def treeSumAux (rnd : Nat → ℚ → Rd) : Nat → Nat → Ev → List ℚ → ℚ × Ev
  | 0, _, e, v => (v.headD 0, e)
  | f + 1, n, e, v =>
    if v.length ≤ 1 then (v.headD 0, e)
    else
      let x := treeLevel rnd n e v
      treeSumAux rnd f x.2.1 x.2.2 x.1

/-- tree_sum (R36). -/
def treeSum (rnd : Nat → ℚ → Rd) (v : List ℚ) : ℚ × Ev := treeSumAux rnd 40 0 (0, 0) v

/-- The state of stream_sum (R37): stack newest first, carry, next combine number, events. -/
structure Strm where
  stack : List (ℚ × Nat) := []
  carry : Option ℚ := none
  n : Nat := 0
  ev : Ev := (0, 0)
deriving DecidableEq, Repr

/-- Combines equal levels at the top of the stack; level 24 goes to the carry (R37). -/
def strmReduce (rnd : Nat → ℚ → Rd) : Nat → Strm → Strm
  | 0, s => s
  | f + 1, s =>
    match s.stack with
    | (b, l) :: (a, k) :: t =>
      if l = k then
        let r := rnd s.n (a + b)
        let s := { s with stack := t, n := s.n + 1, ev := evAdd s.ev r }
        if l + 1 = 24 then
          match s.carry with
          | none => strmReduce rnd f { s with carry := some r.val }
          | some c =>
            let r' := rnd s.n (c + r.val)
            strmReduce rnd f { s with carry := some r'.val, n := s.n + 1, ev := evAdd s.ev r' }
        else strmReduce rnd f { s with stack := (r.val, l + 1) :: s.stack }
      else s
    | _ => s

/-- Pushes a node of level l (R37, R171). -/
def strmPush (rnd : Nat → ℚ → Rd) (s : Strm) (v : ℚ) (l : Nat) : Strm :=
  strmReduce rnd 30 { s with stack := (v, l) :: s.stack }

/-- The final collapse, newest first, and the carry (R37). -/
def strmFinish (rnd : Nat → ℚ → Rd) : Nat → Strm → Option ℚ × Ev
  | 0, s => (none, s.ev)
  | f + 1, s =>
    match s.stack with
    | (b, _) :: (a, la) :: t =>
      let r := rnd s.n (a + b)
      strmFinish rnd f { s with stack := (r.val, la + 1) :: t, n := s.n + 1, ev := evAdd s.ev r }
    | [(r, _)] =>
      match s.carry with
      | none => (some r, s.ev)
      | some c => let x := rnd s.n (c + r); (some x.val, evAdd s.ev x)
    | [] => (s.carry, s.ev)

/-- stream_sum (R37). -/
def streamSum (rnd : Nat → ℚ → Rd) (vs : List ℚ) : Option ℚ × Ev :=
  strmFinish rnd 60 (vs.foldl (fun s v => strmPush rnd s v 0) {})

/-- Combines made after m elements, before the collapse (R171). -/
def ncount (m : Nat) : Nat :=
  let c := m / 2 ^ 24
  let v := m % 2 ^ 24
  c * (2 ^ 24 - 1) + (c - 1) + v - (List.range 24).foldl (fun k i => k + b2n (bitOf v i)) 0

end Sys2Proof.Machine
end

