-- ==== Sys2Proof/Machine/Funcs.lean ====
section
/-! DEFINITION. Correctly rounded functions (R131), the functions of the drain and their tables (R57 to R60). Where a
value is not rational it is enclosed between two rationals, more and more closely, until both ends round alike. -/

namespace Sys2Proof.Machine

/-- An enclosure. -/
structure Iv where
  lo : ℚ
  hi : ℚ
deriving DecidableEq, Repr

/-- A point. -/
def Iv.pt (x : ℚ) : Iv := ⟨x, x⟩

/-- Outward rounding to a grid of 2^(−p) relative to the size of the value. -/
def Iv.trim (p : Nat) (a : Iv) : Iv :=
  let s := max (rabs a.lo) (rabs a.hi)
  if s = 0 then a
  else
    let g := pow2 (ilog2 s - p)
    ⟨(rfloor (a.lo / g) : ℚ) * g, ((rfloor (a.hi / g) + 1 : Int) : ℚ) * g⟩

/-- Sum of enclosures. -/
def Iv.add (a b : Iv) : Iv := ⟨a.lo + b.lo, a.hi + b.hi⟩

/-- Negation. -/
def Iv.neg (a : Iv) : Iv := ⟨-a.hi, -a.lo⟩

/-- Product. -/
def Iv.mul (a b : Iv) : Iv :=
  let p := a.lo * b.lo
  let q := a.lo * b.hi
  let r := a.hi * b.lo
  let t := a.hi * b.hi
  ⟨min (min p q) (min r t), max (max p q) (max r t)⟩

/-- Reciprocal of an enclosure that does not hold zero. -/
def Iv.inv (a : Iv) : Iv := ⟨1 / a.hi, 1 / a.lo⟩

/-- Σ r^i / i! for i < n, and the last term r^n / n!. -/
def expTaylor (r : ℚ) : Nat → ℚ × ℚ
  | 0 => (0, 1)
  | n + 1 =>
    let p := expTaylor r n
    (p.1 + p.2, p.2 * r / ((n + 1 : Nat) : ℚ))

/-- e^x for 0 ≤ x ≤ 1/2, by n terms. -/
def expSmall (n : Nat) (x : ℚ) : Iv :=
  let p := expTaylor x n
  ⟨p.1, p.1 + 2 * p.2⟩

/-- Squares an enclosure k times. -/
def ivSquare (p : Nat) : Nat → Iv → Iv
  | 0, a => a
  | k + 1, a => ivSquare p k ((a.mul a).trim p)

/-- e^x of a rational, to about p bits. -/
def expIv (p : Nat) (x : ℚ) : Iv :=
  let a := rabs x
  let k := if a ≤ 1 / 2 then 0 else (ilog2 a + 2).toNat
  let y := ivSquare (p + 16) k ((expSmall (p / 2 + 8) (a * pow2 (-(k : Int)))).trim (p + 16))
  if x < 0 then (y.inv).trim (p + 16) else y

/-- e^x of an enclosure. -/
def expIv2 (p : Nat) (x : Iv) : Iv := ⟨(expIv p x.lo).lo, (expIv p x.hi).hi⟩

/-- Σ z^(2i+1) / (2i+1) for i < n, with the power reached. -/
def atanhTerms (z : ℚ) : Nat → ℚ × ℚ
  | 0 => (0, z)
  | n + 1 =>
    let p := atanhTerms z n
    (p.1 + p.2 / ((2 * n + 1 : Nat) : ℚ), p.2 * z * z)

/-- 2 atanh z for 0 ≤ z ≤ 1/3. -/
def atanh2 (n : Nat) (z : ℚ) : Iv :=
  let p := atanhTerms z n
  ⟨2 * p.1, 2 * (p.1 + 9 / 8 * p.2)⟩

/-- ln x of a positive rational, to about p bits. -/
def lnIv (p : Nat) (x : ℚ) : Iv :=
  let k := ilog2 x
  let m := x * pow2 (-k)
  let a := (atanh2 (p / 3 + 8) ((m - 1) / (m + 1))).trim (p + 16)
  let b := (atanh2 (p / 3 + 8) (1 / 3)).trim (p + 16)
  a.add ((Iv.pt k).mul b)

/-- arctan z for a small positive z, alternating series. -/
def atanTerms (z : ℚ) : Nat → ℚ × ℚ
  | 0 => (0, z)
  | n + 1 =>
    let p := atanTerms z n
    (p.1 + p.2 / ((2 * n + 1 : Nat) : ℚ), -(p.2 * z * z))

/-- An enclosure of arctan z by an even number of terms and one more. -/
def atanIv (n : Nat) (z : ℚ) : Iv := ⟨(atanTerms z (2 * n)).1, (atanTerms z (2 * n + 1)).1⟩

/-- π = 16 arctan(1/5) − 4 arctan(1/239). -/
def piIv (p : Nat) : Iv :=
  (((Iv.pt 16).mul (atanIv (p / 4 + 4) (1 / 5))).add ((Iv.pt 4).mul (atanIv (p / 8 + 4) (1 / 239))).neg).trim (p + 16)

/-- Integer square root, bit by bit from bit `k` down. -/
def isqrtAux (n : Nat) : Nat → Nat → Nat
  | 0, r => if (r + 1) * (r + 1) ≤ n then r + 1 else r
  | k + 1, r =>
    let t := r + 2 ^ (k + 1)
    isqrtAux n k (if t * t ≤ n then t else r)

/-- Integer square root. -/
def isqrt (n : Nat) : Nat := isqrtAux n (Nat.log2 n / 2 + 1) 0

/-- √x of a non-negative rational, to p bits after the point. -/
def sqrtIv (p : Nat) (x : ℚ) : Iv :=
  let r := isqrt (rfloor (x * pow2 (2 * p))).toNat
  ⟨(r : ℚ) * pow2 (-(p : Int)), ((r + 1 : Nat) : ℚ) * pow2 (-(p : Int))⟩

/-- Rounds an enclosure to N16 once both ends agree; `f` gives the enclosure at a precision. -/
def crSearch (f : Nat → Iv) : Nat → Nat → Rd
  | 0, p => roundN16 (f p).lo none
  | n + 1, p =>
    let i := f p
    let a := roundN16 i.lo none
    let b := roundN16 i.hi none
    if a.val = b.val ∧ a.sat = b.sat then { a with flush := a.val = 0 } else crSearch f n (2 * p)

/-- cr(exp, x) (R131). -/
def crExp (x : ℚ) : Rd :=
  if x = 0 then { val := 1, sat := false, flush := false }
  else if x > 64 then { val := maxN16, sat := true, flush := false }
  else if x < -64 then { val := 0, sat := false, flush := true }
  else crSearch (fun p => expIv p x) 8 40

/-- cr(ln, x), with the domain table of R124. -/
def crLn (x : ℚ) : Rd :=
  if x ≤ 0 then { val := -maxN16, sat := true, flush := false }
  else if x = 1 then { val := 0, sat := false, flush := false }
  else crSearch (fun p => lnIv p x) 8 40

/-- cr(√, x): the nearest grid value by exact comparison of squares. -/
def crSqrt (x : ℚ) : Rd :=
  if x < 0 then { val := 0, sat := true, flush := false }
  else if x = 0 then { val := 0, sat := false, flush := false }
  else
    let a := (sqrtIv 200 x)
    if a.lo * a.lo = x then roundN16 a.lo none
    else crSearch (fun p => sqrtIv (p + 80) x) 8 40

/-- cr(1/√, x), with the domain table of R124. -/
def crRsqrt (x : ℚ) : Rd :=
  if x ≤ 0 then { val := maxN16, sat := true, flush := false }
  else
    let y := 1 / x
    let n := isqrt y.num.natAbs
    let d := isqrt y.den
    if n * n = y.num.natAbs ∧ d * d = y.den then roundN16 ((n : ℚ) / d) none
    else crSearch (fun p => sqrtIv (p + 80) y) 8 40

/-- cr(1/x), with the domain table of R124. -/
def crRecip (x : ℚ) : Rd :=
  if x = 0 then { val := maxN16, sat := true, flush := false } else roundN16 (1 / x) none

/-- Tail modes of a table (R58, R59). -/
inductive Tail where
  | const | zero | ident | linear
deriving DecidableEq, Repr

/-- The tail mode of a code (R59). -/
def Tail.ofCode (c : Nat) : Tail :=
  match c % 4 with
  | 0 => .const
  | 1 => .zero
  | 2 => .ident
  | _ => .linear

/-- A table (R58): 65 knots, origin, step and tails. -/
structure FnTable where
  knots : List ℚ
  x0 : ℚ
  h : ℚ
  left : Tail
  right : Tail
deriving DecidableEq, Repr

/-- Knot j. -/
def FnTable.k (t : FnTable) (j : Nat) : ℚ := t.knots.getD j 0

/-- table_eval (R58). -/
def tableEval (x : ℚ) (tab : FnTable) : ℚ :=
  let t := (x - tab.x0) / tab.h
  if t < 0 then
    match tab.left with
    | .const => tab.k 0
    | .zero => 0
    | .ident => x
    | .linear => tab.k 0 + t * (tab.k 1 - tab.k 0)
  else if t ≥ 64 then
    match tab.right with
    | .const => tab.k 64
    | .zero => 0
    | .ident => x
    | .linear => tab.k 63 + (t - 63) * (tab.k 64 - tab.k 63)
  else
    let j := (rfloor t).toNat
    tab.k j + (t - j) * (tab.k (j + 1) - tab.k j)

/-- σ(x) = 1 / (1 + e^−x). -/
def sigmaIv (p : Nat) (x : ℚ) : Iv := (((Iv.pt 1).add (expIv p (-x))).inv).trim p

/-- tanh of an enclosure: 1 − 2 / (1 + e^(2x)). -/
def tanhIv (p : Nat) (x : Iv) : Iv :=
  let e := expIv2 p ((Iv.pt 2).mul x)
  ((Iv.pt 1).add ((Iv.pt 2).mul ((Iv.pt 1).add e).inv).neg)

/-- √(2/π). -/
def gammaIv (p : Nat) : Iv :=
  let y := (Iv.pt 2).mul (piIv p).inv
  ⟨(sqrtIv (p + 8) y.lo).lo, (sqrtIv (p + 8) y.hi).hi⟩

/-- The functions of codes 3 to 6 and their derivatives, enclosed (R57, R58). -/
def fnIv (code : Nat) (deriv : Bool) (x : ℚ) (p : Nat) : Iv :=
  let one := Iv.pt 1
  match code, deriv with
  | 3, false => sigmaIv p x
  | 3, true => let s := sigmaIv p x; s.mul (one.add s.neg)
  | 4, false => tanhIv p (.pt x)
  | 4, true => let t := tanhIv p (.pt x); one.add (t.mul t).neg
  | 5, false => (Iv.pt x).mul (sigmaIv p x)
  | 5, true => let s := sigmaIv p x; s.mul (one.add ((Iv.pt x).mul (one.add s.neg)))
  | 6, false =>
    let t := tanhIv p ((gammaIv p).mul (.pt (x + 44715 / 1000000 * x * x * x)))
    (Iv.pt (x / 2)).mul (one.add t)
  | _, _ =>
    let g := gammaIv p
    let t := tanhIv p (g.mul (.pt (x + 44715 / 1000000 * x * x * x)))
    ((Iv.pt (1 / 2)).mul (one.add t)).add
      ((Iv.pt (x / 2)).mul ((one.add (t.mul t).neg).mul (g.mul (.pt (1 + 3 * 44715 / 1000000 * x * x)))))

/-- A built-in knot: the exact value, correctly rounded to N16 (R58). Exact at zero. -/
def knot (code : Nat) (deriv : Bool) (x : ℚ) : ℚ :=
  if x = 0 then
    match code, deriv with
    | 3, false => 1 / 2
    | 3, true => 1 / 4
    | 4, true => 1
    | 5, true => 1 / 2
    | 6, true => 1 / 2
    | _, _ => 0
  else (crSearch (fnIv code deriv x) 8 48).val

/-- The built-in tables (R58). -/
def builtin (code : Nat) (deriv : Bool) : FnTable :=
  let x0 : ℚ := if code = 4 then -4 else -8
  let h : ℚ := if code = 4 then 1 / 8 else 1 / 4
  let tails : Tail × Tail :=
    match code, deriv with
    | 3, false | 4, false => (.const, .const)
    | 3, true | 4, true => (.zero, .zero)
    | _, false => (.zero, .ident)
    | _, true => (.zero, .const)
  { knots := (List.range 65).map fun j => knot code deriv (x0 + j * h), x0 := x0, h := h, left := tails.1,
    right := tails.2 }

/-- The table of a built-in function read at one point: only the knots that the point needs are formed. -/
def builtinEval (code : Nat) (deriv : Bool) (x : ℚ) : ℚ :=
  let x0 : ℚ := if code = 4 then -4 else -8
  let h : ℚ := if code = 4 then 1 / 8 else 1 / 4
  let t := (x - x0) / h
  if 0 ≤ t ∧ t < 64 then
    let j := rfloor t
    let a := knot code deriv (x0 + j * h)
    let b := knot code deriv (x0 + (j + 1) * h)
    a + (t - j) * (b - a)
  else if t < 0 then
    if deriv then 0 else if code = 3 ∨ code = 4 then knot code false x0 else 0
  else
    if deriv then (if code = 3 ∨ code = 4 then 0 else knot code true (x0 + 64 * h))
    else if code = 3 ∨ code = 4 then knot code false (x0 + 64 * h) else x

/-- A user table image (R59): value part or derivative part. -/
def userTable (img : List Byte) (deriv : Bool) : FnTable :=
  let base := if deriv then 0x100 else 0
  let tm := leAt img 0x85 1
  { knots := (List.range 65).map fun j => decN16 (BitVec.ofNat 16 (leAt img (base + 2 * j) 2)),
    x0 := decN16 (BitVec.ofNat 16 (leAt img 0x82 2)),
    h := pow2 ((leAt img 0x84 1 : Int) - 127),
    left := Tail.ofCode (if deriv then tm / 16 else tm),
    right := Tail.ofCode (if deriv then tm / 64 else tm / 4) }

/-- Does a user table image pass its checks (R59)? -/
def userTableOk (img : List Byte) (deriv : Bool) : Bool :=
  ((img.drop 0x87).take 0x79).all (· = 0) && ((img.drop 0x182).take 0x7E).all (· = 0) &&
    leAt img 0x86 1 < 2 && (!deriv || leAt img 0x86 1 == 1)

/-- f(x) of R57, exactly. -/
def fnVal (code : Nat) (alpha : ℚ) (img : List Byte) (x : ℚ) : ℚ :=
  match code with
  | 0 => x
  | 1 => if x > 0 then x else 0
  | 2 => if x > 0 then x else alpha * x
  | 7 => tableEval x (userTable img false)
  | c => builtinEval c false x

/-- d(x) of R57, exactly. -/
def fnDeriv (code : Nat) (alpha : ℚ) (img : List Byte) (x : ℚ) : ℚ :=
  match code with
  | 0 => 1
  | 1 => if x > 0 then 1 else 0
  | 2 => if x > 0 then 1 else alpha
  | 7 => tableEval x (userTable img true)
  | c => builtinEval c true x

end Sys2Proof.Machine
end

