-- ==== Sys2Proof/Machine/RegTable.lean ====
section
/-! DEFINITION. The registers of every page from offset 0x040 on, as the chapters' tables list them: access, the bits a
write reaches, the Reset value (R67, R100, R118, R137, R138, R157, R179, R224, R242, R243, R260, R279, R305, R306, R332,
R333). A register is named by page × 4,096 + offset of its first instance. -/

namespace Sys2Proof.Machine

/-- A row of a register table: dies, pages, first offset, stride, count, access (0 RO, 1 RW, 2 WO), writable bits, Reset
value. -/
structure RegRow where
  dieLo : Nat
  dieHi : Nat
  pageLo : Nat
  pageHi : Nat
  base : Nat
  stride : Nat
  count : Nat
  acc : Nat
  mask : Nat
  reset : Nat
deriving DecidableEq, Repr

/-- ARR_POOL_STATUS, R67. -/
abbrev Reg.ARR_POOL_STATUS : Nat := 0x020040
/-- ARR_RES_CTRL, R67. -/
abbrev Reg.ARR_RES_CTRL : Nat := 0x020044
/-- ARR_RES_TOTAL, R67. -/
abbrev Reg.ARR_RES_TOTAL : Nat := 0x020048
/-- ARR_REEXEC_TOTAL, R67. -/
abbrev Reg.ARR_REEXEC_TOTAL : Nat := 0x02004C
/-- ARR_DISCARD_TOTAL, R67. -/
abbrev Reg.ARR_DISCARD_TOTAL : Nat := 0x020050
/-- ARR_RETIRED_LO, R67. -/
abbrev Reg.ARR_RETIRED_LO : Nat := 0x020054
/-- ARR_RETIRED_HI, R67. -/
abbrev Reg.ARR_RETIRED_HI : Nat := 0x020058
/-- ARR_PENDING_LO, R67. -/
abbrev Reg.ARR_PENDING_LO : Nat := 0x02005C
/-- ARR_PENDING_HI, R67. -/
abbrev Reg.ARR_PENDING_HI : Nat := 0x020060
/-- ARR_BUSY_LO, R67. -/
abbrev Reg.ARR_BUSY_LO : Nat := 0x020064
/-- ARR_BUSY_HI, R67. -/
abbrev Reg.ARR_BUSY_HI : Nat := 0x020068
/-- ARR_TABLE_REJECTS, R67. -/
abbrev Reg.ARR_TABLE_REJECTS : Nat := 0x02006C
/-- ARR_HEALTH_a, R67. -/
abbrev Reg.ARR_HEALTH_a : Nat := 0x021040
/-- ARR_SVC_CMD, R67. -/
abbrev Reg.ARR_SVC_CMD : Nat := 0x021100
/-- SEQ_LOAD_SRC_LO, R100. -/
abbrev Reg.SEQ_LOAD_SRC_LO : Nat := 0x010040
/-- SEQ_LOAD_SRC_HI, R100. -/
abbrev Reg.SEQ_LOAD_SRC_HI : Nat := 0x010044
/-- SEQ_LOAD_LEN, R100. -/
abbrev Reg.SEQ_LOAD_LEN : Nat := 0x010048
/-- SEQ_LOAD_CMD, R100. -/
abbrev Reg.SEQ_LOAD_CMD : Nat := 0x01004C
/-- SEQ_COMMIT, R100. -/
abbrev Reg.SEQ_COMMIT : Nat := 0x010050
/-- SEQ_GATE_STATUS, R100. -/
abbrev Reg.SEQ_GATE_STATUS : Nat := 0x010054
/-- SEQ_GATE_FAIL_AT, R100. -/
abbrev Reg.SEQ_GATE_FAIL_AT : Nat := 0x010058
/-- SEQ_LAT_LEVEL, R100. -/
abbrev Reg.SEQ_LAT_LEVEL : Nat := 0x01005C
/-- SEQ_SKIP_TOTAL, R100. -/
abbrev Reg.SEQ_SKIP_TOTAL : Nat := 0x010060
/-- SEQ_SLIP_TOTAL, R100. -/
abbrev Reg.SEQ_SLIP_TOTAL : Nat := 0x010064
/-- SEQ_REFUSED_TOTAL, R100. -/
abbrev Reg.SEQ_REFUSED_TOTAL : Nat := 0x010068
/-- SEQ_SLOT_s_MAP, R100. -/
abbrev Reg.SEQ_SLOT_s_MAP : Nat := 0x011040
/-- SEQ_SLOT_s_STATE, R100. -/
abbrev Reg.SEQ_SLOT_s_STATE : Nat := 0x011044
/-- SEQ_SLOT_s_OWNER, R100. -/
abbrev Reg.SEQ_SLOT_s_OWNER : Nat := 0x011048
/-- SEQ_SLOT_s_GEN, R100. -/
abbrev Reg.SEQ_SLOT_s_GEN : Nat := 0x01104C
/-- SEQ_n_STATUS, R100. -/
abbrev Reg.SEQ_n_STATUS : Nat := 0x012040
/-- SEQ_n_PC, R100. -/
abbrev Reg.SEQ_n_PC : Nat := 0x012044
/-- SEQ_n_SEM_STALL, R100. -/
abbrev Reg.SEQ_n_SEM_STALL : Nat := 0x012048
/-- SEQ_n_CHAIR_STALL, R100. -/
abbrev Reg.SEQ_n_CHAIR_STALL : Nat := 0x01204C
/-- SEQ_n_HOLD, R100. -/
abbrev Reg.SEQ_n_HOLD : Nat := 0x012050
/-- SEQ_n_ISSUED, R100. -/
abbrev Reg.SEQ_n_ISSUED : Nat := 0x012054
/-- SEQ_n_FAULTS, R100. -/
abbrev Reg.SEQ_n_FAULTS : Nat := 0x012058
/-- SEQ_n_WAITING, R100. -/
abbrev Reg.SEQ_n_WAITING : Nat := 0x01205C
/-- SEQ_CYCLE_LO, R100. -/
abbrev Reg.SEQ_CYCLE_LO : Nat := 0x013040
/-- SEQ_CYCLE_HI, R100. -/
abbrev Reg.SEQ_CYCLE_HI : Nat := 0x013044
/-- SEQ_TRACE_BASE_LO, R100. -/
abbrev Reg.SEQ_TRACE_BASE_LO : Nat := 0x013048
/-- SEQ_TRACE_BASE_HI, R100. -/
abbrev Reg.SEQ_TRACE_BASE_HI : Nat := 0x01304C
/-- SEQ_TRACE_SIZE, R100. -/
abbrev Reg.SEQ_TRACE_SIZE : Nat := 0x013050
/-- SEQ_TRACE_HEAD, R100. -/
abbrev Reg.SEQ_TRACE_HEAD : Nat := 0x013054
/-- SEQ_TRACE_TAIL, R100. -/
abbrev Reg.SEQ_TRACE_TAIL : Nat := 0x013058
/-- SEQ_TRACE_DROPS, R100. -/
abbrev Reg.SEQ_TRACE_DROPS : Nat := 0x01305C
/-- SPD_GRAN_STATUS, R118. -/
abbrev Reg.SPD_GRAN_STATUS : Nat := 0x030040
/-- SPD_SCRUB_CTRL, R118. -/
abbrev Reg.SPD_SCRUB_CTRL : Nat := 0x030044
/-- SPD_SCRUB_PASSES, R118. -/
abbrev Reg.SPD_SCRUB_PASSES : Nat := 0x030048
/-- SPD_CE_TOTAL, R118. -/
abbrev Reg.SPD_CE_TOTAL : Nat := 0x03004C
/-- SPD_UE_TOTAL, R118. -/
abbrev Reg.SPD_UE_TOTAL : Nat := 0x030050
/-- SPD_SCRUB_UE, R118. -/
abbrev Reg.SPD_SCRUB_UE : Nat := 0x030054
/-- SPD_HOST_REFUSED, R118. -/
abbrev Reg.SPD_HOST_REFUSED : Nat := 0x030058
/-- SPD_XLATE_CTX, R118. -/
abbrev Reg.SPD_XLATE_CTX : Nat := 0x03005C
/-- SPD_XLATE_OFF, R118. -/
abbrev Reg.SPD_XLATE_OFF : Nat := 0x030060
/-- SPD_XLATE_OUT, R118. -/
abbrev Reg.SPD_XLATE_OUT : Nat := 0x030064
/-- SPD_GRAN_RETIRED_n, R118. -/
abbrev Reg.SPD_GRAN_RETIRED_n : Nat := 0x030070
/-- SPD_GRAN_PENDING_n, R118. -/
abbrev Reg.SPD_GRAN_PENDING_n : Nat := 0x0300A0
/-- SPD_LIFT_k_CFG, R118. -/
abbrev Reg.SPD_LIFT_k_CFG : Nat := 0x031040
/-- SPD_LIFT_k_BASE, R118. -/
abbrev Reg.SPD_LIFT_k_BASE : Nat := 0x031044
/-- SPD_LIFT_k_CHAIR, R118. -/
abbrev Reg.SPD_LIFT_k_CHAIR : Nat := 0x031048
/-- SPD_LIFT_k_PTR, R118. -/
abbrev Reg.SPD_LIFT_k_PTR : Nat := 0x03104C
/-- SPD_LIFT_k_STATE, R118. -/
abbrev Reg.SPD_LIFT_k_STATE : Nat := 0x031050
/-- SPD_LIFT_k_FILLS, R118. -/
abbrev Reg.SPD_LIFT_k_FILLS : Nat := 0x031054
/-- SPD_LIFT_k_WAITS, R118. -/
abbrev Reg.SPD_LIFT_k_WAITS : Nat := 0x031058
/-- SPD_LIFT_k_CTRL, R118. -/
abbrev Reg.SPD_LIFT_k_CTRL : Nat := 0x03105C
/-- VEC_BUSY, R137. -/
abbrev Reg.VEC_BUSY : Nat := 0x040040
/-- VEC_KREJ_TOTAL, R137. -/
abbrev Reg.VEC_KREJ_TOTAL : Nat := 0x040044
/-- VEC_CE_TOTAL, R137. -/
abbrev Reg.VEC_CE_TOTAL : Nat := 0x040048
/-- VEC_UE_TOTAL, R137. -/
abbrev Reg.VEC_UE_TOTAL : Nat := 0x04004C
/-- VEC_e_STATUS, R137. -/
abbrev Reg.VEC_e_STATUS : Nat := 0x040050
/-- VEC_e_CYCLES, R137. -/
abbrev Reg.VEC_e_CYCLES : Nat := 0x040054
/-- ROW_HTAB_IDX, R138. -/
abbrev Reg.ROW_HTAB_IDX : Nat := 0x050040
/-- ROW_HTAB_W0, R138. -/
abbrev Reg.ROW_HTAB_W0 : Nat := 0x050044
/-- ROW_HTAB_W1, R138. -/
abbrev Reg.ROW_HTAB_W1 : Nat := 0x050048
/-- ROW_HTAB_CMD, R138. -/
abbrev Reg.ROW_HTAB_CMD : Nat := 0x05004C
/-- ROW_HTAB_STATUS, R138. -/
abbrev Reg.ROW_HTAB_STATUS : Nat := 0x050050
/-- ROW_LONG_COUNT, R138. -/
abbrev Reg.ROW_LONG_COUNT : Nat := 0x050054
/-- ROW_SKIP_TOTAL, R138. -/
abbrev Reg.ROW_SKIP_TOTAL : Nat := 0x050058
/-- ROW_CE_TOTAL, R138. -/
abbrev Reg.ROW_CE_TOTAL : Nat := 0x05005C
/-- ROW_UE_TOTAL, R138. -/
abbrev Reg.ROW_UE_TOTAL : Nat := 0x050060
/-- ROW_g_STATUS, R138. -/
abbrev Reg.ROW_g_STATUS : Nat := 0x050070
/-- ROW_g_QUEUE, R138. -/
abbrev Reg.ROW_g_QUEUE : Nat := 0x050074
/-- ROW_g_CYCLES, R138. -/
abbrev Reg.ROW_g_CYCLES : Nat := 0x050078
/-- ROW_g_FREE, R138. -/
abbrev Reg.ROW_g_FREE : Nat := 0x05007C
/-- HTH_WAY_w, R157. -/
abbrev Reg.HTH_WAY_w : Nat := 0x060040
/-- HTH_RD_HIT, R157. -/
abbrev Reg.HTH_RD_HIT : Nat := 0x060080
/-- HTH_RD_MISS, R157. -/
abbrev Reg.HTH_RD_MISS : Nat := 0x060084
/-- HTH_MISS_MERGED, R157. -/
abbrev Reg.HTH_MISS_MERGED : Nat := 0x060088
/-- HTH_WT_HIT, R157. -/
abbrev Reg.HTH_WT_HIT : Nat := 0x06008C
/-- HTH_WT_REFETCH, R157. -/
abbrev Reg.HTH_WT_REFETCH : Nat := 0x060090
/-- HTH_WRITEBACK, R157. -/
abbrev Reg.HTH_WRITEBACK : Nat := 0x060094
/-- HTH_CE_TOTAL, R157. -/
abbrev Reg.HTH_CE_TOTAL : Nat := 0x060098
/-- HTH_UE_TOTAL, R157. -/
abbrev Reg.HTH_UE_TOTAL : Nat := 0x06009C
/-- HTH_AGE_MAX, R157. -/
abbrev Reg.HTH_AGE_MAX : Nat := 0x0600A0
/-- HTH_ATOM_TMO, R157. -/
abbrev Reg.HTH_ATOM_TMO : Nat := 0x0600A4
/-- HTH_FLUSH, R157. -/
abbrev Reg.HTH_FLUSH : Nat := 0x0600A8
/-- HTH_LOST_LINES, R157. -/
abbrev Reg.HTH_LOST_LINES : Nat := 0x0600AC
/-- HTH_RB_b_CFG, R157. -/
abbrev Reg.HTH_RB_b_CFG : Nat := 0x061040
/-- HTH_RB_b_SIZE, R157. -/
abbrev Reg.HTH_RB_b_SIZE : Nat := 0x061044
/-- HTH_RB_b_SPILL_LO, R157. -/
abbrev Reg.HTH_RB_b_SPILL_LO : Nat := 0x061048
/-- HTH_RB_b_SPILL_HI, R157. -/
abbrev Reg.HTH_RB_b_SPILL_HI : Nat := 0x06104C
/-- HTH_RB_b_STATE, R157. -/
abbrev Reg.HTH_RB_b_STATE : Nat := 0x061050
/-- HTH_RB_b_RESIDENT, R157. -/
abbrev Reg.HTH_RB_b_RESIDENT : Nat := 0x061054
/-- HTH_RB_b_SPILL_ACC, R157. -/
abbrev Reg.HTH_RB_b_SPILL_ACC : Nat := 0x061058
/-- HTH_RB_b_REFUSED, R157. -/
abbrev Reg.HTH_RB_b_REFUSED : Nat := 0x06105C
/-- HTH_AW_w_BASE_LO, R157. -/
abbrev Reg.HTH_AW_w_BASE_LO : Nat := 0x061200
/-- HTH_AW_w_BASE_HI, R157. -/
abbrev Reg.HTH_AW_w_BASE_HI : Nat := 0x061204
/-- HTH_AW_w_SIZE, R157. -/
abbrev Reg.HTH_AW_w_SIZE : Nat := 0x061208
/-- HTH_AW_w_CMD, R157. -/
abbrev Reg.HTH_AW_w_CMD : Nat := 0x06120C
/-- HTH_AW_BOUND, R157. -/
abbrev Reg.HTH_AW_BOUND : Nat := 0x061300
/-- EMB_JOB_b_TDIR_LO, R179. -/
abbrev Reg.EMB_JOB_b_TDIR_LO : Nat := 0x070040
/-- EMB_JOB_b_TDIR_HI, R179. -/
abbrev Reg.EMB_JOB_b_TDIR_HI : Nat := 0x070044
/-- EMB_JOB_b_MRG_LO, R179. -/
abbrev Reg.EMB_JOB_b_MRG_LO : Nat := 0x070048
/-- EMB_JOB_b_MRG_HI, R179. -/
abbrev Reg.EMB_JOB_b_MRG_HI : Nat := 0x07004C
/-- EMB_JOB_b_MRG_SIZE, R179. -/
abbrev Reg.EMB_JOB_b_MRG_SIZE : Nat := 0x070050
/-- EMB_JOB_b_KEY_LO, R179. -/
abbrev Reg.EMB_JOB_b_KEY_LO : Nat := 0x070054
/-- EMB_JOB_b_KEY_HI, R179. -/
abbrev Reg.EMB_JOB_b_KEY_HI : Nat := 0x070058
/-- EMB_JOB_b_KEY_SIZE, R179. -/
abbrev Reg.EMB_JOB_b_KEY_SIZE : Nat := 0x07005C
/-- EMB_JOB_b_CTRL, R179. -/
abbrev Reg.EMB_JOB_b_CTRL : Nat := 0x070140
/-- EMB_JOB_b_MRG_USED, R179. -/
abbrev Reg.EMB_JOB_b_MRG_USED : Nat := 0x070144
/-- EMB_JOB_b_EPOCH_LO, R179. -/
abbrev Reg.EMB_JOB_b_EPOCH_LO : Nat := 0x070148
/-- EMB_JOB_b_EPOCH_HI, R179. -/
abbrev Reg.EMB_JOB_b_EPOCH_HI : Nat := 0x07014C
/-- EMB_OCC_TOTAL, R179. -/
abbrev Reg.EMB_OCC_TOTAL : Nat := 0x0701C0
/-- EMB_UNIQUE_TOTAL, R179. -/
abbrev Reg.EMB_UNIQUE_TOTAL : Nat := 0x0701C4
/-- EMB_REQ_SENT, R179. -/
abbrev Reg.EMB_REQ_SENT : Nat := 0x0701C8
/-- EMB_REQ_SERVED, R179. -/
abbrev Reg.EMB_REQ_SERVED : Nat := 0x0701CC
/-- EMB_REDIRECTS, R179. -/
abbrev Reg.EMB_REDIRECTS : Nat := 0x0701D0
/-- EMB_REDERIVED, R179. -/
abbrev Reg.EMB_REDERIVED : Nat := 0x0701D4
/-- EMB_DROPPED, R179. -/
abbrev Reg.EMB_DROPPED : Nat := 0x0701D8
/-- EMB_MERGE_DISCARD, R179. -/
abbrev Reg.EMB_MERGE_DISCARD : Nat := 0x0701DC
/-- EMB_HOP_h_BASE_LO, R179. -/
abbrev Reg.EMB_HOP_h_BASE_LO : Nat := 0x071040
/-- EMB_HOP_h_BASE_HI, R179. -/
abbrev Reg.EMB_HOP_h_BASE_HI : Nat := 0x071044
/-- EMB_HOP_h_SIZE, R179. -/
abbrev Reg.EMB_HOP_h_SIZE : Nat := 0x071048
/-- EMB_HOP_h_CTRL, R179. -/
abbrev Reg.EMB_HOP_h_CTRL : Nat := 0x07104C
/-- EMB_HOP_h_DOORBELL, R179. -/
abbrev Reg.EMB_HOP_h_DOORBELL : Nat := 0x071050
/-- EMB_HOP_h_HEAD, R179. -/
abbrev Reg.EMB_HOP_h_HEAD : Nat := 0x071054
/-- EMB_HOP_h_EXPTAG, R179. -/
abbrev Reg.EMB_HOP_h_EXPTAG : Nat := 0x071058
/-- EMB_HOP_h_STALE, R179. -/
abbrev Reg.EMB_HOP_h_STALE : Nat := 0x07105C
/-- EMB_EC_CTRL, R179. -/
abbrev Reg.EMB_EC_CTRL : Nat := 0x072040
/-- EMB_EC_REPL_THR, R179. -/
abbrev Reg.EMB_EC_REPL_THR : Nat := 0x072044
/-- EMB_EC_REPL_MAX, R179. -/
abbrev Reg.EMB_EC_REPL_MAX : Nat := 0x072048
/-- EMB_EC_ROWS, R179. -/
abbrev Reg.EMB_EC_ROWS : Nat := 0x07204C
/-- EMB_EC_HITS, R179. -/
abbrev Reg.EMB_EC_HITS : Nat := 0x072050
/-- EMB_EC_MISSES, R179. -/
abbrev Reg.EMB_EC_MISSES : Nat := 0x072054
/-- EMB_EC_ADMITS, R179. -/
abbrev Reg.EMB_EC_ADMITS : Nat := 0x072058
/-- EMB_EC_EVICTS, R179. -/
abbrev Reg.EMB_EC_EVICTS : Nat := 0x07205C
/-- EMB_EC_REPL_HITS, R179. -/
abbrev Reg.EMB_EC_REPL_HITS : Nat := 0x072060
/-- EMB_EC_REPL_HELD, R179. -/
abbrev Reg.EMB_EC_REPL_HELD : Nat := 0x072064
/-- EMB_EC_REPL_DROP, R179. -/
abbrev Reg.EMB_EC_REPL_DROP : Nat := 0x072068
/-- EMB_EC_DECAYS, R179. -/
abbrev Reg.EMB_EC_DECAYS : Nat := 0x07206C
/-- SWP_STATUS, R224. -/
abbrev Reg.SWP_STATUS : Nat := 0x080040
/-- SWP_AUDIT_CTRL, R224. -/
abbrev Reg.SWP_AUDIT_CTRL : Nat := 0x080044
/-- SWP_AUDIT_CURSOR, R224. -/
abbrev Reg.SWP_AUDIT_CURSOR : Nat := 0x080048
/-- SWP_AUDIT_DONE, R224. -/
abbrev Reg.SWP_AUDIT_DONE : Nat := 0x08004C
/-- SWP_AUDIT_MISMATCH, R224. -/
abbrev Reg.SWP_AUDIT_MISMATCH : Nat := 0x080050
/-- SWP_ROWS_TOTAL, R224. -/
abbrev Reg.SWP_ROWS_TOTAL : Nat := 0x080054
/-- SWP_ELEM_TOTAL, R224. -/
abbrev Reg.SWP_ELEM_TOTAL : Nat := 0x080058
/-- SWP_CLAMPED, R224. -/
abbrev Reg.SWP_CLAMPED : Nat := 0x08005C
/-- SWP_REPAIRS, R224. -/
abbrev Reg.SWP_REPAIRS : Nat := 0x080060
/-- SWP_SPLITS, R224. -/
abbrev Reg.SWP_SPLITS : Nat := 0x080064
/-- SWP_CE_TOTAL, R224. -/
abbrev Reg.SWP_CE_TOTAL : Nat := 0x080068
/-- SWP_UE_TOTAL, R224. -/
abbrev Reg.SWP_UE_TOTAL : Nat := 0x08006C
/-- SWP_LOG_PEAK, R224. -/
abbrev Reg.SWP_LOG_PEAK : Nat := 0x080070
/-- SWP_SUSP_LOST, R224. -/
abbrev Reg.SWP_SUSP_LOST : Nat := 0x080074
/-- SWP_SUSP_n, R224. -/
abbrev Reg.SWP_SUSP_n : Nat := 0x080080
/-- SWP_JOB_b_CTRL, R224. -/
abbrev Reg.SWP_JOB_b_CTRL : Nat := 0x081040
/-- SWP_JOB_b_PLAN_LO, R224. -/
abbrev Reg.SWP_JOB_b_PLAN_LO : Nat := 0x081044
/-- SWP_JOB_b_PLAN_HI, R224. -/
abbrev Reg.SWP_JOB_b_PLAN_HI : Nat := 0x081048
/-- SWP_JOB_b_LOG_LO, R224. -/
abbrev Reg.SWP_JOB_b_LOG_LO : Nat := 0x08104C
/-- SWP_JOB_b_LOG_HI, R224. -/
abbrev Reg.SWP_JOB_b_LOG_HI : Nat := 0x081050
/-- SWP_JOB_b_LOG_SIZE, R224. -/
abbrev Reg.SWP_JOB_b_LOG_SIZE : Nat := 0x081054
/-- SWP_JOB_b_SREC_LO, R224. -/
abbrev Reg.SWP_JOB_b_SREC_LO : Nat := 0x081058
/-- SWP_JOB_b_SREC_HI, R224. -/
abbrev Reg.SWP_JOB_b_SREC_HI : Nat := 0x08105C
/-- SWP_JOB_b_STEP_LO, R224. -/
abbrev Reg.SWP_JOB_b_STEP_LO : Nat := 0x081060
/-- SWP_JOB_b_STEP_HI, R224. -/
abbrev Reg.SWP_JOB_b_STEP_HI : Nat := 0x081064
/-- SWP_JOB_b_OUTCOME, R224. -/
abbrev Reg.SWP_JOB_b_OUTCOME : Nat := 0x081068
/-- SWP_JOB_b_LOG_USED, R224. -/
abbrev Reg.SWP_JOB_b_LOG_USED : Nat := 0x08106C
/-- SWP_DMP_b_EXP, R224. -/
abbrev Reg.SWP_DMP_b_EXP : Nat := 0x081070
/-- SWP_DMP_b_CLEAN, R224. -/
abbrev Reg.SWP_DMP_b_CLEAN : Nat := 0x081074
/-- SWP_DMP_b_LIMIT, R224. -/
abbrev Reg.SWP_DMP_b_LIMIT : Nat := 0x081078
/-- SWP_DMP_b_INIT, R224. -/
abbrev Reg.SWP_DMP_b_INIT : Nat := 0x08107C
/-- HBM_REGION, R242. -/
abbrev Reg.HBM_REGION : Nat := 0x090040
/-- HBM_FRAMES, R242. -/
abbrev Reg.HBM_FRAMES : Nat := 0x090044
/-- HBM_FREE_FRAMES, R242. -/
abbrev Reg.HBM_FREE_FRAMES : Nat := 0x090048
/-- HBM_MAPOUT_c, R242. -/
abbrev Reg.HBM_MAPOUT_c : Nat := 0x09004C
/-- HBM_LATE_THR, R242. -/
abbrev Reg.HBM_LATE_THR : Nat := 0x090060
/-- HBM_TMO, R242. -/
abbrev Reg.HBM_TMO : Nat := 0x090064
/-- HBM_TM_CTRL, R242. -/
abbrev Reg.HBM_TM_CTRL : Nat := 0x090068
/-- HBM_TM_PERIOD, R242. -/
abbrev Reg.HBM_TM_PERIOD : Nat := 0x09006C
/-- HBM_TM_MOVES, R242. -/
abbrev Reg.HBM_TM_MOVES : Nat := 0x090070
/-- HBM_TM_ABANDON, R242. -/
abbrev Reg.HBM_TM_ABANDON : Nat := 0x090074
/-- HBM_TM_DENIED, R242. -/
abbrev Reg.HBM_TM_DENIED : Nat := 0x090078
/-- HBM_STALL_CTX, R242. -/
abbrev Reg.HBM_STALL_CTX : Nat := 0x09007C
/-- HBM_STALL_k_EVENTS, R242. -/
abbrev Reg.HBM_STALL_k_EVENTS : Nat := 0x090080
/-- HBM_STALL_k_CYCLES, R242. -/
abbrev Reg.HBM_STALL_k_CYCLES : Nat := 0x090084
/-- HBM_c_STATUS, R242. -/
abbrev Reg.HBM_c_STATUS : Nat := 0x091040
/-- HBM_c_PC_FAILED, R242. -/
abbrev Reg.HBM_c_PC_FAILED : Nat := 0x091044
/-- HBM_c_CE, R242. -/
abbrev Reg.HBM_c_CE : Nat := 0x091048
/-- HBM_c_UE, R242. -/
abbrev Reg.HBM_c_UE : Nat := 0x09104C
/-- HBM_c_ODECC, R242. -/
abbrev Reg.HBM_c_ODECC : Nat := 0x091050
/-- HBM_c_SCRUB_CTRL, R242. -/
abbrev Reg.HBM_c_SCRUB_CTRL : Nat := 0x091054
/-- HBM_c_SCRUB_PASSES, R242. -/
abbrev Reg.HBM_c_SCRUB_PASSES : Nat := 0x091058
/-- HBM_c_TEMP, R242. -/
abbrev Reg.HBM_c_TEMP : Nat := 0x09105C
/-- HBM_c_CLASS_k, R242. -/
abbrev Reg.HBM_c_CLASS_k : Nat := 0x091060
/-- CLD_CAPACITY, R243. -/
abbrev Reg.CLD_CAPACITY : Nat := 0x0A0040
/-- CLD_HOST_SIZE, R243. -/
abbrev Reg.CLD_HOST_SIZE : Nat := 0x0A0044
/-- CLD_PKG_STATUS, R243. -/
abbrev Reg.CLD_PKG_STATUS : Nat := 0x0A0048
/-- CLD_CE, R243. -/
abbrev Reg.CLD_CE : Nat := 0x0A004C
/-- CLD_UE, R243. -/
abbrev Reg.CLD_UE : Nat := 0x0A0050
/-- CLD_SCRUB_CTRL, R243. -/
abbrev Reg.CLD_SCRUB_CTRL : Nat := 0x0A0054
/-- CLD_SCRUB_PASSES, R243. -/
abbrev Reg.CLD_SCRUB_PASSES : Nat := 0x0A0058
/-- CLD_LATE_THR, R243. -/
abbrev Reg.CLD_LATE_THR : Nat := 0x0A005C
/-- CLD_TMO, R243. -/
abbrev Reg.CLD_TMO : Nat := 0x0A0060
/-- CLD_STALL_CTX, R243. -/
abbrev Reg.CLD_STALL_CTX : Nat := 0x0A0064
/-- CLD_STALL_k_EVENTS, R243. -/
abbrev Reg.CLD_STALL_k_EVENTS : Nat := 0x0A0068
/-- CLD_STALL_k_CYCLES, R243. -/
abbrev Reg.CLD_STALL_k_CYCLES : Nat := 0x0A006C
/-- CLD_FREE_FRAMES, R243. -/
abbrev Reg.CLD_FREE_FRAMES : Nat := 0x0A0098
/-- STK_CMD_LO, R260. -/
abbrev Reg.STK_CMD_LO : Nat := 0x0B0040
/-- STK_CMD_HI, R260. -/
abbrev Reg.STK_CMD_HI : Nat := 0x0B0044
/-- STK_CMD_GO, R260. -/
abbrev Reg.STK_CMD_GO : Nat := 0x0B0048
/-- STK_CMD_STATUS, R260. -/
abbrev Reg.STK_CMD_STATUS : Nat := 0x0B004C
/-- STK_PWR_STATE, R260. -/
abbrev Reg.STK_PWR_STATE : Nat := 0x0B0050
/-- STK_PWR_CTRL, R260. -/
abbrev Reg.STK_PWR_CTRL : Nat := 0x0B0054
/-- STK_RES_k, R260. -/
abbrev Reg.STK_RES_k : Nat := 0x0B0058
/-- STK_THERM_STATUS, R260. -/
abbrev Reg.STK_THERM_STATUS : Nat := 0x0B0068
/-- STK_THERM_CTRL, R260. -/
abbrev Reg.STK_THERM_CTRL : Nat := 0x0B006C
/-- STK_THERM_GATED, R260. -/
abbrev Reg.STK_THERM_GATED : Nat := 0x0B0070
/-- STK_LOAN_MAX, R260. -/
abbrev Reg.STK_LOAN_MAX : Nat := 0x0B0074
/-- STK_REBIND_LAST, R260. -/
abbrev Reg.STK_REBIND_LAST : Nat := 0x0B0078
/-- STK_REBIND_MAX, R260. -/
abbrev Reg.STK_REBIND_MAX : Nat := 0x0B007C
/-- STK_RC_SEL, R260. -/
abbrev Reg.STK_RC_SEL : Nat := 0x0B0080
/-- STK_RC_SAT, R260. -/
abbrev Reg.STK_RC_SAT : Nat := 0x0B0084
/-- STK_RC_FLUSH, R260. -/
abbrev Reg.STK_RC_FLUSH : Nat := 0x0B0088
/-- STK_RC_NEAR, R260. -/
abbrev Reg.STK_RC_NEAR : Nat := 0x0B008C
/-- STK_FREE, R260. -/
abbrev Reg.STK_FREE : Nat := 0x0B0090
/-- STK_QUOTA_HBM, R260. -/
abbrev Reg.STK_QUOTA_HBM : Nat := 0x0B0094
/-- STK_QUOTA_COLD, R260. -/
abbrev Reg.STK_QUOTA_COLD : Nat := 0x0B0098
/-- STK_EMBER_WAYS, R260. -/
abbrev Reg.STK_EMBER_WAYS : Nat := 0x0B009C
/-- STK_CTX_IDX, R260. -/
abbrev Reg.STK_CTX_IDX : Nat := 0x0B1040
/-- STK_CTX_STATE, R260. -/
abbrev Reg.STK_CTX_STATE : Nat := 0x0B1044
/-- STK_CTX_LEASE0, R260. -/
abbrev Reg.STK_CTX_LEASE0 : Nat := 0x0B1048
/-- STK_CTX_LEASE1, R260. -/
abbrev Reg.STK_CTX_LEASE1 : Nat := 0x0B104C
/-- STK_CTX_HBM, R260. -/
abbrev Reg.STK_CTX_HBM : Nat := 0x0B1050
/-- STK_CTX_COLD, R260. -/
abbrev Reg.STK_CTX_COLD : Nat := 0x0B1054
/-- STK_CTX_FAULT, R260. -/
abbrev Reg.STK_CTX_FAULT : Nat := 0x0B1058
/-- STK_CTX_FEED_STALL, R260. -/
abbrev Reg.STK_CTX_FEED_STALL : Nat := 0x0B105C
/-- STK_CTX_PISTE_STALL, R260. -/
abbrev Reg.STK_CTX_PISTE_STALL : Nat := 0x0B1060
/-- STK_CTX_WAKE_STALL, R260. -/
abbrev Reg.STK_CTX_WAKE_STALL : Nat := 0x0B1064
/-- STK_CTX_HINT, R260. -/
abbrev Reg.STK_CTX_HINT : Nat := 0x0B1068
/-- UCI_LINK_STATUS, R279. -/
abbrev Reg.UCI_LINK_STATUS : Nat := 0x0C0040
/-- UCI_MOD_STATE, R279. -/
abbrev Reg.UCI_MOD_STATE : Nat := 0x0C0044
/-- UCI_LINK_CTRL, R279. -/
abbrev Reg.UCI_LINK_CTRL : Nat := 0x0C0048
/-- UCI_CRC_RETRY, R279. -/
abbrev Reg.UCI_CRC_RETRY : Nat := 0x0C004C
/-- UCI_RETRAINS, R279. -/
abbrev Reg.UCI_RETRAINS : Nat := 0x0C0050
/-- UCI_BAD_PACKETS, R279. -/
abbrev Reg.UCI_BAD_PACKETS : Nat := 0x0C0054
/-- UCI_CREDIT_STALL_v, R279. -/
abbrev Reg.UCI_CREDIT_STALL_v : Nat := 0x0C0058
/-- UCI_TX_KB, R279. -/
abbrev Reg.UCI_TX_KB : Nat := 0x0C0068
/-- UCI_RX_KB, R279. -/
abbrev Reg.UCI_RX_KB : Nat := 0x0C006C
/-- UCI_RING_IDX, R279. -/
abbrev Reg.UCI_RING_IDX : Nat := 0x0C8040
/-- UCI_RING_W0, R279. -/
abbrev Reg.UCI_RING_W0 : Nat := 0x0C8044
/-- UCI_RING_W1, R279. -/
abbrev Reg.UCI_RING_W1 : Nat := 0x0C8048
/-- UCI_RING_W2, R279. -/
abbrev Reg.UCI_RING_W2 : Nat := 0x0C804C
/-- UCI_RING_W3, R279. -/
abbrev Reg.UCI_RING_W3 : Nat := 0x0C8050
/-- UCI_RING_MSG, R279. -/
abbrev Reg.UCI_RING_MSG : Nat := 0x0C8054
/-- UCI_RING_TGT, R279. -/
abbrev Reg.UCI_RING_TGT : Nat := 0x0C8058
/-- UCI_RING_CMD, R279. -/
abbrev Reg.UCI_RING_CMD : Nat := 0x0C805C
/-- UCI_RING_STATE, R279. -/
abbrev Reg.UCI_RING_STATE : Nat := 0x0C8060
/-- UCI_RING_EXPTAG, R279. -/
abbrev Reg.UCI_RING_EXPTAG : Nat := 0x0C8064
/-- UCI_STALE_TOTAL, R279. -/
abbrev Reg.UCI_STALE_TOTAL : Nat := 0x0C8068
/-- UCI_REJECT_TOTAL, R279. -/
abbrev Reg.UCI_REJECT_TOTAL : Nat := 0x0C806C
/-- UCI_FLASH_CPL_LO, R279. -/
abbrev Reg.UCI_FLASH_CPL_LO : Nat := 0x0C8070
/-- UCI_FLASH_CPL_HI, R279. -/
abbrev Reg.UCI_FLASH_CPL_HI : Nat := 0x0C8074
/-- UCI_FLASH_MSG, R279. -/
abbrev Reg.UCI_FLASH_MSG : Nat := 0x0C8078
/-- UCI_FLASH_STATUS, R279. -/
abbrev Reg.UCI_FLASH_STATUS : Nat := 0x0C807C
/-- UCI_FLASH_MBX, R279. -/
abbrev Reg.UCI_FLASH_MBX : Nat := 0x0C8100
/-- UCI_TGT_t_LO, R279. -/
abbrev Reg.UCI_TGT_t_LO : Nat := 0x0C9040
/-- UCI_TGT_t_HI, R279. -/
abbrev Reg.UCI_TGT_t_HI : Nat := 0x0C9044
/-- UCI_SRC_p_DATA, R279. -/
abbrev Reg.UCI_SRC_p_DATA : Nat := 0x0C9800
/-- UCI_SRC_p_CTRL, R279. -/
abbrev Reg.UCI_SRC_p_CTRL : Nat := 0x0C9804
/-- FAB_STATUS, R305. -/
abbrev Reg.FAB_STATUS : Nat := 0x0D0040
/-- FAB_CTRL, R305. -/
abbrev Reg.FAB_CTRL : Nat := 0x0D0044
/-- FAB_PARTNER, R305. -/
abbrev Reg.FAB_PARTNER : Nat := 0x0D0048
/-- FAB_FEC_CORR, R305. -/
abbrev Reg.FAB_FEC_CORR : Nat := 0x0D004C
/-- FAB_FEC_UNCORR, R305. -/
abbrev Reg.FAB_FEC_UNCORR : Nat := 0x0D0050
/-- FAB_CRC_ERR, R305. -/
abbrev Reg.FAB_CRC_ERR : Nat := 0x0D0054
/-- FAB_RESENT, R305. -/
abbrev Reg.FAB_RESENT : Nat := 0x0D0058
/-- FAB_RETRAINS, R305. -/
abbrev Reg.FAB_RETRAINS : Nat := 0x0D005C
/-- FAB_TX_FLITS, R305. -/
abbrev Reg.FAB_TX_FLITS : Nat := 0x0D0060
/-- FAB_RX_FLITS, R305. -/
abbrev Reg.FAB_RX_FLITS : Nat := 0x0D0064
/-- FAB_CREDIT_STALL_v, R305. -/
abbrev Reg.FAB_CREDIT_STALL_v : Nat := 0x0D0068
/-- FAB_BER, R305. -/
abbrev Reg.FAB_BER : Nat := 0x0D008C
/-- COL_SELF, R306. -/
abbrev Reg.COL_SELF : Nat := 0x0E0040
/-- COL_NT_VERSION, R306. -/
abbrev Reg.COL_NT_VERSION : Nat := 0x0E0044
/-- COL_NT_IDX, R306. -/
abbrev Reg.COL_NT_IDX : Nat := 0x0E0048
/-- COL_NT_ENTRY, R306. -/
abbrev Reg.COL_NT_ENTRY : Nat := 0x0E004C
/-- COL_SEAT_IDX, R306. -/
abbrev Reg.COL_SEAT_IDX : Nat := 0x0E0050
/-- COL_SEAT_STATE, R306. -/
abbrev Reg.COL_SEAT_STATE : Nat := 0x0E0054
/-- COL_SEAT_CMD, R306. -/
abbrev Reg.COL_SEAT_CMD : Nat := 0x0E0058
/-- COL_NT_TMO, R306. -/
abbrev Reg.COL_NT_TMO : Nat := 0x0E005C
/-- COL_STANDIN_STATUS, R306. -/
abbrev Reg.COL_STANDIN_STATUS : Nat := 0x0E0060
/-- COL_UNREACH_TOTAL, R306. -/
abbrev Reg.COL_UNREACH_TOTAL : Nat := 0x0E0064
/-- COL_FENCED_TOTAL, R306. -/
abbrev Reg.COL_FENCED_TOTAL : Nat := 0x0E0068
/-- COL_PISTE_LOAD_LO, R306. -/
abbrev Reg.COL_PISTE_LOAD_LO : Nat := 0x0E006C
/-- COL_PISTE_LOAD_HI, R306. -/
abbrev Reg.COL_PISTE_LOAD_HI : Nat := 0x0E0070
/-- COL_PISTE_LOAD_CMD, R306. -/
abbrev Reg.COL_PISTE_LOAD_CMD : Nat := 0x0E0074
/-- COL_PISTE_STATUS, R306. -/
abbrev Reg.COL_PISTE_STATUS : Nat := 0x0E0078
/-- COL_JOB_b_CTRL, R306. -/
abbrev Reg.COL_JOB_b_CTRL : Nat := 0x0E1040
/-- COL_JOB_b_JTAG, R306. -/
abbrev Reg.COL_JOB_b_JTAG : Nat := 0x0E1044
/-- COL_JOB_b_MEM_LO, R306. -/
abbrev Reg.COL_JOB_b_MEM_LO : Nat := 0x0E1048
/-- COL_JOB_b_MEM_HI, R306. -/
abbrev Reg.COL_JOB_b_MEM_HI : Nat := 0x0E104C
/-- COL_JOB_b_POS, R306. -/
abbrev Reg.COL_JOB_b_POS : Nat := 0x0E1050
/-- COL_JOB_b_VTMO, R306. -/
abbrev Reg.COL_JOB_b_VTMO : Nat := 0x0E1054
/-- COL_JOB_b_PISTE, R306. -/
abbrev Reg.COL_JOB_b_PISTE : Nat := 0x0E1058
/-- COL_JOB_b_PVALID, R306. -/
abbrev Reg.COL_JOB_b_PVALID : Nat := 0x0E105C
/-- COL_JOB_b_CSEQ, R306. -/
abbrev Reg.COL_JOB_b_CSEQ : Nat := 0x0E1060
/-- COL_JOB_b_VSTATE, R306. -/
abbrev Reg.COL_JOB_b_VSTATE : Nat := 0x0E1064
/-- COL_JOB_b_VDEST_LO, R306. -/
abbrev Reg.COL_JOB_b_VDEST_LO : Nat := 0x0E1068
/-- COL_JOB_b_VDEST_HI, R306. -/
abbrev Reg.COL_JOB_b_VDEST_HI : Nat := 0x0E106C
/-- COL_JOB_b_STAGE_LO, R306. -/
abbrev Reg.COL_JOB_b_STAGE_LO : Nat := 0x0E1070
/-- COL_JOB_b_STAGE_HI, R306. -/
abbrev Reg.COL_JOB_b_STAGE_HI : Nat := 0x0E1074
/-- COL_JOB_b_PSTALL, R306. -/
abbrev Reg.COL_JOB_b_PSTALL : Nat := 0x0E1078
/-- PLT_RESET_CAUSE, R332. -/
abbrev Reg.PLT_RESET_CAUSE : Nat := 0x0F0040
/-- PLT_RELEASED, R332. -/
abbrev Reg.PLT_RELEASED : Nat := 0x0F0044
/-- PLT_CLK_STATUS, R332. -/
abbrev Reg.PLT_CLK_STATUS : Nat := 0x0F0048
/-- PLT_TEMP, R332. -/
abbrev Reg.PLT_TEMP : Nat := 0x0F004C
/-- PLT_SRST_REFUSED, R332. -/
abbrev Reg.PLT_SRST_REFUSED : Nat := 0x0F0050
/-- PLT_SRST_DONE, R332. -/
abbrev Reg.PLT_SRST_DONE : Nat := 0x0F0054
/-- PLT_MOD_RESET, R332. -/
abbrev Reg.PLT_MOD_RESET : Nat := 0x0F0058
/-- PLT_BOOT_COUNT, R332. -/
abbrev Reg.PLT_BOOT_COUNT : Nat := 0x0F005C
/-- KDL_STATUS, R333. -/
abbrev Reg.KDL_STATUS : Nat := 0x100040
/-- KDL_RESET_CAUSE, R333. -/
abbrev Reg.KDL_RESET_CAUSE : Nat := 0x100044
/-- KDL_BOOT_COUNT, R333. -/
abbrev Reg.KDL_BOOT_COUNT : Nat := 0x100048
/-- KDL_FAILS, R333. -/
abbrev Reg.KDL_FAILS : Nat := 0x10004C
/-- KDL_COPIES, R333. -/
abbrev Reg.KDL_COPIES : Nat := 0x100050
/-- KDL_UNTESTED, R333. -/
abbrev Reg.KDL_UNTESTED : Nat := 0x100054
/-- KDL_SVN_LO, R333. -/
abbrev Reg.KDL_SVN_LO : Nat := 0x100058
/-- KDL_SVN_HI, R333. -/
abbrev Reg.KDL_SVN_HI : Nat := 0x10005C
/-- KDL_JNL_STATUS, R333. -/
abbrev Reg.KDL_JNL_STATUS : Nat := 0x100060
/-- KDL_JNL_GEN, R333. -/
abbrev Reg.KDL_JNL_GEN : Nat := 0x100064
/-- KDL_JNL_SEQ, R333. -/
abbrev Reg.KDL_JNL_SEQ : Nat := 0x100068
/-- KDL_JNL_DROPS, R333. -/
abbrev Reg.KDL_JNL_DROPS : Nat := 0x10006C
/-- KDL_TORN, R333. -/
abbrev Reg.KDL_TORN : Nat := 0x100070
/-- KDL_THERM, R333. -/
abbrev Reg.KDL_THERM : Nat := 0x100074
/-- KDL_RRST_LO, R333. -/
abbrev Reg.KDL_RRST_LO : Nat := 0x100078
/-- KDL_RRST_HI, R333. -/
abbrev Reg.KDL_RRST_HI : Nat := 0x10007C
/-- KDL_CMD, R333. -/
abbrev Reg.KDL_CMD : Nat := 0x100080
/-- KDL_CMD_STATUS, R333. -/
abbrev Reg.KDL_CMD_STATUS : Nat := 0x100084
/-- KDL_WIN, R333. -/
abbrev Reg.KDL_WIN : Nat := 0x100400

/-- The ARR registers (R67). -/
def regRowsArr : List RegRow := [
  ⟨0, 3, 0x20, 0x20, 0x040, 4, 1, 0, 0x3F3F3F3F, 0x0⟩,
  ⟨0, 3, 0x20, 0x20, 0x044, 4, 1, 1, 0x7FF, 0x303⟩,
  ⟨0, 3, 0x20, 0x20, 0x048, 4, 1, 0, 0xFFFFFFFF, 0x0⟩,
  ⟨0, 3, 0x20, 0x20, 0x04C, 4, 1, 0, 0xFFFFFFFF, 0x0⟩,
  ⟨0, 3, 0x20, 0x20, 0x050, 4, 1, 0, 0xFFFFFFFF, 0x0⟩,
  ⟨0, 3, 0x20, 0x20, 0x054, 4, 1, 0, 0xFFFFFFFF, 0x0⟩,
  ⟨0, 3, 0x20, 0x20, 0x058, 4, 1, 0, 0xFFFF, 0x0⟩,
  ⟨0, 3, 0x20, 0x20, 0x05C, 4, 1, 0, 0xFFFFFFFF, 0x0⟩,
  ⟨0, 3, 0x20, 0x20, 0x060, 4, 1, 0, 0xFFFF, 0x0⟩,
  ⟨0, 3, 0x20, 0x20, 0x064, 4, 1, 0, 0xFFFFFFFF, 0x0⟩,
  ⟨0, 3, 0x20, 0x20, 0x068, 4, 1, 0, 0xFFFF, 0x0⟩,
  ⟨0, 3, 0x20, 0x20, 0x06C, 4, 1, 0, 0xFFFFFFFF, 0x0⟩,
  ⟨0, 3, 0x21, 0x21, 0x040, 4, 48, 0, 0xFFF0FFF, 0x0⟩,
  ⟨0, 3, 0x21, 0x21, 0x100, 4, 1, 2, 0x33F, 0x0⟩]

/-- The SEQ registers (R100). -/
def regRowsSeq : List RegRow := [
  ⟨0, 3, 0x10, 0x10, 0x040, 4, 1, 1, 0xFFFFFFFF, 0x0⟩,
  ⟨0, 3, 0x10, 0x10, 0x044, 4, 1, 1, 0xFFFF, 0x0⟩,
  ⟨0, 3, 0x10, 0x10, 0x048, 4, 1, 1, 0xFFFFFFFF, 0x0⟩,
  ⟨0, 3, 0x10, 0x10, 0x04C, 4, 1, 2, 0x8FFF011F, 0x0⟩,
  ⟨0, 3, 0x10, 0x10, 0x050, 4, 1, 2, 0x8000001F, 0x0⟩,
  ⟨0, 3, 0x10, 0x10, 0x054, 4, 1, 0, 0xFFFF, 0x0⟩,
  ⟨0, 3, 0x10, 0x10, 0x058, 4, 1, 0, 0xFFFFFFFF, 0x0⟩,
  ⟨0, 3, 0x10, 0x10, 0x05C, 4, 1, 0, 0xFFFF, 0x0⟩,
  ⟨0, 3, 0x10, 0x10, 0x060, 4, 1, 0, 0xFFFFFFFF, 0x0⟩,
  ⟨0, 3, 0x10, 0x10, 0x064, 4, 1, 0, 0xFFFFFFFF, 0x0⟩,
  ⟨0, 3, 0x10, 0x10, 0x068, 4, 1, 0, 0xFFFFFFFF, 0x0⟩,
  ⟨0, 3, 0x11, 0x11, 0x040, 16, 32, 1, 0xFFFFFF, 0x0⟩,
  ⟨0, 3, 0x11, 0x11, 0x044, 16, 32, 0, 0x3FFFFF, 0x0⟩,
  ⟨0, 3, 0x11, 0x11, 0x048, 16, 32, 1, 0xFFF, 0x0⟩,
  ⟨0, 3, 0x11, 0x11, 0x04C, 16, 32, 0, 0xFFFF, 0x0⟩,
  ⟨0, 3, 0x12, 0x12, 0x040, 32, 64, 0, 0x1FFFFFF, 0x0⟩,
  ⟨0, 3, 0x12, 0x12, 0x044, 32, 64, 0, 0xFFFFFF, 0x0⟩,
  ⟨0, 3, 0x12, 0x12, 0x048, 32, 64, 0, 0xFFFFFFFF, 0x0⟩,
  ⟨0, 3, 0x12, 0x12, 0x04C, 32, 64, 0, 0xFFFFFFFF, 0x0⟩,
  ⟨0, 3, 0x12, 0x12, 0x050, 32, 64, 0, 0xFFFFFFFF, 0x0⟩,
  ⟨0, 3, 0x12, 0x12, 0x054, 32, 64, 0, 0xFFFFFFFF, 0x0⟩,
  ⟨0, 3, 0x12, 0x12, 0x058, 32, 64, 0, 0xFFFF, 0x0⟩,
  ⟨0, 3, 0x12, 0x12, 0x05C, 32, 64, 0, 0x201F, 0x0⟩,
  ⟨0, 3, 0x13, 0x13, 0x040, 4, 1, 0, 0xFFFFFFFF, 0x0⟩,
  ⟨0, 3, 0x13, 0x13, 0x044, 4, 1, 0, 0xFFFF, 0x0⟩,
  ⟨0, 3, 0x13, 0x13, 0x048, 4, 1, 1, 0xFFFFFFFF, 0x0⟩,
  ⟨0, 3, 0x13, 0x13, 0x04C, 4, 1, 1, 0xFFFF, 0x0⟩,
  ⟨0, 3, 0x13, 0x13, 0x050, 4, 1, 1, 0xFFFFFFFF, 0x0⟩,
  ⟨0, 3, 0x13, 0x13, 0x054, 4, 1, 0, 0xFFFFFFFF, 0x0⟩,
  ⟨0, 3, 0x13, 0x13, 0x058, 4, 1, 1, 0xFFFFFFFF, 0x0⟩,
  ⟨0, 3, 0x13, 0x13, 0x05C, 4, 1, 0, 0xFFFFFFFF, 0x0⟩]

/-- The SPD registers (R118). -/
def regRowsSpd : List RegRow := [
  ⟨0, 3, 0x30, 0x30, 0x040, 4, 1, 0, 0x1FF01FF, 0x0⟩,
  ⟨0, 3, 0x30, 0x30, 0x044, 4, 1, 1, 0xFFF, 0x40⟩,
  ⟨0, 3, 0x30, 0x30, 0x048, 4, 1, 0, 0xFFFFFFFF, 0x0⟩,
  ⟨0, 3, 0x30, 0x30, 0x04C, 4, 1, 0, 0xFFFFFFFF, 0x0⟩,
  ⟨0, 3, 0x30, 0x30, 0x050, 4, 1, 0, 0xFFFFFFFF, 0x0⟩,
  ⟨0, 3, 0x30, 0x30, 0x054, 4, 1, 0, 0xFFFFFFFF, 0x0⟩,
  ⟨0, 3, 0x30, 0x30, 0x058, 4, 1, 0, 0xFFFFFFFF, 0x0⟩,
  ⟨0, 3, 0x30, 0x30, 0x05C, 4, 1, 1, 0xFFF, 0x0⟩,
  ⟨0, 3, 0x30, 0x30, 0x060, 4, 1, 1, 0x1FFFFFFF, 0x0⟩,
  ⟨0, 3, 0x30, 0x30, 0x064, 4, 1, 0, 0x3FFFFFFF, 0x0⟩,
  ⟨0, 3, 0x30, 0x30, 0x070, 4, 12, 0, 0xFFFFFFFF, 0x0⟩,
  ⟨0, 3, 0x30, 0x30, 0x0A0, 4, 12, 0, 0xFFFFFFFF, 0x0⟩,
  ⟨0, 3, 0x31, 0x34, 0x040, 32, 32, 1, 0xFFFFFF, 0x0⟩,
  ⟨0, 3, 0x31, 0x34, 0x044, 32, 32, 1, 0x1FFFFF, 0x0⟩,
  ⟨0, 3, 0x31, 0x34, 0x048, 32, 32, 1, 0x1FFFF, 0x0⟩,
  ⟨0, 3, 0x31, 0x34, 0x04C, 32, 32, 0, 0x1F0F0F, 0x0⟩,
  ⟨0, 3, 0x31, 0x34, 0x050, 32, 32, 0, 0xFFFFFFFF, 0x0⟩,
  ⟨0, 3, 0x31, 0x34, 0x054, 32, 32, 0, 0xFFFFFFFF, 0x0⟩,
  ⟨0, 3, 0x31, 0x34, 0x058, 32, 32, 0, 0xFFFFFFFF, 0x0⟩,
  ⟨0, 3, 0x31, 0x34, 0x05C, 32, 32, 2, 0x1, 0x0⟩]

/-- The VEC registers (R137). -/
def regRowsVec : List RegRow := [
  ⟨0, 3, 0x40, 0x40, 0x040, 4, 1, 0, 0xFFF, 0x0⟩,
  ⟨0, 3, 0x40, 0x40, 0x044, 4, 1, 0, 0xFFFFFFFF, 0x0⟩,
  ⟨0, 3, 0x40, 0x40, 0x048, 4, 1, 0, 0xFFFFFFFF, 0x0⟩,
  ⟨0, 3, 0x40, 0x40, 0x04C, 4, 1, 0, 0xFFFFFFFF, 0x0⟩,
  ⟨0, 3, 0x40, 0x40, 0x050, 8, 12, 0, 0x3FFFF, 0x0⟩,
  ⟨0, 3, 0x40, 0x40, 0x054, 8, 12, 0, 0xFFFFFFFF, 0x0⟩]

/-- The ROW registers (R138). -/
def regRowsRow : List RegRow := [
  ⟨0, 3, 0x50, 0x50, 0x040, 4, 1, 1, 0xFFF, 0x0⟩,
  ⟨0, 3, 0x50, 0x50, 0x044, 4, 1, 1, 0x1FFFF, 0x0⟩,
  ⟨0, 3, 0x50, 0x50, 0x048, 4, 1, 1, 0xFFFFFFFF, 0x0⟩,
  ⟨0, 3, 0x50, 0x50, 0x04C, 4, 1, 2, 0x7, 0x0⟩,
  ⟨0, 3, 0x50, 0x50, 0x050, 4, 1, 0, 0xF1, 0x0⟩,
  ⟨0, 3, 0x50, 0x50, 0x054, 4, 1, 0, 0x1F, 0x0⟩,
  ⟨0, 3, 0x50, 0x50, 0x058, 4, 1, 0, 0xFFFFFFFF, 0x0⟩,
  ⟨0, 3, 0x50, 0x50, 0x05C, 4, 1, 0, 0xFFFFFFFF, 0x0⟩,
  ⟨0, 3, 0x50, 0x50, 0x060, 4, 1, 0, 0xFFFFFFFF, 0x0⟩,
  ⟨0, 3, 0x50, 0x50, 0x070, 16, 4, 0, 0x1FFF, 0x0⟩,
  ⟨0, 3, 0x50, 0x50, 0x074, 16, 4, 0, 0xFF, 0x0⟩,
  ⟨0, 3, 0x50, 0x50, 0x078, 16, 4, 0, 0xFFFFFFFF, 0x0⟩,
  ⟨0, 3, 0x50, 0x50, 0x07C, 16, 4, 0, 0x1FFFF, 0x10000⟩]

/-- The HTH registers (R157). -/
def regRowsHth : List RegRow := [
  ⟨0, 3, 0x60, 0x60, 0x040, 4, 16, 0, 0xFFFF, 0x0⟩,
  ⟨0, 3, 0x60, 0x60, 0x080, 4, 1, 0, 0xFFFFFFFF, 0x0⟩,
  ⟨0, 3, 0x60, 0x60, 0x084, 4, 1, 0, 0xFFFFFFFF, 0x0⟩,
  ⟨0, 3, 0x60, 0x60, 0x088, 4, 1, 0, 0xFFFFFFFF, 0x0⟩,
  ⟨0, 3, 0x60, 0x60, 0x08C, 4, 1, 0, 0xFFFFFFFF, 0x0⟩,
  ⟨0, 3, 0x60, 0x60, 0x090, 4, 1, 0, 0xFFFFFFFF, 0x0⟩,
  ⟨0, 3, 0x60, 0x60, 0x094, 4, 1, 0, 0xFFFFFFFF, 0x0⟩,
  ⟨0, 3, 0x60, 0x60, 0x098, 4, 1, 0, 0xFFFFFFFF, 0x0⟩,
  ⟨0, 3, 0x60, 0x60, 0x09C, 4, 1, 0, 0xFFFFFFFF, 0x0⟩,
  ⟨0, 3, 0x60, 0x60, 0x0A0, 4, 1, 0, 0xFFFF, 0x0⟩,
  ⟨0, 3, 0x60, 0x60, 0x0A4, 4, 1, 1, 0xFFFFFFFF, 0x100000⟩,
  ⟨0, 3, 0x60, 0x60, 0x0A8, 4, 1, 2, 0x1, 0x0⟩,
  ⟨0, 3, 0x60, 0x60, 0x0AC, 4, 1, 0, 0xFFFFFFFF, 0x0⟩,
  ⟨0, 3, 0x61, 0x61, 0x040, 32, 8, 1, 0x3F, 0x0⟩,
  ⟨0, 3, 0x61, 0x61, 0x044, 32, 8, 1, 0x1FFF, 0x0⟩,
  ⟨0, 3, 0x61, 0x61, 0x048, 32, 8, 1, 0xFFFFFFFF, 0x0⟩,
  ⟨0, 3, 0x61, 0x61, 0x04C, 32, 8, 1, 0xFFFFFFF, 0x0⟩,
  ⟨0, 3, 0x61, 0x61, 0x050, 32, 8, 0, 0xFFFFFFF, 0x0⟩,
  ⟨0, 3, 0x61, 0x61, 0x054, 32, 8, 0, 0xFFFFFFFF, 0x0⟩,
  ⟨0, 3, 0x61, 0x61, 0x058, 32, 8, 0, 0xFFFFFFFF, 0x0⟩,
  ⟨0, 3, 0x61, 0x61, 0x05C, 32, 8, 0, 0xFFFFFFFF, 0x0⟩,
  ⟨0, 3, 0x61, 0x61, 0x200, 16, 16, 1, 0xFFFFFFFF, 0x0⟩,
  ⟨0, 3, 0x61, 0x61, 0x204, 16, 16, 1, 0xFFFFFFF, 0x0⟩,
  ⟨0, 3, 0x61, 0x61, 0x208, 16, 16, 1, 0x1FFFF, 0x0⟩,
  ⟨0, 3, 0x61, 0x61, 0x20C, 16, 16, 2, 0x7, 0x0⟩,
  ⟨0, 3, 0x61, 0x61, 0x300, 4, 1, 0, 0xFFFF, 0x0⟩]

/-- The EMB registers (R179). -/
def regRowsEmb : List RegRow := [
  ⟨0, 3, 0x70, 0x70, 0x040, 32, 8, 1, 0xFFFFFFFF, 0x0⟩,
  ⟨0, 3, 0x70, 0x70, 0x044, 32, 8, 1, 0xFFFFFFF, 0x0⟩,
  ⟨0, 3, 0x70, 0x70, 0x048, 32, 8, 1, 0xFFFFFFFF, 0x0⟩,
  ⟨0, 3, 0x70, 0x70, 0x04C, 32, 8, 1, 0xFFFF, 0x0⟩,
  ⟨0, 3, 0x70, 0x70, 0x050, 32, 8, 1, 0xFFFFFFFF, 0x0⟩,
  ⟨0, 3, 0x70, 0x70, 0x054, 32, 8, 1, 0xFFFFFFFF, 0x0⟩,
  ⟨0, 3, 0x70, 0x70, 0x058, 32, 8, 1, 0xFFFF, 0x0⟩,
  ⟨0, 3, 0x70, 0x70, 0x05C, 32, 8, 1, 0xFFFFFFFF, 0x0⟩,
  ⟨0, 3, 0x70, 0x70, 0x140, 16, 8, 1, 0x1, 0x0⟩,
  ⟨0, 3, 0x70, 0x70, 0x144, 16, 8, 0, 0xFFFFFFFF, 0x0⟩,
  ⟨0, 3, 0x70, 0x70, 0x148, 16, 8, 0, 0xFFFFFFFF, 0x0⟩,
  ⟨0, 3, 0x70, 0x70, 0x14C, 16, 8, 0, 0xFFFF, 0x0⟩,
  ⟨0, 3, 0x70, 0x70, 0x1C0, 4, 1, 0, 0xFFFFFFFF, 0x0⟩,
  ⟨0, 3, 0x70, 0x70, 0x1C4, 4, 1, 0, 0xFFFFFFFF, 0x0⟩,
  ⟨0, 3, 0x70, 0x70, 0x1C8, 4, 1, 0, 0xFFFFFFFF, 0x0⟩,
  ⟨0, 3, 0x70, 0x70, 0x1CC, 4, 1, 0, 0xFFFFFFFF, 0x0⟩,
  ⟨0, 3, 0x70, 0x70, 0x1D0, 4, 1, 0, 0xFFFFFFFF, 0x0⟩,
  ⟨0, 3, 0x70, 0x70, 0x1D4, 4, 1, 0, 0xFFFFFFFF, 0x0⟩,
  ⟨0, 3, 0x70, 0x70, 0x1D8, 4, 1, 0, 0xFFFFFFFF, 0x0⟩,
  ⟨0, 3, 0x70, 0x70, 0x1DC, 4, 1, 0, 0xFFFFFFFF, 0x0⟩,
  ⟨0, 3, 0x71, 0x71, 0x040, 32, 8, 1, 0xFFFFFFFF, 0x0⟩,
  ⟨0, 3, 0x71, 0x71, 0x044, 32, 8, 1, 0xFFFFFFF, 0x0⟩,
  ⟨0, 3, 0x71, 0x71, 0x048, 32, 8, 1, 0x1FFFF, 0x0⟩,
  ⟨0, 3, 0x71, 0x71, 0x04C, 32, 8, 1, 0xFF, 0x0⟩,
  ⟨0, 3, 0x71, 0x71, 0x050, 32, 8, 2, 0x1FFFF, 0x0⟩,
  ⟨0, 3, 0x71, 0x71, 0x054, 32, 8, 0, 0x1FFFF, 0x0⟩,
  ⟨0, 3, 0x71, 0x71, 0x058, 32, 8, 0, 0x1FFFF, 0x0⟩,
  ⟨0, 3, 0x71, 0x71, 0x05C, 32, 8, 0, 0xFFFFFFFF, 0x0⟩,
  ⟨0, 3, 0x72, 0x72, 0x040, 4, 1, 1, 0x3, 0x1⟩,
  ⟨0, 3, 0x72, 0x72, 0x044, 4, 1, 1, 0xFFFF, 0x100⟩,
  ⟨0, 3, 0x72, 0x72, 0x048, 4, 1, 1, 0x1FFF, 0x0⟩,
  ⟨0, 3, 0x72, 0x72, 0x04C, 4, 1, 0, 0xFFFFFFFF, 0x0⟩,
  ⟨0, 3, 0x72, 0x72, 0x050, 4, 1, 0, 0xFFFFFFFF, 0x0⟩,
  ⟨0, 3, 0x72, 0x72, 0x054, 4, 1, 0, 0xFFFFFFFF, 0x0⟩,
  ⟨0, 3, 0x72, 0x72, 0x058, 4, 1, 0, 0xFFFFFFFF, 0x0⟩,
  ⟨0, 3, 0x72, 0x72, 0x05C, 4, 1, 0, 0xFFFFFFFF, 0x0⟩,
  ⟨0, 3, 0x72, 0x72, 0x060, 4, 1, 0, 0xFFFFFFFF, 0x0⟩,
  ⟨0, 3, 0x72, 0x72, 0x064, 4, 1, 0, 0x1FFF, 0x0⟩,
  ⟨0, 3, 0x72, 0x72, 0x068, 4, 1, 0, 0xFFFFFFFF, 0x0⟩,
  ⟨0, 3, 0x72, 0x72, 0x06C, 4, 1, 0, 0xFFFFFFFF, 0x0⟩]

/-- The SWP registers (R224). -/
def regRowsSwp : List RegRow := [
  ⟨0, 3, 0x80, 0x80, 0x040, 4, 1, 0, 0x77, 0x0⟩,
  ⟨0, 3, 0x80, 0x80, 0x044, 4, 1, 1, 0xFFFF0001, 0x0⟩,
  ⟨0, 3, 0x80, 0x80, 0x048, 4, 1, 0, 0xFFFFFFFF, 0x0⟩,
  ⟨0, 3, 0x80, 0x80, 0x04C, 4, 1, 0, 0xFFFFFFFF, 0x0⟩,
  ⟨0, 3, 0x80, 0x80, 0x050, 4, 1, 0, 0xFFFFFFFF, 0x0⟩,
  ⟨0, 3, 0x80, 0x80, 0x054, 4, 1, 0, 0xFFFFFFFF, 0x0⟩,
  ⟨0, 3, 0x80, 0x80, 0x058, 4, 1, 0, 0xFFFFFFFF, 0x0⟩,
  ⟨0, 3, 0x80, 0x80, 0x05C, 4, 1, 0, 0xFFFFFFFF, 0x0⟩,
  ⟨0, 3, 0x80, 0x80, 0x060, 4, 1, 0, 0xFFFFFFFF, 0x0⟩,
  ⟨0, 3, 0x80, 0x80, 0x064, 4, 1, 0, 0xFFFFFFFF, 0x0⟩,
  ⟨0, 3, 0x80, 0x80, 0x068, 4, 1, 0, 0xFFFFFFFF, 0x0⟩,
  ⟨0, 3, 0x80, 0x80, 0x06C, 4, 1, 0, 0xFFFFFFFF, 0x0⟩,
  ⟨0, 3, 0x80, 0x80, 0x070, 4, 1, 0, 0xFFFFFFFF, 0x0⟩,
  ⟨0, 3, 0x80, 0x80, 0x074, 4, 1, 1, 0x0, 0x0⟩,
  ⟨0, 3, 0x80, 0x80, 0x080, 4, 16, 1, 0x0, 0x0⟩,
  ⟨0, 3, 0x81, 0x81, 0x040, 64, 8, 1, 0x7, 0x0⟩,
  ⟨0, 3, 0x81, 0x81, 0x044, 64, 8, 1, 0xFFFFFFFF, 0x0⟩,
  ⟨0, 3, 0x81, 0x81, 0x048, 64, 8, 1, 0x1FFFFFFF, 0x0⟩,
  ⟨0, 3, 0x81, 0x81, 0x04C, 64, 8, 1, 0xFFFFFFFF, 0x0⟩,
  ⟨0, 3, 0x81, 0x81, 0x050, 64, 8, 1, 0xFFFF, 0x0⟩,
  ⟨0, 3, 0x81, 0x81, 0x054, 64, 8, 1, 0x1FFFFF, 0x0⟩,
  ⟨0, 3, 0x81, 0x81, 0x058, 64, 8, 1, 0xFFFFFFFF, 0x0⟩,
  ⟨0, 3, 0x81, 0x81, 0x05C, 64, 8, 1, 0xFFFF, 0x0⟩,
  ⟨0, 3, 0x81, 0x81, 0x060, 64, 8, 1, 0xFFFFFFFF, 0x0⟩,
  ⟨0, 3, 0x81, 0x81, 0x064, 64, 8, 1, 0xFFFF, 0x0⟩,
  ⟨0, 3, 0x81, 0x81, 0x068, 64, 8, 0, 0xFF03, 0x0⟩,
  ⟨0, 3, 0x81, 0x81, 0x06C, 64, 8, 0, 0xFFFFFFFF, 0x0⟩,
  ⟨0, 3, 0x81, 0x81, 0x070, 64, 8, 0, 0xFF, 0x0⟩,
  ⟨0, 3, 0x81, 0x81, 0x074, 64, 8, 0, 0xFFFF, 0x0⟩,
  ⟨0, 3, 0x81, 0x81, 0x078, 64, 8, 1, 0xFFFF, 0x3E8⟩,
  ⟨0, 3, 0x81, 0x81, 0x07C, 64, 8, 2, 0x800000FF, 0x0⟩]

/-- The HBM registers (R242). -/
def regRowsHbm : List RegRow := [
  ⟨0, 3, 0x90, 0x90, 0x040, 4, 1, 0, 0xFF, 0x0⟩,
  ⟨0, 3, 0x90, 0x90, 0x044, 4, 1, 0, 0x1FFFF, 0x0⟩,
  ⟨0, 3, 0x90, 0x90, 0x048, 4, 1, 0, 0x1FFFF, 0x0⟩,
  ⟨0, 3, 0x90, 0x90, 0x04C, 4, 5, 0, 0xFFFFFFFF, 0x0⟩,
  ⟨0, 3, 0x90, 0x90, 0x060, 4, 1, 1, 0xFFFFFFFF, 0x578⟩,
  ⟨0, 3, 0x90, 0x90, 0x064, 4, 1, 1, 0xFFFFFFFF, 0x100000⟩,
  ⟨0, 3, 0x90, 0x90, 0x068, 4, 1, 1, 0xFFFF1F01, 0x400401⟩,
  ⟨0, 3, 0x90, 0x90, 0x06C, 4, 1, 1, 0xFFFF, 0x42C⟩,
  ⟨0, 3, 0x90, 0x90, 0x070, 4, 1, 0, 0xFFFF, 0x0⟩,
  ⟨0, 3, 0x90, 0x90, 0x074, 4, 1, 0, 0xFFFFFFFF, 0x0⟩,
  ⟨0, 3, 0x90, 0x90, 0x078, 4, 1, 0, 0xFFFFFFFF, 0x0⟩,
  ⟨0, 3, 0x90, 0x90, 0x07C, 4, 1, 1, 0xFFF, 0x0⟩,
  ⟨0, 3, 0x90, 0x90, 0x080, 8, 6, 0, 0xFFFFFFFF, 0x0⟩,
  ⟨0, 3, 0x90, 0x90, 0x084, 8, 6, 0, 0xFFFFFFFF, 0x0⟩,
  ⟨0, 3, 0x91, 0x95, 0x040, 4, 1, 0, 0xF, 0x0⟩,
  ⟨0, 3, 0x91, 0x95, 0x044, 4, 1, 0, 0xFFFFFFFF, 0x0⟩,
  ⟨0, 3, 0x91, 0x95, 0x048, 4, 1, 0, 0xFFFFFFFF, 0x0⟩,
  ⟨0, 3, 0x91, 0x95, 0x04C, 4, 1, 0, 0xFFFFFFFF, 0x0⟩,
  ⟨0, 3, 0x91, 0x95, 0x050, 4, 1, 0, 0xFFFFFFFF, 0x0⟩,
  ⟨0, 3, 0x91, 0x95, 0x054, 4, 1, 1, 0xFF, 0x18⟩,
  ⟨0, 3, 0x91, 0x95, 0x058, 4, 1, 0, 0xFFFFFFFF, 0x0⟩,
  ⟨0, 3, 0x91, 0x95, 0x05C, 4, 1, 0, 0xFF, 0x0⟩,
  ⟨0, 3, 0x91, 0x95, 0x060, 4, 4, 0, 0xFFFFFFFF, 0x0⟩]

/-- The CLD registers (R243). -/
def regRowsCld : List RegRow := [
  ⟨4, 5, 0xA0, 0xA0, 0x040, 4, 1, 0, 0x3F, 0x0⟩,
  ⟨4, 5, 0xA0, 0xA0, 0x044, 4, 1, 0, 0x3F, 0x0⟩,
  ⟨4, 5, 0xA0, 0xA0, 0x048, 4, 1, 0, 0xFFFFFFFF, 0x0⟩,
  ⟨4, 5, 0xA0, 0xA0, 0x04C, 4, 1, 0, 0xFFFFFFFF, 0x0⟩,
  ⟨4, 5, 0xA0, 0xA0, 0x050, 4, 1, 0, 0xFFFFFFFF, 0x0⟩,
  ⟨4, 5, 0xA0, 0xA0, 0x054, 4, 1, 1, 0xFF, 0x18⟩,
  ⟨4, 5, 0xA0, 0xA0, 0x058, 4, 1, 0, 0xFFFFFFFF, 0x0⟩,
  ⟨4, 5, 0xA0, 0xA0, 0x05C, 4, 1, 1, 0xFFFFFFFF, 0x4B0⟩,
  ⟨4, 5, 0xA0, 0xA0, 0x060, 4, 1, 1, 0xFFFFFFFF, 0xE0000⟩,
  ⟨4, 5, 0xA0, 0xA0, 0x064, 4, 1, 1, 0xFFF, 0x0⟩,
  ⟨4, 5, 0xA0, 0xA0, 0x068, 8, 6, 0, 0xFFFFFFFF, 0x0⟩,
  ⟨4, 5, 0xA0, 0xA0, 0x06C, 8, 6, 0, 0xFFFFFFFF, 0x0⟩,
  ⟨4, 5, 0xA0, 0xA0, 0x098, 4, 1, 0, 0xFFFFF, 0x0⟩]

/-- The STK registers (R260). -/
def regRowsStk : List RegRow := [
  ⟨0, 3, 0xB0, 0xB0, 0x040, 4, 1, 1, 0xFFFFFFFF, 0x0⟩,
  ⟨0, 3, 0xB0, 0xB0, 0x044, 4, 1, 1, 0xFFFF, 0x0⟩,
  ⟨0, 3, 0xB0, 0xB0, 0x048, 4, 1, 2, 0x1, 0x0⟩,
  ⟨0, 3, 0xB0, 0xB0, 0x04C, 4, 1, 0, 0xFFFFF07, 0x0⟩,
  ⟨0, 3, 0xB0, 0xB0, 0x050, 4, 1, 0, 0xF, 0x0⟩,
  ⟨0, 3, 0xB0, 0xB0, 0x054, 4, 1, 1, 0x7, 0x3⟩,
  ⟨0, 3, 0xB0, 0xB0, 0x058, 4, 4, 0, 0xFFFFFFFF, 0x0⟩,
  ⟨0, 3, 0xB0, 0xB0, 0x068, 4, 1, 0, 0xFFF, 0x0⟩,
  ⟨0, 3, 0xB0, 0xB0, 0x06C, 4, 1, 1, 0xFFFFFFF, 0x258585F⟩,
  ⟨0, 3, 0xB0, 0xB0, 0x070, 4, 1, 0, 0xFFFFFFFF, 0x0⟩,
  ⟨0, 3, 0xB0, 0xB0, 0x074, 4, 1, 1, 0xFFFF, 0x3E8⟩,
  ⟨0, 3, 0xB0, 0xB0, 0x078, 4, 1, 0, 0xFFFFFFFF, 0x0⟩,
  ⟨0, 3, 0xB0, 0xB0, 0x07C, 4, 1, 0, 0xFFFFFFFF, 0x0⟩,
  ⟨0, 3, 0xB0, 0xB0, 0x080, 4, 1, 1, 0x1377, 0x0⟩,
  ⟨0, 3, 0xB0, 0xB0, 0x084, 4, 1, 0, 0xFFFFFFFF, 0x0⟩,
  ⟨0, 3, 0xB0, 0xB0, 0x088, 4, 1, 0, 0xFFFFFFFF, 0x0⟩,
  ⟨0, 3, 0xB0, 0xB0, 0x08C, 4, 1, 0, 0xFFFFFFFF, 0x0⟩,
  ⟨0, 3, 0xB0, 0xB0, 0x090, 4, 1, 0, 0x1FFFFFF, 0x0⟩,
  ⟨0, 3, 0xB0, 0xB0, 0x094, 4, 1, 0, 0x7FFFF, 0x0⟩,
  ⟨0, 3, 0xB0, 0xB0, 0x098, 4, 1, 0, 0x1FFFFF, 0x0⟩,
  ⟨0, 3, 0xB0, 0xB0, 0x09C, 4, 1, 1, 0x1F, 0x2⟩,
  ⟨0, 3, 0xB1, 0xB1, 0x040, 4, 1, 1, 0x3FF, 0x0⟩,
  ⟨0, 3, 0xB1, 0xB1, 0x044, 4, 1, 0, 0x7FFFFFF, 0x0⟩,
  ⟨0, 3, 0xB1, 0xB1, 0x048, 4, 1, 0, 0xFFFFFFFF, 0x0⟩,
  ⟨0, 3, 0xB1, 0xB1, 0x04C, 4, 1, 0, 0xFFFFFFFF, 0x0⟩,
  ⟨0, 3, 0xB1, 0xB1, 0x050, 4, 1, 0, 0x7FFFF, 0x0⟩,
  ⟨0, 3, 0xB1, 0xB1, 0x054, 4, 1, 0, 0x1FFFFF, 0x0⟩,
  ⟨0, 3, 0xB1, 0xB1, 0x058, 4, 1, 0, 0x1FFF, 0x0⟩,
  ⟨0, 3, 0xB1, 0xB1, 0x05C, 4, 1, 0, 0xFFFFFFFF, 0x0⟩,
  ⟨0, 3, 0xB1, 0xB1, 0x060, 4, 1, 0, 0xFFFFFFFF, 0x0⟩,
  ⟨0, 3, 0xB1, 0xB1, 0x064, 4, 1, 0, 0xFFFFFFFF, 0x0⟩,
  ⟨0, 3, 0xB1, 0xB1, 0x068, 4, 1, 0, 0xFFFFFFFF, 0x0⟩]

/-- The UCI registers (R279). -/
def regRowsUci : List RegRow := [
  ⟨0, 6, 0xC0, 0xC5, 0x040, 4, 1, 0, 0xFF1F, 0x0⟩,
  ⟨0, 6, 0xC0, 0xC5, 0x044, 4, 1, 0, 0xFFFFFFFF, 0x0⟩,
  ⟨0, 6, 0xC0, 0xC5, 0x048, 4, 1, 1, 0x0, 0x0⟩,
  ⟨0, 6, 0xC0, 0xC5, 0x04C, 4, 1, 0, 0xFFFFFFFF, 0x0⟩,
  ⟨0, 6, 0xC0, 0xC5, 0x050, 4, 1, 0, 0xFFFFFFFF, 0x0⟩,
  ⟨0, 6, 0xC0, 0xC5, 0x054, 4, 1, 0, 0xFFFFFFFF, 0x0⟩,
  ⟨0, 6, 0xC0, 0xC5, 0x058, 4, 4, 0, 0xFFFFFFFF, 0x0⟩,
  ⟨0, 6, 0xC0, 0xC5, 0x068, 4, 1, 0, 0xFFFFFFFF, 0x0⟩,
  ⟨0, 6, 0xC0, 0xC5, 0x06C, 4, 1, 0, 0xFFFFFFFF, 0x0⟩,
  ⟨0, 3, 0xC8, 0xC8, 0x040, 4, 1, 1, 0x3FF, 0x0⟩,
  ⟨0, 3, 0xC8, 0xC8, 0x044, 4, 1, 1, 0x3FFFF, 0x0⟩,
  ⟨0, 3, 0xC8, 0xC8, 0x048, 4, 1, 1, 0xFFFFFFFF, 0x0⟩,
  ⟨0, 3, 0xC8, 0xC8, 0x04C, 4, 1, 1, 0xFFFFFFFF, 0x0⟩,
  ⟨0, 3, 0xC8, 0xC8, 0x050, 4, 1, 1, 0xFFFFFFFF, 0x0⟩,
  ⟨0, 3, 0xC8, 0xC8, 0x054, 4, 1, 1, 0xFFFFFFFF, 0x0⟩,
  ⟨0, 3, 0xC8, 0xC8, 0x058, 4, 1, 1, 0xF, 0x0⟩,
  ⟨0, 3, 0xC8, 0xC8, 0x05C, 4, 1, 2, 0x3, 0x0⟩,
  ⟨0, 3, 0xC8, 0xC8, 0x060, 4, 1, 0, 0xFFFFF, 0x0⟩,
  ⟨0, 3, 0xC8, 0xC8, 0x064, 4, 1, 0, 0xFFFF, 0x0⟩,
  ⟨0, 3, 0xC8, 0xC8, 0x068, 4, 1, 0, 0xFFFFFFFF, 0x0⟩,
  ⟨0, 3, 0xC8, 0xC8, 0x06C, 4, 1, 0, 0xFFFFFFFF, 0x0⟩,
  ⟨0, 3, 0xC8, 0xC8, 0x070, 4, 1, 1, 0xFFFFFFFF, 0x0⟩,
  ⟨0, 3, 0xC8, 0xC8, 0x074, 4, 1, 1, 0xFFFFF, 0x0⟩,
  ⟨0, 3, 0xC8, 0xC8, 0x078, 4, 1, 1, 0xFFFFFFFF, 0x0⟩,
  ⟨0, 3, 0xC8, 0xC8, 0x07C, 4, 1, 0, 0xFFFFFF07, 0x0⟩,
  ⟨0, 3, 0xC8, 0xC8, 0x100, 4, 16, 2, 0xFFFFFFFF, 0x0⟩,
  ⟨0, 5, 0xC9, 0xC9, 0x040, 16, 16, 1, 0xFFFFFFFF, 0x0⟩,
  ⟨0, 5, 0xC9, 0xC9, 0x044, 16, 16, 1, 0xFFFF, 0x0⟩,
  ⟨0, 5, 0xC9, 0xC9, 0x800, 8, 256, 1, 0xFFFFFFFF, 0x0⟩,
  ⟨0, 5, 0xC9, 0xC9, 0x804, 8, 256, 1, 0xF1, 0x1⟩]

/-- The FAB registers (R305). -/
def regRowsFab : List RegRow := [
  ⟨4, 5, 0xD0, 0xDF, 0x040, 4, 1, 0, 0x7, 0x0⟩,
  ⟨4, 5, 0xD0, 0xDF, 0x044, 4, 1, 1, 0x5, 0x1⟩,
  ⟨4, 5, 0xD0, 0xDF, 0x048, 4, 1, 0, 0x3FFFF, 0x0⟩,
  ⟨4, 5, 0xD0, 0xDF, 0x04C, 4, 1, 0, 0xFFFFFFFF, 0x0⟩,
  ⟨4, 5, 0xD0, 0xDF, 0x050, 4, 1, 0, 0xFFFFFFFF, 0x0⟩,
  ⟨4, 5, 0xD0, 0xDF, 0x054, 4, 1, 0, 0xFFFFFFFF, 0x0⟩,
  ⟨4, 5, 0xD0, 0xDF, 0x058, 4, 1, 0, 0xFFFFFFFF, 0x0⟩,
  ⟨4, 5, 0xD0, 0xDF, 0x05C, 4, 1, 0, 0xFFFFFFFF, 0x0⟩,
  ⟨4, 5, 0xD0, 0xDF, 0x060, 4, 1, 0, 0xFFFFFFFF, 0x0⟩,
  ⟨4, 5, 0xD0, 0xDF, 0x064, 4, 1, 0, 0xFFFFFFFF, 0x0⟩,
  ⟨4, 5, 0xD0, 0xDF, 0x068, 4, 9, 0, 0xFFFFFFFF, 0x0⟩,
  ⟨4, 5, 0xD0, 0xDF, 0x08C, 4, 1, 0, 0xFFFFFFFF, 0x0⟩]

/-- The COL registers (R306). -/
def regRowsCol : List RegRow := [
  ⟨4, 5, 0xE0, 0xE0, 0x040, 4, 1, 0, 0xFFF1FFF, 0x0⟩,
  ⟨4, 5, 0xE0, 0xE0, 0x044, 4, 1, 0, 0xFFFFFFFF, 0x0⟩,
  ⟨4, 5, 0xE0, 0xE0, 0x048, 4, 1, 1, 0xFFF, 0x0⟩,
  ⟨4, 5, 0xE0, 0xE0, 0x04C, 4, 1, 0, 0x1FFF, 0x0⟩,
  ⟨4, 5, 0xE0, 0xE0, 0x050, 4, 1, 1, 0xFFF, 0x0⟩,
  ⟨4, 5, 0xE0, 0xE0, 0x054, 4, 1, 0, 0xFFF7, 0x0⟩,
  ⟨4, 5, 0xE0, 0xE0, 0x058, 4, 1, 2, 0x1, 0x0⟩,
  ⟨4, 5, 0xE0, 0xE0, 0x05C, 4, 1, 1, 0xFFFFFFFF, 0xB71B00⟩,
  ⟨4, 5, 0xE0, 0xE0, 0x060, 4, 1, 0, 0x1FFF7, 0x0⟩,
  ⟨4, 5, 0xE0, 0xE0, 0x064, 4, 1, 0, 0xFFFFFFFF, 0x0⟩,
  ⟨4, 5, 0xE0, 0xE0, 0x068, 4, 1, 0, 0xFFFFFFFF, 0x0⟩,
  ⟨4, 5, 0xE0, 0xE0, 0x06C, 4, 1, 1, 0xFFFFFFFF, 0x0⟩,
  ⟨4, 5, 0xE0, 0xE0, 0x070, 4, 1, 1, 0xFFFFFFF, 0x0⟩,
  ⟨4, 5, 0xE0, 0xE0, 0x074, 4, 1, 2, 0x800FFFFF, 0x0⟩,
  ⟨4, 5, 0xE0, 0xE0, 0x078, 4, 1, 0, 0xFF03, 0x0⟩,
  ⟨4, 5, 0xE1, 0xE1, 0x040, 64, 8, 1, 0x1, 0x0⟩,
  ⟨4, 5, 0xE1, 0xE1, 0x044, 64, 8, 1, 0xFFFF, 0x0⟩,
  ⟨4, 5, 0xE1, 0xE1, 0x048, 64, 8, 1, 0xFFFFFFFF, 0x0⟩,
  ⟨4, 5, 0xE1, 0xE1, 0x04C, 64, 8, 1, 0x1FFFFFFF, 0x0⟩,
  ⟨4, 5, 0xE1, 0xE1, 0x050, 64, 8, 0, 0x1FFF, 0x0⟩,
  ⟨4, 5, 0xE1, 0xE1, 0x054, 64, 8, 1, 0xFFFFFFFF, 0x186A0⟩,
  ⟨4, 5, 0xE1, 0xE1, 0x058, 64, 8, 0, 0x3F, 0x0⟩,
  ⟨4, 5, 0xE1, 0xE1, 0x05C, 64, 8, 0, 0xFFFF, 0x0⟩,
  ⟨4, 5, 0xE1, 0xE1, 0x060, 64, 8, 0, 0xFFFFFFFF, 0x0⟩,
  ⟨4, 5, 0xE1, 0xE1, 0x064, 64, 8, 0, 0x7, 0x0⟩,
  ⟨4, 5, 0xE1, 0xE1, 0x068, 64, 8, 1, 0xFFFFFFFF, 0x0⟩,
  ⟨4, 5, 0xE1, 0xE1, 0x06C, 64, 8, 1, 0xFFFF, 0x0⟩,
  ⟨4, 5, 0xE1, 0xE1, 0x070, 64, 8, 1, 0xFFFFFFFF, 0x0⟩,
  ⟨4, 5, 0xE1, 0xE1, 0x074, 64, 8, 1, 0xFFFFFFF, 0x0⟩,
  ⟨4, 5, 0xE1, 0xE1, 0x078, 64, 8, 0, 0xFFFFFFFF, 0x0⟩]

/-- The PLT registers (R332). -/
def regRowsPlt : List RegRow := [
  ⟨0, 6, 0xF0, 0xF0, 0x040, 4, 1, 0, 0xFF, 0x0⟩,
  ⟨0, 6, 0xF0, 0xF0, 0x044, 4, 1, 0, 0xFF, 0x0⟩,
  ⟨0, 6, 0xF0, 0xF0, 0x048, 4, 1, 0, 0x1, 0x0⟩,
  ⟨0, 6, 0xF0, 0xF0, 0x04C, 4, 1, 0, 0xFFFF, 0x0⟩,
  ⟨0, 6, 0xF0, 0xF0, 0x050, 4, 1, 0, 0xFFFFFFFF, 0x0⟩,
  ⟨0, 6, 0xF0, 0xF0, 0x054, 4, 1, 0, 0xFFFFFFFF, 0x0⟩,
  ⟨6, 6, 0xF0, 0xF0, 0x058, 4, 1, 2, 0xFFFFFFFF, 0x0⟩,
  ⟨0, 6, 0xF0, 0xF0, 0x05C, 4, 1, 0, 0xFFFFFFFF, 0x0⟩]

/-- The KDL registers (R333). -/
def regRowsKdl : List RegRow := [
  ⟨7, 7, 0x100, 0x100, 0x040, 4, 1, 0, 0xFFF, 0x0⟩,
  ⟨7, 7, 0x100, 0x100, 0x044, 4, 1, 0, 0x1FFF, 0x0⟩,
  ⟨7, 7, 0x100, 0x100, 0x048, 4, 1, 0, 0xFFFFFFFF, 0x0⟩,
  ⟨7, 7, 0x100, 0x100, 0x04C, 4, 1, 0, 0xF, 0x0⟩,
  ⟨7, 7, 0x100, 0x100, 0x050, 4, 1, 0, 0xFC00, 0x0⟩,
  ⟨7, 7, 0x100, 0x100, 0x054, 4, 1, 0, 0x7F, 0x0⟩,
  ⟨7, 7, 0x100, 0x100, 0x058, 4, 1, 0, 0xFFFFFFFF, 0x0⟩,
  ⟨7, 7, 0x100, 0x100, 0x05C, 4, 1, 0, 0xFFFF, 0x0⟩,
  ⟨7, 7, 0x100, 0x100, 0x060, 4, 1, 0, 0xFFFFFF07, 0x0⟩,
  ⟨7, 7, 0x100, 0x100, 0x064, 4, 1, 0, 0xFFFFFFFF, 0x0⟩,
  ⟨7, 7, 0x100, 0x100, 0x068, 4, 1, 0, 0xFFFFFFFF, 0x0⟩,
  ⟨7, 7, 0x100, 0x100, 0x06C, 4, 1, 0, 0xFFFFFFFF, 0x0⟩,
  ⟨7, 7, 0x100, 0x100, 0x070, 4, 1, 0, 0xFFFFFFFF, 0x0⟩,
  ⟨7, 7, 0x100, 0x100, 0x074, 4, 1, 0, 0xFFFF, 0x0⟩,
  ⟨7, 7, 0x100, 0x100, 0x078, 4, 1, 0, 0xFFFFFFFF, 0x0⟩,
  ⟨7, 7, 0x100, 0x100, 0x07C, 4, 1, 0, 0xFFFFFFFF00000000, 0x0⟩,
  ⟨7, 7, 0x100, 0x100, 0x080, 4, 1, 2, 0x800000FF, 0x0⟩,
  ⟨7, 7, 0x100, 0x100, 0x084, 4, 1, 0, 0xFF07, 0x0⟩,
  ⟨7, 7, 0x100, 0x100, 0x400, 4, 256, 1, 0xFFFFFFFF, 0x0⟩]

/-- The table of the chapter that a page belongs to. -/
def regRows (page : Nat) : List RegRow :=
  match page / 16 with
  | 1 => regRowsSeq
  | 2 => regRowsArr
  | 3 => regRowsSpd
  | 4 => regRowsVec
  | 5 => regRowsRow
  | 6 => regRowsHth
  | 7 => regRowsEmb
  | 8 => regRowsSwp
  | 9 => regRowsHbm
  | 10 => regRowsCld
  | 11 => regRowsStk
  | 12 => regRowsUci
  | 13 => regRowsFab
  | 14 => regRowsCol
  | 15 => regRowsPlt
  | 16 => regRowsKdl
  | _ => []

/-- Does a row hold this page and offset of a die? -/
def RegRow.holds (r : RegRow) (die page off : Nat) : Bool :=
  decide (r.dieLo ≤ die ∧ die ≤ r.dieHi ∧ r.pageLo ≤ page ∧ page ≤ r.pageHi ∧ r.base ≤ off) &&
    (off - r.base) % r.stride == 0 && decide ((off - r.base) / r.stride < r.count)

/-- The row of a register, if any. -/
def findReg (die page off : Nat) : Option RegRow := (regRows page).find? fun r => r.holds die page off

/-- The Reset value of the register at a storage key, die × 2^24 + page × 2^12 + offset; 0 where no register is. -/
def regReset (key : Nat) : W32 :=
  match findReg (key / 0x1000000) (key / 0x1000 % 0x1000) (key % 0x1000) with
  | some r => w32 r.reset
  | none => 0

end Sys2Proof.Machine
end

