-- ==== Sys2Proof/Machine/Tab.lean ====
section
/-! DEFINITION. Sparse tables: lists of key and value pairs in one canonical form, keys strictly rising, and no entry equal
to what an unlisted key reads as. Memories, register storage and every numbered part of the module are held so. -/

namespace Sys2Proof.Machine

/-- A sparse table over natural keys. What an unlisted key reads as is an argument of every operation. -/
abbrev Tab (α : Type) := List (Nat × α)

/-- The entry of a key, or the default of that key. -/
def tabGet {α : Type} (d : Nat → α) : Tab α → Nat → α
  | [], k => d k
  | (j, v) :: t, k => if k = j then v else tabGet d t k

/-- Removes a key. -/
def tabDel {α : Type} : Tab α → Nat → Tab α
  | [], _ => []
  | (j, v) :: t, k => if k = j then tabDel t k else (j, v) :: tabDel t k

/-- Inserts or replaces an entry, whatever its value. -/
def tabPut {α : Type} : Tab α → Nat → α → Tab α
  | [], k, v => [(k, v)]
  | (j, w) :: t, k, v =>
    if k = j then (k, v) :: t else if k < j then (k, v) :: (j, w) :: t else (j, w) :: tabPut t k v

/-- Writes a key; writing the default removes the entry, so that equal tables are equal data. -/
def tabSet {α : Type} [DecidableEq α] (d : Nat → α) (t : Tab α) (k : Nat) (v : α) : Tab α :=
  if v = d k then tabDel t k else tabPut t k v

/-- Keys strictly rising from a bound on. -/
def tabSorted {α : Type} : Nat → Tab α → Bool
  | _, [] => true
  | lo, (j, _) :: t => decide (lo ≤ j) && tabSorted (j + 1) t

/-- No entry equals the default of its key. -/
def tabTight {α : Type} [DecidableEq α] (d : Nat → α) : Tab α → Bool
  | [] => true
  | (j, v) :: t => decide (v ≠ d j) && tabTight d t

/-- The canonical form. -/
def tabWf {α : Type} [DecidableEq α] (d : Nat → α) (t : Tab α) : Bool :=
  tabSorted 0 t && tabTight d t

end Sys2Proof.Machine
end

