-- ==== Sys2Proof/Machine/State.lean ====
section
/-! DEFINITION. The state of one IK960 module: its register pages, memories, contexts, streams, units, tiers, links, fabric
engines and kindler, the commands that wait, and what the module has sent out. All of it is plain data. -/

namespace Sys2Proof.Machine

/-- A four-word error record (R344). -/
structure ErrRec where
  w0 : W32
  w1 : W32
  w2 : W32
  w3 : W32
deriving DecidableEq, Repr

/-- The 64-byte header of a register page (R337 to R346). `bad` is the sticky part of FAULTED (R340). -/
structure PageHdr where
  enable : Bool := true
  irqEn : Bool := false
  evStatus : W32 := 0
  evEnable : W32 := 0
  evFirst : W32 := 0
  errs : List ErrRec := []
  errLost : Bool := false
  countC : Nat := 0
  countU : Nat := 0
  lockCfg : Bool := false
  lockEvt : Bool := false
  busy : Bool := false
  bad : Bool := false
  base : Nat := 0
deriving DecidableEq, Repr

/-- Register pages: headers by die × 4,096 + page, register words by die × 2^24 + page × 2^12 + offset (R335), and the
words latched by a _LO read, by agent class × 2^28 + the address of the _HI word (R347). -/
structure PageSt where
  hdr : Tab PageHdr
  regs : Tab W32
  latch : Tab W32
deriving DecidableEq, Repr

/-- What a lease names (R247). -/
structure Lease where
  groups : Nat := 0
  granules : Nat := 0
  seqs : Nat := 0
  weightWays : Nat := 0
  atomicWays : Nat := 0
  redWays : Nat := 0
  mergeWays : Nat := 0
  hbmQuota : Nat := 0
  coldQuota : Nat := 0
  fabShare : Nat := 0
  lend : Bool := false
  lendSem : Nat := 0
deriving DecidableEq, Repr

/-- Why a context is held (R87, R249, R275). -/
inductive Hold where
  | rebind | residue | thermal | stopNow
deriving DecidableEq, Repr

/-- A context (R245 to R249). `state` is coded as R246; `bound` is the lease bound now, `lease` the one recorded. The
physical arrays, vector engines, granules and sequencers are listed in the lease's own order. A lender whose loan waits for
its work in flight has `loanWait`, one whose loan is on `lending` and its borrower (R251). `stopping` says that a STOP (0) or a
stop-now (1) is under way; `pendingStart` holds the STARTs of a context that is not bound: sequencer, slot, entry. -/
structure Ctx where
  valid : Bool := false
  state : Nat := 0
  kind : Nat := 0
  slot : Nat := 0
  prio : Nat := 0
  aspace : Nat := 0
  lease : Lease := {}
  isBound : Bool := false
  bound : Lease := {}
  arrays : List Nat := []
  engines : List Nat := []
  granules : List Nat := []
  seqs : List Nat := []
  age : Nat := 0
  fault : Nat := 0
  faultType : Nat := 0
  sems : Tab Nat := []
  waiters : List (Nat × Nat) := []
  semHint : Tab Nat := []
  chairHint : Nat := 0
  holds : List Hold := []
  rebind : Bool := false
  loanCut : Bool := false
  borrowing : Option Nat := none
  lending : Bool := false
  loanWait : Bool := false
  lentTo : Option Nat := none
  feedStall : Nat := 0
  pisteStall : Nat := 0
  wakeStall : Nat := 0
  stopping : Option Nat := none
  pendingStart : List (Nat × Nat × Nat) := []
deriving DecidableEq, Repr

/-- A stove's stoker (R253 to R257): power state, whether it is on its way back to Lit, throttle level, hottest sensor, thermal
hold. -/
structure Stoker where
  power : Nat := 0
  waking : Bool := false
  throttle : Nat := 0
  temp : Nat := 0
  gating : Bool := false
deriving DecidableEq, Repr

/-- Contexts by ID, stokers by stove, the module's Cold state, and the counter that orders contexts by age. -/
structure CtxSt where
  ctxs : Tab Ctx
  stoker : Tab Stoker
  cold : Bool
  nextAge : Nat
deriving DecidableEq, Repr

/-- A sequencer (R81 to R100). `state` is coded as SEQ_n_STATUS. -/
structure Seq where
  state : Nat := 0
  slot : Nat := 0
  half : Nat := 0
  entry : Nat := 0
  ctx : Option Nat := none
  evalInvalid : Bool := false
  pc : Nat := 0
  issued : Nat := 0
  skips : Nat := 0
  slips : Nat := 0
  waitKind : Nat := 0
  waitNum : Nat := 0
  sregs : Tab W32 := []
  loops : List (Nat × Nat × Nat) := []
  atEnd : Bool := false
  switchTo : Option (Nat × Nat) := none
  resumable : Bool := false
  waited : Nat := 0
deriving DecidableEq, Repr

/-- A program slot (R68, R71): its map word, owner and the state of each half. -/
structure PSlot where
  map : W32 := 0
  owner : Nat := 0
  stA : Nat := 0
  stB : Nat := 0
  active : Nat := 0
  pending : Bool := false
  gen : Nat := 0
deriving DecidableEq, Repr

/-- The gate of a stove (R70, R90, R93). -/
structure Gate where
  busy : Bool := false
  slot : Nat := 0
  half : Nat := 0
  ctx : Nat := 0
  src : Nat := 0
  len : Nat := 0
  passed : Bool := false
  reason : Nat := 0
  failAt : Nat := 0
deriving DecidableEq, Repr

/-- Where an operand's bytes lie: the context's window, its virtual memory, or the reduction buffer (R76). -/
inductive Place where
  | spd | virt | rb
deriving DecidableEq, Repr

/-- A view: a resolved operand or a tensor descriptor (R74, R76). `addr` is a byte offset in the window, a virtual
address or an element offset; `scaleOff` is the distance from `addr` to the scale array. -/
structure View where
  place : Place := .spd
  addr : Nat := 0
  tid : Nat := 0
  fmt : Fmt := .n16
  cls : Cls := .act
  grain : Grain := .none
  zp : Nat := 0
  shape : List Nat := [1, 1, 1, 1]
  origin : Nat := 0
  rows : Nat := 0
  cols : Nat := 0
  lstep : Nat := 0
  stride : Nat := 0
  scaleOff : Nat := 0
  desc : Bool := false
deriving DecidableEq, Repr

/-- A product in flight (R50 to R61). Units are numbered as R50; `acc` holds the N16 codes of the accumulator bank of
each open unit, by unit × 2^20 + row × 256 + lane. `done` counts the beats each unit has finished. -/
structure Product where
  kind : Nat
  a : View
  b : View
  c : View
  d : Option View
  tree : Option View
  z : Option View
  m : Nat
  n : Nat
  k : Nat
  gs : Nat
  func : Nat
  deriv : Bool
  alpha : W16
  table : List Byte
  beats : Tab Nat
  acc : Tab W16
  trees : List Nat
  ended : Bool
deriving DecidableEq, Repr

/-- An entry of the feature table (R165). -/
structure Feat where
  table : Nat
  pool : Nat
  out : Nat
  dpool : Nat
deriving DecidableEq, Repr

/-- A key entry of a lookup in progress (R169), with the length of the key's working record. -/
structure KeyEnt where
  key : Key
  runStart : Nat
  runLen : Nat
  owner : Nat
  ownerStove : Nat
  relayed : Bool
  rank0 : Nat
  keyStove : Nat
  rowOff : Nat
  wrec : Nat
  got : Bool
  redirected : Bool
deriving DecidableEq, Repr

/-- An occurrence kept by a lookup, in sorted order (R169): sample, feature, weight and position. -/
structure Occ where
  sample : Nat
  feature : Nat
  weight : W16
  pos : Nat
  key : Key
deriving DecidableEq, Repr

/-- A lookup in flight (R166 to R169), with its features and the output of each. -/
structure LookupF where
  recv : View
  outs : List (Feat × View)
  step : Nat
  pass : Nat
  epoch : Nat
  firstP : Nat
  firstSample : Nat
  samples : Nat
  keys : List KeyEnt
  occs : List Occ
deriving DecidableEq, Repr

/-- A gradient pass in flight (R170, R171), with its features and the gradient of each. -/
structure GradF where
  recv : View
  ins : List (Feat × View)
deriving DecidableEq, Repr

/-- A collective in flight (R295 to R297): its number, its views, the parts received, by member position. -/
structure CollF where
  op : Nat
  cseq : Nat
  slot : Nat
  step : Nat
  a : View
  b : View
  peer : Nat
  remote : Nat
  count : Nat
  parts : List (Nat × List Byte)
  nodes : List (Nat × Nat × Nat × List Byte)
deriving DecidableEq, Repr

/-- A HATOM that waits for its ordinal, for its application or for its pages (R153, R155): its operation, window and
ordinal, the target view or word address, the source values, the window offset that receives the old word, and the words
of CAS32. -/
structure AtomF where
  op : Nat
  win : Nat
  ordinal : Nat
  target : View
  va : Nat
  vals : List ℚ
  dest : Option Nat
  cmp : W32
  swap : W32
deriving DecidableEq, Repr

/-- What an instruction in flight still has to do before it may complete. `plain`: nothing; `vec` and `row`: nothing, on a
vector engine, or on a row engine with the stats handle it names. -/
inductive Body where
  | plain
  | vec (engine : Nat)
  | row (engine : Nat) (handle : Option Nat) (recs : List (Nat × W64)) (reset : Bool)
  | product (p : Product)
  | fill (lift chair : Nat) (src dst : View)
  | lookup (l : LookupF)
  | grad (g : GradF)
  | coll (c : CollF)
  | atom (a : AtomF)
  | piste (slot index : Nat)
deriving DecidableEq, Repr

/-- An instruction in flight (R86, R88, R95): where it came from, its post, the lift chairs it reads, the window lines
it has claimed, its body, and the bytes that it writes, by module address, when its last output becomes readable. -/
structure Flight where
  id : Nat
  st : Nat
  sq : Nat
  ctx : Nat
  opcode : Nat
  pc : Nat
  epoch : Nat
  post : Option Nat
  chairs : List (Nat × Nat)
  lines : List Nat
  body : Body
  writes : List (Nat × Byte) := []
deriving DecidableEq, Repr

/-- Sequencers by stove × 64 + n, slots by stove × 32 + s, gates by stove, program stores by stove × 2^24 + byte offset,
instructions in flight, issue numbers by stove, and the markers waiting in unit queues (context, value, source). -/
structure SeqSt where
  seqs : Tab Seq
  slots : Tab PSlot
  gates : Tab Gate
  store : Tab Byte
  flights : List Flight
  issueNo : Tab Nat
  nextId : Nat
  markers : List (Nat × W32 × Nat × Nat)
deriving DecidableEq, Repr

/-- A hardware lift (R108 to R115): chair states coded as R109, with the readers of each. -/
structure Lift where
  head : Nat := 0
  tail : Nat := 0
  chairs : List Nat := []
  readers : List Nat := []
  fills : Nat := 0
  errFills : Nat := 0
deriving DecidableEq, Repr

/-- The ready-epoch tag of a 256-byte line (R95). -/
structure Tag where
  pending : Bool := false
  epoch : Nat := 0
deriving DecidableEq, Repr

/-- Scratchpad (R101 to R118): lifts by stove × 128 + k, tags by stove × 2^22 + physical line, uncorrectable errors and
marks by stove × 384 + granule (`granKin` those that kindling retired). Its bytes stand in `mem` at their module addresses; after a module reset, a byte that
nothing has written since is the free value that `seed` and its address give, and `seed` 0 says that none has come. -/
structure SpdSt where
  lifts : Tab Lift
  tags : Tab Tag
  granUe : Tab Nat
  granPend : List Nat
  granRet : List Nat
  granKin : List Nat
  scrubPos : Tab Nat
  seed : Nat
deriving DecidableEq, Repr

/-- What an array executes: the flight, the unit, and the beat within the unit (R50). -/
structure Run where
  fid : Nat
  unit : Nat
  beat : Nat
deriving DecidableEq, Repr

/-- A stationary tile as the weight chain loads it (R47, R54): the flight, unit and task it is for, its first lane and reduction
position, its positions per lane, and, lane by lane, the stored codes and the scales of the scale lane. -/
structure StatTile where
  fid : Nat
  unit : Nat
  task : Nat
  lane0 : Nat
  pos0 : Nat
  len : Nat
  codes : List Nat
  scales : List Nat
deriving DecidableEq, Repr

/-- The streamed rows of a beat as the replay buffer holds them (R63): the first row and reduction position, the positions per row,
and, row by row, the stored codes and the scales. -/
structure StreamTile where
  row0 : Nat := 0
  pos0 : Nat := 0
  len : Nat := 1
  codes : List Nat := []
  scales : List Nat := []
deriving DecidableEq, Repr

/-- An array (R47, R63 to R67): its two stationary registers and the streamed rows in its replay buffer, beside its health and the
beat it runs. -/
structure Arr where
  mism : Nat := 0
  retired : Bool := false
  pending : Bool := false
  retKindling : Bool := false
  run : Option Run := none
  active : Option StatTile := none
  shadow : Option StatTile := none
  stream : StreamTile := {}
deriving DecidableEq, Repr

/-- A failed beat that waits for a substitute (R63): the arrays it has failed on, the stationary tile and the streamed rows that its
replay buffer holds, how many of its rows the drain has written, what its inputs yield (the accumulators of its unit and range events),
and the failed check of its last record (R67). -/
structure FailedBeat where
  st : Nat
  run : Run
  arrays : List Nat
  tile : StatTile
  stream : StreamTile
  written : Nat
  w3 : W32
  acc : Tab W16
  sat : Nat
  flush : Nat
deriving DecidableEq, Repr

/-- Arrays by stove × 48 + a, and the failed beats. -/
structure ArrSt where
  arrays : Tab Arr
  failed : List FailedBeat
deriving DecidableEq, Repr

/-- A stats handle (R128). -/
structure Handle where
  valid : Bool := false
  kind : Nat := 0
  engine : Nat := 0
  ctx : Nat := 0
  base : Nat := 0
  rows : Nat := 0
deriving DecidableEq, Repr

/-- Row engines: handles by stove × 4,096 + h, records by (stove × 4,096 + h) × 65,536 + row. -/
structure RowSt where
  handles : Tab Handle
  recs : Tab W64
deriving DecidableEq, Repr

/-- An addition on its way to the element's home hearth (R147). -/
structure RbAdd where
  slot : Nat
  elem : Nat
  logical : Nat
  tid : Nat
  value : W16
  ctx : Nat
  pass : Nat
  fid : Nat
deriving DecidableEq, Repr

/-- A close of a pass: its context, pass, semaphore and sequencer (R146). -/
structure RbClose where
  ctx : Nat
  pass : Nat
  sem : Nat
  sq : Nat
deriving DecidableEq, Repr

/-- An atomic window (R154): the range it was bound to, and its ordinal count. -/
structure AWin where
  bound : Bool := false
  count : Nat := 0
  ctx : Nat := 0
  va : Nat := 0
  len : Nat := 0
deriving DecidableEq, Repr

/-- A reduction buffer slot, module-wide (R145 to R148): closes counted, and closes whose additions are under way. -/
structure Rb where
  gen : Nat := 0
  pass : Nat := 0
  coll : Bool := false
  allClosed : Bool := false
  walking : List Nat := []
  closed : List RbClose := []
  waitClose : List RbClose := []
deriving DecidableEq, Repr

/-- The tags of a line of a reduction buffer (R145): generation, pass and touch mask. -/
structure RbTag where
  gen : Nat := 0
  pass : Nat := 0
  mask : Nat := 0
deriving DecidableEq, Repr

/-- A line that a hearth caches (R139, R142): its module address over 128, the partition whose way holds it (kind and owner, R141),
and whether it is newer than HBM. Its bytes stand in `mem`, once. -/
structure HLine where
  line : Nat
  kind : Nat
  owner : Nat
  dirty : Bool
deriving DecidableEq, Repr

/-- An entry of a stove's translation cache (R232): the stove, the address space, the page, and the accesses counted in it. -/
structure Tlb where
  st : Nat
  space : Nat
  page : Nat
  count : Nat
deriving DecidableEq, Repr

/-- Caches of memory: the lines in the hearths, least recently used first; the chain lines that a context's weight ways lost
before the last task that needs them had them (context, line) (R55); the hearth's access counters by stove × 8 + k (0 read hits, 1
read misses, 2 misses merged, 3 weight-way hits, 4 re-fetches, 5 lines written back); the requests that each HBM controller has
served, by (stove × 5 + stack) × 4 + class (R236); and the translation caches, least recently used first. -/
structure CacheSt where
  lines : List HLine
  evicted : List (Nat × Nat)
  counts : Tab Nat
  served : Tab Nat
  tlb : List Tlb
  tops : List (Nat × Nat)
deriving DecidableEq, Repr

/-- Hearths: reduction buffers by slot, the elements of their resident lines by slot × 2^30 + e, the tags of these lines by
(slot × 4 + stove) × 2^24 + L, each context's pass number by slot × 4,096 + context, additions under way, atomic windows by
stove × 16 + w, ways by stove × 16 + w (kind, owner), the ways whose lines a re-binding moves (R149), and the 128-byte lines of
memory marked lost (R143). Spilled lines and their tags lie in memory (R144). -/
structure HthSt where
  rbs : Tab Rb
  elems : Tab W16
  tags : Tab RbTag
  cpass : Tab Nat
  adds : List RbAdd
  windows : Tab AWin
  ways : Tab (Nat × Nat)
  moving : List Nat
  lost : List Nat
deriving DecidableEq, Repr

/-- A hopper ring (R163, R164). `doing` is the announcement being cut: its 64 bytes and the occurrences already written. -/
structure Hop where
  head : Nat := 0
  tag : Nat := 0
  gen : Nat := 0
  tail : Nat := 0
  tries : Nat := 0
  fetching : Bool := false
  doing : Option (List Byte × Nat) := none
deriving DecidableEq, Repr

/-- Coverage and runs (key, run length, place in the record's key table) that a lookup sends to a key stove, and whether
the key stove has answered with their rank offsets (R166, R171). -/
structure Cover where
  st : Nat
  slot : Nat
  step : Nat
  pass : Nat
  firstP : Nat
  count : Nat
  total : Nat
  ctx : Nat
  recv : View
  runs : List (Key × Nat × Nat)
  ranked : Bool
deriving DecidableEq, Repr

/-- A fragment of a key's run (R171): node (x, l) and its elements. -/
structure Frag where
  st : Nat
  slot : Nat
  pass : Nat
  key : Key
  x : Nat
  level : Nat
  owner : Nat
  ownerStove : Nat
  elems : List W16
  fid : Nat
deriving DecidableEq, Repr

/-- A lookup request held until commit (R187), with what its reads of the record and of the master will meet. -/
structure HeldReq where
  st : Nat
  hdr : MsgHdr
  key : Key
  epoch : Nat
  reqStove : Nat
  ecc : Ecc
  mecc : Ecc
deriving DecidableEq, Repr

/-- A merge record (R172), with its generation and its place in the merge area. -/
structure MRec where
  st : Nat
  slot : Nat
  key : Key
  source : Nat
  pass : Nat
  occ : Nat
  elems : List W16
  gen : Nat
  off : Nat
deriving DecidableEq, Repr

/-- A primary entry of the ember cache (R174, R175). -/
structure Ember where
  st : Nat
  slot : Nat
  key : Key
  freq : Nat
  order : Nat
  bytes : List Byte
deriving DecidableEq, Repr

/-- A replica (R176). -/
structure Replica where
  st : Nat
  slot : Nat
  key : Key
  epoch : Nat
  bytes : List Byte
deriving DecidableEq, Repr

/-- Embedding complexes. Rings by stove × 8 + h; committed map epochs by stove × 8 + slot; coverage and fragments in the
queue to a key stove and those it has accepted; partials sent and not yet acknowledged, by 8 × step + slot; the rows that committed
orders have relayed away, by slot (R195). -/
structure EmbSt where
  hops : Tab Hop
  epochs : Tab Nat
  covQueue : List Cover
  covers : List Cover
  fragQueue : List Frag
  frags : List Frag
  held : List HeldReq
  merge : List MRec
  embers : List Ember
  emberOrder : Nat
  sketch : Tab Nat
  replicas : List Replica
  partOut : Tab Nat
  missed : List (Nat × Nat × Key)
  away : List (Nat × Key)
deriving DecidableEq, Repr

/-- An entry of the sweep log (R219): the stove, the kind, the destination, the payload, and its place in the log. -/
structure LogEnt where
  st : Nat
  kind : Nat
  ctx : Nat
  addr : Nat
  bytes : List Byte
  off : Nat
deriving DecidableEq, Repr

/-- A damper, per stove and slot (R207, R208). `initDone` is the condition of R210. -/
structure Damper where
  s : Nat := 0
  clean : Nat := 0
  initDone : Bool := false
  override : Option Nat := none
deriving DecidableEq, Repr

/-- A row that a sweep has touched (R211, R214): where its records lie, whether in a shard array (with the array's start), and
its old and new master record. -/
structure Touch where
  st : Nat
  key : Key
  waddr : Nat
  maddr : Nat
  base : Option Nat
  old : List Byte
  new : List Byte
deriving DecidableEq, Repr

/-- A comparison of a shard's digest, or of a relayed row's hash, with its other holders (R216). -/
structure Cmp where
  st : Nat
  key : Key
  shard : Bool
  others : List Nat
  done : Bool
deriving DecidableEq, Repr

/-- A digest received for a comparison: who sent it, and its value. -/
structure Dig where
  st : Nat
  key : Key
  shard : Bool
  src : Nat
  value : Nat
deriving DecidableEq, Repr

/-- The module's place in a job's step (R9, R17, R198, R220). `phase`: 0 passes, 1 merge and apply, 2 vote, 3 install. `vstate`
is COL_JOB_b_VSTATE. Contributions and votes name their member; contributions name their step too. `listCheck` is the first
failing check of the migration list, 0 for none; `orders` the orders as read with the contribution; `shipOut` the shipments not
yet acknowledged; `dropped` says that the list is not carried out; `begun` that the engines have taken the slot up, `shipped` that its
orders' shipments have left; `logFull` the stoves whose log could not take an entry. -/
structure Job where
  inStep : Bool := false
  step : Nat := 0
  passes : Nat := 0
  taint : Bool := false
  heldTaint : Bool := false
  stepEnd : Bool := false
  vstate : Nat := 0
  abortSeen : Bool := false
  sent : Bool := false
  contrib : List (Nat × Nat × Contribution) := []
  listDigest : Nat := 0
  listCheck : Nat := 0
  orders : List (List Byte) := []
  phase : Nat := 0
  fault : Bool := false
  overflow : Bool := false
  faultCode : Nat := 0
  dropped : Bool := false
  begun : Bool := false
  lineErrs : List (Nat × Ecc) := []
  touched : List Touch := []
  applied : Bool := false
  shipped : Bool := false
  newDense : Nat := 0
  log : List LogEnt := []
  logFull : List Nat := []
  ships : List (Nat × Shipment) := []
  shipOut : Nat := 0
  cmps : List Cmp := []
  digests : List Dig := []
  joined : Bool := false
  votes : List (Nat × Bool × Bool) := []
  outcome : Nat := 0
deriving DecidableEq, Repr

/-- A suspect shard (R218). -/
structure Suspect where
  slot : Nat
  table : Nat
  shard : Nat
deriving DecidableEq, Repr

/-- A master record asked of another holder (R215): the holders not asked yet, whether a sweep waits for it, and the holders that a row
which waits to be shipped goes to (R193). -/
structure Repair where
  id : Nat
  st : Nat
  slot : Nat
  key : Key
  waddr : Nat
  maddr : Nat
  left : List (Nat × Nat)
  sweep : Bool
  ship : List (Nat × Nat)
deriving DecidableEq, Repr

/-- Data that a sweep has asked another module for (R216, R217, R222, R241). `kind`: 0 a shard's block fingerprints, 1 the
records of a shard's block, 2 a relayed row's record, 3 the dense fingerprints of an entry, 4 a dense block, 5 a row's committed
record, 6 a dense block in place of an uncorrectable one, 7 and 8 the records of differing blocks and of a relayed row of which two
holders differ. `index` is the shard's block or the dense entry, `block` the dense block, `blocks` the differing blocks, `left` the
modules not asked yet. -/
structure Fix where
  id : Nat
  slot : Nat
  st : Nat
  kind : Nat
  key : Key
  index : Nat
  block : Nat
  peer : Nat
  left : List Nat
  blocks : List Nat
deriving DecidableEq, Repr

/-- A slot that waits for the engines (R198): its step is swept, with what the reads will meet, or skipped with an outcome. -/
structure SwpWait where
  slot : Nat
  skip : Option Nat
  err : SweepErr
  unit : List (Nat × Ecc)
deriving DecidableEq, Repr

/-- Sweep engines: jobs by slot, dampers by stove × 8 + slot, suspect shards by stove × 16 + n, range counters of the
current and the previous bank, the module's dense digest of the previous commit by slot, the elements swept by stove, the
repairs and requests under way, the slots that wait for the engines, and by stove the slot, counted from 1, after whose commit an audit
still runs. -/
structure SwpSt where
  jobs : Tab Job
  dampers : Tab Damper
  suspects : Tab (Option Suspect)
  rcCur : Tab Nat
  rcPrev : Tab Nat
  denseDigest : Tab Nat
  elems : Tab Nat
  repairs : List Repair
  fixes : List Fix
  queue : List SwpWait
  auditing : Tab Nat
deriving DecidableEq, Repr

/-- A page table entry (R231). `pins` counts what holds the page in place (R144, R154, R219). -/
structure Pte where
  valid : Bool := false
  write : Bool := false
  cold : Bool := false
  host : Bool := false
  hint : Nat := 0
  stove : Nat := 0
  moving : Bool := false
  badLine : Bool := false
  frame : Nat := 0
  count : Nat := 0
  pins : Nat := 0
deriving DecidableEq, Repr

/-- A write that waits for the end of a page move (R235): page key, byte within the page, value, and the instruction it is of. -/
structure HeldWrite where
  page : Nat
  off : Nat
  byte : Byte
  fid : Nat
deriving DecidableEq, Repr

/-- A page move in flight (R235): the page, the target frame, its tier, and who asked. -/
structure Move where
  page : Nat
  toCold : Bool
  frame : Nat
  st : Nat
deriving DecidableEq, Repr

/-- Memory tiers: pseudo-channels mapped out or failed by stove × 160 + p, packages by number, failures counted, stacks
at the fallback rate, the host partition in 16 GiB units, page table entries by owner × 2^27 + page, second-level
tables, moves and the writes that wait for them, the units of memory (sectors of 32 bytes in HBM, of 64 in the cold tier, by module
address) whose stored word is uncorrectable (R228, R230, R241), broken address spaces, stall counters, the sectors each patrol scrubber has read,
and the draw that the undefined contents of HBM and cold tier are from until kindling writes them (0: none; R308). -/
structure TierSt where
  pcOut : List Nat
  pcFail : List Nat
  pcTmo : Tab Nat
  pkgOut : List Nat
  pkgFail : List Nat
  pkgTmo : Tab Nat
  fallback : List Nat
  hostUnits : Nat
  ptes : Tab Pte
  tables : Tab Nat
  moves : List Move
  waiting : List HeldWrite
  bad : List Nat
  broken : List Nat
  stalls : Tab Nat
  scrub : Tab Nat
  seed : Nat
deriving DecidableEq, Repr

/-- A descriptor ring (R266 to R273). `cur` is the accepted descriptor; `cpl` its completion record once written. -/
structure Ring where
  enable : Bool := false
  size : Nat := 0
  base : Nat := 0
  cplBase : Nat := 0
  msg : W32 := 0
  tgt : Nat := 0
  head : Nat := 0
  gen : Nat := 0
  tag : Nat := 0
  tail : Nat := 0
  fetching : Bool := false
  staleWait : Bool := false
  tries : Nat := 0
  cur : Option (List Byte) := none
  curIndex : Nat := 0
  cplIrq : Option Bool := none
  closing : Bool := false
deriving DecidableEq, Repr

/-- A flash command waiting in a mailbox (R274). -/
structure FlashCmd where
  bytes : List Byte
deriving DecidableEq, Repr

/-- Host coupling: rings by context, mailboxes by stove, the flash command each stop-now belongs to, UCIe module states by
(die × 16 + link) × 16 + module (0 down, 1 up, 2 repaired, 3 retraining), by the same the tries of a flit that have failed in a row, and
the peers' accesses that the host die has answered with an Unsupported Request, by port and address, and the doorbells ignored by
stove (R272). -/
structure UciSt where
  rings : Tab Ring
  flash : Tab (List FlashCmd)
  stops : List (Nat × List Byte)
  mods : Tab Nat
  tries : Tab Nat
  refused : List (Nat × Nat)
  ignored : Tab Nat
deriving DecidableEq, Repr

/-- A data flit to be sent: its header, its payload bytes, the job slot of its message, and for one in transit the port and the VC by
which it came in, in whose receive buffer it stands until it is sent (R285 to R287), and the header of its message. -/
structure Flit where
  hdr : FlitHdr
  data : List Byte
  slot : Option Nat
  from_ : Option (Nat × Nat)
  head : List Byte
deriving DecidableEq, Repr

/-- A port (R282 to R287): its state as FAB_STATUS, its partner, the link sequence numbers, the retry buffer; the flits that wait for a
credit or for room in the retry buffer, the flits sent in each VC whose credits are not back, the credits of each VC that are to be
returned, the port and VC by which a message that comes in by a VC goes on, with its header, and the message that is being sent in a VC: the port and VC
it came by, none for one of the module's own. -/
structure Port where
  state : Nat := 0
  partner : Option Partner := none
  txSeq : Nat := 0
  rxSeq : Nat := 0
  retry : List Flit := []
  resends : Nat := 0
  queue : List Flit := []
  used : Tab Nat := []
  owed : Tab Nat := []
  ways : List (Nat × Nat × Nat × List Byte) := []
  going : List (Nat × Option (Nat × Nat)) := []
deriving DecidableEq, Repr

/-- A name-table entry (R291). -/
structure NameEnt where
  valid : Bool := false
  rink : Nat := 0
  seat : Nat := 0
deriving DecidableEq, Repr

/-- A seat-table entry: state 0 absent, 1 spare, 2 active, 3 draining, 4 lost (R291, R306). -/
structure SeatEnt where
  state : Nat := 0
  lid : Nat := 0
deriving DecidableEq, Repr

/-- A collective job slot (R294, R301). -/
structure ColJob where
  cseq : Nat := 0
  active : Option Nat := none
  switching : Option Nat := none
  pistes : List (Nat × List Byte) := []
deriving DecidableEq, Repr

/-- A message that the module sends (R288): the job slot it belongs to, its TYPE, header, type-specific words and payload. -/
structure FabMsg where
  slot : Option Nat
  type : Nat
  hdr : MsgHdr
  args : List Nat
  data : List Byte
deriving DecidableEq, Repr

/-- The route of a message: destination position, shape, via position, and the module port it leaves by (R288, R289). -/
structure Route where
  rink : Nat
  seat : Nat
  shape : Nat
  viaRink : Nat
  viaSeat : Nat
  port : Nat
deriving DecidableEq, Repr

/-- Collective data that has arrived before the collective it belongs to was issued here: the slot, the sender, and what the
message says (R296). -/
structure CMsg where
  slot : Nat
  src : Nat
  cseq : Nat
  step : Nat
  op : Nat
  count : Nat
  chunk : Nat
  level : Nat
  node : Nat
  bytes : List Byte
deriving DecidableEq, Repr

/-- Fabric: ports, name table and its version, seat table, links known down by r × 256 + r′, collective job slots, the
stand-in directive in progress, messages held at their source, collective data that came early, the job slots that no stand-in directive
has resumed (R302), the messages discarded for want of a route (R290). -/
structure FabSt where
  ports : Tab Port
  names : Tab NameEnt
  ntVersion : Nat
  seats : Tab SeatEnt
  linkDown : List Nat
  jobs : Tab ColJob
  lid : Option Nat
  standin : Nat
  waiting : List Nat
  standinCmd : List Byte
  conflict : Bool
  held : List FabMsg
  early : List CMsg
  parked : List Nat
  discarded : Nat
deriving DecidableEq, Repr

/-- A journal record (R329, R331): its fields as numbers, or the text of an OPERATOR record. -/
structure JRec where
  seq : Nat
  type : Nat
  fields : List Nat
  text : List Byte
deriving DecidableEq, Repr

/-- The memory of an instance of a kindling step (R315): 0 none, 1 passed, 2 failed, 3 begun; method and detail. -/
structure InstMem where
  outcome : Nat := 0
  method : Nat := 0
  detail : Nat := 0
deriving DecidableEq, Repr

/-- A firmware copy in flash and where in its slot its manifest stands (R318 to R320). A recovery bundle is the bytes of its region from
the directory on, with no manifest of its own. -/
structure Image where
  manifest : List Byte := []
  image : List Byte := []
  off : Nat := 0
deriving DecidableEq, Repr

/-- What the journal tells a kindling (R315, R317, R328 to R331): boots and kindlings without hand-off, the memory of
instances, active copies with their activation numbers, pending updates, configuration, remote-reset key and counter, parts mapped
out, and the records themselves with the half that holds them, and the half's 64-byte header. -/
structure Keep where
  bootCount : Nat
  fails : Nat
  mem : Tab InstMem
  active : Tab Nat
  actSeq : Tab Nat
  nextAct : Nat
  pendingImg : List Nat
  hostUnits : Nat
  rrstKey : List Byte
  rrstCounter : Nat
  pcKeep : List Nat
  journal : List JRec
  half : Nat
  generation : Nat
  used : Nat
  header : List Byte
deriving DecidableEq, Repr

/-- The kindler (R307 to R334) and the module's power input (R350 to R360). `state` is KDL_STATUS.STATE; `tried` the
copies that step 7 has tried in this kindling; `jr` what the journal's active half holds, `older` what the other
half still holds while it is being erased; `flashed` what the active half says while records wait in the buffer; `running` the copy of
each type that runs: 0 slot A, 1 slot B, 2 and 3 the recovery bundle of device 0 and 1; `measured` the manifests of the running images
that step 16 has measured; `late` the dies whose last reset is that of one block (R307); `sensed` that the fuses have been sensed since
power-on; `bus` that the power bus lies within the lockout limits, as far as events tell. -/
structure KdlSt where
  state : Nat
  hard : Bool
  step : Nat
  inst : Nat
  method : Nat
  released : Nat
  cause : Nat
  sub : Nat
  expired : Nat
  untested : Nat
  degraded : Bool
  serviceOnly : Bool
  tripHold : Bool
  tripSeen : Bool
  noPosition : Bool
  rink : Nat
  seat : Nat
  trips : List Nat
  diesOff : Bool
  torn : Nat
  jr : Keep
  older : Option Keep
  flashed : Option Keep
  images : Tab Image
  tried : List (Nat × Nat)
  running : Tab Nat
  svn : Tab Nat
  revoked : List Nat
  rrstDropped : Nat
  buffered : List JRec
  jnlSeq : Nat
  erasing : Bool
  portsDown : List Nat
  pre : Bool
  present : Bool
  mainSwitch : Bool
  vsb : Bool
  inputGood : Bool
  bus : Bool
  sensed : Bool
  late : List Nat
  measured : List (Nat × List Byte)
deriving DecidableEq, Repr

/-- What the module sends: an interrupt message, a fabric message with its route (none to itself), a request that its own
chimney returns UNREACHABLE, a name-table or seat message on a port (R292, R303), a flit, its identity in the training of a port
(R282), a write or error answer to a peer, a peer's access forwarded to the other root port, an SPDM response, a completion to the host, the word that a register read returns to an agent class. -/
inductive Out where
  | irq (addr : Nat) (data : W32)
  | fabric (m : FabMsg) (r : Option Route)
  | returned (m : FabMsg)
  | service (port type : Nat) (args : List Nat)
  | flit (port : Nat) (h : FlitHdr) (data : List Byte) (crc : Nat)
  | ident (port rink seat : Nat)
  | peer (port : Nat) (ok : Bool) (data : List Byte)
  | across (port addr : Nat) (write : Bool) (data : List Byte)
  | host (ok : Bool) (data : List Byte)
  | spdm (code : Nat) (data : List Byte)
  | mgmt (data : List Byte)
  | regRead (cls : Nat) (value : W32)
deriving DecidableEq, Repr

/-- The state of the module, the queue of waiting commands, what it has sent (latest first), and the model's own counter
that supplies free values. -/
structure State where
  pg : PageSt
  mem : Tab Byte
  cx : CtxSt
  sq : SeqSt
  sp : SpdSt
  ar : ArrSt
  rw : RowSt
  ht : HthSt
  ca : CacheSt
  em : EmbSt
  sw : SwpSt
  tr : TierSt
  uc : UciSt
  fb : FabSt
  kd : KdlSt
  out : List Out
  pending : List Instr
  free : Nat
deriving DecidableEq, Repr

/-- Why a command stops the machine. -/
inductive Fault where
  /-- Raised by nothing: every command of this block has a next state. Safe. -/
  | none
deriving DecidableEq, Repr

/-- Why a command has no meaning. -/
inductive Refusal where
  /-- Raised by an arm of exec that has no meaning yet. Safe: the run stops. -/
  | notModelled (mnemonic : String)
deriving DecidableEq, Repr

/-- Register pages right after reset: headers and words at their Reset values, which the tables hold. -/
def PageSt.reset : PageSt := { hdr := [], regs := [], latch := [] }

/-- No context, every stove Lit (R246, R254, R308). -/
def CtxSt.reset : CtxSt := { ctxs := [], stoker := [], cold := false, nextAge := 0 }

/-- Every sequencer idle, every half EMPTY (R100). -/
def SeqSt.reset : SeqSt :=
  { seqs := [], slots := [], gates := [], store := [], flights := [], issueNo := [], nextId := 0, markers := [] }

/-- No lift enabled, no granule retired (R118). -/
def SpdSt.reset : SpdSt :=
  { lifts := [], tags := [], granUe := [], granPend := [], granRet := [], granKin := [], scrubPos := [], seed := 0 }

/-- Every array in service (R67). -/
def ArrSt.reset : ArrSt := { arrays := [], failed := [] }

/-- No valid stats handle (R138). -/
def RowSt.reset : RowSt := { handles := [], recs := [] }

/-- Every buffer disabled, every window unbound, every way general (R157). -/
def HthSt.reset : HthSt :=
  { rbs := [], elems := [], tags := [], cpass := [], adds := [], windows := [], ways := [], moving := [], lost := [] }

/-- Every hearth and translation cache empty, every counter zero (R140, R157, R242). -/
def CacheSt.reset : CacheSt := { lines := [], evicted := [], counts := [], served := [], tlb := [], tops := [] }

/-- No ring or slot enabled, ember cache and sketch empty (R179). -/
def EmbSt.reset : EmbSt :=
  { hops := [], epochs := [], covQueue := [], covers := [], fragQueue := [], frags := [], held := [], merge := [],
    embers := [], emberOrder := 0, sketch := [], replicas := [], partOut := [], missed := [], away := [] }

/-- No slot enabled, no suspect, counters zero (R224). -/
def SwpSt.reset : SwpSt :=
  { jobs := [], dampers := [], suspects := [], rcCur := [], rcPrev := [], denseDigest := [], elems := [], repairs := [],
    fixes := [], queue := [], auditing := [] }

/-- Every pseudo-channel and package in service, the default host partition, nothing mapped (R3, R227, R229). -/
def TierSt.reset : TierSt :=
  { pcOut := [], pcFail := [], pcTmo := [], pkgOut := [], pkgFail := [], pkgTmo := [], fallback := [], hostUnits := 8,
    ptes := [], tables := [], moves := [], waiting := [], bad := [], broken := [], stalls := [], scrub := [], seed := 0 }

/-- No ring enabled, mailboxes empty, every UCIe module up (R279). -/
def UciSt.reset : UciSt := { rings := [], flash := [], stops := [], mods := [], tries := [], refused := [], ignored := [] }

/-- Every port down, name and seat tables empty, no logical ID (R305, R306, R308). -/
def FabSt.reset : FabSt :=
  { ports := [], names := [], ntVersion := 0, seats := [], linkDown := [], jobs := [], lid := none, standin := 0,
    waiting := [], standinCmd := [], conflict := false, held := [], early := [], parked := [],
    discarded := 0 }

/-- The 64-byte header of a half: MAGIC, GENERATION, COMMIT at offset 63 (R330). -/
def halfHeader (generation : Nat) : List Byte :=
  [0x4E, 0x59, 0x4D, 0x4A] ++ (List.range 4).map (fun k => BitVec.ofNat 8 (generation / 2 ^ (8 * k))) ++ List.replicate 56 0
/-- A new empty journal (R330). -/
def Keep.empty : Keep :=
  { bootCount := 0, fails := 0, mem := [], active := [], actSeq := [], nextAct := 1, pendingImg := [], hostUnits := 8,
    rrstKey := List.replicate 64 0, rrstCounter := 0, pcKeep := [], journal := [], half := 0, generation := 1, used := 64,
    header := halfHeader 1 }

/-- The kindler right after a power-on reset: kindling, at no step yet, cause 1, its journal empty, every image of slot A
active (R307, R314, R333). -/
def KdlSt.reset : KdlSt :=
  { state := 0, hard := false, step := 0, inst := 0, method := 0, released := 0, cause := 1, sub := 0, expired := 0,
    untested := 0, degraded := false, serviceOnly := false, tripHold := false,
    tripSeen := false, noPosition := false, rink := 0, seat := 0, trips := [], diesOff := false, torn := 0, jr := Keep.empty,
    older := none, flashed := none, images := [], tried := [], running := [], svn := [], revoked := [], rrstDropped := 0, buffered := [],
    jnlSeq := 0, erasing := false, portsDown := [], pre := true, present := true, mainSwitch := true, vsb := true,
    inputGood := true, bus := true, sensed := false, late := [], measured := [] }

/-- The module right after a power-on reset, with nothing commanded (R307, R308). -/
def State.reset : State :=
  { pg := PageSt.reset, mem := [], cx := CtxSt.reset, sq := SeqSt.reset, sp := SpdSt.reset, ar := ArrSt.reset,
    rw := RowSt.reset, ht := HthSt.reset, ca := CacheSt.reset, em := EmbSt.reset, sw := SwpSt.reset, tr := TierSt.reset, uc := UciSt.reset,
    fb := FabSt.reset, kd := KdlSt.reset, out := [], pending := [], free := 0 }

end Sys2Proof.Machine
end

