-- ==== Sys2Proof/Machine/Ops.lean ====
section
/-! DEFINITION. The named operations over the state: parts by number, register words, page headers, events and error
records, interrupts, and memory by module address. Every meaning is written over these. -/

namespace Sys2Proof

/-- Is the kindler, the runtime or a service context writing (R336)? -/
def Agent.trusted : Agent → Bool
  | .runtime | .service _ | .kindler => true
  | _ => false

/-- Service contexts and the kindler only (R67, R339, R341). -/
def Agent.priv : Agent → Bool
  | .service _ | .kindler => true
  | _ => false

/-- The class under which a _LO read latches (R347); other agents reach no page. -/
def Agent.cls : Agent → Nat
  | .runtime => 0
  | .service _ => 1
  | .kindler => 2
  | .mgmt => 3
  | .other _ => 4

end Sys2Proof

namespace Sys2Proof.Machine

/-- The outcome of a command that has a next state. -/
abbrev Res := Host.Outcome State Fault Refusal

-- Parts by number

/-- The context of an ID. -/
def State.ctx (s : State) (c : Nat) : Ctx := tabGet (fun _ => {}) s.cx.ctxs c
/-- Replaces a context. -/
def State.setCtx (s : State) (c : Nat) (v : Ctx) : State :=
  { s with cx := { s.cx with ctxs := tabSet (fun _ => {}) s.cx.ctxs c v } }
/-- Changes a context. -/
def State.modCtx (s : State) (c : Nat) (f : Ctx → Ctx) : State := s.setCtx c (f (s.ctx c))
/-- A stove's stoker. -/
def State.stk (s : State) (st : Nat) : Stoker := tabGet (fun _ => {}) s.cx.stoker st
/-- Replaces a stoker. -/
def State.setStk (s : State) (st : Nat) (v : Stoker) : State :=
  { s with cx := { s.cx with stoker := tabSet (fun _ => {}) s.cx.stoker st v } }
/-- Is a stove Lit (R254)? -/
def State.lit (s : State) (st : Nat) : Bool := (s.stk st).power == 0
/-- Work arrives at a stove that is not Lit: it wakes (R255). -/
def State.wakeStove (s : State) (st : Nat) : State :=
  if s.lit st ∨ (s.stk st).waking then s else s.setStk st { s.stk st with waking := true }
/-- Sequencer n of a stove. -/
def State.seq (s : State) (st n : Nat) : Seq := tabGet (fun _ => {}) s.sq.seqs (64 * st + n)
/-- Replaces a sequencer. -/
def State.setSeq (s : State) (st n : Nat) (v : Seq) : State :=
  { s with sq := { s.sq with seqs := tabSet (fun _ => {}) s.sq.seqs (64 * st + n) v } }
/-- Changes a sequencer. -/
def State.modSeq (s : State) (st n : Nat) (f : Seq → Seq) : State := s.setSeq st n (f (s.seq st n))
/-- Program slot k of a stove. -/
def State.slot (s : State) (st k : Nat) : PSlot := tabGet (fun _ => {}) s.sq.slots (32 * st + k)
/-- Replaces a program slot. -/
def State.setSlot (s : State) (st k : Nat) (v : PSlot) : State :=
  { s with sq := { s.sq with slots := tabSet (fun _ => {}) s.sq.slots (32 * st + k) v } }
/-- The gate of a stove. -/
def State.gate (s : State) (st : Nat) : Gate := tabGet (fun _ => {}) s.sq.gates st
/-- Replaces a gate. -/
def State.setGate (s : State) (st : Nat) (v : Gate) : State :=
  { s with sq := { s.sq with gates := tabSet (fun _ => {}) s.sq.gates st v } }
/-- The flights. -/
def State.setFlights (s : State) (l : List Flight) : State := { s with sq := { s.sq with flights := l } }
/-- The flight of an ID. -/
def State.flight (s : State) (id : Nat) : Option Flight := s.sq.flights.find? (fun f => f.id == id)
/-- Replaces the flight that bears the same ID. -/
def State.putFlight (s : State) (f : Flight) : State :=
  s.setFlights (s.sq.flights.map fun g => if g.id = f.id then f else g)
/-- Removes a flight. -/
def State.dropFlight (s : State) (id : Nat) : State := s.setFlights (s.sq.flights.filter fun g => g.id != id)
/-- Hardware lift k of a stove. -/
def State.lift (s : State) (st k : Nat) : Lift := tabGet (fun _ => {}) s.sp.lifts (128 * st + k)
/-- Replaces a lift. -/
def State.setLift (s : State) (st k : Nat) (v : Lift) : State :=
  { s with sp := { s.sp with lifts := tabSet (fun _ => {}) s.sp.lifts (128 * st + k) v } }
/-- Array a of a stove. -/
def State.arr (s : State) (st a : Nat) : Arr := tabGet (fun _ => {}) s.ar.arrays (48 * st + a)
/-- Replaces an array. -/
def State.setArr (s : State) (st a : Nat) (v : Arr) : State :=
  { s with ar := { s.ar with arrays := tabSet (fun _ => {}) s.ar.arrays (48 * st + a) v } }
/-- Stats handle h of a stove. -/
def State.handle (s : State) (st h : Nat) : Handle := tabGet (fun _ => {}) s.rw.handles (4096 * st + h)
/-- Replaces a handle. -/
def State.setHandle (s : State) (st h : Nat) (v : Handle) : State :=
  { s with rw := { s.rw with handles := tabSet (fun _ => {}) s.rw.handles (4096 * st + h) v } }
/-- Reduction buffer b. -/
def State.rb (s : State) (b : Nat) : Rb := tabGet (fun _ => {}) s.ht.rbs b
/-- Replaces a reduction buffer. -/
def State.setRb (s : State) (b : Nat) (v : Rb) : State :=
  { s with ht := { s.ht with rbs := tabSet (fun _ => {}) s.ht.rbs b v } }
/-- Hopper ring h of a stove. -/
def State.hop (s : State) (st h : Nat) : Hop := tabGet (fun _ => {}) s.em.hops (8 * st + h)
/-- Replaces a hopper ring. -/
def State.setHop (s : State) (st h : Nat) (v : Hop) : State :=
  { s with em := { s.em with hops := tabSet (fun _ => {}) s.em.hops (8 * st + h) v } }
/-- The committed map epoch of a slot on a stove. -/
def State.epoch (s : State) (st b : Nat) : Nat := tabGet (fun _ => 0) s.em.epochs (8 * st + b)
/-- Sets a committed map epoch. -/
def State.setEpoch (s : State) (st b e : Nat) : State :=
  { s with em := { s.em with epochs := tabSet (fun _ => 0) s.em.epochs (8 * st + b) e } }
/-- The job of a slot. -/
def State.job (s : State) (b : Nat) : Job := tabGet (fun _ => {}) s.sw.jobs b
/-- Replaces a job. -/
def State.setJob (s : State) (b : Nat) (v : Job) : State :=
  { s with sw := { s.sw with jobs := tabSet (fun _ => {}) s.sw.jobs b v } }
/-- Changes a job. -/
def State.modJob (s : State) (b : Nat) (f : Job → Job) : State := s.setJob b (f (s.job b))
/-- The damper of a slot on a stove. -/
def State.damper (s : State) (st b : Nat) : Damper := tabGet (fun _ => {}) s.sw.dampers (8 * st + b)
/-- Replaces a damper. -/
def State.setDamper (s : State) (st b : Nat) (v : Damper) : State :=
  { s with sw := { s.sw with dampers := tabSet (fun _ => {}) s.sw.dampers (8 * st + b) v } }
/-- Suspect entry n of a stove. -/
def State.suspect (s : State) (st n : Nat) : Option Suspect := tabGet (fun _ => none) s.sw.suspects (16 * st + n)
/-- Sets a suspect entry. -/
def State.setSuspect (s : State) (st n : Nat) (v : Option Suspect) : State :=
  { s with sw := { s.sw with suspects := tabSet (fun _ => none) s.sw.suspects (16 * st + n) v } }
/-- A page table entry of an address space. -/
def State.pte (s : State) (owner page : Nat) : Pte := tabGet (fun _ => {}) s.tr.ptes (2 ^ 27 * owner + page)
/-- Sets a page table entry. -/
def State.setPte (s : State) (owner page : Nat) (v : Pte) : State :=
  { s with tr := { s.tr with ptes := tabSet (fun _ => {}) s.tr.ptes (2 ^ 27 * owner + page) v } }
/-- The descriptor ring of a context. -/
def State.ring (s : State) (c : Nat) : Ring := tabGet (fun _ => {}) s.uc.rings c
/-- Replaces a ring. -/
def State.setRing (s : State) (c : Nat) (v : Ring) : State :=
  { s with uc := { s.uc with rings := tabSet (fun _ => {}) s.uc.rings c v } }
/-- The flash mailbox of a stove. -/
def State.flash (s : State) (st : Nat) : List FlashCmd := tabGet (fun _ => []) s.uc.flash st
/-- Replaces a mailbox. -/
def State.setFlash (s : State) (st : Nat) (v : List FlashCmd) : State :=
  { s with uc := { s.uc with flash := tabSet (fun _ => []) s.uc.flash st v } }
/-- The state of a UCIe module of a link end. -/
def State.umod (s : State) (die link m : Nat) : Nat := tabGet (fun _ => 1) s.uc.mods (16 * (16 * die + link) + m)
/-- Sets a UCIe module's state. -/
def State.setUmod (s : State) (die link m v : Nat) : State :=
  { s with uc := { s.uc with mods := tabSet (fun _ => 1) s.uc.mods (16 * (16 * die + link) + m) v } }
/-- Module port p. -/
def State.port (s : State) (p : Nat) : Port := tabGet (fun _ => {}) s.fb.ports p
/-- Replaces a port. -/
def State.setPort (s : State) (p : Nat) (v : Port) : State :=
  { s with fb := { s.fb with ports := tabSet (fun _ => {}) s.fb.ports p v } }
/-- The name-table entry of a logical ID. -/
def State.name (s : State) (lid : Nat) : NameEnt := tabGet (fun _ => {}) s.fb.names lid
/-- Sets a name-table entry. -/
def State.setName (s : State) (lid : Nat) (v : NameEnt) : State :=
  { s with fb := { s.fb with names := tabSet (fun _ => {}) s.fb.names lid v } }
/-- The seat-table entry of a position. -/
def State.seatE (s : State) (i : Nat) : SeatEnt := tabGet (fun _ => {}) s.fb.seats i
/-- Sets a seat-table entry. -/
def State.setSeatE (s : State) (i : Nat) (v : SeatEnt) : State :=
  { s with fb := { s.fb with seats := tabSet (fun _ => {}) s.fb.seats i v } }
/-- A collective job slot. -/
def State.cjob (s : State) (b : Nat) : ColJob := tabGet (fun _ => {}) s.fb.jobs b
/-- Replaces a collective job slot. -/
def State.setCjob (s : State) (b : Nat) (v : ColJob) : State :=
  { s with fb := { s.fb with jobs := tabSet (fun _ => {}) s.fb.jobs b v } }
/-- What the module sends out, latest first. -/
def State.emit (s : State) (o : Out) : State := { s with out := o :: s.out }
/-- Draws the number of the next free value. -/
def State.nextFree (s : State) : State := { s with free := s.free + 1 }

-- Pages and register words

/-- Both chimneys show the same COL pages, which are held once, under die 4 (R306). -/
def canonDie (die page : Nat) : Nat := if (page = 0xE0 ∨ page = 0xE1) ∧ die = 5 then 4 else die

/-- The header of a page. -/
def State.hdr (s : State) (die page : Nat) : PageHdr :=
  tabGet (fun _ => {}) s.pg.hdr (4096 * canonDie die page + page)
/-- Replaces a page header. -/
def State.setHdr (s : State) (die page : Nat) (v : PageHdr) : State :=
  { s with pg := { s.pg with hdr := tabSet (fun _ => {}) s.pg.hdr (4096 * canonDie die page + page) v } }

/-- The storage key of a register: `r` is page × 4,096 + offset. -/
def regKey (die r : Nat) : Nat := 0x1000000 * canonDie die (r / 4096) + r

/-- The stored word of a register. -/
def State.rd (s : State) (die r : Nat) : W32 := tabGet regReset s.pg.regs (regKey die r)
/-- Stores a register word. -/
def State.wr (s : State) (die r : Nat) (v : W32) : State :=
  { s with pg := { s.pg with regs := tabSet regReset s.pg.regs (regKey die r) v } }
/-- The stored word as a number. -/
def State.rdN (s : State) (die r : Nat) : Nat := (s.rd die r).toNat
/-- Adds to a saturating 32-bit counter. -/
def State.bump (s : State) (die r n : Nat) : State := s.wr die r (w32 (satAdd 0xFFFFFFFF (s.rdN die r) n))
/-- Adds to a wrapping 32-bit counter. -/
def State.bumpWrap (s : State) (die r n : Nat) : State := s.wr die r (w32 (s.rdN die r + n))
/-- A 48-bit address held in a _LO and _HI pair. -/
def State.rdAddr (s : State) (die lo hi : Nat) : Nat := s.rdN die lo + 2 ^ 32 * fld (s.rd die hi) 15 0

/-- A block of pages of one type (R349): type code, dies, first and last page, base page of the instance. -/
structure Block where
  type : Nat
  dieLo : Nat
  dieHi : Nat
  pageLo : Nat
  pageHi : Nat
deriving DecidableEq, Repr

/-- The page directory (R349). -/
def directory : List Block := [
  ⟨0x01, 0, 3, 0x10, 0x13⟩, ⟨0x02, 0, 3, 0x20, 0x21⟩, ⟨0x03, 0, 3, 0x30, 0x34⟩, ⟨0x04, 0, 3, 0x40, 0x40⟩,
  ⟨0x05, 0, 3, 0x50, 0x50⟩, ⟨0x06, 0, 3, 0x60, 0x61⟩, ⟨0x07, 0, 3, 0x70, 0x72⟩, ⟨0x08, 0, 3, 0x80, 0x81⟩,
  ⟨0x09, 0, 3, 0x90, 0x95⟩, ⟨0x0A, 4, 5, 0xA0, 0xA0⟩, ⟨0x0B, 0, 3, 0xB0, 0xB1⟩, ⟨0x0C, 0, 3, 0xC0, 0xC3⟩,
  ⟨0x0C, 0, 3, 0xC8, 0xC9⟩, ⟨0x0C, 0, 3, 0xCC, 0xCF⟩, ⟨0x0C, 4, 5, 0xC0, 0xC2⟩, ⟨0x0C, 4, 5, 0xC9, 0xC9⟩,
  ⟨0x0C, 6, 6, 0xC0, 0xC5⟩, ⟨0x0D, 4, 5, 0xD0, 0xDF⟩, ⟨0x0E, 4, 5, 0xE0, 0xE1⟩, ⟨0x0F, 0, 6, 0xF0, 0xF0⟩,
  ⟨0x10, 7, 7, 0x100, 0x100⟩]

/-- The directory row of a page. -/
def findBlock (die page : Nat) : Option Block :=
  directory.find? fun b => decide (b.dieLo ≤ die ∧ die ≤ b.dieHi ∧ b.pageLo ≤ page ∧ page ≤ b.pageHi)

/-- Does the page exist (R348)? -/
def pageExists (die page : Nat) : Bool := (findBlock die page).isSome

/-- The type code of a page, 0 for a hole. -/
def pageType (die page : Nat) : Nat := ((findBlock die page).map Block.type).getD 0

/-- INSTANCE of a page (R349). -/
def pageInst (die page : Nat) : Nat :=
  match pageType die page with
  | 0x0A | 0x0E => die - 4
  | 0x0D => 16 * (die - 4) + (page - 0xD0)
  | 0x10 => 0
  | _ => die

/-- The pages of the block instance a page belongs to: a FAB page is a block of its own (R349). -/
def blockPages (die page : Nat) : List Nat :=
  match findBlock die page with
  | none => []
  | some b =>
    if b.type = 0x0D then [page]
    else (directory.filter fun c => c.type == b.type && c.dieLo == b.dieLo).flatMap fun c =>
      (List.range (c.pageHi + 1 - c.pageLo)).map (· + c.pageLo)

/-- Does the page raise events of its own? -/
def hasEvents (page : Nat) : Bool :=
  has [0x10, 0x20, 0x30, 0x40, 0x50, 0x60, 0x70, 0x80, 0x90, 0xA0, 0xB0, 0xC0, 0xC1, 0xC2, 0xC3, 0xC4, 0xC5, 0xC8,
    0xE0, 0xF0, 0x100] page || decide (0xD0 ≤ page ∧ page ≤ 0xDF)

/-- Does the page keep error records (R242: not the controller pages)? -/
def hasErrLog (page : Nat) : Bool := hasEvents page

/-- The number of event bits a page defines; higher bits are RSV and never set (R337). -/
def eventBits (page : Nat) : Nat :=
  match page with
  | 0x10 => 11 | 0x20 => 6 | 0x30 => 7 | 0x40 => 4 | 0x50 => 4 | 0x60 => 9 | 0x70 => 12 | 0x80 => 15 | 0x90 => 8
  | 0xA0 => 6 | 0xB0 => 10 | 0xC8 => 6 | 0xE0 => 15 | 0xF0 => 4 | 0x100 => 8
  | p => if 0xC0 ≤ p ∧ p ≤ 0xC5 then 6 else if 0xD0 ≤ p ∧ p ≤ 0xDF then 7 else 0

-- Events, interrupts and error records

/-- M = EVT_STATUS AND EVT_ENABLE, where EVT_IRQ_EN is 1 (R342). -/
def PageHdr.m (h : PageHdr) : W32 := h.evStatus &&& h.evEnable

/-- Sends a page's interrupt (R277, R342): a message through its source entry on dies 0 to 5, or PENDING where the entry
is masked. Dies 6 and 7 drive level inputs, which follow M (R343). -/
def State.sendSource (s : State) (die page : Nat) : State :=
  let c := s.rd die (Reg.UCI_SRC_p_CTRL + 8 * page)
  if bitOf c.toNat 0 then s.wr die (Reg.UCI_SRC_p_CTRL + 8 * page) (c ||| 2)
  else
    let t := fld c 7 4
    s.emit (.irq (s.rdAddr die (Reg.UCI_TGT_t_LO + 16 * t) (Reg.UCI_TGT_t_HI + 16 * t))
      (s.rd die (Reg.UCI_SRC_p_DATA + 8 * page)))
/-- The interrupt of a page. The COL pages, which both chimneys show, have a source entry on either (R306, R342). -/
def State.sendIrq (s : State) (die page : Nat) : State :=
  if die ≥ 6 then s
  else if page = 0xE0 then (s.sendSource 4 page).sendSource 5 page
  else s.sendSource die page

/-- The condition of R342, which a page of dies 6 and 7 drives as a level. -/
def State.level (s : State) (die page : Nat) : Bool := (s.hdr die page).irqEn && (s.hdr die page).m != 0
/-- The APLIC source that a page of dies 6 and 7 drives (R343). -/
def aplicSource (die page : Nat) : Option Nat :=
  if die = 6 ∧ 0xC0 ≤ page ∧ page ≤ 0xC5 then some (1 + (page - 0xC0))
  else if die = 6 ∧ page = 0xF0 then some 7
  else if die = 7 ∧ page = 0x100 then some 8
  else none
/-- A level input of the host die's APLIC, by source number (R343). -/
def State.aplic (s : State) (n : Nat) : Bool :=
  ([(6, 0xC0), (6, 0xC1), (6, 0xC2), (6, 0xC3), (6, 0xC4), (6, 0xC5), (6, 0xF0), (7, 0x100)] : List (Nat × Nat)).any fun p =>
    aplicSource p.1 p.2 == some n && s.level p.1 p.2

/-- The lowest set bit of a word. -/
def lowBit (w : W32) : Nat := ((List.range 32).find? fun k => bitOf w.toNat k).getD 0

/-- Sets EVT_STATUS bits as their events do (R341, R342). -/
def State.raiseBits (s : State) (die page : Nat) (b : W32) : State :=
  let h := s.hdr die page
  let n := h.evStatus ||| b
  let h' := { h with
    evStatus := n
    evFirst := if h.evStatus = 0 ∧ n ≠ 0 then w32 (0x80000000 + lowBit n) else h.evFirst }
  let s' := s.setHdr die page h'
  if h.irqEn ∧ h.m = 0 ∧ h'.m ≠ 0 then s'.sendIrq die page else s'

/-- Sets one event bit. -/
def State.raise (s : State) (die page bit : Nat) : State := s.raiseBits die page (w32 (2 ^ bit))

/-- Appends an error record; with four held it is discarded and ERR_LOST set (R344). -/
def State.logErr (s : State) (die page : Nat) (e : ErrRec) : State :=
  let h := s.hdr die page
  s.setHdr die page (if h.errs.length ≥ 4 then { h with errLost := true } else { h with errs := h.errs ++ [e] })

/-- Counts corrected errors (R345). -/
def State.countC (s : State) (die page n : Nat) : State :=
  let h := s.hdr die page
  s.setHdr die page { h with countC := satAdd 0xFFFF h.countC n }

/-- Counts uncorrected errors (R345). On the pages of blocks that meet them in their own SRAM or program store, FAULTED is set
too (R340). -/
def State.countU (s : State) (die page n : Nat) : State :=
  let h := s.hdr die page
  let s := s.setHdr die page { h with countU := satAdd 0xFFFF h.countU n }
  if has [0x01, 0x04, 0x05, 0x07, 0x08, 0x0B, 0x0E] (pageType die page) then
    (blockPages die page).foldl (fun s p => s.setHdr die p { s.hdr die p with bad := true }) s
  else s

/-- A PLT record (R332): code, and the page written with its block type and instance. -/
def State.pltLog (s : State) (die code page : Nat) (value : W32) : State :=
  s.logErr die 0xF0 ⟨pack [(code, 0), (pageType die page, 8), (pageInst die page, 16)], w32 page, value, 0⟩

/-- A KDL record (R334). -/
def State.kdlLog (s : State) (code step inst type method detail seq : Nat) : State :=
  s.logErr 7 0x100 ⟨pack [(code, 0), (step, 8), (inst % 65536, 16)], pack [(type, 0), (method, 8)], w32 detail, w32 seq⟩

/-- A write that a page's own rules ignore, in the die's PLT page or on die 7 in the KDL page (R335, R346). -/
def State.writeLog (s : State) (die page : Nat) (value : W32) (reason : Nat) : State :=
  if die = 7 then s.kdlLog 5 0 0 0 0 reason 0 else s.pltLog die 5 page value

-- The module address map

/-- 240 GiB: the region of one stove (R225). -/
def hbmRegion : Nat := 240 * 2 ^ 30
/-- An access to the HBM region of a stove in Ash wakes it (R255). -/
def State.wakeHbm (s : State) (a : Nat) : State :=
  let st := a / hbmRegion
  if (s.stk st).power = 3 then s.wakeStove st else s
/-- Start of the cold tier. -/
def coldBase : Nat := 0x020000000000
/-- Start of scratchpad. -/
def spdBase : Nat := 0x040000000000
/-- Start of register space. -/
def regBase : Nat := 0x050000000000

/-- Pseudo-channels of a stove in service, n (R226, R227). -/
def State.pcsIn (s : State) (st : Nat) : Nat := 160 - (s.tr.pcOut.filter fun p => p / 160 == st).length
/-- Packages in service, n_c (R229). -/
def State.pkgsIn (s : State) : Nat := 32 - s.tr.pkgOut.length
/-- C, the cold-tier capacity in service (R229). -/
def State.coldCap (s : State) : Nat := 2 ^ 30 * (64 * s.pkgsIn)
/-- H, the size of the host partition (R3). -/
def State.hostSize (s : State) : Nat := 2 ^ 30 * (16 * s.tr.hostUnits)
/-- Bytes of a stove's region in service (R227). -/
def State.hbmBytes (s : State) (st : Nat) : Nat := 2 ^ 29 * (3 * s.pcsIn st)
/-- The n-th number of [0, k) that a list leaves out, counting from 0. -/
def nthFree (out : List Nat) (k n : Nat) : Nat := ((List.range k).filter fun p => !has out p).getD n 0

/-- hbm_place (R226): stove, pseudo-channel and byte within it. -/
def State.hbmPlace (s : State) (a : Nat) : Option (Nat × Nat × Nat) :=
  let st := a / hbmRegion
  let o := a % hbmRegion
  let n := s.pcsIn st
  if st ≥ 4 ∨ o ≥ 2 ^ 29 * (3 * n) then none
  else
    let b := o / 512
    let q := b / n
    let j := (b + 13 * q) % n
    some (st, nthFree ((s.tr.pcOut.filter fun p => p / 160 == st).map (· % 160)) 160 j, 512 * q + o % 512)

/-- cold_place (R229): package and byte within it. -/
def State.coldPlace (s : State) (a : Nat) : Option (Nat × Nat) :=
  let x := a - coldBase
  if a < coldBase ∨ x ≥ s.coldCap then none
  else
    let b := x / 256
    let q := b / s.pkgsIn
    let j := (b + 5 * q) % s.pkgsIn
    some (nthFree s.tr.pkgOut 32 j, 256 * q + x % 256)

/-- HBM in service. -/
def State.inHbm (s : State) (a : Nat) : Bool := decide (a / hbmRegion < 4 ∧ a % hbmRegion < s.hbmBytes (a / hbmRegion))
/-- Cold tier in service. -/
def State.inCold (s : State) (a : Nat) : Bool := decide (coldBase ≤ a ∧ a < coldBase + s.coldCap)
/-- The host partition (R229). -/
def State.inHost (s : State) (a : Nat) : Bool :=
  decide (coldBase + s.coldCap - s.hostSize ≤ a ∧ a < coldBase + s.coldCap ∧ coldBase ≤ a)
/-- Scratchpad that exists (R101). -/
def inSpd (a : Nat) : Bool := decide (spdBase ≤ a ∧ a < spdBase + 4 * 0x40000000 ∧ (a - spdBase) % 0x40000000 < 0x18000000)
/-- Any byte of memory that exists (R225). -/
def State.inMem (s : State) (a : Nat) : Bool := s.inHbm a || s.inCold a || inSpd a

/-- What an address that `mem` does not list reads as: zero right after power-on; after a module reset a free value, of the draw of
scratchpad (`seed.1`), or of HBM and the cold tier (`seed.2`) until kindling step 11 writes zeros there (R308, R314). -/
def memDef (seed : Nat × Nat) (a : Nat) : Byte :=
  let n := if a < spdBase then seed.2 else seed.1
  if n = 0 then 0 else Config.freeByte n a
/-- The draws that unlisted memory reads from. -/
def State.seeds (s : State) : Nat × Nat := (s.sp.seed, s.tr.seed)
/-- What a byte of a program store that `store` does not list holds (R308). -/
def storeDef (seed k : Nat) : Byte := if seed = 0 then 0 else Config.freeByte seed (2 ^ 48 + k)
/-- The byte at a module address; holes read zero (R225). -/
def State.mrd (s : State) (a : Nat) : Byte := if s.inMem a then tabGet (memDef s.seeds) s.mem a else 0
/-- May a byte be written: it exists, and HBM is written through the hearths, which the kindler has released (R140, R225, R310)? -/
def State.writable (s : State) (a : Nat) : Bool := s.inMem a && (!s.inHbm a || decide (6 ≤ s.kd.released))
/-- Writes a byte; a hole discards it (R225). -/
def State.mwr (s : State) (a : Nat) (b : Byte) : State :=
  if s.writable a then { s with mem := tabSet (memDef s.seeds) s.mem a b } else s
/-- `n` bytes from a module address on. -/
def State.mrdN (s : State) (a n : Nat) : List Byte := (List.range n).map fun i => s.mrd (a + i)
/-- Writes bytes from a module address on. -/
def State.mwrN (s : State) : Nat → List Byte → State
  | _, [] => s
  | a, b :: t => (s.mwr a b).mwrN (a + 1) t

/-- Holes of register space and unmapped ranges accessed by the host are logged with HBM code 0x0B (R225, R348). -/
def State.holeLog (s : State) (a : Nat) : State :=
  s.logErr 0 0x90 ⟨0x0B, 0, w32 a, w32 (a / 2 ^ 32 % 65536)⟩

/-- The stove of a context (R244). -/
def stoveOf (c : Nat) : Nat := c / 1024
/-- The ways of a stove that a partition holds, in ascending order (R141): kind and owner. -/
def State.wayList (s : State) (st kind owner : Nat) : List Nat :=
  (List.range 16).filter fun w => tabGet (fun _ => (0, 0)) s.ht.ways (16 * st + w) == (kind, owner)
/-- Atomic window w of a stove (R154). -/
def State.awin (s : State) (st w : Nat) : AWin := tabGet (fun _ => {}) s.ht.windows (16 * st + w)

end Sys2Proof.Machine
end

