-- ==== Sys2Proof/Machine/Operands.lean ====
section
/-! DEFINITION. Operand forms: tensor descriptors and views, the window and virtual translation, lift chairs, reduction buffer
elements, reading elements and writing them with scales (R30, R74 to R79, R103, R110, R144, R231). -/

namespace Sys2Proof

open Machine

/-- The FMT codes (R75). -/
def Fmt.ofCode : Nat → Option Fmt
  | 0 => some .f4 | 1 => some .i4s | 2 => some .i4u | 3 => some .i3s | 4 => some .i3u | 5 => some .i2s | 6 => some .t2
  | 7 => some .b8 | 8 => some .b16 | 9 => some .n16 | _ => none
/-- The code of a format (R75). -/
def Fmt.code : Fmt → Nat
  | .f4 => 0 | .i4s => 1 | .i4u => 2 | .i3s => 3 | .i3u => 4 | .i2s => 5 | .t2 => 6 | .b8 => 7 | .b16 => 8 | .n16 => 9
/-- The GRAIN codes (R75). -/
def Grain.ofCode : Nat → Option Grain
  | 0 => some .none | 1 => some .lin16 | 2 => some .lin32 | 3 => some .lin64 | 4 => some .lin128 | 5 => some .square
  | _ => none
/-- CLASS codes (R74). -/
def Cls.ofCode (n : Nat) : Cls :=
  match n % 4 with
  | 0 => .act | 1 => .wt | 2 => .grad | _ => .state
/-- The code of a class. -/
def Cls.code : Cls → Nat
  | .act => 0 | .wt => 1 | .grad => 2 | .state => 3
/-- Row of the range counters of a format (R45, R260). -/
def Fmt.rc : Fmt → Nat
  | .f4 => 0 | .i4s | .i4u => 1 | .i3s | .i3u => 2 | .i2s => 3 | .t2 => 4 | .b8 => 5 | .b16 => 6 | .n16 => 7
/-- Elements that share a scale along a row; a tile is 8 by 8 (R26, R30). -/
def Grain.size : Grain → Nat
  | .none => 32 | .lin16 => 16 | .lin32 => 32 | .lin64 => 64 | .lin128 => 128 | .square => 8
/-- Linear grains. -/
def Grain.linear : Grain → Bool
  | .lin16 | .lin32 | .lin64 | .lin128 => true
  | _ => false
/-- Does the format take its own grain (B8, B16, N16: none; the others: linear or square) (R75)? -/
def grainFits (f : Fmt) (g : Grain) : Bool :=
  match f with
  | .b8 | .b16 | .n16 => g == .none
  | _ => g != .none
/-- Zero points: unsigned I4 up to 15, unsigned I3 up to 7 (R22). -/
def zpFits (f : Fmt) (z : Nat) : Bool :=
  match f with
  | .i3u => decide (z ≤ 7)
  | _ => decide (z ≤ 15)

/-- Is the operand computed at run time (R94)? -/
def Opd.computed : Opd → Bool
  | .indirect .. | .mem _ => true
  | _ => false
/-- Is it a lift chair? -/
def Opd.isChair : Opd → Bool
  | .chair .. => true
  | _ => false
/-- Is it absent? -/
def Opd.absent : Opd → Bool
  | .none => true
  | _ => false
/-- Is it named by a descriptor (R78)? -/
def Opd.desc : Opd → Bool
  | .pool _ | .mem _ => true
  | _ => false

end Sys2Proof

namespace Sys2Proof.Machine

/-- Scalar register n; S0 reads as zero (R81). -/
def Seq.sreg (q : Seq) (n : Nat) : W32 := if n = 0 then 0 else tabGet (fun _ => 0) q.sregs n
/-- Writes a scalar register; writes to S0 are discarded (R81). -/
def Seq.setSreg (q : Seq) (n : Nat) (v : W32) : Seq :=
  if n = 0 then q else { q with sregs := tabSet (fun _ => 0) q.sregs n v }
/-- The 48-bit address in S[n] and S[n+1][15:0] (R74). -/
def Seq.addr48 (q : Seq) (n : Nat) : Nat := (q.sreg n).toNat + 2 ^ 32 * fld (q.sreg (n + 1)) 15 0

/-- Bytes of a row of n elements. -/
def rowBytes (f : Fmt) (n : Nat) : Nat := cdiv (n * fmtBits f) 8

/-- Bytes from the view's address to the end of its last row. -/
def View.dataLen (v : View) : Nat := if v.rows = 0 ∨ v.cols = 0 then 0 else (v.rows - 1) * v.stride + rowBytes v.fmt v.cols
/-- Blocks along a row, or along a row of tiles. -/
def View.blkCols (v : View) : Nat := cdiv v.cols v.grain.size
/-- Rows of blocks. -/
def View.blkRows (v : View) : Nat := if v.grain = .square then cdiv v.rows 8 else v.rows
/-- Scale bytes of the view (R75). -/
def View.scaleLen (v : View) : Nat := if scaled v.fmt then v.blkRows * v.blkCols else 0
/-- The scale of view element (r, c), counted from the scale array's start (R75). -/
def View.blk (v : View) (r c : Nat) : Nat :=
  if v.grain = .square then r / 8 * v.blkCols + c / 8 else r * v.blkCols + c / v.grain.size
/-- Gives a view its scale array: the offset stated, or the next 64-byte boundary after the last row (R75, R76). -/
def View.placed (v : View) (off : Nat) : View :=
  { v with scaleOff := if off ≠ 0 then off else alignUp (v.addr + v.dataLen) 64 - v.addr }
/-- The logical element number of view element (r, c) (R77). -/
def View.num (v : View) (r c : Nat) : Nat := v.origin + r * v.lstep + c
/-- The number of elements of the view. -/
def View.size (v : View) : Nat := v.rows * v.cols

/-- The fields of a 64-byte tensor descriptor (R76); an unlisted FMT or GRAIN reads as the first one. -/
def descView (b : List Byte) : View :=
  let w8 := leAt b 8 4
  let wc := leAt b 12 4
  ({ place := match leAt b 6 1 % 4 with
        | 1 => .virt
        | 2 => .rb
        | _ => .spd,
     addr := leAt b 0 6, tid := w8 % 2 ^ 24, fmt := (Fmt.ofCode (bits w8 27 24)).getD .f4,
     cls := Cls.ofCode (bits w8 29 28), grain := (Grain.ofCode (bits wc 2 0)).getD .none, zp := bits wc 6 3,
     shape := [leAt b 16 4, leAt b 20 4, leAt b 24 4, leAt b 28 4], origin := leAt b 32 5,
     rows := leAt b 40 4 % 2 ^ 17, cols := leAt b 44 4 % 2 ^ 17, lstep := leAt b 48 5, stride := leAt b 56 4,
     desc := true } : View).placed (leAt b 60 4)

/-- A dimension of the shape. -/
def View.dim (v : View) (k : Nat) : Nat := nth 1 v.shape k
/-- The product of the shape. -/
def View.volume (v : View) : Nat := v.dim 0 * v.dim 1 * v.dim 2 * v.dim 3

/-- Is a descriptor valid by R76 and R77? -/
def descOk (b : List Byte) : Bool :=
  let v := descView b
  let w8 := leAt b 8 4
  let wc := leAt b 12 4
  let rank := bits wc 8 7 + 1
  let reserved := leAt b 6 2 / 4 == 0 && bits w8 31 30 == 0 && bits wc 31 9 == 0 && leAt b 37 3 == 0 &&
    leAt b 40 4 / 2 ^ 17 == 0 && leAt b 44 4 / 2 ^ 17 == 0 && leAt b 53 3 == 0
  let dims := (List.range 4).all fun k => decide (rank + k < 4 → v.dim k = 1)
  let last := v.num (v.rows - 1) (v.cols - 1)
  reserved && leAt b 6 1 % 4 != 3 && (Fmt.ofCode (bits w8 27 24)).isSome && (Grain.ofCode (bits wc 2 0)).isSome &&
    grainFits v.fmt v.grain && zpFits v.fmt v.zp && dims && decide (v.volume ≤ 2 ^ 40) &&
    decide (v.rows ≤ 65536 ∧ v.cols ≤ 65536) && v.stride % 16 == 0 && leAt b 60 4 % 64 == 0 &&
    (v.place != .spd || v.addr % 16 == 0) && (v.place != .rb || (v.fmt == .n16 && v.cls == .grad)) &&
    (v.size == 0 || decide (last < v.volume)) &&
    (v.grain != .square || (v.origin % v.dim 3 % 8 == 0 && v.origin / v.dim 3 % v.dim 2 % 8 == 0 && v.lstep == v.dim 3))

-- The window

/-- The size of a context's window in bytes (R103). -/
def State.window (s : State) (c : Nat) : Nat := 2 ^ 20 * (s.ctx c).granules.length
/-- The physical scratchpad address of a window offset, within the stove (R103). -/
def State.winPhys (s : State) (c off : Nat) : Option Nat :=
  ((s.ctx c).granules[off / 2 ^ 20]?).map fun g => 2 ^ 20 * g + off % 2 ^ 20
/-- The module address of a window offset (R101, R103). -/
def State.winAddr (s : State) (c off : Nat) : Option Nat :=
  (s.winPhys c off).map fun x => spdBase + 0x40000000 * stoveOf c + x

-- Virtual memory

/-- The page of an address space that holds a virtual address (R231). -/
def State.vpte (s : State) (c va : Nat) : Pte := s.pte (s.ctx c).aspace (va / 2 ^ 21)
/-- Translation of a virtual address: the frame is module address bits from 21 up (R231). -/
def State.vaAddr (s : State) (c va : Nat) : Option Nat :=
  let p := s.vpte c va
  if p.valid ∧ va < 2 ^ 48 then some (2 ^ 21 * p.frame + va % 2 ^ 21) else none
/-- Is a range mapped, and writable where it is to be written (R231)? -/
def State.mapped (s : State) (c va len : Nat) (write : Bool) : Bool :=
  len == 0 || (decide (va + len ≤ 2 ^ 48) &&
    (List.range ((va + len - 1) / 2 ^ 21 + 1 - va / 2 ^ 21)).all fun k =>
      let p := s.pte (s.ctx c).aspace (va / 2 ^ 21 + k)
      p.valid && (!write || p.write))
/-- The byte at a virtual address; an unmapped one reads zero, which only the reads of an engine's own structures can meet: DESIGN CHOICE
(log 94). -/
def State.vrd (s : State) (c va : Nat) : Byte := ((s.vaAddr c va).map s.mrd).getD 0
/-- The byte at a virtual address as the next write to it finds it: the last write that waits for its page's move, else what the page
holds. What reads a byte to merge into it takes this one (R235). -/
def State.vlast (s : State) (c va : Nat) : Byte :=
  match s.tr.waiting.reverse.find? fun w => w.page == 2 ^ 27 * (s.ctx c).aspace + va / 2 ^ 21 && w.off == va % 2 ^ 21 with
  | some w => w.byte
  | none => s.vrd c va
/-- The same for `n` bytes. -/
def State.vlastN (s : State) (c va n : Nat) : List Byte := (List.range n).map fun i => s.vlast c (va + i)
/-- Writes a byte at a virtual address; a write to a page without WRITE changes nothing (R231); into a page that moves the write waits
for the end of the move (R235). -/
def State.vwr (s : State) (c va : Nat) (b : Byte) : State :=
  match s.vaAddr c va with
  | some a =>
    if !(s.vpte c va).write then s
    else if (s.vpte c va).moving then
      { s with tr := { s.tr with waiting :=
          s.tr.waiting ++ [⟨2 ^ 27 * (s.ctx c).aspace + va / 2 ^ 21, va % 2 ^ 21, b, s.sq.nextId⟩] } }
    else s.mwr a b
  | none => s
/-- Sets the next number of an instruction. -/
def State.setNext (s : State) (n : Nat) : State := { s with sq := { s.sq with nextId := n } }
/-- Runs an effect as writes of the instruction in flight of a number, which completes no sooner than they land (R235). -/
def State.asOf (s : State) (id : Nat) (g : State → State) : State := (g (s.setNext id)).setNext s.sq.nextId
/-- `n` bytes from a virtual address on. -/
def State.vrdN (s : State) (c va n : Nat) : List Byte := (List.range n).map fun i => s.vrd c (va + i)
/-- Writes bytes from a virtual address on. -/
def State.vwrN (s : State) (c : Nat) : Nat → List Byte → State
  | _, [] => s
  | va, b :: t => (s.vwr c va b).vwrN c (va + 1) t

-- Views in memory

/-- The module address of byte `off` of a view; an address outside every tier where it translates to nothing. -/
def State.byteAddr (s : State) (c : Nat) (v : View) (off : Nat) : Nat :=
  match v.place with
  | .spd => (s.winAddr c (v.addr + off)).getD (2 ^ 48)
  | .virt => (s.vaAddr c (v.addr + off)).getD (2 ^ 48)
  | .rb => 2 ^ 48
/-- A byte of a view. -/
def State.byteOf (s : State) (c : Nat) (v : View) (off : Nat) : Byte := s.mrd (s.byteAddr c v off)
/-- A byte of a view as a merge finds it. -/
def State.byteLast (s : State) (c : Nat) (v : View) (off : Nat) : Byte :=
  if v.place = .virt then s.vlast c (v.addr + off) else s.byteOf c v off
/-- Bytes of a view as a merge finds them. -/
def State.bytesLast (s : State) (c : Nat) (v : View) (off n : Nat) : List Byte :=
  (List.range n).map fun i => s.byteLast c v (off + i)
/-- Bytes of a view from an offset on. -/
def State.bytesOf (s : State) (c : Nat) (v : View) (off n : Nat) : List Byte :=
  (List.range n).map fun i => s.byteOf c v (off + i)
/-- Writes bytes of a view from an offset on. -/
def State.putBytes (s : State) (c : Nat) (v : View) : Nat → List Byte → State
  | _, [] => s
  | off, b :: t =>
    (if v.place = .virt then s.vwr c (v.addr + off) b else s.mwr (s.byteAddr c v off) b).putBytes c v (off + 1) t

-- Reduction buffers (R144, R145)

/-- The register key of a buffer's word (R157). -/
def rbReg (b r : Nat) : Nat := r + 32 * b
/-- The home stove of an element (R144). -/
def rbHome (e : Nat) : Nat := e / 2 ^ 16 % 4
/-- The local element offset on the home stove. -/
def rbLocal (e : Nat) : Nat := 2 ^ 16 * (e / 2 ^ 18) + e % 2 ^ 16
/-- The element of local offset l of a stove. -/
def rbGlobal (st l : Nat) : Nat := 2 ^ 18 * (l / 2 ^ 16) + 2 ^ 16 * st + l % 2 ^ 16
/-- Resident lines of a slot on a stove (R144). -/
def State.rbResident (s : State) (st b : Nat) : Nat := 65536 * (s.wayList st 2 b).length
/-- Spilled lines of a slot on a stove (R144). -/
def State.rbSpilled (s : State) (st b : Nat) : Nat :=
  2 ^ 18 * fld (s.rd st (rbReg b Reg.HTH_RB_b_SIZE)) 12 0 / 256 - s.rbResident st b
/-- The spill region of a slot on a stove: its context, address and length (R144). -/
def State.spillRegion (s : State) (st b : Nat) : Nat × Nat × Nat :=
  let hi := s.rd st (rbReg b Reg.HTH_RB_b_SPILL_HI)
  (fld hi 27 16, s.rdN st (rbReg b Reg.HTH_RB_b_SPILL_LO) + 2 ^ 32 * fld hi 15 0, 144 * s.rbSpilled st b)
/-- The key of a resident line's tag. -/
def rbKey (b st l : Nat) : Nat := 2 ^ 24 * (4 * b + st) + l
/-- A tag record of a spilled line, 16 bytes (R144): generation, pass and touch mask; bit 24 says that the line holds data. -/
def RbTag.record (t : RbTag) : List Byte := leBytes 2 t.gen ++ leBytes 1 t.pass ++ [1] ++ leBytes 4 0 ++ leBytes 8 t.mask
/-- The record of a line that is zero at a generation (R145). -/
def RbTag.zeroRecord (g : Nat) : List Byte := leBytes 2 g ++ List.replicate 14 0
/-- The tag that a record holds; none where the line is zero. -/
def RbTag.ofRecord (b : List Byte) : Option RbTag :=
  if leAt b 3 1 % 2 = 1 then some ⟨leAt b 0 2, leAt b 2 1, leAt b 8 8⟩ else none
/-- The tag of local line l, resident or spilled; none where nothing was added to it since the walker made it zero. -/
def State.rbTag (s : State) (b st l : Nat) : Option RbTag :=
  let r := s.rbResident st b
  if l < r then (s.ht.tags.find? fun p => p.1 == rbKey b st l).map (·.2)
  else
    let g := s.spillRegion st b
    RbTag.ofRecord (s.vrdN g.1 (g.2.1 + 128 * s.rbSpilled st b + 16 * (l - r)) 16)
/-- The line's tag where it is of the current generation; an older line reads as zero (R145). -/
def State.rbLive (s : State) (b st l : Nat) : Option RbTag :=
  match s.rbTag b st l with
  | some t => if t.gen = (tabGet (fun _ => ({} : Rb)) s.ht.rbs b).gen then some t else none
  | none => none
/-- Element e as it is stored, whatever the line's tag says. -/
def State.rbRaw (s : State) (b e : Nat) : W16 :=
  let st := rbHome e
  let l := rbLocal e
  let r := s.rbResident st b
  if l / 64 < r then tabGet (fun _ => 0) s.ht.elems (2 ^ 30 * b + e)
  else
    let g := s.spillRegion st b
    BitVec.ofNat 16 (leNat (s.vrdN g.1 (g.2.1 + 128 * (l / 64 - r) + 2 * (l % 64)) 2))
/-- The value of a reduction buffer element (R145). -/
def State.elem (s : State) (b e : Nat) : W16 :=
  if (s.rbLive b (rbHome e) (rbLocal e / 64)).isSome then s.rbRaw b e else 0
/-- Stores a whole line with its tag where it is resident or spilled. -/
def State.putLine (s : State) (b st l : Nat) (t : RbTag) (vs : List W16) : State :=
  let r := s.rbResident st b
  if l < r then
    let e := rbGlobal st (64 * l)
    { s with ht := { s.ht with
        elems := vs.zipIdx.foldl (fun m p => tabSet (fun _ => 0) m (2 ^ 30 * b + e + p.2) p.1) s.ht.elems
        tags := tabPut s.ht.tags (rbKey b st l) t } }
  else
    let g := s.spillRegion st b
    (s.vwrN g.1 (g.2.1 + 128 * (l - r)) (vs.flatMap fun v => leBytes 2 v.toNat)).vwrN g.1
      (g.2.1 + 128 * s.rbSpilled st b + 16 * (l - r)) t.record
/-- The 64 elements of a line. -/
def State.lineVals (s : State) (b st l : Nat) : List W16 := (List.range 64).map fun k => s.elem b (rbGlobal st (64 * l + k))
/-- Sets a reduction buffer element, with the line's tag: the line takes the current generation, and a line that was older is zero
but for it (R145). -/
def State.setElemTag (s : State) (b e : Nat) (v : W16) (f : RbTag → RbTag) : State :=
  let st := rbHome e
  let l := rbLocal e / 64
  let t := (s.rbLive b st l).getD { gen := (tabGet (fun _ => ({} : Rb)) s.ht.rbs b).gen }
  s.putLine b st l (f t) ((s.lineVals b st l).set (rbLocal e % 64) v)
/-- Sets a reduction buffer element. -/
def State.setElem (s : State) (b e : Nat) (v : W16) : State := s.setElemTag b e v id
/-- Has pass P added to an element (R147)? -/
def State.rbTouched (s : State) (b e p : Nat) : Bool :=
  match s.rbLive b (rbHome e) (rbLocal e / 64) with
  | some t => t.pass == p && bitOf t.mask (rbLocal e % 64)
  | none => false
/-- The touch mask with an element added to in pass P; the mask of another pass counts for nothing (R147). -/
def RbTag.touch (t : RbTag) (p k : Nat) : RbTag :=
  { t with pass := p, mask := (if t.pass = p then t.mask else 0) ||| 2 ^ k }

/-- The reduction buffer element that a view element names: its address counts elements, its stride bytes (R76). -/
def View.rbElem (v : View) (r c : Nat) : Nat := v.addr + r * (v.stride / 2) + c

/-- The stored code of view element (r, k) (R75). -/
def State.codeAt (s : State) (c : Nat) (v : View) (r k : Nat) : Nat :=
  match v.place with
  | .rb => (s.elem (s.ctx c).slot (v.rbElem r k)).toNat
  | _ =>
    let n := fmtBits v.fmt
    let o := r * v.stride + k * n / 8
    if n = 16 then (s.byteOf c v o).toNat + 256 * (s.byteOf c v (o + 1)).toNat
    else (s.byteOf c v o).toNat / 2 ^ (k * n % 8) % 2 ^ n
/-- The S8 scale of view element (r, k) (R75); formats without scales read 0. -/
def State.scaleAt (s : State) (c : Nat) (v : View) (r k : Nat) : Nat :=
  if scaled v.fmt then (s.byteOf c v (v.scaleOff + v.blk r k)).toNat else 0
/-- The exact value of view element (r, k) (R21 to R27). -/
def State.valAt (s : State) (c : Nat) (v : View) (r k : Nat) : ℚ :=
  elemVal v.fmt v.zp (s.codeAt c v r k) (s.scaleAt c v r k)
/-- The exact values of a view, row by row. -/
def State.vals (s : State) (c : Nat) (v : View) : List (List ℚ) :=
  (List.range v.rows).map fun r => (List.range v.cols).map fun k => s.valAt c v r k
/-- The elements of a view, row by row. -/
def View.cells (v : View) : List (Nat × Nat) := (List.range v.rows).flatMap fun r => (List.range v.cols).map fun k => (r, k)
/-- The places in memory of the T2 codes 0b10 among elements of a view (R23): each counts as a saturated value. -/
def State.badT2 (s : State) (c : Nat) (v : View) (l : List (Nat × Nat)) : List Nat :=
  if v.fmt = .t2 then
    (l.filter fun p => s.codeAt c v p.1 p.2 == 2).map fun p =>
      4 * s.byteAddr c v (p.1 * v.stride + p.2 * 2 / 8) + p.2 % 4
  else []

/-- Writes the code of view element (r, k); the other elements of its byte keep their bits. -/
def State.putCode (s : State) (c : Nat) (v : View) (r k code : Nat) : State :=
  match v.place with
  | .rb => s.setElem (s.ctx c).slot (v.rbElem r k) (BitVec.ofNat 16 code)
  | _ =>
    let n := fmtBits v.fmt
    let o := r * v.stride + k * n / 8
    if n = 16 then s.putBytes c v o (leBytes 2 code)
    else
      let old := (s.byteLast c v o).toNat
      let sh := k * n % 8
      let new := old % 2 ^ sh + code % 2 ^ n * 2 ^ sh + old / 2 ^ (sh + n) * 2 ^ (sh + n)
      s.putBytes c v o [BitVec.ofNat 8 new]

/-- What writing a block of elements counted: saturated, flushed and near-limit events (R45). -/
structure Tally where
  sat : Nat := 0
  flush : Nat := 0
  near : Nat := 0
deriving DecidableEq, Repr

/-- A sum of counts. -/
def Tally.add (a b : Tally) : Tally := ⟨a.sat + b.sat, a.flush + b.flush, a.near + b.near⟩
/-- The counts of one rounding whose result is not stored. -/
def Tally.ofEv (e : Ev) : Tally := ⟨e.1, e.2, 0⟩
/-- The counts of one rounding. -/
def Tally.ofRd (r : Rd) : Tally := ⟨b2n r.sat, b2n r.flush, 0⟩

/-- An element to be written: row and column of the view, and its exact value. -/
abbrev Item := Nat × Nat × ℚ

/-- The scale that each block of the items asks for, and whether a value of it is not zero (R30). -/
def blockScales (v : View) (l : List Item) : Tab (Nat × Bool) :=
  l.foldl (fun t p =>
    let k := v.blk p.1 p.2.1
    let o := tabGet (fun _ => (0, false)) t k
    tabPut t k (max o.1 (needScale v.fmt v.zp p.2.2), o.2 || decide (p.2.2 ≠ 0))) []

/-- Writes one element at a scale, rounding with the draw `u` gives for its logical number. -/
def State.storeItem (s : State) (c : Nat) (v : View) (u : Nat → Option Nat) (e : Nat) (p : Item) : State × Tally :=
  let q := quantize v.fmt v.zp e p.2.2 (u (v.num p.1 p.2.1))
  let near := v.fmt == .n16 && nearN16 q.2.val
  (s.putCode c v p.1 p.2.1 q.1, ⟨b2n q.2.sat, b2n q.2.flush, b2n near⟩)

/-- Writes elements into a view: chooses the scale of every block they touch, which they fill, rounds each element once and
writes codes and scales (R30, R56). -/
def State.storeItems (s : State) (c : Nat) (v : View) (u : Nat → Option Nat) (l : List Item) : State × Tally :=
  let sc := blockScales v l
  let w := l.foldl (fun (x : State × Tally) p =>
    let e := (tabGet (fun _ => (0, false)) sc (v.blk p.1 p.2.1)).1
    let y := x.1.storeItem c v u e p
    (y.1, x.2.add y.2)) (s, {})
  if scaled v.fmt then
    sc.foldl (fun (x : State × Tally) k =>
      (x.1.putBytes c v (v.scaleOff + k.1) [BitVec.ofNat 8 k.2.1],
        x.2.add ⟨0, 0, b2n (k.2.2 && (decide (k.2.1 ≤ 1) || decide (k.2.1 ≥ 254)))⟩)) w
  else w

/-- Items of a matrix whose first element is view element (r0, c0). -/
def itemsAt (r0 c0 : Nat) (m : List (List ℚ)) : List Item :=
  m.zipIdx.flatMap fun r => r.1.zipIdx.map fun k => (r0 + r.2, c0 + k.2, k.1)

-- Extents and lines

/-- The byte ranges of a view within its window or address space: start and length, data rows and scales. -/
def View.ranges (v : View) : List (Nat × Nat) :=
  if v.size = 0 then []
  else (List.range v.rows).map (fun r => (v.addr + r * v.stride, rowBytes v.fmt v.cols)) ++
    (if scaled v.fmt then [(v.addr + v.scaleOff, v.scaleLen)] else [])
/-- The end of the view's extent. -/
def View.extent (v : View) : Nat :=
  max (v.addr + v.dataLen) (if scaled v.fmt ∧ v.size ≠ 0 then v.addr + v.scaleOff + v.scaleLen else 0)
/-- The physical 256-byte lines of the stove that a window range touches. -/
def State.linesOf (s : State) (c : Nat) (rg : List (Nat × Nat)) : List Nat :=
  (rg.flatMap fun x =>
    (List.range (if x.2 = 0 then 0 else (x.1 + x.2 - 1) / 256 + 1 - x.1 / 256)).filterMap fun k =>
      (s.winPhys c (256 * (x.1 / 256 + k))).map (· / 256)).eraseDups
/-- The lines of a view that lies in scratchpad. -/
def State.viewLines (s : State) (c : Nat) (v : View) : List Nat := if v.place = .spd then s.linesOf c v.ranges else []

-- Lifts

/-- The register key of a lift's word at an offset (R118). -/
def liftReg (k r : Nat) : Nat := r + 4096 * (k / 32) + 32 * (k % 32)
/-- The fields of a lift. -/
structure LiftCfg where
  enable : Bool
  producer : Nat
  lnum : Nat
  ctx : Nat
  chairs : Nat
  base : Nat
  size : Nat
deriving DecidableEq, Repr
/-- A lift's set-up (R108). -/
def State.liftCfg (s : State) (st k : Nat) : LiftCfg :=
  let w := s.rd st (liftReg k Reg.SPD_LIFT_k_CFG)
  { enable := bitOf w.toNat 0, producer := fld w 2 1, lnum := fld w 7 3, ctx := fld w 19 8, chairs := fld w 23 20 + 1,
    base := 256 * fld (s.rd st (liftReg k Reg.SPD_LIFT_k_BASE)) 20 0,
    size := 256 * fld (s.rd st (liftReg k Reg.SPD_LIFT_k_CHAIR)) 16 0 }
/-- The enabled hardware lift that a context's lift number names (R108). -/
def State.findLift (s : State) (c n : Nat) : Option Nat :=
  (List.range 128).find? fun k =>
    let l := s.liftCfg (stoveOf c) k
    l.enable && l.ctx == c && l.lnum == n
/-- Does a range of the window touch the chairs of an enabled lift of the context (R114)? -/
def State.hitsLift (s : State) (c a n : Nat) : Bool :=
  n != 0 && (List.range 128).any fun k =>
    let l := s.liftCfg (stoveOf c) k
    l.enable && l.ctx == c && decide (a < l.base + l.chairs * l.size ∧ l.base < a + n)
/-- The window offset of a chair. -/
def LiftCfg.chairAt (l : LiftCfg) (n : Nat) : Nat := l.base + n * l.size
/-- Chair n of a lift. -/
def Lift.chair (l : Lift) (n : Nat) : Nat := nth 0 l.chairs n

/-- A view packed into a chair (R110). -/
def chairView (a : Nat) (f : Fmt) (g : Grain) (z : Nat) (k : Cls) (rows cols : Nat) : View :=
  ({ place := .spd, addr := a, fmt := f, grain := g, zp := z, cls := k, rows := rows, cols := cols,
     stride := alignUp (rowBytes f cols) 16 } : View).placed 0

-- Resolution of operands

/-- The bytes of the program store. -/
def State.psN (s : State) (st a n : Nat) : List Byte :=
  (List.range n).map fun i => tabGet (storeDef s.sp.seed) s.sq.store (2 ^ 24 * st + a + i)

/-- The descriptor bytes of an operand, where a descriptor names it (R74, R92). -/
def State.opdDesc (s : State) (st sq c : Nat) : Opd → Option (List Byte)
  | .pool i => some (s.psN st (64 * i) 64)
  | .mem r => some (s.vrdN c ((s.seq st sq).addr48 r) 64)
  | _ => none

/-- The view of an operand; raw operands take rows and columns from the instruction (R78). -/
def State.view (s : State) (st sq c : Nat) (o : Opd) (rows cols : Nat) : View :=
  match o with
  | .none => { rows := 0, cols := 0 }
  | .direct a sd f g z k =>
    ({ place := .spd, addr := a, fmt := f, grain := g, zp := z, cls := k, rows := rows, cols := cols,
       stride := sd } : View).placed 0
  | .indirect r sd f g z k =>
    ({ place := .spd, addr := ((s.seq st sq).sreg r).toNat, fmt := f, grain := g, zp := z, cls := k, rows := rows,
       cols := cols, stride := sd } : View).placed 0
  | .chair n t f g z k =>
    match s.findLift c n with
    | some h =>
      let l := s.lift st h
      chairView ((s.liftCfg st h).chairAt (if t then l.tail else l.head)) f g z k rows cols
    | none => chairView 0 f g z k rows cols
  | .pool i => descView (s.psN st (64 * i) 64)
  | .mem r => descView (s.vrdN c ((s.seq st sq).addr48 r) 64)

/-- Memory descriptors against R76 and R77, and the mapping of their pages and of every page of a view in virtual memory
(R94 check 1, R231). -/
def State.descFails (s : State) (st sq c : Nat) (o : Opd) (v : View) (write : Bool) : Bool :=
  (match o with
    | .mem r =>
      let a := (s.seq st sq).addr48 r
      decide (a % 64 ≠ 0) || !s.mapped c a 64 false || !descOk (s.vrdN c a 64)
    | _ => false) ||
  (v.place == .virt && !s.mapped c v.addr (if v.size = 0 then 0 else v.extent - v.addr) write)

/-- Scratchpad extents against the present window and the enabled lifts (R94 check 2, R103, R114). That a computed address off the
16-byte boundary has code 0x01 is a DESIGN CHOICE (log 79). -/
def State.extentFails (s : State) (c : Nat) (o : Opd) (v : View) : Bool :=
  v.place == .spd && v.size != 0 &&
    (decide (v.addr % 16 ≠ 0) || decide (v.extent > s.window c) ||
      (!o.isChair && v.ranges.any fun x => s.hitsLift c x.1 x.2))

/-- E, the number of elements of a slot's buffer. -/
def State.rbSize (s : State) (b : Nat) : Nat := 2 ^ 18 * fld (s.rd 0 (rbReg b Reg.HTH_RB_b_SIZE)) 12 0
/-- Extents against the buffer behind them (R94 check 3). -/
def State.countFails (s : State) (c : Nat) (v : View) : Bool :=
  v.place == .rb && v.size != 0 &&
    decide (v.rbElem (v.rows - 1) (v.cols - 1) ≥ s.rbSize (s.ctx c).slot)

end Sys2Proof.Machine
end

