-- ==== Sys2Proof/Machine/Hash.lean ====
section
/-! DEFINITION. SHAKE256 and SHA3-512, which the manual uses for digests and manifests (R191, R214, R320, R327), the CRC-16 of
row seals (R213), the CRC-64 of link flits (R285) and the CRC-32C of journal records (R329). -/

namespace Sys2Proof.Machine

/-- A permutation state as five planes of five lanes. -/
abbrev Planes := List (List W64)
/-- A list turned round by `k` places. -/
def turned {α : Type} (k : Nat) (l : List α) : List α := l.drop k ++ l.take k

/-- θ: every lane takes in the parities of two neighbouring columns. -/
def mixColumns (a : Planes) : Planes :=
  let sums := a.foldl (List.zipWith fun u v => u ^^^ v) (List.replicate 5 0)
  let both := List.zipWith (fun u v => u ^^^ v.rotateLeft 1) (turned 4 sums) (turned 1 sums)
  a.map (List.zipWith (fun u v => u ^^^ v) both)
/-- The lane at column x of plane y. -/
def laneAt (a : Planes) (x y : Nat) : W64 := (a.getD y []).getD x 0
/-- ρ and π in one walk from lane (x, y): step t of 24 puts it, rotated by a triangle number, at (y, 2x + 3y) and goes on from there. -/
def moveLanes (a : Planes) : Nat → Nat → Nat → Planes → Planes
  | 0, _, _, b => b
  | n + 1, x, y, b =>
    let u := (2 * x + 3 * y) % 5
    let t := 24 - n
    moveLanes a n y u (b.modify u fun p => p.set y ((laneAt a x y).rotateLeft (t * (t + 1) / 2 % 64)))
/-- χ on one plane. -/
def mixPlane (p : List W64) : List W64 :=
  List.zipWith (fun u v => u ^^^ v) p (List.zipWith (fun u v => ~~~u &&& v) (turned 1 p) (turned 2 p))
/-- ι: the next seven bits of the 8-bit feedback register give the bits 2^j − 1 of the round's constant; the constant and the register. -/
def roundWord : Nat → Nat → Nat → W64 → W64 × Nat
  | 0, _, r, w => (w, r)
  | n + 1, j, r, w =>
    roundWord n (j + 1) (if r ≥ 128 then (2 * r) ^^^ 0x171 else 2 * r) (if r % 2 = 1 then w ^^^ BitVec.ofNat 64 (2 ^ (2 ^ j - 1)) else w)
/-- `n` rounds of Keccak-f[1600] with the feedback register at `r`. -/
def keccakRounds : Nat → Nat → Planes → Planes
  | 0, _, a => a
  | n + 1, r, a =>
    let w := roundWord 7 0 r 0
    let b := (moveLanes (mixColumns a) 24 1 0 (mixColumns a)).map mixPlane
    keccakRounds n w.2 (b.modify 0 fun p => p.modify 0 fun v => v ^^^ w.1)

/-- A block of bytes as lanes, the rest zero. -/
def blockPlanes (b : List Byte) : Planes :=
  (List.range 5).map fun y => (List.range 5).map fun x => BitVec.ofNat 64 (leAt b (8 * (5 * y + x)) 8)
/-- Takes in the blocks of a padded message, of `rate` bytes each. -/
def takeBlocks (rate n : Nat) (m : List Byte) : Planes :=
  (List.range n).foldl (fun a k =>
    keccakRounds 24 1 (List.zipWith (List.zipWith fun u v => u ^^^ v) a (blockPlanes ((m.drop (rate * k)).take rate)))) (blockPlanes [])
/-- `n` blocks of output. -/
def giveBlocks (rate : Nat) : Nat → Planes → List Byte
  | 0, _ => []
  | n + 1, a => (a.flatten.flatMap fun w => leBytes 8 w.toNat).take rate ++ giveBlocks rate n (keccakRounds 24 1 a)
/-- A sponge: the message is closed by the domain byte, and the last bit of its last block is set. -/
def sponge (rate : Nat) (dom : Byte) (m : List Byte) (out : Nat) : List Byte :=
  let n := m.length / rate + 1
  let full := fitBytes (n * rate) (m ++ [dom])
  (giveBlocks rate (out / rate + 1) (takeBlocks rate n (full.modify (n * rate - 1) fun b => b ||| 0x80))).take out

/-- SHAKE256 with an output of `out` bytes. -/
def shake256 (m : List Byte) (out : Nat) : List Byte := sponge 136 0x1F m out

/-- SHA3-512. -/
def sha3_512 (m : List Byte) : List Byte := sponge 72 0x06 m 64

/-- CRC-16, polynomial 0x1021, not reflected: eight bit steps. -/
def crc16Bits : Nat → Nat → Nat
  | 0, c => c
  | n + 1, c => crc16Bits n (if c ≥ 0x8000 then (2 * c % 65536) ^^^ 0x1021 else 2 * c)

/-- CRC-16 of R213: initial value 0xFFFF, no final XOR. -/
def crc16 (m : List Byte) : Nat := m.foldl (fun c b => crc16Bits 8 (c ^^^ (b.toNat * 256))) 0xFFFF

/-- CRC-64 of ECMA-182, not reflected: eight bit steps. -/
def crc64Bits : Nat → Nat → Nat
  | 0, c => c
  | n + 1, c => crc64Bits n (if c ≥ 2 ^ 63 then ((2 * c) % 2 ^ 64) ^^^ 0x42F0E1EBA9EA3693 else 2 * c)
/-- CRC-64 of a flit (R285): initial value and final XOR all ones. -/
def crc64 (m : List Byte) : Nat :=
  (m.foldl (fun c b => crc64Bits 8 (c ^^^ (b.toNat * 2 ^ 56))) (2 ^ 64 - 1)) ^^^ (2 ^ 64 - 1)

/-- CRC-32C, reflected: eight bit steps. -/
def crc32cBits : Nat → Nat → Nat
  | 0, c => c
  | n + 1, c => crc32cBits n (if c % 2 = 1 then (c / 2) ^^^ 0x82F63B78 else c / 2)

/-- CRC-32C (R329). -/
def crc32c (m : List Byte) : Nat :=
  (m.foldl (fun c b => crc32cBits 8 (c ^^^ b.toNat)) 0xFFFFFFFF) ^^^ 0xFFFFFFFF

end Sys2Proof.Machine
end

