-- ==== Sys2Proof/Machine/Route.lean ====
section
/-! DEFINITION. How a message leaves the module: header, route shape, port, and what holds it at its source; flits,
credits and the retry buffer; and messages in transit (R283 to R291, R301, R302). -/

namespace Sys2Proof.Machine

/-- The module port of local link to seat `t` of the rink, seen from seat `s` (R280, R283). -/
def localPort (s t : Nat) : Nat :=
  let j := (t + 15 - s) % 16
  if j ≤ 7 then j else j + 8
/-- The module port of global port g (R280). -/
def globalPort (g : Nat) : Nat := if g ≤ 7 then g + 8 else g + 16
/-- The role of a module port (R280): 0 local, 1 global, 2 service. -/
def portRole (p : Nat) : Nat := if p ≤ 7 ∨ (16 ≤ p ∧ p ≤ 22) then 0 else if p = 23 then 2 else 1
/-- The global index of rink r that carries traffic to rink r′ for a pair of logical IDs (R284, R289). -/
def globalIndex (r r2 src dst : Nat) : Nat :=
  let n := Config.rinks
  (r2 + 2 * n - r - 1) % n + (n - 1) * ((src + dst) % (256 / (n - 1)))

/-- A loaded piste's image. -/
def ColJob.image (j : ColJob) (k : Nat) : Option (List Byte) := (j.pistes.find? fun p => p.1 == k).map (·.2)
/-- The active piste of a slot (R301). -/
def ColJob.activeImage (j : ColJob) : Option (List Byte) := j.active.bind j.image
/-- CLASSES (R299). -/
def pisteClasses (b : List Byte) : Nat := leAt b 8 4 % 8
/-- ROUTE_MODE (R299). -/
def pisteMode (b : List Byte) : Bool := bitOf (leAt b 8 4) 3
/-- PORT_MASK (R299). -/
def pisteMask (b : List Byte) : Nat := leAt b 16 4
/-- The route exceptions of a piste: destination, shape, via rink and seat (R299). -/
def pisteExc (b : List Byte) : List (Nat × Nat × Nat × Nat) :=
  (List.range (leAt b 20 4 % 2048)).map fun e =>
    let w := leAt b (64 + 8 * e) 8
    (w % 4096, bits w 13 12, bits w 21 14, bits w 25 22)

/-- May a port carry a slot's traffic: up, and in the active piste's mask (R299)? -/
def State.portOk (s : State) (img : Option (List Byte)) (p : Nat) : Bool :=
  (s.port p).state == 2 && (match img with
    | some b => bitOf (pisteMask b) p
    | none => true)
/-- Is the link between two rinks up in the global link map (R289)? -/
def State.rinkLink (s : State) (r r2 : Nat) : Bool := !has s.fb.linkDown (256 * r + r2)

/-- The seat a message of a pair of logical IDs leaves the rink from, and the port of the first hop towards another rink (R289). -/
def State.exitFor (s : State) (r2 src dst : Nat) : Nat × Nat :=
  let k := globalIndex s.kd.rink r2 src dst
  let seat := k / 16 % 16
  (seat, if seat = s.kd.seat then globalPort (k % 16) else localPort s.kd.seat seat)
/-- The same for a message of the module's own. -/
def State.exitPort (s : State) (r2 dst : Nat) : Nat × Nat := s.exitFor r2 (s.fb.lid.getD 0) dst
/-- The lowest seat over which a local hop can be detoured: both links are up, the module's own to it and the one from there (R289). How
the state of the second link becomes known the spec does not say, so that it is a free value, a new one once something has been sent:
DESIGN CHOICE (log 65). -/
def State.detour (s : State) (img : Option (List Byte)) (to_ : Nat) : Option Nat :=
  (List.range 16).find? fun v =>
    v != s.kd.seat && v != to_ && s.portOk img (localPort s.kd.seat v) && Config.localLink v to_ s.out.length
/-- The first rink after the destination's, in ascending order with wrap, whose two links are up (R289). -/
def State.viaRinkOf (s : State) (r2 : Nat) : Option Nat :=
  ((List.range Config.rinks).map fun k => (r2 + 1 + k) % Config.rinks).find? fun v =>
    v != s.kd.rink && v != r2 && s.rinkLink s.kd.rink v && s.rinkLink v r2

/-- The route of a message to a position (R289); none where there is none. A route exception of shape 1 replaces the local hop of its
via seat's rink; where the minimal route has no such hop, it is the minimal route. -/
def State.routeTo (s : State) (img : Option (List Byte)) (dst rink seat : Nat) : Option Route :=
  let me := s.kd.rink
  let own := s.kd.seat
  let via_ := fun (p shape vr vs : Nat) => if s.portOk img p then some (⟨rink, seat, shape, vr, vs, p⟩ : Route) else none
  let local1 := fun (to_ : Nat) =>
    if s.portOk img (localPort own to_) then some (⟨rink, seat, 0, 0, 0, localPort own to_⟩ : Route)
    else (s.detour img to_).map fun v => ⟨rink, seat, 1, me, v, localPort own v⟩
  let x := s.exitPort rink dst
  match (img.map pisteExc).bind fun l => l.find? fun e => e.1 == dst with
  | some (_, 1, vr, vs) =>
    if vr = me ∧ (rink = me ∨ x.1 ≠ own) then via_ (localPort own vs) 1 vr vs
    else if rink = me then via_ (localPort own seat) 0 0 0
    else via_ x.2 (if vr = me then 0 else 1) vr vs
  | some (_, 2, vr, vs) => via_ (s.exitPort vr dst).2 2 vr vs
  | _ =>
    if rink = me then (if seat = own then none else local1 seat)
    else if Config.rinks ≤ 1 ∨ rink ≥ Config.rinks then none
    else
      let down := if x.1 = own then !s.portOk img x.2 else !s.rinkLink me rink
      if down ∧ (img.map pisteMode).getD false then (s.viaRinkOf rink).bind fun v => via_ (s.exitPort v dst).2 2 v 0
      else if x.1 = own then via_ x.2 0 0 0
      else local1 x.1

-- Message headers (R288)

/-- Bits [hi:lo] of a field placed in the 256-bit header. -/
def wireWord (type dstRink dstSeat : Nat) (h : MsgHdr) : Nat :=
  h.dst % 2 ^ 12 + 2 ^ 12 * (h.src % 2 ^ 12) + 2 ^ 24 * (dstRink % 2 ^ 8) + 2 ^ 32 * (dstSeat % 2 ^ 4) +
    2 ^ 36 * (h.srcRink % 2 ^ 8) + 2 ^ 44 * (h.srcSeat % 2 ^ 4) + 2 ^ 48 * (type % 2 ^ 6) + 2 ^ 54 * (h.via % 2 ^ 14) +
    2 ^ 68 * (h.ctx % 2 ^ 12) + 2 ^ 80 * (h.jtag % 2 ^ 16) + 2 ^ 96 * (h.step % 2 ^ 48) + 2 ^ 144 * (h.cseq % 2 ^ 32) +
    2 ^ 176 * (h.len % 2 ^ 24) + 2 ^ 200 * (h.arg % 2 ^ 56)
/-- A message header as its 32 bytes. -/
def wireBytes (type dstRink dstSeat : Nat) (h : MsgHdr) : List Byte := leBytes 32 (wireWord type dstRink dstSeat h)
/-- A message header as it is read from the first payload bytes of a message: type, destination position, and the rest. -/
structure Wire where
  type : Nat
  rink : Nat
  seat : Nat
  hdr : MsgHdr
deriving DecidableEq, Repr
/-- Reads a message header. -/
def readWire (b : List Byte) : Wire :=
  let w := leAt b 0 32
  ⟨bits w 53 48, bits w 31 24, bits w 35 32,
    { dst := bits w 11 0, src := bits w 23 12, srcRink := bits w 43 36, srcSeat := bits w 47 44, ctx := bits w 79 68,
      jtag := bits w 95 80, step := bits w 143 96, cseq := bits w 175 144, via := bits w 67 54, len := bits w 199 176,
      arg := bits w 255 200 }⟩
/-- SHAPE, VIA_RINK and VIA_SEAT as bits [67:54] hold them. -/
def viaBits (shape rink seat : Nat) : Nat := shape % 4 + 4 * (rink % 256) + 2 ^ 10 * (seat % 16)
/-- The payload of a message: its type-specific words after the first, which ARG holds, and its data. -/
def FabMsg.payload (m : FabMsg) : List Byte := (m.args.drop 1).flatMap (leBytes 8) ++ m.data

-- Flits (R285 to R287)

/-- The eight bytes of a flit header (R285). -/
def flitWord (h : FlitHdr) : Nat :=
  h.kind % 4 + 4 * (h.vc % 16) + 2 ^ 6 * b2n h.first + 2 ^ 7 * b2n h.last + 2 ^ 8 * (h.seq % 4096) + 2 ^ 20 * (h.ack % 4096) +
    2 ^ 32 * b2n h.nak + 2 ^ 33 * (h.cvc % 16) + 2 ^ 37 * (h.credits % 2048) + 2 ^ 48 * (h.len % 512)
/-- The CRC of a flit: over its header and its 304 payload bytes (R285). -/
def flitCrc (h : FlitHdr) (data : List Byte) : Nat := crc64 (leBytes 8 (flitWord h) ++ fitBytes 304 data)
/-- The credits that the next flit of a port returns: those of the lowest VC that has any. -/
def Port.owes (q : Port) : Nat × Nat :=
  match (List.range 9).find? fun v => tabGet (fun _ => 0) q.owed v != 0 with
  | some v => (v, min 2047 (tabGet (fun _ => 0) q.owed v))
  | none => (0, 0)
/-- The port after it has returned those credits. -/
def Port.paid (q : Port) : Port :=
  { q with owed := tabSet (fun _ => 0) q.owed q.owes.1 (tabGet (fun _ => 0) q.owed q.owes.1 - q.owes.2) }
/-- A flit goes out on a port. -/
def State.putFlit (s : State) (p : Nat) (h : FlitHdr) (data : List Byte) : State := s.emit (.flit p h data (flitCrc h data))
/-- A flit without data, of kind 1 (control) or 2 (idle): it acknowledges and returns credits. -/
def State.sendBare (s : State) (p kind : Nat) (nak : Bool) : State :=
  let q := s.port p
  (s.setPort p q.paid).putFlit p ⟨kind, 0, false, false, 0, (q.rxSeq + 4095) % 4096, nak, q.owes.1, q.owes.2, 0⟩ []
/-- Flits of a VC that the other end's receive buffer holds beyond its 64 own places. -/
def Port.pooled (q : Port) (v : Nat) : Nat := tabGet (fun _ => 0) q.used v - 64
/-- Is there a credit for a flit of a VC: a place of its own, or one of the pool's 1,472, of which it may hold 1,024? -/
def Port.credit (q : Port) (v : Nat) : Bool :=
  decide (tabGet (fun _ => 0) q.used v < 64) ||
    decide (q.pooled v < 1024 ∧ ((List.range 9).map q.pooled).sum < 1472)
/-- The first waiting flit that may go: the next of its message, no other message being sent in its VC, with a credit and a place in the
retry buffer of 1,024. -/
def Port.ready (q : Port) : Option (Flit × Nat) :=
  if q.state ≠ 2 ∨ q.retry.length ≥ 1024 then none
  else
    q.queue.zipIdx.find? fun f =>
      let v := f.1.hdr.vc
      q.credit v && !((q.queue.take f.2).any fun g => g.hdr.vc == v && g.from_ == f.1.from_) &&
        (match q.going.find? fun g => g.1 == v with
          | some g => g.2 == f.1.from_
          | none => f.1.hdr.first)
/-- The place of a flit in transit in the receive buffer it came by is free: it is returned to the sender. -/
def State.returnPlace (s : State) : Option (Nat × Nat) → State
  | some (i, w) =>
    let r := s.port i
    if r.state = 2 ∨ r.state = 3 then
      (s.setPort i { r with owed := tabSet (fun _ => 0) r.owed w (tabGet (fun _ => 0) r.owed w + 1) }).sendBare i 2 false
    else s
  | none => s
/-- Sends a waiting flit: it takes the next sequence number and stays in the retry buffer; one in transit leaves the receive buffer it
stood in, whose place is returned to the sender. -/
def State.sendFlit (s : State) (p : Nat) (f : Flit) (k : Nat) : State :=
  let q := s.port p
  let v := f.hdr.vc
  let h := { f.hdr with seq := q.txSeq % 4096, ack := (q.rxSeq + 4095) % 4096, cvc := q.owes.1, credits := q.owes.2 }
  let q := q.paid
  let s := (s.setPort p { q with
      txSeq := (q.txSeq + 1) % 4096, retry := q.retry ++ [{ f with hdr := h }], queue := q.queue.eraseIdx k,
      used := tabSet (fun _ => 0) q.used v (tabGet (fun _ => 0) q.used v + 1),
      going := (q.going.filter fun g => g.1 != v) ++ (if f.hdr.last then [] else [(v, f.from_)]) }).bumpWrap (4 + p / 16)
    (Reg.FAB_TX_FLITS + 4096 * (p % 16)) 1
  (s.putFlit p h f.data).returnPlace f.from_
/-- Sends up to `n` waiting flits. -/
def State.pump (s : State) (p : Nat) : Nat → State
  | 0 => s
  | n + 1 =>
    match (s.port p).ready with
    | none => s
    | some (f, k) => (s.sendFlit p f k).pump p n
/-- Gives a port flits to send. -/
def State.giveFlits (s : State) (p : Nat) (fs : List Flit) : State :=
  let q := s.port p
  (s.setPort p { q with queue := q.queue ++ fs }).pump p (q.queue.length + fs.length)
/-- The flits of a message, from its first byte on. -/
def flitsOf (vc : Nat) (slot : Option Nat) (b : List Byte) : List Flit :=
  let n := (b.length + 303) / 304
  (List.range n).map fun k =>
    let d := (b.drop (304 * k)).take 304
    ⟨⟨0, vc, k == 0, k + 1 == n, 0, 0, false, 0, 0, d.length⟩, d, slot, none, b.take 32⟩

/-- Sends a message now. A request with no route is returned UNREACHABLE; any other is discarded and counted (R289, R290). There is no
route to a seat that is LOST (R303). -/
def State.transmit (s : State) (m : FabMsg) : State :=
  if some m.hdr.dst = s.fb.lid then s.emit (.fabric m none)
  else
    let e := s.name m.hdr.dst
    let there := e.valid && (s.seatE (16 * e.rink + e.seat)).state != 4
    match if there then s.routeTo (m.slot.bind fun b => (s.cjob b).activeImage) m.hdr.dst e.rink e.seat else none with
    | some r =>
      let h := { m.hdr with via := viaBits r.shape r.viaRink r.viaSeat }
      (s.emit (.fabric m (some r))).giveFlits r.port (flitsOf (3 * (m.type / 16)) m.slot
        (wireBytes m.type r.rink r.seat h ++ fitBytes (16 * h.len) m.payload))
    | none =>
      if m.type < 0x10 then s.emit (.returned m)
      else { s with fb := { s.fb with discarded := s.fb.discarded + 1 } }

/-- Sends a service message on a port, to the module at its other end (R287). -/
def State.sendService (s : State) (p type : Nat) (args : List Nat) : State :=
  if (s.port p).state = 2 then
    let q := ((s.port p).partner.map fun x => (x.rink, x.seat)).getD (0, 0)
    (s.emit (.service p type args)).giveFlits p (flitsOf 0 none (wireBytes type q.1 q.2
      { dst := (s.seatE (16 * q.1 + q.2)).lid, src := s.fb.lid.getD 0, srcRink := s.kd.rink, srcSeat := s.kd.seat, ctx := 0, jtag := 0, step := 0, cseq := 0,
        via := 0, len := (8 * (args.length - 1) + 15) / 16, arg := args.headD 0 % 2 ^ 56 } ++
      fitBytes (16 * ((8 * (args.length - 1) + 15) / 16)) ((args.drop 1).flatMap (leBytes 8))))
  else s
/-- The ports of a role. -/
def portsOf (role : Nat) : List Nat := (List.range 32).filter fun p => portRole p == role
/-- Sends a service message on every local and global port that is up. -/
def State.announce (s : State) (type : Nat) (args : List Nat) : State :=
  (portsOf 0 ++ portsOf 1).foldl (fun s p => s.sendService p type args) s

/-- Is a message of a job held at its source: while a stand-in directive runs, while the slot is not resumed after one, while the slot's
piste is switched, and where the active piste does not carry its class (R14, R301, R302)? While no piste is active at all, every class
is sent: DESIGN CHOICE (log 76). -/
def State.holdsMsg (s : State) (m : FabMsg) : Bool :=
  match m.slot with
  | some b =>
    let j := s.cjob b
    s.fb.standin == 1 || has s.fb.parked b || j.switching.isSome || (match j.activeImage with
      | some i => !bitOf (pisteClasses i) (m.type / 16)
      | none => false)
  | none => false

/-- Sends a message of the job of a slot, or of none: class and type, destination logical ID, type-specific words, payload,
and the header's CONTEXT, STEP (the step in progress unless given) and CSEQ (R288). -/
def State.send (s : State) (slot : Option Nat) (type dst : Nat) (args : List Nat) (data : List Byte) (cx : Nat := 0)
    (step : Option Nat := none) (cseq : Nat := 0) : State :=
  let tag := (slot.map fun b => fld (s.rd 4 (Reg.COL_JOB_b_JTAG + 64 * b)) 15 0).getD 0
  let now := (slot.map fun b => (s.job b).step).getD 0
  let m : FabMsg :=
    { slot := slot, type := type, args := args, data := data,
      hdr := ⟨dst, s.fb.lid.getD 0, s.kd.rink, s.kd.seat, cx, tag, step.getD now, cseq, 0,
        (8 * (args.length - 1) + data.length + 15) / 16, args.headD 0 % 2 ^ 56⟩ }
  if s.holdsMsg m then { s with fb := { s.fb with held := s.fb.held ++ [m] } } else s.transmit m

/-- Sends what is held no longer, in order. -/
def State.flushHeld (s : State) : State :=
  s.fb.held.foldl (fun s m =>
    if s.holdsMsg m then { s with fb := { s.fb with held := s.fb.held ++ [m] } } else s.transmit m)
    { s with fb := { s.fb with held := [] } }
/-- Is a flit of a job slot's messages unsent or unacknowledged on some port (R14, R301)? -/
def State.unacked (s : State) (b : Nat) : Bool :=
  (List.range 32).any fun p =>
    ((s.port p).retry ++ (s.port p).queue).any fun f => f.slot == some b

-- Messages in transit, and messages that are lost (R289, R290, R304)

/-- A message that can go no further, of which `rest` is what is held behind its header: a request is answered UNREACHABLE, at its source
where it is the module's own; any other is discarded and counted. -/
def State.loseMessage (s : State) (transit : Bool) (slot : Option Nat) (head rest : List Byte) : State :=
  let w := readWire head
  if w.type ≥ 0x10 then { s with fb := { s.fb with discarded := s.fb.discarded + 1 } }
  else if transit then s.send none 0x17 w.hdr.src [] (head.take 32) w.hdr.ctx (some w.hdr.step) w.hdr.cseq
  else s.emit (.returned ⟨slot, w.type, w.hdr, [w.hdr.arg], rest⟩)
/-- The messages whose last flits a port that goes down still holds are lost. -/
def State.loseFlits (s : State) (l : List Flit) : State :=
  (l.foldl (fun (y : State × List (Option (Nat × Nat) × Nat × List Byte)) f =>
    let mine := fun (g : Option (Nat × Nat) × Nat × List Byte) => g.1 == f.from_ && g.2.1 == f.hdr.vc
    let b := ((y.2.find? mine).map (·.2.2)).getD [] ++ f.data
    let others := y.2.filter fun g => !mine g
    if f.hdr.last then
      (y.1.loseMessage f.from_.isSome f.slot f.head (if b.take 32 = f.head then b.drop 32 else b), others)
    else (y.1, others ++ [(f.from_, f.hdr.vc, b)])) (s, [])).1

/-- The next hop of a message that came in by a port in a VC and is for another module: the port, the VC, and the header as it goes on;
none where there is no way. A local hop takes the next channel; a global one the next after a global hop. -/
def State.onward (s : State) (p vc : Nat) (w : Wire) : Option (Nat × Nat × Wire) :=
  let me := s.kd.rink
  let own := s.kd.seat
  let shape := w.hdr.via % 4
  let vr := w.hdr.via / 4 % 256
  let vs := w.hdr.via / 2 ^ 10
  let base := 3 * (vc / 3)
  let c := vc % 3 + 1
  let g := if portRole p = 1 then c else vc % 3
  let rink := if shape = 2 ∧ me ≠ vr ∧ me ≠ w.rink then vr else w.rink
  let hop := fun (to_ : Nat) =>
    if s.portOk none (localPort own to_) then some (localPort own to_, base + c, w)
    else if shape = 0 ∧ rink = me ∧ c + 1 ≤ 2 then
      (s.detour none to_).map fun v => (localPort own v, base + c, { w with hdr := { w.hdr with via := viaBits 1 me v } })
    else none
  let x := s.exitFor rink w.hdr.src w.hdr.dst
  if rink ≠ me then
    if rink ≥ Config.rinks ∨ Config.rinks ≤ 1 then none
    else if x.1 ≠ own then (if c ≤ 2 then hop x.1 else none)
    else if g ≤ 2 ∧ s.portOk none x.2 then some (x.2, base + g, w) else none
  else if c > 2 then none
  else hop (if shape = 1 ∧ vr = me ∧ vs ≠ own ∧ portRole p = 1 then vs else w.seat)
/-- A flit that has arrived in order: one for this module is delivered and its place returned; one in transit waits at the port it goes
on by; the first flit of a request that can go nowhere is answered UNREACHABLE with its header, and any other message that can go
nowhere is discarded and counted. -/
def State.takeFlit (s : State) (p : Nat) (h : FlitHdr) (data : List Byte) : State :=
  let q := s.port p
  let w := readWire data
  let here := decide (0x30 ≤ w.type) || (w.rink == s.kd.rink && w.seat == s.kd.seat)
  let way := if h.first then
      (if here then none
        else (s.onward p h.vc w).map fun x => (x.1, x.2.1, wireBytes x.2.2.type x.2.2.rink x.2.2.seat x.2.2.hdr))
    else (q.ways.find? fun x => x.1 == h.vc).map (·.2)
  let ways := (q.ways.filter fun x => x.1 != h.vc) ++
    (match way with
      | some x => if h.last then [] else [(h.vc, x)]
      | none => [])
  match way with
  | some (o, v, head) =>
    let d := if h.first then head ++ data.drop 32 else data
    let s := s.setPort p { q with ways := ways }
    if (s.port o).state = 2 ∨ (s.port o).state = 3 then
      s.giveFlits o [⟨⟨0, v, h.first, h.last, 0, 0, false, 0, 0, h.len⟩, d, none, some (p, h.vc), head⟩]
    else
      let s := s.returnPlace (some (p, h.vc))
      if h.last then s.loseMessage true none head [] else s
  | none =>
    let s := s.setPort p { q with ways := ways, owed := tabSet (fun _ => 0) q.owed h.vc (tabGet (fun _ => 0) q.owed h.vc + 1) }
    if !h.first ∨ here then s else s.loseMessage true none (data.take 32) []

end Sys2Proof.Machine
end

