-- ==== Sys2Proof/Machine/Flags.lean ====
section
/-! DEFINITION. What events do to the flags of a step and the state of a context: range counters, taint, semaphores, error
records of the stove's blocks, context faults and ABORT (R17, R19, R20, R45, R86, R94 to R97, R106, R246, R297). -/

namespace Sys2Proof.Machine

/-- Context kinds (R245). -/
def Ctx.isJob (c : Ctx) : Bool := c.kind == 0
/-- An evaluation context. -/
def Ctx.isEval (c : Ctx) : Bool := c.kind == 1

-- Range counters

/-- Key of a range counter: stove, slot, format, class, counter kind (0 saturated, 1 flushed, 2 near limit). -/
def rcKey (st slot fmt cls kind : Nat) : Nat := 12 * (8 * (8 * st + slot) + fmt) + 3 * cls + kind
/-- A counter of the current bank. -/
def State.rc (s : State) (k : Nat) : Nat := tabGet (fun _ => 0) s.sw.rcCur k
/-- Adds to a counter of the current bank; it saturates (R45). -/
def State.rcAdd (s : State) (k n : Nat) : State :=
  { s with sw := { s.sw with rcCur := tabSet (fun _ => 0) s.sw.rcCur k (satAdd 0xFFFFFFFF (s.rc k) n) } }
/-- Counts the range events of a job on a stove. -/
def State.tally (s : State) (st slot : Nat) (f : Fmt) (k : Cls) (t : Tally) : State :=
  ((s.rcAdd (rcKey st slot f.rc k.code 0) t.sat).rcAdd (rcKey st slot f.rc k.code 1) t.flush).rcAdd
    (rcKey st slot f.rc k.code 2) t.near
/-- Counts the range events of a context's unit on a stove, for the job of its slot; a service context has none (R45, R245). That
an evaluation context's events count for the job of its slot is DEDUCED (log 46). -/
def State.tallyAt (s : State) (st c : Nat) (f : Fmt) (k : Cls) (t : Tally) : State :=
  if (s.ctx c).isJob ∨ (s.ctx c).isEval then s.tally st (s.ctx c).slot f k t else s
/-- Counts the range events of a unit of the context's own stove. -/
def State.tallyCtx (s : State) (c : Nat) (f : Fmt) (k : Cls) (t : Tally) : State := s.tallyAt (stoveOf c) c f k t
/-- T2 codes 0b10 among the elements that an instruction takes, each counted once however many of its operands name it, under the
class of the first (R23). -/
def State.tallyT2 (s : State) (c : Nat) (l : List (View × List (Nat × Nat))) : State :=
  (l.foldl (fun (w : State × List Nat) p =>
    let new := ((s.badT2 c p.1 p.2).eraseDups).filter fun a => !has w.2 a
    (w.1.tallyCtx c .t2 p.1.cls ⟨new.length, 0, 0⟩, w.2 ++ new)) (s, [])).1
/-- Begins new banks on the four stoves for a slot (R45). -/
def State.rotateBanks (s : State) (slot : Nat) : State :=
  let mine := fun (k : Nat) => decide (k / 96 % 8 = slot)
  let cur := s.sw.rcCur.filter fun p => mine p.1
  let prev := (s.sw.rcPrev.filter fun p => !mine p.1)
  { s with sw := { s.sw with
      rcCur := s.sw.rcCur.filter fun p => !mine p.1
      rcPrev := cur.foldl (fun t p => tabPut t p.1 p.2) prev } }
/-- The overflow flag of R46. -/
def State.overflowFlag (s : State) (slot : Nat) : Bool :=
  (List.range 4).any fun st => (List.range 8).any fun f => decide (s.rc (rcKey st slot f 2 0) ≠ 0)

/-- The dither inputs of a context's roundings (R40, R42, R44). With no step of its slot in progress, a job context draws with the
number of the next step, and with no sweep committed an evaluation context draws with step number 0: DESIGN CHOICE (log 47). -/
def State.draw (s : State) (c : Nat) : Draw :=
  let x := s.ctx c
  let seed := Config.jobSeed (s.rd 4 (Reg.COL_JOB_b_JTAG + 64 * x.slot))
  if x.kind = 0 then ⟨seed, (s.job x.slot).step⟩
  else if x.kind = 1 then ⟨seed, s.epoch (stoveOf c) x.slot - 1⟩
  else ⟨0, 0⟩
/-- The dither inputs of a job. -/
def State.jobDraw (s : State) (slot : Nat) : Draw :=
  ⟨Config.jobSeed (s.rd 4 (Reg.COL_JOB_b_JTAG + 64 * slot)), (s.job slot).step⟩

-- Taint

/-- A tainting event of a job (R17): of the step in progress, or held for the next one. -/
def State.taint (s : State) (slot : Nat) : State :=
  s.modJob slot fun j => if j.inStep then { j with taint := true } else { j with heldTaint := true }
/-- A tainting event in a context: a job context taints its step (R17, R97). -/
def State.taintCtx (s : State) (c : Nat) : State := if (s.ctx c).isJob then s.taint (s.ctx c).slot else s
/-- Skips, slips and the events handled like them (R97): a job's step is tainted, an evaluation context's sequencer is
marked. -/
def State.taintSeq (s : State) (st sq c : Nat) : State :=
  if (s.ctx c).isJob then s.taint (s.ctx c).slot
  else if (s.ctx c).isEval then s.modSeq st sq fun q => { q with evalInvalid := true }
  else s

-- Error records of the stove's blocks

/-- Where an instruction stands: stove, sequencer, opcode, context, program counter. -/
structure Src where
  st : Nat
  sq : Nat
  op : Nat
  ctx : Nat
  pc : Nat
deriving DecidableEq, Repr

/-- A SEQ record (R100), in the group page. -/
def State.seqLog (s : State) (x : Src) (code detail : Nat) : State :=
  let q := s.seq x.st x.sq
  s.logErr x.st 0x10 ⟨pack [(code, 0), (x.sq, 8), (x.op, 16)], pack [(x.ctx, 0), (q.slot, 12), (q.half, 17)], w32 x.pc,
    w32 detail⟩
/-- An STK record (R260). -/
def State.stkLog (s : State) (st code reason op ctx detail : Nat) : State :=
  s.logErr st 0xB0 ⟨pack [(code, 0), (reason, 8), (op, 16)], w32 ctx, w32 detail, 0⟩
/-- Slice, way and set of a line of HBM (R140); which way holds it is not stated. -/
def lineSpot (any line : Nat) : Nat × Nat × Nat :=
  ((bits line 5 0 ^^^ bits line 11 6) ^^^ bits line 17 12, any % 16, bits line 15 6)
/-- Slice, way and set of line n of a slot's reduction ways (kind 2) or merge ways (kind 3) (R144, R150); a line beyond them has none. -/
def State.waySpot (s : State) (st kind slot n : Nat) : Nat × Nat × Nat :=
  let w := s.wayList st kind slot
  if n < 65536 * w.length then (n % 64, nth 0 w (n / 64 / 1024), n / 64 % 1024) else (0, 0, 0)
/-- An HTH record (R157). Codes 1 to 3 name a line of memory, or with kind 2 the line of a local element of a buffer, with kind 3 a line
of a merge area; 4 to 7 name a local element, or with kind 3 a line of a merge area. -/
def State.hthLog (s : State) (st code ctx slot win pass loc ordinal : Nat) (syndrome : Nat := 0) (kind : Nat := 0) : State :=
  let p :=
    if kind = 3 then s.waySpot st 3 slot loc
    else if kind = 2 ∨ (4 ≤ code ∧ code ≤ 7) then s.waySpot st 2 slot (loc / 64)
    else if 1 ≤ code ∧ code ≤ 3 then lineSpot (Config.freeW16 s.free 1).toNat loc
    else (0, 0, 0)
  s.nextFree.logErr st 0x60
    ⟨pack [(code, 0), (p.1, 8), (p.2.1, 14), (p.2.2, 18)], pack [(ctx, 0), (slot, 12), (win, 16), (pass, 20)], w32 loc,
      pack [(loc / 2 ^ 32 % 8, 0), (syndrome, 8), (ordinal % 65536, 16)]⟩
/-- The syndrome of an error that no operand gives: a free value. -/
def State.anySyndrome (s : State) : Nat := (Config.freeByte s.free 0).toNat
/-- A COL record (R306), in both chimneys' page. -/
def State.colLog (s : State) (code slot reason peer ctx cseq detail : Nat) : State :=
  s.logErr 4 0xE0 ⟨pack [(code, 0), (slot, 8), (reason, 12)], pack [(peer, 0), (ctx, 12)], w32 cseq, w32 detail⟩
/-- An SPD record (R118). -/
def State.spdLog (s : State) (st code ctx lift x syndrome consumer : Nat) : State :=
  s.logErr st 0x30 ⟨pack [(code, 0), (x / 0x800000 % 64, 8), (x / 64 % 16, 14)], pack [(ctx, 0), (lift, 12)],
    w32 (x % 0x800000), pack [(syndrome, 0), (consumer, 8)]⟩
/-- An HBM record (R242). -/
def State.hbmLog (s : State) (st code stack pc cls ctx cause addr syndrome : Nat) : State :=
  s.logErr st 0x90 ⟨pack [(code, 0), (stack, 8), (pc, 11), (cls, 16)], pack [(ctx, 0), (cause, 12)], w32 addr,
    pack [(addr / 2 ^ 32 % 65536, 0), (syndrome, 16)]⟩

-- Semaphores (R86)

/-- A semaphore's count. -/
def Ctx.sem (c : Ctx) (k : Nat) : Nat := tabGet (fun _ => 0) c.sems k
/-- Sets a count. -/
def Ctx.setSem (c : Ctx) (k n : Nat) : Ctx := { c with sems := tabSet (fun _ => 0) c.sems k n }
/-- Posts to a semaphore of a context, which wakes its stove (R255); one that would exceed 65,535 stays there, is logged and taints
(R86). -/
def State.semPost (s : State) (x : Src) (k n : Nat) : State :=
  let c := s.ctx x.ctx
  let s' := (s.wakeStove (stoveOf x.ctx)).setCtx x.ctx (c.setSem k (satAdd 65535 (c.sem k) n))
  if c.sem k + n > 65535 then ((s'.seqLog x 7 0).raise x.st 0x10 7).taintSeq x.st x.sq x.ctx else s'
/-- The post of an instruction. -/
def State.postOpt (s : State) (x : Src) : Option Nat → State
  | some k => s.semPost x k 1
  | none => s

-- Lines, chairs and the end of flights

/-- Lines of a flight that it still holds pending become ready (R95). -/
def State.readyLines (s : State) (f : Flight) : State :=
  f.lines.foldl (fun s l =>
    let k := 2 ^ 22 * f.st + l
    let t := tabGet (fun _ => ({} : Tag)) s.sp.tags k
    if t.pending ∧ t.epoch = f.epoch % 65536 then
      { s with sp := { s.sp with tags := tabSet (fun _ => ({} : Tag)) s.sp.tags k { t with pending := false } } }
    else s) s
/-- Replaces entry `n` of a list that is as long as needed, filled with zeros. -/
def setNth (l : List Nat) (n v : Nat) : List Nat :=
  (l ++ List.replicate (n + 1 - l.length) 0).set n v
/-- A reader of a chair completes: the last one of a RELEASING chair empties it (R109, R110). -/
def State.dropReader (s : State) (st : Nat) (p : Nat × Nat) : State :=
  let l := s.lift st p.1
  let n := nth 0 l.readers p.2 - 1
  s.setLift st p.1 { l with
    readers := setNth l.readers p.2 n
    chairs := if n = 0 ∧ l.chair p.2 = 3 then setNth l.chairs p.2 0 else l.chairs }
/-- A flight ends: its lines become ready, its chair readers are released, it leaves the list. -/
def State.endFlight (s : State) (f : Flight) : State :=
  (f.chairs.foldl (fun s p => s.dropReader f.st p) (s.readyLines f)).dropFlight f.id
/-- Where a flight's records point. -/
def Flight.src (f : Flight) : Src := ⟨f.st, f.sq, f.opcode, f.ctx, f.pc⟩

-- The members of a job

/-- The register key of a COL job word (R306). -/
def colReg (b r : Nat) : Nat := r + 64 * b
/-- The context whose address space holds a job's lists (R294). -/
def State.dirCtx (s : State) (b : Nat) : Nat := fld (s.rd 0 (Reg.EMB_JOB_b_TDIR_HI + 32 * b)) 27 16
/-- The number of members (R294). -/
def State.memberCount (s : State) (b : Nat) : Nat := fld (s.rd 4 (colReg b Reg.COL_JOB_b_MEM_HI)) 28 16
/-- A job's members in ascending logical ID (R294). -/
def State.members (s : State) (b : Nat) : List Nat :=
  let a := s.rdN 4 (colReg b Reg.COL_JOB_b_MEM_LO) + 2 ^ 32 * fld (s.rd 4 (colReg b Reg.COL_JOB_b_MEM_HI)) 15 0
  (List.range (s.memberCount b)).map fun k => leNat (s.vrdN (s.dirCtx b) (a + 2 * k) 2) % 4096
/-- The module's position among them (R306). -/
def State.position (s : State) (b : Nat) : Option Nat := s.fb.lid.bind fun l => (s.members b).idxOf? l
/-- Sends a message to every other member of a job. -/
def State.broadcast (s : State) (b type : Nat) (args : List Nat) (data : List Byte) : State :=
  (s.members b).foldl (fun s m => if some m = s.fb.lid then s else s.send (some b) type m args data) s

-- Undefined destinations and ABORT

/-- Fills a view with undefined bytes, or undefined elements of a reduction buffer (R297). -/
def State.fillFree (s : State) (c : Nat) (v : View) : State :=
  let n := s.free
  let s := s.nextFree
  match v.place with
  | .rb =>
    (List.range v.size).foldl (fun s i =>
      s.setElem (s.ctx c).slot (v.rbElem (i / v.cols) (i % v.cols))
        ((Config.freeByte n (2 * i)).append (Config.freeByte n (2 * i + 1)))) s
  | _ =>
    v.ranges.zipIdx.foldl (fun s p =>
      s.putBytes c v (p.1.1 - v.addr) ((List.range p.1.2).map fun i => Config.freeByte n (2 ^ 32 * p.2 + i))) s
/-- A collective ends at once with its destination undefined; its semaphore is posted (R297). -/
def State.voidColl (s : State) (f : Flight) : State :=
  match f.body with
  | .coll p => ((s.fillFree f.ctx p.b).endFlight f).postOpt f.src f.post
  | _ => s
/-- ABORT of a step (R297): sent once to every member, or received from a peer; logged, the step tainted, every collective of it ended. -/
def State.abortStep (s : State) (b : Nat) (send : Bool) (peer : Nat := 0) : State :=
  let j := s.job b
  let s := if send then s.broadcast b 0x23 [b, j.step] [] else s
  let s := ((s.colLog 0x0B b 0 peer 0 0 j.step).raise 4 0xE0 11).taint b
  let s := s.modJob b fun j => { j with abortSeen := true }
  s.sq.flights.foldl (fun s f =>
    match f.body with
    | .coll p => if p.slot = b then s.voidColl f else s
    | _ => s) s
/-- A job context of the slot is stopped or faulted before the module's contribution (R297). -/
def State.abortJob (s : State) (b : Nat) : State :=
  let j := s.job b
  if j.inStep ∧ !j.sent ∧ !j.abortSeen then s.abortStep b true else s

-- Halves of a program slot (R68, R71)

/-- The state of half h. -/
def PSlot.st (p : PSlot) (h : Nat) : Nat := if h = 0 then p.stA else p.stB
/-- Sets the state of half h. -/
def PSlot.setSt (p : PSlot) (h v : Nat) : PSlot := if h = 0 then { p with stA := v } else { p with stB := v }
/-- Does a sequencer run half h of slot k, or may it resume there? -/
def Seq.uses (q : Seq) (k h : Nat) : Bool :=
  q.ctx.isSome && q.slot == k && q.half == h && (decide (1 ≤ q.state ∧ q.state ≤ 4) || q.resumable)
/-- The sequencers of a stove that run half h of slot k. -/
def State.users (s : State) (st k h : Nat) : Nat := ((List.range 64).filter fun n => (s.seq st n).uses k h).length
/-- A half that its last user has left becomes the inactive half (R71). -/
def State.drainHalf (s : State) (st k h : Nat) : State :=
  let p := s.slot st k
  if p.st h = 5 ∧ s.users st k h = 0 then (s.setSlot st k (p.setSt h 0)).raise st 0x10 4 else s
/-- A boundary of a slot: its pending half becomes the active one, the old one drains (R71). -/
def State.switchSlot (s : State) (st k : Nat) : State :=
  let p := s.slot st k
  let n := 1 - p.active
  if p.pending then
    s.setSlot st k { (p.setSt n 4).setSt p.active (if p.st p.active = 4 then 5 else p.st p.active) with
      active := n, pending := false }
  else s

-- Context faults

/-- Ends what a faulted context's flights were doing, but fills and beats that run (R95, R115, R246). A switch of the job's piste is the
job's and goes on, with no post (R14). -/
def State.endFlightsOf (s : State) (c : Nat) : State :=
  s.sq.flights.foldl (fun s f =>
    if f.ctx ≠ c then s
    else
      match f.body with
      | .fill .. => s
      | .piste .. => s.putFlight { f with post := none }
      | .product p => (s.readyLines f).putFlight { f with lines := [], post := none, body := .product { p with ended := true } }
      | _ => s.endFlight f) s
/-- Faults a context (R246): its sequencers stop, its lease stays bound, the first fault's code and block are kept. An ended
product that runs nowhere leaves too, and a failed beat is not re-executed (R63). -/
def State.faultCtx (s : State) (c code type : Nat) : State :=
  let x := s.ctx c
  if x.state = 4 ∨ !x.valid then s
  else
    let s := s.setCtx c { x with state := 4, fault := code, faultType := type, waiters := [] }
    let st := stoveOf c
    let s := (List.range 64).foldl (fun s n =>
      let q := s.seq st n
      if q.ctx = some c ∧ 1 ≤ q.state ∧ q.state ≤ 4 then
        ((s.setSeq st n { q with state := 6, waitKind := 0, atEnd := false, switchTo := none }).switchSlot st q.slot).drainHalf st
          q.slot q.half
      else s) s
    let s := (s.endFlightsOf c).raise st 0xB0 2
    let mine := fun (b : FailedBeat) => s.sq.flights.any fun f => f.id == b.run.fid && f.ctx == c
    let s := { s with ar := { s.ar with failed := s.ar.failed.filter fun b => !mine b } }
    let running := fun (f : Flight) => s.ar.arrays.any fun a => (a.2.run.map (·.fid)) == some f.id
    let s := s.sq.flights.foldl (fun s f =>
      match f.body with
      | .product p => if f.ctx = c ∧ p.ended ∧ !running f then s.endFlight f else s
      | _ => s) s
    if x.isJob then s.abortJob x.slot else s
/-- A fault that taints a job context's step; an evaluation context is faulted only (R17, R20, R106). -/
def State.fail (s : State) (c code type : Nat) : State := (s.taintCtx c).faultCtx c code type

end Sys2Proof.Machine
end

