-- ==== Sys2Proof/Machine/Cache.lean ====
section
/-! DEFINITION. How memory is reached: the lines that the hearths cache and replace (R55, R139 to R142), the translation caches and
the accesses they count (R231, R232), the requests that the controllers serve (R236), and what keeps an access from its data: a
broken page table, a failed part, an uncorrectable word, a lost line (R143, R228, R230, R240, R241). -/

namespace Sys2Proof.Machine

-- Counters

/-- A hearth counter (R157): 0 read hits, 1 read misses, 2 misses merged, 3 weight-way hits, 4 re-fetches, 5 lines written back. -/
def State.hthCount (s : State) (st k : Nat) : Nat := tabGet (fun _ => 0) s.ca.counts (8 * st + k)
/-- Adds to a hearth counter; it saturates. -/
def State.hthBump (s : State) (st k n : Nat) : State :=
  { s with ca := { s.ca with counts := tabSet (fun _ => 0) s.ca.counts (8 * st + k) (satAdd 0xFFFFFFFF (s.hthCount st k) n) } }
/-- The requests that a stack's controller has served in a class (R242). -/
def State.servedOf (s : State) (st stack cls : Nat) : Nat := tabGet (fun _ => 0) s.ca.served (4 * (5 * st + stack) + cls)
/-- A request to the HBM controller of an address, in a class (R236); the count wraps. -/
def State.serve (s : State) (a cls : Nat) : State :=
  match s.hbmPlace a with
  | some (st, p, _) =>
    { s with ca := { s.ca with
        served := tabSet (fun _ => 0) s.ca.served (4 * (5 * st + p / 32) + cls) ((s.servedOf st (p / 32) cls + 1) % 2 ^ 32) } }
  | none => s

-- Lines (R55, R140 to R142)

/-- Slice and set of a line (R140). -/
def lineSet (l : Nat) : Nat × Nat := ((bits l 5 0 ^^^ bits l 11 6) ^^^ bits l 17 12, bits l 15 6)
/-- The cached line of a module address. -/
def State.hline (s : State) (a : Nat) : Option HLine := s.ca.lines.find? fun h => h.line == a / 128
/-- The bound window of a context that holds a whole range (R154). -/
def State.windowOf (s : State) (st c va len : Nat) : Option Nat :=
  (List.range 16).find? fun w =>
    let g := s.awin st w
    g.bound && (s.ctx g.ctx).aspace == (s.ctx c).aspace && decide (g.va ≤ va ∧ va + len ≤ g.va + g.len)
/-- The partition that a line of a context's memory goes to (R141): the atomic ways of its window, the weight ways of the context
for a chain fetch, else the general ways. -/
def State.lineKind (s : State) (c va a : Nat) (chain : Bool) : Nat × Nat :=
  let st := a / hbmRegion
  match s.windowOf st c (128 * (va / 128)) 128 with
  | some w => (5, (s.awin st w).ctx)
  | none => if chain then (1, c) else (0, 0)
/-- Forgets a cached line; a dirty one is written back. -/
def State.evictLine (s : State) (h : HLine) : State :=
  let s := { s with ca := { s.ca with lines := s.ca.lines.erase h } }
  if h.dirty then (s.hthBump (128 * h.line / hbmRegion) 5 1).serve (128 * h.line) 2 else s
/-- Makes room for a line in its partition: the least recently used of the partition's lines in the line's set leaves it. A chain
line that leaves its weight ways is kept in mind (R55). -/
def State.makeRoom (s : State) (kind owner l ways : Nat) : State :=
  let st := 128 * l / hbmRegion
  let mine := s.ca.lines.filter fun h =>
    h.kind == kind && h.owner == owner && 128 * h.line / hbmRegion == st && lineSet h.line == lineSet l
  if mine.length < ways ∨ kind = 5 then s
  else
    match mine with
    | h :: _ =>
      let s := s.evictLine h
      if kind = 1 then { s with ca := { s.ca with evicted := (owner, h.line) :: s.ca.evicted.erase (owner, h.line) } } else s
    | [] => s
/-- A partition that has lost ways gives up, in each set, the least recently used of its lines that the ways left do not hold
(R249). -/
def State.trimLines (s : State) (st kind owner : Nat) : State :=
  let n := (s.wayList st kind owner).length
  let mine := fun (h : HLine) => h.kind == kind && h.owner == owner && 128 * h.line / hbmRegion == st
  let gone := (s.ca.lines.zipIdx.filter fun h => mine h.1 &&
    decide (n ≤ ((s.ca.lines.drop (h.2 + 1)).filter fun g => mine g && lineSet g.line == lineSet h.1.line).length)).map (·.1)
  gone.foldl (fun s h => s.evictLine h) s
/-- One access to a 128-byte line of HBM through its home hearth (R142): a hit makes it the most recently used; a miss reads HBM
unless the write fills the line, and takes a place in the line's partition where that has ways. `busy`: the line is already being
fetched by another miss of the same moment, which this one joins. -/
def State.hearthLine (s : State) (kind owner a cls : Nat) (write full busy : Bool) : State :=
  let st := a / hbmRegion
  let l := a / 128
  let chain := kind == 1
  let s := s.wakeHbm a
  match s.hline a with
  | some h =>
    let s := { s with ca := { s.ca with lines := s.ca.lines.erase h ++ [{ h with dirty := h.dirty || write }] } }
    if busy then s.hthBump st 2 1 else if chain then s.hthBump st 3 1 else if write then s else s.hthBump st 0 1
  | none =>
    if busy then s.hthBump st 2 1
    else
      let s := if write then s else s.hthBump st 1 1
      let s := if chain ∧ s.ca.evicted.contains (owner, l) then s.hthBump st 4 1 else s
      let s := if write && full then s else s.serve a cls
      let ways := (s.wayList st kind owner).length
      if ways = 0 then (if write then s.serve a 2 else s)
      else
        let s := s.makeRoom kind owner l ways
        { s with ca := { s.ca with lines := s.ca.lines ++ [⟨l, kind, owner, write⟩] } }
/-- Writes back every dirty line that satisfies a test; the lines stay. -/
def State.cleanLines (s : State) (p : HLine → Bool) : State :=
  let s := (s.ca.lines.filter fun h => h.dirty && p h).foldl (fun s h =>
    (s.hthBump (128 * h.line / hbmRegion) 5 1).serve (128 * h.line) 2) s
  { s with ca := { s.ca with lines := s.ca.lines.map fun h => if p h then { h with dirty := false } else h } }
/-- Writes back and forgets every line that satisfies a test. -/
def State.dropLines (s : State) (p : HLine → Bool) : State :=
  let s := s.cleanLines p
  { s with ca := { s.ca with lines := s.ca.lines.filter fun h => !p h } }

-- Translation (R231, R232)

/-- The key of an address space's first-level table among the tables; key 512 × space + n is its n-th second-level table. -/
def topKey (owner : Nat) : Nat := 2 ^ 21 + owner
/-- Adds the accesses that a translation entry has counted to COUNT. -/
def State.addCount (s : State) (space page n : Nat) : State :=
  let p := s.pte space page
  if p.valid ∧ n ≠ 0 then s.setPte space page { p with count := satAdd 65535 p.count n } else s
/-- Where the second-level entry of a page lies (R231). -/
def State.entryAddr (s : State) (space page : Nat) : Option Nat :=
  (s.tr.tables.find? fun t => t.1 == 512 * space + page / 262144).map fun t => 2 ^ 21 * t.2 + 8 * (page % 262144)
/-- Where the first-level entry above a page lies (R231). -/
def State.topAddr (s : State) (space page : Nat) : Option Nat :=
  (s.tr.tables.find? fun t => t.1 == topKey space).map fun t => 2 ^ 21 * t.2 + 8 * (page / 262144)
/-- A read of a table entry by a walk: latency-critical, through the home hearth (R140, R232, R236). -/
def State.walkRead (s : State) : Option Nat → State
  | some a => s.hearthLine 0 0 a 0 false false false
  | none => s
/-- A walk on a stove reads the first-level entry, where it is not among the 64 that the stove caches, then the second-level entry
(R232). -/
def State.walk (s : State) (st space page : Nat) : State :=
  let k := (st, 512 * space + page / 262144)
  let s := if s.ca.tops.contains k then s else s.walkRead (s.topAddr space page)
  let l := s.ca.tops.filter (· != k)
  let mine := l.filter (·.1 == st)
  let l := if mine.length < 64 then l else l.erase (mine.headD k)
  ({ s with ca := { s.ca with tops := l ++ [k] } } : State).walkRead (s.entryAddr space page)
/-- Is a page's entry cached on a stove? -/
def State.tlbHit (s : State) (st space page : Nat) : Bool :=
  s.ca.tlb.any fun e => e.st == st && e.space == space && e.page == page
/-- A stove counts `n` accesses to a page: in the cached entry, which a miss walks for and for which the least recently used of
4,096 leaves, its count going to COUNT. -/
def State.touchPage (s : State) (st space page n : Nat) : State :=
  match s.ca.tlb.find? fun e => e.st == st && e.space == space && e.page == page with
  | some e => { s with ca := { s.ca with tlb := s.ca.tlb.erase e ++ [{ e with count := satAdd 65535 e.count n }] } }
  | none =>
    let s := s.walk st space page
    let mine := s.ca.tlb.filter fun e => e.st == st
    let s := match mine with
      | e :: _ =>
        if mine.length < 4096 then s
        else ({ s with ca := { s.ca with tlb := s.ca.tlb.erase e } } : State).addCount e.space e.page e.count
      | [] => s
    { s with ca := { s.ca with tlb := s.ca.tlb ++ [⟨st, space, page, n⟩] } }
/-- Invalidates the translation entries that satisfy a test; what they have counted goes to COUNT. -/
def State.dropTlb (s : State) (p : Tlb → Bool) : State :=
  (s.ca.tlb.filter p).foldl (fun s e => s.addCount e.space e.page e.count)
    { s with ca := { s.ca with tlb := s.ca.tlb.filter fun e => !p e } }
/-- What a stove's translation entries have counted goes to COUNT at its decay period. -/
def State.flushTlb (s : State) (st : Nat) : State :=
  (s.ca.tlb.filter fun e => e.st == st).foldl (fun s e => s.addCount e.space e.page e.count)
    { s with ca := { s.ca with tlb := s.ca.tlb.map fun e => if e.st = st then { e with count := 0 } else e } }

-- Accesses

/-- The 128-byte lines of virtual memory that ranges touch. -/
def rangeLines (rs : List (Nat × Nat)) : List Nat :=
  (rs.flatMap fun r => (List.range (if r.2 = 0 then 0 else (r.1 + r.2 - 1) / 128 + 1 - r.1 / 128)).map (· + r.1 / 128)).eraseDups
/-- Does one of the ranges hold the `n` bytes at `a`? -/
def coversAll (rs : List (Nat × Nat)) (a n : Nat) : Bool := rs.any fun r => decide (r.1 ≤ a ∧ a + n ≤ r.1 + r.2)
/-- An access by a stove to ranges of a context's memory, for each 128-byte line of them: counted in the page's entry (R232), and made
through the home hearth where the page lies in HBM (R140). -/
def State.reachAs (s : State) (st c : Nat) (rs : List (Nat × Nat)) (write chain : Bool) (cls : Nat) (busy : List Nat) : State :=
  (rangeLines rs).foldl (fun s l =>
    let va := 128 * l
    match s.vaAddr c va with
    | none => s
    | some a =>
      let s := s.touchPage st (s.ctx c).aspace (va / 2 ^ 21) 1
      if s.inHbm a then
        let k := s.lineKind c va a chain
        s.hearthLine k.1 k.2 a cls write (coversAll rs va 128) (busy.contains (a / 128))
      else s) s
/-- A read of ranges of a context's memory by a unit of its stove. -/
def State.reach (s : State) (c : Nat) (rs : List (Nat × Nat)) : State := s.reachAs (stoveOf c) c rs false false 1 []
/-- Ranges of a context's memory that a full overwrite renews: units that are uncorrectable, and lines that are lost, no longer are
where the write covers them whole (R143, R241). -/
def State.renew (s : State) (c : Nat) (rs : List (Nat × Nat)) : State :=
  let s := if s.tr.bad.isEmpty then s
    else
      let whole := fun (a : Nat) => (rangeLines rs).any fun l => (List.range 4).any fun k =>
        let n := if s.inCold a then 64 else 32
        s.vaAddr c (128 * l + n * k) == some a && coversAll rs (128 * l + n * k) n
      { s with tr := { s.tr with bad := s.tr.bad.filter fun a => !whole a } }
  if s.ht.lost.isEmpty then s
  else
    (rangeLines rs).foldl (fun s l =>
      match s.vaAddr c (128 * l) with
      | some a =>
        if has s.ht.lost (a / 128) ∧ coversAll rs (128 * l) 128 then
          ({ s with ht := { s.ht with lost := s.ht.lost.filter (· != a / 128) } } : State)
        else s
      | none => s) s
/-- A write to ranges of a context's memory by a unit of its stove. -/
def State.reachW (s : State) (c : Nat) (rs : List (Nat × Nat)) : State :=
  (s.reachAs (stoveOf c) c rs true false 2 []).renew c rs
/-- The ranges of a view that lie in virtual memory. -/
def View.vranges (v : View) : List (Nat × Nat) := if v.place = .virt then v.ranges else []

-- Die-to-die links (R263)

/-- UCIe modules of link end k of a die (Scope, R279): one to the host, 12 to each neighbouring stove, 8 between a stove and its
chimney. -/
def linkModules (die k : Nat) : Nat :=
  if die < 4 then [1, 12, 12, 8].getD k 0
  else if die < 6 then [1, 8, 8].getD k 0
  else if die = 6 then (if k < 6 then 1 else 0) else 0
/-- The die at the other end of link end k (R279). -/
def linkPeer (die k : Nat) : Nat :=
  if die < 4 then [6, die ^^^ 1, die ^^^ 2, 4 + die % 2].getD k 0
  else if die < 6 then [6, die - 4, die - 2].getD k 0
  else k
/-- Is every module of a link end down? -/
def State.endDown (s : State) (die k : Nat) : Bool := (List.range (linkModules die k)).all fun m => s.umod die k m == 0
/-- Is the link between two dies down, by either of its ends? -/
def State.linkDown (s : State) (a b : Nat) : Bool :=
  s.uc.mods.any (fun m => m.2 == 0) && (List.range 6).any fun k =>
    (linkModules a k != 0 && linkPeer a k == b && s.endDown a k) ||
      (linkModules b k != 0 && linkPeer b k == a && s.endDown b k)
/-- Can a stove's requests not reach another stove, or a chimney: the far one lies behind the neighbour in the same row, a diagonal
stove behind either neighbour (R144, R229, R238)? -/
def State.pathDown (s : State) (st d : Nat) : Bool :=
  if s.uc.mods.all (fun m => m.2 != 0) || st == d then false
  else if d < 4 then
    if st ^^^ d = 3 then
      (s.linkDown st (st ^^^ 1) || s.linkDown (st ^^^ 1) d) && (s.linkDown st (st ^^^ 2) || s.linkDown (st ^^^ 2) d)
    else s.linkDown st d
  else if d = 4 + st % 2 then s.linkDown st d
  else s.linkDown st (st ^^^ 1) || s.linkDown (st ^^^ 1) d
/-- Do a die's requests not reach another: the host die has a link to each, a stove the paths of its own (R261, R263)? -/
def State.unreached (s : State) (from_ die : Nat) : Bool := if from_ = 6 then s.linkDown 6 die else s.pathDown from_ die
/-- The die that serves a memory address: the stove, or the chimney of its package. -/
def State.dieOf (s : State) (a : Nat) : Nat :=
  if inSpd a then (a - spdBase) / 0x40000000
  else if s.inCold a then 4 + ((s.coldPlace a).map (·.1)).getD 0 / 16 else a / hbmRegion

-- What keeps an access from its data

/-- Why data cannot be had: a page table entry that cannot be read, a link that is down, a part that has failed in service, an
uncorrectable word, a lost line, an uncorrectable scratchpad word met by a consumer, each at a module address. -/
inductive MemBad where
  | walk (a : Nat)
  | link (a : Nat)
  | part (a : Nat)
  | word (a : Nat)
  | line (a : Nat)
  | spd (a consumer : Nat)
deriving DecidableEq, Repr

/-- Does an address lie in a pseudo-channel or package that has failed in service (R240)? -/
def State.partDown (s : State) (a : Nat) : Bool :=
  if s.inCold a then (match s.coldPlace a with | some p => has s.tr.pkgFail p.1 | none => false)
  else match s.hbmPlace a with
    | some (st, p, _) => has s.tr.pcFail (160 * st + p)
    | none => false
/-- The unit of memory that an address lies in (R105, R228, R230). -/
def State.unitAt (s : State) (a : Nat) : Nat := if s.inCold a then 64 * (a / 64) else if inSpd a then 8 * (a / 8) else 32 * (a / 32)
/-- The scratchpad words of a view: window offset and module address (R105). -/
def State.viewWords (s : State) (c : Nat) (v : View) : List (Nat × Nat) :=
  if v.place = .spd then
    v.ranges.flatMap fun r =>
      (List.range (if r.2 = 0 then 0 else (r.1 + r.2 - 1) / 8 + 1 - r.1 / 8)).filterMap fun k =>
        (s.winAddr c (8 * (r.1 / 8 + k))).map fun a => (8 * (r.1 / 8 + k), a)
  else []
/-- The first word of views that is uncorrectable; a write needs nothing of a word that it covers whole (R106). -/
def State.spdBad (s : State) (c : Nat) (vs : List View) (write : Bool) : Option Nat :=
  if s.tr.bad.any inSpd then
    vs.findSome? fun v =>
      ((s.viewWords c v).find? fun w => has s.tr.bad w.2 && !(write && coversAll v.ranges w.1 8)).map (·.2)
  else none
/-- Words that a write covers whole are no longer uncorrectable (R106). -/
def State.renewSpd (s : State) (c : Nat) (vs : List View) : State :=
  if s.tr.bad.any inSpd then
    let whole := vs.flatMap fun v => ((s.viewWords c v).filter fun w => coversAll v.ranges w.1 8).map (·.2)
    { s with tr := { s.tr with bad := s.tr.bad.filter fun a => !has whole a } }
  else s
/-- What keeps an access to ranges of a context's memory from its data. A write that covers an uncorrectable unit or a lost line
whole needs nothing of it (R143, R228). -/
def State.memBad (s : State) (st c : Nat) (rs : List (Nat × Nat)) (write : Bool) : Option MemBad :=
  let sp := (s.ctx c).aspace
  if s.tr.broken.isEmpty && s.tr.pcFail.isEmpty && s.tr.pkgFail.isEmpty && s.tr.bad.isEmpty && s.ht.lost.isEmpty &&
      s.uc.mods.isEmpty then none
  else
    let walk := if has s.tr.broken sp then
        (rangeLines rs).findSome? fun l =>
          if s.tlbHit st sp (128 * l / 2 ^ 21) then none else s.entryAddr sp (128 * l / 2 ^ 21)
      else none
    walk.map MemBad.walk <|> (rangeLines rs).findSome? fun l =>
      (List.range 4).findSome? fun k =>
        let va := 128 * l + 32 * k
        match s.vaAddr c va with
        | none => none
        | some a =>
          let n := if s.inCold a then 64 else 32
          if !(rs.any fun r => decide (r.2 ≠ 0 ∧ r.1 < va + 32 ∧ va < r.1 + r.2)) then none
          else if s.pathDown st (s.dieOf a) then some (.link a)
          else if s.partDown a then some (.part a)
          else if has s.tr.bad (s.unitAt a) && !(write && coversAll rs (n * (va / n)) n) then some (.word (s.unitAt a))
          else if has s.ht.lost (a / 128) && !(write && coversAll rs (128 * l) 128) then some (.line a)
          else none

end Sys2Proof.Machine
end

