-- ==== Sys2Proof/Machine/Journal.lean ====
section
/-! DEFINITION. The kindler's journal: appending records, compaction, the buffer used while a half erases, and what the
journal remembers of parts that leave service (R315, R316, R329 to R331). -/

namespace Sys2Proof.Machine

/-- Payload bytes of a record: 4 for each field, and its text, or 4,080 for a SNAPSHOT. -/
def JRec.len (r : JRec) : Nat := if r.type = 10 then 4080 else 4 * r.fields.length + r.text.length
/-- Bytes a record takes in a half (R329). -/
def JRec.size (r : JRec) : Nat := alignUp (16 + r.len) 16
/-- The payload of a record: the text of an OPERATOR record; the places of the other records' fields are not stated. -/
def JRec.payload (r : JRec) : List Byte :=
  if r.type = 9 then r.text
  else (List.range r.len).map fun k => Config.jnlByte r.type (r.fields ++ r.text.map BitVec.toNat) k
/-- The header of a record with a check value and a COMMIT byte (R329). -/
def JRec.head (r : JRec) (crc commit : Nat) : List Byte :=
  [0xA7, BitVec.ofNat 8 r.type] ++ leBytes 2 r.len ++ leBytes 4 r.seq ++ leBytes 4 crc ++ [0, 0, 0, BitVec.ofNat 8 commit]
/-- The bytes of a committed record (R329). -/
def JRec.bytes (r : JRec) : List Byte := r.head (crc32c (r.head 0 0 ++ r.payload)) 0 ++ r.payload

/-- The size of a half (R318). -/
def halfSize : Nat := 32 * 2 ^ 20

/-- Is the header of a half committed and valid (R330)? -/
def Keep.headOk (k : Keep) : Bool := k.header == halfHeader k.generation
/-- The SEQ of a half's next record: one more than that of the last (R329). -/
def Keep.nextSeq (k : Keep) : Nat := ((k.journal.getLast?.map fun r => r.seq + 1).getD 0) % 2 ^ 32

/-- Changes what the journal holds, without a record of it. -/
def State.modJr (s : State) (f : Keep → Keep) : State :=
  { s with kd := { s.kd with jr := f s.kd.jr, flashed := s.kd.flashed.map f } }

/-- The key of an instance of a kindling step. -/
def instKey (step inst : Nat) : Nat := 65536 * step + inst
/-- Sets the memory of an instance (R315). -/
def Keep.setInst (k : Keep) (step inst : Nat) (m : InstMem) : Keep :=
  { k with mem := tabSet (fun _ => {}) k.mem (instKey step inst) m }
/-- What a RETIRE record says: the part's instance has failed at every method; a pseudo-channel stays out of its stack, whose next start
is at the method that trains the rest (R315, R331). -/
def Keep.retired (k : Keep) (kind die index source : Nat) : Keep :=
  match kind with
  | 0 => k.setInst 13 (48 * die + index) ⟨2, 9, 0⟩
  | 1 => k.setInst 14 (384 * die + index) ⟨2, 9, 0⟩
  | 2 =>
    let k := { k with pcKeep := addOnce k.pcKeep (160 * die + index) }
    if source = 3 then k.setInst 9 (5 * die + index / 32) ⟨1, 3, 0⟩ else k
  | 3 => k.setInst 10 (16 * (die - 4) + index) ⟨2, 9, 0⟩
  | _ => k.setInst 15 (16 * (die - 4) + index) ⟨2, 9, 0⟩
/-- What a SLOT record says: a copy is pending, or is active from its activation number on (R324, R331). -/
def Keep.slotRec (k : Keep) (t copy pending seq : Nat) : Keep :=
  let others := k.pendingImg.filter (· != t)
  if pending = 1 then
    { k with pendingImg := if t = 15 ∨ copy = tabGet (fun _ => 0) k.active t then others else addOnce k.pendingImg t }
  else
    { k with
      active := tabSet (fun _ => 0) k.active t copy, actSeq := tabSet (fun _ => 0) k.actSeq t seq,
      nextAct := max k.nextAct (seq + 1), pendingImg := others }
/-- What a record adds to what the journal tells a kindling (R315, R331). -/
def Keep.apply (k : Keep) (r : JRec) : Keep :=
  match r.type, r.fields with
  | 1, n :: _ => { k with bootCount := n }
  | 2, [step, inst, m, outcome, detail] => k.setInst step inst ⟨outcome, m, detail⟩
  | 3, [kind, die, index, source] => k.retired kind die index source
  | 4, [_, die, index] => k.setInst 13 (48 * die + index) {}
  | 5, [0, u] => { k with hostUnits := u }
  | 6, [t, copy, pending, seq] => k.slotRec t copy pending seq
  | 7, [0, c] => { k with rrstCounter := c }
  | 7, [1] => { k with rrstKey := r.text }
  | _, _ => k

/-- What a SNAPSHOT holds (R330): every instance's memory, with it the retirements; map-outs, copies, configuration, and the
remote-reset counter and key digest. -/
def Keep.snapshot (k : Keep) : List Nat :=
  k.mem.flatMap (fun e => [e.1, e.2.outcome, e.2.method, e.2.detail]) ++ k.pcKeep ++ k.active.flatMap (fun e => [e.1, e.2]) ++
    k.actSeq.flatMap (fun e => [e.1, e.2]) ++ k.pendingImg ++ [k.nextAct, k.hostUnits, k.rrstCounter, leNat k.rrstKey]
/-- Writes a record into the active half, compacting where it does not fit: the other half becomes the active one with a SNAPSHOT,
its header is programmed last, and the old one is erased (R330). -/
def State.jnlPut (s : State) (r : JRec) : State :=
  let k := s.kd.jr
  if k.used + r.size ≤ halfSize then
    let s := s.modJr fun k => { k with journal := k.journal ++ [r], used := k.used + r.size }
    { s with kd := { s.kd with flashed := s.kd.flashed.map fun k => k.apply r } }
  else
    let snap : JRec := { seq := r.seq, type := 10, fields := k.snapshot, text := [] }
    let r := { r with seq := r.seq + 1 }
    let s := s.modJr fun k => { k with
      journal := [snap, r], used := 64 + snap.size + r.size, half := 1 - k.half, generation := k.generation + 1
      header := halfHeader (k.generation + 1) }
    ({ s with kd := { s.kd with older := some k, flashed := none, jnlSeq := s.kd.jnlSeq + 1, erasing := true } } : State).raise 7 0x100 4

/-- Would a record fit in the buffer (R330)? -/
def State.jnlRoom (s : State) (r : JRec) : Bool :=
  !s.kd.erasing || decide ((s.kd.buffered.map JRec.size).sum + r.size ≤ 256 * 1024)

/-- Appends a record: at once, into the buffer while a half erases, or dropped where that is full, with what it says (R330). -/
def State.jnl (s : State) (type : Nat) (fields : List Nat) (text : List Byte) : State :=
  let r : JRec := { seq := s.kd.jnlSeq, type := type, fields := fields, text := text }
  if !s.jnlRoom r then
    ((s.bump 7 Reg.KDL_JNL_DROPS 1).kdlLog 6 0 0 0 0 0 r.seq).raise 7 0x100 5
  else
    let k := s.kd.jr
    let s := { s with kd := { s.kd with jnlSeq := (s.kd.jnlSeq + 1) % 2 ^ 32, jr := k.apply r } }
    if s.kd.erasing then
      { s with kd := { s.kd with buffered := s.kd.buffered ++ [r], flashed := some (s.kd.flashed.getD k) } }
    else s.jnlPut r

/-- The memory of an instance (R315). -/
def State.inst (s : State) (step inst : Nat) : InstMem := tabGet (fun _ => {}) s.kd.jr.mem (instKey step inst)
/-- A part leaves service: kinds array 0, granule 1, pseudo-channel 2, package 3, port 4; sources kindling 0, R65 1, R106 2,
R240 3 (R331). -/
def State.retire (s : State) (kind die index source : Nat) : State :=
  let s := s.jnl 3 [kind, die, index, source] []
  { s with kd := { s.kd with degraded := true } }

end Sys2Proof.Machine
end

