-- ==== Sys2Proof/Machine/Issue.lean ====
section
/-! DEFINITION. The issue of an instruction: program store ECC, semaphore and chair waits, the run-time checks, ready-epoch
claims and timing slips, and what an instruction's accesses meet (R85, R86, R88, R94 to R98, R105, R106, R143, R228 to R241). -/

namespace Sys2Proof

/-- The semaphore an instruction posts. -/
def Iss.post (i : Iss) : Option Nat := if i.postEn then some i.postSem else none

end Sys2Proof

namespace Sys2Proof.Machine

/-- Is the context held (R87)? -/
def State.held (s : State) (c : Nat) : Bool := !(s.ctx c).holds.isEmpty

/-- The opcode, context and program counter of the instruction that a sequencer issues; behind an OPX it stands 32 bytes on. -/
def State.srcOf (s : State) (i : Iss) (op c : Nat) : Src :=
  ⟨i.st, i.sq, op, c, (s.seq i.st i.sq).pc + (if i.opx then 32 else 0)⟩

/-- An uncorrectable program store error at fetch (R98): the sequencer stops, the context is faulted. -/
def State.psUncorr (s : State) (x : Src) : State :=
  (((s.countU x.st 0x10 1).seqLog x 0x0B 0).raise x.st 0x10 9).fail x.ctx 0x0B 1

/-- The hardware lift and chair that a chair operand names now (R110). -/
def State.chairOf (s : State) (c : Nat) : Opd → Option (Nat × Nat × Bool)
  | .chair n t _ _ _ _ => (s.findLift c n).map fun k =>
      let l := s.lift (stoveOf c) k
      (k, if t then l.tail else l.head, t)
  | _ => none

/-- Does a chair operand have to wait (R110, R112)? A lift that is not enabled is the run-time checks' concern. -/
def State.chairWaits (s : State) (c : Nat) (o : Opd) : Option Nat :=
  match s.chairOf c o with
  | some (k, n, t) =>
    let w := (s.lift (stoveOf c) k).chair n
    if (t && w != 0) || (!t && w != 2) then some (s.liftCfg (stoveOf c) k).lnum else none
  | none => none

/-- Is the semaphore there for this sequencer: counted, and no sequencer waited for it before (R86)? -/
def Ctx.semReady (c : Ctx) (k sq : Nat) : Bool :=
  decide (1 ≤ c.sem k) &&
    (match c.waiters.find? fun w => w.1 == k with
      | some w => w.2 == sq
      | none => true)

/-- The program counter and the loops after the instruction at `p`, whose next one stands at `nxt`: the end of a loop's body
goes back to its start while its count lasts (R84). A pair stands where its OPX stands (R73). -/
def loopNext (p nxt : Nat) : List (Nat × Nat × Nat) → Nat × List (Nat × Nat × Nat)
  | [] => (nxt, [])
  | (a, e, n) :: t =>
    if p = e then (if n > 1 then (a, (a, e, n - 1) :: t) else loopNext p nxt t) else (nxt, (a, e, n) :: t)

/-- The fetch of an instruction's program store word: a corrected error is counted (R98). -/
def State.fetched (s : State) (i : Iss) : State := if i.ps = .ce then s.countC i.st 0x10 1 else s

/-- An instruction issues: its semaphore is taken, the stove's issue number, the program counter, the loops and the counts
advance (R82, R84, R86). -/
def State.issued (s : State) (i : Iss) (x : Src) : State :=
  let q := s.seq i.st i.sq
  let k := s.ctx x.ctx
  let s := if i.waitEn then
      s.setCtx x.ctx ({ k with waiters := k.waiters.filter fun p => p.2 != i.sq }.setSem i.waitSem (k.sem i.waitSem - 1))
    else s
  let n := tabGet (fun _ => 0) s.sq.issueNo i.st + 1
  let s := { s with sq := { s.sq with issueNo := tabSet (fun _ => 0) s.sq.issueNo i.st n } }
  let w := loopNext q.pc (x.pc + 32) q.loops
  s.setSeq i.st i.sq { q with
    state := 1, waitKind := 0, waitNum := 0, waited := 0, issued := (q.issued + if i.opx then 2 else 1) % 2 ^ 32, pc := w.1, loops := w.2 }

/-- Starts the issue of an instruction with its chair operands. `some` where it issues; otherwise the sequencer waits, is
faulted, or does not run; on a stove that is not Lit none does (R255). -/
def State.begin (s : State) (i : Iss) (op : Nat) (ops : List Opd) : State × Option Src :=
  let q := s.seq i.st i.sq
  match q.ctx with
  | none => (s, none)
  | some c =>
    if !(decide (1 ≤ q.state ∧ q.state ≤ 3)) || s.held c || q.atEnd || q.switchTo.isSome || !s.lit i.st then (s, none)
    else
      let x := s.srcOf i op c
      if i.ps = .ue then (s.psUncorr x, none)
      else
        let s := s.fetched i
        let k := s.ctx c
        if i.waitEn && !k.semReady i.waitSem i.sq then
          let w := if k.waiters.any fun p => p.2 == i.sq then k.waiters else k.waiters ++ [(i.waitSem, i.sq)]
          ((s.setCtx c { k with waiters := w }).setSeq i.st i.sq
            { q with state := 2, waitKind := 1, waitNum := i.waitSem, waited := if q.state = 2 then q.waited else 0 }, none)
        else
          match ops.findSome? (s.chairWaits c) with
          | some l => (s.setSeq i.st i.sq { q with state := 3, waitKind := 2, waitNum := l, waited := if q.state = 3 then q.waited else 0 }, none)
          | none => (s.issued i x, some x)

/-- A skipped instruction (R94): posted at issue, logged and counted, the step tainted. -/
def State.skipAs (s : State) (post : Option Nat) (x : Src) (code detail : Nat) : State :=
  let s := s.postOpt x post
  let s := ((s.seqLog x code detail).bump x.st Reg.SEQ_SKIP_TOTAL 1).raise x.st 0x10 5
  (s.modSeq x.st x.sq fun q => { q with skips := satAdd 65535 q.skips 1 }).taintSeq x.st x.sq x.ctx

/-- A skip of an instruction that an issue command names. -/
def State.skip (s : State) (i : Iss) (x : Src) (code detail : Nat) : State := s.skipAs i.post x code detail

/-- The address of the first operand of a list that fails a test (R100). -/
def badAddr (l : List (Opd × View)) (p : Opd × View → Bool) : Option Nat := (l.find? p).map fun o => o.2.addr
/-- The first value of a list whose test holds (R100). -/
def firstTrue (l : List (Bool × Nat)) : Option Nat := (l.find? (·.1)).map (·.2)
/-- The first of a list of checks that fails, with its code and the offending value (R94, R100). -/
def checks (l : List (Nat × Option Nat)) : Option (Nat × Nat) := l.findSome? fun c => c.2.map fun v => (c.1, v)
/-- The line of a context's window that a physical line of the stove is. -/
def State.winLine (s : State) (c l : Nat) : Nat :=
  4096 * ((s.ctx c).granules.idxOf (l / 4096)) + l % 4096

/-- A timing slip (R96): logged with the pending epoch and the line, counted, the step tainted. -/
def State.slip (s : State) (x : Src) (code epoch line : Nat) : State :=
  let s := s.seqLog x code (epoch % 65536 + 65536 * (s.winLine x.ctx line % 65536))
  let s := (s.bump x.st Reg.SEQ_SLIP_TOTAL 1).raise x.st 0x10 6
  (s.modSeq x.st x.sq fun q => { q with slips := satAdd 65535 q.slips 1 }).taintSeq x.st x.sq x.ctx

/-- The tag of a physical line of a stove. -/
def State.tag (s : State) (st l : Nat) : Tag := tabGet (fun _ => {}) s.sp.tags (2 ^ 22 * st + l)
/-- Sets a tag. -/
def State.setTag (s : State) (st l : Nat) (t : Tag) : State :=
  { s with sp := { s.sp with tags := tabSet (fun _ => {}) s.sp.tags (2 ^ 22 * st + l) t } }

/-- Reads of lines: each that is pending under a claim is a slip (R96). -/
def State.readLines (s : State) (x : Src) (ls : List Nat) : State :=
  ls.foldl (fun s l => let t := s.tag x.st l; if t.pending then s.slip x 5 t.epoch l else s) s
/-- Claims lines: pending ones slip, and the claim takes them over (R95, R96). -/
def State.claimLines (s : State) (x : Src) (ls : List Nat) : State :=
  let n := tabGet (fun _ => 0) s.sq.issueNo x.st % 65536
  ls.foldl (fun s l =>
    let t := s.tag x.st l
    (if t.pending then s.slip x 6 t.epoch l else s).setTag x.st l ⟨true, n⟩) s

/-- Adds a flight and the chair readers it holds (R86, R110). -/
def State.launch (s : State) (i : Iss) (x : Src) (readers : List (Nat × Nat)) (lines : List Nat) (b : Body)
    (writes : List (Nat × Byte) := []) : State :=
  let f : Flight :=
    { id := s.sq.nextId, st := x.st, sq := x.sq, ctx := x.ctx, opcode := x.op, pc := x.pc,
      epoch := tabGet (fun _ => 0) s.sq.issueNo x.st, post := i.post, chairs := readers, lines := lines, body := b,
      writes := writes }
  let s := readers.foldl (fun s p =>
    let l := s.lift x.st p.1
    s.setLift x.st p.1 { l with readers := setNth l.readers p.2 (nth 0 l.readers p.2 + 1) }) s
  { s with sq := { s.sq with nextId := s.sq.nextId + 1, flights := s.sq.flights ++ [f] } }

/-- The scratchpad bytes of views that an instruction writes land when it completes (R95, R96): from the state before the writes and
the one after them, the state in which these bytes are as before, and the writes that wait. -/
def State.defer (s t : State) (c : Nat) (outs : List View) : State × List (Nat × Byte) :=
  let as := outs.flatMap fun v => if v.place = .spd then
      v.ranges.flatMap fun r => (List.range r.2).filterMap fun k => s.winAddr c (r.1 + k)
    else []
  (as.foldl (fun u a => u.mwr a (s.mrd a)) t, as.map fun a => (a, t.mrd a))

/-- The chairs that reading operands name. -/
def State.readersOf (s : State) (c : Nat) (ops : List Opd) : List (Nat × Nat) :=
  ops.filterMap fun o => (s.chairOf c o).bind fun p => if p.2.2 then none else some (p.1, p.2.1)

-- ECC of what an instruction reads

/-- The stoker withdraws a granule, which the kindler journals (R106). -/
def State.retireGran (s : State) (k : Nat) : State :=
  let s := { s with sp := { s.sp with granPend := s.sp.granPend.filter (· != k), granRet := addOnce s.sp.granRet k } }
  s.retire 1 (k / 384) (k % 384) 2
/-- Does a window hold a granule? -/
def State.granHeld (s : State) (k : Nat) : Bool :=
  s.cx.ctxs.any fun p => p.1 / 1024 == k / 384 && p.2.isBound && has p.2.granules (k % 384)

/-- A granule meets an uncorrectable error: the second since kindling makes it retire-pending; it is withdrawn at once where
no window holds it (R106). -/
def State.granError (s : State) (st c x : Nat) : State :=
  let k := 384 * st + x / 2 ^ 20
  let n := tabGet (fun _ => 0) s.sp.granUe k + 1
  let s := { s with sp := { s.sp with granUe := tabSet (fun _ => 0) s.sp.granUe k n } }
  if n = 2 ∧ !has s.sp.granRet k ∧ !has s.sp.granPend k then
    let s := { s with sp := { s.sp with granPend := s.sp.granPend ++ [k] } }
    let s := (s.spdLog st 4 c 0 x 0 0).raise st 0x30 3
    if s.granHeld k then s else s.retireGran k
  else s

/-- Consumers of scratchpad words (R118). -/
abbrev Consumer := Nat

/-- A corrected scratchpad error (R105). -/
def State.spdCe (s : State) (st c x : Nat) (syndrome : Nat) (k : Consumer) : State :=
  (((s.bump st Reg.SPD_CE_TOTAL 1).countC st 0x30 1).spdLog st 1 c 0 x syndrome k).raise st 0x30 0
/-- An uncorrectable scratchpad error met by a unit (R106). -/
def State.spdUe (s : State) (st c x : Nat) (syndrome : Nat) (k : Consumer) : State :=
  ((((s.bump st Reg.SPD_UE_TOTAL 1).countU st 0x30 1).spdLog st 2 c 0 x syndrome k).raise st 0x30 1).granError st c x

/-- Controller page register of the stack that holds an HBM address. -/
def State.hbmPart (s : State) (a : Nat) : Nat × Nat :=
  match s.hbmPlace a with
  | some (_, p, _) => (p / 32, p % 32)
  | none => (0, 0)
/-- The package that holds a cold address. -/
def State.coldPart (s : State) (a : Nat) : Nat := ((s.coldPlace a).map (·.1)).getD 0
/-- A CLD record (R243). -/
def State.cldLog (s : State) (die code pkg cls ctx cause addr syndrome : Nat) : State :=
  s.logErr die 0xA0 ⟨pack [(code, 0), (pkg, 8), (cls, 16)], pack [(ctx, 0), (cause, 12)], w32 addr,
    pack [(addr / 2 ^ 32 % 65536, 0), (syndrome, 16)]⟩

/-- A corrected error of a memory tier at an address, met by a request of a class (R228, R230, R236). -/
def State.tierCe (s : State) (a ctx syndrome : Nat) (cls : Nat := 1) : State :=
  if s.inCold a then
    let p := s.coldPart a
    let die := 4 + p / 16
    (((s.bump die Reg.CLD_CE 1).countC die 0xA0 1).cldLog die 1 (p % 16) cls ctx 0 a syndrome).raise die 0xA0 0
  else
    let st := a / hbmRegion
    let p := s.hbmPart a
    (((s.bump st (Reg.HBM_c_CE + 4096 * p.1) 1).countC st 0x90 1).hbmLog st 1 p.1 p.2 cls ctx 0 a syndrome).raise st 0x90 0
/-- A correction that an HBM stack reports itself; it is counted, and nothing else (R228). -/
def State.dieCe (s : State) (a : Nat) : State :=
  if s.inHbm a then s.bump (a / hbmRegion) (Reg.HBM_c_ODECC + 4096 * (s.hbmPart a).1) 1 else s
/-- An error of a package's link: retried once, counted and logged as corrected (R230, R243). -/
def State.linkCe (s : State) (a ctx : Nat) (cls : Nat := 1) : State := if s.inCold a then s.tierCe a ctx 0 cls else s
/-- An uncorrectable error of a memory tier is counted in its controller's page. -/
def State.tierUeCount (s : State) (a : Nat) : State :=
  if s.inCold a then
    let die := 4 + s.coldPart a / 16
    ((s.bump die Reg.CLD_UE 1).countU die 0xA0 1).raise die 0xA0 1
  else
    let st := a / hbmRegion
    ((s.bump st (Reg.HBM_c_UE + 4096 * (s.hbmPart a).1) 1).countU st 0x90 1).raise st 0x90 1
/-- A record of a memory tier's page about an address. -/
def State.memLog (s : State) (a code cls ctx cause syndrome : Nat) : State :=
  if s.inCold a then
    let p := s.coldPart a
    s.cldLog (4 + p / 16) code (p % 16) cls ctx cause a syndrome
  else
    let p := s.hbmPart a
    s.hbmLog (a / hbmRegion) code p.1 p.2 cls ctx cause a syndrome
/-- An uncorrectable error of a memory tier met by a consumer; the caller handles it by what the data is (R241). -/
def State.tierUe (s : State) (a ctx code syndrome : Nat) (cls : Nat := 1) : State :=
  (s.tierUeCount a).memLog a code cls ctx 0 syndrome
/-- The block type of the page that reports a memory address: HBM or CLD. -/
def State.tierType (s : State) (a : Nat) : Nat := if s.inCold a then 0xA else 9
/-- The unit at an address is uncorrectable until it is written whole (R106, R228, R230). -/
def State.markBad (s : State) (a : Nat) : State :=
  { s with tr := { s.tr with bad := addOnce s.tr.bad (s.unitAt a) } }

-- Stall counters (R239)

/-- The key of a stall counter (R239): tier 0 to 3 the stoves' HBM, 4 and 5 the chimneys; context; cause; `cycles` or events. -/
def stallKey (tier ctx cause : Nat) (cycles : Bool) : Nat := 2 * (8 * (4096 * tier + ctx) + cause) + b2n cycles
/-- A stall counter. -/
def State.stall (s : State) (tier ctx cause : Nat) (cycles : Bool) : Nat :=
  tabGet (fun _ => 0) s.tr.stalls (stallKey tier ctx cause cycles)
/-- Adds to a stall counter; it saturates. -/
def State.stallAdd (s : State) (tier ctx cause : Nat) (cycles : Bool) (n : Nat) : State :=
  let v := satAdd 0xFFFFFFFF (s.stall tier ctx cause cycles) n
  { s with tr := { s.tr with stalls := tabSet (fun _ => 0) s.tr.stalls (stallKey tier ctx cause cycles) v } }
/-- Where the late time of an access is counted: the consuming context's own stove's region page, or the chimney that served it. -/
def State.stallAt (s : State) (a ctx : Nat) : Nat := if s.inCold a then 4 + s.coldPart a / 16 else stoveOf ctx
/-- A request to a part that has failed in service fails at once (R240). -/
def State.failAtOnce (s : State) (a ctx cls : Nat) : State :=
  let s := (s.stallAdd (s.stallAt a ctx) ctx 4 false 1).memLog a 5 cls ctx 4 0
  if s.inCold a then s.raise (4 + s.coldPart a / 16) 0xA0 5 else s.raise (a / hbmRegion) 0x90 5

-- Lost lines (R143)

/-- Faults the accessor of a lost line (R143). -/
def State.lostFault (s : State) (a ctx : Nat) : State :=
  let st := a / hbmRegion
  (((s.bump st Reg.HTH_UE_TOTAL 1).countU st 0x60 1).hthLog st 3 ctx 0 0 0 (a / 128) 0 s.anySyndrome).raise st 0x60 2
/-- A line becomes lost, and is held no more. -/
def State.markLost (s : State) (a : Nat) : State :=
  { s with
    ht := { s.ht with lost := addOnce s.ht.lost (a / 128) }
    ca := { s.ca with lines := s.ca.lines.filter fun h => h.line != a / 128 } }

-- Accesses of an instruction

/-- A context whose walk meets a page table that cannot be read: an uncorrectable error of its controller, too (R241, R242). -/
def State.walkFault (s : State) (x : Src) (a : Nat) : State :=
  let p := s.hbmPart a
  ((s.tierUeCount a).hbmLog (a / hbmRegion) 8 p.1 p.2 0 x.ctx 0 a s.anySyndrome).nextFree.fail x.ctx 8 9
/-- An access that cannot have its data (R143, R228, R240, R241, R263): logged and counted by what is wrong, the context faulted. -/
def State.denied (s : State) (x : Src) (b : MemBad) (write : Bool) : State :=
  match b with
  | .walk a => s.walkFault x a
  | .link _ => s.fail x.ctx 0x13 0xC
  | .part a => (s.failAtOnce a x.ctx (if write then 2 else 1)).fail x.ctx 5 (s.tierType a)
  | .word a =>
    let code := if write then (if s.inCold a then 7 else 9) else 2
    (s.nextFree.tierUe a x.ctx code s.anySyndrome (if write then 2 else 1)).fail x.ctx code (s.tierType a)
  | .line a => (s.lostFault a x.ctx).fail x.ctx 3 6
  | .spd a k => (s.nextFree.spdUe x.st x.ctx (a - spdBase - 0x40000000 * x.st) s.anySyndrome k).fail x.ctx 2 3

/-- A record of a vector or row engine's page. -/
def State.engLog (s : State) (x : Src) (page code unit : Nat) : State :=
  s.logErr x.st page ⟨pack [(code, 0), (unit, 8)], pack [(x.ctx, 0), (x.sq, 12)], w32 x.pc, 0⟩

/-- What one byte of a view met when a unit read it for a context, or merged into it (`write`): the state with what was counted and
logged, and whether the instruction goes on (R105, R106, R136, R143, R228, R241). An error of a line that no hearth holds, or of a
walk that the stove need not make, does not arise. `unit` is the engine, and from bit 4 on the handle, for the record of the unit's
own memories. -/
def State.readEcc (s : State) (x : Src) (v : View) (off : Nat) (e : Ecc) (k : Consumer) (unit : Nat := 0) (write : Bool := false) :
    State × Bool :=
  let a := s.byteAddr x.ctx v off
  let y := s.anySyndrome
  let el := v.addr + off / 2
  let n := rbHome el
  let b := (s.ctx x.ctx).slot
  match e with
  | .ok => (s, true)
  | .ce =>
    match v.place with
    | .spd => (s.nextFree.spdCe x.st x.ctx (a - spdBase - 0x40000000 * x.st) y k, true)
    | .virt => (s.nextFree.tierCe a x.ctx y (if write then 2 else 1), true)
    | .rb =>
      (((s.bump n Reg.HTH_CE_TOTAL 1).countC n 0x60 1 |>.hthLog n 1 x.ctx b 0 0 (rbLocal el) 0 y 2).raise n 0x60 0, true)
  | .ue =>
    match v.place with
    | .spd => ((s.markBad a).denied x (.spd a k) write, false)
    | .virt => ((s.markBad a).denied x (.word a) write, false)
    | .rb =>
      (((((s.bump n Reg.HTH_UE_TOTAL 1).countU n 0x60 1).hthLog n 4 x.ctx b 0 0 (rbLocal el) 0 y).raise n 0x60 3).taint b, true)
  | .hearthCe =>
    let st := a / hbmRegion
    if v.place = .virt ∧ (s.hline a).isSome then
      (((s.bump st Reg.HTH_CE_TOTAL 1).countC st 0x60 1 |>.hthLog st 1 x.ctx 0 0 0 (a / 128) 0 y).raise st 0x60 0, true)
    else (s, true)
  | .hearthUe =>
    let st := a / hbmRegion
    match (if v.place = .virt then s.hline a else none) with
    | none => (s, true)
    | some h =>
      if h.dirty ∨ h.kind = 5 then ((s.markLost a).denied x (.line a) write, false)
      else
        let s : State := { s with ca := { s.ca with lines := s.ca.lines.erase h } }
        (((s.bump st Reg.HTH_UE_TOTAL 1).countU st 0x60 1 |>.hthLog st 2 x.ctx 0 0 0 (a / 128) 0 y).raise st 0x60 1, true)
  | .walkUe =>
    let sp := (s.ctx x.ctx).aspace
    let pg := (v.addr + off) / 2 ^ 21
    match (if v.place = .virt ∧ !s.tlbHit x.st sp pg then s.entryAddr sp pg else none) with
    | none => (s, true)
    | some t => (({ s with tr := { s.tr with broken := addOnce s.tr.broken sp } } : State).walkFault x t, false)
  | .dieCe => (if v.place = .virt then s.dieCe a else s, true)
  | .linkCe => (if v.place = .virt then s.linkCe a x.ctx (if write then 2 else 1) else s, true)
  | .unitCe =>
    if k = 2 then (((s.bump x.st Reg.VEC_CE_TOTAL 1).countC x.st 0x40 1 |>.engLog x 0x40 2 unit).raise x.st 0x40 1, true)
    else if k = 3 then (((s.bump x.st Reg.ROW_CE_TOTAL 1).countC x.st 0x50 1 |>.engLog x 0x50 4 unit).raise x.st 0x50 2, true)
    else (s, true)
  | .unitUe =>
    if k = 2 then
      ((((s.bump x.st Reg.VEC_UE_TOTAL 1).countU x.st 0x40 1).engLog x 0x40 3 unit).raise x.st 0x40 2 |>.fail x.ctx 3 4, false)
    else if k = 3 then
      ((((s.bump x.st Reg.ROW_UE_TOTAL 1).countU x.st 0x50 1).engLog x 0x50 5 unit).raise x.st 0x50 3 |>.fail x.ctx 5 5, false)
    else (s, true)

/-- Does a view's write take in a byte's ECC unit whole: a scratchpad word, a sector, a unit of a package (R105, R228, R230)? -/
def State.fillsUnit (s : State) (c : Nat) (v : View) (off : Nat) : Bool :=
  let n := match v.place with
    | .virt => if s.inCold (s.byteAddr c v off) then 64 else 32
    | _ => 8
  coversAll v.ranges (n * ((v.addr + off) / n)) n
/-- The error that an issue command reports, met where it says: byte `rdByte` of operand `rdOpd`, counted through `ins`, then `outs`,
then `chain`. A byte that the operand does not hold, and a unit that is written whole, meet none. -/
def State.metEcc (s : State) (x : Src) (i : Iss) (ins outs chain : List View) (k : Consumer) (unit : Nat) : State × Bool :=
  match (ins ++ outs ++ chain)[i.rdOpd]? with
  | none => (s, true)
  | some v =>
    let w := decide (ins.length ≤ i.rdOpd ∧ i.rdOpd < ins.length + outs.length)
    let own := i.rd == .unitCe || i.rd == .unitUe
    if !own && (!coversAll v.ranges (v.addr + i.rdByte) 1 || (w && s.fillsUnit x.ctx v i.rdByte)) then (s, true)
    else s.readEcc x v i.rdByte i.rd k unit w
/-- The bytes of the descriptors that operands name in memory (R74). -/
def State.descRanges (s : State) (x : Src) (ops : List Opd) : List (Nat × Nat) :=
  ops.filterMap fun o => match o with
    | .mem r => some ((s.seq x.st x.sq).addr48 r, 64)
    | _ => none
/-- A number below `n`, which nothing but a free value names. -/
def State.anyBelow (s : State) (n : Nat) : Nat :=
  ((Config.freeW16 s.free 2).toNat + 65536 * (Config.freeW16 s.free 3).toNat) % max 1 n
/-- Adds to the accesses of a slot's spilled lines on a stove (R157). -/
def State.spillAcc (s : State) (st b n : Nat) : State := s.bump st (rbReg b Reg.HTH_RB_b_SPILL_ACC) n
/-- A stream, an addition or the sweep reaches line l of a slot's buffer on its home stove, where it is spilled: counted, and made in the
spill region; an error in it is that of a reduction line (R143, R144, R157, R241). `false`: the line's data is lost. -/
def State.spillReach (s : State) (ctx b : Nat) (write : Bool) (st l : Nat) : State × Bool :=
  let k := l - s.rbResident st b
  let g := s.spillRegion st b
  let rs := [(g.2.1 + 128 * k, 128), (g.2.1 + 128 * s.rbSpilled st b + 16 * k, 16)]
  if l < s.rbResident st b then (s, true)
  else
    let s := s.spillAcc st b 1
    if (s.memBad st g.1 rs false).isSome then
      ((((((s.bump st Reg.HTH_UE_TOTAL 1).countU st 0x60 1).hthLog st 4 ctx b 0 0 (64 * l) 0 s.anySyndrome).raise st 0x60 3).taint b).renew
        g.1 (if write then rs else []), false)
    else (s.reachAs st g.1 rs write false (if write then 2 else 1) [], true)
/-- The lines of a buffer that a view takes in: home stove and number there. -/
def View.rbLines (v : View) : List (Nat × Nat) :=
  if v.place = .rb then (v.cells.map fun p => let e := v.rbElem p.1 p.2; (rbHome e, rbLocal e / 64)).eraseDups else []
/-- An instruction's accesses to the spilled lines of the views it reads and of those it writes. -/
def State.spillViews (s : State) (x : Src) (ins outs : List View) : State :=
  let b := (s.ctx x.ctx).slot
  let go := fun (w : Bool) (s : State) (l : Nat × Nat) => (s.spillReach x.ctx b w l.1 l.2).1
  (outs.flatMap View.rbLines).foldl (go true) ((ins.flatMap View.rbLines).foldl (go false) s)
/-- A byte of a view, which nothing but a free value names. -/
def State.anyByte (s : State) (v : View) : Nat := s.anyBelow (v.extent - v.addr)
/-- The accesses of an instruction to the views it reads and those it writes: the error that the command reports; what is known to be
uncorrectable, lost or failed as it stands, in scratchpad (R106) or in memory; otherwise the accesses are made and counted. `false`: the instruction stops before it uses
the data. `chain` are operands that are read later, tile by tile (R54); `descs` are operands that a descriptor in memory may name. -/
def State.access (s : State) (x : Src) (i : Iss) (ins outs : List View) (k : Consumer) (unit : Nat := 0)
    (chain : List View := []) (descs : List Opd := []) : State × Bool :=
  let y := s.metEcc x i ins outs chain k unit
  if !y.2 then y
  else
    let rs := s.descRanges x descs ++ ins.flatMap View.vranges
    let ws := outs.flatMap View.vranges
    let spd := y.1.spdBad x.ctx (ins ++ chain) false <|> y.1.spdBad x.ctx outs true
    match spd.map (MemBad.spd · k) <|> y.1.memBad x.st x.ctx (rs ++ chain.flatMap View.vranges) false with
    | some b => (y.1.denied x b false, false)
    | none =>
      match y.1.memBad x.st x.ctx ws true with
      | some b => (y.1.denied x b true, false)
      | none => ((((y.1.reach x.ctx rs).reachW x.ctx ws).renewSpd x.ctx outs).spillViews x ins outs, true)

-- What a stream may not reach (R146 to R150)

/-- CFG of a slot on a stove. -/
def State.rbCfg (s : State) (st b : Nat) : W32 := s.rd st (rbReg b Reg.HTH_RB_b_CFG)
/-- Is a slot's buffer enabled on a stove? -/
def State.rbOn (s : State) (st b : Nat) : Bool := bitOf (s.rbCfg st b).toNat 0
/-- A context's own pass number (R146). -/
def State.cpass (s : State) (b c : Nat) : Nat := tabGet (fun _ => 0) s.ht.cpass (4096 * b + c)
/-- A refused addition, close, read or write of a buffer (R146 to R148): logged, counted, tainted. -/
def State.rbRefuse (s : State) (st code ctx b pass l : Nat) : State :=
  (((s.hthLog st code ctx b 0 pass l 0).bump st (rbReg b Reg.HTH_RB_b_REFUSED) 1).raise st 0x60 4).taintCtx ctx
/-- The context and the address of a job's table directory on a stove (R158, R179). -/
def State.tdir (s : State) (st b : Nat) : Nat × Nat :=
  let hi := s.rd st (Reg.EMB_JOB_b_TDIR_HI + 32 * b)
  (fld hi 27 16, s.rdN st (Reg.EMB_JOB_b_TDIR_LO + 32 * b) + 2 ^ 32 * fld hi 15 0)
/-- Do two ranges of bytes meet? -/
def meet (a n b m : Nat) : Bool := decide (a < b + m ∧ b < a + n)
/-- Does a range of a context's memory touch the merge region of an enabled job slot on any stove (R150)? -/
def State.mergeHit (s : State) (c va n : Nat) : Bool :=
  (List.range 4).any fun st => (List.range 8).any fun b =>
    let lo := s.rdN st (Reg.EMB_JOB_b_MRG_LO + 32 * b) + 2 ^ 32 * fld (s.rd st (Reg.EMB_JOB_b_MRG_HI + 32 * b)) 15 0
    bitOf (s.rdN st (Reg.EMB_JOB_b_CTRL + 16 * b)) 0 && (s.ctx (s.tdir st b).1).aspace == (s.ctx c).aspace &&
      meet va n lo (4096 * s.rdN st (Reg.EMB_JOB_b_MRG_SIZE + 32 * b))
/-- The same for a view. -/
def State.mergeView (s : State) (c : Nat) (v : View) : Bool := v.place == .virt && v.ranges.any fun r => s.mergeHit c r.1 r.2
/-- May a stream read a slot's reduction buffer now: COLL is clear, and every context that contributes has c = P (R148)? -/
def State.rbReadable (s : State) (b : Nat) : Bool :=
  let r := s.rb b
  !r.coll && s.ht.cpass.all fun p => p.1 / 4096 != b || p.2 == r.pass
/-- A refused read or write of a reduction buffer or merge area (R148, R150): skipped for element `e` of the buffer, with the view's
address as the offending value; logged in both pages, tainted. The record of a view of the merge area, which has no element, names
LOCATION 0: DESIGN CHOICE (log 86). -/
def State.rbSkip (s : State) (i : Iss) (x : Src) (e detail : Nat) : State :=
  let b := (s.ctx x.ctx).slot
  (s.skip i x 2 detail).rbRefuse x.st 7 x.ctx b (s.rb b).pass (rbLocal e)
/-- The element that a refused view names, and its address: none in the merge area. -/
def View.refused (v : View) : Nat × Nat := (if v.place = .rb then v.rbElem 0 0 else 0, v.addr)

end Sys2Proof.Machine
end

