-- ==== Sys2Proof/Machine/Pages.lean ====
section
/-! DEFINITION. The rules that every register page keeps: who may write, locks, the header registers, events and interrupts,
error records and counts, and when a block is idle (R312, R313, R335 to R348). -/

namespace Sys2Proof.Machine

/-- Does the agent reach the die's pages at all (R336)? -/
def reaches (ag : Agent) (die : Nat) : Bool :=
  match ag with
  | .runtime | .service _ | .kindler => true
  | .mgmt => die == 7
  | .other _ => false

/-- FAB_PARTNER (R305). -/
def partnerWord : Option Partner → W32
  | some q => pack [(q.rink, 0), (q.seat, 8), (q.port, 12), (1, 17)]
  | none => 0
/-- A refused handle command (R129). No register of its own counts refusals: the model counts them in ERR_COUNT, as uncorrected
(DESIGN CHOICE, log 52). The record names the engine of the
handle as it stands, not of ROW_HTAB_W0: DESIGN CHOICE (log 84). -/
def State.handleRefused (s : State) (st reason : Nat) : State :=
  let h := fld (s.rd st Reg.ROW_HTAB_IDX) 11 0
  let p := s.hdr st 0x50
  let s := s.setHdr st 0x50 { p with countU := satAdd 0xFFFF p.countU 1 }
  ((s.wr st Reg.ROW_HTAB_STATUS (pack [(1, 0), (reason, 4)])).logErr st 0x50
    ⟨pack [(1, 0), ((s.handle st h).engine, 8), (h, 12)], 0, 0, w32 reason⟩).raise st 0x50 0

/-- The record of a write from an agent that the page's chapter does not permit: ignored, and logged where the chapter says so. In an SPD
record CONTEXT is that of the lift that the register sets up, and 0 elsewhere, not the writer's: DESIGN CHOICE (log 88). -/
def State.refuseAgent (s : State) (die page : Nat) (v : W32) (off : Nat := 0) : State :=
  match pageType die page with
  | 0x02 => s.logErr die 0x20 ⟨0x400, 0, 0, 0⟩
  | 0x03 =>
    if page = 0x30 ∨ off < 0x40 ∨ 0x440 ≤ off ∨ !has [0, 4, 8, 0x1C] (off % 32) then s.spdLog die 5 0 0 0 0 0
    else
      let k := 32 * (page - 0x31) + (off - 0x40) / 32
      (s.spdLog die 5 (s.liftCfg die k).ctx k 0 0 0).raise die 0x30 4
  | 0x05 => if off = 0x4C then s.handleRefused die 5 else s.logErr die 0x50 ⟨1, 0, 0, 5⟩ |>.raise die 0x50 0
  | 0x06 => (s.hthLog die 0x0B 0 0 0 0 0 0).raise die 0x60 7
  | 0x07 => s.logErr die 0x70 ⟨0x0D, 0, 0, 0⟩ |>.raise die 0x70 9
  | 0x08 => s.logErr die 0x80 ⟨0x0F, 0, 0, 0⟩ |>.raise die 0x80 14
  | 0x0B =>
    let s := if off = Reg.STK_CMD_GO % 4096 then
        s.wr die Reg.STK_CMD_STATUS (pack [(s.rdN die Reg.STK_CMD_STATUS % 2, 0), (4, 0), (10, 8)])
      else s
    (s.stkLog die 1 10 0 0 0).raise die 0xB0 1
  | 0x0C => s.logErr die (if die < 4 ∧ 0xC8 ≤ page then 0xC8 else page) ⟨0x0A, 0, v, 0⟩
  | 0x0D => let p := 16 * (die - 4) + (page - 0xD0)
    s.logErr die page ⟨pack [(7, 0), (p, 8)], 0, partnerWord (s.port p).partner, 0⟩
  | 0x0E => (s.colLog 0x0D 0 0 0 0 0 0).raise 4 0xE0 14
  | 0x0F => s.pltLog die 4 page v
  | 0x10 => s.kdlLog 5 0 0 0 0 3 0
  | _ => s

/-- Is a page locked for an agent (R346)? -/
def State.lockedCfg (s : State) (ag : Agent) (die page : Nat) : Bool := (s.hdr die page).lockCfg && ag != .kindler
/-- Is its event configuration locked (R346)? -/
def State.lockedEvt (s : State) (ag : Agent) (die page : Nat) : Bool := (s.hdr die page).lockEvt && ag != .kindler
/-- The record of a write that a lock ignores (R346). -/
def State.lockLog (s : State) (die page : Nat) (v : W32) : State := s.writeLog die page v 3

-- Domains in reset (R310, R314, R356)

/-- Does the kindler answer: it has standby power and is past step 1 (R314, R356)? -/
def State.answers (s : State) : Bool :=
  s.kd.vsb && !s.kd.hard && (s.kd.state != 0 || decide (2 ≤ s.kd.step) || s.kd.diesOff)
/-- Can an agent act: its own domain has been released, and the kindler answers its management interface? -/
def State.agentUp (s : State) : Agent → Bool
  | .runtime => decide (3 ≤ s.kd.released)
  | .service _ => decide (7 ≤ s.kd.released)
  | .kindler => !s.kd.hard && decide (1 ≤ s.kd.released)
  | .mgmt => s.answers
  | .other _ => true
/-- The release of the domain that holds a page (R310, R365). -/
def pageRelease (die page : Nat) : Nat :=
  if die = 7 then 0
  else if page = 0xF0 then (if die < 4 then 6 else if die < 6 then 4 else 3)
  else
    match pageType die page with
    | 0x01 | 0x02 | 0x03 | 0x04 | 0x05 => 7
    | 0x09 | 0x0A => 5
    | 0x0C => if die < 4 then 6 else if die < 6 then 4 else 3
    | 0x0D => 8
    | 0x0E => 4
    | _ => 6
/-- Is a page out of reset (R310, R314)? A page of a domain still in reset takes no write and answers no read, and nothing is logged:
DESIGN CHOICE (log 40). -/
def State.pageUp (s : State) (die page : Nat) : Bool := decide (pageRelease die page ≤ s.kd.released)
/-- Can the agent's access reach a die: the host's link there is not down (R263)? -/
def State.linkUp (s : State) (ag : Agent) (die : Nat) : Bool :=
  !(ag == .runtime && decide (die < 6) && s.linkDown 6 die)

/-- The module leaves Cold (R256). -/
def State.leaveCold (s : State) : State := { s with cx := { s.cx with cold := false } }
/-- The rules before any write to a page: the agent and the page are out of reset and linked (R263, R310), the page exists, the agent
reaches it and is of those its chapter names, no block reset runs (R312, R336, R348); a write to an STK page brings the module out of
Cold (R256). `true`: the write goes on. -/
def State.pageGuard (s : State) (ag : Agent) (die page : Nat) (v : W32) (off : Nat := 0) : State × Bool :=
  if !s.agentUp ag then (s, false)
  else if !pageExists die page then
    (if ag = .runtime ∧ s.pageUp 0 0x90 then s.holeLog (regBase + 0x1000000 * die + 4096 * page + off) else s, false)
  else if !s.pageUp die page ∨ !s.linkUp ag die then (s, false)
  else
    let s := if pageType die page = 0x0B then s.leaveCold else s
    if !reaches ag die then (s.refuseAgent die page v off, false)
    else if (s.hdr die page).busy then (s.pltLog die 2 page v, false)
    else (s, true)

/-- The rules before a write to a RW or WO register at offset 0x040 and above; the flash mailbox is exempt from the lock. -/
def State.regGuard (s : State) (ag : Agent) (die page : Nat) (v : W32) (off : Nat := 0) : State × Bool :=
  match s.pageGuard ag die page v off with
  | (t, false) => (t, false)
  | (t, true) => if t.lockedCfg ag die page then (t.lockLog die page v, false) else (t, true)

-- When a block is idle (R313)

/-- The contexts of a stove, bound ones. -/
def State.boundOn (s : State) (st : Nat) : List (Nat × Ctx) :=
  s.cx.ctxs.filter fun p => p.1 / 1024 == st && p.2.valid && p.2.isBound
/-- Is any of a stove's lifts enabled? -/
def State.liftOn (s : State) (st : Nat) : Bool := (List.range 128).any fun k => (s.liftCfg st k).enable
/-- Is bit 0 of a register of any of `n` slots set? -/
def State.anyOn (s : State) (die r stride n : Nat) : Bool :=
  (List.range n).any fun k => bitOf (s.rdN die (r + stride * k)) 0

/-- IDLE of a block (R313). -/
def State.idle (s : State) (die page : Nat) : Bool :=
  match pageType die page with
  | 0x01 => !(s.gate die).busy && (List.range 64).all fun n => (s.seq die n).ctx.isNone
  | 0x02 => (s.boundOn die).all fun p => p.2.arrays.isEmpty
  | 0x03 => !s.liftOn die && (s.boundOn die).all fun p => p.2.granules.isEmpty
  | 0x04 => (s.boundOn die).all fun p => p.2.engines.isEmpty
  | 0x05 => s.rw.handles.all fun p => !(decide (p.1 / 4096 = die) && p.2.valid)
  | 0x06 => (s.ht.ways.all fun p => !(decide (p.1 / 16 = die)) || p.2.1 == 0 || p.2.1 == 4) &&
      s.rdN die Reg.HTH_AW_BOUND == 0 && !s.anyOn die Reg.HTH_RB_b_CFG 32 8 &&
      s.ca.lines.all fun l => !(l.dirty && decide (128 * l.line / hbmRegion = die))
  | 0x07 => !s.anyOn die Reg.EMB_JOB_b_CTRL 16 8 && !s.anyOn die Reg.EMB_HOP_h_CTRL 32 8
  | 0x08 => !s.anyOn die Reg.SWP_JOB_b_CTRL 64 8
  | 0x0B => s.cx.ctxs.all fun p => !(decide (p.1 / 1024 = die) && p.2.valid)
  | 0x0D => (s.port (16 * (die - 4) + (page - 0xD0))).state == 0 &&
      !bitOf (s.rdN die (Reg.FAB_CTRL + 4096 * (page - 0xD0))) 0
  | 0x0E => !s.anyOn 4 Reg.COL_JOB_b_CTRL 64 8 && s.fb.standin != 1 && !bitOf (s.rdN 4 Reg.COL_PISTE_STATUS) 0
  | _ => false

/-- Is IDLE of the block never 1, so that its ENABLE is fixed (R313, R339)? -/
def neverIdle (die page : Nat) : Bool := has [0x09, 0x0A, 0x0C, 0x0F, 0x10] (pageType die page)

/-- Is the block of a page enabled (R339)? -/
def State.blockOn (s : State) (die page : Nat) : Bool := (s.hdr die page).enable
/-- May another block use it now: it is enabled and no reset of it runs (R312, R339)? -/
def State.blockUp (s : State) (die page : Nat) : Bool := s.blockOn die page && !(s.hdr die page).busy

/-- Changes the header of every page of a block. -/
def State.modBlock (s : State) (die page : Nat) (f : PageHdr → PageHdr) : State :=
  (blockPages die page).foldl (fun s p => s.setHdr die p (f (s.hdr die p))) s

/-- The record of a soft reset, or a clear of ENABLE, of a block that is not idle (R312). -/
def State.srstRefused (s : State) (die page : Nat) (v : W32) : State :=
  if die = 7 then s.kdlLog 5 0 0 0 0 4 0
  else ((s.bump die Reg.PLT_SRST_REFUSED 1).raise die 0xF0 0).pltLog die 1 page v

-- The header's registers

/-- A write to EVT_STATUS: bits written 1 clear, but for those that hardware sets in the same cycle; what is left sends the
interrupt, once for the cycle (R342, R347). -/
def execEvtStatusClear (ag : Agent) (die page : Nat) (value sameCycle : W32) (s : State) : Res :=
  match s.pageGuard ag die page value with
  | (s, false) => .next s
  | (s, true) =>
    if !hasEvents page then .next s
    else
      let set := sameCycle &&& w32 (2 ^ eventBits page - 1)
      let h := s.hdr die page
      let n := (h.evStatus &&& (value ^^^ 0xFFFFFFFF)) ||| set
      let first := if h.evStatus = 0 ∧ set ≠ 0 then w32 (0x80000000 + lowBit set) else h.evFirst
      let s := s.setHdr die page { h with evStatus := n, evFirst := if n = 0 then 0 else first }
      .next (if h.irqEn ∧ n &&& h.evEnable ≠ 0 then s.sendIrq die page else s)

/-- A write to EVT_SET, from service contexts and the kindler (R341). -/
def execEvtSet (ag : Agent) (die page : Nat) (value : W32) (s : State) : Res :=
  match s.pageGuard ag die page value with
  | (s, false) => .next s
  | (s, true) =>
    if !hasEvents page then .next s
    else if s.lockedEvt ag die page then .next (s.lockLog die page value)
    else if !ag.priv then .next s
    else .next (s.raiseBits die page (value &&& w32 (2 ^ eventBits page - 1)))

/-- A write to EVT_ENABLE (R342, R346). -/
def execEvtEnableWrite (ag : Agent) (die page : Nat) (value : W32) (s : State) : Res :=
  match s.pageGuard ag die page value with
  | (s, false) => .next s
  | (s, true) =>
    if !hasEvents page then .next s
    else if s.lockedEvt ag die page then .next (s.lockLog die page value)
    else
      let h := s.hdr die page
      let h' := { h with evEnable := value &&& w32 (2 ^ eventBits page - 1) }
      let s := s.setHdr die page h'
      .next (if h.irqEn ∧ h.m = 0 ∧ h'.m ≠ 0 then s.sendIrq die page else s)

/-- PG_CTRL as a write of one of its fields alone would give it: ENABLE and EVT_IRQ_EN as they stand unless given. -/
def State.ctrlWord (s : State) (die page : Nat) (enable irq : Option Bool) : W32 :=
  let h := s.hdr die page
  pack [(b2n (enable.getD h.enable), 1), (b2n (irq.getD h.irqEn), 2)]
/-- A write of EVT_IRQ_EN in a word of PG_CTRL (R342, R346). -/
def State.irqEnWrite (s : State) (ag : Agent) (die page : Nat) (on : Bool) (v : W32) : State :=
  match s.pageGuard ag die page v with
  | (s, false) => s
  | (s, true) =>
    if s.lockedEvt ag die page then s.lockLog die page v
    else
      let h := s.hdr die page
      let s := s.setHdr die page { h with irqEn := on }
      if on ∧ !h.irqEn ∧ h.m ≠ 0 then s.sendIrq die page else s
/-- A write to PG_CTRL.EVT_IRQ_EN. -/
def execEvtIrqEnWrite (ag : Agent) (die page : Nat) (on : Bool) (s : State) : Res :=
  .next (s.irqEnWrite ag die page on (s.ctrlWord die page none (some on)))

/-- A clear of ENABLE by a word of PG_CTRL: from service contexts and the kindler, on an idle block (R339, R346). -/
def State.enableClear (s : State) (ag : Agent) (die page : Nat) (v : W32) : State :=
  match s.pageGuard ag die page v with
  | (s, false) => s
  | (s, true) =>
    if neverIdle die page ∨ !s.blockOn die page then s
    else if !ag.priv then s.pltLog die 4 page v
    else if s.lockedCfg ag die page then s.lockLog die page v
    else if !s.idle die page then s.srstRefused die page v
    else s.modBlock die page fun h => { h with enable := false }
/-- A clear of PG_CTRL.ENABLE. -/
def execBlockEnableClear (ag : Agent) (die page : Nat) (s : State) : Res :=
  .next (s.enableClear ag die page (s.ctrlWord die page (some false) none))

/-- A write of PG_CTRL.ENABLE 1 (R339). -/
def execBlockEnableSet (ag : Agent) (die page : Nat) (s : State) : Res :=
  match s.pageGuard ag die page 2 with
  | (s, false) => .next s
  | (s, true) => .next (s.modBlock die page fun h => { h with enable := true })

/-- A write of PG_CTRL.ERR_POP: discards the oldest record; ERR_LOST clears when the queue is left empty (R344). -/
def execErrPop (ag : Agent) (die page : Nat) (s : State) : Res :=
  match s.pageGuard ag die page 8 with
  | (s, false) => .next s
  | (s, true) =>
    let h := s.hdr die page
    .next (if h.errs.isEmpty then s
      else s.setHdr die page { h with errs := h.errs.tail, errLost := h.errLost && !h.errs.tail.isEmpty })

/-- A write of any value to ERR_COUNT clears both counts (R345). -/
def execErrCountClear (ag : Agent) (die page : Nat) (value : W32) (s : State) : Res :=
  match s.pageGuard ag die page value with
  | (s, false) => .next s
  | (s, true) =>
    if !hasErrLog page then .next s
    else .next (s.setHdr die page { s.hdr die page with countC := 0, countU := 0 })

/-- A write of PG_LOCK.LOCK_CFG, which stays until a module reset (R346). -/
def execLockCfg (ag : Agent) (die page : Nat) (s : State) : Res :=
  match s.pageGuard ag die page 1 with
  | (s, false) => .next s
  | (s, true) => .next (if ag.trusted then s.setHdr die page { s.hdr die page with lockCfg := true } else s)

/-- A write of PG_LOCK.LOCK_EVT (R346). -/
def execLockEvt (ag : Agent) (die page : Nat) (s : State) : Res :=
  match s.pageGuard ag die page 2 with
  | (s, false) => .next s
  | (s, true) => .next (if ag.trusted then s.setHdr die page { s.hdr die page with lockEvt := true } else s)

/-- A write to a source entry's CTRL word: MASK and the target; clearing MASK sends a pending message (R277). -/
def execSourceUnmask (ag : Agent) (die src : Nat) (value : W32) (s : State) : Res :=
  match s.regGuard ag die 0xC9 value with
  | (s, false) => .next s
  | (s, true) =>
    let k := Reg.UCI_SRC_p_CTRL + 8 * src
    let old := s.rd die k
    let new := (value &&& 0xF1) ||| (old &&& 2)
    if bitOf new.toNat 1 ∧ !bitOf new.toNat 0 then
      let t := fld new 7 4
      .next ((s.wr die k (new &&& 0xFFFFFFFD)).emit
        (.irq (s.rdAddr die (Reg.UCI_TGT_t_LO + 16 * t) (Reg.UCI_TGT_t_HI + 16 * t))
          (s.rd die (Reg.UCI_SRC_p_DATA + 8 * src))))
    else .next (s.wr die k new)
end Sys2Proof.Machine
end

