-- ==== Sys2Proof/Machine/Paging.lean ====
section
/-! DEFINITION. Pages and tiers: frames, quotas, placement of new pages, page moves and promotion (R226, R229, R231, R233 to
R235). -/

namespace Sys2Proof.Machine

/-- The quotas that a context's pages are charged against: those of the bound lease, or of the recorded one (R233, R249). -/
def Ctx.quotas (x : Ctx) : Nat × Nat :=
  let l := if x.isBound then x.bound else x.lease
  (l.hbmQuota, l.coldQuota)

/-- The page entries of an address space: page number and entry. -/
def State.pagesOf (s : State) (owner : Nat) : List (Nat × Pte) :=
  (s.tr.ptes.filter fun p => p.1 / 2 ^ 27 == owner && p.2.valid).map fun p => (p.1 % 2 ^ 27, p.2)
/-- Tables of an address space, of both levels (R231). -/
def State.tableCount (s : State) (owner : Nat) : Nat :=
  (s.tr.tables.filter fun t => t.1 / 512 == owner || t.1 == topKey owner).length
/-- Is a page charged to the cold quota: it lies in the cold tier, or is on its way there, and the stoker does not pin it (R233)? -/
def State.chargedCold (s : State) (owner : Nat) (p : Nat × Pte) : Bool :=
  p.2.pins == 0 && match s.tr.moves.find? fun m => m.page == 2 ^ 27 * owner + p.1 with
    | some m => m.toCold
    | none => p.2.cold
/-- Pages charged to the HBM quota, with those that leave, arrive or are pinned (R233). -/
def State.hbmUse (s : State) (owner : Nat) : Nat :=
  ((s.pagesOf owner).filter fun p => !p.2.host && !s.chargedCold owner p).length + s.tableCount owner
/-- Pages charged to the cold quota, with those that leave or arrive. -/
def State.coldUse (s : State) (owner : Nat) : Nat :=
  ((s.pagesOf owner).filter fun p => !p.2.host && s.chargedCold owner p).length
/-- Pinned pages of an owner. -/
def State.pinnedUse (s : State) (owner : Nat) : Nat :=
  ((s.pagesOf owner).filter fun p => p.2.pins != 0 && !p.2.host).length + s.tableCount owner

/-- Every frame in use: pages, tables, and the targets of moves. -/
def State.usedFrames (s : State) : List Nat :=
  (s.tr.ptes.filter fun p => p.2.valid).map (fun p => p.2.frame) ++ s.tr.tables.map (·.2) ++ s.tr.moves.map (·.frame)
/-- The frames of a range: its first and how many there are. -/
structure FrameRange where
  first : Nat
  count : Nat
deriving DecidableEq, Repr
/-- HBM frames of a stove (R227). -/
def State.hbmFrames (s : State) (st : Nat) : FrameRange := ⟨122880 * st, 768 * s.pcsIn st⟩
/-- Frames of the device cold tier (R229). -/
def State.coldFrames (s : State) : FrameRange := ⟨coldBase / 2 ^ 21, (s.coldCap - s.hostSize) / 2 ^ 21⟩
/-- Frames of the host partition. -/
def State.hostFrames (s : State) : FrameRange := ⟨(coldBase + s.coldCap - s.hostSize) / 2 ^ 21, s.hostSize / 2 ^ 21⟩
/-- Used frames within a range. -/
def State.usedIn (s : State) (r : FrameRange) : List Nat :=
  s.usedFrames.filter fun f => decide (r.first ≤ f ∧ f < r.first + r.count)
/-- Free frames of a range. -/
def State.freeIn (s : State) (r : FrameRange) : Nat := r.count - (s.usedIn r).eraseDups.length
/-- The lowest free frame of a range. -/
def State.firstFree (s : State) (r : FrameRange) : Option Nat :=
  let u := s.usedIn r
  ((List.range (u.length + 1)).find? fun k => decide (k < r.count) && !u.contains (r.first + k)).map (· + r.first)
/-- The frame that a page of HBM takes: of its preferred stove, else of the stove with the most free frames (R233). -/
def State.hbmFrame (s : State) (st : Nat) : Option Nat :=
  match s.firstFree (s.hbmFrames st) with
  | some f => some f
  | none =>
    let best := (List.range 4).foldl (fun b k => if s.freeIn (s.hbmFrames k) > s.freeIn (s.hbmFrames b) then k else b) 0
    s.firstFree (s.hbmFrames best)

/-- Where a new page goes (R233): tier and frame, or nowhere. HINT 1 and 3 ask for no quota. -/
def State.placePage (s : State) (owner hint st : Nat) : Option (Bool × Nat) :=
  let q := (s.ctx owner).quotas
  if hint = 1 ∨ hint = 3 ∨ (hint = 0 ∧ s.hbmUse owner < q.1) then (s.hbmFrame st).map fun f => (false, f)
  else if s.coldUse owner < q.2 then (s.firstFree s.coldFrames).map fun f => (true, f)
  else none

/-- A table, or a new one in a frame of HBM charged to the owner (R231, R233). -/
def State.needFrame (s : State) (owner st k : Nat) : Option State :=
  if s.tr.tables.any (fun t => t.1 == k) then some s
  else if s.hbmUse owner < (s.ctx owner).quotas.1 then
    (s.hbmFrame st).map fun f => { s with tr := { s.tr with tables := tabPut s.tr.tables k f } }
  else none

/-- The tables that a page's entry needs. That the first-level table takes a frame of its own is a DESIGN CHOICE (log 53). -/
def State.needTable (s : State) (owner page st : Nat) : Option State :=
  (s.needFrame owner st (topKey owner)).bind fun s => s.needFrame owner st (512 * owner + page / 262144)

/-- Maps one page (R231, R233, R258). -/
def State.mapPage (s : State) (owner page hint st : Nat) (write host : Bool) : Option State :=
  match s.needTable owner page st with
  | none => none
  | some s =>
    if host then
      (s.firstFree s.hostFrames).map fun f =>
        s.setPte owner page { valid := true, write := write, cold := true, host := true, hint := hint, stove := st, frame := f }
    else
      (s.placePage owner hint st).map fun p =>
        s.setPte owner page { valid := true, write := write, cold := p.1, hint := hint, stove := st, frame := p.2 }

/-- Pins or unpins the pages of a range (R144, R154, R219). -/
def State.pinRange (s : State) (c va len : Nat) (up : Bool) : State :=
  if len = 0 then s
  else
    let o := (s.ctx c).aspace
    (List.range ((va + len - 1) / 2 ^ 21 + 1 - va / 2 ^ 21)).foldl (fun s k =>
      let p := s.pte o (va / 2 ^ 21 + k)
      if p.valid then s.setPte o (va / 2 ^ 21 + k) { p with pins := if up then p.pins + 1 else p.pins - 1 } else s) s

-- Moves (R234, R235)

/-- May the tier manager move a page (R234)? -/
def Pte.movable (p : Pte) : Bool :=
  p.valid && !p.host && !p.badLine && p.pins == 0 && !p.moving && p.hint != 1 && p.hint != 2
/-- Moves that a stove's tier manager has in flight. -/
def State.movesOf (s : State) (st : Nat) : Nat := (s.tr.moves.filter fun m => m.st == st).length
/-- May a stove start `n` more moves (R234)? -/
def State.moveRoom (s : State) (st n : Nat) : Bool :=
  decide (s.movesOf st + n ≤ fld (s.rd st Reg.HBM_TM_CTRL) 12 8)
/-- Starts a move (R235): MOVING is set, the page's translation entries are invalid, and its lines are written back and given up. -/
def State.startMove (s : State) (st owner page : Nat) (toCold : Bool) (frame : Nat) : State :=
  let s := s.dropTlb fun e => e.space == owner && e.page == page
  let src := (s.pte owner page).frame
  let s := s.dropLines fun h => 128 * h.line / 2 ^ 21 == src
  let s := s.setPte owner page { s.pte owner page with moving := true }
  { s with tr := { s.tr with moves := s.tr.moves ++ [⟨2 ^ 27 * owner + page, toCold, frame, st⟩] } }
/-- The owner's movable HBM page with the lowest COUNT, ties to the lowest address (R234). -/
def State.coldest (s : State) (owner : Nat) : Option (Nat × Pte) :=
  ((s.pagesOf owner).filter fun p => !p.2.cold && p.2.movable).foldl (fun b p =>
    match b with
    | none => some p
    | some x => if p.2.count < x.2.count then some p else some x) none

/-- A promotion denied for quota (R234). -/
def State.denyPromotion (s : State) (st owner page : Nat) : State :=
  let a := 2 ^ 21 * (s.pte owner page).frame
  ((s.bump st Reg.HBM_TM_DENIED 1).hbmLog st 7 0 0 3 0 0 a 0).raise st 0x90 7

/-- What came of asking for a promotion: it has started, waits for room or for a demotion, or is denied. -/
inductive Ask where
  | started
  | wait
  | denied
deriving DecidableEq, Repr

/-- Promotes a cold page (R234): at once with quota to spare; else it first demotes the owner's coldest page, if that is cold
enough; else the promotion is denied. Without room for the moves the promotion waits. -/
def State.promote (s : State) (st owner page : Nat) : State × Ask :=
  let p := s.pte owner page
  let q := (s.ctx owner).quotas
  if s.hbmUse owner < q.1 then
    match s.moveRoom st 1, s.hbmFrame p.stove with
    | true, some f => (s.startMove st owner page false f, .started)
    | _, _ => (s, .wait)
  else if s.hbmUse owner > q.1 then (s.denyPromotion st owner page, .denied)
  else
    match s.coldest owner with
    | none => (s.denyPromotion st owner page, .denied)
    | some v =>
      if 2 * v.2.count < p.count then
        match s.moveRoom st 1, s.firstFree s.coldFrames with
        | true, some g =>
          let s := s.startMove st owner v.1 true g
          match s.moveRoom st 1, s.hbmFrame p.stove with
          | true, some f => (s.startMove st owner page false f, .started)
          | _, _ => (s, .wait)
        | _, _ => (s, .wait)
      else (s.denyPromotion st owner page, .denied)

/-- The pages that a range touches. -/
def pageRange (va len : Nat) : List Nat :=
  if len = 0 then [] else (List.range ((va + len - 1) / 2 ^ 21 + 1 - va / 2 ^ 21)).map (· + va / 2 ^ 21)
/-- A pinned page that lies in the cold tier moves to HBM, where there is room for the move (R144, R219). -/
def State.pinMove (s : State) (st owner page : Nat) : State :=
  let p := s.pte owner page
  if p.valid ∧ p.cold ∧ !p.host ∧ !p.moving ∧ p.pins ≠ 0 then
    match s.moveRoom st 1, s.hbmFrame p.stove with
    | true, some f => s.startMove st owner page false f
    | _, _ => s
  else s
/-- Has the owner's HBM quota room for the pages of a range that are not charged to it yet (R144)? -/
def State.pinFits (s : State) (c va len : Nat) : Bool :=
  let o := (s.ctx c).aspace
  let new := (pageRange va len).filter fun k => (s.pte o k).valid && !(s.pte o k).host && s.chargedCold o (k, s.pte o k)
  new.isEmpty || decide (s.hbmUse o + new.length ≤ (s.ctx o).quotas.1)
/-- Pins a range in HBM: its cold pages move there, now or when the tier manager has room (R144, R219). -/
def State.pinHbm (s : State) (st c va len : Nat) : State :=
  (pageRange va len).foldl (fun s k => s.pinMove st (s.ctx c).aspace k) (s.pinRange c va len true)
/-- The tag records of a slot's spilled lines say that the lines are zero (R145). -/
def State.zeroSpill (s : State) (st b : Nat) : State :=
  let r := s.spillRegion st b
  let y := s.rbSpilled st b
  (List.range y).foldl (fun s k => s.vwrN r.1 (r.2.1 + 128 * y + 16 * k)
    (RbTag.zeroRecord (tabGet (fun _ => ({} : Rb)) s.ht.rbs b).gen)) s

/-- Demotes what an owner holds beyond a lowered HBM quota (R233). -/
def State.demoteExcess (s : State) (st owner : Nat) : Nat → State
  | 0 => s
  | n + 1 =>
    let q := (s.ctx owner).quotas
    if s.hbmUse owner ≤ q.1 ∨ !s.moveRoom st 1 ∨ s.coldUse owner ≥ q.2 then s
    else
      match s.coldest owner, s.firstFree s.coldFrames with
      | some v, some g =>
        if v.2.frame / 122880 = st then (s.startMove st owner v.1 true g).demoteExcess st owner n else s
      | _, _ => s

/-- Copies a frame's bytes to another frame. -/
def State.copyFrame (s : State) (src dst : Nat) : State :=
  let a := 2 ^ 21 * src
  let b := 2 ^ 21 * dst
  if s.tr.seed = 0 then
    let clean := s.mem.filter fun e => e.1 / 2 ^ 21 != dst
    { s with mem := (s.mem.filter fun e => e.1 / 2 ^ 21 == src).foldl (fun t e => tabSet (memDef s.seeds) t (e.1 - a + b) e.2) clean }
  else s.mwrN b (s.mrdN a (2 ^ 21))

/-- The writes that waited for a page's move land in the frame that the page has now (R235). -/
def State.landWaiting (s : State) (page : Nat) : State :=
  let f := (s.pte (page / 2 ^ 27) (page % 2 ^ 27)).frame
  let go := s.tr.waiting.filter fun w => w.page == page
  go.foldl (fun s w => s.mwr (2 ^ 21 * f + w.off) w.byte)
    { s with tr := { s.tr with waiting := s.tr.waiting.filter fun w => w.page != page } }

/-- The end of a page move (R235): FRAME and TIER are rewritten, MOVING is cleared, the translation entries are invalid again, the
source frame is free, and the writes that waited go to the new frame. The bytes count as one request of class 3 to each frame's
controller. -/
def State.endMove (s : State) (m : Move) : State :=
  let owner := m.page / 2 ^ 27
  let page := m.page % 2 ^ 27
  let p := s.pte owner page
  let s := s.copyFrame p.frame m.frame
  let s := { s with tr := { s.tr with moves := s.tr.moves.erase m } }
  let s := (s.serve (2 ^ 21 * p.frame) 3).serve (2 ^ 21 * m.frame) 3
  let s := s.dropTlb fun e => e.space == owner && e.page == page
  let s := s.setPte owner page { s.pte owner page with moving := false, cold := m.toCold, frame := m.frame }
  let s := s.landWaiting m.page
  let w := s.rd m.st Reg.HBM_TM_MOVES
  s.wr m.st Reg.HBM_TM_MOVES
    (if m.toCold then setFld w 31 16 (satAdd 65535 (fld w 31 16) 1) else setFld w 15 0 (satAdd 65535 (fld w 15 0) 1))

/-- A move is abandoned for an uncorrectable error in its source (R241): the page stays, with BADLINE set. -/
def State.abandonMove (s : State) (m : Move) : State :=
  let owner := m.page / 2 ^ 27
  let page := m.page % 2 ^ 27
  let p := s.pte owner page
  let s := { s with tr := { s.tr with moves := s.tr.moves.erase m } }
  let s := (s.setPte owner page { p with moving := false, badLine := true }).landWaiting m.page
  let a := 2 ^ 21 * p.frame
  let h := s.hbmPart a
  ((s.bump m.st Reg.HBM_TM_ABANDON 1).hbmLog m.st 6 h.1 h.2 3 0 1 a 0).raise m.st 0x90 6

end Sys2Proof.Machine
end

