-- ==== Sys2Proof/Machine/Stream.lean ====
section
/-! DEFINITION. The program store and the scalar instructions of a stream: loads and commits of images, slot table writes, half
switches, NOP, MARKER, END, BR, LOOP, SLI, SALU, SLD, SST and SEMOP (R68 to R71, R81, R82, R84, R86, R89, R99, R100). -/

namespace Sys2Proof.Machine

-- Slots and halves

/-- The program store byte offset of half h (R100). -/
def PSlot.base (p : PSlot) (h : Nat) : Nat := 65536 * (if h = 0 then fld p.map 7 0 else fld p.map 15 8)
/-- The bytes of a half (R100). -/
def PSlot.size (p : PSlot) : Nat := 65536 * fld p.map 23 16

/-- A field of the header of the image in half h (R69). -/
def State.imgHdr (s : State) (st k h off n : Nat) : Nat := leNat (s.psN st ((s.slot st k).base h + off) n)

/-- A switch finds no matching entry: the sequencer stops, the context is faulted (R71). -/
def State.entryMissing (s : State) (x : Src) : State :=
  ((s.seqLog x 0x0A 0).raise x.st 0x10 8).fail x.ctx 0x0A 1

/-- A sequencer of a context begins at an entry of a slot: it takes the active half, after a pending switch (R71, R85). That its
EVAL_INVALID bit is cleared then is a DESIGN CHOICE (log 49). -/
def State.startSeq (s : State) (st n c k e : Nat) : State :=
  let old := s.seq st n
  let s := (s.wakeStove st).switchSlot st k
  let h := (s.slot st k).active
  let s := s.setSeq st n { old with
    state := 1, slot := k, half := h, entry := e, ctx := some c, evalInvalid := false, waitKind := 0, waitNum := 0,
    loops := [], atEnd := false, switchTo := none, resumable := false, waited := 0, pc := s.imgHdr st k h (0x18 + 4 * e) 4 }
  let s := (s.drainHalf st old.slot old.half).drainHalf st k (1 - h)
  if e < s.imgHdr st k h 0x15 1 then s else s.entryMissing ⟨st, n, 0, c, 0⟩

/-- At a branch to entry e with another half active: the sequencer goes on at that entry of the new half (R71). -/
def State.switchAt (s : State) (st n e : Nat) : State :=
  let q := s.seq st n
  let s := s.switchSlot st q.slot
  let h := (s.slot st q.slot).active
  let s := s.setSeq st n { q with half := h, entry := e, loops := [], switchTo := none,
                                  pc := s.imgHdr st q.slot h (0x18 + 4 * e) 4 }
  let s := s.drainHalf st q.slot (1 - h)
  if e < s.imgHdr st q.slot h 0x15 1 then s else s.entryMissing ⟨st, n, 4, q.ctx.getD 0, q.pc⟩

/-- A sequencer stops: the boundary at which it leaves its half (R71, R89), unless it is to continue at RESUME, from where it
stands. -/
def State.stopSeq (s : State) (st n : Nat) (resumable : Bool) : State :=
  let q := s.seq st n
  if resumable then s.setSeq st n { q with state := 5, waitKind := 0, resumable := true }
  else
    let s := s.setSeq st n { q with state := 5, waitKind := 0, atEnd := false, switchTo := none, resumable := false }
    (s.switchSlot st q.slot).drainHalf st q.slot q.half

/-- Does a sequencer still owe an instruction (R89)? -/
def State.owes (s : State) (st n : Nat) : Bool := s.sq.flights.any fun f => f.st == st && f.sq == n

-- Loads, commits and the slot table

/-- A refused load, commit or slot write. CONTEXT is 0 in its record: DESIGN CHOICE (log 49). -/
def State.seqRefuse (s : State) (st code k h : Nat) (event : Option Nat) : State :=
  let s := (s.logErr st 0x10 ⟨w32 code, pack [(k, 12), (h, 17)], 0, 0⟩).bump st Reg.SEQ_REFUSED_TOTAL 1
  match event with
  | some b => s.raise st 0x10 b
  | none => s

/-- A write to SEQ_LOAD_CMD (R70, R100). A disabled block stays idle: it takes no load (R339; the code is DESIGN CHOICE, log 102). -/
def execSeqLoad (ag : Agent) (st : Nat) (value : W32) (s : State) : Res :=
  match s.regGuard ag st 0x10 value with
  | (s, false) => .next s
  | (s, true) =>
    if !bitOf value.toNat 31 then .next s
    else
      let k := fld value 4 0
      let h := fld value 8 8
      let p := s.slot st k
      let len := s.rdN st Reg.SEQ_LOAD_LEN
      if !s.blockOn st 0x10 ∨ h = p.active ∨ p.st h = 5 ∨ s.users st k h ≠ 0 ∨ (s.gate st).busy ∨ len > p.size ∨ len = 0 ∨ len % 32 ≠ 0 then
        .next (s.seqRefuse st 8 k h (some 2))
      else
        let p := p.setSt h 1
        .next ((s.setSlot st k { p with pending := false }).setGate st
          { busy := true, slot := k, half := h, ctx := fld value 27 16,
            src := s.rdAddr st Reg.SEQ_LOAD_SRC_LO Reg.SEQ_LOAD_SRC_HI, len := len })

/-- A write to SEQ_COMMIT (R71, R100). -/
def execSeqCommit (ag : Agent) (st : Nat) (value : W32) (s : State) : Res :=
  match s.regGuard ag st 0x10 value with
  | (s, false) => .next s
  | (s, true) =>
    if !bitOf value.toNat 31 then .next s
    else
      let k := fld value 4 0
      let p := s.slot st k
      if p.st (1 - p.active) = 2 then
        .next (s.setSlot st k { p with pending := true, gen := (p.gen + 1) % 65536 })
      else .next (s.seqRefuse st 9 k (1 - p.active) (some 3))

/-- Do two ranges of 64 KiB units, start and length, overlap? -/
def rangesMeet (a n b m : Nat) : Bool := decide (a < b + m ∧ b < a + n ∧ n ≠ 0 ∧ m ≠ 0)

/-- Would a slot's map fit the store (R100)? -/
def State.mapFits (s : State) (st k : Nat) (m : W32) : Bool :=
  let a := fld m 7 0
  let b := fld m 15 8
  let n := fld m 23 16
  n == 0 || (decide (a + n ≤ 256 ∧ b + n ≤ 256) && !rangesMeet a n b n &&
    (List.range 32).all fun j =>
      let o := (s.slot st j).map
      j == k || (!rangesMeet a n (fld o 7 0) (fld o 23 16) && !rangesMeet a n (fld o 15 8) (fld o 23 16) &&
        !rangesMeet b n (fld o 7 0) (fld o 23 16) && !rangesMeet b n (fld o 15 8) (fld o 23 16)))

/-- A write to SEQ_SLOT_s_MAP or SEQ_SLOT_s_OWNER (R100). A rewritten MAP leaves the half states and the store's bytes as they
are: DESIGN CHOICE (log 49). -/
def execSlotTableWrite (ag : Agent) (st slot : Nat) (owner : Bool) (value : W32) (s : State) : Res :=
  match s.regGuard ag st 0x11 value with
  | (s, false) => .next s
  | (s, true) =>
    let p := s.slot st slot
    let m := value &&& 0x00FFFFFF
    if s.users st slot 0 ≠ 0 ∨ s.users st slot 1 ≠ 0 ∨ p.stA = 1 ∨ p.stB = 1 ∨ (!owner ∧ !s.mapFits st slot m) then
      .next (s.seqRefuse st 0x0C slot 0 none)
    else .next (s.setSlot st slot (if owner then { p with owner := fld value 11 0 } else { p with map := m }))

-- Scalar instructions

/-- A scalar instruction: issued, its effect, its post at issue (R80, R86). -/
def State.scalar (s : State) (i : Iss) (op : Nat) (f : State → Src → State) : Res :=
  match s.begin i op [] with
  | (s, none) => .next s
  | (s, some x) => .next ((f s x).postOpt x i.post)

/-- NOP (R80). -/
def execNop (i : Iss) (s : State) : Res := s.scalar i 0x00 fun s _ => s

/-- Writes a 16-byte trace record, or drops it where the ring is full (R99). -/
def State.trace (s : State) (st : Nat) (value : W32) (c sq source cycle : Nat) : State :=
  let n := s.rdN st Reg.SEQ_TRACE_SIZE
  let head := s.rdN st Reg.SEQ_TRACE_HEAD
  if n = 0 then s
  else if (head + 1) % n = s.rdN st Reg.SEQ_TRACE_TAIL then (s.bump st Reg.SEQ_TRACE_DROPS 1).raise st 0x10 10
  else
    let a := s.rdAddr st Reg.SEQ_TRACE_BASE_LO Reg.SEQ_TRACE_BASE_HI
    let r := leBytes 4 value.toNat ++ leBytes 2 c ++ leBytes 1 sq ++ leBytes 1 source ++ leBytes 6 (cycle % 2 ^ 48) ++ leBytes 2 0
    let s := if s.inHbm (a + 16 * head) then s.hearthLine 0 0 (a + 16 * head) 2 true false false else s
    (s.mwrN (a + 16 * head) r).wr st Reg.SEQ_TRACE_HEAD (w32 ((head + 1) % n))

/-- MARKER (R99): a record at issue; with PROPAGATE the marker enters the queue of every unit class. -/
def execMarker (i : Iss) (value : W32) (propagate : Bool) (cycle : Nat) (s : State) : Res :=
  s.scalar i 0x02 fun s x =>
    let s := s.trace x.st value x.ctx x.sq 0 cycle
    if propagate then
      { s with sq := { s.sq with markers := s.sq.markers ++ (List.range 7).map fun k => (x.ctx, value, k + 1, x.sq) } }
    else s

/-- A unit reaches a propagated marker (R99). -/
def execMarkerUnitRecord (ctx : Nat) (value : W32) (source cycle : Nat) (s : State) : Res :=
  match s.sq.markers.find? fun m => m.1 == ctx && m.2.1 == value && m.2.2.1 == source with
  | none => .next s
  | some m =>
    .next (({ s with sq := { s.sq with markers := s.sq.markers.erase m } } : State).trace (stoveOf ctx) value ctx m.2.2.2 source
      cycle)

/-- END (R89): the sequencer waits for what it issued. -/
def execEndI (i : Iss) (s : State) : Res :=
  s.scalar i 0x03 fun s x => s.modSeq x.st x.sq fun q => { q with atEnd := true }

/-- The context of a sequencer that stopped is stopped when none of its sequencers runs any more (R246). -/
def State.settleCtx (s : State) (c : Nat) : State :=
  let st := stoveOf c
  let runs := (List.range 64).any fun n => let q := s.seq st n; q.ctx == some c && decide (1 ≤ q.state ∧ q.state ≤ 4)
  let x := s.ctx c
  if runs ∨ x.state ≠ 2 then s else s.setCtx c { x with state := 3 }

/-- A comparison of two registers (R82). -/
def brCond (c : Nat) (a b : W32) : Bool :=
  match c with
  | 0 => true
  | 1 => a == b
  | 2 => a != b
  | 3 => decide (a.toInt < b.toInt)
  | 4 => decide (b.toInt ≤ a.toInt)
  | 5 => decide (a.toNat < b.toNat)
  | _ => decide (b.toNat ≤ a.toNat)

/-- The entry of its image that a branch target is (R71). -/
def State.entryAt (s : State) (st : Nat) (q : Seq) (target : Nat) : Option Nat :=
  (List.range (s.imgHdr st q.slot q.half 0x15 1)).find? fun e => s.imgHdr st q.slot q.half (0x18 + 4 * e) 4 == target

/-- Goes to a branch target: a target outside the innermost body ends that loop; an entry is a program boundary (R71, R82,
R84). -/
def State.branchTo (s : State) (st sq target : Nat) (loops : List (Nat × Nat × Nat)) : State :=
  let l := loops.dropWhile fun b => decide (target < b.1 ∨ b.2.1 < target)
  let s := s.modSeq st sq fun q => { q with pc := target, loops := l }
  let q := s.seq st sq
  let p := s.slot st q.slot
  match s.entryAt st q target with
  | some e =>
    if p.pending ∨ p.active ≠ q.half then
      (if s.owes st sq then s.setSeq st sq { q with switchTo := some (e, target) } else s.switchAt st sq e)
    else s.setSeq st sq { q with entry := e }
  | none => s

/-- BR (R82). -/
def execBr (i : Iss) (cond a b target : Nat) (s : State) : Res :=
  let l := (s.seq i.st i.sq).loops
  s.scalar i 0x04 fun s x =>
    let q := s.seq x.st x.sq
    if brCond cond (q.sreg a) (q.sreg b) then s.branchTo x.st x.sq target l else s

/-- The bytes of the instruction at an offset of the program store, with an OPX its owner too (R73). -/
def State.insnLen (s : State) (st a : Nat) : Nat := if leNat (s.psN st a 1) = 1 then 64 else 32
/-- LOOP (R84): the body runs from the next instruction through the end target; a count of zero skips it. -/
def execLoop (i : Iss) (n target : Nat) (s : State) : Res :=
  s.scalar i 0x05 fun s x =>
    s.modSeq x.st x.sq fun q =>
      let k := (q.sreg n).toNat
      if k = 0 then
        let w := loopNext target (target + s.insnLen x.st target) q.loops
        { q with pc := w.1, loops := w.2 }
      else { q with loops := (x.pc + 32, target, k) :: q.loops }

/-- SLI (R81). -/
def execSli (i : Iss) (d : Nat) (imm : W32) (s : State) : Res :=
  s.scalar i 0x06 fun s x => s.modSeq x.st x.sq fun q => q.setSreg d imm

/-- The scalar functions (R81). -/
def saluFn (fn : Nat) (a b : W32) : W32 :=
  match fn with
  | 0 => a + b
  | 1 => a - b
  | 2 => a &&& b
  | 3 => a ||| b
  | 4 => a ^^^ b
  | 5 => a <<< (b.toNat % 32)
  | 6 => a >>> (b.toNat % 32)
  | 7 => a.sshiftRight (b.toNat % 32)
  | 8 => a * b
  | 9 => if a.toInt ≤ b.toInt then a else b
  | 10 => if a.toInt ≤ b.toInt then b else a
  | 11 => if a.toNat ≤ b.toNat then a else b
  | _ => if a.toNat ≤ b.toNat then b else a

/-- SALU (R81). -/
def execSalu (i : Iss) (fn d a b : Nat) (s : State) : Res :=
  s.scalar i 0x07 fun s x => s.modSeq x.st x.sq fun q => q.setSreg d (saluFn fn (q.sreg a) (q.sreg b))

/-- The window offset of a word operand of SLD and SST, and the check of its extent (R81, R94, R114). That a computed address off the
4-byte boundary has code 0x01 is a DESIGN CHOICE (log 79). -/
def State.wordOpd (s : State) (x : Src) (a : Opd) : Option Nat :=
  let o := match a with
    | .direct d _ _ _ _ _ => d
    | .indirect r _ _ _ _ _ => ((s.seq x.st x.sq).sreg r).toNat
    | _ => 2 ^ 40
  if o % 4 = 0 ∧ o + 4 ≤ s.window x.ctx ∧ !s.hitsLift x.ctx o 4 then some o else none

/-- The view of a word. -/
def wordView (o : Nat) : View := { place := .spd, addr := o, fmt := .n16, rows := 1, cols := 2, stride := 16 }

/-- The address that a failed word operand names, for the record of its skip. -/
def State.wordAddr (s : State) (x : Src) (a : Opd) : Nat :=
  match a with
  | .direct d _ _ _ _ _ => d
  | .indirect r _ _ _ _ _ => ((s.seq x.st x.sq).sreg r).toNat
  | _ => 0

/-- SLD (R81, R94, R96, R105). -/
def execSld (i : Iss) (d : Nat) (a : Opd) (s : State) : Res :=
  match s.begin i 0x08 [] with
  | (s, none) => .next s
  | (s, some x) =>
    match s.wordOpd x a with
    | none => .next (s.skip i x 1 (s.wordAddr x a))
    | some o =>
      let v := wordView o
      let s := s.readLines x (s.viewLines x.ctx v)
      match s.access x i [v] [] 4 with
      | (s, false) => .next s
      | (s, true) =>
        let w := w32 (leNat (s.bytesOf x.ctx v 0 4))
        .next ((s.modSeq x.st x.sq fun q => q.setSreg d w).launch i x [] [] .plain)

/-- SST (R81, R94 to R96). -/
def execSst (i : Iss) (r : Nat) (a : Opd) (s : State) : Res :=
  match s.begin i 0x09 [] with
  | (s, none) => .next s
  | (s, some x) =>
    match s.wordOpd x a with
    | none => .next (s.skip i x 1 (s.wordAddr x a))
    | some o =>
      let v := wordView o
      match s.access x i [] [v] 4 with
      | (s, false) => .next s
      | (s, true) =>
        let l := s.viewLines x.ctx v
        let s := s.claimLines x l
        let w := (s.seq x.st x.sq).sreg r
        let r := s.defer (s.putBytes x.ctx v 0 (leBytes 4 w.toNat)) x.ctx [v]
        .next (r.1.launch i x [] l .plain r.2)

/-- SEMOP with operation 0: posts a value (R86). -/
def execSemopPost (i : Iss) (sem value : Nat) (s : State) : Res :=
  s.scalar i 0x0A fun s x => s.semPost x sem value

/-- SEMOP with operation 1: sets a count (R86). -/
def execSemopSet (i : Iss) (sem value : Nat) (s : State) : Res :=
  s.scalar i 0x0A fun s x => s.modCtx x.ctx fun c => c.setSem sem value

end Sys2Proof.Machine
end

