-- ==== Sys2Proof/Machine/Lease.lean ====
section
/-! DEFINITION. What a lease takes: free arrays, engines, granules, sequencers and hearth ways, the binding of a context, the
ember ways, loans of arrays to evaluation contexts, the end of a stop, and END_STOP (R4, R19, R71, R89, R95, R141, R174, R246 to
R248, R251). -/

namespace Sys2Proof.Machine

-- Ember lines (R174, R175)

/-- Lines of the ember ways of a stove. -/
def State.emberLines (s : State) (st : Nat) : Nat :=
  if bitOf (s.rdN st Reg.EMB_EC_CTRL) 0 then 65536 * (s.wayList st 4 0).length else 0
/-- Lines that a record takes (R174). -/
def recLines (b : List Byte) : Nat := cdiv b.length 128
/-- Lines in use. -/
def State.emberUsed (s : State) (st : Nat) : Nat :=
  ((s.em.embers.filter fun e => e.st == st).map fun e => recLines e.bytes).sum +
    ((s.em.replicas.filter fun e => e.st == st).map fun e => recLines e.bytes).sum
/-- The entry to replace: the smallest F, then the least recently admitted (R175). -/
def State.emberVictim (s : State) (st : Nat) : Option Ember :=
  (s.em.embers.filter fun e => e.st == st).foldl (fun v e =>
    match v with
    | none => some e
    | some x => if e.freq < x.freq ∨ (e.freq = x.freq ∧ e.order < x.order) then some e else some x) none
/-- Drops entries, and then the replicas, until the rest fits the ember ways that are left. -/
def State.emberTrim (s : State) (st : Nat) : Nat → State
  | 0 => s
  | n + 1 =>
    if s.emberUsed st ≤ s.emberLines st then s
    else
      match s.emberVictim st with
      | some v => ({ s with em := { s.em with embers := s.em.embers.erase v } } : State).emberTrim st n
      | none => { s with em := { s.em with replicas := s.em.replicas.filter fun r => r.st != st } }

-- Free resources (R247, R248)

/-- Does a bound lease of the stove hold number `n` of a kind of resource? -/
def State.heldBy (s : State) (st : Nat) (f : Ctx → List Nat) (n : Nat) : Bool := (s.boundOn st).any fun p => has (f p.2) n
/-- Free arrays: in service and running nothing; those that are retire-pending come last (R248). -/
def State.freeArrays (s : State) (st : Nat) : List Nat :=
  let l := (List.range 48).filter fun a => s.blockUp st 0x20 && !(s.arr st a).retired && (s.arr st a).run.isNone && !s.heldBy st Ctx.arrays a
  l.filter (fun a => !(s.arr st a).pending) ++ l.filter fun a => (s.arr st a).pending
/-- Free vector engines (R119). -/
def State.freeEngines (s : State) (st : Nat) : List Nat := (List.range 12).filter fun g => s.blockUp st 0x40 && !s.heldBy st Ctx.engines g
/-- Free granules in service (R103, R106). -/
def State.freeGranules (s : State) (st : Nat) : List Nat :=
  (List.range 384).filter fun g => s.blockUp st 0x30 && !has s.sp.granRet (384 * st + g) && !s.heldBy st Ctx.granules g
/-- Free sequencers. -/
def State.freeSeqs (s : State) (st : Nat) : List Nat := (List.range 64).filter fun n => s.blockUp st 0x10 && !s.heldBy st Ctx.seqs n
/-- General ways (R141). -/
def State.generalWays (s : State) (st : Nat) : List Nat := if s.blockUp st 0x60 then s.wayList st 0 0 else []
/-- Arrays in service. -/
def State.arraysIn (s : State) (st : Nat) : Nat := ((List.range 48).filter fun a => !(s.arr st a).retired).length
/-- Granules in service. -/
def State.granulesIn (s : State) (st : Nat) : Nat :=
  ((List.range 384).filter fun g => !has s.sp.granRet (384 * st + g)).length

/-- The bound job contexts of a slot on a stove, but for one context (R247). -/
def State.slotBound (s : State) (st b c : Nat) : List (Nat × Ctx) :=
  (s.boundOn st).filter fun p => p.1 != c && p.2.isJob && p.2.slot == b
/-- Do RED_WAYS and MERGE_WAYS agree with those of the slot's bound job contexts (R247, R259)? -/
def State.waysAgree (s : State) (c : Nat) (l : Lease) : Bool :=
  let x := s.ctx c
  !x.isJob || (s.slotBound (stoveOf c) x.slot c).all fun p =>
    p.2.bound.redWays == l.redWays && p.2.bound.mergeWays == l.mergeWays
/-- The slot's ways that a lease has to bring along: none where another context of the slot is bound. -/
def State.slotWays (s : State) (c : Nat) (l : Lease) : Nat :=
  let x := s.ctx c
  if x.isJob ∧ (s.slotBound (stoveOf c) x.slot c).isEmpty then l.redWays + l.mergeWays else 0

/-- Gives a way to a partition. -/
def State.setWay (s : State) (st w kind owner : Nat) : State :=
  { s with ht := { s.ht with ways := tabSet (fun _ => (0, 0)) s.ht.ways (16 * st + w) (kind, owner) } }
/-- Brings a partition to `n` ways: the lowest general ways join it, its highest ways leave it; lines that lose their ways are written
back and given up (R249). -/
def State.sizeWays (s : State) (st kind owner n : Nat) : State :=
  let cur := s.wayList st kind owner
  if cur.length = n then s
  else
    let s := (cur.drop n).foldl (fun s w => s.setWay st w 0 0) s
    let s := ((s.generalWays st).take (n - cur.length)).foldl (fun s w => s.setWay st w kind owner) s
    (s.trimLines st kind owner).trimLines st 0 0
/-- The lines of a buffer on a stove that hold data of the current generation, with their tags (R144, R145). -/
def State.rbHeld (s : State) (b st : Nat) : List (Nat × RbTag × List W16) :=
  let r := s.rbResident st b
  let ls := ((s.ht.tags.filter fun t => t.1 / 2 ^ 24 == 4 * b + st).map fun t => t.1 % 2 ^ 24).filter (· < r) ++
    (List.range (s.rbSpilled st b)).map (· + r)
  ls.filterMap fun l => (s.rbLive b st l).map fun t => (l, t, s.lineVals b st l)
/-- Brings the reduction ways of a slot to `n` (R149): its lines are written out under the old mapping and read in under the new one,
whether they are resident or spilled there; the other spilled lines are tagged zero. What is pinned follows the length of the spill
region (R144). At the end MOVE_DONE is raised. -/
def State.sizeRed (s : State) (st b n : Nat) : State :=
  if (s.wayList st 2 b).length = n then s
  else
    let held := s.rbHeld b st
    let s := { s with ht := { s.ht with
        tags := s.ht.tags.filter fun t => t.1 / 2 ^ 24 != 4 * b + st
        elems := s.ht.elems.filter fun e => e.1 / 2 ^ 30 != b || rbHome (e.1 % 2 ^ 30) != st } }
    let on := bitOf (s.rd st (rbReg b Reg.HTH_RB_b_CFG)).toNat 0
    let g := s.spillRegion st b
    let s := (if on then s.pinRange g.1 g.2.1 g.2.2 false else s).sizeWays st 2 b n
    let g := s.spillRegion st b
    let s := if on then (s.pinHbm st g.1 g.2.1 g.2.2).zeroSpill st b else s
    let s := held.foldl (fun s h => s.putLine b st h.1 h.2.1 h.2.2) s
    s.raise st 0x60 8
/-- Applies STK_EMBER_WAYS where enough ways are free (R247, R260). -/
def State.applyEmber (s : State) (st : Nat) : State :=
  let n := min 16 (fld (s.rd st Reg.STK_EMBER_WAYS) 4 0)
  if n - (s.wayList st 4 0).length ≤ (s.generalWays st).length then
    (s.sizeWays st 4 0 n).emberTrim st (s.em.embers.length + 1)
  else s
/-- The ways of a bound lease: the context's own, and the slot's (R141, R247). What shrinks gives its ways up before what grows takes
any. -/
def State.leaseWays (s : State) (c : Nat) (l : Lease) : State :=
  let st := stoveOf c
  let x := s.ctx c
  let now := fun (s : State) (k o : Nat) => (s.wayList st k o).length
  let s := (s.sizeWays st 1 c (min (now s 1 c) l.weightWays)).sizeWays st 5 c (min (now s 5 c) l.atomicWays)
  if !x.isJob then (s.sizeWays st 1 c l.weightWays).sizeWays st 5 c l.atomicWays
  else
    let s := (s.sizeRed st x.slot (min (now s 2 x.slot) l.redWays)).sizeWays st 3 x.slot (min (now s 3 x.slot) l.mergeWays)
    let s := (s.sizeWays st 1 c l.weightWays).sizeWays st 5 c l.atomicWays
    (s.sizeRed st x.slot l.redWays).sizeWays st 3 x.slot l.mergeWays
/-- The reduction ways that a lease makes join or leave the slot's partition (R149). -/
def State.movingWays (s : State) (c : Nat) (l : Lease) : List Nat :=
  let st := stoveOf c
  let t := s.leaseWays c l
  ((List.range 16).map (16 * st + ·)).filter fun w =>
    let a := tabGet (fun _ => (0, 0)) s.ht.ways w
    let b := tabGet (fun _ => (0, 0)) t.ht.ways w
    a != b && (a.1 == 2 || b.1 == 2)

-- Binding (R248)

/-- Is every item of a context's lease free at once? -/
def State.canBind (s : State) (c : Nat) : Bool :=
  let st := stoveOf c
  let l := (s.ctx c).lease
  decide (4 * l.groups ≤ (s.freeArrays st).length ∧ l.groups ≤ (s.freeEngines st).length ∧
    l.granules ≤ (s.freeGranules st).length ∧ l.seqs ≤ (s.freeSeqs st).length ∧
    l.weightWays + l.atomicWays + s.slotWays c l ≤ (s.generalWays st).length) && s.waysAgree c l
/-- Every line of a granule is ready (R95). -/
def State.readyGranules (s : State) (st : Nat) (gs : List Nat) : State :=
  { s with sp := { s.sp with tags := s.sp.tags.filter fun t => !(t.1 / 2 ^ 22 == st && has gs (t.1 % 2 ^ 22 / 4096)) } }
/-- Binds a context with the arrays and engines given: it runs, and the STARTs that waited for it take effect (R246, R248). -/
def State.bindWith (s : State) (c : Nat) (arrays engines : List Nat) : State :=
  let st := stoveOf c
  let x := s.ctx c
  let l := x.lease
  let gs := (s.freeGranules st).take l.granules
  let qs := (s.freeSeqs st).take l.seqs
  let s := s.leaseWays c l
  let s := s.setCtx c { x with
    state := 2, isBound := true, bound := l, arrays := arrays, engines := engines, granules := gs, seqs := qs,
    holds := if (s.stk st).gating then [.thermal] else [], waiters := [], stopping := none, rebind := false, loanCut := false,
    pendingStart := [] }
  let s := (s.readyGranules st gs).applyEmber st
  x.pendingStart.foldl (fun s p => s.startSeq st (nth 0 qs p.1) c p.2.1 p.2.2) s
/-- Binds a context with free arrays. -/
def State.bindCtx (s : State) (c : Nat) : State :=
  let st := stoveOf c
  let n := (s.ctx c).lease.groups
  s.bindWith c ((s.freeArrays st).take (4 * n)) ((s.freeEngines st).take n)

/-- Does an evaluation context run on lent arrays only (R251)? -/
def Ctx.borrows (x : Ctx) : Bool := x.isEval && x.lease.groups == 0
/-- Does one runnable context precede another: by priority, and by age within a priority (R248)? -/
def Ctx.before (x y : Ctx) : Bool := decide (x.prio > y.prio ∨ (x.prio = y.prio ∧ x.age < y.age))
/-- The first of a list of contexts in that order. -/
def firstCtx (l : List (Nat × Ctx)) : Option Nat :=
  (l.foldl (fun b p =>
    match b with
    | none => some p
    | some q => if p.2.before q.2 then some p else some q) none).map (·.1)
/-- The runnable context of a stove that is bound next. -/
def State.nextBind (s : State) (st : Nat) : Option Nat :=
  firstCtx (s.cx.ctxs.filter fun p => p.1 / 1024 == st && p.2.valid && p.2.state == 1 && !p.2.borrows && s.canBind p.1)
/-- Is a re-binding under way on a stove? -/
def State.rebinding (s : State) (st : Nat) : Bool := s.cx.ctxs.any fun p => p.1 / 1024 == st && p.2.rebind

-- Loans (R251, R252)

/-- LEND_SEM of a lender is posted once. -/
def State.postLend (s : State) (c : Nat) : State := s.semPost ⟨stoveOf c, 0, 0, c, 0⟩ (s.ctx c).bound.lendSem 1
/-- LEND_SEM of a lender is set to zero. -/
def State.zeroLend (s : State) (c : Nat) : State := s.modCtx c fun x => x.setSem x.bound.lendSem 0
/-- The evaluation context that borrows from a lender next. -/
def State.nextBorrower (s : State) (c : Nat) : Option Nat :=
  let st := stoveOf c
  firstCtx (s.cx.ctxs.filter fun p =>
    p.1 / 1024 == st && p.2.valid && p.2.state == 1 && p.2.borrows && p.2.slot == (s.ctx c).slot && s.canBind p.1)
/-- Binds a borrower with the lender's arrays and engines. -/
def State.lendTo (s : State) (c d : Nat) : State :=
  let x := s.ctx c
  let s := s.bindWith d x.arrays x.engines
  (s.modCtx d fun y => { y with borrowing := some c }).modCtx c fun x => { x with lending := true, loanWait := false, lentTo := some d }
/-- Has a context an array-pool instruction or a VOP in flight? -/
def State.arrayWork (s : State) (c : Nat) : Bool :=
  s.sq.flights.any fun f => f.ctx == c && (has [0x10, 0x11, 0x12] f.opcode ||
    match f.body with
    | .vec _ => true
    | _ => false)
/-- A loan that waits for the lender's work in flight begins once there is none. -/
def State.tryLoan (s : State) (c : Nat) : State :=
  if (s.ctx c).loanWait ∧ !s.arrayWork c then
    match s.nextBorrower c with
    | some d => (s.zeroLend c).lendTo c d
    | none => ((s.zeroLend c).modCtx c fun x => { x with loanWait := false }).postLend c
  else s
/-- LOAN_BEGIN at a slot's commit, for one lender. -/
def State.loanAtCommit (s : State) (c : Nat) : State :=
  if fld (s.rd (stoveOf c) Reg.STK_LOAN_MAX) 15 0 = 0 ∨ (s.nextBorrower c).isNone then (s.zeroLend c).postLend c
  else (s.modCtx c fun x => { x with loanWait := true }).tryLoan c
/-- LOAN_BEGIN at a slot's commit (R222, R251). -/
def State.loansAtCommit (s : State) (b : Nat) : State :=
  (s.cx.ctxs.filter fun p => p.2.valid && p.2.isBound && p.2.isJob && p.2.slot == b && p.2.bound.lend && !p.2.lending).foldl
    (fun s p => s.loanAtCommit p.1) s
/-- The lender that waits to lend to a context (R251). -/
def State.lenderOf (s : State) (c : Nat) : Option Nat :=
  (s.cx.ctxs.find? fun p => p.1 / 1024 == stoveOf c && p.2.loanWait && s.nextBorrower p.1 == some c).map (·.1)
/-- CONTEXT_BIND: every item of a runnable context's lease has become free (R248), or the array work of the lender that a borrower waits
for has ended (R251). The stoker reads the context's record in its SRAM: a corrected error is counted, an uncorrectable one faults the
context whose state it held (R260). -/
def execContextBind (c : Met Nat) (s : State) : Res :=
  let ctx := c.val
  let st := stoveOf ctx
  let s := if c.ecc = .ce then s.countC st 0xB0 1 else s
  if c.ecc = .ue ∧ (s.ctx ctx).valid then .next (((s.countU st 0xB0 1).stkLog st 8 0 0 ctx 0).faultCtx ctx 8 0xB)
  else
    .next (if s.nextBind st = some ctx ∧ !s.rebinding st then s.bindCtx ctx
      else
        match s.lenderOf ctx with
        | some p => s.tryLoan p
        | none => s)
/-- A borrower gives back what it borrowed. -/
def State.giveBack (s : State) (d : Nat) : State := s.modCtx d fun y => { y with arrays := [], engines := [], borrowing := none }
/-- A borrower has stopped: the next one borrows in turn, where there is one and the loan is not cut. -/
def State.passLoan (s : State) (d : Nat) : State :=
  let y := s.ctx d
  match y.borrowing with
  | none => s
  | some c =>
    if y.loanCut ∨ y.state = 2 then s
    else
      match s.nextBorrower c with
      | some e => (s.giveBack d).lendTo c e
      | none => s

-- Stops (R19, R95, R246, R275)

/-- Do the units of a context stand at beat boundaries? -/
def State.unitsStill (s : State) (c : Nat) : Bool :=
  s.ar.arrays.all fun a =>
    match a.2.run with
    | some r => (s.sq.flights.find? fun f => f.id == r.fid).all fun f => f.ctx != c
    | none => true
/-- What a stopped context has in flight is held, with its pending lines ready (R64, R95): it continues at RESUME. An instruction
ended by a discarded beat completes now, with its post (R64). -/
def State.pauseFlights (s : State) (c : Nat) : State :=
  s.sq.flights.foldl (fun s f =>
    if f.ctx ≠ c then s
    else
      match f.body with
      | .fill .. => s
      | .product p =>
        if p.ended then (s.endFlight f).postOpt f.src f.post else (s.readyLines f).putFlight { f with lines := [] }
      | _ => (s.readyLines f).putFlight { f with lines := [] }) s
/-- Every unit of a context has stopped: its sequencers stop, and they and what they had in flight continue at RESUME. -/
def State.stopCtx (s : State) (c : Nat) : State :=
  let st := stoveOf c
  let s := s.pauseFlights c
  let s := (List.range 64).foldl (fun s n =>
    let q := s.seq st n
    if q.ctx = some c ∧ 1 ≤ q.state ∧ q.state ≤ 4 then s.stopSeq st n true else s) s
  (s.modCtx c fun x => { x with
    state := if x.state = 2 then 3 else x.state, waiters := [], stopping := none,
    holds := x.holds.filter fun h => h != .stopNow && h != .residue }).tryLoan c

/-- Everything a sequencer issued has completed (R71, R89): at END it stops; at a branch to an entry it switches. -/
def execEndStop (st sq : Nat) (s : State) : Res :=
  let q := s.seq st sq
  if s.owes st sq then .next s
  else
    match q.ctx, q.switchTo with
    | some c, none => .next (if q.atEnd then ((s.stopSeq st sq false).settleCtx c).passLoan c else s)
    | some _, some e => .next (s.switchAt st sq e.1)
    | none, _ => .next s

/-- LOAN_CUT: STK_LOAN_MAX has passed; the borrower is to stop at its next beat boundary (R251). -/
def execLoanCut (ctx : Nat) (s : State) : Res :=
  match (s.ctx ctx).lentTo with
  | none => .next s
  | some d =>
    if (s.ctx d).loanCut then .next s
    else
      let st := stoveOf ctx
      let s := s.modCtx d fun y => { y with
        loanCut := true, holds := if y.holds.contains .stopNow then y.holds else y.holds ++ [.stopNow] }
      .next ((s.stkLog st 7 0 0 d 0).raise st 0xB0 6)

/-- BORROWER_STOPPED: the borrower's units have stopped; the loan ends and LEND_SEM is posted (R251). -/
def execBorrowerStopped (ctx : Nat) (s : State) : Res :=
  match (s.ctx ctx).lentTo with
  | none => .next s
  | some d =>
    let y := s.ctx d
    if (y.state = 2 ∧ !y.loanCut) ∨ !s.unitsStill d then .next s
    else
      let s := (if y.state = 2 then s.stopCtx d else s)
      match (if y.loanCut then none else s.nextBorrower ctx) with
      | some e => .next ((s.giveBack d).lendTo ctx e)
      | none =>
        .next (((s.giveBack d).modCtx ctx fun x => { x with lending := false, lentTo := none }).postLend ctx)

end Sys2Proof.Machine
end

