-- ==== Sys2Proof/Machine/Units.lean ====
section
/-! DEFINITION. The array pool: products, their units, tasks and beats, group sums, the drain, the tree, residue failures and
their re-execution (R31 to R36, R47 to R67). Also REDUCE_TO_SCALAR (R83) and the completion of instructions (R80, R86). -/

namespace Sys2Proof.Machine

/-- MATMUL, MATMUL_T and MATMUL_WG by their opcodes. -/
abbrev prodN : Nat := 0x10
/-- MATMUL_T. -/
abbrev prodT : Nat := 0x11
/-- MATMUL_WG. -/
abbrev prodWg : Nat := 0x12

/-- Pair mode (R48). -/
def pairMode (op : Nat) (a b : View) : Bool :=
  op != prodWg && (b.fmt == .t2 || b.fmt == .i2s) && has [0, 1, 2, 3, 4] a.fmt.code

/-- Segments of a reduction (R34). -/
def Product.segs (p : Product) : Nat := cdiv p.k 4096
/-- Output slices (R50). -/
def Product.slices (p : Product) : Nat := cdiv p.n 256
/-- Streamed blocks (R50). -/
def Product.blocks (p : Product) : Nat := cdiv p.m 2048
/-- Output tiles: a streamed block by an output slice (R52). -/
def Product.tiles (p : Product) : Nat := p.slices * p.blocks
/-- Units: seg varies fastest, then the slice, then the block (R50). -/
def Product.units (p : Product) : Nat := p.segs * p.tiles
/-- The tile of a unit. -/
def Product.tileOf (p : Product) (u : Nat) : Nat := u / p.segs
/-- The first streamed row, and the rows, of a tile. -/
def Product.rowsOf (p : Product) (t : Nat) : Nat × Nat :=
  let b := t / p.slices
  (2048 * b, min 2048 (p.m - 2048 * b))
/-- The first lane, and the lanes, of a tile. -/
def Product.lanesOf (p : Product) (t : Nat) : Nat × Nat :=
  let l := t % p.slices
  (256 * l, min 256 (p.n - 256 * l))
/-- Is the product in pair mode? -/
def Product.pair (p : Product) : Bool := pairMode p.kind p.a p.b
/-- Reduction positions of a stationary tile (R48). -/
def Product.tileLen (p : Product) : Nat := if p.pair then 512 else 256
/-- The reduction positions of a unit: first and past the last. -/
def Product.span (p : Product) (u : Nat) : Nat × Nat :=
  let g := u % p.segs
  (4096 * g, min p.k (4096 * g + 4096))
/-- Beats of a task: two for pair weights in transposed orientation (R48). -/
def Product.taskBeats (p : Product) : Nat := if p.pair ∧ p.kind = prodT then 2 else 1
/-- Beats of a unit (R50). -/
def Product.unitBeats (p : Product) (u : Nat) : Nat :=
  let x := p.span u
  cdiv (x.2 - x.1) p.tileLen * p.taskBeats
/-- The output view element of streamed row r and lane l. -/
def Product.outAt (p : Product) (r l : Nat) : Nat × Nat := if p.kind = prodWg then (l, r) else (r, l)
/-- The element of A that streamed row r uses at reduction position j. -/
def Product.aAt (p : Product) (r j : Nat) : Nat × Nat := if p.kind = prodWg then (j, r) else (r, j)
/-- The element of B that lane l uses at reduction position j. -/
def Product.bAt (p : Product) (l j : Nat) : Nat × Nat := if p.kind = prodT then (l, j) else (j, l)

-- Group sums (R32, R33)

/-- The place of lane l and reduction position j in a stationary tile. -/
def StatTile.at (w : StatTile) (l j : Nat) : Nat := (l - w.lane0) * w.len + (j - w.pos0)
/-- A stationary tile as the weight chain reads it (R54): task `t` of a unit. -/
def State.readTile (s : State) (c fid : Nat) (p : Product) (u t : Nat) : StatTile :=
  let x := p.span u
  let lo := x.1 + t * p.tileLen
  let n := min p.tileLen (x.2 - lo)
  let ln := p.lanesOf (p.tileOf u)
  let cells := (List.range ln.2).flatMap fun i => (List.range n).map fun k => p.bAt (ln.1 + i) (lo + k)
  { fid := fid, unit := u, task := t, lane0 := ln.1, pos0 := lo, len := n,
    codes := cells.map fun y => s.codeAt c p.b y.1 y.2, scales := cells.map fun y => s.scaleAt c p.b y.1 y.2 }
/-- The reduction positions of the task that a beat of a unit belongs to. -/
def Product.taskSpan (p : Product) (u beat : Nat) : Nat × Nat :=
  let x := p.span u
  let lo := x.1 + beat / p.taskBeats * p.tileLen
  (lo, min x.2 (lo + p.tileLen))
/-- The place of streamed row r and reduction position j in a beat's streamed rows. -/
def StreamTile.at (a : StreamTile) (r j : Nat) : Nat := (r - a.row0) * a.len + (j - a.pos0)
/-- The streamed rows of a beat as the array reads them (R50). -/
def State.readStream (s : State) (c : Nat) (p : Product) (u beat : Nat) : StreamTile :=
  let x := p.taskSpan u beat
  let rw := p.rowsOf (p.tileOf u)
  let cells := (List.range rw.2).flatMap fun i => (List.range (x.2 - x.1)).map fun k => p.aAt (rw.1 + i) (x.1 + k)
  { row0 := rw.1, pos0 := x.1, len := x.2 - x.1,
    codes := cells.map fun y => s.codeAt c p.a y.1 y.2, scales := cells.map fun y => s.scaleAt c p.a y.1 y.2 }
/-- The two multiplier operands that a cell multiplies at a reduction position: the streamed one and the active stationary one
(R24, R47). -/
def Product.cellOps (p : Product) (a : StreamTile) (w : StatTile) (r l j : Nat) : Int × Int :=
  (mulOperand p.a.fmt p.a.zp (nth 0 a.codes (a.at r j)), mulOperand p.b.fmt p.b.zp (nth 0 w.codes (w.at l j)))
/-- The exact integer sum of products over [lo, hi). -/
def Product.dot (p : Product) (a : StreamTile) (w : StatTile) (r l lo hi : Nat) : Int :=
  (List.range (hi - lo)).foldl (fun t k => let y := p.cellOps a w r l (lo + k); t + y.1 * y.2) 0
/-- The combined scale exponent at a reduction position. -/
def StreamTile.scaleSum (a : StreamTile) (w : StatTile) (r l j : Nat) : Nat := nth 0 a.scales (a.at r j) + nth 0 w.scales (w.at l j)
/-- The residue of an integer (R62). -/
def residue (v : Int) : Nat := (v % 7).toNat
/-- The check residue of a sum over [lo, hi), from its operands (R62). -/
def Product.checkResidue (p : Product) (a : StreamTile) (w : StatTile) (r l lo hi : Nat) : Nat :=
  ((List.range (hi - lo)).map fun k =>
    let y := p.cellOps a w r l (lo + k)
    residue y.1 * residue y.2).sum % 7
/-- f_a + f_b: the F4 operands are doubled (R24, R32). -/
def f4Flags (a b : View) : Nat := b2n (a.fmt == .f4) + b2n (b.fmt == .f4)
/-- The value of the group over [lo, hi), and the non-zero sub-sums dropped (R32, R33). -/
def Product.groupVal (p : Product) (a : StreamTile) (w : StatTile) (r l lo hi : Nat) : ℚ × Nat :=
  let e := (254 + f4Flags p.a p.b : Int)
  if p.a.grain = .square ∨ p.b.grain = .square then
    let subs := (List.range (cdiv (hi - lo) 8)).map fun k =>
      (p.dot a w r l (lo + 8 * k) (min hi (lo + 8 * k + 8)), a.scaleSum w r l (lo + 8 * k))
    let top := subs.foldl (fun m x => max m x.2) 0
    let g := subs.foldl (fun (t : ℚ × Nat) x =>
      let d := top - x.2
      if d ≤ 7 then (t.1 + (x.1 : ℚ) * pow2 (-(d : Int)), t.2) else (t.1, t.2 + b2n (x.1 ≠ 0))) (0, 0)
    (g.1 * pow2 ((top : Int) - e), g.2)
  else (((p.dot a w r l lo hi : Int) : ℚ) * pow2 ((a.scaleSum w r l lo : Int) - e), 0)

/-- The key of an accumulator. -/
def accKey (u row lane : Nat) : Nat := 2 ^ 20 * u + 256 * row + lane
/-- One accumulator carried through the groups of a stationary tile (R34): its value and its range events. -/
def Product.accRun (p : Product) (a : StreamTile) (w : StatTile) (d : Draw) (r l lo hi : Nat) (acc : ℚ) : ℚ × Nat × Nat :=
  let o := p.outAt r l
  let i := p.c.num o.1 o.2
  (List.range (cdiv (hi - lo) p.gs)).foldl (fun (t : ℚ × Nat × Nat) k =>
    let g := lo + k * p.gs
    let v := p.groupVal a w r l g (min hi (g + p.gs))
    let x := roundN16 (t.1 + v.1) (d.u p.c.tid (fold40 i (g / p.gs)) 0x01)
    (x.val, t.2.1 + b2n x.sat, t.2.2 + b2n x.flush + v.2)) (acc, 0, 0)

/-- The accumulators of a unit. -/
def unitAcc (acc : Tab W16) (u : Nat) : Tab W16 := acc.filter fun e => e.1 / 2 ^ 20 == u
/-- The accumulators of a unit after a beat of it with the streamed rows `a` on the stationary tile `w`, with the range events; the
first beat of a two-beat task changes none (R48, R53). -/
def Product.beatAcc (p : Product) (a : StreamTile) (w : StatTile) (d : Draw) (u beat : Nat) : Tab W16 × Nat × Nat :=
  let acc := unitAcc p.acc u
  if (beat + 1) % p.taskBeats ≠ 0 then (acc, 0, 0)
  else
    let t := p.tileOf u
    let x := p.taskSpan u beat
    let rw := p.rowsOf t
    let ln := p.lanesOf t
    (List.range rw.2).foldl (fun z i =>
      (List.range ln.2).foldl (fun (z : Tab W16 × Nat × Nat) j =>
        let k := accKey u i j
        let y := p.accRun a w d (rw.1 + i) (ln.1 + j) x.1 x.2 (decN16 (tabGet (fun _ => 0) z.1 k))
        (tabSet (fun _ => 0) z.1 k (encN16 y.1), z.2.1 + y.2.1, z.2.2 + y.2.2)) z) (acc, 0, 0)
/-- The bank with the accumulators of one unit replaced. -/
def mergeAcc (acc : Tab W16) (u : Nat) (new : Tab W16) : Tab W16 :=
  new.foldl (fun t e => tabPut t e.1 e.2) (acc.filter fun e => e.1 / 2 ^ 20 != u)

-- The drain (R52, R56, R60, R61)

/-- The final values of a tile: streamed row, lane and p. -/
abbrev TileVals := List (Nat × Nat × ℚ)

/-- The exact output value of an element (R56). -/
def State.drainVal (s : State) (c : Nat) (p : Product) (r l : Nat) (x : ℚ) : ℚ :=
  if p.kind = prodN then fnVal p.func (decN16 p.alpha) p.table x
  else
    match p.deriv, p.z with
    | true, some z =>
      let o := p.outAt r l
      x * fnDeriv p.func (decN16 p.alpha) p.table (s.valAt c z o.1 o.2)
    | _, _ => x

/-- The address in the tree area of the result of a segment for streamed row r and lane l (R52). -/
def Product.treeOff (p : Product) (seg r l : Nat) : Nat := 2 * ((seg * p.m + r) * p.n + l)

/-- The lines of a rectangle of a view. -/
def State.rectLines (s : State) (c : Nat) (v : View) (r0 nr c0 nc : Nat) : List Nat :=
  if v.place ≠ .spd then []
  else
    let n := fmtBits v.fmt
    let rows := (List.range nr).map fun i =>
      (v.addr + (r0 + i) * v.stride + c0 * n / 8, cdiv ((c0 + nc) * n) 8 - c0 * n / 8)
    let scales := if scaled v.fmt then
        (List.range nr).map fun i =>
          let a := v.blk (r0 + i) c0
          (v.addr + v.scaleOff + a, v.blk (r0 + i) (c0 + nc - 1) + 1 - a)
      else []
    s.linesOf c (rows ++ scales)
/-- Reads that an instruction in flight makes after its issue: of a line that is pending under another one's claim they are slips
(R96). -/
def State.readLate (s : State) (f : Flight) (ls : List Nat) : State :=
  ls.foldl (fun s l =>
    let t := s.tag f.st l
    if t.pending ∧ t.epoch ≠ f.epoch % 65536 then s.slip f.src 5 t.epoch l else s) s
/-- The lines of the argument of a fused derivative that the drain of some elements reads (R60). -/
def State.zLines (s : State) (c : Nat) (p : Product) (vs : TileVals) : List Nat :=
  match p.z with
  | some z => (vs.flatMap fun v => let o := p.outAt v.1 v.2.1; s.rectLines c z o.1 1 o.2 1).eraseDups
  | none => []

/-- Writes the outputs of a tile: into memory, or as additions on their way to a reduction buffer (R12, R56, R61, R147). -/
def State.drainTile (s : State) (f : Flight) (p : Product) (vs : TileVals) : State :=
  let c := f.ctx
  let s := s.readLate f (s.zLines c p vs)
  let s :=
    if p.c.place = .rb then
      let b := (s.ctx c).slot
      let pass := tabGet (fun _ => 0) s.ht.cpass (4096 * b + c)
      { s with ht := { s.ht with adds := s.ht.adds ++ vs.map fun v =>
          let o := p.outAt v.1 v.2.1
          ⟨b, p.c.rbElem o.1 o.2, p.c.num o.1 o.2, p.c.tid, encN16 v.2.2, c, pass, f.id⟩ } }
    else
      let d := s.draw c
      let items := vs.map fun v => let o := p.outAt v.1 v.2.1; (o.1, o.2, s.drainVal c p v.1 v.2.1 v.2.2)
      let u := fun i => if p.c.cls = .grad then d.u p.c.tid (fold40 i 0) 0x03 else none
      let w := (s.setNext f.id).storeItems c p.c u items
      (w.1.setNext s.sq.nextId).tallyCtx c p.c.fmt p.c.cls w.2
  match p.d with
  | none => s
  | some v =>
    let w := (s.setNext f.id).storeItems c v (fun _ => none) (vs.map fun x => let o := p.outAt x.1 x.2.1; (o.1, o.2, x.2.2))
    (w.1.setNext s.sq.nextId).tallyCtx c v.fmt v.cls w.2

/-- The lines of an output tile, of both outputs. -/
def State.tileLines (s : State) (c : Nat) (p : Product) (t : Nat) : List Nat :=
  let rw := p.rowsOf t
  let ln := p.lanesOf t
  let a := p.outAt rw.1 ln.1
  let n := p.outAt rw.2 ln.2
  s.rectLines c p.c a.1 n.1 a.2 n.2 ++ (p.d.map fun v => s.rectLines c v a.1 n.1 a.2 n.2).getD []

/-- Has a unit finished its beats? -/
def Product.unitDone (p : Product) (u : Nat) : Bool := decide (tabGet (fun _ => 0) p.beats u ≥ p.unitBeats u)
/-- Is an output tile drained? -/
def Product.tileDone (p : Product) (t : Nat) : Bool :=
  if p.segs > 1 then has p.trees t else p.unitDone (t * p.segs)
/-- Is the whole product drained? -/
def Product.done (p : Product) : Bool := (List.range p.tiles).all p.tileDone

/-- The lines of the tree area that a unit writes (R52). -/
def State.treeLines (s : State) (c : Nat) (p : Product) (u : Nat) : List Nat :=
  match p.tree with
  | none => []
  | some v =>
    let t := p.tileOf u
    let rw := p.rowsOf t
    let ln := p.lanesOf t
    s.linesOf c ((List.range rw.2).map fun i => (v.addr + p.treeOff (u % p.segs) (rw.1 + i) ln.1, 2 * ln.2))
/-- After a tile has drained, or a segment of it is written: lines that no tile or unit still to come writes become ready, and a
drained product has nothing left to do before its completion (R95). -/
def State.afterTile (s : State) (f : Flight) (p : Product) : State :=
  let left := ((List.range p.tiles).filter fun t => !p.tileDone t).flatMap (fun t => s.tileLines f.ctx p t) ++
    ((List.range p.units).filter fun u => !p.unitDone u).flatMap fun u => s.treeLines f.ctx p u
  let go := f.lines.filter fun l => !has left l
  let s := s.readyLines { f with lines := go }
  s.putFlight { f with lines := f.lines.filter (has left), body := if p.done then .plain else .product p }

/-- The results of a unit's rows from `lo` to `hi`, out of its accumulators. -/
def Product.rowVals (p : Product) (u : Nat) (acc : Tab W16) (lo hi : Nat) : TileVals :=
  let t := p.tileOf u
  let ln := p.lanesOf t
  (List.range (hi - lo)).flatMap fun i => (List.range ln.2).map fun j =>
    ((p.rowsOf t).1 + lo + i, ln.1 + j, decN16 (tabGet (fun _ => 0) acc (accKey u (lo + i) j)))
/-- The drain writes results of a unit: into the outputs, or into the tree area (R52, R56). -/
def State.drainRows (s : State) (f : Flight) (p : Product) (u : Nat) (vs : TileVals) : State :=
  if p.segs > 1 then
    match p.tree with
    | none => s
    | some v => vs.foldl (fun s x => s.putBytes f.ctx v (p.treeOff (u % p.segs) x.1 x.2.1) (leBytes 2 (encN16 x.2.2).toNat)) s
  else s.drainTile f p vs
/-- A unit's last beat is done (R52, R56): the results of its rows from `lo` on, which are not written yet, go to the drain. -/
def State.drainUnit (s : State) (f : Flight) (p : Product) (u lo : Nat) : State :=
  let vs := p.rowVals u p.acc lo (p.rowsOf (p.tileOf u)).2
  let p' := { p with acc := p.acc.filter fun e => e.1 / 2 ^ 20 != u }
  (s.drainRows f p' u vs).afterTile f p'
/-- Streamed rows that the drain writes together: a block of a scaled output lies in rows of tiles, or for MATMUL_WG along the streamed
rows (R30, R56). -/
def Product.rowGroup (p : Product) : Nat :=
  let g := fun (v : View) => if !scaled v.fmt then 1 else if v.grain = .square then 8 else if p.kind = prodWg then v.grain.size else 1
  (p.c :: p.d.toList).foldl (fun m v => max m (g v)) 1

-- Scheduling of beats (R50, R87)

/-- Arrays of a context's lease that take its units: its own, or those it borrows (R251). -/
def State.poolOf (s : State) (c : Nat) : List Nat := (s.ctx c).arrays

/-- The next beat that a flight has for its array at position k: the first of the array's units not finished and not failed. -/
def State.nextBeat (s : State) (f : Flight) (p : Product) (k n : Nat) : Option Run :=
  if p.ended then none
  else
    ((List.range p.units).find? fun u => u % n == k && !p.unitDone u).bind fun u =>
      if s.ar.failed.any fun b => b.run.fid == f.id && b.run.unit == u then none
      else some ⟨f.id, u, tabGet (fun _ => 0) p.beats u⟩

/-- The tasks of a product that use a stationary tile which task `t` of unit `u` does not use up: those of every unit not finished,
from its own next task on. -/
def Product.tasksLeft (p : Product) : List (Nat × Nat) :=
  (List.range p.units).flatMap fun u =>
    let n := p.unitBeats u / p.taskBeats
    let k := tabGet (fun _ => 0) p.beats u / p.taskBeats
    (List.range (n - k)).map fun i => (u, k + i)
/-- The byte ranges of the stationary operand that a task's tile is read from. -/
def Product.tileRanges (p : Product) (u t : Nat) : List (Nat × Nat) :=
  let x := p.span u
  let lo := x.1 + t * p.tileLen
  let n := min p.tileLen (x.2 - lo)
  let ln := p.lanesOf (p.tileOf u)
  let v := p.b
  let a := p.bAt ln.1 lo
  let m := p.bAt (ln.2 - 1) (n - 1)
  let bitsN := fmtBits v.fmt
  (List.range (m.1 + 1)).flatMap fun r =>
    let o := (a.1 + r) * v.stride + a.2 * bitsN / 8
    let e := (a.1 + r) * v.stride + cdiv ((a.2 + m.2 + 1) * bitsN) 8
    let k := v.scaleOff + v.blk (a.1 + r) a.2
    (v.addr + o, e - o) ::
      (if scaled v.fmt then [(v.addr + k, v.scaleOff + v.blk (a.1 + r) (a.2 + m.2) + 1 - k)] else [])
/-- A chain fetch of a tile from HBM: a read of its lines in the context's weight ways (R55). `busy`: the lines that other arrays
fetch at the same moment; the answer adds those of this fetch. -/
def State.chainFetch (s : State) (c : Nat) (p : Product) (u t : Nat) (busy : List Nat) : State × List Nat :=
  if p.b.place ≠ .virt then (s, busy)
  else
    let rs := p.tileRanges u t
    let missed := (rangeLines rs).filterMap fun l => (s.vaAddr c (128 * l)).bind fun a =>
      if (s.hline a).isNone then some (a / 128) else none
    (s.reachAs (stoveOf c) c rs false true 1 busy, busy ++ missed)
/-- Has a task's tile been loaded: it stands in an array's stationary registers, or in the replay buffer of a failed beat? -/
def State.taskLoaded (s : State) (fid : Nat) (p : Product) (q : Nat × Nat) : Bool :=
  let is := fun (w : StatTile) => w.fid == fid && w.unit == q.1 && w.task == q.2
  (s.ar.arrays.any fun a => a.2.active.any is || a.2.shadow.any is) ||
    s.ar.failed.any fun b => b.run.fid == fid && b.run.unit == q.1 && b.run.beat / p.taskBeats == q.2
/-- The lines of weights that the products of a context in flight still have to load (R55). -/
def State.chainNeeds (s : State) (c : Nat) : List Nat :=
  s.sq.flights.flatMap fun f =>
    match f.body with
    | .product p =>
      if f.ctx ≠ c ∨ p.ended ∨ p.b.place ≠ .virt then []
      else
        ((p.tasksLeft.filter fun q => !s.taskLoaded f.id p q).flatMap fun q => rangeLines (p.tileRanges q.1 q.2)).filterMap fun l =>
          (s.vaAddr c (128 * l)).map (· / 128)
    | _ => []
/-- Lines of a context's weight ways that no task of its products still to load needs are given up (R55). -/
def State.chainDone (s : State) (c : Nat) (p : Product) : State :=
  if p.b.place ≠ .virt then s
  else
    let need := s.chainNeeds c
    let s := s.dropLines fun h => h.kind == 1 && h.owner == c && !need.contains h.line
    { s with ca := { s.ca with evicted := s.ca.evicted.filter fun e => e.1 != c || need.contains e.2 } }
/-- The lines of scratchpad that the chain reads for a task's tile. -/
def State.chainLines (s : State) (c : Nat) (p : Product) (u t : Nat) : List Nat :=
  if p.b.place = .spd then s.linesOf c (p.tileRanges u t) else []
/-- The lines of scratchpad that a beat streams. -/
def State.streamLines (s : State) (c : Nat) (p : Product) (u beat : Nat) : List Nat :=
  let x := p.taskSpan u beat
  let rw := p.rowsOf (p.tileOf u)
  let a := p.aAt rw.1 x.1
  let n := p.aAt rw.2 (x.2 - x.1)
  s.rectLines c p.a a.1 n.1 a.2 n.2
/-- The task after a unit's task on its array: the unit's next one, or the first of the array's next unit. -/
def Product.nextTask (p : Product) (u t n : Nat) : Option (Nat × Nat) :=
  if (t + 1) * p.taskBeats < p.unitBeats u then some (u, t + 1)
  else if u + n < p.units then some (u + n, 0)
  else none
/-- Starts a beat on an array (R47, R54): its streamed rows are read. At a task's first beat its tile becomes active: the one in the
shadow registers, or one loaded now; the chain then loads the next task's tile into the shadow registers. That it goes on from a page
that has moved to the cold tier since the issue is a DESIGN CHOICE (log 77). -/
def State.startBeat (s : State) (st a n : Nat) (f : Flight) (p : Product) (r : Run) (busy : List Nat) : State × List Nat :=
  let x := { s.arr st a with run := some r, stream := s.readStream f.ctx p r.unit r.beat }
  let s := s.readLate f (s.streamLines f.ctx p r.unit r.beat)
  if r.beat % p.taskBeats ≠ 0 ∧ (x.active.any fun w => w.fid == f.id && w.unit == r.unit) then (s.setArr st a x, busy)
  else
    let t := r.beat / p.taskBeats
    let here := x.shadow.filter fun w => w.fid == f.id && w.unit == r.unit && w.task == t
    let next := p.nextTask r.unit t n
    let s := s.readLate f ((if here.isSome then [] else s.chainLines f.ctx p r.unit t) ++
      (next.map fun q => s.chainLines f.ctx p q.1 q.2).getD [])
    let y := if here.isSome then (s, busy) else s.chainFetch f.ctx p r.unit t busy
    let z := match next with
      | some q => y.1.chainFetch f.ctx p q.1 q.2 y.2
      | none => y
    let s := z.1.setArr st a { x with
      active := some (here.getD (s.readTile f.ctx f.id p r.unit t))
      shadow := next.map fun q => s.readTile f.ctx f.id p q.1 q.2 }
    (s.chainDone f.ctx p, z.2)
/-- Starts beats on the idle arrays of a context that is not held, on a stove that is Lit (R87, R254). -/
def State.schedule (s : State) (c : Nat) : State :=
  if s.held c ∨ (s.ctx c).state ≠ 2 ∨ !s.lit (stoveOf c) then s
  else
    let st := stoveOf c
    let l := s.poolOf c
    (l.zipIdx.foldl (fun (w : State × List Nat) p =>
      let s := w.1
      let a := s.arr st p.1
      if a.run.isSome then w
      else
        match s.sq.flights.findSome? fun f =>
            match f.body with
            | .product q => if f.ctx = c then (s.nextBeat f q p.2 l.length).map fun r => (f, q, r) else none
            | _ => none with
        | some (f, q, r) => s.startBeat st p.1 l.length f q r w.2
        | none => w) (s, [])).1

-- Issue of a product

/-- Operand shapes of a product: rows and columns of A, of B (R56). -/
def prodShapes (op m n k : Nat) : (Nat × Nat) × (Nat × Nat) :=
  if op = prodWg then ((k, m), (k, n)) else if op = prodT then ((m, k), (n, k)) else ((m, k), (k, n))

/-- The product rules R24, R31, R48, R49, R54, R56, R60 and R61 on resolved views: whether an operand breaks one, and its address.
`cold`: B lies in the cold tier. -/
def prodRules (op : Nat) (p : ProdOps) (a b c : View) (d z : Option View) (cold : Bool) : List (Bool × Nat) :=
  let mult := fun (v : View) => decide (v.fmt.code ≤ 6)
  let lin := fun (v : View) (along : Bool) =>
    v.grain.linear && (!along || v.grain.size != p.gs)
  [(!mult a || a.fmt == .t2 || a.fmt == .i2s || lin a (op != prodWg) || a.place != .spd, a.addr),
    (!mult b || (op == prodWg && (b.fmt == .t2 || b.fmt == .i2s)) || lin b (op == prodT) || b.place == .rb || cold, b.addr),
    (c.place == .virt || !(has [0, 1, 2, 3, 4, 9] c.fmt.code) || (p.deriv && c.cls != .grad) ||
      (c.place == .rb && (p.func != 0 || p.deriv)), c.addr)] ++
    (d.toList.map fun v =>
      (v.place != .spd || v.grain != .square || v.cls != .act || !(has [0, 1, 2, 3, 4] v.fmt.code), v.addr)) ++
    z.toList.map fun v => (v.place != .spd, v.addr)

/-- The record and consequences of an evaluation context's write to a job's state (R20). -/
def State.evalWrite (s : State) (x : Src) : State :=
  (((s.stkLog x.st 3 0 0 x.ctx 0).raise x.st 0xB0 8).faultCtx x.ctx 3 0xB)

/-- A skip on a check of operands: one that a reduction buffer's or a merge area's view fails by its place is R148's refusal, or R20's
where an evaluation context would write it. -/
def State.skipOpd (s : State) (i : Iss) (x : Src) (ins outs : List View) (r : Nat × Nat) : State :=
  let hit := fun (l : List View) => l.find? fun v => v.place == .rb || s.mergeView x.ctx v
  if r.1 ≠ 4 then s.skip i x r.1 r.2
  else
    match hit outs, hit ins with
    | some v, _ => if (s.ctx x.ctx).isEval then s.evalWrite x else s.rbSkip i x v.refused.1 v.refused.2
    | none, some v => s.rbSkip i x v.refused.1 v.refused.2
    | none, none => s.skip i x r.1 r.2

/-- Does a context lend its arrays now (R251, R252)? -/
def State.lendsNow (s : State) (c : Nat) : Bool := (s.ctx c).lending

/-- An array-pool instruction or VOP of the lending context during the loan (R252). No value of it offends: DETAIL is 0, a DESIGN CHOICE
(log 87). -/
def State.loanSkip (s : State) (i : Iss) (x : Src) : State :=
  ((s.skip i x 2 0).stkLog x.st 4 0 0 x.ctx x.pc).raise x.st 0xB0 7

/-- A user table image that fails its checks (R59): skipped on every array, logged in the pool page, tainted. -/
def State.tableReject (s : State) (i : Iss) (x : Src) : State :=
  let s := s.postOpt x i.post
  let s := ((s.logErr x.st 0x20 ⟨0x300, pack [(x.ctx, 0), (x.sq, 12)], w32 x.pc, 0⟩).raise x.st 0x20 4).bump x.st
    Reg.ARR_TABLE_REJECTS 1
  let s := (s.bump x.st Reg.SEQ_SKIP_TOTAL 1).raise x.st 0x10 5
  (s.modSeq x.st x.sq fun q => { q with skips := satAdd 65535 q.skips 1 }).taintSeq x.st x.sq x.ctx

/-- The operands of a product, resolved, and its shape (R50, R56). `d` is the second output, `z` the argument of a derivative,
`tree` the tree area, `f` the user table. -/
structure ProdV where
  m : Nat
  n : Nat
  k : Nat
  a : View
  b : View
  c : View
  d : Option View
  z : Option View
  tree : Option View
  e : View
  f : View
deriving DecidableEq, Repr

/-- Does the product use a user table? -/
def prodUses (p : ProdOps) (op : Nat) : Bool := (if op = prodT then p.deriv else op == prodN) && p.func == 7

/-- Resolves the operands of a product. -/
def State.prodViews (s : State) (x : Src) (op : Nat) (p : ProdOps) : ProdV :=
  let k := if p.redReg then ((s.seq x.st x.sq).sreg (p.red % 64)).toNat else p.red
  let w := fun (o : Opd) (r n : Nat) => s.view x.st x.sq x.ctx o r n
  let vc := w p.c 0 0
  let m := if op = prodWg then vc.cols else vc.rows
  let n := if op = prodWg then vc.rows else vc.cols
  let sh := prodShapes op m n k
  let ve := w p.e 0 0
  { m := m, n := n, k := k, a := w p.a sh.1.1 sh.1.2, b := w p.b sh.2.1 sh.2.2, c := vc,
    d := if op = prodN ∧ p.second then some (w p.d vc.rows vc.cols) else none,
    z := if op = prodT ∧ p.deriv then some (w p.d vc.rows vc.cols) else none,
    tree := if k > 4096 then
        some { ve with place := .spd, rows := 1, cols := cdiv k 4096 * m * n, fmt := .n16, stride := 0, grain := .none }
      else none,
    e := ve, f := { w p.f 1 256 with fmt := .n16, rows := 1, cols := 256 } }

/-- The operands that a product reads. -/
def ProdV.ins (v : ProdV) (p : ProdOps) : List (Opd × View) := [(p.a, v.a), (p.b, v.b)] ++ (v.z.map fun w => (p.d, w)).toList
/-- The operands that it writes. -/
def ProdV.outs (v : ProdV) (p : ProdOps) : List (Opd × View) := [(p.c, v.c)] ++ (v.d.map fun w => (p.d, w)).toList

/-- Does any page of a view lie in the cold tier (R54)? -/
def State.coldView (s : State) (c : Nat) (v : View) : Bool :=
  v.place == .virt && v.size != 0 &&
    (List.range ((v.extent - 1) / 2 ^ 21 + 1 - v.addr / 2 ^ 21)).any fun k => (s.pte (s.ctx c).aspace (v.addr / 2 ^ 21 + k)).cold
/-- The operand whose memory descriptor or pages fail (R94 check 1). -/
def State.prodDesc (s : State) (x : Src) (p : ProdOps) (v : ProdV) : Option Nat :=
  (badAddr (v.ins p) fun o => s.descFails x.st x.sq x.ctx o.1 o.2 false) <|>
    (badAddr (v.outs p ++ (if p.e.desc then [(p.e, v.e)] else [])) fun o => s.descFails x.st x.sq x.ctx o.1 o.2 true)
/-- The counts and extents of a product against their limits (R51), each with its value. -/
def State.prodLimits (s : State) (x : Src) (op : Nat) (p : ProdOps) (v : ProdV) : List (Bool × Nat) :=
  let sh := prodShapes op v.m v.n v.k
  let under := fun (o : Opd) (w : View) (n : Nat × Nat) =>
    [(o.desc && decide (w.rows < n.1), w.rows), (o.desc && decide (w.cols < n.2), w.cols)]
  let same := fun (w : View) => [(w.rows != v.c.rows, w.rows), (w.cols != v.c.cols, w.cols)]
  [(decide (v.k > 65536), v.k), (decide (v.m > 65536), v.m), (decide (v.n > 16384), v.n), (s.countFails x.ctx v.c, v.c.addr)] ++
    under p.a v.a sh.1 ++ under p.b v.b sh.2 ++ v.d.toList.flatMap same ++ v.z.toList.flatMap same ++
    [(decide (v.k > 4096) && (p.e.absent || v.e.place != .spd), v.k)] ++
    v.tree.toList.map fun w => (p.e.desc && decide (w.extent - w.addr > v.e.extent - v.e.addr), w.extent - w.addr)
/-- The run-time check that a product fails, and the offending value: the address of the operand that fails, or the count (R94,
R100). -/
def State.prodCheck (s : State) (x : Src) (op : Nat) (p : ProdOps) (v : ProdV) : Option (Nat × Nat) :=
  checks [(3, s.prodDesc x p v),
    (1, (badAddr (v.ins p ++ v.outs p ++ v.tree.toList.map fun w => (p.e, w)) fun o => s.extentFails x.ctx o.1 o.2) <|>
      (badAddr [(p.f, v.f)] fun o => prodUses p op && (s.extentFails x.ctx p.f o.2 || o.2.addr % 512 != 0))),
    (2, firstTrue (s.prodLimits x op p v)),
    (4, firstTrue (prodRules op p v.a v.b v.c v.d v.z (s.coldView x.ctx v.b)))]

/-- The user table of a product as it is loaded at issue (R59). -/
def State.prodTable (s : State) (c op : Nat) (p : ProdOps) (v : ProdV) : List Byte :=
  if prodUses p op then s.bytesOf c v.f 0 512 else []
/-- The lines that a product reads at its issue: those of its user table. -/
def State.prodReads (s : State) (c op : Nat) (p : ProdOps) (v : ProdV) : List Nat := if prodUses p op then s.viewLines c v.f else []
/-- The lines that a product claims. -/
def State.prodLines (s : State) (c : Nat) (p : ProdOps) (v : ProdV) : List Nat :=
  (((v.outs p).flatMap fun o => s.viewLines c o.2) ++
    (match v.tree with | some w => s.viewLines c w | none => [])).eraseDups
/-- The product that is launched. -/
def ProdV.start (v : ProdV) (op : Nat) (p : ProdOps) (table : List Byte) : Product :=
  { kind := op, a := v.a, b := v.b, c := v.c, d := v.d, tree := v.tree, z := v.z, m := v.m, n := v.n, k := v.k,
    gs := p.gs, func := p.func, deriv := p.deriv, alpha := p.alpha, table := table, beats := [], acc := [],
    trees := [], ended := false }

/-- The operands of a product that may be head chairs: A, B, and Z of a fused derivative (R60, R110). -/
def prodChairs (op : Nat) (p : ProdOps) : List Opd := [p.a, p.b] ++ (if op = prodT ∧ p.deriv then [p.d] else [])
/-- A product (R50, R51, R56, R80, R94). -/
def State.issueProduct (s : State) (op : Nat) (i : Iss) (p : ProdOps) : State :=
  match s.begin i op (prodChairs op p) with
  | (s, none) => s
  | (s, some x) =>
    let v := s.prodViews x op p
    if (s.prodDesc x p v).isNone ∧ (v.m = 0 ∨ v.n = 0 ∨ v.k = 0) then s.postOpt x i.post
    else
      match s.prodCheck x op p v with
      | some r => s.skipOpd i x ((v.ins p).map (·.2)) v.d.toList r
      | none =>
        let table := s.prodTable x.ctx op p v
        if s.lendsNow x.ctx then s.loanSkip i x
        else if prodUses p op ∧ !userTableOk table p.deriv then s.tableReject i x
        else if v.c.place = .rb ∧ (s.ctx x.ctx).isEval then s.evalWrite x
        else if (v.ins p).any (fun o => s.mergeView x.ctx o.2) then
          s.rbSkip i x 0 ((badAddr (v.ins p) fun o => s.mergeView x.ctx o.2).getD 0)
        else
          let s := s.readLines x (s.prodReads x.ctx op p v)
          match s.access x i (v.a :: v.z.toList ++ (if prodUses p op then [v.f] else []))
              ((v.outs p).map (·.2) ++ v.tree.toList) 0 0 [v.b] [p.a, p.b, p.c, p.d, p.e] with
          | (s, false) => s
          | (s, true) =>
            let sh := (prodShapes op v.m v.n v.k).2
            let s := s.tallyT2 x.ctx ((v.b, ({ v.b with rows := sh.1, cols := sh.2 } : View).cells) :: v.z.toList.map fun z => (z, z.cells))
            let lines := s.prodLines x.ctx p v
            let s := s.claimLines x lines
            (s.launch i x (s.readersOf x.ctx (prodChairs op p)) lines (.product (v.start op p table))).schedule x.ctx

/-- MATMUL (R56). -/
def execMatmul (i : Iss) (p : ProdOps) (s : State) : Res := .next (s.issueProduct prodN i p)
/-- MATMUL_T (R56, R60). -/
def execMatmulT (i : Iss) (p : ProdOps) (s : State) : Res := .next (s.issueProduct prodT i p)
/-- MATMUL_WG (R56). -/
def execMatmulWg (i : Iss) (p : ProdOps) (s : State) : Res := .next (s.issueProduct prodWg i p)

-- Beats

/-- The number of a beat within its instruction (R67). -/
def Product.beatNo (p : Product) (r : Run) : Nat :=
  ((List.range r.unit).map p.unitBeats).sum + r.beat

/-- An ARR record (R67). -/
def State.arrLog (s : State) (a code : Nat) (f : Flight) (beat : Nat) (w3 : W32) : State :=
  s.logErr f.st 0x20 ⟨pack [(a, 0), (code, 8)], pack [(f.ctx, 0), (f.sq, 12)], pack [(f.pc, 0), (beat % 256, 24)], w3⟩

/-- Does a lease of the stove hold an array? -/
def State.leasedBy (s : State) (st a : Nat) : Option Nat := ((s.boundOn st).find? fun p => has p.2.arrays a && !p.2.lending).map (·.1)

/-- The stoker withdraws an array, which the kindler journals (R65). -/
def State.retireArr (s : State) (st a : Nat) : State :=
  ((s.setArr st a { s.arr st a with retired := true, pending := false }).raise st 0x20 3).retire 0 st a 1

/-- A residue mismatch on an array (R62, R65): counted, the array may become retire-pending, withdrawn at once if no lease
holds it. -/
def State.mismatch (s : State) (st a : Nat) : State :=
  let x := s.arr st a
  let n := satAdd 255 x.mism 1
  let s := ((s.setArr st a { x with mism := n }).bump st Reg.ARR_RES_TOTAL 1).raise st 0x20 0
  if n ≥ fld (s.rd st Reg.ARR_RES_CTRL) 7 0 ∧ !x.pending ∧ !x.retired then
    let s := (s.setArr st a { s.arr st a with pending := true }).raise st 0x20 2
    if (s.leasedBy st a).isNone then s.retireArr st a else s
  else s

/-- How the pool ranks an array as a substitute (R63): 0 to 3 in its order of preference, none where it may not choose it. -/
def State.subRank (s : State) (st c : Nat) (failed : List Nat) (a : Nat) : Option Nat :=
  let x := s.arr st a
  if x.retired ∨ has failed a then none
  else
    match s.leasedBy st a with
    | none => if x.run.isSome then none else some (if x.pending then 1 else 0)
    | some o => if o = c then some (if x.pending then 3 else 2) else none

/-- The best rank of any array that the pool may choose. -/
def State.bestRank (s : State) (st c : Nat) (failed : List Nat) : Option Nat :=
  (List.range 48).foldl (fun m a =>
    match m, s.subRank st c failed a with
    | some x, some y => some (min x y)
    | none, y => y
    | x, none => x) none

/-- The context's residue hold ends once no failed beat of it waits and every unit of it has stopped at its beat boundary (R63,
R87). -/
def State.dropResidue (s : State) (c : Nat) : State :=
  if (s.ar.failed.any fun b => ((s.flight b.run.fid).map (·.ctx)) == some c) ∨ !s.unitsStill c then s
  else (s.modCtx c fun x => { x with holds := x.holds.filter (· != .residue) }).schedule c

/-- The residue hold of a context, where it is held, is looked at again when one of its units has stopped (R87). -/
def State.dropResidueIf (s : State) (c : Nat) : State :=
  if (s.ctx c).holds.contains .residue then s.dropResidue c else s
/-- An ended product that no array runs any more (R64): dropped where its context is faulted. -/
def State.settleEnded (s : State) (id : Nat) : State :=
  match s.flight id with
  | some f =>
    match f.body with
    | .product p =>
      let running := s.ar.arrays.any fun a => (a.2.run.map (·.fid)) == some id
      if p.ended ∧ !running ∧ (s.ctx f.ctx).state = 4 then (s.endFlight f).tryLoan f.ctx else s
    | _ => s
  | none => s

/-- A beat is discarded (R64): counted and logged, with the failed check where there is one, the instruction ended, the step
tainted. -/
def State.discardBeat (s : State) (a code event : Nat) (f : Flight) (p : Product) (r : Run) (w3 : W32) (fault : Bool) : State :=
  let s := (s.arrLog a code f (p.beatNo r) w3).bump f.st Reg.ARR_DISCARD_TOTAL 1
  let s := if event = 99 then s else s.raise f.st 0x20 event
  let s := (s.readyLines f).putFlight { f with lines := [], body := .product { p with ended := true } }
  let s := s.taintCtx f.ctx
  let s := if fault ∨ (s.ctx f.ctx).isEval then s.faultCtx f.ctx code 2 else s
  (s.dropResidue f.ctx).settleEnded f.id

/-- How many rows of a failed beat stand written (R63): those that the drain had written when the beat failed, in whole groups, where
the beat is its unit's last, and never fewer than before. -/
def Product.rowsWritten (p : Product) (b : FailedBeat) (n : Nat) : Nat :=
  if b.run.beat + 1 = p.unitBeats b.run.unit then max b.written (min (n / p.rowGroup * p.rowGroup) (p.rowsOf (p.tileOf b.run.unit)).2)
  else 0
/-- A beat has failed its checks, `n` of its rows being written (R62 to R64). -/
def State.failBeat (s : State) (a : Nat) (f : Flight) (p : Product) (b : FailedBeat) (n : Nat) (w3 : W32) : State :=
  let s := s.drainRows f p b.run.unit (p.rowVals b.run.unit b.acc b.written (p.rowsWritten b n))
  let b := { b with written := p.rowsWritten b n }
  let s := s.mismatch f.st a
  let s := s.modCtx f.ctx fun x => { x with holds := if x.holds.contains .residue then x.holds else x.holds ++ [.residue] }
  let others := s.ar.failed.filter fun y => y.run != b.run
  let s := { s with ar := { s.ar with failed := others } }
  let b := { b with w3 := w3 }
  if (s.ctx f.ctx).stopping.isSome then s.discardBeat a 5 5 f p b.run w3 false
  else if b.arrays.length ≥ fld (s.rd f.st Reg.ARR_RES_CTRL) 10 8 ∨ (s.bestRank f.st f.ctx b.arrays).isNone then
    s.discardBeat a 2 1 f p b.run w3 true
  else
    ({ s with ar := { s.ar with failed := s.ar.failed ++ [b] } } : State).arrLog a 1 f (p.beatNo b.run) w3

/-- A beat has passed its checks: its unit's accumulators stand, its range events count, a finished unit drains its rows from `lo`
on. -/
def State.passBeat (s : State) (f : Flight) (p : Product) (r : Run) (acc : Tab W16) (sat flush lo : Nat) : State :=
  let p := { p with acc := mergeAcc p.acc r.unit acc, beats := tabSet (fun _ => 0) p.beats r.unit (r.beat + 1) }
  let s := s.tallyCtx f.ctx .n16 p.c.cls ⟨sat, flush, 0⟩
  let s := s.putFlight { f with body := .product p }
  if p.unitDone r.unit then s.drainUnit f p r.unit lo else s

/-- The stationary tile in an array's active registers. -/
def Arr.tile (a : Arr) : StatTile := a.active.getD ⟨0, 0, 0, 0, 0, 1, [], []⟩
/-- The signed integer significand of an N16 code (R27). -/
def sigN16 (v : W16) : Int :=
  let m : Nat := if v.toNat / 256 % 128 = 0 then v.toNat % 256 else 256 + v.toNat % 256
  if v.toNat / 32768 = 1 then -(m : Int) else m
/-- How a beat really ends (R62): a failed check of a group's sum, or of sub-sum `sub` of it in square grain, is one whose residue
differs from that of its operands; one of a rescale station has another residue than the result of what it adds. The word of its record
holds both. That a station's residues are those of the result's significand is a DESIGN CHOICE (log 78). -/
def Product.checkBeat (p : Product) (a : StreamTile) (w : StatTile) (d : Draw) (r : Run) (res : BeatRes) : BeatRes × W32 :=
  let t := p.tileOf r.unit
  let x := p.taskSpan r.unit r.beat
  let word := fun (lane group exp obs : Nat) =>
    (if exp = obs then BeatRes.pass else res, pack [(lane, 0), (group, 8), (exp, 16), (obs, 20)])
  match res with
  | .mismatch row lane group sub obs _ =>
    let square := p.a.grain = .square ∨ p.b.grain = .square
    let lo := x.1 + group * p.gs + (if square then 8 * sub else 0)
    let hi := min x.2 (if square then lo + 8 else lo + p.gs)
    word lane group (p.checkResidue a w ((p.rowsOf t).1 + row) ((p.lanesOf t).1 + lane) lo hi) obs
  | .station row lane group obs _ =>
    let y := p.accRun a w d ((p.rowsOf t).1 + row) ((p.lanesOf t).1 + lane) x.1 (min x.2 (x.1 + (group + 1) * p.gs))
      (decN16 (tabGet (fun _ => 0) p.acc (accKey r.unit row lane)))
    word lane group (residue (sigN16 (encN16 y.1))) obs
  | _ => (res, 0)
/-- The rows that the drain had written when a beat failed: rows before the failed one (R63). -/
def beatRows : BeatRes → Nat
  | .mismatch row _ _ _ _ n | .station row _ _ _ n => min row n
  | _ => 0

/-- An array finishes a beat (R47, R53, R62 to R64): with the streamed rows it has read, on the tile in its active registers. A
corrected error of its memories is counted (R67). -/
def execArrayBeat (st arr : Nat) (res : BeatRes) (s : State) : Res :=
  let a := s.arr st arr
  match (if s.lit st then a.run else none) with
  | none => .next s
  | some r =>
    let s := s.setArr st arr { a with run := none }
    match s.flight r.fid with
    | none => .next s
    | some f =>
      match f.body with
      | .product p =>
        let d := s.draw f.ctx
        let w := p.beatAcc a.stream a.tile d r.unit r.beat
        let pass := fun (s : State) => (((s.passBeat f p r w.1 w.2.1 w.2.2 0).settleEnded f.id).dropResidueIf f.ctx).schedule f.ctx
        let e := p.checkBeat a.stream a.tile d r res
        match e.1 with
        | .pass => .next (pass s)
        | .corrected => .next (pass (s.countC st 0x20 1))
        | .mismatch .. | .station .. =>
          .next (s.failBeat arr f p ⟨st, r, [arr], a.tile, a.stream, 0, 0, w.1, w.2.1, w.2.2⟩ (beatRows res) e.2)
        | .replayUe => .next ((s.countU st 0x20 1).discardBeat arr 6 99 f p r 0 true)
        | .accUe => .next ((s.countU st 0x20 1).discardBeat arr 7 99 f p r 0 true)
      | _ => .next s

/-- A substitute re-executes a failed beat from the replay buffer and writes the rows that were withheld (R63, R64). -/
def execBeatReexec (st failed sub : Nat) (res : BeatRes) (s : State) : Res :=
  match s.ar.failed.find? fun b => b.st == st && b.arrays.getLast? == some failed with
  | none => .next s
  | some b =>
    match s.flight b.run.fid with
    | none => .next s
    | some f =>
      match f.body with
      | .product p =>
        let rank := s.subRank st f.ctx b.arrays sub
        if rank.isNone ∨ rank ≠ s.bestRank st f.ctx b.arrays ∨ (s.arr st sub).run.isSome then .next s
        else
          let e := p.checkBeat b.stream b.tile (s.draw f.ctx) b.run res
          let done : State := { s with ar := { s.ar with failed := s.ar.failed.filter fun y => y.run != b.run } }
          let pass := fun (s : State) =>
            (((s.passBeat f p b.run b.acc b.sat b.flush b.written).bump st Reg.ARR_REEXEC_TOTAL 1).settleEnded f.id).dropResidue f.ctx
          match e.1 with
          | .pass => .next (pass done)
          | .corrected => .next (pass (done.countC st 0x20 1))
          | .mismatch .. | .station .. => .next (s.failBeat sub f p { b with arrays := b.arrays ++ [sub] } (beatRows res) e.2)
          | .replayUe => .next ((done.countU st 0x20 1).discardBeat sub 6 99 f p b.run 0 true)
          | .accUe => .next ((done.countU st 0x20 1).discardBeat sub 7 99 f p b.run 0 true)
      | _ => .next s

/-- Has the array that holds a unit at position u mod A finished its last beat of the product (R50, R52)? -/
def Product.arrayDone (p : Product) (u n : Nat) : Bool :=
  (List.range p.units).all fun v => v % n != u % n || p.unitDone v
/-- A word of the tree area that a tree pass of a tile reads and that is uncorrectable (R106). -/
def State.treeBad (s : State) (c : Nat) (v : View) (offs : List Nat) : Option Nat :=
  if s.tr.bad.any inSpd then
    (offs.filterMap fun o => (s.winAddr c (v.addr + o)).map s.unitAt).find? fun a => has s.tr.bad a
  else none
/-- A tree pass of an output tile whose segments are all written, by the drain of the array that holds segment 0, after that array's
last beat of the instruction (R36, R52). The partials are read with what the command reports of one of them (R105, R106). -/
def execTreePass (id : Nat) (t : Met Nat) (s : State) : Res :=
  let tile := t.val
  match s.flight id with
  | none => .next s
  | some f =>
    match f.body with
    | .product p =>
      match p.tree with
      | none => .next s
      | some v =>
        let n := p.segs
        if n ≤ 1 ∨ tile ≥ p.tiles ∨ has p.trees tile ∨ !((List.range n).all fun k => p.unitDone (tile * n + k)) ∨
            !p.arrayDone (tile * n) (s.poolOf f.ctx).length then .next s
        else
          let d := s.draw f.ctx
          let rw := p.rowsOf tile
          let ln := p.lanesOf tile
          let offs := (List.range rw.2).flatMap fun i => (List.range ln.2).flatMap fun j =>
            (List.range n).map fun k => p.treeOff k (rw.1 + i) (ln.1 + j)
          let y := s.readEcc f.src v (nth 0 offs (s.anyBelow offs.length)) t.ecc 0
          let y := match (if y.2 then y.1.treeBad f.ctx v offs else none) with
            | some a => (y.1.denied f.src (.spd a 0) false, false)
            | none => y
          match y with
          | (s, false) => .next s
          | (s, true) =>
          let w := (List.range rw.2).flatMap fun i => (List.range ln.2).map fun j =>
            let r := rw.1 + i
            let l := ln.1 + j
            let o := p.outAt r l
            let e := p.c.num o.1 o.2
            let vals := (List.range n).map fun k => decN16 (BitVec.ofNat 16 (leNat (s.bytesOf f.ctx v (p.treeOff k r l) 2)))
            let t := treeSum (fun m x => combineN16 d p.c.tid 0x02 (fold40 e m) x) vals
            ((r, l, t.1), t.2)
          let ev := w.foldl (fun (a : Nat × Nat) y => (a.1 + y.2.1, a.2 + y.2.2)) (0, 0)
          let p := { p with trees := p.trees ++ [tile] }
          let s := s.tallyCtx f.ctx .n16 p.c.cls ⟨ev.1, ev.2, 0⟩
          .next ((s.drainTile f p (w.map (·.1))).afterTile f p)
    | _ => .next s

/-- The key of a record. -/
def recKey (st h row : Nat) : Nat := 65536 * (4096 * st + h) + row
/-- A record. -/
def State.rowRec (s : State) (st h row : Nat) : W64 := tabGet (fun _ => 0) s.rw.recs (recKey st h row)
/-- Sets a record. -/
def State.setRec (s : State) (st h row : Nat) (v : W64) : State :=
  { s with rw := { s.rw with recs := tabSet (fun _ => 0) s.rw.recs (recKey st h row) v } }
/-- Zeroes every record of a handle. -/
def State.zeroRecs (s : State) (st h : Nat) : State :=
  { s with rw := { s.rw with recs := s.rw.recs.filter fun p => p.1 / 65536 != 4096 * st + h } }
/-- A ROWOP that completes writes its records, after its outputs (R136). -/
def State.rowDone (s : State) (f : Flight) : State :=
  match f.body with
  | .row _ (some h) recs reset =>
    recs.foldl (fun s w => s.setRec f.st h w.1 w.2) (if reset then s.zeroRecs f.st h else s)
  | _ => s

/-- An instruction's last output becomes readable (R80, R86, R95): what it still has to write is written, its lines are ready, its
chairs released, its semaphore posted. A vector or row engine works only while its stove is Lit (R254). What a stopped context has in flight is held, and what waits for a page move is not done
(R64, R235). -/
def execInstructionComplete (id : Nat) (s : State) : Res :=
  match s.flight id with
  | none => .next s
  | some f =>
    let fin := ((((f.writes.foldl (fun s w => s.mwr w.1 w.2) s).rowDone f).endFlight f).postOpt f.src f.post).tryLoan f.ctx
    if (s.ctx f.ctx).state = 3 ∨ (s.tr.waiting.any fun w => w.fid == id) then .next s
    else
    match f.body with
    | .plain =>
      .next (if (s.ht.adds.any fun a => a.fid == id) || (s.em.fragQueue.any fun g => g.fid == id) then s else fin)
    | .vec _ => .next (if s.lit f.st then fin else s)
    | .row e .. =>
      let first := s.sq.flights.find? fun g =>
        match g.body with
        | .row d .. => g.st == f.st && d == e
        | _ => false
      .next (if first.map (·.id) = some id ∧ s.lit f.st then fin else s)
    | _ => .next s

-- REDUCE_TO_SCALAR (R83)

/-- Truncation toward zero. -/
def truncQ (x : ℚ) : Int := if x < 0 then -(rfloor (-x)) else rfloor x
/-- The result of a reduction: `n` codes equal to a format limit, the other values from the exact elements. -/
def reduceResult (op : Nat) (shift : Int) (thresh : ℚ) (limits : Nat) (vs : List ℚ) : W32 :=
  let fit := fun (v : ℚ) => BitVec.ofInt 32 (max (-2147483648) (min 2147483647 (truncQ (v * pow2 shift))))
  match op with
  | 0 => fit vs.sum
  | 1 => fit (vs.foldl max (vs.headD 0))
  | 2 => fit (vs.foldl min (vs.headD 0))
  | 3 => fit (vs.foldl (fun m v => max m (rabs v)) 0)
  | 4 => w32 (vs.filter (· ≠ 0)).length
  | 5 => w32 limits
  | _ => w32 (vs.filter (· > thresh)).length
/-- Does a code stand at a limit of its format (R30)? A bound of zero is no limit. -/
def atLimit (f : Fmt) (z code : Nat) : Bool :=
  let b := fmtBounds f z
  match f with
  | .n16 => rabs (decN16 (BitVec.ofNat 16 code)) == maxN16
  | .b8 => let v : ℚ := (sx code 8 : Int); (v == b.1 || v == -b.2)
  | .b16 => let v : ℚ := (sx code 16 : Int); (v == b.1 || v == -b.2)
  | _ => let v := codeVal f z code; (b.1 != 0 && v == b.1) || (b.2 != 0 && v == -b.2)

/-- REDUCE_TO_SCALAR (R83). A computed operand outside scratchpad is skipped with code 3: DESIGN CHOICE (log 19). -/
def execReduceToScalar (i : Iss) (op d : Nat) (shift : Int) (thresh : W16) (a : Opd) (s : State) : Res :=
  match s.begin i 0x18 [] with
  | (s, none) => .next s
  | (s, some x) =>
    let v := s.view x.st x.sq x.ctx a 0 0
    if s.descFails x.st x.sq x.ctx a v false then .next (s.skip i x 3 v.addr)
    else if v.place = .rb ∨ s.mergeView x.ctx v then .next (s.rbSkip i x v.refused.1 v.refused.2)
    else if v.place ≠ .spd then .next (s.skip i x 3 v.addr)
    else if s.extentFails x.ctx a v then .next (s.skip i x 1 v.addr)
    else if v.size = 0 then .next (s.postOpt x i.post)
    else
      let s := s.readLines x (s.viewLines x.ctx v)
      match s.access x i [v] [] 2 (descs := [a]) with
      | (s, false) => .next s
      | (s, true) =>
        let cells := v.cells
        let vs := cells.map fun p => s.valAt x.ctx v p.1 p.2
        let lim := (cells.filter fun p => atLimit v.fmt v.zp (s.codeAt x.ctx v p.1 p.2)).length
        let w := reduceResult op shift (decN16 thresh) lim vs
        let s := s.tallyT2 x.ctx [(v, cells)]
        .next ((s.modSeq x.st x.sq fun q => q.setSreg d w).launch i x [] [] .plain)

-- Health of arrays (R65, R67)

/-- ARR_SVC_CMD 0b01: clears an array's mismatch count; service contexts and the kindler only. -/
def execClearMismatchCnt (ag : Agent) (st arr : Nat) (s : State) : Res :=
  match s.regGuard ag st 0x21 (w32 (arr + 0x100)) with
  | (s, false) => .next s
  | (s, true) =>
    if !ag.priv then .next (s.refuseAgent st 0x20 0)
    else .next (if arr < 48 then s.setArr st arr { s.arr st arr with mism := 0 } else s)

/-- ARR_SVC_CMD 0b10: marks an array for retest at the next kindling: a RETEST record clears its memory, so that step 13 tries it again
from the first method (R65, R317). -/
def execMarkRetest (ag : Agent) (st arr : Nat) (s : State) : Res :=
  match s.regGuard ag st 0x21 (w32 (arr + 0x200)) with
  | (s, false) => .next s
  | (s, true) =>
    if !ag.priv then .next (s.refuseAgent st 0x20 0)
    else .next (if arr < 48 then s.jnl 4 [0, st, arr] [] else s)

end Sys2Proof.Machine
end

