-- ==== Sys2Proof/Machine/Scratch.lean ====
section
/-! DEFINITION. Scratchpad: the scrubber, host writes, and lifts with their set-up, fills and releases (R101 to R118). -/

namespace Sys2Proof.Machine

/-- The scrubber reads the next word of a slice; a word that is uncorrectable stays so (R105, R106). -/
def execScrubRead (st slice : Nat) (ecc : Ecc) (syndrome : Nat) (s : State) : Res :=
  if fld (s.rd st Reg.SPD_SCRUB_CTRL) 11 0 = 0 then .next s
  else
    let pos := fun (s : State) (k : Nat) => tabGet (fun _ => 0) s.sp.scrubPos (48 * st + k)
    let least := fun (s : State) => (List.range 48).foldl (fun m k => min m (pos s k / 2 ^ 20)) (pos s 0 / 2 ^ 20)
    let n := pos s slice
    let x := 0x800000 * slice + 8 * (n % 2 ^ 20)
    let before := least s
    let s := { s with sp := { s.sp with scrubPos := tabSet (fun _ => 0) s.sp.scrubPos (48 * st + slice) (n + 1) } }
    let s := s.bumpWrap st Reg.SPD_SCRUB_PASSES (least s - before)
    let a := spdBase + 0x40000000 * st + x
    match (if has s.tr.bad a then .ue else ecc) with
    | .ce => .next (s.spdCe st 0 x syndrome 6)
    | .ue =>
      .next ((((((s.markBad a).bump st Reg.SPD_SCRUB_UE 1).countU st 0x30 1).spdLog st 3 0 0 x syndrome 6).raise st 0x30 2).granError st 0 x)
    | _ => .next s

/-- A host write to one line: discarded where the line is pending under a claim (R107). -/
def State.hostLine (s : State) (a : Nat) (data : List Byte) : State :=
  let st := (a - spdBase) / 0x40000000
  let x := (a - spdBase) % 0x40000000
  if (s.tag st (x / 256)).pending then
    ((s.bump st Reg.SPD_HOST_REFUSED 1).spdLog st 6 0 0 x 0 5).raise st 0x30 5
  else
    ({ s with tr := { s.tr with bad := s.tr.bad.filter fun w => !decide (a ≤ w ∧ w + 8 ≤ a + data.length) } } : State).mwrN a data

/-- Host writes line by line; `n` bounds the number of lines. -/
def State.hostLines (s : State) : Nat → Nat → List Byte → State
  | 0, _, _ => s
  | n + 1, a, d =>
    if d.isEmpty then s
    else
      let k := 256 - a % 256
      (s.hostLine a (d.take k)).hostLines n (a + k) (d.drop k)

/-- The words of scratchpad that a write of `n` bytes fills in part, as module addresses (R105). -/
def partWords (a n : Nat) : List Nat :=
  if n = 0 then []
  else (([a / 8, (a + n - 1) / 8].eraseDups).filter fun w => !decide (a ≤ 8 * w ∧ 8 * w + 8 ≤ a + n)).map (8 * ·)
/-- A host write to scratchpad (R107, R261). A word that it fills in part is read and checked first (R105); what an uncorrectable one
does is not stated: it is logged as the host's read of it is, and keeps its bytes (DESIGN CHOICE, log 50). -/
def execHostScratchpadWrite (addr : Nat) (data : Met (List Byte)) (s : State) : Res :=
  if !inSpd addr then .next s
  else if s.unreached 6 (s.dieOf addr) then .next (s.emit (.host false []))
  else
    let st := (addr - spdBase) / 0x40000000
    let w := fun (s : State) => s.hostLines (data.val.length / 256 + 2) addr data.val
    let ps := partWords addr data.val.length
    match ps.find? (has s.tr.bad ·), ps, data.ecc with
    | none, a :: _, .ce => .next (w (s.nextFree.spdCe st 0 ((a - spdBase) % 0x40000000) s.anySyndrome 5))
    | none, a :: _, .ue | some a, _, _ =>
      .next ((w ((s.markBad a).nextFree.spdUe st 0 ((a - spdBase) % 0x40000000) s.anySyndrome 5)).mwrN a (s.mrdN a 8))
    | _, _, _ => .next (w s)

-- The host's accesses to memory (R231, R241, R261)

/-- The 8 bytes of a second-level entry (R231). -/
def Pte.word (p : Pte) : Nat :=
  b2n p.valid + 2 * b2n p.write + 4 * b2n p.cold + 8 * b2n p.host + 16 * p.hint + 64 * p.stove + 256 * b2n p.moving +
    512 * b2n p.badLine + 2 ^ 21 * p.frame + 2 ^ 48 * p.count
/-- The i-th entry of the table with a key (R231); a first-level table fills 4 KiB of its frame. -/
def State.tableWord (s : State) (key i : Nat) : Option Nat :=
  if key < topKey 0 then some (Pte.word (s.pte (key / 512) (262144 * (key % 512) + i)))
  else if i < 512 then
    some (match s.tr.tables.find? fun t => t.1 == 512 * (key - topKey 0) + i with
      | some t => 1 + 2 ^ 21 * t.2
      | none => 0)
  else none
/-- The entry of a page table that a module address lies in (R231). -/
def State.tableAt (s : State) (a : Nat) : Option Nat :=
  (s.tr.tables.find? fun t => t.2 == a / 2 ^ 21).bind fun t => s.tableWord t.1 (a % 2 ^ 21 / 8)
/-- A byte of memory as the host reads it: of a page table, the byte of its entry. -/
def State.hostByte (s : State) (a : Nat) : Byte :=
  match s.tableAt a with
  | some w => BitVec.ofNat 8 (w / 2 ^ (8 * (a % 8)))
  | none => s.mrd a
/-- The units of memory that an access meets, and how long a unit is (R228, R230). -/
def State.hostUnits (s : State) (a n : Nat) : List Nat :=
  let k := if s.inCold a then 64 else 32
  (List.range ((a + n + k - 1) / k - a / k)).map fun i => k * (a / k + i)
/-- Does an access meet only a part of the `k` bytes at an address? -/
def partOf (a n u k : Nat) : Bool := !decide (a ≤ u ∧ u + k ≤ a + n)
/-- What keeps an access by module address, of the host die or of a stove, from a unit (R143, R228, R230, R240, R263). A write that covers
it whole needs nothing of it. -/
def State.hostBad (s : State) (a n u : Nat) (write : Bool) (from_ : Nat := 6) : Option MemBad :=
  let k := if s.inCold u then 64 else 32
  if s.unreached from_ (s.dieOf u) then some (.link u)
  else if s.partDown u then some (.part u)
  else if has s.tr.bad u && (!write || partOf a n u k) then some (.word u)
  else if has s.ht.lost (u / 128) && (!write || partOf a n (128 * (u / 128)) 128) then some (.line u)
  else none
/-- The records of a host access that cannot be made; no context is affected (R241). -/
def State.hostDenied (s : State) (write : Bool) : MemBad → State
  | .part u => s.failAtOnce u 0 (if write then 2 else 1)
  | .word u =>
    let code := if write then (if s.inCold u then 7 else 9) else if s.inHost u then 6 else 2
    s.nextFree.tierUe u 0 code s.anySyndrome (if write then 2 else 1)
  | .line u => s.lostFault u 0
  | _ => s
/-- An access of the host as what the controller finds in its first unit leaves the memory: an uncorrectable unit stays so until it is
written whole. A write of whole units reads nothing. -/
def State.hostFinds (s : State) (a n : Nat) (ecc : Ecc) (write : Bool) : State :=
  match (s.hostUnits a n).find? fun u => !write || partOf a n u (if s.inCold u then 64 else 32), ecc with
  | some u, .ce => s.nextFree.tierCe u 0 s.anySyndrome (if write then 2 else 1)
  | some u, .ue => s.markBad u
  | _, _ => s
/-- The host's read of memory (R106, R107, R241, R261): zero for a scratchpad word that is uncorrectable, an error completion for other
memory that is. -/
def State.hostRead (s : State) (a n : Nat) (ecc : Ecc) : State :=
  let st := (a - spdBase) / 0x40000000
  let x := (a - spdBase) % 0x40000000
  if s.unreached 6 (s.dieOf a) then s.emit (.host false [])
  else if inSpd a then
    match s.tr.bad.find? (fun w => inSpd w && meet w 8 a n), ecc with
    | none, .ce => (s.nextFree.spdCe st 0 x s.anySyndrome 5).emit (.host true (s.mrdN a n))
    | some w, _ => (s.nextFree.spdUe st 0 ((w - spdBase) % 0x40000000) s.anySyndrome 5).emit (.host true (List.replicate n 0))
    | none, .ue => ((s.markBad a).nextFree.spdUe st 0 x s.anySyndrome 5).emit (.host true (List.replicate n 0))
    | _, _ => s.emit (.host true (s.mrdN a n))
  else
    let s := s.hostFinds a n ecc false
    match (s.hostUnits a n).findSome? fun u => s.hostBad a n u false with
    | some b => (s.hostDenied false b).emit (.host false [])
    | none => s.emit (.host true ((List.range n).map fun i => s.hostByte (a + i)))
/-- The host's write to the part of one unit that its bytes cover. A unit that cannot take it stays as it is. Page tables are written
by the stoker alone (R231). -/
def State.hostWriteUnit (s : State) (a : Nat) (data : List Byte) (u : Nat) : State :=
  let k := if s.inCold u then 64 else 32
  match s.hostBad a data.length u true with
  | some b => s.hostDenied true b
  | none =>
    if (s.tableAt u).isSome then s
    else
      let s := s.mwrN (max a u) ((data.drop (u - a)).take (u + k - max a u))
      let s : State := if partOf a data.length u k then s else { s with tr := { s.tr with bad := s.tr.bad.filter (· != u) } }
      if partOf a data.length (128 * (u / 128)) 128 then s
      else { s with ht := { s.ht with lost := if u % 128 + k = 128 then s.ht.lost.filter (· != u / 128) else s.ht.lost } }
/-- The host's write to memory outside scratchpad (R228, R230, R241, R261). A write that some unit cannot take gets an error
completion: DEDUCED (log 44). -/
def State.hostWrite (s : State) (a : Nat) (data : List Byte) (ecc : Ecc) : State :=
  let s := s.hostFinds a data.length ecc true
  let us := s.hostUnits a data.length
  let denied := us.any fun u => (s.hostBad a data.length u true).isSome
  let s := us.foldl (fun (s : State) u => s.hostWriteUnit a data u) s
  if denied then s.emit (.host false []) else s
/-- The lines of an access by module address that lie in HBM, each through its home hearth (R140). -/
def State.addrLines (s : State) (a n cls : Nat) (write : Bool) : State :=
  (List.range (if n = 0 then 0 else (a + n - 1) / 128 + 1 - a / 128)).foldl (fun s k =>
    let l := 128 * (a / 128 + k)
    if s.inHbm l then s.hearthLine 0 0 l cls write (write && decide (a ≤ l ∧ l + 128 ≤ a + n)) false else s) s
/-- An agent of a stove reads at a module address: what keeps it from the bytes (R140, R241, R263). -/
def State.addrRead (s : State) (st a n cls : Nat) : State × Option MemBad :=
  match (s.hostUnits a n).findSome? fun u => s.hostBad a n u false st with
  | some b => (s, some b)
  | none => (s.addrLines a n cls false, none)
/-- An agent of a stove writes at a module address, where nothing keeps it from the memory (R140, R241, R263). -/
def State.addrWrite (s : State) (st a : Nat) (bytes : List Byte) : State × Option MemBad :=
  match (s.hostUnits a bytes.length).findSome? fun u => s.hostBad a bytes.length u true st with
  | some b => (s, some b)
  | none => ((s.addrLines a bytes.length 2 true).mwrN a bytes, none)
/-- HOLE_ACCESS: an access of the host die by address. To a hole, a read gives zero and a write is discarded, and it is logged (R225,
R348). To memory it is made (R261): through the home hearth in HBM, line by line in scratchpad. Register pages have commands of their
own. -/
def execHoleAccess (addr : Nat) (a : HostAcc) (s : State) : Res :=
  let x := addr - regBase
  let page := regBase ≤ addr ∧ x < 0x08000000 ∧ pageExists (x / 0x1000000) (x / 4096 % 4096)
  if page then .next s
  else if !s.inMem addr then .next (if a.write then s.holeLog addr else (s.holeLog addr).emit (.host true (List.replicate a.len 0)))
  else
    let go := fun (s : State) (n : Nat) (w : Bool) =>
      if s.unreached 6 (s.dieOf addr) then s else s.addrLines addr n (if w then 2 else 1) w
    if !a.write then .next (go (s.hostRead addr a.len a.ecc) a.len false)
    else if inSpd addr then execHostScratchpadWrite addr ⟨a.data, a.ecc⟩ s
    else .next ((go s a.data.length true).hostWrite addr a.data a.ecc)

-- Lift set-up (R108, R115)

/-- A refused set-up write. -/
def State.liftRefused (s : State) (st k c : Nat) : State := (s.spdLog st 5 c k 0 0 0).raise st 0x30 4

/-- May an entry be enabled as it stands (R108)? -/
def State.liftFits (s : State) (st k : Nat) (l : LiftCfg) : Bool :=
  l.producer != 3 && decide (3 ≤ l.chairs ∧ 1 ≤ l.size ∧ l.size ≤ 2 ^ 24) && stoveOf l.ctx == st &&
    decide (l.base + l.chairs * l.size ≤ s.window l.ctx) &&
    (List.range 128).all fun j =>
      let o := s.liftCfg st j
      j == k || !o.enable || o.ctx != l.ctx ||
        (o.lnum != l.lnum && decide (l.base + l.chairs * l.size ≤ o.base ∨ o.base + o.chairs * o.size ≤ l.base))

/-- Is any chair of a lift FILLING or RELEASING? -/
def Lift.moving (l : Lift) : Bool := l.chairs.any fun c => c == 1 || c == 3

/-- A write to SPD_LIFT_k_CFG (R108). -/
def State.liftCfgWrite (s : State) (ag : Agent) (st k : Nat) (value : W32) : State :=
  match s.regGuard ag st (0x31 + k / 32) value (0x40 + 32 * (k % 32)) with
  | (s, false) => s
  | (s, true) =>
    let r := liftReg k Reg.SPD_LIFT_k_CFG
    let old := s.rd st r
    let new := value &&& 0x00FFFFFF
    let c := fld new 19 8
    if bitOf old.toNat 0 then
      if new = old &&& 0xFFFFFFFE ∧ !(s.lift st k).moving then s.wr st r new else s.liftRefused st k (fld old 19 8)
    else if !bitOf new.toNat 0 then s.wr st r new
    else
      let t := s.wr st r new
      let l := t.liftCfg st k
      if t.blockOn st 0x30 ∧ t.liftFits st k l then
        t.setLift st k { t.lift st k with
          head := 0, tail := 0, chairs := List.replicate l.chairs 0, readers := List.replicate l.chairs 0 }
      else s.liftRefused st k c

/-- A write to SPD_LIFT_k_CFG that enables the lift (R108). -/
def execLiftEnable (ag : Agent) (st k : Nat) (value : W32) (s : State) : Res := .next (s.liftCfgWrite ag st k value)
/-- A write to SPD_LIFT_k_CFG that clears ENABLE (R108). -/
def execLiftDisable (ag : Agent) (st k : Nat) (value : W32) (s : State) : Res := .next (s.liftCfgWrite ag st k value)

/-- SPD_LIFT_k_CTRL.RESET (R115). -/
def execLiftReset (ag : Agent) (st k : Nat) (s : State) : Res :=
  match s.regGuard ag st (0x31 + k / 32) 1 (0x5C + 32 * (k % 32)) with
  | (s, false) => .next s
  | (s, true) =>
    let l := s.lift st k
    if l.moving then .next (s.liftRefused st k (s.liftCfg st k).ctx)
    else .next (s.setLift st k { l with head := 0, tail := 0, chairs := l.chairs.map fun _ => 0 })

-- Fills and releases (R109 to R112)

/-- A producer claims the tail chair: FILLING, TAIL advances (R109, R113). -/
def State.claimTail (s : State) (st k : Nat) : State :=
  let l := s.lift st k
  s.setLift st k { l with chairs := setNth l.chairs l.tail 1, tail := (l.tail + 1) % (s.liftCfg st k).chairs }
/-- A fill completes: the chair is FULL (R109). -/
def State.chairFull (s : State) (st k n : Nat) : State :=
  let l := s.lift st k
  (s.wakeStove st).setLift st k { l with chairs := setNth l.chairs n 2, fills := (l.fills + 1) % 2 ^ 24 }
/-- A fill ends in error: the chair is EMPTY again, TAIL stays advanced (R115). -/
def State.chairError (s : State) (st k n : Nat) : State :=
  let l := s.lift st k
  s.setLift st k { l with chairs := setNth l.chairs n 0, errFills := satAdd 255 l.errFills 1 }

/-- A skipped LIFT_FILL (R111): logged in the SPD page too, at the chair's place in its slice (R118). -/
def State.fillSkip (s : State) (i : Iss) (x : Src) (code k detail : Nat) : State :=
  ((s.skip i x code detail).spdLog x.st 7 x.ctx k ((s.winPhys x.ctx detail).getD 0) 0 1).raise x.st 0x30 6

/-- The bytes of a view packed as a chair holds it (R110): its rows, each cut to its length. -/
def State.packedRows (s : State) (c : Nat) (v : View) : List (List Byte) :=
  (List.range v.rows).map fun r => s.bytesOf c v (r * v.stride) (rowBytes v.fmt v.cols)

/-- Copies a view byte for byte into one of the same shape and format (R111, R117). -/
def State.copyView (s : State) (c : Nat) (a b : View) : State :=
  let rows := s.packedRows c a
  let scales := s.bytesOf c a a.scaleOff a.scaleLen
  let s := rows.zipIdx.foldl (fun s r => s.putBytes c b (r.2 * b.stride) r.1) s
  if scaled a.fmt then s.putBytes c b b.scaleOff scales else s

/-- LIFT_FILL (R111). The bytes are copied at issue; the chair is FULL at CHAIR_FILL_COMPLETE. An operand A that no descriptor names
is skipped with code 4, with no record in the SPD page: DESIGN CHOICE (log 51). -/
def execLiftFill (i : Iss) (a b : Opd) (s : State) : Res :=
  match s.begin i 0x21 [b] with
  | (s, none) => .next s
  | (s, some x) =>
    let va := s.view x.st x.sq x.ctx a 0 0
    if s.descFails x.st x.sq x.ctx a va false then .next (s.skip i x 3 va.addr)
    else if s.extentFails x.ctx a va then .next (s.skip i x 1 va.addr)
    else if !a.desc then .next (s.skip i x 4 va.addr)
    else if va.size = 0 then .next (s.postOpt x i.post)
    else if va.place = .rb then .next (s.rbSkip i x (va.rbElem 0 0) va.addr)
    else if s.mergeView x.ctx va then .next (s.rbSkip i x 0 va.addr)
    else
      match b, s.chairOf x.ctx b with
      | .chair _ _ f g z _, some (k, n, true) =>
        let l := s.liftCfg x.st k
        let vb := s.view x.st x.sq x.ctx b va.rows va.cols
        if l.producer ≠ 0 then .next (s.fillSkip i x 1 k vb.addr)
        else if vb.extent - vb.addr > l.size then .next (s.fillSkip i x 2 k vb.addr)
        else if va.fmt ≠ f ∨ va.grain ≠ g ∨ va.zp ≠ z then .next (s.fillSkip i x 3 k vb.addr)
        else
          let s := s.readLines x (s.viewLines x.ctx va)
          let s := ((s.reach x.ctx (s.descRanges x [a] ++ va.vranges)).claimTail x.st k).copyView x.ctx va vb
          .next (s.launch i x [] [] (.fill k n va vb))
      | _, _ => .next (s.fillSkip i x 1 0 0)

/-- Where the error of a fill is met: at a byte of its source, or of a chair's word that it fills in part and merges into (R105), as
nothing but a free value names; `true` for the latter. -/
def State.fillSpot (s : State) (c : Nat) (v w : View) : View × Nat × Bool :=
  let n := v.extent - v.addr
  let k := s.anyBelow (n + (w.extent - w.addr))
  if n ≤ k ∧ coversAll w.ranges (w.addr + (k - n)) 1 ∧ !s.fillsUnit c w (k - n) then (w, k - n, true) else (v, s.anyByte v, false)
/-- The fill of a chair ends (R109, R111, R115): FULL, or in an uncorrectable error at its source, which faults the context. -/
def execChairFillComplete (st k chair : Nat) (ecc : Ecc) (s : State) : Res :=
  let mine := fun (f : Flight) =>
    match f.body with
    | .fill a b .. => f.st == st && a == k && b == chair
    | _ => false
  match s.sq.flights.find? mine with
  | none => .next s
  | some f =>
    match f.body with
    | .fill _ _ v w =>
      let p := s.fillSpot f.ctx v w
      let y := s.readEcc f.src p.1 p.2.1 ecc 1 0 p.2.2
      let spd := (y.1.spdBad f.ctx [v] false <|> y.1.spdBad f.ctx [w] true).map (MemBad.spd · 1)
      let y := match (if y.2 then spd <|> y.1.memBad f.st f.ctx v.vranges false else none) with
        | some b => (y.1.denied f.src b false, false)
        | none => y
      match y with
      | (s, true) =>
        let s := (s.renewSpd f.ctx [w]).chairFull st k chair
        .next (if (s.ctx f.ctx).state = 4 ∨ !(s.ctx f.ctx).isBound then s.endFlight f else s.putFlight { f with body := .plain })
      | (s, false) => .next ((s.chairError st k chair).endFlight f)
    | _ => .next s

/-- LIFT_RELEASE (R112). -/
def execLiftRelease (i : Iss) (a : Opd) (s : State) : Res :=
  match s.begin i 0x22 [a] with
  | (s, none) => .next s
  | (s, some x) =>
    match s.chairOf x.ctx a with
    | some (k, n, false) =>
      let l := s.lift x.st k
      let s := s.setLift x.st k { l with
        head := (l.head + 1) % (s.liftCfg x.st k).chairs
        chairs := setNth l.chairs n (if nth 0 l.readers n = 0 then 0 else 3) }
      .next (s.launch i x [] [] .plain)
    | _ => .next (s.skip i x 1 0)

end Sys2Proof.Machine
end

