-- ==== Sys2Proof/Machine/Hearth.lean ====
section
/-! DEFINITION. The hearth's reduction buffers and atomic windows: additions, closes, passes and generations, set-up writes
and the flush (R139 to R150, R154, R157). -/

namespace Sys2Proof.Machine

-- Reduction buffers (R144 to R148)

/-- Sets a context's pass number. -/
def State.setCpass (s : State) (b c p : Nat) : State :=
  { s with ht := { s.ht with cpass := tabSet (fun _ => 0) s.ht.cpass (4096 * b + c) p } }
/-- The generation of a slot advances: lines of an older generation and merge areas read as zero, P and every c are 0 (R145, R146,
R150). -/
def State.advanceGen (s : State) (b : Nat) : State :=
  let r := s.rb b
  let s := s.setRb b { gen := (r.gen + 1) % 65536, walking := [0, 1, 2, 3] }
  let s := { s with
    ht := { s.ht with cpass := s.ht.cpass.filter fun p => p.1 / 4096 != b }
    em := { s.em with merge := s.em.merge.filter fun m => m.slot != b } }
  (List.range 4).foldl (fun s st => s.wr st (rbReg b Reg.HTH_RB_b_SPILL_ACC) 0) s

/-- The walker retags the lines of a buffer on a stove as zero at the current generation, but for those that have it (R145). A resident
line that no tag of the state names is zero at the current generation; of a spilled line the record says so. -/
def State.retag (s : State) (b st : Nat) : State :=
  let g := (s.rb b).gen
  let r := s.spillRegion st b
  let y := s.rbSpilled st b
  let old := ((s.ht.tags.filter fun t => t.1 / 2 ^ 24 == 4 * b + st && t.2.gen != g).map fun t => t.1 % 2 ^ 24)
  let s := { s with ht := { s.ht with
      tags := s.ht.tags.filter fun t => !(t.1 / 2 ^ 24 == 4 * b + st && t.2.gen != g)
      elems := s.ht.elems.filter fun e =>
        let x := e.1 % 2 ^ 30
        !(e.1 / 2 ^ 30 == b && rbHome x == st && has old (rbLocal x / 64)) } }
  ((List.range y).foldl (fun s k =>
    let a := r.2.1 + 128 * y + 16 * k
    match RbTag.ofRecord (s.vrdN r.1 a 16) with
    | some t => if t.gen = g then s else s.vwrN r.1 a (RbTag.zeroRecord g)
    | none => s.vwrN r.1 a (RbTag.zeroRecord g)) (s.reachAs st r.1 [(r.2.1 + 128 * y, 16 * y)] true false 2 [])).spillAcc st b y
/-- The walker has retagged the buffer's lines on a stove (R145). -/
def execRbWalk (st slot : Nat) (s : State) : Res :=
  if !has (s.rb slot).walking st then .next s
  else
    let s := s.retag slot st
    let r := s.rb slot
    .next (s.setRb slot { r with walking := r.walking.filter (· != st) })

/-- Why an addition is refused (R146, R147). -/
def State.addRefused (s : State) (a : RbAdd) : Option Nat :=
  let r := s.rb a.slot
  if !s.rbOn (rbHome a.elem) a.slot ∨ r.coll ∨ r.allClosed ∨ a.pass ≠ r.pass then some 5
  else if s.rbTouched a.slot a.elem r.pass then some 6
  else none

/-- Applies an addition at its home (R12, R147): rounded at site 0x10, counted, the element touched. -/
def State.applyAdd (s : State) (a : RbAdd) : State :=
  let r := s.rb a.slot
  let h := rbHome a.elem
  let d := s.draw a.ctx
  let x := roundN16 (decN16 (s.elem a.slot a.elem) + decN16 a.value) (d.u a.tid (fold40 a.logical r.pass) 0x10)
  let s := s.setElemTag a.slot a.elem (encN16 x.val) fun t => t.touch r.pass (rbLocal a.elem % 64)
  if (s.ctx a.ctx).isJob then s.tally h a.slot .n16 .grad ⟨b2n x.sat, b2n x.flush, b2n (nearN16 x.val)⟩ else s

/-- The n-th addition under way reaches its home (R143, R146, R147). -/
def execRbAddition (n : Nat) (ecc : Ecc) (s : State) : Res :=
  match s.ht.adds[n]? with
  | none => .next s
  | some a =>
    let h := rbHome a.elem
    let s := { s with ht := { s.ht with adds := s.ht.adds.eraseIdx n } }
    match s.addRefused a with
    | some code => .next (s.rbRefuse h code a.ctx a.slot a.pass (rbLocal a.elem))
    | none =>
      match ecc with
      | .ce =>
        let s := ((s.bump h Reg.HTH_CE_TOTAL 1).countC h 0x60 1).raise h 0x60 0
        .next ((s.hthLog h 1 a.ctx a.slot 0 0 (rbLocal a.elem) 0 s.anySyndrome 2).applyAdd a)
      | .ue =>
        let s := ((s.bump h Reg.HTH_UE_TOTAL 1).countU h 0x60 1).raise h 0x60 3
        .next ((s.hthLog h 4 a.ctx a.slot 0 0 (rbLocal a.elem) 0 s.anySyndrome).taint a.slot)
      | _ =>
        let y := s.spillReach a.ctx a.slot true h (rbLocal a.elem / 64)
        .next (if y.2 then y.1.applyAdd a else y.1)

/-- The pass advances while the closes counted for it reach CONTRIB, and their semaphores are posted (R146). -/
def State.advancePass (s : State) (b : Nat) : Nat → State
  | 0 => s
  | n + 1 =>
    let r := s.rb b
    let now := r.closed.filter fun c => c.pass == r.pass
    if r.allClosed ∨ now.length < fld (s.rbCfg 0 b) 5 1 ∨ now.isEmpty then s
    else
      let s := s.setRb b { r with
        closed := r.closed.filter fun c => c.pass != r.pass
        pass := if r.pass = 255 then 255 else r.pass + 1
        allClosed := r.pass == 255 }
      let s := now.foldl (fun s c => s.semPost ⟨stoveOf c.ctx, c.sq, 0x3C, c.ctx, 0⟩ c.sem 1) s
      s.advancePass b n

/-- Is a close refused (R146)? -/
def State.closeRefused (s : State) (b c : Nat) : Bool :=
  let r := s.rb b
  let p := s.cpass b c
  !s.rbOn 0 b || r.coll || r.allClosed || (p != r.pass && p != r.pass + 1)

/-- RB_CLOSE (R146, R148, R152). A refused close is logged and counted on the stove of the context that issued it: DESIGN CHOICE
(log 85). -/
def execRbClose (i : Iss) (sem : Nat) (s : State) : Res :=
  match s.begin i 0x3C [] with
  | (s, none) => .next s
  | (s, some x) =>
    let k := s.ctx x.ctx
    let b := k.slot
    if k.isEval then .next (s.evalWrite x)
    else if s.closeRefused b x.ctx then
      .next ((s.rbRefuse x.st 5 x.ctx b (s.cpass b x.ctx) 0).launch i x [] [] .plain)
    else
      let r := s.rb b
      let s := s.setRb b { r with waitClose := r.waitClose ++ [⟨x.ctx, s.cpass b x.ctx, sem, x.sq⟩] }
      .next (s.launch i x [] [] .plain)

/-- Every addition that a context tagged with its pass has been applied: its close is counted, and its c goes on, to 255 at most
(R146). -/
def execRbCloseCounted (slot ctx : Nat) (s : State) : Res :=
  let r := s.rb slot
  match r.waitClose.find? fun c => c.ctx == ctx with
  | none => .next s
  | some c =>
    if s.ht.adds.any fun a => a.slot == slot && a.ctx == ctx && a.pass == c.pass then .next s
    else
      let s := s.setRb slot { r with waitClose := r.waitClose.erase c, closed := r.closed ++ [c] }
      .next ((s.setCpass slot ctx (min 255 (c.pass + 1))).advancePass slot 2)

-- Buffer set-up (R144, R157)

/-- A refused configuration write or window command. -/
def State.hthRefused (s : State) (st slot win : Nat) : State := (s.hthLog st 0x0B 0 slot win 0 0 0).raise st 0x60 7

/-- The tag records of a slot's spilled lines say that the lines hold nothing: at the buffer's enabling (DESIGN CHOICE, log 55). -/
def State.clearSpill (s : State) (st b : Nat) : State := s.zeroSpill st b

/-- A write to HTH_RB_b_CFG (R144 to R146, R157, R210). A buffer whose spill region the context's HBM quota cannot take is refused too:
DESIGN CHOICE (log 89). -/
def State.rbCfgWrite (s : State) (ag : Agent) (st b : Nat) (value : W32) : State :=
  match s.regGuard ag st 0x61 value with
  | (s, false) => s
  | (s, true) =>
    let k := rbReg b Reg.HTH_RB_b_CFG
    let old := s.rd st k
    let new := value &&& 0x3F
    let g := s.spillRegion st b
    if bitOf old.toNat 0 then
      if new ≠ old &&& 0x3E ∨ (s.job b).inStep then s.hthRefused st b 0
      else ((s.pinRange g.1 g.2.1 g.2.2 false).wr st k new).advanceGen b
    else if !bitOf new.toNat 0 then s.wr st k new
    else
      let u := fld (s.rd st (rbReg b Reg.HTH_RB_b_SIZE)) 12 0
      let n := fld new 5 1
      if !s.blockOn st 0x61 ∨ n = 0 ∨ n > 16 ∨ u = 0 ∨ u > 4096 ∨ !s.mapped g.1 g.2.1 g.2.2 true ∨ !s.pinFits g.1 g.2.1 g.2.2 then
        s.hthRefused st b 0
      else ((s.pinHbm st g.1 g.2.1 g.2.2).clearSpill st b).wr st k new

/-- A write to HTH_RB_b_CFG that enables the buffer (R144, R157). -/
def execRbEnable (ag : Agent) (st slot : Nat) (value : W32) (s : State) : Res := .next (s.rbCfgWrite ag st slot value)
/-- A write to HTH_RB_b_CFG that clears ENABLE (R145, R157). -/
def execRbDisable (ag : Agent) (st slot : Nat) (value : W32) (s : State) : Res := .next (s.rbCfgWrite ag st slot value)

-- Atomic windows (R154)

/-- Replaces a window. -/
def State.setAwin (s : State) (st w : Nat) (v : AWin) : State :=
  { s with ht := { s.ht with windows := tabSet (fun _ => {}) s.ht.windows (16 * st + w) v } }
/-- The window that the set-up registers of w describe. -/
def State.awinCfg (s : State) (st w : Nat) : AWin :=
  let hi := s.rd st (Reg.HTH_AW_w_BASE_HI + 16 * w)
  { bound := true, ctx := fld hi 27 16, len := 128 * fld (s.rd st (Reg.HTH_AW_w_SIZE + 16 * w)) 16 0,
    va := 128 * (s.rdN st (Reg.HTH_AW_w_BASE_LO + 16 * w) / 128) + 2 ^ 32 * fld hi 15 0 }
/-- Keeps HTH_AW_BOUND. -/
def State.showBound (s : State) (st : Nat) : State :=
  s.wr st Reg.HTH_AW_BOUND (pack ((List.range 16).map fun w => (b2n (s.awin st w).bound, w)))
/-- Lines of a context's atomic ways that its bound windows leave free. -/
def State.freeAtomic (s : State) (st c : Nat) : Nat :=
  65536 * (s.wayList st 5 c).length -
    ((List.range 16).map fun w => if (s.awin st w).bound ∧ (s.awin st w).ctx = c then (s.awin st w).len / 128 else 0).sum

/-- May a window be bound (R154)? -/
def State.bindOk (s : State) (st w : Nat) : Bool :=
  let g := s.awinCfg st w
  s.blockOn st 0x61 && !(s.awin st w).bound && decide (1 ≤ g.len / 128 ∧ g.len / 128 ≤ 65536 ∧ g.len / 128 ≤ s.freeAtomic st g.ctx) &&
    s.mapped g.ctx g.va g.len false &&
    (List.range 16).all fun v =>
      let h := s.awin st v
      !h.bound || (s.ctx h.ctx).aspace != (s.ctx g.ctx).aspace || decide (g.va + g.len ≤ h.va ∨ h.va + h.len ≤ g.va)

/-- The lines of a window that the hearths hold in other ways leave them. -/
def State.dropCached (s : State) (g : AWin) : State :=
  let ls := (rangeLines [(g.va, g.len)]).filterMap fun l => (s.vaAddr g.ctx (128 * l)).map (· / 128)
  s.dropLines fun h => h.kind != 5 && ls.contains h.line
/-- HTH_AW_w_CMD BIND (R154): the window's lines are read into the context's atomic ways, whatever ways held them. Cold pages are to be
promoted as they are pinned; lines that another stove's HBM holds have no place in this stove's ways, and stay with their home hearth
(R140): DESIGN CHOICE (log 90). -/
def execAtomicWindowBind (ag : Agent) (st w : Nat) (s : State) : Res :=
  match s.regGuard ag st 0x61 1 with
  | (s, false) => .next s
  | (s, true) =>
    if s.bindOk st w then
      let g := s.awinCfg st w
      let s := (((s.pinHbm st g.ctx g.va g.len).setAwin st w g).showBound st).dropCached g
      .next (s.reachAs st g.ctx [(g.va, g.len)] false false 1 [])
    else .next (s.hthRefused st 0 w)

/-- Writes back and gives up the lines of an atomic window. -/
def State.dropWindow (s : State) (g : AWin) : State :=
  let ls := (rangeLines [(g.va, g.len)]).filterMap fun l => (s.vaAddr g.ctx (128 * l)).map (· / 128)
  s.dropLines fun h => h.kind == 5 && ls.contains h.line
/-- HTH_AW_w_CMD UNBIND (R154): dirty lines are written back. -/
def execAtomicWindowUnbind (ag : Agent) (st w : Nat) (s : State) : Res :=
  match s.regGuard ag st 0x61 2 with
  | (s, false) => .next s
  | (s, true) =>
    let g := s.awin st w
    .next (if g.bound then
      (((s.dropWindow g).pinRange g.ctx g.va g.len false).setAwin st w { g with bound := false }).showBound st else s)

/-- HTH_AW_w_CMD RESET (R154). -/
def execAtomicWindowReset (ag : Agent) (st w : Nat) (s : State) : Res :=
  match s.regGuard ag st 0x61 4 with
  | (s, false) => .next s
  | (s, true) => .next (s.setAwin st w { s.awin st w with count := 0 })

/-- HTH_FLUSH GO (R157): every dirty general line of the stove is written back. -/
def execHthFlush (ag : Agent) (st : Nat) (s : State) : Res :=
  match s.regGuard ag st 0x60 1 with
  | (s, false) => .next s
  | (s, true) => .next (s.cleanLines fun h => h.kind == 0 && 128 * h.line / hbmRegion == st)

end Sys2Proof.Machine
end

