-- ==== Sys2Proof/Machine/Shards.lean ====
section
/-! DEFINITION. Embedding tables: descriptors, row records and seals, the shard function, shard and mirror directories, the map
region with its override table, and how a key finds its holders (R158 to R162, R180 to R185, R188, R213, R218). -/

namespace Sys2Proof.Machine

-- Table descriptors (R158, R199)

/-- A table descriptor. `valid` says that it keeps the rules of R158. -/
structure TDesc where
  valid : Bool
  slots : Nat
  n16 : Bool
  fmt : Fmt
  grain : Grain
  zp : Nat
  width : Nat
  rows : Nat
  sdir : Nat
  prog : Nat
  rowMode : Bool
  clamp : Bool
  nofp : Bool
  lo : W16
  hi : W16
  fpbase : Nat
  consts : List W16
deriving DecidableEq, Repr

/-- Reads a table descriptor (R158, R199). -/
def tdescOf (b : List Byte) : TDesc :=
  let w := leAt b 0 4
  let x := leAt b 0x18 4
  let f := bits w 8 5
  let g := bits w 11 9
  let n := leAt b 4 4 % 2048
  let r := leAt b 8 8
  let d := leAt b 0x10 8
  { valid := bitOf w 0 && decide (f ≤ 2 ∧ 1 ≤ g ∧ g ≤ 4 ∧ w / 65536 = 0 ∧ leAt b 4 4 / 2048 = 0 ∧ 16 ≤ n ∧ n ≤ 1024 ∧
      n % 16 = 0 ∧ 1 ≤ r ∧ r ≤ 2 ^ 40 ∧ d < 2 ^ 48 ∧ d % 2 ^ 20 = 0),
    slots := bits w 3 1, n16 := bitOf w 4, fmt := (Fmt.ofCode f).getD .f4, grain := (Grain.ofCode g).getD .lin16,
    zp := bits w 15 12, width := n, rows := r, sdir := d, prog := bits x 5 0, rowMode := bitOf x 6, clamp := bitOf x 7,
    nofp := bitOf x 8, lo := BitVec.ofNat 16 (leAt b 0x1C 2), hi := BitVec.ofNat 16 (leAt b 0x1E 2),
    fpbase := leAt b 0x20 6, consts := (List.range 12).map fun k => BitVec.ofNat 16 (leAt b (0x28 + 2 * k) 2) }

/-- The descriptor of a table. -/
def State.tdesc (s : State) (st b t : Nat) : TDesc :=
  let d := s.tdir st b
  tdescOf (s.vrdN d.1 (d.2 + 64 * t) 64)
/-- Bytes of a job's memory. -/
def State.jrdN (s : State) (st b va n : Nat) : List Byte := s.vrdN (s.tdir st b).1 va n
/-- Writes bytes of a job's memory. -/
def State.jwrN (s : State) (st b va : Nat) (d : List Byte) : State := s.vwrN (s.tdir st b).1 va d
/-- The complex or the sweep engine of a stove writes bytes of a job's memory, where its pages may be written: counted, and made through
the hearth (R140, R231, R232). -/
def State.ownWrite (s : State) (st b va : Nat) (d : List Byte) : State :=
  let c := (s.tdir st b).1
  if s.mapped c va d.length true then
    ((s.jwrN st b va d).reachAs st c [(va, d.length)] true false 2 []).renew c [(va, d.length)]
  else s
/-- The complex or the sweep engine of a stove reads a range of a job's memory in a class: the error that the command reports is met
at its first byte, what is known to be bad as it stands; otherwise the access is made. What an error does is the reader's. -/
def State.ownRead (s : State) (st b va n : Nat) (ecc : Ecc) (cls : Nat) : State × Option MemBad :=
  let c := (s.tdir st b).1
  let a := (s.vaAddr c va).getD (2 ^ 48)
  let home := a / hbmRegion
  let y := s.anySyndrome
  let met : State := match ecc with
    | .ce => s.nextFree.tierCe a c y cls
    | .dieCe => s.dieCe a
    | .linkCe => s.linkCe a c cls
    | .ue => s.nextFree.markBad a
    | .hearthCe =>
      if (s.hline a).isSome then
        ((s.bump home Reg.HTH_CE_TOTAL 1).countC home 0x60 1 |>.hthLog home 1 c 0 0 0 (a / 128) 0 y).raise home 0x60 0
      else s
    | .hearthUe =>
      match s.hline a with
      | none => s
      | some h =>
        if h.dirty ∨ h.kind = 5 then s.markLost a
        else
          let s : State := { s with ca := { s.ca with lines := s.ca.lines.erase h } }
          ((s.bump home Reg.HTH_UE_TOTAL 1).countU home 0x60 1 |>.hthLog home 2 c 0 0 0 (a / 128) 0 y).raise home 0x60 1
    | .walkUe =>
      if s.tlbHit st (s.ctx c).aspace (va / 2 ^ 21) then s
      else { s with tr := { s.tr with broken := addOnce s.tr.broken (s.ctx c).aspace } }
    | _ => s
  match met.memBad st c [(va, n)] false with
  | some (.walk t) => (met.walkFault ⟨st, 0, 0, c, 0⟩ t, some (.walk t))
  | some (.link p) => (met, some (.link p))
  | some (.part p) => (met.failAtOnce p c cls, some (.part p))
  | some (.word w) => (met.tierUe w c 2 y cls, some (.word w))
  | some (.line l) => (met.lostFault l c, some (.line l))
  | some (.spd a k) => (met, some (.spd a k))
  | none => (met.reachAs st c [(va, n)] false false cls [], none)
/-- Reads of a job's memory that meet no error: counted and made (R232, R236). -/
def State.jobReach (s : State) (st b : Nat) (rs : List (Nat × Nat)) (cls : Nat) : State :=
  s.reachAs st (s.tdir st b).1 rs false false cls []
/-- The same for ranges, up to the first that cannot be had. -/
def State.ownReads (s : State) (st b : Nat) (rs : List (Nat × Nat)) (cls : Nat) : State × Option MemBad :=
  rs.foldl (fun w r => if w.2.isSome then w else w.1.ownRead st b r.1 r.2 .ok cls) (s, none)

-- Row records (R159, R160)

/-- WREC (R159). -/
def TDesc.wrec (t : TDesc) : Nat := 32 * cdiv (t.width / 2 + cdiv t.width t.grain.size) 32
/-- B16 blocks of a row. -/
def TDesc.blocks (t : TDesc) : Nat := cdiv t.width 32
/-- Bytes of a state slot, SB (R160). -/
def TDesc.sb (t : TDesc) : Nat := if t.n16 then 2 * t.width else t.width + t.blocks
/-- MREC (R160). -/
def TDesc.mrec (t : TDesc) : Nat := 64 * cdiv (2 * t.width + t.blocks + t.slots * t.sb + 2) 64

/-- The values of 4-bit codes with a scale for each `n` of them, at byte `so` (R159). -/
def TDesc.workVals (t : TDesc) (rec : List Byte) : List ℚ :=
  (List.range t.width).map fun c =>
    elemVal t.fmt t.zp (leAt rec (c / 2) 1 / 2 ^ (4 * (c % 2)) % 16) (leAt rec (t.width / 2 + c / t.grain.size) 1)
/-- The values of a master record (R160). -/
def TDesc.masterVals (t : TDesc) (rec : List Byte) : List ℚ :=
  (List.range t.width).map fun c => elemVal .b16 0 (leAt rec (2 * c) 2) (leAt rec (2 * t.width + c / 32) 1)
/-- The values of a state slot, B8 or N16 (R160). -/
def TDesc.stateVals (t : TDesc) (rec : List Byte) (k : Nat) : List ℚ :=
  let o := 2 * t.width + t.blocks + k * t.sb
  (List.range t.width).map fun c =>
    if t.n16 then decN16 (BitVec.ofNat 16 (leAt rec (o + 2 * c) 2))
    else elemVal .b8 0 (leAt rec (o + c) 1) (leAt rec (o + t.width + c / 32) 1)

/-- Scales of a row cut into blocks of `n` (R30). -/
def rowScales (f : Fmt) (z n : Nat) (vs : List ℚ) : List Nat :=
  (List.range (cdiv vs.length n)).map fun j => chooseScale f z ((vs.drop (j * n)).take n)
/-- Codes and events of a row at its scales; `u` gives the draw of column c. -/
def rowCodes (f : Fmt) (z n : Nat) (sc : List Nat) (u : Nat → Option Nat) (vs : List ℚ) : List (Nat × Rd) :=
  vs.zipIdx.map fun p => quantize f z (nth 0 sc (p.2 / n)) p.1 (u p.2)
/-- The range events of a row written in a scaled format (R45). -/
def rowTally (n : Nat) (sc : List Nat) (cs : List (Nat × Rd)) (vs : List ℚ) : Tally :=
  let near := (List.range sc.length).filter fun j => nearScale (nth 0 sc j) ((vs.drop (j * n)).take n)
  cs.foldl (fun t c => t.add (Tally.ofRd c.2)) ⟨0, 0, near.length⟩
/-- Packs 4-bit codes, the even element in the low half (R75). -/
def packNibbles : List Nat → List Byte
  | a :: b :: t => BitVec.ofNat 8 (a % 16 + 16 * (b % 16)) :: packNibbles t
  | [a] => [BitVec.ofNat 8 (a % 16)]
  | [] => []
/-- The working record that a row's master values give, with its range events (R29, R30, R159). -/
def TDesc.working (t : TDesc) (vs : List ℚ) : List Byte × Tally :=
  let n := t.grain.size
  let sc := rowScales t.fmt t.zp n vs
  let cs := rowCodes t.fmt t.zp n sc (fun _ => none) vs
  (fitBytes t.wrec (packNibbles (cs.map (·.1)) ++ sc.map (BitVec.ofNat 8)), rowTally n sc cs vs)

/-- The seal of a master record (R213). -/
def sealOf (k : Key) (rec : List Byte) : Nat :=
  crc16 (leBytes 2 k.table ++ leBytes 5 k.row ++ rec.take (rec.length - 2))
/-- Does a record's seal pass (R213)? -/
def sealOk (k : Key) (rec : List Byte) : Bool :=
  rec.all (· == 0) || sealOf k rec == leAt rec (rec.length - 2) 2
/-- A master record closed by its seal. -/
def sealed (k : Key) (rec : List Byte) : List Byte := rec.take (rec.length - 2) ++ leBytes 2 (sealOf k rec)

-- Shards and holders (R161, R162, R181, R183)

/-- shard_of (R161). -/
def shardOf (k : Key) : Nat :=
  let q := k.row / 65536
  let x := k.row % 65536
  let h := 0x9FB21C651E98DF25 * (q + 2 ^ 40 * k.table) % 2 ^ 64
  let h := h ^^^ (h / 2 ^ 32)
  let x := 0x9E35 * (x ^^^ (h % 65536)) % 65536
  let x := x ^^^ (x / 2 ^ 7)
  let x := 0xC2B3 * (x + h / 65536 % 65536) % 65536
  x ^^^ (x / 2 ^ 8)

/-- A holder set as words name it; MIRRORS 3 is invalid (R181). -/
def holdersOf (w : Nat) : Option Holders :=
  let m := [(bits w 27 16, bits w 29 28), (bits w 43 32, bits w 45 44)]
  if bits w 15 14 = 3 then none
  else some { owner := bits w 11 0, ownerStove := bits w 13 12, mirrors := m.take (bits w 15 14) }
/-- The word of a holder set (R181). -/
def holdersWord (h : Holders) : Nat :=
  let a := h.mirrors.getD 0 (0, 0)
  let b := h.mirrors.getD 1 (0, 0)
  h.owner + 2 ^ 12 * h.ownerStove + 2 ^ 14 * (h.mirrors.length % 4) + 2 ^ 16 * a.1 + 2 ^ 28 * a.2 + 2 ^ 32 * b.1 + 2 ^ 44 * b.2
/-- Owner first, then the mirrors in order. -/
def holderList (h : Holders) : List (Nat × Nat) := (h.owner, h.ownerStove) :: h.mirrors

/-- Start of the map region (R180). -/
def State.mapBase (s : State) (st b : Nat) : Nat := (s.tdir st b).2 + 0x40000
/-- The shard map entry of a shard: eight bytes (R181). -/
def State.mapEntry (s : State) (st b t sh : Nat) : Nat :=
  leNat (s.jrdN st b (s.mapBase st b + 0x01000000 + 0x80000 * t + 8 * sh) 8)
/-- The holders that a shard map entry names. -/
def mapHolders (w : Nat) : Option Holders := if bitOf w 63 then holdersOf w else none

/-- A directory or mirror directory entry: WBASE, MBASE and VALID (R162, R183). -/
structure DirEnt where
  wbase : Nat
  mbase : Nat
  valid : Bool
deriving DecidableEq, Repr
/-- Address of the entry of a shard in the directory, or the mirror directory. -/
def TDesc.dirAt (t : TDesc) (mirror : Bool) (sh : Nat) : Nat := t.sdir + (if mirror then 0x100000 else 0) + 16 * sh
/-- Reads a directory entry. -/
def State.dirEnt (s : State) (st b : Nat) (t : TDesc) (mirror : Bool) (sh : Nat) : DirEnt :=
  let d := s.jrdN st b (t.dirAt mirror sh) 16
  ⟨leAt d 0 6, leAt d 8 6, bitOf (leAt d 15 1) 7⟩
/-- Sets VALID of a directory entry. -/
def State.setDirValid (s : State) (st b : Nat) (t : TDesc) (mirror : Bool) (sh : Nat) (on : Bool) : State :=
  let a := t.dirAt mirror sh + 15
  let v := leNat (s.jrdN st b a 1) % 128 + if on then 128 else 0
  s.ownWrite st b a [BitVec.ofNat 8 v]

-- The override table (R182)

/-- The address of place j of a key's bucket. -/
def State.ovAt (s : State) (st b : Nat) (k : Key) (j : Nat) : Nat :=
  s.mapBase st b + 0x1000 + 1024 * (shardOf k / 16) + 64 * j
/-- The entry at place j of a key's bucket. -/
def State.ovEnt (s : State) (st b : Nat) (k : Key) (j : Nat) : List Byte := s.jrdN st b (s.ovAt st b k j) 64
/-- Writes an override entry. -/
def State.ovPut (s : State) (st b : Nat) (k : Key) (j : Nat) (e : List Byte) : State := s.ownWrite st b (s.ovAt st b k j) e
/-- VALID of an entry. -/
def ovValid (e : List Byte) : Bool := bitOf (leAt e 6 1) 4
/-- LEARNED of an entry. -/
def ovLearned (e : List Byte) : Bool := bitOf (leAt e 6 1) 5
/-- PENDING of an entry. -/
def ovPending (e : List Byte) : Bool := bitOf (leAt e 6 1) 6
/-- The key of an entry. -/
def ovKey (e : List Byte) : Key := ⟨leAt e 5 2 % 4096, leAt e 0 5⟩
/-- The holders of an entry. -/
def ovHolders (e : List Byte) : Option Holders := holdersOf (leAt e 8 6)
/-- The addresses of holder i of an entry. -/
def ovAddr (e : List Byte) (i : Nat) : Nat × Nat := (leAt e (0x10 + 16 * i) 6, leAt e (0x18 + 16 * i) 6)
/-- An entry's bytes. -/
def ovBytes (k : Key) (learned pending : Bool) (h : Holders) (addrs : List Byte) : List Byte :=
  leBytes 8 (k.row + 2 ^ 40 * k.table + 2 ^ 52 + 2 ^ 53 * b2n learned + 2 ^ 54 * b2n pending) ++ leBytes 8 (holdersWord h) ++
    fitBytes 48 addrs
/-- A key's valid override entry: its place and its bytes. -/
def State.ovFind (s : State) (st b : Nat) (k : Key) : Option (Nat × List Byte) :=
  ((List.range 16).map fun j => (j, s.ovEnt st b k j)).find? fun p => ovValid p.2 && ovKey p.2 == k
/-- The place a new entry takes: the lowest free one, else that of the first learned entry that is not pending (R182). -/
def State.ovRoom (s : State) (st b : Nat) (k : Key) : Option Nat :=
  match (List.range 16).find? fun j => !ovValid (s.ovEnt st b k j) with
  | some j => some j
  | none => (List.range 16).find? fun j => let e := s.ovEnt st b k j; ovLearned e && !ovPending e
/-- Deletes a key's override entry. -/
def State.ovDelete (s : State) (st b : Nat) (k : Key) : State :=
  match s.ovFind st b k with
  | some p => s.ovPut st b k p.1 (List.replicate 64 0)
  | none => s
/-- Installs an entry, in place of one for the same key; a learned one never takes an authoritative one's place. -/
def State.ovInstall (s : State) (st b : Nat) (k : Key) (e : List Byte) : State :=
  match s.ovFind st b k with
  | some p => if ovLearned e && !ovLearned p.2 then s else s.ovPut st b k p.1 e
  | none =>
    match s.ovRoom st b k with
    | some j => s.ovPut st b k j e
    | none => s
/-- Clears PENDING on every learned entry, as the module resolves a step (R188). -/
def State.clearPending (s : State) (st b : Nat) : State :=
  (List.range 4096).foldl (fun s u =>
    (List.range 16).foldl (fun s j =>
      let a := s.mapBase st b + 0x1000 + 1024 * u + 64 * j
      let e := s.jrdN st b a 64
      if ovValid e && ovLearned e && ovPending e then
        s.ownWrite st b (a + 6) [BitVec.ofNat 8 (leAt e 6 1 - 64)] else s) s) s

-- Who holds a row (R184, R185, R187, R196)

/-- The holders that route a key: an override entry, pending ones too where `all` says so, else the shard map; with RELAYED. -/
def State.resolveKey (s : State) (st b : Nat) (k : Key) (all : Bool) : Option (Holders × Bool) :=
  let byMap := (mapHolders (s.mapEntry st b k.table (shardOf k))).map fun h => (h, false)
  match s.ovFind st b k with
  | some p => if all || !ovPending p.2 then (ovHolders p.2).map fun h => (h, true) else byMap
  | none => byMap

/-- The key's authoritative override entry on a module. -/
def State.ovOwn (s : State) (st b : Nat) (k : Key) : Option (List Byte) :=
  match s.ovFind st b k with
  | some p => if ovLearned p.2 then none else some p.2
  | none => none

/-- The records of a row in a shard array. -/
def DirEnt.at (d : DirEnt) (t : TDesc) (k : Key) : Nat × Nat :=
  (d.wbase + k.row / 65536 * t.wrec, d.mbase + k.row / 65536 * t.mrec)

/-- Has a committed order relayed a row away from its shard's arrays (R195)? -/
def State.isAway (s : State) (b : Nat) (k : Key) : Bool := s.em.away.contains (b, k)
/-- Where a stove of this module holds a row: its working and master record addresses, and whether as owner (R162, R182,
R183). A row relayed away is held by the holders of its entry alone. -/
def State.heldAt (s : State) (st b : Nat) (k : Key) : Option (Nat × Nat × Bool) :=
  let t := s.tdesc st b k.table
  let sh := shardOf k
  match s.ovOwn st b k with
  | some e =>
    match ovHolders e with
    | none => none
    | some h =>
      ((holderList h).zipIdx.find? fun p => some p.1.1 == s.fb.lid && p.1.2 == st).map fun p =>
        let a := ovAddr e p.2
        (a.1, a.2, p.2 == 0)
  | none =>
    let d := s.dirEnt st b t false sh
    let m := s.dirEnt st b t true sh
    if s.isAway b k then none
    else if d.valid then let a := d.at t k; some (a.1, a.2, true)
    else if m.valid then let a := m.at t k; some (a.1, a.2, false)
    else none

/-- Does a stove own the shard of a key by its directory? -/
def State.ownsShard (s : State) (st b : Nat) (k : Key) : Bool := (s.dirEnt st b (s.tdesc st b k.table) false (shardOf k)).valid

/-- What resolving a key reads of the map region: its bucket and its shard's map entry (R180, R182). -/
def State.keyReads (s : State) (st b : Nat) (k : Key) : List (Nat × Nat) :=
  [(s.ovAt st b k 0, 1024), (s.mapBase st b + 0x01000000 + 0x80000 * k.table + 8 * shardOf k, 8)]
/-- What finding a key's records on a stove reads: its bucket, its table's descriptor, and its shard's directory entries. -/
def State.heldReads (s : State) (st b : Nat) (k : Key) : List (Nat × Nat) :=
  let t := s.tdesc st b k.table
  [((s.tdir st b).2 + 64 * k.table, 64), (s.ovAt st b k 0, 1024)] ++
    (if t.valid then [(t.dirAt false (shardOf k), 16), (t.dirAt true (shardOf k), 16)] else [])
/-- Adds to a field of a shard's load counters in the stove's current step: REQ, or PART (R183). -/
def State.loadAdd (s : State) (st b : Nat) (k : Key) (part : Bool) : State :=
  let step := (s.job b).step
  let t := s.tdesc st b k.table
  let a := t.sdir + 0x200000 + 0x80000 * (step % 2) + 8 * shardOf k
  let w := leNat (s.vlastN (s.tdir st b).1 a 8)
  let w := if w % 65536 = step % 65536 then w else step % 65536
  let q := satAdd 0xFFFFFF (bits w 39 16) (b2n !part)
  let p := satAdd 0xFFFFFF (bits w 63 40) (b2n part)
  (s.jobReach st b [(a, 8)] 1).ownWrite st b a (leBytes 8 (w % 65536 + 2 ^ 16 * q + 2 ^ 40 * p))

/-- Is a key's shard suspect on a stove (R218)? -/
def State.isSuspect (s : State) (st b : Nat) (k : Key) : Bool :=
  (List.range 16).any fun n => s.suspect st n == some ⟨b, k.table, shardOf k⟩

/-- An SWP record (R224). -/
def State.swpLog (s : State) (st code b check table shard row peer : Nat) : State :=
  s.logErr st 0x80 ⟨pack [(code, 0), (b, 8), (check, 12)], pack [(table, 0), (shard, 12)], w32 row,
    pack [(row / 2 ^ 32 % 256, 0), (peer, 8)]⟩

/-- A shard becomes suspect (R218): an entry, or SWP_SUSP_LOST where none is free. -/
def State.makeSuspect (s : State) (st b code : Nat) (k : Key) (peer : Nat) : State :=
  let sh := shardOf k
  let s := (s.swpLog st code b 0 k.table sh k.row peer).raise st 0x80 7
  if s.isSuspect st b k then s
  else
    let s := s.bump st Reg.SWP_SPLITS 1
    match (List.range 16).find? fun n => (s.suspect st n).isNone with
    | some n => s.setSuspect st n (some ⟨b, k.table, sh⟩)
    | none => s.wr st Reg.SWP_SUSP_LOST (w32 (satAdd 65535 (s.rdN st Reg.SWP_SUSP_LOST) 1))

/-- Sets the module's FAULT vote bit; the first code is kept (R206, R219, R224). -/
def State.swpFault (s : State) (b code : Nat) : State :=
  s.modJob b fun j => { j with fault := true, faultCode := if j.faultCode = 0 then code else j.faultCode }
/-- Asks the next holder for a row's master record (R215); with none left the shard becomes suspect. -/
def State.askMaster (s : State) (r : Repair) : State :=
  match r.left with
  | (l, x) :: t =>
    let s := { s with sw := { s.sw with repairs := s.sw.repairs ++ [{ r with left := t }] } }
    s.send (some r.slot) 0x03 l [x, 9, r.key.table, r.key.row, 0, 0, r.id] []
  | [] =>
    let s := s.makeSuspect r.st r.slot 7 r.key 0
    if r.sweep then s.swpFault r.slot 7 else s

/-- A master record of this stove fails (R215): the row's other holders are asked in holder-set order. -/
def State.startRepair (s : State) (st b : Nat) (k : Key) (w m : Nat) (sweep : Bool) (ship : List (Nat × Nat) := []) : State :=
  let hs := ((s.resolveKey st b k true).map fun h => holderList h.1).getD []
  let id := s.sq.nextId
  let s := { s with sq := { s.sq with nextId := id + 1 } }
  s.askMaster ⟨id, st, b, k, w, m, hs.filter fun h => some h.1 != s.fb.lid, sweep, ship⟩

-- What an evaluation context may not write (R20)

/-- Does a range touch a table's records on a stove: in its shard arrays, or where an override entry names the stove itself as holder, at
its own addresses there (R182)? -/
def State.tableHit (s : State) (st b va n : Nat) : Bool :=
  ((List.range 4096).any fun t =>
    let d := s.tdesc st b t
    let k := cdiv d.rows 65536
    d.valid && [false, true].any fun mir => (List.range 65536).any fun sh =>
      let e := s.dirEnt st b d mir sh
      e.valid && (meet va n e.wbase (k * d.wrec) || meet va n e.mbase (k * d.mrec))) ||
    (List.range 65536).any fun u =>
      let e := s.jrdN st b (s.mapBase st b + 0x1000 + 64 * u) 64
      let d := s.tdesc st b (ovKey e).table
      ovValid e && !ovLearned e && (((ovHolders e).map holderList).getD []).zipIdx.any fun p =>
        let a := ovAddr e p.2
        some p.1.1 == s.fb.lid && p.1.2 == st && (meet va n a.1 d.wrec || meet va n a.2 d.mrec)
/-- The plan of a job on a stove: its address and the number of dense entries (R200). -/
def State.plan (s : State) (st b : Nat) : Nat × Nat :=
  let hi := s.rd st (Reg.SWP_JOB_b_PLAN_HI + 64 * b)
  (s.rdN st (Reg.SWP_JOB_b_PLAN_LO + 64 * b) + 2 ^ 32 * fld hi 15 0, fld hi 28 16)
/-- Dense entry j of the plan (R201). -/
def State.denseEnt (s : State) (st b j : Nat) : List Byte := s.jrdN st b ((s.plan st b).1 + 0x4000 + 64 * j) 64
/-- The view that a tensor descriptor in the job's memory gives. -/
def State.jview (s : State) (st b a : Nat) : View := descView (s.jrdN st b a 64)
/-- Does a range touch a dense master, its state or its working copy? -/
def State.denseHit (s : State) (st b va n : Nat) : Bool :=
  (List.range (s.plan st b).2).any fun j =>
    let e := s.denseEnt st b j
    let vs := [leAt e 0 6, leAt e 8 6] ++ (List.range (leAt e 0x16 1 % 8)).map fun k => leAt e 0x10 6 + 64 * k
    vs.any fun a => (s.jview st b a).ranges.any fun r => meet va n r.1 r.2
/-- Does a range of a context's memory touch a job's working copy, master or state? -/
def State.jobHit (s : State) (c va n : Nat) : Bool :=
  (List.range 4).any fun st => (List.range 8).any fun b =>
    bitOf (s.rdN st (Reg.EMB_JOB_b_CTRL + 16 * b)) 0 && (s.ctx (s.tdir st b).1).aspace == (s.ctx c).aspace &&
      (s.tableHit st b va n || s.denseHit st b va n)
/-- Does a write of a range by an evaluation context touch a job's working copy, master or state (R20)? -/
def State.guarded (s : State) (c va n : Nat) : Bool := (s.ctx c).isEval && s.jobHit c va n
/-- The same for a view. -/
def State.guardedView (s : State) (c : Nat) (v : View) : Bool :=
  v.place == .virt && v.ranges.any fun r => s.guarded c r.1 r.2

end Sys2Proof.Machine
end

