-- ==== Sys2Proof/Machine/Hopper.lean ====
section
/-! DEFINITION. The embedding complex's set-up, its error records, and the hopper: rings, announcements and occurrence blocks (R163,
R164, R179). -/

namespace Sys2Proof.Machine

/-- An EMB record (R179). -/
def State.embLog (s : State) (st code ring b ctx : Nat) (k : Key) (peer pass : Nat) : State :=
  s.logErr st 0x70 ⟨pack [(code, 0), (ring, 8), (b, 12)], pack [(ctx, 0), (k.table, 12)], w32 k.row,
    pack [(k.row / 2 ^ 32 % 256, 0), (peer, 8), (pass, 20)]⟩
/-- The key of a record that names none. -/
def noKey : Key := ⟨0, 0⟩
/-- A refused configuration write. -/
def State.embRefused (s : State) (st ring b : Nat) : State := (s.embLog st 0x0D ring b 0 noKey 0 0).raise st 0x70 9

-- Job slots (R179, R210)

/-- A write to EMB_JOB_b_CTRL. -/
def State.embJobWrite (s : State) (ag : Agent) (st b : Nat) (value : W32) : State :=
  match s.regGuard ag st 0x70 value with
  | (s, false) => s
  | (s, true) =>
    let k := Reg.EMB_JOB_b_CTRL + 16 * b
    let new := value &&& 1
    if bitOf (s.rdN st k) 0 then
      if new ≠ 0 ∨ (s.job b).inStep ∨ ((List.range 4).any fun q => bitOf (s.rdN q (Reg.SWP_JOB_b_CTRL + 64 * b)) 0) then
        s.embRefused st 0 b
      else
        ({ s with em := { s.em with
            embers := s.em.embers.filter fun e => !(e.st == st && e.slot == b)
            replicas := s.em.replicas.filter fun e => !(e.st == st && e.slot == b)
            missed := s.em.missed.filter fun e => !(e.1 == st && e.2.1 == b) } } : State).wr st k 0
    else if new = 0 then s
    else
      let c := (s.tdir st b).1
      let at_ := fun lo hi => s.rdN st (lo + 32 * b) + 2 ^ 32 * fld (s.rd st (hi + 32 * b)) 15 0
      let size := fun r => 4096 * s.rdN st (r + 32 * b)
      if s.blockOn st 0x70 && !s.kd.serviceOnly && s.mapped c (at_ Reg.EMB_JOB_b_MRG_LO Reg.EMB_JOB_b_MRG_HI) (size Reg.EMB_JOB_b_MRG_SIZE) true &&
          s.mapped c (at_ Reg.EMB_JOB_b_KEY_LO Reg.EMB_JOB_b_KEY_HI) (size Reg.EMB_JOB_b_KEY_SIZE) true then s.wr st k 1
      else s.embRefused st 0 b

/-- A write to EMB_JOB_b_CTRL that sets ENABLE (R179). -/
def execEmbJobEnable (ag : Agent) (st slot : Nat) (value : W32) (s : State) : Res := .next (s.embJobWrite ag st slot value)
/-- A write to EMB_JOB_b_CTRL that clears ENABLE (R179). -/
def execEmbJobDisable (ag : Agent) (st slot : Nat) (value : W32) (s : State) : Res := .next (s.embJobWrite ag st slot value)

-- Rings (R163)

/-- A ring's set-up: context, base, entries, lift and ENABLE (R179). -/
structure HopCfg where
  ctx : Nat
  base : Nat
  size : Nat
  lift : Nat
  on : Bool
deriving DecidableEq, Repr
/-- Reads a ring's set-up. -/
def State.hopCfg (s : State) (st h : Nat) : HopCfg :=
  let hi := s.rd st (Reg.EMB_HOP_h_BASE_HI + 32 * h)
  let c := s.rd st (Reg.EMB_HOP_h_CTRL + 32 * h)
  ⟨fld hi 27 16, s.rdN st (Reg.EMB_HOP_h_BASE_LO + 32 * h) + 2 ^ 32 * fld hi 15 0,
    fld (s.rd st (Reg.EMB_HOP_h_SIZE + 32 * h)) 16 0, fld c 7 1, bitOf c.toNat 0⟩

/-- Reads the announcement at HEAD, and takes it if its TAG and GEN are the expected ones (R163); `false` where they are not. One that
cannot be read faults the ring's context, as any data that no other row of R241 names, and the ring waits for its doorbell: DEDUCED
(log 95). -/
def State.hopTake (s : State) (st h : Nat) : State × Bool :=
  let g := s.hopCfg st h
  let p := s.hop st h
  let a := g.base + 64 * p.head
  match s.memBad st g.ctx [(a, 64)] false with
  | some m =>
    ((s.setHop st h { p with fetching := false, tries := 0, tail := p.head }).denied ⟨st, 0, 0, g.ctx, 0⟩ m false, true)
  | none =>
    let e := s.vrdN g.ctx a 64
    let s := s.reachAs st g.ctx [(a, 64)] false false 1 []
    if leAt e 0x3E 2 = p.tag ∧ leAt e 0x3C 1 % 2 = p.gen then
      let n := (p.head + 1) % g.size
      (s.setHop st h { p with
        head := n, tag := (p.tag + 1) % 65536, gen := if n = 0 then 1 - p.gen else p.gen, tries := 0, fetching := false,
        doing := some (e, 0) }, true)
    else (s, false)

/-- Fetches while there is more up to the tail and no announcement is being cut. -/
def State.hopFetch (s : State) (st h : Nat) : State :=
  let p := s.hop st h
  if !(s.hopCfg st h).on || p.doing.isSome || p.fetching || p.head == p.tail then s
  else
    match s.hopTake st h with
    | (s, true) => s
    | (s, false) => s.setHop st h { p with fetching := true, tries := 0 }

/-- A write to EMB_HOP_h_CTRL (R163, R179). -/
def State.hopCtrlWrite (s : State) (ag : Agent) (st h : Nat) (value : W32) : State :=
  match s.regGuard ag st 0x71 value with
  | (s, false) => s
  | (s, true) =>
    let k := Reg.EMB_HOP_h_CTRL + 32 * h
    let new := value &&& 0xFF
    if bitOf (s.rdN st k) 0 then
      if bitOf new.toNat 0 then s.embRefused st h 0
      else (s.wr st k new).setHop st h { s.hop st h with doing := none, fetching := false }
    else if !bitOf new.toNat 0 then s.wr st k new
    else if s.blockOn st 0x71 && (List.range 17).any fun n => n != 0 && (s.hopCfg st h).size == 2 ^ n then (s.wr st k new).setHop st h { gen := 1 }
    else s.embRefused st h 0

/-- A write to EMB_HOP_h_CTRL that enables the ring: HEAD and TAG 0, GEN 1 (R163). -/
def execHopperRingEnable (ag : Agent) (st h : Nat) (value : W32) (s : State) : Res := .next (s.hopCtrlWrite ag st h value)

/-- A write to EMB_HOP_h_DOORBELL (R163, R179). -/
def execHopperDoorbell (ag : Agent) (st h tail : Nat) (s : State) : Res :=
  match s.regGuard ag st 0x71 (w32 tail) with
  | (s, false) => .next s
  | (s, true) =>
    let g := s.hopCfg st h
    let p := s.hop st h
    let t := tail % 2 ^ 17
    if !g.on ∨ t ≥ g.size ∨ t = p.head then .next s
    else .next ((s.setHop st h { p with tail := t }).hopFetch st h)

/-- A further read of a stale announcement; the eighth that fails is logged, and the ring waits for its doorbell (R163). -/
def execAnnouncementReread (st h : Nat) (s : State) : Res :=
  let p := s.hop st h
  if !p.fetching then .next s
  else
    match s.hopTake st h with
    | (s, true) => .next s
    | (s, false) =>
      if p.tries + 1 < 8 then .next (s.setHop st h { p with tries := p.tries + 1 })
      else
        let s := s.setHop st h { p with fetching := false, tries := 0, tail := p.head }
        let s := (s.embLog st 0x0B h 0 (s.hopCfg st h).ctx noKey 0 0).raise st 0x70 7
        .next (s.bump st (Reg.EMB_HOP_h_STALE + 32 * h) 1)

-- Blocks (R164)

/-- An occurrence as it lies in memory: row, feature and sample (R163). -/
structure RawOcc where
  row : Nat
  feature : Nat
  sample : Nat
deriving DecidableEq, Repr
/-- Reads an occurrence. -/
def rawOcc (b : List Byte) (o : Nat) : RawOcc := ⟨leAt b o 5, leAt b (o + 5) 1, leAt b (o + 6) 2⟩
/-- The order of occurrences within an announcement. -/
def RawOcc.le (a b : RawOcc) : Bool := decide (a.sample < b.sample ∨ (a.sample = b.sample ∧ a.feature ≤ b.feature))
/-- Is a list in non-decreasing order? -/
def occSorted : List RawOcc → Bool
  | a :: b :: t => a.le b && occSorted (b :: t)
  | _ => true

/-- The fields of an announcement (R163). -/
structure Ann where
  occ : Nat
  wgt : Nat
  step : Nat
  pass : Nat
  count : Nat
  firstP : Nat
  total : Nat
  firstSample : Nat
  samples : Nat
deriving DecidableEq, Repr
/-- Reads an announcement. -/
def annOf (e : List Byte) : Ann :=
  ⟨leAt e 0 6, leAt e 8 6, leAt e 0x10 6, leAt e 0x18 1, leAt e 0x1C 4 % 2 ^ 27, leAt e 0x20 4 % 2 ^ 27,
    leAt e 0x24 4 % 2 ^ 27, leAt e 0x28 2, leAt e 0x2C 4 % 2 ^ 17⟩
/-- The checks made before any chair is written, but for the lift's (R164). -/
def Ann.ok (a : Ann) : Bool :=
  decide (a.count ≤ 2 ^ 26 ∧ a.total ≤ 2 ^ 26 ∧ a.samples ≤ 65536 ∧ a.firstP + a.count ≤ a.total ∧
    a.firstSample + a.samples ≤ 65536)
/-- Bytes of a block of n occurrences. -/
def Ann.blockLen (a : Ann) (n : Nat) : Nat := if a.wgt ≠ 0 ∧ n ≠ 0 then alignUp (64 + 8 * n) 64 + 2 * n else 64 + 8 * n
/-- Occurrences that a chair of a size holds. -/
def Ann.fits (a : Ann) (size : Nat) : Nat :=
  let n := (size - 64) / 8
  if a.wgt = 0 then n
  else ((List.range 33).foldl (fun (w : Nat × Nat) _ =>
    if w.1 + 1 < w.2 then (let m := (w.1 + w.2) / 2; if a.blockLen m ≤ size then (m, w.2) else (w.1, m)) else w) (0, n + 1)).1

/-- The 64-byte header of a block (R164). -/
def Ann.head (a : Ann) (last refused : Bool) (firstP count firstSample samples : Nat) : List Byte :=
  leBytes 8 a.step ++ leBytes 4 (a.pass + 256 * b2n last + 512 * b2n (a.wgt ≠ 0) + 1024 * b2n refused) ++ leBytes 4 firstP ++
    leBytes 4 count ++ leBytes 4 a.total ++ leBytes 4 firstSample ++ leBytes 4 samples ++ List.replicate 32 0

/-- Writes a block into the tail chair of a lift: claimed, written and FULL (R113). -/
def State.putBlock (s : State) (st k : Nat) (data : List Byte) : State :=
  let l := s.liftCfg st k
  let n := (s.lift st k).tail
  let v : View := { place := .spd, addr := l.chairAt n }
  (((s.claimTail st k).putBytes l.ctx v 0 data).renewSpd l.ctx [{ v with rows := 1, cols := data.length / 2 }]).chairFull st k n

/-- The announcement at hand ends; the ring goes on. -/
def State.hopDone (s : State) (st h : Nat) : State := (s.setHop st h { s.hop st h with doing := none }).hopFetch st h

/-- A refused announcement (R164): logged, the job's step tainted; one REFUSED, LAST block where there is a chair for it. -/
def State.hopRefuse (s : State) (st h : Nat) (a : Ann) (lift : Option Nat) : State :=
  let c := (s.hopCfg st h).ctx
  let s := ((s.embLog st 0x0C h (s.ctx c).slot c noKey 0 a.pass).raise st 0x70 8).taintCtx c
  (match lift with
    | some k => s.putBlock st k (a.head true true a.firstP 0 a.firstSample 0)
    | none => s).hopDone st h

/-- The next block, from occurrence `d` on: its bytes, how many occurrences it takes, and whether it is the last; none where a
check fails while reading (R164). -/
def State.nextBlock (s : State) (c : Nat) (a : Ann) (d size : Nat) : Option (List Byte × Nat × Bool) :=
  let m := min (a.count - d) (a.fits size + 1)
  let first := if d = 0 then 0 else 1
  let raw := s.vrdN c (a.occ + 8 * (d - first)) (8 * (m + first))
  let l := (List.range (m + first)).map fun j => rawOcc raw (8 * j)
  let mine := l.drop first
  let last := decide (a.count - d ≤ a.fits size)
  let n := if last then m else
    ((List.range (a.fits size)).reverse.find? fun j => (mine.map (·.sample))[j]? != (mine.map (·.sample))[j + 1]?).elim 0 (· + 1)
  let s0 := if d = 0 then a.firstSample else ((mine.map (·.sample))[0]?).getD 0
  let s1 := if last then a.firstSample + a.samples else ((mine.map (·.sample))[n]?).getD 0
  let good := occSorted l && mine.all (fun o => decide (a.firstSample ≤ o.sample ∧ o.sample < a.firstSample + a.samples)) &&
    (last || n != 0) && s.mapped c (a.occ + 8 * d) (8 * n) false &&
    (a.wgt == 0 || s.mapped c (a.wgt + 2 * d) (2 * n) false)
  if good then
    let w := if a.wgt = 0 ∨ n = 0 then [] else
      List.replicate (alignUp (64 + 8 * n) 64 - (64 + 8 * n)) 0 ++ s.vrdN c (a.wgt + 2 * d) (2 * n)
    some (a.head last false (a.firstP + d) n s0 (s1 - s0) ++ s.vrdN c (a.occ + 8 * d) (8 * n) ++ w, n, last)
  else none

/-- The hopper writes the next block of the announcement at hand into its lift's tail chair, once that is EMPTY (R113, R164,
R241). -/
def execHopperBlockWrite (st h : Nat) (ecc : Ecc) (s : State) : Res :=
  let g := s.hopCfg st h
  match (s.hop st h).doing with
  | none => .next s
  | some (e, d) =>
    let a := annOf e
    let l := s.liftCfg st g.lift
    let tail := (s.lift st g.lift).tail
    if !(l.enable && l.producer == 1) then .next (s.hopRefuse st h a none)
    else if (s.lift st g.lift).chair tail ≠ 0 then .next s
    else
      let x := (s.vaAddr g.ctx (a.occ + 8 * d)).getD 0
      let y := s.anySyndrome
      let s := match ecc with
        | .ce => s.nextFree.tierCe x g.ctx y
        | .ue => s.nextFree.tierUe x g.ctx 2 y
        | _ => s
      let w := fun (n : Nat) => [(a.occ + 8 * d, 8 * n), (a.wgt + 2 * d, if a.wgt = 0 then 0 else 2 * n)]
      match (if ecc = .ue ∨ !a.ok then none else s.nextBlock g.ctx a d l.size) with
      | none => .next (s.hopRefuse st h a (some g.lift))
      | some (b, n, last) =>
        if (s.memBad st g.ctx (w n) false).isSome then .next (s.hopRefuse st h a (some g.lift))
        else
        let s := s.reachAs st g.ctx (w n) false false 1 []
        let s := s.putBlock st g.lift b
        .next (if last then s.hopDone st h else s.setHop st h { s.hop st h with doing := some (e, d + n) })

end Sys2Proof.Machine
end

