-- ==== Sys2Proof/Machine/Emb.lean ====
section
/-! DEFINITION. Lookups and gradients of the embedding complex: EMB_LOOKUP, its requests and responses, the owner's side with the
ember cache, EMB_GRAD, key stoves and partials (R165 to R178, R184 to R188). -/

namespace Sys2Proof.Machine

-- Messages (R288, R290, R293)

/-- The job slot that bears a job tag (R294). -/
def State.slotOf (s : State) (jtag : Nat) : Option Nat :=
  (List.range 8).find? fun b =>
    bitOf (s.rdN 4 (colReg b Reg.COL_JOB_b_CTRL)) 0 && fld (s.rd 4 (colReg b Reg.COL_JOB_b_JTAG)) 15 0 == jtag
/-- Does a message come from a position that its logical ID no longer has, by its name-table entry (R293)? A module that has no entry
of its own knows its position itself. -/
def State.fenced (s : State) (m : MsgHdr) : Bool :=
  let e := s.name m.src
  if some m.src = s.fb.lid ∧ !e.valid then !(m.srcRink == s.kd.rink && m.srcSeat == s.kd.seat)
  else !(e.valid && e.rink == m.srcRink && e.seat == m.srcSeat)
/-- Discards a fenced message (R293, R306). -/
def State.fence (s : State) (m : MsgHdr) : State :=
  ((s.bump 4 Reg.COL_FENCED_TOTAL 1).colLog 8 0 0 m.src m.ctx m.cseq (m.dst + 4096 * m.src + 2 ^ 24 * (s.kd.rink % 256))).raise
    4 0xE0 10
/-- A row as ARG names it, with four bits of what the type needs beside it: DESIGN CHOICE (log 64). -/
def keyArg (k : Key) (x : Nat) : Nat := k.row % 2 ^ 40 + 2 ^ 40 * (k.table % 2 ^ 12) + 2 ^ 52 * (x % 16)
/-- Answers a request: type, the requesting stove, and what the type needs. -/
def State.answer (s : State) (m : MsgHdr) (type reqStove : Nat) (k : Key) (args : List Nat) (data : List Byte) : State :=
  s.send (s.slotOf m.jtag) type m.src (keyArg k reqStove :: args) data m.ctx (some m.step)

-- The ember cache (R174, R175)

/-- The primary entry of a row. -/
def State.primary (s : State) (st b : Nat) (k : Key) : Option Ember :=
  s.em.embers.find? fun e => e.st == st && e.slot == b && e.key == k
/-- The four counters of a key in the admission sketch. -/
def sketchKeys (st : Nat) (k : Key) : List Nat :=
  (List.range 4).map fun i => 65536 * st + Config.sketchHash i k.table k.row % 65536
/-- Counts a miss in the sketch. -/
def State.sketchAdd (s : State) (st : Nat) (k : Key) : State :=
  (sketchKeys st k).foldl (fun s i =>
    { s with em := { s.em with sketch := tabSet (fun _ => 0) s.em.sketch i (satAdd 255 (tabGet (fun _ => 0) s.em.sketch i) 1) } }) s
/-- The smallest of a key's counters. -/
def State.sketchMin (s : State) (st : Nat) (k : Key) : Nat :=
  (sketchKeys st k).foldl (fun m i => min m (tabGet (fun _ => 0) s.em.sketch i)) 255
/-- Writes a row's record into the ember entry that holds it. -/
def State.emberWrite (s : State) (st b : Nat) (k : Key) (d : List Byte) : State :=
  { s with em := { s.em with
      embers := s.em.embers.map fun e => if e.st = st ∧ e.slot = b ∧ e.key = k then { e with bytes := d } else e } }
/-- Makes room for `need` lines by replacing entries with an F below the estimate; none where it cannot. -/
def State.emberRoom (s : State) (st need est : Nat) : Nat → Option State
  | 0 => none
  | n + 1 =>
    if s.emberUsed st + need ≤ s.emberLines st then some s
    else
      match s.emberVictim st with
      | some v =>
        if v.freq < est then
          (({ s with em := { s.em with embers := s.em.embers.erase v } } : State).bump st Reg.EMB_EC_EVICTS 1).emberRoom st need
            est n
        else none
      | none => none

/-- The admission of a row that a request has missed, while this stove owns it: a copy of its working record (R174, R175). -/
def execEmberAdmit (st slot : Nat) (k : Key) (s : State) : Res :=
  if !s.em.missed.contains (st, slot, k) then .next s
  else
    let s : State := { s with em := { s.em with missed := s.em.missed.erase (st, slot, k) } }
    match s.heldAt st slot k with
    | some (w, _, true) =>
      let d := s.jrdN st slot w (s.tdesc st slot k.table).wrec
      let est := s.sketchMin st k
      if (s.primary st slot k).isSome then .next s
      else
        match s.emberRoom st (recLines d) est (s.em.embers.length + 1) with
        | none => .next s
        | some s =>
          let n := s.em.emberOrder
          .next (({ s with em := { s.em with
            embers := s.em.embers ++ [⟨st, slot, k, est, n, d⟩], emberOrder := n + 1 } } : State).bump st Reg.EMB_EC_ADMITS 1)
    | _ => .next s

-- The owner's side (R167, R177, R178, R187, R188)

/-- Re-derives a row's working record from its sealed master and rewrites it; none where the master fails (R177, R215). -/
def State.rederive (s : State) (st b : Nat) (k : Key) (w m : Nat) (mecc : Ecc) : State × Option (List Byte) :=
  let t := s.tdesc st b k.table
  let y := s.ownRead st b m t.mrec mecc 1
  let rec_ := s.jrdN st b m t.mrec
  if y.2.isNone && sealOk k rec_ then
    let x := t.working (t.masterVals rec_)
    (((y.1.ownWrite st b w x.1).emberWrite st b k x.1).tally st b t.fmt .wt x.2, some x.1)
  else (y.1, none)

/-- A request that is served was looked up in the ember cache: one served from its entry raises F, a miss the sketch (R175). -/
def State.emberLook (s : State) (st b : Nat) (k : Key) : State :=
  match s.primary st b k with
  | some e =>
    ({ s with em := { s.em with
        embers := s.em.embers.map fun x => if x = e then { x with freq := satAdd 65535 x.freq 1 } else x } } : State).bump st
      Reg.EMB_EC_HITS 1
  | none => (s.bump st Reg.EMB_EC_MISSES 1).sketchAdd st k
/-- Sends the record of a row that this stove has served; `look` says whether it came as the cache lookup said, and not re-derived in
place of an entry. -/
def State.sendRow (s : State) (st b : Nat) (m : MsgHdr) (k : Key) (reqStove : Nat) (look : Bool) (d : List Byte) : State :=
  let s : State := if (s.primary st b k).isNone ∧ s.emberLines st ≠ 0 ∧ !s.em.missed.contains (st, b, k) then
      { s with em := { s.em with missed := s.em.missed ++ [(st, b, k)] } }
    else s
  let s := if look then s.emberLook st b k else s
  ((s.bump st Reg.EMB_REQ_SERVED 1).loadAdd st b k false).answer m 0x10 reqStove k [] d
/-- An error of the hearth in the ember line of a row: corrected, or the clean line is fetched again (R143, R177). -/
def State.emberErr (s : State) (st c a : Nat) (ecc : Ecc) : State :=
  let y := s.anySyndrome
  match ecc with
  | .hearthCe => ((s.bump st Reg.HTH_CE_TOTAL 1).countC st 0x60 1 |>.hthLog st 1 c 0 0 0 (a / 128) 0 y).raise st 0x60 0
  | .hearthUe => ((s.bump st Reg.HTH_UE_TOTAL 1).countU st 0x60 1 |>.hthLog st 2 c 0 0 0 (a / 128) 0 y).raise st 0x60 1
  | _ => s
/-- Serves a row that this stove owns (R167, R175, R177, R179, R183). `ecc` is what its read of the record meets, `mecc` what a read of
the master does. An error of the complex's own SRAM, and a page table that cannot be read, are answered so that the requesting context
is faulted (R179, R241). -/
def State.serveRow (s : State) (st b : Nat) (m : MsgHdr) (k : Key) (w ma reqStove : Nat) (ecc mecc : Ecc) : State :=
  let t := s.tdesc st b k.table
  let c := (s.tdir st b).1
  let hit := s.primary st b k
  if ecc = .unitUe then
    (((s.countU st 0x70 1).embLog st 2 0 b c k m.src 0).raise st 0x70 11).answer m 0x12 reqStove k [2] []
  else
    let s := if ecc = .unitCe then ((s.countC st 0x70 1).embLog st 1 0 b c k m.src 0).raise st 0x70 10 else s
    let s := if hit.isSome then s.emberErr st c ((s.vaAddr c w).getD 0) ecc else s
    let line := if ecc == .hearthUe then none else hit
    let y : State × Option MemBad :=
      if line.isSome then (s, none) else s.ownRead st b w t.wrec (if hit.isSome then .ok else ecc) 0
    match y.2 with
    | none => y.1.sendRow st b m k reqStove true ((line.map Ember.bytes).getD (s.jrdN st b w t.wrec))
    | some (.walk _) => y.1.answer m 0x12 reqStove k [8] []
    | some _ =>
      match y.1.rederive st b k w ma mecc with
      | (s, some d) =>
        (((s.bump st Reg.EMB_REDERIVED 1).embLog st 5 0 b m.ctx k m.src 0).raise st 0x70 2).sendRow st b m k reqStove hit.isNone d
      | (s, none) =>
        (((s.embLog st 6 0 b m.ctx k m.src 0).raise st 0x70 3).startRepair st b k w ma false).answer m 0x12 reqStove k [6] []

/-- Acts on a request whose epoch is the committed one: serves, redirects or answers invalid (R187, R188, R218). Where the row's entry
or directories cannot be read, the requesting context is faulted as for a row that cannot (R241). -/
def State.actLookup (s : State) (st b : Nat) (m : MsgHdr) (k : Key) (eval : Bool) (reqStove : Nat) (ecc mecc : Ecc) : State :=
  let t := s.tdesc st b k.table
  let y := s.ownReads st b (s.heldReads st b k) 0
  let s := y.1
  let no := s.answer m 0x12 reqStove k [] []
  if y.2.isSome then s.answer m 0x12 reqStove k [match y.2 with | some (.walk _) => 8 | _ => 2] []
  else if !t.valid ∨ k.row ≥ t.rows ∨ (!eval ∧ s.isSuspect st b k) then no
  else
    match s.heldAt st b k with
    | some (w, ma, true) => s.serveRow st b m k w ma reqStove ecc mecc
    | _ =>
      match s.ovOwn st b k with
      | some e =>
        if !eval ∧ s.ownsShard st b k then s.answer m 0x11 reqStove k [] (leBytes 8 (leAt e 8 6)) else no
      | none => no

/-- LOOKUP: a request reaches this stove (R178, R187, R293). -/
def execLookup (st : Nat) (m : MsgHdr) (k : Key) (epoch : Nat) (eval : Bool) (reqStove : Nat) (ecc : RowEcc) (s : State) : Res :=
  if s.fenced m then .next (s.fence m)
  else
    match s.slotOf m.jtag with
    | none => .next (s.answer m 0x12 reqStove k [] [])
    | some b =>
      let e := s.epoch st b
      if epoch = e then .next (s.actLookup st b m k eval reqStove ecc.row ecc.master)
      else if eval then
        .next (((s.embLog st 7 0 b m.ctx k m.src 0).raise st 0x70 4).answer m 0x12 reqStove k [7] [])
      else if epoch = e + 1 then
        .next { s with em := { s.em with held := s.em.held ++ [⟨st, m, k, epoch, reqStove, ecc.row, ecc.master⟩] } }
      else .next (s.answer m 0x12 reqStove k [] [])

/-- Acts on the requests held for a slot on a stove, in their order, once its epoch has advanced (R187). -/
def State.releaseHeld (s : State) (st b : Nat) : State :=
  let mine := fun (h : HeldReq) => h.st == st && s.slotOf h.hdr.jtag == some b && h.epoch == s.epoch st b
  let now := s.em.held.filter mine
  let s := { s with em := { s.em with held := s.em.held.filter fun h => !mine h } }
  now.foldl (fun s h => s.actLookup st b h.hdr h.key false h.reqStove h.ecc h.mecc) s

/-- REPLICA: a row's new record, kept while there are lines for it (R176). -/
def execReplica (st : Nat) (m : MsgHdr) (k : Key) (epoch : Nat) (data : List Byte) (s : State) : Res :=
  if s.fenced m then .next (s.fence m)
  else
    match s.slotOf m.jtag with
    | none => .next s
    | some b =>
      let s := { s with em := { s.em with
        replicas := s.em.replicas.filter fun r => !(r.st == st && r.slot == b && r.key == k) } }
      if s.emberUsed st + recLines data ≤ s.emberLines st then
        .next { s with em := { s.em with replicas := s.em.replicas ++ [⟨st, b, k, epoch, data⟩] } }
      else .next (s.bump st Reg.EMB_EC_REPL_DROP 1)

-- The lookup record (R169)

/-- A range of raw bytes as a view. -/
def rawView (p : Place) (a n : Nat) : View :=
  { place := p, addr := a, fmt := .n16, cls := .state, rows := 1, cols := n / 2, stride := 0 }
/-- The record region that a descriptor's view is: its rows times its stride, as raw bytes (R165). -/
def recRegion (v : View) : View := rawView v.place v.addr (v.rows * v.stride)
/-- The size of a raw region. -/
def View.rawLen (v : View) : Nat := 2 * v.cols
/-- The header of a lookup record. -/
def recHead (step pass : Nat) (weights refused : Bool) (firstP n u firstSample samples epoch dropped : Nat) : List Byte :=
  leBytes 8 step ++ leBytes 4 (pass + 256 * b2n weights + 512 * b2n refused) ++ leBytes 4 firstP ++ leBytes 4 n ++ leBytes 4 u ++
    leBytes 4 firstSample ++ leBytes 4 samples ++ leBytes 8 epoch ++ leBytes 4 0 ++ leBytes 4 dropped ++ List.replicate 16 0
/-- A key entry's 32 bytes. -/
def KeyEnt.bytes (e : KeyEnt) (rowValid : Bool) : List Byte :=
  leBytes 8 (e.key.row + 2 ^ 40 * e.key.table) ++ leBytes 8 (e.runStart + 2 ^ 27 * e.runLen) ++
    leBytes 8 (e.owner + 2 ^ 12 * e.ownerStove + 2 ^ 14 * b2n e.relayed + 2 ^ 16 * e.rank0) ++
    leBytes 8 (e.rowOff + 2 ^ 32 * b2n rowValid)
/-- An occurrence entry: sample, feature, weight: [15:0], [23:16], [39:24]. -/
def Occ.word (o : Occ) : List Byte := leBytes 8 (o.sample + 2 ^ 16 * o.feature + 2 ^ 24 * o.weight.toNat)

/-- Reads a feature entry. -/
def featOf (b : List Byte) : Feat :=
  ⟨leAt b 0 2 % 4096, leAt b 0 2 / 4096 % 4, leAt b 4 4 % 2 ^ 21, leAt b 8 4 % 2 ^ 21⟩
/-- The features of an instruction. -/
def State.feats (s : State) (c addr n : Nat) : List Feat :=
  (List.range n).map fun f => featOf (s.bytesOf c (rawView .spd (addr + 16 * f) 16) 0 16)
/-- The view of a descriptor of the pool of the image that a sequencer runs. -/
def State.poolView (s : State) (st sq i : Nat) : View :=
  let q := s.seq st sq
  let p := s.slot st q.slot
  let o := alignUp (64 + 32 * s.imgHdr st q.slot q.half 8 4) 64
  descView (s.psN st (p.base q.half + o + 64 * i) 64)
/-- Does a pool descriptor exist in the image that a sequencer runs? -/
def State.poolHas (s : State) (st sq i : Nat) : Bool :=
  let q := s.seq st sq
  decide (i < s.imgHdr st q.slot q.half 0x0C 4)

/-- The window offset of a block or feature table operand. -/
def State.rawAddr (s : State) (x : Src) : Opd → Option Nat
  | .direct a .. => some a
  | .indirect r .. => some ((s.seq x.st x.sq).sreg r).toNat
  | .chair n t f g z k =>
    match s.chairOf x.ctx (.chair n t f g z k) with
    | some (h, c, false) => some ((s.liftCfg x.st h).chairAt c)
    | _ => none
  | _ => none

/-- The embedding complex's own SRAM errors on an instruction (R179). -/
def State.embUnit (s : State) (x : Src) (e : Ecc) : State × Bool :=
  let b := (s.ctx x.ctx).slot
  match e with
  | .unitCe => (((s.countC x.st 0x70 1).embLog x.st 1 0 b x.ctx noKey 0 0).raise x.st 0x70 10, true)
  | .unitUe => ((((s.countU x.st 0x70 1).embLog x.st 2 0 b x.ctx noKey 0 0).raise x.st 0x70 11).fail x.ctx 2 7, false)
  | _ => (s, true)

-- Pooling (R168)

/-- The elements of a view that a corner of it writes: the corner's values, and zeros for what else its scale blocks hold. -/
def cornerItems (v : View) (rows cols : Nat) (f : Nat → Nat → ℚ) : List Item :=
  let cols' := min v.cols (if scaled v.fmt then alignUp cols v.grain.size else cols)
  let rows' := min v.rows (if scaled v.fmt ∧ v.grain = .square then alignUp rows 8 else rows)
  (List.range rows').flatMap fun r => (List.range cols').map fun c => (r, c, if r < rows ∧ c < cols then f r c else 0)

/-- The ranges that a corner of a view takes: its rows, and their scales. -/
def View.cornerRanges (v : View) (rows cols : Nat) : List (Nat × Nat) :=
  (List.range rows).flatMap fun r => (v.addr + r * v.stride, rowBytes v.fmt cols) ::
    (if scaled v.fmt then [(v.addr + v.scaleOff + v.blk r 0, v.blk r (cols - 1) + 1 - v.blk r 0)] else [])
/-- A write to ranges of a view that lies in virtual memory reaches its lines. -/
def State.reachView (s : State) (c : Nat) (v : View) (rs : List (Nat × Nat)) : State :=
  if v.place = .virt then s.reachW c rs else s
/-- The columns of a feature's output that a lookup writes (R168). -/
def outCols (t : TDesc) (v : View) : Nat := if t.valid then t.width else v.cols
/-- Pools every feature of a lookup whose rows have all arrived, and writes the outputs (R168). -/
def State.poolLookup (s : State) (f : Flight) (l : LookupF) : State :=
  let b := (s.ctx f.ctx).slot
  let seed := (s.draw f.ctx).seed.toNat
  let rowOf := fun (k : KeyEnt) => (k.key, s.bytesOf f.ctx l.recv (32 * k.rowOff) k.wrec)
  let rows := l.keys.map rowOf
  l.outs.zipIdx.foldl (fun s p =>
    let fe := p.1.1
    let t := s.tdesc f.st b fe.table
    let v := p.1.2
    let bag := fun r => (l.occs.filter fun o => o.feature == p.2 && o.sample == l.firstSample + r).map fun o =>
      (o.weight, t.workVals (((rows.find? fun e => e.1 == o.key).map (·.2)).getD []))
    let bags := (List.range l.samples).map bag
    let val := fun r c =>
      let g := bags.getD r []
      let col := fun (e : W16 × List ℚ) => nth 0 e.2 c
      if g.isEmpty then (0 : ℚ)
      else
        match fe.pool with
        | 0 => (g.map col).sum
        | 1 => (g.map col).sum / (g.length : ℚ)
        | 2 => (g.map fun e => decN16 e.1 * col e).sum
        | _ => decN16 (Config.stableW16 [seed, l.step, fe.table, p.2, l.firstSample + r, c])
    let w := s.storeItems f.ctx v (fun _ => none) (cornerItems v l.samples (outCols t v) val)
    (w.1.reachView f.ctx v (v.cornerRanges l.samples (outCols t v))).tallyCtx f.ctx v.fmt .act w.2) s

/-- A lookup with every row at hand pools and has only to complete (R166, R168). -/
def State.tryPool (s : State) (f : Flight) (l : LookupF) : State :=
  if l.keys.all (·.got) then (s.asOf f.id fun s => s.poolLookup f l).putFlight { f with body := .plain }
  else s.putFlight { f with body := .lookup l }

/-- A row's bytes reach the record of a lookup (R169). -/
def State.gotRow (s : State) (f : Flight) (l : LookupF) (i : Nat) (e : KeyEnt) (data : List Byte) (valid : Bool) : State × LookupF :=
  let w := leBytes 8 (e.rowOff + 2 ^ 32 * b2n valid)
  let s := s.asOf f.id fun s => (s.putBytes f.ctx l.recv (32 * e.rowOff) data).putBytes f.ctx l.recv (64 + 32 * i + 24) w
  let s := s.reachView f.ctx l.recv [(l.recv.addr + 32 * e.rowOff, data.length), (l.recv.addr + 64 + 32 * i + 24, 8)]
  (s, { l with keys := l.keys.set i { e with got := true } })

-- EMB_LOOKUP (R165, R166)

/-- Groups occurrences by key, keys ascending, occurrences of a key in position order (R166). -/
def byKey (l : List Occ) : List (Key × List Occ) :=
  (l.foldl (fun (t : Tab (List Occ)) o =>
    let k := 2 ^ 40 * o.key.table + o.key.row
    tabPut t k (tabGet (fun _ => []) t k ++ [o])) []).map fun p => (⟨p.1 / 2 ^ 40, p.1 % 2 ^ 40⟩, p.2)

/-- Key entries with their runs and their row areas from an offset of the record on. -/
def keyEnts (wrec : Key → Nat) : Nat → Nat → List (Key × List Occ × Holders × Bool) → List KeyEnt
  | _, _, [] => []
  | run, off, (k, o, h, r) :: t =>
    { key := k, runStart := run, runLen := o.length, owner := h.owner, ownerStove := h.ownerStove, relayed := r, rank0 := 0,
      keyStove := h.ownerStove, rowOff := off / 32, wrec := wrec k, got := false, redirected := false } ::
      keyEnts wrec (run + o.length) (off + wrec k) t

/-- Sends the request of a key to its owner (R166). -/
def State.sendLookup (s : State) (st ctx : Nat) (l : LookupF) (e : KeyEnt) (eval : Bool) : State :=
  (s.bump st Reg.EMB_REQ_SENT 1).send (some (s.ctx ctx).slot) 0x01 e.owner
    [e.ownerStove, e.key.table, e.key.row, l.epoch, b2n eval, st] [] ctx (some l.step)

/-- An occurrence or a request is dropped or answered invalid (R166, R167). -/
def State.embDrop (s : State) (x : Src) (k : Key) (peer pass n : Nat) : State :=
  if n = 0 then s
  else
    let s := (s.bump x.st Reg.EMB_DROPPED n).embLog x.st 3 0 (s.ctx x.ctx).slot x.ctx k peer pass
    (s.raise x.st 0x70 0).taintSeq x.st x.sq x.ctx

/-- The occurrences of a block that name a row of a valid table, in position order (R166). -/
def lookOccs (blk : List Byte) (fs : List (Feat × TDesc)) : List Occ :=
  let flags := leAt blk 9 1
  let count := leAt blk 0x10 4 % 2 ^ 27
  let n := if bitOf flags 2 then 0 else count
  let wOff := alignUp (64 + 8 * n) 64
  (List.range n).filterMap fun j =>
    let o := rawOcc blk (64 + 8 * j)
    match fs[o.feature]? with
    | some (f, t) =>
      if t.valid ∧ o.row < t.rows then
        some { sample := o.sample, feature := o.feature, pos := leAt blk 0x0C 4 % 2 ^ 27 + j, key := ⟨f.table, o.row⟩,
               weight := if bitOf flags 1 then BitVec.ofNat 16 (leAt blk (wOff + 2 * j) 2) else 0x3F00 }
      else none
    | none => none
/-- The body of EMB_LOOKUP, its checks passed: `blk` is the block's bytes, `r` the record region (R166). An uncorrectable error that
the command reports in an operand past those of the instruction lies in the replica of the key of that number (R177). -/
def State.runLookup (s : State) (i : Iss) (x : Src) (blk : List Byte) (r : View) (outs : List (Feat × View))
    (readers : List (Nat × Nat)) (lines : List Nat) : State :=
  let c := s.ctx x.ctx
  let b := c.slot
  let badReplica := fun (j : Nat) => i.rd == .hearthUe && i.rdOpd == 3 + outs.length + j
  let flags := leAt blk 9 1
  let count := leAt blk 0x10 4 % 2 ^ 27
  let n := if bitOf flags 2 then 0 else count
  let firstP := leAt blk 0x0C 4 % 2 ^ 27
  let step := leAt blk 0 6
  let pass := leAt blk 8 1
  let total := leAt blk 0x14 4 % 2 ^ 27
  let fs := outs.map (·.1)
  let occs := lookOccs blk (fs.map fun f => (f, s.tdesc x.st b f.table))
  let groups := (byKey occs).map fun g => (g.1, g.2, s.resolveKey x.st b g.1 false)
  let kept := groups.filterMap fun g => g.2.2.map fun h => (g.1, g.2.1, h.1, h.2)
  let sorted := kept.flatMap fun g => g.2.1
  let drops := n - sorted.length
  let all := (List.range n).map fun j => rawOcc blk (64 + 8 * j)
  let bad := (all.find? fun o => !(sorted.any fun k => k.key.row == o.row && k.sample == o.sample && k.feature == o.feature)).getD
    ⟨0, 0, 0⟩
  let badKey : Key := ⟨((fs[bad.feature]?).map (·.table)).getD 0, bad.row⟩
  let epoch := s.epoch x.st b
  let area := alignUp (64 + 32 * kept.length + 8 * sorted.length) 32
  let ents := keyEnts (fun k => (s.tdesc x.st b k.table).wrec) 0 area kept
  let need := area + (kept.map fun g => (s.tdesc x.st b g.1.table).wrec).sum
  let full := decide (need > r.rawLen)
  let s := (s.bump x.st Reg.EMB_OCC_TOTAL n).bump x.st Reg.EMB_UNIQUE_TOTAL ents.length
  let s := s.embDrop x badKey 0 pass drops
  let s := s.putBytes x.ctx r 0 (recHead step pass (bitOf flags 1) (bitOf flags 2 || full) firstP sorted.length ents.length
    (leAt blk 0x18 2) (leAt blk 0x1C 4 % 2 ^ 17) epoch drops)
  let s := (s.putBytes x.ctx r 64 ((ents.flatMap fun e => e.bytes false) ++ sorted.flatMap Occ.word)).reachView x.ctx r
      [(r.addr, 64 + 32 * ents.length + 8 * sorted.length)]
  if full then
    let s := ((s.embLog x.st 4 0 b x.ctx noKey 0 pass).raise x.st 0x70 1).taintSeq x.st x.sq x.ctx
    s.launch i x readers lines .plain
  else
    let s := if !c.isJob then s
      else { s with em := { s.em with covQueue := s.em.covQueue ++ (List.range 4).map fun q =>
        { st := q, slot := b, step := step, pass := pass, firstP := firstP, count := n, total := total, ctx := x.ctx, recv := r,
          runs := ents.zipIdx.filterMap fun e => if e.1.keyStove = q then some (e.1.key, e.1.runLen, e.2) else none,
          ranked := false } } }
    let l : LookupF :=
      { recv := r, outs := outs, step := step, pass := pass, epoch := epoch, firstP := firstP,
        firstSample := leAt blk 0x18 2, samples := leAt blk 0x1C 4 % 2 ^ 17, keys := ents, occs := sorted }
    let id := s.sq.nextId
    let s := s.launch i x readers lines (.lookup l)
    match s.flight id with
    | none => s
    | some f =>
      let w := ents.zipIdx.foldl (fun (w : State × LookupF) e =>
        match w.1.em.replicas.find? fun q => q.st == x.st && q.slot == b && q.key == e.1.key && q.epoch == epoch with
        | some q =>
          if badReplica e.2 then
            let s : State := { w.1 with em := { w.1.em with replicas := w.1.em.replicas.erase q } }
            (((s.embLog x.st 5 0 b x.ctx e.1.key e.1.owner pass).raise x.st 0x70 2).sendLookup x.st x.ctx l e.1 c.isEval, w.2)
          else
            (w.1.bump x.st Reg.EMB_EC_REPL_HITS 1).gotRow f w.2 e.2 e.1
              (fitBytes e.1.wrec q.bytes) true
        | none => (w.1.sendLookup x.st x.ctx l e.1 c.isEval, w.2)) (s, l)
      w.1.tryPool f w.2

/-- Must a lookup of a block's step still wait for the step before it, or for an attempt of its step that is not resolved, so that the
lookup is of the rerun (R20, R186)? An attempt's own lookups come before its STEP_END, a rerun's after it: DEDUCED (log 93). -/
def State.lookupEarly (s : State) (c step : Nat) : Bool :=
  let j := s.job (s.ctx c).slot
  (s.ctx c).isJob && (decide (step > j.step) || (step == j.step && j.inStep && j.stepEnd))

/-- The operands of EMB_LOOKUP, resolved: the record region, the block with its header's fields, the feature table, and for each
feature its output and its table. -/
structure LookV where
  recv : View
  blk : View
  feat : View
  hasBlk : Bool
  hasFeat : Bool
  step : Nat
  n : Nat
  samples : Nat
  outs : List (Feat × View × TDesc)
deriving DecidableEq, Repr

/-- Resolves the operands of EMB_LOOKUP (R164, R165). -/
def State.lookViews (s : State) (x : Src) (features : Nat) (a b c : Opd) : LookV :=
  let ha := s.rawAddr x a
  let fa := s.rawAddr x c
  let a0 := ha.getD 0
  let head := s.bytesOf x.ctx (rawView .spd a0 64) 0 64
  let n := leAt head 0x10 4 % 2 ^ 27
  let len := if bitOf (leAt head 9 1) 1 ∧ n ≠ 0 then alignUp (64 + 8 * n) 64 + 2 * n else 64 + 8 * n
  { recv := recRegion (s.view x.st x.sq x.ctx b 0 0), blk := rawView .spd a0 len, feat := rawView .spd (fa.getD 0) (16 * features)
    hasBlk := ha.isSome, hasFeat := fa.isSome, step := leAt head 0 6, n := n, samples := leAt head 0x1C 4 % 2 ^ 17
    outs := (s.feats x.ctx (fa.getD 0) (min features 256)).map fun f =>
      (f, s.poolView x.st x.sq f.out, s.tdesc x.st (s.ctx x.ctx).slot f.table) }

/-- The offending number among the views that features name: the index of a descriptor that the pool lacks, more samples than rows, a
table's width above the columns (R165). -/
def State.featBad (s : State) (x : Src) (index : Feat → Nat) (samples : Nat) (l : List (Feat × View × TDesc)) : Option Nat :=
  l.findSome? fun o =>
    if !s.poolHas x.st x.sq (index o.1) then some (index o.1)
    else if o.2.1.rows < samples then some samples
    else if o.2.2.valid ∧ o.2.1.cols < o.2.2.width then some o.2.2.width
    else none
/-- The run-time check that EMB_LOOKUP fails, and the offending value (R94, R100, R165). -/
def State.lookCheck (s : State) (x : Src) (features : Nat) (a b c : Opd) (v : LookV) : Option (Nat × Nat) :=
  let fits := decide (v.feat.addr + 16 * features ≤ s.window x.ctx)
  let outs := v.outs.map fun o => (Opd.none, o.2.1)
  let desc := badAddr ((b, v.recv) :: outs) fun o => s.descFails x.st x.sq x.ctx o.1 o.2 true
  let extent := badAddr ([(a, v.blk), (b, v.recv)] ++ (if fits then [(c, v.feat)] else []) ++ outs) fun o => s.extentFails x.ctx o.1 o.2
  let out := s.featBad x Feat.out v.samples v.outs
  if desc.isSome then some (3, desc.getD 0)
  else if extent.isSome then some (1, extent.getD 0)
  else if features > 256 ∨ !fits then some (2, features)
  else if v.recv.rawLen < 64 + 40 * v.n then some (2, v.n)
  else if out.isSome then some (2, out.getD 0)
  else if !v.hasBlk ∨ !v.hasFeat then some (4, 0)
  else if !b.desc ∨ v.recv.place = .rb then some (4, v.recv.addr)
  else (badAddr outs fun o => o.2.place == .rb).map fun n => (4, n)

/-- The lines that EMB_LOOKUP claims. -/
def State.lookLines (s : State) (c : Nat) (v : LookV) : List Nat :=
  (s.viewLines c v.recv ++ v.outs.flatMap fun o => s.viewLines c o.2.1).eraseDups

/-- The accesses of EMB_LOOKUP at issue: to the block and the feature table, and what a write of the record or of an output corner would
meet (R105, R228, R240). Those writes are made as the rows arrive. -/
def State.lookAccess (s : State) (x : Src) (i : Iss) (b : Opd) (v : LookV) : State × Bool :=
  let ws := (if v.recv.place = .virt then [(v.recv.addr, v.recv.rawLen)] else []) ++
    v.outs.flatMap fun o => if o.2.1.place = .virt then o.2.1.cornerRanges v.samples (outCols o.2.2 o.2.1) else []
  let y := s.metEcc x i [v.blk, v.feat] (v.recv :: v.outs.map fun o => o.2.1) [] 1 0
  if !y.2 then y
  else
    match y.1.memBad x.st x.ctx (s.descRanges x [b]) false with
    | some m => (y.1.denied x m false, false)
    | none =>
      match y.1.memBad x.st x.ctx ws true with
      | some m => (y.1.denied x m true, false)
      | none => (y.1.reach x.ctx (s.descRanges x [b]), true)

/-- The reads of table descriptors and of the map region that a lookup makes, in the latency-critical class (R180, R236): what cannot be
had faults the context, as any data read by a unit (R241). -/
def State.lookMaps (s : State) (x : Src) (v : LookV) : State × Bool :=
  let b := (s.ctx x.ctx).slot
  let c := (s.tdir x.st b).1
  let ks := ((lookOccs (s.bytesOf x.ctx v.blk 0 v.blk.rawLen) (v.outs.map fun o => (o.1, o.2.2))).map (·.key)).eraseDups
  let ts := v.outs.map fun o => ((s.tdir x.st b).2 + 64 * o.1.table, 64)
  let ms := ks.flatMap (s.keyReads x.st b)
  match s.memBad x.st c (ts ++ ms) false with
  | some m => (s.denied x m false, false)
  | none => ((s.jobReach x.st b ts 1).jobReach x.st b ms 0, true)

/-- EMB_LOOKUP (R94, R165, R166, R186). -/
def execEmbLookup (i : Iss) (features : Nat) (a b c : Opd) (s : State) : Res :=
  match s.begin i 0x38 [a] with
  | (t, none) => .next t
  | (t, some x) =>
    if features = 0 then .next (t.postOpt x i.post)
    else
      let v := t.lookViews x features a b c
      if t.lookupEarly x.ctx v.step then .next s
      else
        match t.lookCheck x features a b c v with
        | some r => .next (t.skipOpd i x [] (v.recv :: v.outs.map fun o => o.2.1) r)
        | none =>
          if t.guardedView x.ctx v.recv ∨ (v.outs.any fun o => t.guardedView x.ctx o.2.1) then .next (t.evalWrite x)
          else
            match t.embUnit x i.rd with
            | (t, false) => .next t
            | (t, true) =>
              let t := t.readLines x ((if a.isChair then [] else t.viewLines x.ctx v.blk) ++ t.viewLines x.ctx v.feat)
              match t.lookAccess x i b v with
              | (t, false) => .next t
              | (t, true) =>
                match t.lookMaps x v with
                | (t, false) => .next t
                | (t, true) =>
                  let lines := t.lookLines x.ctx v
                  let t := t.claimLines x lines
                  .next (t.runLookup i x (t.bytesOf x.ctx v.blk 0 v.blk.rawLen) v.recv
                    (v.outs.map fun o => (o.1, o.2.1)) (t.readersOf x.ctx [a]) lines)

-- Responses (R167, R177, R178, R188)

/-- The lookup of a context that waits for a key's row and meets a test: its flight, and the key's place. -/
def State.waitingIf (s : State) (st ctx : Nat) (k : Key) (p : KeyEnt → Bool) : Option (Flight × LookupF × Nat × KeyEnt) :=
  s.sq.flights.findSome? fun f =>
    match f.body with
    | .lookup l =>
      if f.st = st ∧ f.ctx = ctx then
        (l.keys.zipIdx.find? fun e => e.1.key == k && !e.1.got && p e.1).map fun e => (f, l, e.2, e.1)
      else none
    | _ => none
/-- The lookup of a context that waits for a key's row. -/
def State.waiting (s : State) (st ctx : Nat) (k : Key) : Option (Flight × LookupF × Nat × KeyEnt) :=
  s.waitingIf st ctx k fun _ => true
/-- The lookup that a redirect answers: one that has not been redirected yet, where there is one (R188). -/
def State.toRedirect (s : State) (st ctx : Nat) (k : Key) : Option (Flight × LookupF × Nat × KeyEnt) :=
  s.waitingIf st ctx k (fun e => !e.redirected) <|> s.waiting st ctx k

/-- ROW: a working record arrives (R166). -/
def execRow (st : Nat) (m : MsgHdr) (k : Key) (data : List Byte) (s : State) : Res :=
  if s.fenced m then .next (s.fence m)
  else
    match s.waiting st m.ctx k with
    | none => .next s
    | some (f, l, i, e) =>
      let w := s.gotRow f l i e (fitBytes e.wrec data) true
      .next (w.1.tryPool f w.2)

/-- A request fails: a zero row marked invalid, logged, the step tainted (R167). -/
def State.invalidRow (s : State) (f : Flight) (l : LookupF) (i : Nat) (e : KeyEnt) (peer : Nat) : State :=
  let w := s.gotRow f l i e (List.replicate e.wrec 0) false
  (w.1.embDrop f.src e.key peer l.pass 1).tryPool f w.2

/-- INVALID: the request is answered with an invalid row; reason 2 says that the complex's own SRAM failed, 6 that the master was
unusable, 7 that the epoch of an evaluation lookup was refused, 8 that the owner's page table could not be read (R167, R177 to R179,
R241). -/
def execInvalid (st : Nat) (m : MsgHdr) (k : Key) (reason : Nat) (s : State) : Res :=
  if s.fenced m then .next (s.fence m)
  else
    match s.waiting st m.ctx k with
    | none => .next s
    | some (f, l, i, e) =>
      if has [2, 6, 7, 8] reason then .next (s.fail f.ctx reason 7) else .next (s.invalidRow f l i e m.src)

/-- REDIRECT: the request goes once more, to the owner named, and the row's holders are learned (R188). -/
def execRedirect (st : Nat) (m : MsgHdr) (k : Key) (h : Holders) (s : State) : Res :=
  if s.fenced m then .next (s.fence m)
  else
    match s.toRedirect st m.ctx k with
    | none => .next s
    | some (f, l, i, e) =>
      if e.redirected then .next (s.invalidRow f l i e m.src)
      else
        let b := (s.ctx f.ctx).slot
        let e := { e with owner := h.owner, ownerStove := h.ownerStove, relayed := true, redirected := true }
        let o := 64 + 32 * i + 16
        let old := leNat (s.bytesLast f.ctx l.recv o 8)
        let s := s.asOf f.id fun s => (s.putBytes f.ctx l.recv o (leBytes 8 (2 ^ 15 * (old / 2 ^ 15) + h.owner + 2 ^ 12 * h.ownerStove + 2 ^ 14))).reachView
          f.ctx l.recv [(l.recv.addr + o, 8)]
        let s := if (s.ovFind st b k).isSome then s else s.ovInstall st b k (ovBytes k true true h [])
        let l := { l with keys := l.keys.set i e }
        let s := (s.bump st Reg.EMB_REDIRECTS 1).sendLookup st f.ctx l e false
        .next (s.putFlight { f with body := .lookup l })

-- Key stoves (R171, R173)

/-- Bytes of a key area in use: coverage, runs and fragments. -/
def State.keyUsed (s : State) (st b : Nat) : Nat :=
  ((s.em.covers.filter fun c => c.st == st && c.slot == b).map fun c =>
    Config.keyBytes 0 0 + c.runs.length * Config.keyBytes 1 0).sum +
  ((s.em.frags.filter fun f => f.st == st && f.slot == b).map fun f => Config.keyBytes 2 f.elems.length).sum
/-- The size of a key area. -/
def State.keySize (s : State) (st b : Nat) : Nat := 4096 * s.rdN st (Reg.EMB_JOB_b_KEY_SIZE + 32 * b)
/-- An entry does not fit in a key area (R173). -/
def State.keyFull (s : State) (st b ctx : Nat) (k : Key) (pass : Nat) : State :=
  ((s.embLog st 0x0A 0 b ctx k 0 pass).raise st 0x70 6).taint b

/-- Is one cover of the same pass as another? -/
def Cover.same (a b : Cover) : Bool := a.st == b.st && a.slot == b.slot && a.step == b.step && a.pass == b.pass
/-- RANK0 of a run: the runs of the same key in blocks with smaller FIRST_P (R171). -/
def rankOf (l : List Cover) (firstP : Nat) (k : Key) : Nat :=
  ((l.filter fun c => decide (c.firstP < firstP)).flatMap fun c => (c.runs.filter fun r => r.1 == k).map fun r => r.2.1).sum
/-- Writes the rank offsets of a block into its record and sets the key stove's bit of RANKS_READY (R171). -/
def State.putRanks (s : State) (l : List Cover) (c : Cover) : State :=
  let s := c.runs.foldl (fun s r =>
    let o := 64 + 32 * r.2.2 + 16
    let old := leNat (s.bytesLast c.ctx c.recv o 8)
    (s.putBytes c.ctx c.recv o (leBytes 8 (old % 65536 + 65536 * rankOf l c.firstP r.1))).reachView c.ctx c.recv [(c.recv.addr + o, 8)]) s
  let bits := leNat (s.bytesLast c.ctx c.recv 0x28 1)
  (s.putBytes c.ctx c.recv 0x28 [BitVec.ofNat 8 (bits ||| 2 ^ c.st)]).reachView c.ctx c.recv [(c.recv.addr + 0x28, 1)]

/-- BLOCK_COVERAGE: a key stove receives the next coverage sent to it; coverage that totals PASS_TOTAL yields the ranks (R171). -/
def execBlockCoverage (st : Nat) (s : State) : Res :=
  match s.em.covQueue.find? fun c => c.st == st with
  | none => .next s
  | some c =>
    let s := { s with em := { s.em with covQueue := s.em.covQueue.erase c } }
    if s.keyUsed st c.slot + Config.keyBytes 0 0 + c.runs.length * Config.keyBytes 1 0 > s.keySize st c.slot then
      .next (s.keyFull st c.slot c.ctx noKey c.pass)
    else
      let all := s.em.covers ++ [c]
      let mine := all.filter fun d => d.same c
      if (mine.map (·.count)).sum = c.total then
        let s := (mine.filter fun d => !d.ranked).foldl (fun s d => s.putRanks mine d) s
        .next { s with em := { s.em with covers := all.map fun d => if d.same c then { d with ranked := true } else d } }
      else .next { s with em := { s.em with covers := all } }

/-- Combine number and index of a stage-1 combine (R42, R171). -/
def mergeRnd (d : Draw) (src pass table site : Nat) (i : Nat) (n : Nat) (x : ℚ) : Rd :=
  roundN16 x (d.u (0xF10000 + table) (fold40 (i + 2 ^ 52 * src) (2 ^ 26 * pass + n)) site)

/-- Node (x, l) of a run: the pairwise sum of its elements (R171). -/
def nodeSum (rnd : Nat → ℚ → Rd) (val : Nat → ℚ) : Nat → Nat → ℚ × Ev
  | 0, x => (val x, (0, 0))
  | l + 1, x =>
    let a := nodeSum rnd val l x
    let b := nodeSum rnd val l (x + 2 ^ l)
    let r := rnd (ncount (x + 2 ^ (l + 1) - 1) + l) (a.1 + b.1)
    (r.val, evAdd (a.2.1 + b.2.1, a.2.2 + b.2.2) r)

/-- The largest level of an aligned node that starts at x and ends by `e`, at most 23. -/
def nodeLevel (x e : Nat) : Nat :=
  ((List.range 24).reverse.find? fun l => x % 2 ^ l == 0 && decide (x + 2 ^ l ≤ e)).getD 0
/-- The nodes of the ordinals [x, e) (R171). -/
def nodesOf : Nat → Nat → Nat → List (Nat × Nat)
  | 0, _, _ => []
  | n + 1, x, e => if x < e then (x, nodeLevel x e) :: nodesOf n (x + 2 ^ nodeLevel x e) e else []

/-- The occurrence rows of a record: for each kept occurrence its feature and its row, rounded to N16, and the range events (R170). -/
def State.occRow (s : State) (ctx : Nat) (fs : List (Feat × View)) (occs : List (Nat × Nat × W16)) (o : Nat × Nat × W16)
    (firstSample width : Nat) : List Rd :=
  let f := (fs.getD o.2.1 (⟨0, 0, 0, 0⟩, {})).1
  let v := (fs.getD o.2.1 (⟨0, 0, 0, 0⟩, {})).2
  let n := (occs.filter fun p => p.1 == o.1 && p.2.1 == o.2.1).length
  let k : ℚ := match f.pool with
    | 0 => 1
    | 1 => 1 / (n : ℚ)
    | _ => decN16 o.2.2
  (List.range width).map fun c => roundN16 (s.valAt ctx v (o.1 - firstSample) c * k) none

/-- EMB_GRAD's fields as the record holds them. -/
structure RecF where
  pass : Nat
  refused : Bool
  n : Nat
  u : Nat
  firstSample : Nat
  samples : Nat
  dropped : Nat
deriving DecidableEq, Repr
/-- Reads a record's header. -/
def State.recOf (s : State) (c : Nat) (r : View) : RecF :=
  let h := s.bytesOf c r 0 64
  ⟨leAt h 8 1, bitOf (leAt h 9 1) 1, leAt h 0x10 4 % 2 ^ 27, leAt h 0x14 4 % 2 ^ 27, leAt h 0x18 2, leAt h 0x1C 4 % 2 ^ 17,
    leAt h 0x2C 4 % 2 ^ 27⟩

/-- The operands of EMB_GRAD, resolved: the record with its header's fields, the feature table, and for each feature its gradient
view and its table. -/
structure GradV where
  recv : View
  head : RecF
  feat : View
  hasFeat : Bool
  ins : List (Feat × View × TDesc)
deriving DecidableEq, Repr

/-- Resolves the operands of EMB_GRAD (R165, R169). -/
def State.gradViews (s : State) (x : Src) (features : Nat) (a c : Opd) : GradV :=
  let r := recRegion (s.view x.st x.sq x.ctx a 0 0)
  let fa := s.rawAddr x c
  { recv := r, head := s.recOf x.ctx r, feat := rawView .spd (fa.getD 0) (16 * features), hasFeat := fa.isSome
    ins := (s.feats x.ctx (fa.getD 0) (min features 256)).map fun f =>
      (f, s.poolView x.st x.sq f.dpool, s.tdesc x.st (s.ctx x.ctx).slot f.table) }

/-- The run-time check that EMB_GRAD fails, and the offending value (R94, R100, R165, R170). COUNT of the block is what the record keeps
and what it dropped. -/
def State.gradCheck (s : State) (x : Src) (features : Nat) (a c : Opd) (v : GradV) : Option (Nat × Nat) :=
  let fits := decide (v.feat.addr + 16 * features ≤ s.window x.ctx)
  let count := v.head.n + v.head.dropped
  let ins := v.ins.map fun o => (Opd.none, o.2.1)
  let desc := badAddr ((a, v.recv) :: ins) fun o => s.descFails x.st x.sq x.ctx o.1 o.2 false
  let extent := badAddr ((a, v.recv) :: (if fits then [(c, v.feat)] else []) ++ ins) fun o => s.extentFails x.ctx o.1 o.2
  let bad := s.featBad x Feat.dpool v.head.samples v.ins
  if desc.isSome then some (3, desc.getD 0)
  else if extent.isSome then some (1, extent.getD 0)
  else if features > 256 ∨ !fits then some (2, features)
  else if v.recv.rawLen < 64 + 40 * count then some (2, count)
  else if bad.isSome then some (2, bad.getD 0)
  else if !v.hasFeat ∨ c.isChair then some (4, v.feat.addr)
  else if !a.desc ∨ v.recv.place = .rb then some (4, v.recv.addr)
  else (badAddr ins fun o => o.2.place == .rb).map fun n => (4, n)
/-- The occurrences that a record keeps: sample, feature, weight (R169). -/
def State.recOccs (s : State) (c : Nat) (r : View) (h : RecF) : List (Nat × Nat × W16) :=
  (List.range h.n).map fun j =>
    let w := leNat (s.bytesOf c r (64 + 32 * h.u + 8 * j) 8)
    (w % 65536, w / 2 ^ 16 % 256, BitVec.ofNat 16 (w / 2 ^ 24 % 65536))
/-- The elements that a gradient pass takes: of each kept occurrence its feature's row, in its table's columns (R23, R170). -/
def State.gradCells (s : State) (c : Nat) (v : GradV) : List (View × List (Nat × Nat)) :=
  let occs := s.recOccs c v.recv v.head
  v.ins.zipIdx.map fun o =>
    (o.1.2.1, if o.1.2.2.valid then
        ((occs.filter fun e => e.2.1 == o.2).map (·.1)).eraseDups.flatMap fun m =>
          (List.range o.1.2.2.width).map fun k => (m - v.head.firstSample, k)
      else [])

/-- EMB_GRAD (R94, R170): it waits in its unit for its ranks. -/
def execEmbGrad (i : Iss) (features : Nat) (a c : Opd) (s : State) : Res :=
  match s.begin i 0x39 [] with
  | (s, none) => .next s
  | (s, some x) =>
    if features = 0 then .next (s.postOpt x i.post)
    else
      let v := s.gradViews x features a c
      match s.gradCheck x features a c v with
      | some r => .next (s.skipOpd i x (v.recv :: v.ins.map fun o => o.2.1) [] r)
      | none =>
        match (v.recv :: v.ins.map fun o => o.2.1).find? (s.mergeView x.ctx) with
        | some w => .next (s.rbSkip i x w.refused.1 w.refused.2)
        | none =>
        match s.embUnit x i.rd with
        | (s, false) => .next s
        | (s, true) =>
          let s := s.readLines x (s.viewLines x.ctx v.recv ++ s.viewLines x.ctx v.feat ++
            v.ins.flatMap fun o => s.viewLines x.ctx o.2.1)
          match s.access x i ([v.recv, v.feat] ++ v.ins.map fun o => o.2.1) [] 1 (descs := [a]) with
          | (s, false) => .next s
          | (s, true) =>
            let s := if v.head.refused then s else s.tallyT2 x.ctx (s.gradCells x.ctx v)
            .next (s.launch i x [] [] (if v.head.refused then .plain else .grad ⟨v.recv, v.ins.map fun o => (o.1, o.2.1)⟩))

/-- The key stove that was chosen for a key at resolve (R185): the one that holds the block's run. -/
def State.keyStoveOf (s : State) (b pass ctx : Nat) (r : View) (k : Key) : Option Nat :=
  (s.em.covers.find? fun c =>
    c.slot == b && c.pass == pass && c.ctx == ctx && c.recv == r && c.runs.any fun e => e.1 == k).map (·.st)

/-- The fragments of a key's run in a record (R170, R171), and the range events. -/
def State.keyFrags (s : State) (f : Flight) (r : View) (h : RecF) (fs : List (Feat × View)) (occs : List (Nat × Nat × W16)) (j : Nat) :
    List Frag × Ev :=
  let b := (s.ctx f.ctx).slot
  let e := s.bytesOf f.ctx r (64 + 32 * j) 32
  let k : Key := ⟨leAt e 5 2 % 4096, leAt e 0 5⟩
  let w1 := leAt e 8 8
  let w2 := leAt e 16 8
  let start := w1 % 2 ^ 27
  let len := w1 / 2 ^ 27 % 2 ^ 27
  let rank := bits w2 42 16
  let t := s.tdesc f.st b k.table
  let src := s.fb.lid.getD 0
  let d := s.draw f.ctx
  let rows := ((occs.drop start).take len).map fun o => s.occRow f.ctx fs occs o h.firstSample t.width
  let ev0 := rows.foldl (fun (v : Ev) q => q.foldl evAdd v) (0, 0)
  match s.keyStoveOf b h.pass f.ctx r k with
  | none => ([], ev0)
  | some ks =>
    (nodesOf 128 rank (rank + len)).foldl (fun (w : List Frag × Ev) x =>
      let cols := (List.range t.width).map fun c =>
        nodeSum (mergeRnd d src h.pass k.table 0x20 (1024 * k.row + c))
          (fun o => (nth ⟨0, false, false⟩ (nth [] rows (o - rank)) c).val) x.2 x.1
      (w.1 ++ [{ st := ks, slot := b, pass := h.pass, key := k, x := x.1, level := x.2, owner := bits w2 11 0,
                 ownerStove := bits w2 13 12, elems := cols.map fun v => encN16 v.1, fid := f.id }],
        cols.foldl (fun (v : Ev) q => (v.1 + q.2.1, v.2 + q.2.2)) w.2)) ([], ev0)

/-- EMB_GRAD_FRAGMENTS: with RANKS_READY 0xF the fragments of every run go to the key stoves (R171). -/
def execEmbGradFragments (id : Nat) (s : State) : Res :=
  match s.flight id with
  | none => .next s
  | some f =>
    match f.body with
    | .grad g =>
      let h := s.recOf f.ctx g.recv
      if leNat (s.bytesOf f.ctx g.recv 0x28 1) % 16 ≠ 15 then .next s
      else
        let occs := s.recOccs f.ctx g.recv h
        let w := (List.range h.u).foldl (fun (w : List Frag × Ev) j =>
          let y := s.keyFrags f g.recv h g.ins occs j
          (w.1 ++ y.1, (w.2.1 + y.2.1, w.2.2 + y.2.2))) ([], (0, 0))
        let s := s.tallyCtx f.ctx .n16 .grad ⟨w.2.1, w.2.2, 0⟩
        let s := { s with em := { s.em with fragQueue := s.em.fragQueue ++ w.1 } }
        .next (s.putFlight { f with body := .plain })
    | _ => .next s

/-- The fragments of a key in position order. -/
def sortFrags (l : List Frag) : List Frag := l.mergeSort fun a b => decide (a.x ≤ b.x)

/-- The stage-1 partial of a key from fragments that cover its whole run (R171): its elements and the range events. -/
def assemble (d : Draw) (src pass : Nat) (k : Key) (l : List Frag) (width : Nat) : List W16 × Ev :=
  let cols := (List.range width).map fun c =>
    let rnd := mergeRnd d src pass k.table 0x20 (1024 * k.row + c)
    let st := l.foldl (fun (t : Strm) f =>
      strmPush rnd { t with n := ncount (f.x + 2 ^ f.level - 1) + f.level } (decN16 (nth 0 f.elems c)) f.level) {}
    strmFinish rnd 60 st
  (cols.map fun v => encN16 (v.1.getD 0), cols.foldl (fun (e : Ev) v => (e.1 + v.2.1, e.2 + v.2.2)) (0, 0))

/-- The partials of a step that a slot's holders have not acknowledged (R173). -/
def partKey (b step : Nat) : Nat := 8 * step + b
/-- Adds to the unacknowledged partials of a step. -/
def State.setPartOut (s : State) (b step n : Nat) : State :=
  { s with em := { s.em with partOut := tabSet (fun _ => 0) s.em.partOut (partKey b step) n } }
/-- The unacknowledged partials of a step. -/
def State.partsOut (s : State) (b step : Nat) : Nat := tabGet (fun _ => 0) s.em.partOut (partKey b step)
/-- Bytes of a merge record (R172). -/
def MRec.size (m : MRec) : Nat := alignUp (32 + 2 * m.elems.length) 32
/-- A merge record as it lies in the merge area (R172). -/
def MRec.bytes (m : MRec) : List Byte :=
  fitBytes m.size (leBytes 8 (m.key.row + 2 ^ 40 * m.key.table) ++ leBytes 8 (m.source + 2 ^ 12 * m.pass + 2 ^ 20 * m.occ) ++
    leBytes 8 m.gen ++ leBytes 8 0 ++ m.elems.flatMap fun e => leBytes 2 e.toNat)
/-- Sends a key's partial to its holders (R172, R185). Where the map cannot be read the partial has no way, and the step is tainted
(R241). -/
def State.sendPartial (s : State) (st b : Nat) (k : Key) (pass occ : Nat) (elems : List W16) : State :=
  let y := s.ownReads st b (s.keyReads st b k) 0
  let s := y.1
  if y.2.isSome then s.taint b
  else
  let hs := ((s.resolveKey st b k true).map fun h => holderList h.1).getD []
  let data := MRec.bytes ⟨st, b, k, s.fb.lid.getD 0, pass, occ, elems, (s.rb b).gen, 0⟩
  let s := hs.foldl (fun s h => s.send (some b) 0x02 h.1 [h.2] data) s
  s.setPartOut b (s.job b).step (s.partsOut b (s.job b).step + hs.length)

/-- FRAGMENT: a key stove accepts the next fragment sent to it; fragments that cover the key's run make its partial (R171). -/
def execFragment (st : Nat) (s : State) : Res :=
  match s.em.fragQueue.find? fun f => f.st == st with
  | none => .next s
  | some f =>
    let s := { s with em := { s.em with fragQueue := s.em.fragQueue.erase f } }
    let b := f.slot
    if s.keyUsed st b + Config.keyBytes 2 f.elems.length > s.keySize st b then .next (s.keyFull st b 0 f.key f.pass)
    else
      let all := s.em.frags ++ [f]
      let isMine := fun (g : Frag) => g.st == st && g.slot == b && g.pass == f.pass && g.key == f.key
      let mine := sortFrags (all.filter isMine)
      let len := ((s.em.covers.filter fun c => c.st == st && c.slot == b && c.pass == f.pass && c.ranked).flatMap fun c =>
        (c.runs.filter fun r => r.1 == f.key).map fun r => r.2.1).sum
      if (mine.map fun g => (2 : Nat) ^ g.level).sum = len then
        let w := assemble (s.jobDraw b) (s.fb.lid.getD 0) f.pass f.key mine f.elems.length
        let covers := s.em.covers.map fun c =>
          if c.st = st ∧ c.slot = b ∧ c.pass = f.pass ∧ c.ranked then { c with runs := c.runs.filter fun r => r.1 != f.key } else c
        let s := { s with em := { s.em with frags := all.filter fun g => !isMine g, covers := covers } }
        .next ((s.tally st b .n16 .grad ⟨w.2.1, w.2.2, 0⟩).sendPartial st b f.key f.pass len w.1)
      else .next { s with em := { s.em with frags := all } }

/-- The bytes of a slot's merge ways on a stove (R150). -/
def State.mergeWayBytes (s : State) (st b : Nat) : Nat := 128 * (65536 * (s.wayList st 3 b).length)
/-- The size of a slot's merge area on a stove: its merge ways and its HBM region (R150, R172). -/
def State.mergeSize (s : State) (st b : Nat) : Nat :=
  s.mergeWayBytes st b + 4096 * s.rdN st (Reg.EMB_JOB_b_MRG_SIZE + 32 * b)
/-- Appends a record: what of it lies beyond the merge ways goes to the HBM merge region. -/
def State.mergePut (s : State) (r : MRec) : State :=
  let k := s.mergeWayBytes r.st r.slot
  let base := s.rdN r.st (Reg.EMB_JOB_b_MRG_LO + 32 * r.slot) + 2 ^ 32 * fld (s.rd r.st (Reg.EMB_JOB_b_MRG_HI + 32 * r.slot)) 15 0
  let d := r.bytes.drop (k - r.off)
  let s : State := { s with em := { s.em with merge := s.em.merge ++ [r] } }
  if d.isEmpty then s else s.ownWrite r.st r.slot (base + (r.off - k)) d
/-- An error in a merge line of a slot (R143, R241): corrected, or the job's step is tainted. -/
def State.mergeErr (s : State) (st b off : Nat) (ecc : Ecc) : State :=
  let y := s.anySyndrome
  match ecc with
  | .ce | .hearthCe => ((s.bump st Reg.HTH_CE_TOTAL 1).countC st 0x60 1 |>.hthLog st 1 0 b 0 0 (off / 128) 0 y 3).raise st 0x60 0
  | .ue | .hearthUe =>
    (((s.bump st Reg.HTH_UE_TOTAL 1).countU st 0x60 1 |>.hthLog st 4 0 b 0 0 (off / 128) 0 y 3).raise st 0x60 3).taint b
  | _ => s

/-- PARTIAL: a stage-1 partial reaches an owner or a mirror (R143, R172, R183, R196). `p.ecc` is what the line it is appended to meets. -/
def execPartialI (st : Nat) (m : MsgHdr) (p : Met Partial) (s : State) : Res :=
  if s.fenced m then .next (s.fence m)
  else
    match s.slotOf m.jtag with
    | none => .next s
    | some b =>
      let used := ((s.em.merge.filter fun x => x.st == st && x.slot == b).map MRec.size).sum
      let r : MRec := ⟨st, b, p.val.key, p.val.source, p.val.pass, p.val.occ, p.val.elems, (s.rb b).gen, used⟩
      let ack := fun (s : State) => s.send (some b) 0x13 m.src [keyArg p.val.key 0] [] m.ctx (some m.step)
      if used + r.size > s.mergeSize st b then
        .next (ack (((((s.embLog st 8 0 b 0 p.val.key p.val.source p.val.pass).raise st 0x70 5).bump st Reg.EMB_MERGE_DISCARD 1).taint b)))
      else
        let own := match s.heldAt st b p.val.key with
          | some h => h.2.2
          | none => false
        let s := (s.mergeErr st b used p.ecc).mergePut r
        .next (ack (if own then s.loadAdd st b p.val.key true else s))

end Sys2Proof.Machine
end

