-- ==== Sys2Proof/Machine/Stoker.lean ====
section
/-! DEFINITION. The stoker: its commands, re-binding, stops, power states, thermal throttling (R233, R244 to R250, R253 to R260,
R275). -/

namespace Sys2Proof.Machine

-- Answers to commands (R258, R259)

/-- A command completes: DONE. -/
def State.stkDone (s : State) (st c : Nat) : State :=
  (s.wr st Reg.STK_CMD_STATUS (pack [(2, 0), (c, 16)])).raise st 0xB0 0
/-- Is a command in progress? -/
def State.stkBusy (s : State) (st : Nat) : Bool := bitOf (s.rdN st Reg.STK_CMD_STATUS) 0
/-- A command is in progress: BUSY. -/
def State.stkWait (s : State) (st c : Nat) : State := s.wr st Reg.STK_CMD_STATUS (pack [(1, 0), (c, 16)])
/-- A command is refused for a reason. -/
def State.stkRefuse (s : State) (st reason op c : Nat) : State :=
  let s := s.wr st Reg.STK_CMD_STATUS (pack [(b2n (s.stkBusy st), 0), (4, 0), (reason, 8), (c, 16)])
  (s.stkLog st 1 reason op c 0).raise st 0xB0 1
/-- A write of STK_CMD_GO with the command read from its record: the checks of every command, then its own. It answers a
reason, or the state it leaves; one that takes time has set BUSY. -/
def State.stkCmd (s : State) (ag : Agent) (st op : Nat) (r : StkRec) (f : State → Nat ⊕ State) : Res :=
  match s.regGuard ag st 0xB0 1 (Reg.STK_CMD_GO % 4096) with
  | (s, false) => .next s
  | (s, true) =>
    if s.stkBusy st then .next (s.stkRefuse st 1 op r.ctx)
    else if r.junk then .next (s.stkRefuse st 2 op r.ctx)
    else if stoveOf r.ctx ≠ st then .next (s.stkRefuse st 3 op r.ctx)
    else
      match f s with
      | .inl n => .next (s.stkRefuse st n op r.ctx)
      | .inr t => .next (if t.stkBusy st then t else t.stkDone st r.ctx)

-- CREATE, DESTROY, HINT

/-- CREATE (R245, R258). A disabled stoker stays idle: it takes no context (R339; the reason is DESIGN CHOICE, log 102). -/
def execCreate (ag : Agent) (st : Nat) (r : StkRec) (s : State) : Res :=
  s.stkCmd ag st 0x01 r fun s =>
    if (s.ctx r.ctx).valid ∨ !s.blockOn st 0xB0 then .inl 3
    else if r.kind > 2 then .inl 2
    else if r.aspace ≠ r.ctx ∧ !((s.ctx r.aspace).valid && (s.ctx r.aspace).aspace == r.aspace) then .inl 8
    else
      let s := s.setCtx r.ctx { valid := true, kind := r.kind, slot := r.slot, prio := r.prio, aspace := r.aspace, age := s.cx.nextAge }
      .inr { s with cx := { s.cx with nextAge := s.cx.nextAge + 1 } }

/-- Frees an address space with its pages, tables, moves and translation entries (R258). -/
def State.freeSpace (s : State) (o : Nat) : State :=
  { s with
    ca := { s.ca with tlb := s.ca.tlb.filter fun e => e.space != o, tops := s.ca.tops.filter fun k => k.2 / 512 != o }
    tr := { s.tr with
      ptes := s.tr.ptes.filter fun p => p.1 / 2 ^ 27 != o
      tables := s.tr.tables.filter fun t => t.1 / 512 != o && t.1 != topKey o
      moves := s.tr.moves.filter fun m => m.page / 2 ^ 27 != o
      waiting := s.tr.waiting.filter fun w => w.page / 2 ^ 27 != o
      broken := s.tr.broken.filter (· != o) } }
/-- DESTROY (R258, R259). -/
def execDestroy (ag : Agent) (st : Nat) (r : StkRec) (s : State) : Res :=
  s.stkCmd ag st 0x07 r fun s =>
    let x := s.ctx r.ctx
    if !x.valid ∨ x.state ≠ 0 ∨ x.isBound then .inl 3
    else if x.aspace = r.ctx ∧ (s.cx.ctxs.any fun p => p.1 != r.ctx && p.2.valid && p.2.aspace == r.ctx) then .inl 8
    else .inr ((if x.aspace = r.ctx then s.freeSpace r.ctx else s).setCtx r.ctx {})

/-- HINT (R253). -/
def execHint (ag : Agent) (st : Nat) (r : StkRec) (s : State) : Res :=
  s.stkCmd ag st 0x0A r fun s =>
    let x := s.ctx r.ctx
    if !x.valid then .inl 3
    else if r.chair then .inr (s.setCtx r.ctx { x with chairHint := r.hintUs })
    else .inr (s.setCtx r.ctx { x with semHint := tabSet (fun _ => 0) x.semHint r.sem r.hintUs })

-- LEASE and re-binding (R247 to R250)

/-- The lease that a record names. -/
def leaseOf (r : StkRec) : Lease :=
  { groups := r.groups, granules := r.granules, seqs := r.seqs, weightWays := r.weightWays, atomicWays := r.atomicWays,
    redWays := r.redWays, mergeWays := r.mergeWays, hbmQuota := r.hbmQuota, coldQuota := r.coldQuota, fabShare := r.fabShare,
    lend := r.lend, lendSem := r.lendSem }
/-- Are the items of a lease within their ranges (R247)? -/
def Lease.inRange (l : Lease) : Bool :=
  decide (l.groups ≤ 12 ∧ l.granules ≤ 384 ∧ l.seqs ≤ 64 ∧ l.weightWays ≤ 15 ∧ l.atomicWays ≤ 15 ∧ l.redWays ≤ 16 ∧
    l.mergeWays ≤ 16)
/-- Is a lease within the stove's resources in service (R247, R259)? -/
def State.leaseFits (s : State) (st : Nat) (l : Lease) : Bool :=
  decide (4 * l.groups ≤ s.arraysIn st ∧ l.granules ≤ s.granulesIn st ∧
    l.weightWays + l.atomicWays + l.redWays + l.mergeWays ≤ 16)
/-- The sum of an item over the leases of every context but one. -/
def State.sumLeases (s : State) (c : Nat) (f : Lease → Nat) : Nat :=
  (s.cx.ctxs.map fun p => if p.2.valid ∧ p.1 ≠ c then f p.2.lease else 0).sum
/-- Are the quotas of a lease refused (R233, R259)? -/
def State.quotaFails (s : State) (c : Nat) (l : Lease) : Bool :=
  decide (s.sumLeases c Lease.hbmQuota + l.hbmQuota > ((List.range 4).map fun st => (s.hbmFrames st).count).sum ∨
    s.sumLeases c Lease.coldQuota + l.coldQuota > s.coldFrames.count ∨ l.coldQuota < s.coldUse c ∨ l.hbmQuota < s.pinnedUse c)
/-- Are the items that a bound context would gain free, those in place of retire-pending granules among them (R106, R248)? -/
def State.canRebind (s : State) (c : Nat) (l : Lease) : Bool :=
  let st := stoveOf c
  let x := s.ctx c
  decide (4 * l.groups - x.arrays.length ≤ (s.freeArrays st).length ∧ l.groups - x.engines.length ≤ (s.freeEngines st).length ∧
    l.granules - (x.granules.filter fun g => !has s.sp.granPend (384 * st + g)).length ≤ (s.freeGranules st).length ∧
    l.seqs - x.seqs.length ≤ (s.freeSeqs st).length ∧
    l.weightWays + l.atomicWays + s.slotWays c l ≤ (s.generalWays st).length + (s.wayList st 1 c).length +
      (s.wayList st 5 c).length + (if x.isJob ∧ (s.slotBound st x.slot c).isEmpty then
        (s.wayList st 2 x.slot).length + (s.wayList st 3 x.slot).length else 0))

/-- LEASE (R249, R258, R259): recorded on an idle or runnable context; a running or stopped one is held and re-bound. One that would gain
what is not free is refused with reason 4, so that a re-binding that begins completes (R250): DESIGN CHOICE (log 91). The reduction
ways that are to move show it until then (R149). -/
def execLease (ag : Agent) (st : Nat) (r : StkRec) (s : State) : Res :=
  s.stkCmd ag st 0x02 r fun s =>
    let c := r.ctx
    let x := s.ctx c
    let l := leaseOf r
    if !l.inRange then .inl 2
    else if !x.valid ∨ x.state = 4 then .inl 3
    else if !s.leaseFits st l then .inl 4
    else if s.quotaFails c l then .inl 5
    else if !s.waysAgree c l then .inl 7
    else if s.sumLeases c Lease.fabShare + l.fabShare > 256 then .inl 11
    else if !x.isBound then .inr (s.setCtx c { x with lease := l })
    else if !s.canRebind c l then .inl 4
    else
      let s := { s with ht := { s.ht with moving := s.ht.moving ++ s.movingWays c l } }
      .inr ((s.setCtx c { x with lease := l, rebind := true, holds := x.holds ++ [.rebind] }).stkWait st c)

/-- Copies a granule's bytes, tags and uncorrectable words, as they were in state `t`, to another granule of the stove (R249). -/
def State.copyGranule (s t : State) (st a b : Nat) : State :=
  let base := spdBase + 0x40000000 * st
  let src := base + 2 ^ 20 * a
  let dst := base + 2 ^ 20 * b
  let inside := fun (g x : Nat) => decide (g ≤ x ∧ x < g + 2 ^ 20)
  let s :=
    if s.sp.seed = 0 then
      let clean := s.mem.filter fun e => !inside dst e.1
      let here := t.mem.filter fun e => inside src e.1
      { s with mem := here.foldl (fun m e => tabSet (memDef s.seeds) m (e.1 - src + dst) e.2) clean }
    else s.mwrN dst (t.mrdN src (2 ^ 20))
  let tk := fun (g : Nat) (k : Nat) => decide (k / 2 ^ 22 = st ∧ k % 2 ^ 22 / 4096 = g)
  let tags := (t.sp.tags.filter fun e => tk a e.1).foldl (fun m e => tabPut m (e.1 + 4096 * b - 4096 * a) e.2)
    (s.sp.tags.filter fun e => !tk b e.1)
  { s with
    sp := { s.sp with tags := tags }
    tr := { s.tr with bad := (s.tr.bad.filter fun x => !inside dst x) ++
      (t.tr.bad.filter fun x => inside src x).map fun x => x - src + dst } }
/-- Moves granules, all at once: each new one takes what its old one held before any was written (R249). -/
def State.copyGranules (s : State) (st : Nat) (gs : List (Nat × Nat)) : State :=
  gs.foldl (fun t p => t.copyGranule s st p.1 p.2) s
/-- The lines that instructions in flight hold, and the bytes they are still to write, follow the granules that have moved (R249). -/
def State.moveFlights (s : State) (c : Nat) (gs : List (Nat × Nat)) : State :=
  let base := spdBase + 0x40000000 * stoveOf c
  let to_ := fun (unit x : Nat) =>
    match gs.find? fun g => g.1 == x / unit with
    | some g => unit * g.2 + x % unit
    | none => x
  { s with sq := { s.sq with flights := s.sq.flights.map fun f =>
      if f.ctx = c then { f with
        lines := f.lines.map (to_ 4096)
        writes := f.writes.map fun w => (base + to_ (2 ^ 20) (w.1 - base), w.2) }
      else f } }
/-- Items of a list, the bad ones replaced from a supply in order while it lasts. -/
def swapOut (bad : Nat → Bool) : List Nat → List Nat → List Nat
  | l, [] => l
  | [], _ => []
  | a :: l, b :: sup => if bad a then b :: swapOut bad l sup else a :: swapOut bad l (b :: sup)
/-- The items of a lease after a change: those kept, in order, the bad ones being given up first, and exchanged for good free ones where
there are any (R65, R106, R248). -/
def rebindList (bad : Nat → Bool) (n : Nat) (cur free : List Nat) : List Nat :=
  let best := ((cur.filter fun a => !bad a) ++ cur.filter bad).take n
  let keep := cur.filter fun a => has best a
  let good := free.filter fun a => !bad a
  let spare := good.drop (n - keep.length)
  let kept := swapOut bad keep spare
  kept ++ (free.filter fun a => !has kept a).take (n - keep.length)

/-- A lift that no longer fits the window is disabled (R115, R249). -/
def State.dropLifts (s : State) (c : Nat) : State :=
  let st := stoveOf c
  (List.range 128).foldl (fun s k =>
    let l := s.liftCfg st k
    if l.enable ∧ l.ctx = c ∧ l.base + l.chairs * l.size > s.window c then
      ((s.wr st (liftReg k Reg.SPD_LIFT_k_CFG) (s.rd st (liftReg k Reg.SPD_LIFT_k_CFG) &&& 0xFFFFFFFE)).spdLog st 5 c k 0 0 0).raise
        st 0x30 4
    else s) s

/-- A sequencer leaves a context: it is idle, and the half it ran may drain (R71). -/
def State.freeSeq (s : State) (st n : Nat) : State :=
  let q := s.seq st n
  let s := s.setSeq st n { q with
    state := 0, ctx := none, evalInvalid := false, waitKind := 0, waitNum := 0, loops := [], atEnd := false, switchTo := none,
    resumable := false }
  if q.ctx.isSome then (s.switchSlot st q.slot).drainHalf st q.slot q.half else s
/-- Pending arrays and granules that no lease holds any more are withdrawn (R65, R106). -/
def State.withdraw (s : State) (st : Nat) (arrays granules : List Nat) : State :=
  let s := arrays.foldl (fun s a => if (s.arr st a).pending ∧ (s.leasedBy st a).isNone then s.retireArr st a else s) s
  granules.foldl (fun s g =>
    let k := 384 * st + g
    if has s.sp.granPend k ∧ !s.granHeld k then s.retireGran k else s) s

/-- May a re-binding end: no chair of the context FILLING or RELEASING, no VOP under way, every unit at a beat boundary? -/
def State.settled (s : State) (c : Nat) : Bool :=
  let st := stoveOf c
  s.unitsStill c && s.ar.failed.all (fun b => (s.flight b.run.fid).all fun f => f.ctx != c) &&
    (List.range 128).all (fun k =>
      let l := s.liftCfg st k
      !(l.enable && l.ctx == c) || (s.lift st k).chairs.all fun w => w != 1 && w != 3) &&
    s.sq.flights.all fun f => f.ctx != c ||
      match f.body with
      | .vec _ => false
      | _ => true

/-- Replaces the resources of a bound context by those of its recorded lease (R249, stages 4 to 9). What a lender has lent follows its
groups; a borrower keeps what it borrows (DESIGN CHOICE, log 54). -/
def State.rebindNow (s : State) (c : Nat) : State :=
  let st := stoveOf c
  let x := s.ctx c
  let l := x.lease
  let ars := if x.borrowing.isSome then x.arrays
    else rebindList (fun a => (s.arr st a).pending) (4 * l.groups) x.arrays (s.freeArrays st)
  let eng := if x.borrowing.isSome then x.engines
    else rebindList (fun _ => false) l.groups x.engines (s.freeEngines st)
  let grs := rebindList (fun g => has s.sp.granPend (384 * st + g)) l.granules x.granules (s.freeGranules st)
  let sqs := rebindList (fun _ => false) l.seqs x.seqs (s.freeSeqs st)
  let moved := (x.granules.zip grs).filter fun p => p.1 != p.2
  let s := (s.copyGranules st moved).moveFlights c moved
  let s := s.readyGranules st (grs.drop x.granules.length)
  let s := (x.seqs.drop l.seqs).foldl (fun s n => s.freeSeq st n) s
  let s := s.setCtx c { x with
    bound := l, arrays := ars, engines := eng, granules := grs, seqs := sqs, rebind := false,
    holds := x.holds.filter (· != .rebind) }
  let s := match x.lentTo with
    | some d => s.modCtx d fun y => { y with arrays := ars, engines := eng }
    | none => s
  let s := (s.withdraw st x.arrays x.granules).leaseWays c l |>.applyEmber st
  let s := { s with ht := { s.ht with moving := s.ht.moving.filter fun w => w / 16 != st } }
  let s := s.dropTlb fun e => e.space == x.aspace
  (s.dropLifts c).schedule c

/-- What the copy of the granules of a re-binding meets: a corrected word is counted and logged; an uncorrectable one goes on being so in
the granule it is copied to, and its consumer meets it there (R105, R106, R249). Which word, nothing tells. -/
def State.rebindMeets (s : State) (c : Nat) (e : Ecc) : State :=
  let gs := (s.ctx c).granules
  let g := gs.getD (s.anyBelow gs.length) 0
  let w := 2 ^ 20 * g + 8 * s.nextFree.anyBelow (2 ^ 17)
  let st := stoveOf c
  if gs.isEmpty then s
  else
    match e with
    | .ce => s.nextFree.nextFree.spdCe st c w s.anySyndrome 1
    | .ue => s.nextFree.nextFree.markBad (spdBase + 0x40000000 * st + w)
    | _ => s
/-- REBIND_COMPLETE (R249, R250): the stages end and all resume together; the time taken, in µs, is recorded. -/
def execRebindComplete (ctx : Nat) (met : Met Nat) (s : State) : Res :=
  let st := stoveOf ctx
  let us := met.val
  if !(s.ctx ctx).rebind ∨ !s.settled ctx then .next s
  else
    let s := (s.rebindMeets ctx met.ecc).rebindNow ctx
    let s := (s.wr st Reg.STK_REBIND_LAST (w32 us)).wr st Reg.STK_REBIND_MAX (w32 (max us (s.rdN st Reg.STK_REBIND_MAX)))
    let s := if us > 1500 then (s.stkLog st 5 0 0 ctx us).raise st 0xB0 3 else s
    .next (s.stkDone st ctx)

-- START, STOP, RESUME, RELEASE (R246, R258)

/-- Why a sequencer cannot start at an entry of a slot (R90, R259, R270): 6 for its owner, image or window, 2 for its entry. -/
def State.startReason (s : State) (st c k e granules : Nat) : Option Nat :=
  let p := s.slot st k
  let h := if p.pending then 1 - p.active else p.active
  let n := p.st h
  if p.owner ≠ c ∨ !(n = 2 ∨ n = 4) ∨ granules < s.imgHdr st k h 0x10 4 then some 6
  else if !p.pending ∧ e ≥ s.imgHdr st k h 0x15 1 then some 2
  else none

/-- START (R246, R258, R259). -/
def execStart (ag : Agent) (st : Nat) (r : StkRec) (s : State) : Res :=
  s.stkCmd ag st 0x03 r fun s =>
    let c := r.ctx
    let x := s.ctx c
    let l := if x.isBound then x.bound else x.lease
    if !x.valid ∨ x.state = 4 ∨ x.rebind then .inl 3
    else if r.seq ≥ l.seqs then .inl 2
    else
      match s.startReason st c r.pslot r.entry l.granules with
      | some n => .inl n
      | none =>
        if x.isBound then
          let n := nth 0 x.seqs r.seq
          let q := s.seq st n
          if 1 ≤ q.state ∧ q.state ≤ 4 then .inl 3
          else .inr ((s.setCtx c { x with state := 2 }).startSeq st n c r.pslot r.entry)
        else if x.pendingStart.any fun p => p.1 == r.seq then .inl 3
        else if !s.leaseFits st l then .inl 4
        else if !s.waysAgree c l then .inl 7
        else
          let s := s.setCtx c { x with state := 1, pendingStart := x.pendingStart ++ [(r.seq, r.pslot, r.entry)] }
          .inr (if s.nextBind st = some c ∧ !s.rebinding st then s.bindCtx c else s)

/-- A stop of a context begins (R17, R19, R64, R275): it is held, failed beats are discarded, and a job's step that has not
contributed to its verdict is tainted, or, with no step in progress, the next one. `why`: 0 a STOP command, 1 a stop-now. -/
def State.stopBegin (s : State) (c why : Nat) : State :=
  let x := s.ctx c
  let st := stoveOf c
  let s := s.setCtx c { x with
    stopping := some why, holds := if x.holds.contains .stopNow then x.holds else x.holds ++ [.stopNow] }
  let mine := fun (s : State) (b : FailedBeat) => (s.flight b.run.fid).any fun f => f.ctx == c
  let bad := s.ar.failed.filter (mine s)
  let s : State := { s with ar := { s.ar with failed := s.ar.failed.filter fun b => !mine s b } }
  let s := bad.foldl (fun (s : State) b =>
    match s.flight b.run.fid with
    | some f =>
      match f.body with
      | .product p => s.discardBeat ((b.arrays.getLast?).getD 0) 5 5 f p b.run b.w3 false
      | _ => s
    | none => s) s
  if x.isJob && !((s.job x.slot).inStep && (s.job x.slot).sent) then ((s.stkLog st 6 0 0 c 0).taint x.slot).abortJob x.slot else s

/-- STOP (R258): as a stop-now, without its urgency; it completes when every unit has stopped. -/
def execStop (ag : Agent) (st : Nat) (r : StkRec) (s : State) : Res :=
  s.stkCmd ag st 0x04 r fun s =>
    if (s.ctx r.ctx).state ≠ 2 ∨ (s.ctx r.ctx).stopping.isSome then .inl 3 else .inr ((s.stopBegin r.ctx 0).stkWait st r.ctx)

/-- RESUME (R258): every sequencer stopped by STOP or stop-now goes on at its PC. -/
def execResume (ag : Agent) (st : Nat) (r : StkRec) (s : State) : Res :=
  s.stkCmd ag st 0x05 r fun s =>
    if (s.ctx r.ctx).state ≠ 3 then .inl 3
    else
      let s := (List.range 64).foldl (fun s n =>
        let q := s.seq st n
        if q.ctx = some r.ctx ∧ q.state = 5 ∧ q.resumable then s.setSeq st n { q with state := 1, resumable := false } else s) s
      .inr ((s.modCtx r.ctx fun x => { x with state := 2 }).schedule r.ctx)

/-- RELEASE of a bound context: what it had in flight, but fills that run and its job's piste switches (R14), is gone, its lease is unbound and freed (R65, R106, R115,
R141, R246). -/
def State.unbind (s : State) (c : Nat) : State :=
  let st := stoveOf c
  let x := s.ctx c
  let s := s.sq.flights.foldl (fun s f =>
    match f.body with
    | .fill .. => s
    | .piste .. => if f.ctx = c then s.putFlight { f with post := none } else s
    | _ => if f.ctx = c then s.endFlight f else s) s
  let s := x.seqs.foldl (fun s n => s.freeSeq st n) s
  let s := (s.sizeWays st 1 c 0)
  let s := (List.range 16).foldl (fun s w =>
    let g := s.awin st w
    if g.bound ∧ g.ctx = c then
      (((s.dropWindow g).pinRange g.ctx g.va g.len false).setAwin st w { g with bound := false }).showBound st
    else s) s
  let s := s.sizeWays st 5 c 0
  let s := if x.isJob ∧ (s.slotBound st x.slot c).isEmpty then (s.sizeRed st x.slot 0).sizeWays st 3 x.slot 0 else s
  let s := s.setCtx c { x with
    state := 0, isBound := false, bound := {}, arrays := [], engines := [], granules := [], seqs := [], waiters := [], holds := [],
    loanWait := false, borrowing := none, stopping := none, pendingStart := [] }
  s.withdraw st x.arrays x.granules

/-- The loan of a context that is released ends first (DESIGN CHOICE, log 54): a borrower gives back what it borrowed, and the next one
borrows, or LEND_SEM is posted; the borrower of a lender stops. -/
def State.endLoan (s : State) (c : Nat) : State :=
  let x := s.ctx c
  match x.borrowing, x.lentTo with
  | some l, _ =>
    let s := s.giveBack c
    match s.nextBorrower l with
    | some e => s.lendTo l e
    | none => (s.modCtx l fun y => { y with lending := false, lentTo := none }).postLend l
  | none, some d =>
    let s := (if (s.ctx d).state = 2 then s.stopCtx d else s).giveBack d
    s.modCtx c fun y => { y with lending := false, lentTo := none }
  | none, none => s
/-- RELEASE (R246, R258). -/
def execRelease (ag : Agent) (st : Nat) (r : StkRec) (s : State) : Res :=
  s.stkCmd ag st 0x06 r fun s =>
    let x := s.ctx r.ctx
    if !x.valid ∨ !(x.state = 0 ∨ x.state = 3 ∨ x.state = 4) ∨ x.rebind then .inl 3
    else .inr (if x.isBound then (s.endLoan r.ctx).unbind r.ctx
      else s.setCtx r.ctx { x with state := 0, pendingStart := [], waiters := [] })

-- MAP and UNMAP (R231, R233, R258)

/-- Removes a page's entry, where it is cached too; a move of it ends with it. -/
def State.unmapPage (s : State) (o page : Nat) : State :=
  let s := s.setPte o page {}
  { s with
    ca := { s.ca with tlb := s.ca.tlb.filter fun e => !(e.space == o && e.page == page) }
    tr := { s.tr with
      moves := s.tr.moves.filter fun m => m.page != 2 ^ 27 * o + page
      waiting := s.tr.waiting.filter fun w => w.page != 2 ^ 27 * o + page } }
/-- The page range of a record: a fault of its fields, or its first page. -/
def pagesBad (r : StkRec) : Bool := decide (r.va % 2 ^ 21 ≠ 0 ∨ r.pages > 491520 ∨ r.va + 2 ^ 21 * r.pages > 2 ^ 48)
/-- Maps pages one after another; none where one of them cannot be mapped. -/
def State.mapPages (s : State) (o hint st : Nat) (write host : Bool) : Nat → Nat → Option State
  | _, 0 => some s
  | page, n + 1 =>
    if (s.pte o page).valid ∧ (s.pte o page).pins ≠ 0 then none
    else
      match (s.unmapPage o page).mapPage o page hint st write host with
      | some s => s.mapPages o hint st write host (page + 1) n
      | none => none

/-- MAP (R231, R233, R258). -/
def execMap (ag : Agent) (st : Nat) (r : StkRec) (s : State) : Res :=
  s.stkCmd ag st 0x08 r fun s =>
    let x := s.ctx r.ctx
    if pagesBad r then .inl 2
    else if !x.valid ∨ x.state = 4 then .inl 3
    else
      match s.mapPages x.aspace r.hint r.stove r.write r.host (r.va / 2 ^ 21) r.pages with
      | some t => .inr t
      | none => .inl 9

/-- UNMAP (R258). -/
def execUnmap (ag : Agent) (st : Nat) (r : StkRec) (s : State) : Res :=
  s.stkCmd ag st 0x09 r fun s =>
    let x := s.ctx r.ctx
    let ps := (List.range r.pages).map (· + r.va / 2 ^ 21)
    if pagesBad r then .inl 2
    else if !x.valid ∨ x.state = 4 then .inl 3
    else if ps.any fun p => (s.pte x.aspace p).pins != 0 then .inl 9
    else .inr (ps.foldl (fun s p => s.unmapPage x.aspace p) s)

-- Power states (R253 to R256)

/-- Would a sequencer of a context go on, were its stove Lit (R255)? -/
def State.wantsLit (s : State) (c n : Nat) : Bool :=
  let q := s.seq (stoveOf c) n
  q.ctx == some c && !s.held c &&
    match q.state with
    | 1 => true
    | 2 => (s.ctx c).semReady q.waitNum n
    | 3 => (List.range 128).any fun k =>
        let l := s.liftCfg (stoveOf c) k
        l.enable && l.ctx == c && l.lnum == q.waitNum && (s.lift (stoveOf c) k).chair (s.lift (stoveOf c) k).head == 2
    | _ => false
/-- The hint of a sequencer, less the time it has waited; one whose wait is over, and that is held until the stove is Lit, has work now
(R253, R255). -/
def State.hintOf (s : State) (st n : Nat) : Option Nat :=
  let q := s.seq st n
  match q.ctx with
  | none => none
  | some c =>
    let x := s.ctx c
    if (s.held c ∧ 1 ≤ q.state ∧ q.state ≤ 4) ∨ s.wantsLit c n then some 0
    else
      match q.state with
      | 1 => some 0
      | 2 => some (tabGet (fun _ => 0) x.semHint q.waitNum - q.waited)
      | 3 => some (x.chairHint - q.waited)
      | 4 => some 0
      | _ => none
/-- The smallest hint of a stove's sequencers. -/
def State.stoveHint (s : State) (st : Nat) : Option Nat :=
  (List.range 64).foldl (fun h n =>
    match h, s.hintOf st n with
    | some a, some b => some (min a b)
    | none, b => b
    | a, none => a) none
/-- The break-even time of a power state, in µs (R254). -/
def breakEven (p : Nat) : Nat := if p = 1 then 8 else if p = 2 then 300 else 30000
/-- Changes a stove's power state. -/
def State.setPower (s : State) (st p : Nat) : State :=
  let s := s.setStk st { s.stk st with waking := false }
  if (s.stk st).power = p then s else (s.setStk st { s.stk st with power := p }).raise st 0xB0 5
/-- The power state that a stove is to be in by its hint (R254): the deepest that is enabled and whose break-even time does not exceed
it; without a hint and a runnable context, Ash where it is enabled, else Smoulder. -/
def State.powerFor (s : State) (st : Nat) : Nat :=
  let on := fun (k : Nat) => bitOf (s.rdN st Reg.STK_PWR_CTRL) (k - 1)
  let runnable := s.cx.ctxs.any fun p => p.1 / 1024 == st && p.2.valid && p.2.state == 1
  match s.stoveHint st with
  | some h => ([3, 2, 1].find? fun k => on k && decide (breakEven k ≤ h)).getD 0
  | none => if runnable then 0 else ([3, 2].find? on).getD 0

/-- The stoker's counter gives the time that each of a stove's sequencers has waited (R253). -/
def State.noteWaits (s : State) (st : Nat) (waited : List Nat) : State :=
  waited.zipIdx.foldl (fun s w =>
    let q := s.seq st w.2
    if q.state = 2 ∨ q.state = 3 then s.setSeq st w.2 { q with waited := w.1 } else s) s
/-- POWER_STATE_ENTER (R253 to R255): the times waited are counted, and the stove enters the state that its hint asks for, where that
is deeper and the stove is not waking. -/
def execPowerStateEnter (st : Nat) (p : PowerTo) (s : State) : Res :=
  let s := s.noteWaits st p.waited
  .next (if (s.stk st).power < p.state ∧ !(s.stk st).waking ∧ s.powerFor st = p.state ∧ !s.cx.cold then s.setPower st p.state else s)

/-- A stove is Lit: what waited for it goes on. -/
def State.toLit (s : State) (st : Nat) : State :=
  let s := s.setPower st 0
  (s.boundOn st).foldl (fun s p => s.schedule p.1) s
/-- POWER_EXIT (R254): the timed exit begins; the stove is waking until it is Lit, which a second one or WAKE says. -/
def execPowerExit (st : Nat) (s : State) : Res :=
  .next (if s.lit st then s else if (s.stk st).waking then s.toLit st else s.wakeStove st)

/-- WAKE (R255): the stove is Lit; the cycles for which sequencers were held are counted in the contexts they belong to. -/
def execWake (st heldCycles : Nat) (s : State) : Res :=
  if s.lit st then .next s
  else
    let hit := (s.boundOn st).filter fun p => (List.range 64).any (s.wantsLit p.1)
    .next ((hit.foldl (fun s p => s.modCtx p.1 fun x => { x with wakeStall := satAdd 0xFFFFFFFF x.wakeStall heldCycles }) s).toLit st)

/-- Is a job slot enabled in any block of the module? -/
def State.anyJobOn (s : State) : Bool :=
  (List.range 4).any (fun st => s.anyOn st Reg.EMB_JOB_b_CTRL 16 8 || s.anyOn st Reg.SWP_JOB_b_CTRL 64 8) ||
    s.anyOn 4 Reg.COL_JOB_b_CTRL 64 8

/-- COLD_ENTER: the runtime's write of STK_PWR_CTRL.COLD on stove 0 (R256). -/
def execColdEnter (ag : Agent) (s : State) : Res :=
  match s.regGuard ag 0 0xB0 8 with
  | (s, false) => .next s
  | (s, true) =>
    if ag = .runtime ∧ ((List.range 4).all fun st => (s.stk st).power == 3) ∧ !s.anyJobOn then
      .next { s with cx := { s.cx with cold := true } }
    else .next ((s.stkLog 0 1 3 0 0 0).raise 0 0xB0 1)

/-- Does a source bring the module out of Cold: 0 an STK page write, 1 a management command, 2 + p a fabric wake signal at port
p, whose FAB_CTRL.WAKE_EN must be set (R256, R303)? -/
def State.wakes (s : State) (source : Nat) : Bool :=
  if source < 2 then true
  else bitOf (s.rdN (4 + (source - 2) / 16) (Reg.FAB_CTRL + 4096 * ((source - 2) % 16))) 2
/-- COLD_EXIT (R256). -/
def execColdExit (source : Nat) (s : State) : Res := .next (if s.wakes source then s.leaveCold else s)

-- Thermal throttling (R257)

/-- THROTTLE_LEVEL_CHANGE: an interval has ended with these readings, °C and W. -/
def execThrottleLevelChange (st temp power : Nat) (s : State) : Res :=
  let c := s.rd st Reg.STK_THERM_CTRL
  let k := s.stk st
  let n := if temp > fld c 7 0 ∨ power > fld c 27 16 then min 15 (k.throttle + 1)
    else if temp < fld c 15 8 ∧ power < fld c 27 16 then k.throttle - 1 else k.throttle
  let s := s.setStk st { k with throttle := n, temp := temp }
  .next (if n = k.throttle then s else s.raise st 0xB0 4)

/-- THERMAL_HOLD: 16,384 unheld cycles have passed while L > 0; every context of the stove is held (R87, R257). -/
def execThermalHold (st : Nat) (s : State) : Res :=
  let k := s.stk st
  if k.throttle = 0 ∨ k.gating then .next s
  else
    .next ((s.boundOn st).foldl (fun s p => s.modCtx p.1 fun x => { x with holds := x.holds ++ [.thermal] })
      (s.setStk st { k with gating := true }))

/-- THERMAL_GATE_END: every unit had stopped, L × 1,024 array cycles were gated, and all resume together (R257). -/
def execThermalGateEnd (st : Nat) (s : State) : Res :=
  let k := s.stk st
  if !k.gating ∨ (List.range 48).any (fun a => (s.arr st a).run.isSome) then .next s
  else
    let s := (s.setStk st { k with gating := false }).bump st Reg.STK_THERM_GATED (1024 * k.throttle)
    .next ((s.boundOn st).foldl (fun s p =>
      (s.modCtx p.1 fun x => { x with holds := x.holds.filter (· != .thermal) }).schedule p.1) s)

end Sys2Proof.Machine
end

