-- ==== Sys2Proof/Machine/StepCtl.lean ====
section
/-! DEFINITION. The control of a step: migration orders and their checks, the verdict and the vote, the resolution of a step with
its damper and its record, the sweep's job slots, and suspect shards (R15 to R18, R189 to R192, R208 to R210, R218, R221, R224,
R298). -/

namespace Sys2Proof.Machine

-- Migration orders (R190, R191)

/-- A migration order. `holders` is its holder word. -/
structure Order where
  row : Nat
  table : Nat
  kind : Nat
  holders : Nat
  addrs : List (Nat × Nat)
deriving DecidableEq, Repr
/-- Reads an order. -/
def orderOf (b : List Byte) : Order :=
  let w := leAt b 0 8
  { row := w % 2 ^ 40, table := bits w 51 40, kind := bits w 54 52, holders := leAt b 8 8 % 2 ^ 46,
    addrs := (List.range 3).map fun i => (leAt b (0x10 + 16 * i) 6, leAt b (0x18 + 16 * i) 6) }
/-- MOVE. -/
def Order.isMove (o : Order) : Bool := o.kind == 1
/-- RELAY. -/
def Order.isRelay (o : Order) : Bool := o.kind == 2
/-- RETURN. -/
def Order.isReturn (o : Order) : Bool := o.kind == 3
/-- The row of a RELAY or RETURN. -/
def Order.key (o : Order) : Key := ⟨o.table, o.row⟩
/-- The shard that an order names, or its row's shard. -/
def Order.shard (o : Order) : Nat := if o.isMove then o.row % 65536 else shardOf o.key
/-- The holders by the shard map of the module. -/
def State.mapOf (s : State) (b t sh : Nat) : Option Holders := mapHolders (s.mapEntry 0 b t sh)
/-- The current holders of an order's shard or row, as this module knows them. -/
def State.oldHolders (s : State) (b : Nat) (o : Order) : Option Holders :=
  if o.isMove then s.mapOf b o.table o.shard
  else
    match s.ovOwn 0 b o.key with
    | some e => ovHolders e
    | none => s.mapOf b o.table o.shard
/-- The holders after an order: those it names, or for a RETURN those of the map. -/
def State.newHolders (s : State) (b : Nat) (o : Order) : Option Holders :=
  if o.isReturn then s.mapOf b o.table o.shard else holdersOf o.holders
/-- Holders as a list: logical ID and stove, the owner first. -/
def hlist (h : Option Holders) : List (Nat × Nat) := (h.map holderList).getD []
/-- Is a logical ID this module's? -/
def State.isMe (s : State) (l : Nat) : Bool := s.fb.lid == some l
/-- Is this module, by any stove, in a holder set? -/
def State.holdsAny (s : State) (h : Option Holders) : Bool := (hlist h).any fun p => s.isMe p.1
/-- Does this module own the shard of an order by the map? -/
def State.mapOwner (s : State) (b : Nat) (o : Order) : Bool :=
  match s.mapOf b o.table o.shard with
  | some h => s.isMe h.owner
  | none => false

/-- Slots of a shard's arrays. -/
def TDesc.slotsOf (t : TDesc) : Nat := cdiv t.rows 65536
/-- Is a range of a job's memory mapped for writing? -/
def State.jmapped (s : State) (st b va n : Nat) : Bool := s.mapped (s.tdir st b).1 va n true

/-- Does an order name one thing twice with another: the same row, the same shard, or a row and its own shard? -/
def Order.clash (a o : Order) : Bool :=
  a.table == o.table &&
    (if a.isMove then a.shard == o.shard else if o.isMove then o.shard == a.shard else a.row == o.row)
/-- The check numbers that an order fails, without the checks of the whole list (R191, R224). -/
def State.orderFails (s : State) (b : Nat) (o : Order) : List Nat :=
  let t := s.tdesc 0 b o.table
  let mem := s.members b
  let new := hlist (holdersOf o.holders)
  let ids := new.map (·.1)
  let old := hlist (s.oldHolders b o)
  let lists := [
    (1, !(decide (1 ≤ o.kind ∧ o.kind ≤ 3))),
    (2, !t.valid),
    (3, !o.isMove && decide (o.row ≥ t.rows)),
    (4, bits o.holders 15 14 == 3),
    (5, !o.isReturn && !(decide ids.Nodup && ids.all fun l => has mem l)),
    (6, o.isReturn != (o.holders == 0)),
    (8, o.isMove && bitOf (s.mapEntry 0 b o.table o.shard) 63 && s.mapEntry 0 b o.table o.shard % 2 ^ 46 == o.holders),
    (10, o.isMove && new.zipIdx.any fun p =>
      s.isMe p.1.1 && !(old.zipIdx.any fun q => q.1 == p.1 && (q.2 == 0) == (p.2 == 0)) &&
        (let e := s.dirEnt p.1.2 b t (p.2 != 0) o.shard
         e.wbase == 0 || e.mbase == 0 || e.valid || !s.jmapped p.1.2 b e.wbase (t.slotsOf * t.wrec) ||
           !s.jmapped p.1.2 b e.mbase (t.slotsOf * t.mrec))),
    (11, o.isRelay && new.zipIdx.any fun p =>
      s.isMe p.1.1 &&
        (let a := o.addrs.getD p.2 (0, 0)
         a.1 % 32 != 0 || a.2 % 64 != 0 || !s.jmapped p.1.2 b a.1 t.wrec || !s.jmapped p.1.2 b a.2 t.mrec ||
           ((s.ovFind 0 b o.key).isNone && (s.ovRoom 0 b o.key).isNone))),
    (12, !o.isMove && s.mapOwner b o &&
      (if o.isReturn then (s.ovOwn 0 b o.key).isNone
       else (s.oldHolders b o).map holdersWord == some o.holders ||
         ((s.ovOwn 0 b o.key).isNone && (s.ovFind 0 b o.key).isNone && (s.ovRoom 0 b o.key).isNone))),
    (13, match s.oldHolders b o with
      | some h => s.isMe h.owner &&
          (if o.isMove then !(s.dirEnt h.ownerStove b t false o.shard).valid
           else !((s.heldAt h.ownerStove b o.key).any fun a => a.2.2))
      | none => false)]
  (lists.filter fun p => p.2).map (·.1)
/-- The first failing check of a list, 0 for none (R191, R224). -/
def State.listFails (s : State) (b count : Nat) (l : List Order) : Nat :=
  let one := l.flatMap fun o => s.orderFails b o
  let dup := l.zipIdx.any fun p => l.zipIdx.any fun q => p.2 != q.2 && p.1.clash q.1
  let all := one ++ (if dup then [7] else []) ++ if count > 65536 then [9] else []
  ((List.range 14).find? fun n => has all n).getD 0

/-- The migration list as a module reads it for a step: its length and its orders; empty where it is another step's (R191). -/
def State.readList (s : State) (b step : Nat) : Nat × List (List Byte) :=
  let m := s.mapBase 0 b
  if leNat (s.jrdN 0 b (m + 8) 6) = step then
    let n := leNat (s.jrdN 0 b (m + 0x10) 4) % 2 ^ 17
    (n, (List.range n).map fun k => s.jrdN 0 b (m + 0x800000 + 64 * k) 64)
  else (0, [])
/-- LIST_DIGEST (R191). -/
def listDigest (step count : Nat) (orders : List (List Byte)) : Nat :=
  leNat (shake256 (leBytes 6 step ++ leBytes 4 count ++ orders.flatten) 8)

-- Load summary (R183, R189)

/-- REQ and PART of a shard in a step on a stove (R183). -/
def State.loadOf (s : State) (st b : Nat) (t : TDesc) (sh step : Nat) : Nat × Nat :=
  let w := leNat (s.jrdN st b (t.sdir + 0x200000 + 0x80000 * (step % 2) + 8 * sh) 8)
  if w % 65536 = step % 65536 then (bits w 39 16, bits w 63 40) else (0, 0)
/-- What the load summary adds up: the totals, and the hottest shard as (REQ, shard, table, stove). -/
structure Load where
  req : Nat := 0
  part : Nat := 0
  hot : Nat × Nat × Nat × Nat := (0, 0, 0, 0)
deriving DecidableEq, Repr
/-- Sums the counters of a step; ties go to the lowest table, shard and stove. -/
def State.loads (s : State) (b step : Nat) : Load :=
  (List.range 4096).foldl (fun l t =>
    let ds := (List.range 4).map fun st => s.tdesc st b t
    if ds.all fun d => !d.valid then l
    else
      (List.range 65536).foldl (fun l sh =>
        ds.zipIdx.foldl (fun (l : Load) d =>
          if !d.1.valid then l
          else
            let w := s.loadOf d.2 b d.1 sh step
            { req := satAdd 0xFFFFFFFF l.req w.1, part := satAdd 0xFFFFFFFF l.part w.2,
              hot := if w.1 > l.hot.1 then (w.1, sh, t, d.2) else l.hot }) l) l) {}

/-- The 32 bytes of a load summary (R189). -/
def summaryBytes (step : Nat) (c : Contribution) : List Byte :=
  leBytes 8 (step + 2 ^ 48 * b2n c.listOk) ++ leBytes 4 c.reqTotal ++ leBytes 4 c.partTotal ++
    leBytes 4 (c.hotShard + 2 ^ 16 * c.hotTable + 2 ^ 28 * c.hotStove) ++ leBytes 4 c.hotReq ++ leBytes 8 c.listDigest.toNat

-- The verdict (R15, R298)

/-- CTRL of a sweep slot on a stove. -/
def State.swpCtrl (s : State) (st b : Nat) : W32 := s.rd st (Reg.SWP_JOB_b_CTRL + 64 * b)
/-- Is the condition of R173 met: every partial of the step appended and acknowledged, every block's gradients merged? -/
def State.partialsDone (s : State) (b : Nat) : Bool :=
  s.partsOut b (s.job b).step == 0 && s.em.covQueue.all (fun c => c.slot != b) &&
    s.em.fragQueue.all (fun f => f.slot != b) && s.em.frags.all (fun f => f.slot != b) &&
    s.em.covers.all fun c => c.slot != b || (c.ranked && c.runs.isEmpty)

/-- VERDICT_START: the module sends its contribution (R15, R46, R173, R189, R191, R298). -/
def execVerdictStart (slot : Nat) (s : State) : Res :=
  let j := s.job slot
  if !j.inStep ∨ j.sent ∨ !(j.abortSeen ∨ (j.stepEnd ∧ s.partialsDone slot)) then .next s
  else
    let w := s.readList slot j.step
    let n := s.listFails slot w.1 (w.2.map orderOf)
    let dg := listDigest j.step w.1 w.2
    let m := s.mapBase 0 slot
    let s := s.ownWrite 0 slot (m + 0x18) (leBytes 8 dg)
    let s := if leNat (s.jrdN 0 slot (m + 8) 6) = j.step then s.ownWrite 0 slot (m + 0x20) [0] else s
    let l := s.loads slot j.step
    let dig := if bitOf (s.swpCtrl 0 slot).toNat 1 then leBytes 16 (tabGet (fun _ => 0) s.sw.denseDigest slot) else []
    let c : Contribution :=
      { overflow := s.overflowFlag slot, taint := j.taint, listOk := n == 0, reqTotal := l.req, partTotal := l.part,
        hotShard := l.hot.2.1, hotTable := l.hot.2.2.1, hotStove := l.hot.2.2.2, hotReq := l.hot.1,
        listDigest := BitVec.ofNat 64 dg, digest := dig }
    let s := s.setJob slot { j with
      sent := true, vstate := 2, listDigest := dg, listCheck := n, orders := w.2
      contrib := j.contrib ++ [(s.fb.lid.getD 0, j.step, c)] }
    .next (s.broadcast slot 0x21 [slot, j.step, b2n c.overflow, b2n c.taint] (summaryBytes j.step c ++ dig))

/-- VERDICT: a member's contribution arrives (R293, R298). -/
def execVerdict (m : MsgHdr) (c : Contribution) (s : State) : Res :=
  if s.fenced m then .next (s.fence m)
  else
    match s.slotOf m.jtag with
    | none => .next s
    | some b =>
      let j := s.job b
      if !has (s.members b) m.src then .next s
      else
        .next (s.setJob b { j with
          contrib := j.contrib.filter (fun p => p.1 != m.src || p.2.1 != m.step) ++ [(m.src, m.step, c)] })

/-- The contributions of the step in progress in ascending logical ID, where every member's is there. -/
def State.verdictOf (s : State) (b : Nat) : Option (List (Nat × Contribution)) :=
  let j := s.job b
  (s.members b).mapM fun l => (j.contrib.find? fun p => p.1 == l && p.2.1 == j.step).map fun p => (l, p.2.2)

/-- The verdict's result at COL_JOB_b_VDEST (R298). -/
def State.putVdest (s : State) (b : Nat) (cs : List (Nat × Contribution)) : State :=
  let j := s.job b
  let a := s.rdN 4 (colReg b Reg.COL_JOB_b_VDEST_LO) + 2 ^ 32 * fld (s.rd 4 (colReg b Reg.COL_JOB_b_VDEST_HI)) 15 0
  let present := cs.any fun c => !c.2.digest.isEmpty
  let flags := b2n (cs.any fun c => c.2.overflow) + 2 * b2n (cs.any fun c => c.2.taint) + 4 * b2n present + 8 * b2n j.abortSeen
  let d := leBytes 8 j.step ++ leBytes 4 flags ++ leBytes 4 cs.length ++ List.replicate 48 0 ++
    (cs.flatMap fun c => summaryBytes j.step c.2) ++ cs.flatMap fun c => fitBytes 16 c.2.digest
  s.vwrN (s.dirCtx b) a d

-- Resolution (R16, R18, R145, R188, R208, R209)

/-- The damper of a stove at a resolution: 0 committed, 1 overflow, 2 fault or taint, 3 abandoned (R208). -/
def State.dampStove (s : State) (st b outcome : Nat) : State :=
  let d := s.damper st b
  let lim := fld (s.rd st (Reg.SWP_DMP_b_LIMIT + 64 * b)) 15 0
  if outcome = 3 then s
  else
    let d' : Damper := match outcome with
      | 0 => if d.clean + 1 ≥ lim then { d with s := min 255 (d.s + 1), clean := 0 } else { d with clean := d.clean + 1 }
      | 1 => { d with s := d.s - 1, clean := 0 }
      | _ => { d with clean := 0 }
    s.setDamper st b (match d.override with
      | some e => { d' with s := e, clean := 0, override := none }
      | none => d')
/-- The step record (R209). -/
def stepRecord (step lscale outcome clean epoch : Nat) : List Byte :=
  leBytes 8 step ++ [BitVec.ofNat 8 lscale, BitVec.ofNat 8 outcome, 0, 0] ++ leBytes 4 clean ++ leBytes 8 epoch ++
    List.replicate 40 0
/-- The address of a slot's step record on a stove. -/
def State.srecAt (s : State) (st b : Nat) : Nat :=
  s.rdN st (Reg.SWP_JOB_b_SREC_LO + 64 * b) + 2 ^ 32 * fld (s.rd st (Reg.SWP_JOB_b_SREC_HI + 64 * b)) 15 0
/-- Writes the step record, the number of the next step and the outcome on a stove. -/
def State.writeRecord (s : State) (st b step outcome epoch code : Nat) : State :=
  let d := s.damper st b
  let s := s.ownWrite st b (s.srecAt st b) (stepRecord step d.s outcome d.clean epoch)
  let s := (s.wr st (Reg.SWP_JOB_b_STEP_LO + 64 * b) (w32 step)).wr st (Reg.SWP_JOB_b_STEP_HI + 64 * b) (w32 (step / 2 ^ 32))
  s.wr st (Reg.SWP_JOB_b_OUTCOME + 64 * b) (pack [(outcome, 0), (code, 8)])
/-- Resolves the step in progress: the damper, the step record, the generation, pending routes, the next step's number. What follows
step, and epoch, 2^48 − 1 the spec does not say: 0, which is a DESIGN CHOICE (R5, log 56). -/
def State.resolve (s : State) (b outcome : Nat) : State :=
  let j := s.job b
  let next := if outcome = 3 then j.step else (j.step + 1) % 2 ^ 48
  let s := (List.range 4).foldl (fun s st =>
    let e := if outcome = 0 then (j.step + 1) % 2 ^ 48 else s.epoch st b
    let s := (s.dampStove st b outcome).writeRecord st b next outcome e j.faultCode
    s.raise st 0x80 (if outcome = 0 then 0 else if outcome = 3 then 2 else 1)) s
  let s := (s.advanceGen b).clearPending 0 b
  let s := { s with
    em := { s.em with
      covQueue := s.em.covQueue.filter fun c => c.slot != b
      covers := s.em.covers.filter fun c => c.slot != b
      fragQueue := s.em.fragQueue.filter fun f => f.slot != b
      frags := s.em.frags.filter fun f => f.slot != b
      partOut := tabSet (fun _ => 0) s.em.partOut (partKey b (s.job b).step) 0 }
    sw := { s.sw with
      repairs := s.sw.repairs.filter fun r => !(r.slot == b && r.sweep)
      fixes := s.sw.fixes.filter fun f => f.slot != b || f.kind == 5
      queue := s.sw.queue.filter fun w => w.slot != b } }
  let s := s.setCjob b { s.cjob b with cseq := 0x80000000 }
  let s := { s with fb := { s.fb with early := s.fb.early.filter fun e => e.slot != b || decide (e.step > j.step) } }
  s.setJob b { step := next, vstate := j.vstate, outcome := outcome, contrib := j.contrib.filter fun c => c.2.1 != j.step }

-- The commit vote (R220, R221)

/-- VOTE: a member's vote arrives (R293). -/
def execVote (m : MsgHdr) (fault overflow : Bool) (s : State) : Res :=
  if s.fenced m then .next (s.fence m)
  else
    match s.slotOf m.jtag with
    | none => .next s
    | some b =>
      let j := s.job b
      if !j.inStep ∨ m.step ≠ j.step ∨ !has (s.members b) m.src then .next s
      else .next (s.setJob b { j with votes := j.votes.filter (fun v => v.1 != m.src) ++ [(m.src, fault, overflow)] })

-- Job slots (R210, R224)

/-- A refused configuration write. -/
def State.swpRefused (s : State) (st b : Nat) : State := (s.swpLog st 0x0F b 0 0 0 0 0).raise st 0x80 14
/-- The sweep log of a slot on a stove: address and bytes (R219). -/
def State.logRegion (s : State) (st b : Nat) : Nat × Nat :=
  (s.rdN st (Reg.SWP_JOB_b_LOG_LO + 64 * b) + 2 ^ 32 * fld (s.rd st (Reg.SWP_JOB_b_LOG_HI + 64 * b)) 15 0,
    4096 * fld (s.rd st (Reg.SWP_JOB_b_LOG_SIZE + 64 * b)) 20 0)
/-- The number of the slot's next step on a stove. -/
def State.nextStep (s : State) (st b : Nat) : Nat :=
  s.rdN st (Reg.SWP_JOB_b_STEP_LO + 64 * b) + 2 ^ 32 * fld (s.rd st (Reg.SWP_JOB_b_STEP_HI + 64 * b)) 15 0
/-- A write to SWP_JOB_b_CTRL (R210, R219, R224). -/
def State.swpCtrlWrite (s : State) (ag : Agent) (st b : Nat) (value : W32) : State :=
  match s.regGuard ag st 0x81 value with
  | (s, false) => s
  | (s, true) =>
    let r := Reg.SWP_JOB_b_CTRL + 64 * b
    let c := (s.tdir st b).1
    let g := s.logRegion st b
    let old := s.rd st r
    if bitOf old.toNat 0 then
      if bitOf value.toNat 0 ∨ (s.job b).inStep then s.swpRefused st b
      else
        ((s.pinRange c g.1 g.2 false).wr st r (old &&& 6)).setDamper st b { s.damper st b with initDone := false }
    else if !bitOf value.toNat 0 then s.wr st r (value &&& 6)
    else
      let f := s.nextStep st b
      let p := s.plan st b
      if !bitOf (s.rdN st (Reg.EMB_JOB_b_CTRL + 16 * b)) 0 ∨ !bitOf (s.rdN 4 (colReg b Reg.COL_JOB_b_CTRL)) 0 ∨
          !s.blockOn st 0x81 ∨ s.kd.serviceOnly ∨ !(s.damper st b).initDone ∨ f > 2 ^ 48 - 2 ∨ g.2 = 0 ∨ !s.mapped c p.1 (0x4000 + 64 * p.2) false ∨
          !s.jmapped st b g.1 g.2 ∨ !s.jmapped st b (s.srecAt st b) 64 then s.swpRefused st b
      else
        let s := (s.pinHbm st c g.1 g.2).wr st r (value &&& 7)
        let s := (s.writeRecord st b f 0 f 0).setEpoch st b f
        let s := s.ownWrite st b (s.mapBase st b) (leBytes 6 f)
        s.modJob b fun j => { j with step := f }

/-- A write to SWP_JOB_b_CTRL that sets ENABLE: a notional step F − 1 is resolved on the stove (R210). -/
def execSwpJobEnable (ag : Agent) (st slot : Nat) (value : W32) (s : State) : Res := .next (s.swpCtrlWrite ag st slot value)
/-- A write to SWP_JOB_b_CTRL that clears ENABLE (R210). -/
def execSwpJobDisable (ag : Agent) (st slot : Nat) (value : W32) (s : State) : Res := .next (s.swpCtrlWrite ag st slot value)

/-- SWP_DMP_b_INIT with GO (R210, R224). -/
def execSwpDmpInit (ag : Agent) (st slot : Nat) (value : W32) (s : State) : Res :=
  match s.regGuard ag st 0x81 value with
  | (s, false) => .next s
  | (s, true) =>
    if bitOf (s.swpCtrl st slot).toNat 0 then .next (s.swpRefused st slot)
    else if !bitOf value.toNat 31 then .next s
    else .next (s.setDamper st slot { s.damper st slot with s := fld value 7 0, clean := 0, initDone := true })

/-- A write of VALID 0 to SWP_SUSP_n (R218). -/
def execSuspectClear (ag : Agent) (st n : Nat) (value : W32) (s : State) : Res :=
  match s.regGuard ag st 0x80 value with
  | (s, false) => .next s
  | (s, true) => .next (if bitOf value.toNat 31 then s else s.setSuspect st n none)

/-- A write of 0 to SWP_SUSP_LOST (R218). -/
def execSuspLostClear (ag : Agent) (st : Nat) (value : W32) (s : State) : Res :=
  match s.regGuard ag st 0x80 value with
  | (s, false) => .next s
  | (s, true) => .next (if value = 0 then s.wr st Reg.SWP_SUSP_LOST 0 else s)

end Sys2Proof.Machine
end

