-- ==== Sys2Proof/Machine/SweepRun.lean ====
section
/-! DEFINITION. What the sweep engine computes: sweep programs and their checks, the merge of partials, one program run over a unit,
and the new records of a row (R36 to R38, R42, R199 to R207, R211, R213). -/

namespace Sys2Proof.Machine

-- Sweep sets and programs (R199, R200, R203, R204, R206)

/-- A sweep set: the program and what a table descriptor or a dense entry gives it. -/
structure SwpSet where
  image : List Byte
  row : Bool
  slots : Nat
  n16 : Bool
  clamp : Bool
  lo : W16
  hi : W16
  consts : List W16
deriving DecidableEq, Repr

/-- The image of a program of a slot's plan. -/
def State.progImage (s : State) (st b p : Nat) : List Byte := s.jrdN st b ((s.plan st b).1 + 256 * p) 256
/-- OPS of an image. -/
def SwpSet.count (x : SwpSet) : Nat := leAt x.image 0 1
/-- The op words of a program. -/
def SwpSet.ops (x : SwpSet) : List Nat := (List.range (min 32 x.count)).map fun k => leAt x.image (0x40 + 4 * k) 4
/-- The sweep set of a table (R199). -/
def State.tableSet (s : State) (st b : Nat) (t : TDesc) : SwpSet :=
  { image := s.progImage st b t.prog, row := t.rowMode, slots := t.slots, n16 := t.n16, clamp := t.clamp, lo := t.lo, hi := t.hi,
    consts := t.consts }

/-- OP of a word. -/
def opOf (w : Nat) : Nat := bits w 5 0
/-- The c field. -/
def opC (w : Nat) : Nat := bits w 21 18
/-- Does the op round (R204)? -/
def opRounds (w : Nat) : Bool := has [0x02, 0x03, 0x04, 0x05, 0x0F, 0x13] (opOf w)
/-- The SITE that a word claims: that of a rounded op with SR. -/
def opSite (w : Nat) : Option Nat := if opRounds w && bitOf w 23 then some (bits w 26 24) else none
/-- The checks of R206 that a set fails; `align` says that a dense entry breaks R201. -/
def SwpSet.fails (x : SwpSet) (align : Bool) : List Nat :=
  let l := x.ops
  let sts := (l.filter fun w => opOf w == 0x16).map opC
  let bad := [
    (1, !(decide (1 ≤ x.count ∧ x.count ≤ 32))),
    (2, l.any fun w => decide (opOf w > 0x17) || bits w 31 27 != 0),
    (3, (l.filter fun w => opOf w == 0x17).length != 1),
    (4, (l.any fun w => has [0x15, 0x16] (opOf w) && decide (opC w ≥ x.slots)) || !decide sts.Nodup),
    (5, !decide (l.filterMap opSite).Nodup),
    (6, l.any fun w => bitOf w 22 && !(has [0x15, 0x16] (opOf w) && x.row && x.n16)),
    (7, (l.any fun w => opOf w == 0x0E && decide (opC w ≥ 12)) || align || (x.clamp && decide (decN16 x.lo > decN16 x.hi)))]
  (bad.filter fun p => p.2).map (·.1)
/-- The lowest failing check, 0 for none. -/
def SwpSet.check (x : SwpSet) (align : Bool) : Nat := (x.fails align).headD 0

-- One program run (R204, R205)

/-- What a run starts from: the dither inputs, the lanes' element numbers, V0 to V2 and the state as it loads. -/
structure SwpIn where
  d : Draw
  tid : Nat
  nums : List Nat
  v0 : List ℚ
  v1 : List ℚ
  v2 : ℚ
  slots : List (List ℚ)
deriving DecidableEq, Repr
/-- What a run has made so far: registers, the argument of UPD, what STS stored (slot, element 0 only, values), range events. -/
structure SwpRun where
  regs : List (List ℚ)
  upd : List ℚ
  sts : List (Nat × Bool × List ℚ)
  ev : Ev
deriving DecidableEq, Repr

/-- A register. -/
def SwpRun.reg (m : SwpRun) (k : Nat) : List ℚ := nth [] m.regs k
/-- Writes a register with exact values. -/
def SwpRun.put (m : SwpRun) (k : Nat) (v : List ℚ) : SwpRun := { m with regs := m.regs.set k v }
/-- Writes a register with rounded values and counts their events. -/
def SwpRun.putRd (m : SwpRun) (k : Nat) (v : List Rd) : SwpRun :=
  { m with regs := m.regs.set k (v.map (·.val)), ev := v.foldl evAdd m.ev }
/-- One op over the lanes of a unit (R204). -/
def SwpIn.op (x : SwpIn) (consts : List W16) (m : SwpRun) (w : Nat) : SwpRun :=
  let d := bits w 9 6
  let a := m.reg (bits w 13 10)
  let b := m.reg (bits w 17 14)
  let k := opC w
  let c := m.reg k
  let u := fun (n : Nat) => if bitOf w 23 then x.d.u x.tid (fold40 n 0) (0x48 + bits w 26 24) else none
  let one := fun (f : ℚ → ℚ) => m.put d (a.map f)
  let two := fun (f : ℚ → ℚ → ℚ) => m.put d (a.zipWith f b)
  let three := fun (f : ℚ → ℚ → ℚ → ℚ) => m.put d ((a.zip b).zipWith (fun p z => f p.1 p.2 z) c)
  let rnd := fun (v : List ℚ) => m.putRd d (v.zipWith (fun q n => roundN16 q (u n)) x.nums)
  let cr := fun (f : ℚ → Rd) => m.putRd d (a.map f)
  match opOf w with
  | 0x01 => m.put d a
  | 0x02 => rnd (a.zipWith (· + ·) b)
  | 0x03 => rnd (a.zipWith (· - ·) b)
  | 0x04 => rnd (a.zipWith (· * ·) b)
  | 0x05 => rnd ((a.zipWith (· * ·) b).zipWith (· + ·) c)
  | 0x06 => two max
  | 0x07 => two min
  | 0x08 => one rabs
  | 0x09 => one fun q => -q
  | 0x0A => three fun p q z => min (max p q) z
  | 0x0B => three fun p q z => if z ≠ 0 then p else q
  | 0x0C => two fun p q => if p > q then 1 else 0
  | 0x0D => one fun q => if q > 0 then 1 else if q < 0 then -1 else 0
  | 0x0E => m.put d (x.nums.map fun _ => decN16 (nth 0 consts k))
  | 0x0F => rnd (a.map fun q => q * pow2 (sx k 4))
  | 0x10 => cr crRsqrt
  | 0x11 => cr crSqrt
  | 0x12 => cr crRecip
  | 0x13 =>
    let r := roundN16 a.sum (u (x.nums.headD 0))
    { m with regs := m.regs.set d (x.nums.map fun _ => r.val), ev := evAdd m.ev r }
  | 0x14 => m.put d (x.nums.map fun _ => a.foldl max (a.headD 0))
  | 0x15 =>
    let v := nth [] x.slots k
    let v := if bitOf w 22 then x.nums.map fun _ => v.headD 0 else v
    m.putRd d (v.map fun q => roundN16 q none)
  | 0x16 => { m with sts := m.sts ++ [(k, bitOf w 22, a)] }
  | 0x17 => { m with upd := a }
  | _ => m
/-- A whole program run over a unit (R205). -/
def SwpSet.run (p : SwpSet) (x : SwpIn) : SwpRun :=
  let zero := x.nums.map fun _ => (0 : ℚ)
  let v1 := x.v1.map fun q => roundN16 q none
  let v2 := roundN16 x.v2 none
  let m : SwpRun := { regs := [x.v0, v1.map (·.val), x.nums.map fun _ => v2.val] ++ List.replicate 13 zero, upd := [], sts := []
                      ev := evAdd (v1.foldl evAdd (0, 0)) v2 }
  p.ops.foldl (x.op p.consts) m

/-- A new master value: x = m + a, clamped where the set says so (R211). -/
def SwpSet.master (p : SwpSet) (m a : ℚ) : ℚ :=
  if p.clamp then min (max (m + a) (decN16 p.lo)) (decN16 p.hi) else m + a
/-- How many values a clamp changes. -/
def SwpSet.clamped (p : SwpSet) (l : List (ℚ × ℚ)) : Nat := (l.filter fun q => p.master q.1 q.2 != q.1 + q.2).length

-- Merging partials (R38, R202)

/-- Sources of a key's records in ascending order, each with its elements of a column by ascending pass. -/
def mergeSources (l : List MRec) : List (Nat × List MRec) :=
  let srcs := ((l.map (·.source)).eraseDups).mergeSort fun a b => decide (a ≤ b)
  srcs.map fun s => (s, (l.filter fun r => r.source == s).mergeSort fun a b => decide (a.pass ≤ b.pass))
/-- The merged value of one element of a row: stage 2 by source, stage 3 across sources (R38). -/
def mergeElem (d : Draw) (k : Key) (c : Nat) (l : List (Nat × List MRec)) : ℚ × Ev :=
  let i := 1024 * k.row + c
  let two := l.map fun p => streamSum (mergeRnd d p.1 0 k.table 0x21 i) (p.2.map fun r => decN16 (nth 0 r.elems c))
  let three := treeSum (mergeRnd d 0 0 k.table 0x22 i) (two.map fun v => v.1.getD 0)
  (three.1, two.foldl (fun e v => (e.1 + v.2.1, e.2 + v.2.2)) three.2)
/-- The merge records of a slot on a stove that are of the slot's generation (R202). -/
def State.mergeOf (s : State) (st b : Nat) : List MRec :=
  s.em.merge.filter fun r => r.st == st && r.slot == b && r.gen == (s.rb b).gen
/-- The keys that they name, ascending. -/
def mergeKeys (l : List MRec) : List Key :=
  ((l.map (·.key)).eraseDups).mergeSort fun a b => decide (a.table < b.table ∨ (a.table = b.table ∧ a.row ≤ b.row))

-- A row (R160, R205, R207, R211)

/-- The bytes of a state slot after a run: what STS wrote, element 0 alone, or what stood there (R206, R211). `u` gives the draws of
site 0x41 + slot. -/
def TDesc.slotBytes (t : TDesc) (rec_ : List Byte) (u : Nat → Nat → Option Nat) (sts : List (Nat × Bool × List ℚ)) (k : Nat) :
    List Byte × Tally :=
  let old := (rec_.drop (2 * t.width + t.blocks + k * t.sb)).take t.sb
  match sts.find? fun p => p.1 == k with
  | none => (old, {})
  | some (_, true, v) =>
    let r := roundN16 (v.headD 0) none
    (leBytes 2 (encN16 r.val).toNat ++ old.drop 2, ⟨0, 0, b2n (nearN16 r.val)⟩)
  | some (_, false, v) =>
    if t.n16 then
      (v.flatMap fun q => leBytes 2 (rneN16 q).toNat, ⟨0, 0, (v.filter fun q => nearN16 q).length⟩)
    else
      let sc := rowScales .b8 0 32 v
      let cs := rowCodes .b8 0 32 sc (u (0x41 + k)) v
      ((cs.map fun c => BitVec.ofNat 8 c.1) ++ sc.map (BitVec.ofNat 8), rowTally 32 sc cs v)

/-- The numbers of the columns of each unit of a row: blocks of 32, or the whole row (R205). -/
def TDesc.units (t : TDesc) : List (List Nat) :=
  if t.rowMode then [List.range t.width]
  else (List.range t.blocks).map fun j => (List.range (min 32 (t.width - 32 * j))).map (· + 32 * j)

/-- What the sweep of a row yields: its new records and what it counts. -/
structure RowSwept where
  master : List Byte
  working : List Byte
  grad : Tally
  prog : Tally
  mast : Tally
  stat : Tally
  work : Tally
  clamped : Nat
deriving DecidableEq, Repr

/-- The sweep of one row from its merge records and its master (R202, R205, R207, R211, R213). -/
def sweptRow (d : Draw) (t : TDesc) (p : SwpSet) (sc : Nat) (k : Key) (l : List MRec) (rec_ : List Byte) : RowSwept :=
  let tid := 0xF00000 + k.table
  let num := fun c => 1024 * k.row + c
  let src := mergeSources l
  let merged := (List.range t.width).map fun c => mergeElem d k c src
  let g := merged.map fun m => roundN16 (m.1 * pow2 (127 - sc)) none
  let gev := g.foldl evAdd (merged.foldl (fun e m => (e.1 + m.2.1, e.2 + m.2.2)) (0, 0))
  let v := t.masterVals rec_
  let st := (List.range t.slots).map (t.stateVals rec_)
  let occ := (l.map (·.occ)).sum
  let runs := t.units.map fun cs =>
    (cs, p.run ⟨d, tid, cs.map num, cs.map fun c => (nth ⟨0, false, false⟩ g c).val, cs.map (nth 0 v), occ,
      st.map fun x => cs.map (nth 0 x)⟩)
  let upd := runs.flatMap fun r => r.2.upd
  let pairs := v.zip upd
  let x := pairs.map fun q => p.master q.1 q.2
  let u := fun (site c : Nat) => d.u tid (fold40 (num c) 0) site
  let scl := rowScales .b16 0 32 x
  let cs := rowCodes .b16 0 32 scl (u 0x40) x
  let sts := ((runs.headD ([], ⟨[], [], [], (0, 0)⟩)).2.sts).map fun q =>
    (q.1, q.2.1, runs.flatMap fun r => ((r.2.sts.find? fun z => z.1 == q.1).map fun z => z.2.2).getD [])
  let slots := (List.range t.slots).map (t.slotBytes rec_ u sts)
  let body := (cs.flatMap fun c => leBytes 2 c.1) ++ scl.map (BitVec.ofNat 8) ++ slots.flatMap (·.1)
  let mrec := sealed k (fitBytes t.mrec (body.take (t.mrec - 2)))
  let w := t.working (t.masterVals mrec)
  { master := mrec, working := w.1, grad := Tally.ofEv gev
    prog := runs.foldl (fun a r => a.add (Tally.ofEv r.2.ev)) {}
    mast := rowTally 32 scl cs x
    stat := slots.foldl (fun a q => a.add q.2) {}
    work := w.2, clamped := p.clamped pairs }

/-- The bytes that an entry takes in the log (R219). -/
def LogEnt.size (e : LogEnt) : Nat := 32 + alignUp e.bytes.length 32
/-- An entry as it lies in the log: a header of 32 bytes with the destination, the length and the kind, then the payload (R219). Where
in the header they lie is a DESIGN CHOICE (log 57). -/
def LogEnt.image (e : LogEnt) : List Byte :=
  fitBytes e.size (leBytes 6 e.addr ++ leBytes 3 e.bytes.length ++ [BitVec.ofNat 8 e.kind] ++ List.replicate 22 0 ++ e.bytes)
/-- The bytes that a stove's part of a log takes (R219). -/
def Job.logBytes (j : Job) (st : Nat) : Nat := ((j.log.filter fun e => e.st == st).map LogEnt.size).sum
/-- Puts an entry into the sweep log of a slot; a log that cannot take it sets FAULT (R219). -/
def State.logPut (s : State) (b st kind addr : Nat) (bytes : List Byte) : State :=
  let g := s.logRegion st b
  let e : LogEnt := ⟨st, kind, (s.tdir st b).1, addr, bytes, (s.job b).logBytes st⟩
  if has (s.job b).logFull st then s
  else if e.off + e.size > g.2 then
    (((s.swpLog st 4 b 0 0 0 0 0).raise st 0x80 4).swpFault b 4).modJob b fun j => { j with logFull := j.logFull ++ [st] }
  else
    let s := s.wr st Reg.SWP_LOG_PEAK (w32 (max (s.rdN st Reg.SWP_LOG_PEAK) (cdiv (e.off + e.size) 4096)))
    (s.ownWrite st b (g.1 + e.off) e.image).modJob b fun j => { j with log := j.log ++ [e] }
/-- Puts another payload of the same length into the entry of a log that is for an address. -/
def State.logSet (s : State) (b st kind addr : Nat) (bytes : List Byte) : State :=
  match (s.job b).log.find? fun e => e.st == st && e.kind == kind && e.addr == addr with
  | none => s
  | some e =>
    let e' := { e with bytes := bytes }
    (s.ownWrite st b ((s.logRegion st b).1 + e.off) e'.image).modJob b fun j => { j with log := j.log.map fun x => if x = e then e' else x }
/-- Gradient saturation during the sweep (R207). -/
def State.lateOvf (s : State) (st b n table shard row : Nat) : State :=
  if n = 0 then s
  else (((s.swpLog st 0x0C b 0 table shard row 0).raise st 0x80 9).modJob b fun j => { j with overflow := true })
/-- Elements swept on a stove. -/
def State.elemsAdd (s : State) (st n : Nat) : State :=
  { s with sw := { s.sw with elems := tabSet (fun _ => 0) s.sw.elems st (tabGet (fun _ => 0) s.sw.elems st + n) } }

/-- Sweeps a row of a stove from a good master record: log, counters, and what the comparisons need. -/
def State.sweepRow (s : State) (st b : Nat) (k : Key) (w m : Nat) (rec_ : List Byte) : State :=
  let t := s.tdesc st b k.table
  let p := s.tableSet st b t
  let l := (s.mergeOf st b).filter fun r => r.key == k
  let y := sweptRow (s.jobDraw b) t p (s.damper st b).s k l rec_
  let base := if (s.ovOwn st b k).isSome then none else some (m - k.row / 65536 * t.mrec)
  let s := ((s.logPut b st 0 m y.master).logPut b st 1 w y.working).lateOvf st b y.grad.sat k.table (shardOf k) k.row
  let s := ((s.tally st b .n16 .grad y.grad).tally st b .n16 .state y.prog).tally st b .b16 .state y.mast
  let s := (s.tally st b (if t.n16 then .n16 else .b8) .state y.stat).tally st b t.fmt .wt y.work
  let s := ((s.bump st Reg.SWP_CLAMPED y.clamped).bump st Reg.SWP_ROWS_TOTAL 1).elemsAdd st t.width
  s.modJob b fun j => { j with touched := j.touched ++ [⟨st, k, w, m, base, rec_, y.master⟩] }

/-- A rejected program or dense entry (R206). -/
def State.progReject (s : State) (st b check table : Nat) : State :=
  ((s.swpLog st 3 b check table 0 0 0).raise st 0x80 3).swpFault b 3
/-- A merge fault (R202). -/
def State.mergeFault (s : State) (st b : Nat) (k : Key) : State :=
  ((s.swpLog st 5 b 0 k.table (shardOf k) k.row 0).raise st 0x80 5).swpFault b 5

/-- Do the merge records of a key break R202? -/
def State.mergeBad (s : State) (st b : Nat) (k : Key) (l : List MRec) : Bool :=
  let t := s.tdesc st b k.table
  !decide (l.map fun r => (r.source, r.pass)).Nodup || !t.valid || decide (k.row ≥ t.rows) || (s.heldAt st b k).isNone

/-- An uncorrectable error in the merge records of a key: the job's step is tainted, and skipped by the FAULT bit (R143; DEDUCED, log
58). -/
def State.mergeLost (s : State) (st b : Nat) (k : Key) : State :=
  match (s.mergeOf st b).find? fun r => r.key == k with
  | some r => (s.mergeErr st b r.off .ue).swpFault b 0
  | none => s
/-- Merges and sweeps the rows of a stove (R198, R202, R206, R215); the rows of `bad` meet an uncorrectable error. -/
def State.sweepStove (s : State) (st b : Nat) (bad merge : List Key) : State :=
  let s := merge.foldl (fun s k => s.mergeLost st b k) s
  let l := s.mergeOf st b
  let keys := mergeKeys l
  let tabs := (keys.map (·.table)).eraseDups
  let chk := fun (t : Nat) => let d := s.tdesc st b t; if d.valid then (s.tableSet st b d).check false else 0
  let s1 := tabs.foldl (fun s t => if chk t = 0 then s else s.progReject st b (chk t) t) s
  keys.foldl (fun s k =>
    if s.mergeBad st b k (l.filter fun r => r.key == k) then s.mergeFault st b k
    else if chk k.table ≠ 0 then s
    else
      match s.heldAt st b k with
      | none => s
      | some (w, m, _) =>
        let n := (s.tdesc st b k.table).mrec
        let rec_ := s.jrdN st b m n
        let y := s.ownRead st b m n (if bad.contains k then .ue else .ok) 1
        if y.2.isNone && sealOk k rec_ then y.1.sweepRow st b k w m rec_
        else y.1.startRepair st b k w m true) s1

-- The dense model (R201, R205, R211, R214)

/-- A dense entry (R201): its sweep set, its views, GOFF and FPADDR. -/
structure Dense where
  set : SwpSet
  m : View
  w : View
  st : List View
  goff : Nat
  nofp : Bool
  fpaddr : Nat
deriving DecidableEq, Repr
/-- Reads dense entry j of a slot's plan, with the views that its descriptors give. -/
def State.dense (s : State) (st b j : Nat) : Dense :=
  let e := s.denseEnt st b j
  let w := leAt e 0 8
  let n := leAt e 0x16 1
  { set := { image := s.progImage st b (bits w 53 48), row := bitOf w 54, slots := n % 8, n16 := bitOf n 3, clamp := bitOf w 55
             lo := BitVec.ofNat 16 (leAt e 0x1C 2), hi := BitVec.ofNat 16 (leAt e 0x1E 2)
             consts := (List.range 12).map fun k => BitVec.ofNat 16 (leAt e (0x28 + 2 * k) 2) }
    m := s.jview st b (leAt e 0 6), w := s.jview st b (leAt e 8 6)
    st := (List.range (n % 8)).map fun k => s.jview st b (leAt e 0x10 6 + 64 * k)
    goff := leAt e 0x18 4 % 2 ^ 30, nofp := bitOf w 56, fpaddr := leAt e 0x20 6 }
/-- Does a view have a master's shape and numbering? -/
def View.alike (v m : View) : Bool := v.rows == m.rows && v.cols == m.cols && v.origin == m.origin && v.lstep == m.lstep
/-- Does a dense entry break R201? -/
def Dense.broken (d : Dense) : Bool :=
  let v := d.m
  !(v.place == .virt && v.fmt == .b16 && v.grain == .none && d.w.alike v && fmtBits d.w.fmt == 4 && d.w.grain == .square &&
      d.w.place == .virt && d.st.all fun x => x.alike v && x.place == .virt && x.fmt == if d.set.n16 then .n16 else .b8) ||
    (if d.set.row then !(has [16, 32, 64, 128, 256, 512, 1024] v.cols && d.goff % 1024 == 0)
     else !(v.cols % 32 == 0 && d.goff % 32 == 0))
/-- The units of a dense entry: row, first column, elements (R205). -/
def Dense.units (d : Dense) : List (Nat × Nat × Nat) :=
  (List.range d.m.rows).flatMap fun r =>
    if d.set.row then [(r, 0, d.m.cols)] else (List.range (d.m.cols / 32)).map fun j => (r, 32 * j, 32)
/-- The reduction buffer element of a master element. -/
def Dense.gelem (d : Dense) (r c : Nat) : Nat := d.goff + r * d.m.cols + c

/-- What a dense sweep carries along: the state whose memory receives the results, and events by stove. -/
structure DenseAcc where
  mem : State
  out : State

/-- Sweeps one unit of a dense entry: results go into `mem`, counts into `out` (R205, R207, R211). -/
def Dense.unit (d : Dense) (b c j sc : Nat) (dr : Draw) (a : DenseAcc) (q : Nat × Nat × Nat) : DenseAcc :=
  let r := q.1
  let cols := (List.range q.2.2).map (· + q.2.1)
  let home := rbHome (d.gelem r q.2.1)
  let g := cols.map fun k => roundN16 (decN16 (a.mem.elem b (d.gelem r k)) * pow2 (127 - sc)) none
  let mv := cols.map fun k => a.mem.valAt c d.m r k
  let run := d.set.run ⟨dr, d.m.tid, cols.map (d.m.num r), g.map (·.val), mv, 0, d.st.map fun v => cols.map fun k => a.mem.valAt c v r k⟩
  let pairs := mv.zip run.upd
  let items := fun (l : List ℚ) => (cols.zip l).map fun p => ((r, p.1, p.2) : Item)
  let u := fun (site n : Nat) => dr.u d.m.tid (fold40 n 0) site
  let w := a.mem.storeItems c d.m (u 0x40) (items (pairs.map fun p => d.set.master p.1 p.2))
  let x := run.sts.foldl (fun (x : State × Tally) p =>
    let y := x.1.storeItems c (nth d.m d.st p.1) (u (0x41 + p.1)) (items (if p.2.1 then p.2.2.take 1 else p.2.2))
    (y.1, x.2.add y.2)) (w.1, {})
  let gt := Tally.ofEv (g.foldl evAdd (0, 0))
  let s := (a.out.tally home b .n16 .grad gt).tally home b .n16 .state (Tally.ofEv run.ev)
  let s := (s.tally home b .b16 .state w.2).tally home b (if d.set.n16 then .n16 else .b8) .state x.2
  let s := (s.bump home Reg.SWP_CLAMPED (d.set.clamped pairs)).elemsAdd home q.2.2
  ⟨x.1, s.lateOvf home b gt.sat j 0 0⟩
/-- The range events of working tiles, each counted on the home stove of its own element (R45, R144); a tile's scale at its limit counts on
that of the tile's first element: DESIGN CHOICE (log 59). -/
def Dense.tileEvents (d : Dense) (items : List Item) : List (Nat × Tally) :=
  let sc := blockScales d.w items
  let home := fun (p : Item) => rbHome (d.gelem p.1 p.2.1)
  (items.map fun p =>
    (home p, Tally.ofRd (quantize d.w.fmt d.w.zp (tabGet (fun _ => (0, false)) sc (d.w.blk p.1 p.2.1)).1 p.2.2 none).2)) ++
  sc.filterMap fun k =>
    if k.2.2 ∧ (k.2.1 ≤ 1 ∨ 254 ≤ k.2.1) then
      (items.find? fun p => d.w.blk p.1 p.2.1 == k.1).map fun p => (home p, ⟨0, 0, 1⟩)
    else none
/-- Derives the working tiles of a tile row from the master in `mem` (R211). -/
def Dense.tiles (d : Dense) (b c : Nat) (a : DenseAcc) (tr : Nat) : DenseAcc :=
  let rows := (List.range (min 8 (d.m.rows - 8 * tr))).map (· + 8 * tr)
  let items : List Item := rows.flatMap fun r => (List.range d.m.cols).map fun k => (r, k, a.mem.valAt c d.m r k)
  let w := a.mem.storeItems c d.w (fun _ => none) items
  ⟨w.1, (d.tileEvents items).foldl (fun s p => s.tally p.1 b d.w.fmt .wt p.2) a.out⟩
/-- The rows of a view as ranges, with the scale bytes that a row, or a row of tiles, begins; and the row they belong to. -/
def View.rowRanges (v : View) : List (Nat × Nat × Nat) :=
  (List.range v.rows).flatMap fun r =>
    (r, v.addr + r * v.stride, rowBytes v.fmt v.cols) ::
      (if scaled v.fmt ∧ (v.grain ≠ .square ∨ r % 8 = 0) then [(r, v.addr + v.scaleOff + v.blk r 0, v.blkCols)] else [])
/-- Logs the bytes of a view as a state holds them. -/
def State.logView (s : State) (b c kind : Nat) (d : Dense) (mem : State) (v : View) : State :=
  v.rowRanges.foldl (fun s p => s.logPut b (rbHome (d.gelem p.1 0)) kind p.2.1 (mem.vrdN c p.2.1 p.2.2)) s
/-- Writes the dense entries of a log in place, in a state that only serves to compute. -/
def State.withLog (s : State) (l : List LogEnt) : State :=
  l.foldl (fun s e => if 2 ≤ e.kind ∧ e.kind ≤ 4 then s.vwrN e.ctx e.addr e.bytes else s) s
/-- An uncorrectable reduction line that the sweep reads: the job's step is tainted, and skipped by the FAULT bit (R143; DEDUCED, log
58). -/
def State.lineLost (s : State) (b : Nat) (st l : Nat) : State :=
  ((((((s.bump st Reg.HTH_UE_TOTAL 1).countU st 0x60 1).hthLog st 4 0 b 0 0 (64 * l) 0 s.anySyndrome).raise st 0x60 3).taint b)).swpFault b 0
/-- An error of the reduction line of an element, as the sweep meets it (R143). -/
def State.lineErr (s : State) (b : Nat) (e : Nat × Ecc) : State :=
  let st := rbHome e.1
  match e.2 with
  | .ce | .hearthCe =>
    ((s.bump st Reg.HTH_CE_TOTAL 1).countC st 0x60 1 |>.hthLog st 1 0 b 0 0 (rbLocal e.1) 0 s.anySyndrome 2).raise st 0x60 0
  | .ue | .hearthUe => s.lineLost b st (rbLocal e.1 / 64)
  | _ => s
/-- The reduction lines that a dense entry reads: home stove and number there. -/
def Dense.lines (d : Dense) : List (Nat × Nat) :=
  ((List.range (d.m.rows * d.m.cols)).map fun k => (rbHome (d.goff + k), rbLocal (d.goff + k) / 64)).eraseDups
/-- The sweep reads the reduction lines of a dense entry; those that `es` names meet an error. -/
def State.sweepLines (s : State) (b : Nat) (d : Dense) (es : List (Nat × Ecc)) : State :=
  let mine := es.filter fun e => decide (d.goff ≤ e.1 ∧ e.1 < d.goff + d.m.rows * d.m.cols)
  d.lines.foldl (fun s l =>
    let y := s.spillReach (s.tdir 0 b).1 b false l.1 l.2
    if y.2 then y.1 else y.1.swpFault b 0) (mine.foldl (fun s e => s.lineErr b e) s)
/-- Sweeps dense entry j (R205, R206, R211). -/
def State.sweepDense (s : State) (b j : Nat) (es : List (Nat × Ecc)) : State :=
  let d := s.dense 0 b j
  let home := rbHome d.goff
  let chk := d.set.check d.broken
  if chk ≠ 0 then s.progReject home b chk j
  else
    let c := (s.tdir 0 b).1
    let s := (s.reachAs home c ((d.m :: d.st).flatMap View.vranges) false false 1 []).sweepLines b d es
    let a := d.units.foldl (d.unit b c j (s.damper 0 b).s (s.jobDraw b)) ⟨s.withLog (s.job b).log, s⟩
    let a := (List.range (cdiv d.m.rows 8)).foldl (d.tiles b c) a
    let s := a.out.logView b c 3 d a.mem d.m
    let s := d.st.foldl (fun s v => s.logView b c 2 d a.mem v) s
    s.logView b c 4 d a.mem d.w

end Sys2Proof.Machine
end

