-- ==== Sys2Proof/Machine/Sweep.lean ====
section
/-! DEFINITION. The sweep of a step: the verdict's return, merge and apply with its repairs, shipments and comparisons, the vote's
join, install and audit (R16, R192 to R198, R212 to R222). -/

namespace Sys2Proof.Machine

-- Row hashes, digests and fingerprints (R214)

/-- rowhash (R214). -/
def rowHash (k : Key) (rec_ : List Byte) : Nat :=
  if rec_.all (· == 0) then 0 else leNat (shake256 (leBytes 2 k.table ++ leBytes 5 k.row ++ rec_) 16)
/-- FPS of a table (R199). -/
def TDesc.fps (t : TDesc) : Nat := cdiv (t.slotsOf * t.mrec) 65536
/-- The address of a shard's digest. -/
def TDesc.digAt (t : TDesc) (sh : Nat) : Nat := t.fpbase + 16 * sh
/-- The address of a fingerprint of a shard. -/
def TDesc.fpAt (t : TDesc) (sh k : Nat) : Nat := t.fpbase + 0x100000 + 4 * (t.fps * sh + k)
/-- The rows of a shard's arrays that a step's sweep has touched on a stove. -/
def Job.inShard (j : Job) (st table sh : Nat) : List Touch :=
  j.touched.filter fun x => x.st == st && x.key.table == table && x.base.isSome && shardOf x.key == sh
/-- The block of the shard array in which a touched record starts. -/
def Touch.block (x : Touch) : Nat := (x.maddr - x.base.getD 0) / 65536
/-- What a touched row changes a digest by. -/
def Touch.delta (x : Touch) : Nat := rowHash x.key x.old ^^^ rowHash x.key x.new
/-- The new digest of a shard on a stove. -/
def State.shardDigest (s : State) (b st table sh : Nat) : Nat :=
  let t := s.tdesc st b table
  ((s.job b).inShard st table sh).foldl (fun d x => d ^^^ x.delta) (leNat (s.jrdN st b (t.digAt sh) 16))
/-- The new fingerprint of a block of a shard on a stove. -/
def State.shardFp (s : State) (b st table sh k : Nat) : Nat :=
  let t := s.tdesc st b table
  (((s.job b).inShard st table sh).filter fun x => x.block == k).foldl (fun d x => d ^^^ (x.delta % 2 ^ 32))
    (leNat (s.jrdN st b (t.fpAt sh k) 4))

/-- The ranges of some elements of a view: for each block of up to 32, its fractions, then its scale where it has one (R214). -/
def View.blockRanges (v : View) (els : List (Nat × Nat)) : List (Nat × Nat) :=
  (els.filter fun e => e.2 % 32 == 0).flatMap fun e =>
    let n := min 32 (v.cols - e.2)
    (v.addr + e.1 * v.stride + e.2 * fmtBits v.fmt / 8, n * fmtBits v.fmt / 8) ::
      (if scaled v.fmt then [(v.addr + v.scaleOff + v.blk e.1 e.2, 1)] else [])
/-- Fingerprint blocks of a dense tensor. -/
def Dense.blocks (d : Dense) : Nat := cdiv (d.m.rows * d.m.cols) 32768
/-- The elements of a fingerprint block in logical order. -/
def Dense.elems (d : Dense) (k : Nat) : List (Nat × Nat) :=
  (List.range (min 32768 (d.m.rows * d.m.cols - 32768 * k))).map fun i =>
    ((32768 * k + i) / d.m.cols, (32768 * k + i) % d.m.cols)
/-- The bytes of ranges, one after the other. -/
def State.rangeBytes (s : State) (c : Nat) (l : List (Nat × Nat)) : List Byte := l.flatMap fun p => s.vrdN c p.1 p.2
/-- The dense fingerprint of a block (R214). -/
def State.denseFp (s : State) (c : Nat) (d : Dense) (k : Nat) : List Byte :=
  shake256 (leBytes 3 d.m.tid ++ leBytes 5 k ++ s.rangeBytes c (d.m.blockRanges (d.elems k))) 4
/-- The ranges of a dense block's master and state. -/
def Dense.parts (d : Dense) (k : Nat) : List (Nat × Nat × Nat) :=
  let els := d.elems k
  (d.m.blockRanges els).map (fun p => (3, p)) ++ d.st.flatMap fun v => (v.blockRanges els).map fun p => (2, p)

-- Data asked of other modules (R215 to R217, R222, R241)

/-- A new number for a request. -/
def State.takeId (s : State) : State × Nat := ({ s with sq := { s.sq with nextId := s.sq.nextId + 1 } }, s.sq.nextId)
/-- No module is left to ask. -/
def State.failFix (s : State) (f : Fix) : State :=
  if has [0, 1, 2, 7, 8] f.kind then
    let k := (((s.job f.slot).inShard f.st f.key.table f.key.row).head?.map (·.key)).getD f.key
    (s.makeSuspect f.st f.slot 9 (if has [2, 8] f.kind then f.key else k) f.peer).swpFault f.slot 9
  else if f.kind = 5 then s.makeSuspect f.st f.slot 0x0E f.key 0
  else s.swpFault f.slot 0
/-- Asks the next module for what a sweep needs; each is named as logical ID + 4,096 × stove. The request is a GET whose ARG says what
it is for: DESIGN CHOICE (log 60). -/
def State.askFix (s : State) (f : Fix) : State :=
  match f.left with
  | l :: t =>
    let s := { s with sw := { s.sw with fixes := s.sw.fixes ++ [{ f with peer := l % 4096, left := t }] } }
    s.send (some f.slot) 0x03 (l % 4096) ([l / 4096, f.kind, f.key.table, f.key.row, f.index, f.block, f.id] ++ f.blocks) []
  | [] => s.failFix f
/-- Begins a request. -/
def State.newFix (s : State) (b st kind : Nat) (k : Key) (index block : Nat) (left : List Nat) (blocks : List Nat := []) : State :=
  let w := s.takeId
  w.1.askFix ⟨w.2, b, st, kind, k, index, block, 0, left, blocks⟩
/-- A repair by a sweep: code, event and count (R224). -/
def State.swpRepair (s : State) (st b code : Nat) (k : Key) (peer : Nat) : State :=
  (s.swpLog st code b 0 k.table (shardOf k) k.row peer).raise st 0x80 6
/-- The other holders of a row as request targets. -/
def State.otherHolders (s : State) (b : Nat) (k : Key) : List Nat :=
  ((hlist ((s.resolveKey 0 b k true).map (·.1))).filter fun h => !s.isMe h.1).map fun h => h.1 + 4096 * h.2

-- Shipments (R193)

/-- The x with shard_of(t, q × 65,536 + x) = shard. -/
def rowIn (t q sh : Nat) : Nat := 65536 * q + ((List.range 65536).find? fun x => shardOf ⟨t, 65536 * q + x⟩ == sh).getD 0
/-- A range of a job's memory as it will stand after install: what the log holds for its address, else what stands there. -/
def State.finalBytes (s : State) (b st va n : Nat) : List Byte :=
  match ((s.job b).log.filter fun e => e.st == st && e.addr == va && decide (e.kind ≤ 1)).getLast? with
  | some e => e.bytes
  | none => s.jrdN st b va n
/-- Sends one shipment and counts it until its acknowledgement. -/
def State.sendShip (s : State) (b : Nat) (to_ : Nat × Nat) (x : Shipment) : State :=
  (s.send (some b) 0x14 to_.1 [keyArg ⟨x.table, x.row⟩ to_.2] (x.working ++ x.master)).modJob b fun j => { j with shipOut := j.shipOut + 1 }
/-- Sends a row's final records. -/
def State.sendFinal (s : State) (b st : Nat) (t : TDesc) (k : Key) (w m : Nat) (tos : List (Nat × Nat)) : State :=
  let x : Shipment := ⟨k.table, k.row, s.finalBytes b st w t.wrec, s.finalBytes b st m t.mrec⟩
  tos.foldl (fun s h => s.sendShip b h x) s
/-- Does the log hold a master record for an address? -/
def Job.logged (j : Job) (st m : Nat) : Bool := j.log.any fun e => e.st == st && e.addr == m && e.kind == 0
/-- Ships a row's final records; a master that no sweep has just written is read with its checks, and asked of another holder where they
fail (R193, R215). A working record that cannot be read is derived from it (R177). -/
def State.shipRow (s : State) (b st : Nat) (t : TDesc) (k : Key) (w m : Nat) (tos : List (Nat × Nat)) : State :=
  if tos.isEmpty then s
  else if (s.job b).logged st m then s.sendFinal b st t k w m tos
  else
    let y := s.ownRead st b m t.mrec .ok 1
    if y.2.isSome || !sealOk k (s.jrdN st b m t.mrec) then y.1.startRepair st b k w m true tos
    else
      let z := y.1.ownRead st b w t.wrec .ok 1
      (if z.2.isSome then (z.1.rederive st b k w m .ok).1 else z.1).sendFinal b st t k w m tos
/-- The authoritative override entries of a shard's relayed rows on this module. -/
def State.ownEntries (s : State) (b table sh : Nat) : List (List Byte) :=
  (List.range 16).filterMap fun j =>
    let e := s.jrdN 0 b (s.mapBase 0 b + 0x1000 + 1024 * (sh / 16) + 64 * j) 64
    if ovValid e && !ovLearned e && (ovKey e).table == table && shardOf (ovKey e) == sh then some e else none
/-- Ships what an order moves, where this module is its old owner. The slot of a row that is relayed away is not read (R195). -/
def State.shipOrder (s : State) (b : Nat) (o : Order) : State :=
  match s.oldHolders b o with
  | none => s
  | some h =>
    if !s.isMe h.owner then s
    else
      let st := h.ownerStove
      let t := s.tdesc st b o.table
      let olds := holderList h
      let new := hlist (s.newHolders b o)
      let tos := new.filter fun x => !olds.contains x
      if o.isMove then
        let d := s.dirEnt st b t false o.shard
        let s := (List.range t.slotsOf).foldl (fun s q =>
          let k : Key := ⟨o.table, rowIn o.table q o.shard⟩
          if (s.ovOwn st b k).isSome then s else s.shipRow b st t k (d.wbase + q * t.wrec) (d.mbase + q * t.mrec) tos) s
        match new.head? with
        | some x =>
          if x.1 = h.owner then s
          else (s.ownEntries b o.table o.shard).foldl (fun s e =>
            s.sendShip b x ⟨o.table, (ovKey e).row, e, []⟩) s
        | none => s
      else
        match s.heldAt st b o.key with
        | some (w, m, _) => s.shipRow b st t o.key w m tos
        | none => s

/-- Where an order of the list has prepared a place for a row on this stove (R191, R193): working and master addresses. -/
def State.prepared (s : State) (b st : Nat) (k : Key) (o : Order) : Option (Nat × Nat) :=
  let t := s.tdesc st b k.table
  let hit := o.table == k.table && (if o.isMove then o.shard == shardOf k else o.row == k.row)
  if !hit then none
  else
    ((hlist (s.newHolders b o)).zipIdx.find? fun p => s.isMe p.1.1 && p.1.2 == st).map fun p =>
      if o.isRelay then o.addrs.getD p.2 (0, 0) else (s.dirEnt st b t (p.2 != 0) (shardOf k)).at t k

/-- SHIP: migrated records reach a new holder (R193). -/
def execShip (st : Nat) (m : MsgHdr) (x : Shipment) (s : State) : Res :=
  if s.fenced m then .next (s.fence m)
  else
    match s.slotOf m.jtag with
    | none => .next s
    | some b =>
      let j := s.job b
      let k : Key := ⟨x.table, x.row⟩
      if !j.inStep ∨ m.step ≠ j.step then .next s
      else
        let ack := fun (s : State) => s.send (some b) 0x13 m.src [keyArg k 1] [] m.ctx (some m.step)
        if x.master.isEmpty then .next (ack (s.modJob b fun j => { j with ships := j.ships ++ [(st, x)] }))
        else
          match (j.orders.map orderOf).findSome? (s.prepared b st k) with
          | none => .next s
          | some a => .next (ack ((s.ownWrite st b a.1 x.working).ownWrite st b a.2 x.master))

/-- ACK: a partial (`what` 0) or a shipment (`what` 1) has been taken (R173, R193). -/
def execAck (_st : Nat) (m : MsgHdr) (what : Nat) (s : State) : Res :=
  if s.fenced m then .next (s.fence m)
  else
    match s.slotOf m.jtag with
    | none => .next s
    | some b =>
      if what = 0 then
        .next (s.setPartOut b m.step (s.partsOut b m.step - 1))
      else if what = 1 then .next (s.modJob b fun j => { j with shipOut := j.shipOut - 1 })
      else
        let mine := fun (f : Flight) =>
          match f.body with
          | .coll p => p.slot == b && p.op == 7 && p.cseq == m.cseq
          | _ => false
        .next (match s.sq.flights.find? mine with
          | some f => s.putFlight { f with body := .plain }
          | none => s)

-- Comparisons (R216)

/-- The digest of a comparison on this stove: the shard's new digest, or the relayed row's new rowhash. -/
def State.cmpValue (s : State) (b : Nat) (c : Cmp) : Nat :=
  if c.shard then s.shardDigest b c.st c.key.table c.key.row
  else (((s.job b).touched.find? fun x => x.st == c.st && x.key == c.key).map fun x => rowHash x.key x.new).getD 0
/-- The touched rows that a comparison is about. -/
def Job.cmpRows (j : Job) (st : Nat) (shard : Bool) (k : Key) : List Touch :=
  if shard then j.inShard st k.table k.row else j.touched.filter fun x => x.st == st && x.key == k
/-- Settles a comparison whose digests are all there. Where two holders differ, the records of what differs are fetched and their seals
checked on both sides. -/
def State.settleCmp (s : State) (b : Nat) (c : Cmp) (ds : List Dig) : State :=
  let own := s.cmpValue b c
  let key := (((s.job b).cmpRows c.st c.shard c.key).head?.map (·.key)).getD c.key
  let low := (c.others.mergeSort fun a b => decide (a ≤ b)).headD 0
  let from_ := (s.otherHolders b key).filter fun h => h % 4096 == low
  if ds.all fun d => d.value == own then s
  else
    match ds with
    | [_] => s.newFix b c.st (if c.shard then 0 else 8) c.key 0 0 from_
    | [d, e] =>
      if d.value = e.value then s.newFix b c.st (if c.shard then 0 else 2) c.key 0 0 from_
      else if d.value = own ∨ e.value = own then s
      else (s.makeSuspect c.st b 9 key low).swpFault b 9
    | _ => s
/-- Settles every comparison that has all its digests. -/
def State.settleCmps (s : State) (b : Nat) : State :=
  (s.job b).cmps.foldl (fun s c =>
    let j := s.job b
    let ds := c.others.filterMap fun l => j.digests.find? fun d => d.st == c.st && d.key == c.key && d.shard == c.shard && d.src == l
    if c.done ∨ ds.length < c.others.length then s
    else
      (s.modJob b fun j => { j with cmps := j.cmps.map fun x => if x = c then { x with done := true } else x }).settleCmp b c ds) s
/-- Sends the digests of what a stove has touched, and begins the comparisons. -/
def State.sendDigests (s : State) (b : Nat) : State :=
  let j := s.job b
  let shards := ((j.touched.filter (·.base.isSome)).map fun x => ((x.st, ⟨x.key.table, shardOf x.key⟩, true) : Nat × Key × Bool)).eraseDups
  let rows := (j.touched.filter (·.base.isNone)).map fun x => ((x.st, x.key, false) : Nat × Key × Bool)
  (shards ++ rows).foldl (fun s p =>
    let key := (((s.job b).cmpRows p.1 p.2.2 p.2.1).head?.map (·.key)).getD p.2.1
    let others := s.otherHolders b key
    if (s.tdesc p.1 b p.2.1.table).nofp ∨ others.isEmpty then s
    else
      let c : Cmp := ⟨p.1, p.2.1, p.2.2, others.map (· % 4096), false⟩
      let v := s.cmpValue b c
      let s := others.foldl (fun s h =>
        s.send (some b) 0x15 (h % 4096) [keyArg p.2.1 (h / 4096 + 4 * b2n p.2.2)] (leBytes 16 v)) s
      s.modJob b fun j => { j with cmps := j.cmps ++ [c] }) s

-- Merge and apply (R198, R217, R218, R241)

/-- Ships the rows that the orders move, once every comparison is resolved, so that the records are the final ones (R193, R216). -/
def State.tryShip (s : State) (b : Nat) : State :=
  let j := s.job b
  if !j.applied ∨ j.shipped ∨ j.phase ≠ 1 ∨ j.cmps.any (fun c => !c.done) ∨ s.sw.fixes.any (fun f => f.slot == b && f.kind != 5) then s
  else
    let s := s.modJob b fun j => { j with shipped := true }
    if j.dropped then s else (j.orders.map orderOf).foldl (fun s o => s.shipOrder b o) s
/-- Ends merge and apply once no repair is waited for: dense sweep, digests, shipments (R193, R198, R216). -/
def State.tryApply (s : State) (b : Nat) : State :=
  let j := s.job b
  let waits := (s.sw.repairs.any fun r => r.slot == b && r.sweep) ||
    s.sw.fixes.any fun f => f.slot == b && has [3, 4, 6] f.kind
  if j.phase ≠ 1 ∨ !j.begun ∨ waits then s
  else if j.applied then s.tryShip b
  else
    let s := (List.range (s.plan 0 b).2).foldl (fun s k => s.sweepDense b k j.lineErrs) s
    let s := s.modJob b fun j => { j with applied := true }
    ((s.sendDigests b).settleCmps b).tryShip b

/-- DIGEST: another holder's digest of a shard, or rowhash of a relayed row, of a table and by its number (R216). -/
def execDigest (st : Nat) (m : MsgHdr) (table number : Nat) (shard : Bool) (value : List Byte) (s : State) : Res :=
  if s.fenced m then .next (s.fence m)
  else
    match s.slotOf m.jtag with
    | none => .next s
    | some b =>
      let j := s.job b
      if !j.inStep ∨ m.step ≠ j.step then .next s
      else
        let s := s.setJob b { j with digests := j.digests ++ [⟨st, ⟨table, number⟩, shard, m.src, leNat value⟩] }
        .next (if j.applied then (s.settleCmps b).tryShip b else s)

/-- The fingerprint comparison of R217 over the verdict's digests, in ascending logical ID. -/
def State.compareDense (s : State) (b : Nat) (cs : List (Nat × Contribution)) : State :=
  if !bitOf (s.swpCtrl 0 b).toNat 1 then s
  else
    let ds := cs.map fun c => (c.1, leNat (fitBytes 16 c.2.digest))
    let count := fun (v : Nat) => (ds.filter fun d => d.2 == v).length
    match ds.find? fun d => decide (2 * count d.2 > ds.length) with
    | none => ((s.swpLog 0 0x11 b 0 0 0 0 0).raise 0 0x80 11).swpFault b 0x11
    | some d =>
      if (ds.find? fun e => s.isMe e.1).all fun e => e.2 == d.2 then s
      else
        (List.range (s.plan 0 b).2).foldl (fun s j =>
          if (s.dense 0 b j).nofp then s else s.newFix b 0 3 ⟨0, 0⟩ j 0 [d.1])
          s

/-- An error of a sweep engine's SRAM (R224). -/
def State.swpUnit (s : State) (b st : Nat) (e : Ecc) : State :=
  match e with
  | .unitCe => ((s.bump st Reg.SWP_CE_TOTAL 1).countC st 0x80 1 |>.swpLog st 1 b 0 0 0 0 0).raise st 0x80 12
  | .unitUe => (((s.bump st Reg.SWP_UE_TOTAL 1).countU st 0x80 1 |>.swpLog st 2 b 0 0 0 0 0).raise st 0x80 13).swpFault b 2
  | _ => s
/-- The dense blocks of a slot whose stored data is known to be bad. -/
def State.denseBad (s : State) (b : Nat) : List (Nat × Nat) :=
  let c := (s.tdir 0 b).1
  if s.tr.bad.isEmpty && s.tr.pcFail.isEmpty && s.tr.pkgFail.isEmpty && s.ht.lost.isEmpty then []
  else (List.range (s.plan 0 b).2).flatMap fun j =>
    let d := s.dense 0 b j
    ((List.range d.blocks).filter fun k =>
      (s.memBad (rbHome d.goff) c ((d.parts k).map fun p => p.2) false).isSome).map fun k => (j, k)
/-- An uncorrectable error in a dense block is counted and logged, and the block is asked of the other members (R241). -/
def State.denseLost (s : State) (b : Nat) (p : Nat × Nat) : State :=
  let c := (s.tdir 0 b).1
  let a := (s.vaAddr c (((((s.dense 0 b p.1).parts p.2).headD (3, 0, 0)).2).1)).getD 0
  (s.nextFree.tierUe a c 2 s.anySyndrome).newFix b 0 6 ⟨0, 0⟩ p.1 p.2 ((s.members b).filter fun l => !s.isMe l)
/-- Begins merge and apply (R198). -/
def State.beginSweep (s : State) (b : Nat) (cs : List (Nat × Contribution)) (e : SweepErr) (unit : List (Nat × Ecc)) : State :=
  let s := s.modJob b fun j => { j with begun := true, lineErrs := e.lines }
  let s := unit.foldl (fun s p => s.swpUnit b p.1 p.2) s
  let s := (List.range 4).foldl (fun s st => if s.rdN st Reg.SWP_SUSP_LOST = 0 then s else s.swpFault b 0) s
  let s := s.compareDense b cs
  let s := ((e.dense ++ s.denseBad b).eraseDups).foldl (fun s p => s.denseLost b p) s
  let of := fun (l : List (Nat × Key)) (st : Nat) => (l.filter fun p => p.1 == st).map (·.2)
  (List.range 4).foldl (fun s st => s.sweepStove st b (of e.rows st) (of e.merge st)) s
/-- The engines take up the slots that wait, in the order of their verdicts, each once the one before has applied its step, or skip their
steps (R16, R198). -/
def State.startQueue (s : State) : State :=
  s.sw.queue.foldl (fun s w =>
    let busy := (List.range 8).any fun b => (s.job b).phase == 1 && (s.job b).begun && !(s.job b).applied
    if busy then s
    else
      let s : State := { s with sw := { s.sw with queue := s.sw.queue.erase w } }
      match w.skip with
      | some o => s.resolve w.slot o
      | none => (s.beginSweep w.slot ((s.verdictOf w.slot).getD []) w.err w.unit).tryApply w.slot) s

/-- Drops the list of the step where the summaries ask for it (R192). -/
def State.listDrop (s : State) (b : Nat) (cs : List (Nat × Contribution)) : State :=
  let j := s.job b
  let no := cs.find? fun c => !c.2.listOk
  let differ := cs.any fun c => cs.any fun d => c.2.listDigest != d.2.listDigest
  if no.isNone ∧ !differ then s
  else
    let check := if j.listCheck ≠ 0 then j.listCheck else if differ then 14 else 15
    let peer := if check = 15 then (no.map (·.1)).getD 0 else 0
    let s := (s.ownWrite 0 b (s.mapBase 0 b + 0x20) [1]).setJob b { j with dropped := true }
    (s.swpLog 0 0x0A b check 0 0 0 peer).raise 0 0x80 8

/-- VERDICT_DONE: every contribution is there (R16, R192, R198, R298). An audit that still runs stops where it is (R212). `e` is what the
sweep's reads meet, `unit` the errors of the engines' own SRAM by stove (R224). -/
def execVerdictDone (slot : Nat) (e : SweepErr) (unit : List (Nat × Ecc)) (s : State) : Res :=
  let j := s.job slot
  match s.verdictOf slot with
  | none => .next s
  | some cs =>
    if !j.inStep ∨ j.phase ≠ 0 ∨ !j.sent then .next s
    else
      let s : State := { s with sw := { s.sw with auditing := [] } }
      let s := (((s.putVdest slot cs).modJob slot fun j => { j with vstate := 3 }).raise 4 0xE0 2).listDrop slot cs
      let skip := if cs.any fun c => c.2.overflow then some 1 else if cs.any fun c => c.2.taint then some 2 else none
      let s := s.modJob slot fun j => { j with phase := 1 }
      .next ({ s with sw := { s.sw with queue := s.sw.queue ++ [⟨slot, skip, e, unit⟩] } } : State).startQueue

/-- VERDICT_TIMEOUT (R18, R298). -/
def execVerdictTimeout (slot : Nat) (s : State) : Res :=
  let j := s.job slot
  if !j.inStep ∨ j.phase ≠ 0 ∨ !(j.stepEnd ∨ j.abortSeen) then .next s
  else .next (((s.colLog 6 slot 0 0 0 0 j.step).raise 4 0xE0 3).resolve slot 3).startQueue

-- The answers (R215 to R217, R222, R241)

/-- Replaces what a sweep has logged for rows by records taken from another holder: working and master of each in turn. -/
def State.replaceRows (s : State) (b : Nat) (rows : List Touch) (bytes : List Byte) : State :=
  (rows.zipIdx.foldl (fun (w : State × List Byte) p =>
    let x := p.1
    let t := w.1.tdesc x.st b x.key.table
    let wb := fitBytes t.wrec w.2
    let mb := fitBytes t.mrec (w.2.drop t.wrec)
    (((w.1.logSet b x.st 0 x.maddr mb).logSet b x.st 1 x.waddr wb).modJob b (fun j => { j with
      touched := j.touched.map fun y => if y = x then { y with new := mb } else y }),
      w.2.drop (t.wrec + t.mrec))) (s, bytes)).1
/-- The masters among the records of rows, as another holder sends them: working and master of each in turn. -/
def State.mastersIn (s : State) (b : Nat) : List Touch → List Byte → List (Key × List Byte)
  | [], _ => []
  | x :: l, d =>
    let t := s.tdesc x.st b x.key.table
    (x.key, fitBytes t.mrec (d.drop t.wrec)) :: s.mastersIn b l (d.drop (t.wrec + t.mrec))
/-- The records of differing rows have come from the only other holder (R216): the side whose seals fail takes the other's. -/
def State.twoHolders (s : State) (f : Fix) (rows : List Touch) (bytes : List Byte) : State :=
  let b := f.slot
  let key := (rows.head?.map (·.key)).getD f.key
  let mine := rows.all fun x => sealOk x.key x.new
  let theirs := (s.mastersIn b rows bytes).all fun p => sealOk p.1 p.2
  if mine = theirs then (s.makeSuspect f.st b 9 key f.peer).swpFault b 9
  else if mine then s
  else ((s.swpRepair f.st b 8 key f.peer).replaceRows b rows bytes).bump f.st Reg.SWP_REPAIRS 1
/-- The touched rows of a shard in some of its blocks, by their place. -/
def Job.blockRows (j : Job) (st table sh : Nat) (blocks : List Nat) : List Touch :=
  ((j.inShard st table sh).filter fun x => has blocks x.block).mergeSort fun x y => decide (x.maddr ≤ y.maddr)
/-- Puts the parts of a dense block into the log. -/
def State.logParts (s : State) (b : Nat) (home : Nat) (parts : List (Nat × Nat × Nat)) (bytes : List Byte) : State :=
  (parts.foldl (fun (w : State × List Byte) p =>
    (w.1.logPut b home p.1 p.2.1 (fitBytes p.2.2 w.2), w.2.drop p.2.2)) (s, bytes)).1
/-- A request is answered. -/
def State.fixDone (s : State) (f : Fix) (bytes : List Byte) : State :=
  let b := f.slot
  let j := s.job b
  let d := s.dense 0 b f.index
  let st := rbHome (d.gelem (32768 * f.block / d.m.cols) 0)
  let t := s.tdesc f.st b f.key.table
  match f.kind with
  | 0 =>
    let key := (((j.inShard f.st f.key.table f.key.row).head?).map (·.key)).getD f.key
    let from_ := (s.otherHolders b key).filter fun h => h % 4096 == f.peer
    let bad := (List.range t.fps).filter fun k => s.shardFp b f.st f.key.table f.key.row k != leAt bytes (4 * k) 4
    let two := j.cmps.any fun c => c.st == f.st && c.key == f.key && c.shard && c.others.length == 1
    if two then (if bad.isEmpty then (s.makeSuspect f.st b 9 key f.peer).swpFault b 9 else s.newFix b f.st 7 f.key 0 0 from_ bad)
    else bad.foldl (fun s k => s.newFix b f.st 1 f.key k 0 from_) s
  | 1 =>
    let rows := j.blockRows f.st f.key.table f.key.row [f.index]
    ((s.swpRepair f.st b 8 ((rows.head?.map (·.key)).getD f.key) f.peer).replaceRows b rows bytes).bump f.st Reg.SWP_REPAIRS 1
  | 7 => s.twoHolders f (j.blockRows f.st f.key.table f.key.row f.blocks) bytes
  | 8 => s.twoHolders f (j.touched.filter fun x => x.st == f.st && x.key == f.key) bytes
  | 2 =>
    ((s.swpRepair f.st b 8 f.key f.peer).replaceRows b (j.touched.filter fun x => x.st == f.st && x.key == f.key) bytes).bump f.st
      Reg.SWP_REPAIRS 1
  | 3 =>
    (List.range d.blocks).foldl (fun s k =>
      if s.jrdN 0 b (d.fpaddr + 4 * k) 4 = (bytes.drop (4 * k)).take 4 then s else s.newFix b f.st 4 f.key f.index k [f.peer]) s
  | 4 =>
    let s := (s.swpLog st 0x10 b 0 0 0 0 f.peer).raise st 0x80 6
    (s.logParts b st (d.parts f.block) bytes).bump st Reg.SWP_REPAIRS 1
  | 5 =>
    match s.heldAt f.st b f.key with
    | some (w, m, _) =>
      let s := ((s.ownWrite f.st b w (fitBytes t.wrec bytes)).emberWrite f.st b f.key (fitBytes t.wrec bytes)).ownWrite f.st b m
        (fitBytes t.mrec (bytes.drop t.wrec))
      (s.swpRepair f.st b 0x0E f.key f.peer).bump f.st Reg.SWP_REPAIRS 1
    | none => s
  | _ =>
    let c := (s.tdir 0 b).1
    let a := (s.vaAddr c ((((d.parts f.block).headD (3, 0, 0)).2).1)).getD 0
    let p := s.hbmPart a
    (s.logParts b st (d.parts f.block) bytes).hbmLog st 0x0C p.1 p.2 1 c 0 a 0
/-- A record asked for under R215 has come. -/
def State.repairDone (s : State) (r : Repair) (peer : Nat) (bytes : List Byte) : State :=
  let t := s.tdesc r.st r.slot r.key.table
  let m := fitBytes t.mrec bytes
  if !sealOk r.key m then s.askMaster r
  else
    let s := (s.swpRepair r.st r.slot 6 r.key peer).bump r.st Reg.SWP_REPAIRS 1
    if !r.ship.isEmpty then (s.logPut r.slot r.st 0 r.maddr m).sendFinal r.slot r.st t r.key r.waddr r.maddr r.ship
    else if r.sweep then s.sweepRow r.st r.slot r.key r.waddr r.maddr m else s.ownWrite r.st r.slot r.maddr m
/-- The data of a request has come; what waited for it goes on. -/
def State.fixData (s : State) (id peer : Nat) (bytes : List Byte) : State :=
  match s.sw.repairs.find? fun r => r.id == id with
  | some r => ((({ s with sw := { s.sw with repairs := s.sw.repairs.erase r } } : State).repairDone r peer bytes).tryApply r.slot).startQueue
  | none =>
    match s.sw.fixes.find? fun f => f.id == id with
    | some f => ((({ s with sw := { s.sw with fixes := s.sw.fixes.erase f } } : State).fixDone f bytes).tryApply f.slot).startQueue
    | none => s
/-- A request fails: the next module is asked. -/
def State.fixLost (s : State) (id : Nat) : State :=
  match s.sw.repairs.find? fun r => r.id == id with
  | some r => ((({ s with sw := { s.sw with repairs := s.sw.repairs.erase r } } : State).askMaster r).tryApply r.slot).startQueue
  | none =>
    match s.sw.fixes.find? fun f => f.id == id with
    | some f => ((({ s with sw := { s.sw with fixes := s.sw.fixes.erase f } } : State).askFix f).tryApply f.slot).startQueue
    | none => s
/-- What this module answers another holder's or member's request with (R193, R215 to R217, R222, R241); none where the stove does not
hold what is asked for. -/
def State.fixAnswer (s : State) (b : Nat) (q : FixReq) : Option (List Byte) :=
  let j := s.job b
  let t := s.tdesc q.st b q.key.table
  let d := s.dense 0 b q.index
  let c := (s.tdir 0 b).1
  let row := fun (x : Touch) => s.finalBytes b x.st x.waddr (s.tdesc x.st b x.key.table).wrec ++ x.new
  let held := s.heldAt q.st b q.key
  match q.kind with
  | 0 => some ((List.range t.fps).flatMap fun k => leBytes 4 (s.shardFp b q.st q.key.table q.key.row k))
  | 1 => some ((j.blockRows q.st q.key.table q.key.row [q.index]).flatMap row)
  | 7 => some ((j.blockRows q.st q.key.table q.key.row q.blocks).flatMap row)
  | 3 => some (s.jrdN 0 b d.fpaddr (4 * d.blocks))
  | 4 | 6 => some (s.rangeBytes c ((d.parts q.block).map (·.2)))
  | 9 => held.map fun h => s.jrdN q.st b h.2.1 t.mrec
  | _ => held.map fun h => s.finalBytes b q.st h.1 t.wrec ++ s.finalBytes b q.st h.2.1 t.mrec

-- The vote's join (R214, R219, R220)

/-- The log entries of the digests and fingerprints that a sweep has changed (R214). -/
def State.logPrints (s : State) (b : Nat) : State :=
  let j := s.job b
  let shards := ((j.touched.filter (·.base.isSome)).map fun x => (x.st, x.key.table, shardOf x.key)).eraseDups
  let s := shards.foldl (fun s p =>
    let t := s.tdesc p.1 b p.2.1
    if t.nofp then s
    else
      let ks := (((s.job b).inShard p.1 p.2.1 p.2.2).map Touch.block).eraseDups
      let s := s.logPut b p.1 5 (t.digAt p.2.2) (leBytes 16 (s.shardDigest b p.1 p.2.1 p.2.2))
      ks.foldl (fun s k => s.logPut b p.1 5 (t.fpAt p.2.2 k) (leBytes 4 (s.shardFp b p.1 p.2.1 p.2.2 k))) s) s
  let c := (s.tdir 0 b).1
  let mem := s.withLog (s.job b).log
  (List.range (s.plan 0 b).2).foldl (fun s n =>
    let d := s.dense 0 b n
    if d.nofp ∨ d.broken then s
    else
      let fp := (List.range d.blocks).flatMap fun k => mem.denseFp c d k
      (s.logPut b (rbHome d.goff) 5 d.fpaddr fp).modJob b fun j =>
        { j with newDense := j.newDense ^^^ leNat (shake256 fp 16) }) s
/-- COMMIT_VOTE_JOIN (R220): the conditions hold; a list that has changed withholds the vote. -/
def execCommitVoteJoin (slot : Nat) (s : State) : Res :=
  let j := s.job slot
  let waits := (s.sw.repairs.any fun r => r.slot == slot && r.sweep) || s.sw.fixes.any fun f => f.slot == slot && f.kind != 5
  if !j.inStep ∨ j.phase ≠ 1 ∨ !j.shipped ∨ j.shipOut ≠ 0 ∨ waits ∨ j.cmps.any fun c => !c.done then .next s
  else
    let w := s.readList slot j.step
    if listDigest j.step w.1 w.2 ≠ j.listDigest then .next (s.swpLog 0 0x0B slot 0 0 0 0 0)
    else
      let s := s.logPrints slot
      let j := s.job slot
      let s := s.broadcast slot 0x22 [slot, j.step, b2n j.fault, b2n j.overflow] []
      .next (s.setJob slot { j with
        joined := true, phase := 2
        votes := j.votes ++ [(s.fb.lid.getD 0, j.fault, j.overflow)] })

-- Install (R175, R176, R194, R195, R222)

/-- An uncorrectable error meets a log entry: the row's committed record is fetched from another holder (R222). For an entry that is no
row's record the rule names no source; it is logged, and its place keeps what it held: DESIGN CHOICE (log 61). -/
def State.badEntry (s : State) (b : Nat) (e : LogEnt) : State :=
  match (s.job b).touched.find? fun x => x.st == e.st && (x.maddr == e.addr || x.waddr == e.addr) with
  | some x =>
    if e.kind > 1 then s.swpLog e.st 0x0E b 0 0 0 0 0
    else
      let left := s.otherHolders b x.key
      if left.isEmpty then s.makeSuspect e.st b 0x0E x.key 0
      else s.newFix b e.st 5 x.key 0 0 left
  | none => s.swpLog e.st 0x0E b 0 0 0 0 0
/-- Copies the log of a stove into place; the entries of `bad` cannot be read. -/
def State.copyLog (s : State) (b st : Nat) (bad : List Nat) : State :=
  let j := s.job b
  let g := s.logRegion st b
  j.log.zipIdx.foldl (fun s p =>
    let e := p.1
    if e.st ≠ st then s
    else
      let y := s.ownRead st b (g.1 + e.off) e.size (if has bad p.2 then .ue else .ok) 1
      if y.2.isSome then y.1.badEntry b e
      else
        let s := y.1.ownWrite st b e.addr e.bytes
        if e.kind = 1 then
          match j.touched.find? fun x => x.st == st && x.waddr == e.addr with
          | some x => s.emberWrite st b x.key e.bytes
          | none => s
        else s) s
/-- A stove's ember entries for rows given up, and every replica of rows moved, are discarded (R176, R195); a MOVE moves no relayed
row. -/
def State.dropRows (s : State) (b : Nat) (gone : Nat → Bool) (hit : Key → Bool) : State :=
  { s with em := { s.em with
    embers := s.em.embers.filter fun e => !(e.slot == b && gone e.st && hit e.key)
    missed := s.em.missed.filter fun e => !(e.2.1 == b && gone e.1 && hit e.2.2)
    replicas := s.em.replicas.filter fun r => !(r.slot == b && hit r.key) } }
/-- Applies a MOVE at commit (R194, R195). -/
def State.applyMove (s : State) (b : Nat) (o : Order) : State :=
  let old := hlist (s.oldHolders b o)
  let new := hlist (holdersOf o.holders)
  let role := fun (l : List (Nat × Nat)) (p : (Nat × Nat) × Nat) => l.zipIdx.any fun q => q.1 == p.1 && (q.2 == 0) == (p.2 == 0)
  let mine := fun (l : List (Nat × Nat)) => l.zipIdx.filter fun p => s.isMe p.1.1
  let entries := s.ownEntries b o.table o.shard
  let owner := (new.head?.map fun h => s.isMe h.1).getD false
  let s := s.ownWrite 0 b (s.mapBase 0 b + 0x01000000 + 0x80000 * o.table + 8 * o.shard) (leBytes 8 (o.holders + 2 ^ 63))
  let s := ((mine old).filter fun p => !role new p).foldl (fun s p =>
    s.setDirValid p.1.2 b (s.tdesc p.1.2 b o.table) (p.2 != 0) o.shard false) s
  let s := ((mine new).filter fun p => !role old p).foldl (fun s p =>
    s.setDirValid p.1.2 b (s.tdesc p.1.2 b o.table) (p.2 != 0) o.shard true) s
  let s := if (mine old).isEmpty ∨ owner then s
    else (entries.filter fun e => !((hlist (ovHolders e)).any fun h => s.isMe h.1)).foldl (fun s e => s.ovDelete 0 b (ovKey e)) s
  let ships := (s.job b).ships.filter fun x => x.2.table == o.table && shardOf ⟨x.2.table, x.2.row⟩ == o.shard
  let s := if owner then ships.foldl (fun s x => s.ovInstall 0 b ⟨x.2.table, x.2.row⟩ x.2.working) s else s
  let keep := fun (st : Nat) => new.head? == some (s.fb.lid.getD 0, st) && owner
  s.dropRows b (fun st => !(keep st)) fun k => k.table == o.table && shardOf k == o.shard && !s.isAway b k
/-- Applies a RELAY or a RETURN at commit (R194, R195). -/
def State.applyRow (s : State) (b : Nat) (o : Order) : State :=
  let new := s.newHolders b o
  let takes := o.isRelay && (s.holdsAny new || s.mapOwner b o)
  let e := ovBytes o.key false false (new.getD ⟨0, 0, []⟩) (o.addrs.flatMap fun a => leBytes 8 a.1 ++ leBytes 8 a.2)
  let s := if takes then s.ovInstall 0 b o.key e else s.ovDelete 0 b o.key
  let left := s.em.away.filter fun p => p != (b, o.key)
  let s : State := { s with em := { s.em with away := if o.isRelay then left ++ [(b, o.key)] else left } }
  let keep := fun (st : Nat) => (hlist new).head? == some (s.fb.lid.getD 0, st) && s.fb.lid.isSome
  s.dropRows b (fun st => !(keep st)) fun k => k == o.key
/-- Applies an order. -/
def State.applyOrder (s : State) (b : Nat) (o : Order) : State := if o.isMove then s.applyMove b o else s.applyRow b o

/-- Halves a stove's ember counters (R175). -/
def State.halveEmbers (s : State) (st : Nat) : State :=
  let sk := (s.em.sketch.filter fun p => p.1 / 65536 == st).foldl (fun t p => tabSet (fun _ => 0) t p.1 (p.2 / 2)) s.em.sketch
  ({ s with em := { s.em with
    embers := s.em.embers.map fun e => if e.st = st then { e with freq := e.freq / 2 } else e, sketch := sk } } : State).bumpWrap
    st Reg.EMB_EC_DECAYS 1
/-- Is the first entry to be chosen before the second (R176)? -/
def Ember.before (x y : Ember) : Bool :=
  decide (x.freq > y.freq) || (x.freq == y.freq && decide (x.key.table < y.key.table ∨
    (x.key.table = y.key.table ∧ x.key.row ≤ y.key.row)))
/-- Broadcasts a stove's replica set for an epoch (R176). -/
def State.sendReplicas (s : State) (st b epoch : Nat) : State :=
  if !bitOf (s.rdN st Reg.EMB_EC_CTRL) 1 then s
  else
    let set := ((s.em.embers.filter fun e => e.st == st && e.slot == b && decide (e.freq ≥ s.rdN st Reg.EMB_EC_REPL_THR)).mergeSort
      Ember.before).take (s.rdN st Reg.EMB_EC_REPL_MAX)
    let to_ := (s.members b).flatMap fun l => (List.range 4).map fun x => (l, x)
    set.foldl (fun s e =>
      (to_.filter fun t => !(s.isMe t.1 && t.2 == st)).foldl (fun s t =>
        s.send (some b) 0x14 t.1 [keyArg e.key (4 + t.2)] e.bytes 0 (some epoch)) s) s

-- Audit (R212)

/-- An item of an audit: a slot of a shard array, a relayed row, or a unit of a dense entry. -/
inductive AuditItem where
  | row (b table sh : Nat) (mirror : Bool) (q : Nat)
  | relayed (b : Nat) (k : Key)
  | unit (b j r c n : Nat)
deriving DecidableEq, Repr
/-- The relayed rows that a stove holds by its module's override table. -/
def State.relayedRows (s : State) (st b : Nat) : List Key :=
  (List.range 65536).filterMap fun u =>
    let e := s.jrdN st b (s.mapBase st b + 0x1000 + 64 * u) 64
    if ovValid e && !ovLearned e && (s.heldAt st b (ovKey e)).isSome then some (ovKey e) else none
/-- Everything that the audits of a stove walk through for a slot, in order. -/
def State.auditItems (s : State) (st b : Nat) : List AuditItem :=
  ((List.range 4096).flatMap fun t =>
    let d := s.tdesc st b t
    if !d.valid then []
    else
      (List.range 65536).flatMap fun sh => [false, true].flatMap fun mir =>
        if (s.dirEnt st b d mir sh).valid then
          (List.range d.slotsOf).filterMap fun q =>
            let k : Key := ⟨t, rowIn t q sh⟩
            if k.row ≥ d.rows ∨ (s.ovOwn st b k).isSome ∨ s.isAway b k then none else some (.row b t sh mir q)
        else []) ++
    ((s.relayedRows st b).map fun k => .relayed b k) ++
    (List.range (s.plan st b).2).flatMap fun j =>
      let d := s.dense st b j
      if d.broken then []
      else (d.units.filter fun u => rbHome (d.gelem u.1 u.2.1) == st).map fun u => .unit b j u.1 u.2.1 u.2.2
/-- An audit rewrites a working record (R212). -/
def State.auditMiss (s : State) (st b : Nat) (k : Key) : State :=
  ((s.swpLog st 0x0D b 0 k.table (shardOf k) k.row 0).raise st 0x80 10).bump st Reg.SWP_AUDIT_MISMATCH 1
/-- Audits a row whose records lie at two addresses; its master is read with what the read meets (R212, R215). -/
def State.auditRow (s : State) (st b : Nat) (k : Key) (w m : Nat) (bad : List Key) : State :=
  let d := s.tdesc st b k.table
  let y := s.ownRead st b m d.mrec (if bad.contains k then .ue else .ok) 1
  let rec_ := s.jrdN st b m d.mrec
  if y.2.isSome || !sealOk k rec_ then y.1.startRepair st b k w m false
  else
    let x := d.working (d.masterVals rec_)
    let s := (y.1.ownRead st b w d.wrec .ok 1).1.tally st b d.fmt .wt x.2
    if s.jrdN st b w d.wrec = x.1 then s else ((s.ownWrite st b w x.1).emberWrite st b k x.1).auditMiss st b k
/-- Audits one item. -/
def State.audit (s : State) (st : Nat) (bad : List Key) : AuditItem → State
  | .row b t sh mir q =>
    let d := s.tdesc st b t
    let e := s.dirEnt st b d mir sh
    let k : Key := ⟨t, rowIn t q sh⟩
    s.auditRow st b k (e.wbase + q * d.wrec) (e.mbase + q * d.mrec) bad
  | .relayed b k =>
    match s.heldAt st b k with
    | some (w, m, _) => s.auditRow st b k w m bad
    | none => s
  | .unit b j r c n =>
    let d := s.dense st b j
    let cx := (s.tdir st b).1
    let rows := (List.range (min 8 (d.m.rows - 8 * (r / 8)))).map (· + 8 * (r / 8))
    let cols := (List.range n).map (· + c)
    let y := s.storeItems cx d.w (fun _ => none) (rows.flatMap fun a => cols.map fun k => (a, k, s.valAt cx d.m a k))
    let z := s.tally st b d.w.fmt .wt y.2
    if y.1.mem = s.mem then z
    else ((({ z with mem := y.1.mem } : State).swpLog st 0x0D b 0 j 0 0 0).raise st 0x80 10).bump st Reg.SWP_AUDIT_MISMATCH 1
/-- Audits from the cursor on, so many items. -/
def State.auditRun (s : State) (st : Nat) (bad : List Key) (l : List AuditItem) : Nat → State
  | 0 => s
  | n + 1 =>
    let i := s.rdN st Reg.SWP_AUDIT_CURSOR
    match l[i]? with
    | none => s
    | some x =>
      let s := (s.audit st bad x).bump st Reg.SWP_AUDIT_DONE 1
      (s.wr st Reg.SWP_AUDIT_CURSOR (w32 (if i + 1 ≥ l.length then 0 else i + 1))).auditRun st bad l n
/-- The audit after an install, over every enabled slot of the stove: of its ROWS rows it comes to `n` before the next verdict stops it. -/
def State.auditAll (s : State) (st slot n : Nat) (bad : List Key) : State :=
  let c := s.rd st Reg.SWP_AUDIT_CTRL
  if !bitOf c.toNat 0 then s
  else
    let rows := fld c 31 16
    let l := ((List.range 8).filter fun b => bitOf (s.swpCtrl st b).toNat 0).flatMap fun b => s.auditItems st b
    let s := if s.rdN st Reg.SWP_AUDIT_CURSOR ≥ l.length then s.wr st Reg.SWP_AUDIT_CURSOR 0 else s
    let s := s.auditRun st bad l (min rows n)
    if n < rows then { s with sw := { s.sw with auditing := tabSet (fun _ => 0) s.sw.auditing st (slot + 1) } } else s

/-- SWEEP_COMMIT: install, then audit (R175, R176, R194, R195, R212, R222). -/
def execSweepCommit (slot : Nat) (e : CommitErr) (s : State) : Res :=
  let j := s.job slot
  if !j.inStep ∨ j.phase ≠ 3 then .next s
  else
    let n := (j.step + 1) % 2 ^ 48
    let four := fun (s : State) (f : State → Nat → State) => (List.range 4).foldl f s
    let s := four s fun s st => s.copyLog slot st e.log
    let s := if j.dropped then s else (j.orders.map orderOf).foldl (fun s o => s.applyOrder slot o) s
    let s := four s fun s st => (s.halveEmbers st).sendReplicas st slot n
    let s := { s with em := { s.em with replicas := s.em.replicas.filter fun r => r.slot != slot || r.epoch == n } }
    let s := s.resolve slot 0
    let s := { s with sw := { s.sw with denseDigest := tabSet (fun _ => 0) s.sw.denseDigest slot j.newDense } }
    let s := four s fun s st =>
      let s := (s.setEpoch st slot n).ownWrite st slot (s.mapBase st slot) (leBytes 6 n)
      let s := if bitOf (s.swpCtrl st slot).toNat 2 then s.sendIrq st 0x80 else s
      s.releaseHeld st slot
    let s := s.loansAtCommit slot
    .next ((four s fun s st =>
      s.auditAll st slot (nth 0 e.audited st) ((e.audit.filter fun p => p.1 == st).map (·.2))).startQueue)

/-- VOTE_RESULT: every member has voted (R221). -/
def execVoteResult (slot : Nat) (s : State) : Res :=
  let j := s.job slot
  let all := (s.members slot).all fun l => j.votes.any fun v => v.1 == l
  if !j.inStep ∨ j.phase ≠ 2 ∨ !all then .next s
  else if j.votes.any fun v => v.2.2 then .next (s.resolve slot 1).startQueue
  else if j.votes.any fun v => v.2.1 then .next (s.resolve slot 2).startQueue
  else .next (s.setJob slot { j with phase := 3 })

/-- VOTE_TIMEOUT (R18, R221). -/
def execVoteTimeout (slot : Nat) (s : State) : Res :=
  let j := s.job slot
  if !j.inStep ∨ !(j.phase = 1 ∨ j.phase = 2) ∨ s.sw.queue.any fun w => w.slot == slot && w.skip.isSome then .next s
  else .next (((s.colLog 6 slot 0 0 0 0 j.step).raise 4 0xE0 3).resolve slot 3).startQueue

end Sys2Proof.Machine
end

