-- ==== Sys2Proof/Machine/HostIf.lean ====
section
/-! DEFINITION. The host coupling: descriptor rings and what their descriptors do, doorbells, flash commands, stops and peers (R9, R19,
R45, R261 to R279). -/

namespace Sys2Proof.Machine

/-- A record of a UCI link or ring page (R279). -/
def State.uciLog (s : State) (die page code ctx index type value m : Nat) : State :=
  s.logErr die page ⟨pack [(code, 0), (ctx, 8)], pack [(index % 2 ^ 17, 0), (type, 24)], w32 value, pack [(m, 0)]⟩

-- Ring configuration (R266)

/-- A refused ring configuration. -/
def State.ringRefuse (s : State) (st c v : Nat) : State := (s.uciLog st 0xC8 9 c 0 0 v 0).raise st 0xC8 5
/-- The context that UCI_RING_IDX names. -/
def State.ringCtx (s : State) (st : Nat) : Nat := 1024 * st + fld (s.rd st Reg.UCI_RING_IDX) 9 0
/-- Does a range of module addresses lie wholly in HBM in service, or wholly in the host partition (R266)? -/
def State.ringRange (s : State) (a n : Nat) : Bool :=
  let e := a + n - 1
  (s.inHost a && s.inHost e) ||
    (s.inHbm a && s.inHbm e && (List.range (e / hbmRegion - a / hbmRegion)).all fun k =>
      s.hbmBytes (a / hbmRegion + k) == hbmRegion)
/-- Is SIZE a power of two from 2 to 65,536? -/
def ringSizeOk (n : Nat) : Bool := (List.range 16).any fun k => n == 2 ^ (k + 1)

/-- A write of UCI_RING_CMD.WRITE (R266). -/
def execRingWrite (ag : Agent) (st : Nat) (s : State) : Res :=
  match s.regGuard ag st 0xC8 1 with
  | (s, false) => .next s
  | (s, true) =>
    let c := s.ringCtx st
    let r := s.ring c
    let w0 := s.rd st Reg.UCI_RING_W0
    let on := bitOf w0.toNat 0
    let w2 := s.rd st Reg.UCI_RING_W2
    let n := fld w0 17 1
    let base := s.rdN st Reg.UCI_RING_W1 + 2 ^ 32 * fld w2 15 0
    let cpl := s.rdN st Reg.UCI_RING_W3 + 2 ^ 32 * fld w2 31 16
    let words : Ring := { size := n, base := base, cplBase := cpl, msg := s.rd st Reg.UCI_RING_MSG,
                          tgt := fld (s.rd st Reg.UCI_RING_TGT) 3 0 }
    if r.enable then
      if on then .next (s.ringRefuse st c w0.toNat)
      else .next (s.setRing c (if r.cur.isSome ∨ r.cplIrq.isSome then { r with closing := true }
        else { r with enable := false, fetching := false, staleWait := false, tries := 0 }))
    else if !on then .next (s.setRing c words)
    else if base % 64 ≠ 0 ∨ cpl % 64 ≠ 0 ∨ !ringSizeOk n ∨ !s.ringRange base (64 * n) ∨ !s.ringRange cpl (16 * n) ∨
        !(s.ctx c).valid then .next (s.ringRefuse st c w0.toNat)
    else .next (s.setRing c { words with enable := true, gen := 1 })

/-- A write of UCI_RING_CMD.READ: the ring's words appear in the window (R266). -/
def execRingRead (ag : Agent) (st : Nat) (s : State) : Res :=
  match s.regGuard ag st 0xC8 2 with
  | (s, false) => .next s
  | (s, true) =>
    let r := s.ring (s.ringCtx st)
    let s := (s.wr st Reg.UCI_RING_W0 (pack [(b2n r.enable, 0), (r.size, 1)])).wr st Reg.UCI_RING_W1 (w32 r.base)
    let s := (s.wr st Reg.UCI_RING_W2 (pack [(r.base / 2 ^ 32, 0), (r.cplBase / 2 ^ 32, 16)])).wr st Reg.UCI_RING_W3
      (w32 r.cplBase)
    .next ((s.wr st Reg.UCI_RING_MSG r.msg).wr st Reg.UCI_RING_TGT (w32 r.tgt))

-- Doorbells and descriptor reads (R272, R273)

/-- A doorbell (R272). The count of the ignored ones has no register. -/
def execDoorbell (ag : Agent) (ctx : Nat) (value : W32) (s : State) : Res :=
  let st := stoveOf ctx
  match s.regGuard ag st (0xCC + ctx % 1024 / 256) value with
  | (s, false) => .next s
  | (s, true) =>
    let r := s.ring ctx
    let t := fld value 16 0
    if !r.enable ∨ t ≥ r.size ∨ t = r.head then
      let s : State := { s with uc := { s.uc with
        ignored := tabSet (fun _ => 0) s.uc.ignored st (tabGet (fun _ => 0) s.uc.ignored st + 1) } }
      .next ((s.uciLog st 0xC8 1 ctx t 0 t 0).raise st 0xC8 2)
    else .next ((s.wakeStove st).setRing ctx { r with
      tail := t, fetching := true, staleWait := false, tries := if r.staleWait then 0 else r.tries })

/-- A ring begins no descriptor while one is in progress or the context is faulted (R270). -/
def State.ringReady (s : State) (c : Nat) : Bool :=
  let r := s.ring c
  r.enable && r.fetching && r.cur.isNone && r.cplIrq.isNone && !r.closing && r.head != r.tail && (s.ctx c).state != 4
/-- TYPE of a descriptor. -/
def descType (d : List Byte) : Nat := leAt d 0 1
/-- ARG of a descriptor. -/
def descArg (d : List Byte) : Nat := leAt d 4 4
/-- ARG2 of a descriptor. -/
def descArg2 (d : List Byte) : Nat := leAt d 0x38 4

/-- The descriptor in progress ends: its completion record is written, where it asks for one (R271); a write that the memory does not take
faults the context, and no message follows (R241, R263). -/
def State.descDone (s : State) (c status detail : Nat) : State :=
  let r := s.ring c
  match r.cur with
  | none => s
  | some d =>
    let r := { r with cur := none }
    if bitOf (leAt d 1 1) 0 then
      let rec_ := leBytes 2 (leAt d 0x3E 2) ++ leBytes 1 status ++ leBytes 1 (descType d) ++ leBytes 2 (leAt d 2 2) ++ [0, 0] ++
        leBytes 8 detail
      match s.addrWrite (stoveOf c) (r.cplBase + 16 * r.curIndex) rec_ with
      | (s, none) => s.setRing c { r with cplIrq := some (bitOf (leAt d 1 1) 1) }
      | (s, some b) =>
        (s.setRing c (if r.closing then { r with closing := false, enable := false, fetching := false } else r)).denied
          ⟨stoveOf c, 0, 0, c, 0⟩ b true
    else s.setRing c (if r.closing then { r with closing := false, enable := false, fetching := false } else r)
/-- The descriptor in progress is rejected whole (R270). -/
def State.descReject (s : State) (c status code detail : Nat) : State :=
  let st := stoveOf c
  let r := s.ring c
  let t := (r.cur.map descType).getD 0
  (((s.uciLog st 0xC8 code c r.curIndex t detail 0).bump st Reg.UCI_REJECT_TOTAL 1).raise st 0xC8 1).descDone c status detail

/-- Accepts a descriptor that matches: TAG, HEAD and GEN go on; a TYPE that is not listed is rejected (R270, R273). -/
def State.accept (s : State) (c : Nat) (d : List Byte) : State :=
  let r := s.ring c
  let h := (r.head + 1) % r.size
  let s := s.setRing c { r with
    cur := some d, curIndex := r.head, head := h, tag := (r.tag + 1) % 65536, tries := 0
    gen := if h = 0 then 1 - r.gen else r.gen, fetching := h != r.tail }
  if 1 ≤ descType d ∧ descType d ≤ 5 then s else s.descReject c 4 3 (descType d)
/-- One read of the descriptor at HEAD, in the latency-critical class (R236, R273). A descriptor that cannot be had faults the context, whose
ring stops there (R241, R263). -/
def State.readDesc (s : State) (c : Nat) : State :=
  let r := s.ring c
  let st := stoveOf c
  let a := r.base + 64 * r.head
  let d := s.mrdN a 64
  match s.addrRead st a 64 0 with
  | (s, some b) => s.denied ⟨st, 0, 0, c, 0⟩ b false
  | (s, none) =>
  if leAt d 0x3E 2 = r.tag ∧ leAt d 0x3C 1 % 2 = r.gen then s.accept c d
  else if r.tries ≥ 8 then
    (((s.setRing c { r with tries := 0, staleWait := true, fetching := false }).uciLog st 0xC8 2 c r.head 0 0 0).bump st
      Reg.UCI_STALE_TOTAL 1).raise st 0xC8 0
  else s.setRing c { r with tries := r.tries + 1 }

/-- DESCRIPTOR_FETCH: the first read of the descriptor at HEAD (R273). -/
def execDescriptorFetch (ctx : Nat) (s : State) : Res :=
  .next (if s.ringReady ctx ∧ (s.ring ctx).tries = 0 then s.readDesc ctx else s)
/-- DESCRIPTOR_REREAD: a back-off has expired (R273). -/
def execDescriptorReread (ctx : Nat) (s : State) : Res :=
  .next (if s.ringReady ctx ∧ (s.ring ctx).tries ≠ 0 then s.readDesc ctx else s)

-- The checks of a descriptor (R270)

/-- The first word of a descriptor that holds a reserved bit that is not zero: the header's, ARG or ARG2. -/
def descReserved (d : List Byte) : Option Nat :=
  let w := leAt d 0 4
  let g := leAt d 0x3C 4
  let a := descArg d
  let b := descArg2 d
  let bad := match descType d with
    | 1 => (a / 2 ^ 18, b)
    | 2 => (a / 2 ^ 9, b / 2 ^ 16)
    | 3 => (a / 2 ^ 7, if bitOf a 6 then 0 else b / 2 ^ 29)
    | 4 => (bits a 15 5, b)
    | _ => (a, b)
  (([(bits w 15 10, w), (bad.1, a), (bad.2, b), (bits g 15 1, g)] : List (Nat × Nat)).find? fun p => p.1 != 0).map (·.2)
/-- The limit of R270 that a descriptor's NREG, LEN or PASSES breaks: the value. -/
def descLimit (d : List Byte) : Option Nat :=
  let a := descArg d
  match descType d with
  | 1 => if bits a 17 14 > 12 then some (bits a 17 14) else none
  | 2 => if bits a 8 0 > 256 then some (bits a 8 0) else none
  | 3 => if bits a 5 0 > (if bitOf a 6 then 46 else 48) then some (bits a 5 0) else none
  | _ => none
/-- The first of the checks that need no state: status, code and value. -/
def descStatic (d : List Byte) : Option (Nat × Nat × Nat) :=
  match descReserved d with
  | some v => some (4, 3, v)
  | none =>
  if bitOf (leAt d 1 1) 1 ∧ !bitOf (leAt d 1 1) 0 then some (4, 3, leAt d 0 4)
  else (descLimit d).map fun v => (1, 3, v)
/-- The descriptor in progress of a context's ring, where it has a type. -/
def State.curDesc (s : State) (c type : Nat) : Option (List Byte) :=
  match (s.ring c).cur with
  | some d => if descType d = type ∧ (s.ctx c).state ≠ 4 then some d else none
  | none => none

/-- RUN: writes scalar registers and starts a sequencer (R268, R270). -/
def execRun (ctx : Nat) (s : State) : Res :=
  match s.curDesc ctx 1 with
  | none => .next s
  | some d =>
    let x := s.ctx ctx
    let st := stoveOf ctx
    let a := descArg d
    if !x.isBound ∨ x.rebind then .next s
    else
      match descStatic d with
      | some (status, code, v) => .next (s.descReject ctx status code v)
      | none =>
        let n := nth 0 x.seqs (bits a 5 0)
        let nreg := bits a 17 14
        let q := s.seq st n
        let running := decide (1 ≤ q.state ∧ q.state ≤ 4)
        if bits a 5 0 ≥ x.bound.seqs ∨ (s.startReason st ctx (bits a 10 6) (bits a 13 11) x.bound.granules).isSome then
          .next (s.descReject ctx 3 5 a)
        else if running ∧ nreg ≠ 0 then .next (s.descReject ctx 3 5 a)
        else if running then .next (s.descDone ctx 0 0)
        else
          let s := s.modSeq st n fun q =>
            (List.range nreg).foldl (fun q k => q.setSreg (k + 1) (w32 (leAt d (8 + 4 * k) 4))) q
          .next (((s.modCtx ctx fun x => { x with state := 2 }).startSeq st n ctx (bits a 10 6) (bits a 13 11)).descDone ctx 0 0)

/-- The unit of memory, 8 bytes of scratchpad, a sector, or 64 bytes of cold tier, that an INLINE at `a` first fills in part, by the offset of
one of its bytes (R105, R228, R230). -/
def partByte (k a n : Nat) : Option Nat := if n = 0 then none else if a % k ≠ 0 then some 0 else if (a + n) % k ≠ 0 then some (n - 1) else none
/-- What an INLINE meets in the unit that it merges into first: the state, and whether it goes on. -/
def State.inlineMeets (s : State) (x : Src) (v : View) (n : Nat) (e : Ecc) : State × Bool :=
  match partByte (if v.place = .spd then 8 else if s.inCold (s.byteAddr x.ctx v 0) then 64 else 32) v.addr n with
  | some o => s.readEcc x v o e 4 0 true
  | none => (s, true)
/-- INLINE: writes up to 48 bytes to the window or to virtual memory (R268, R270). One that meets what keeps it from memory faults its
context, whose ring stops there (R105, R106, R228, R240, R241). -/
def execInlineI (met : Met Nat) (s : State) : Res :=
  let ctx := met.val
  match s.curDesc ctx 3 with
  | none => .next s
  | some d =>
    let x := s.ctx ctx
    let src : Src := ⟨stoveOf ctx, 0, 0, ctx, 0⟩
    let st := stoveOf ctx
    let a := descArg d
    if !x.isBound ∨ x.rebind then .next s
    else
      match descStatic d with
      | some (status, code, v) => .next (s.descReject ctx status code v)
      | none =>
        let n := bits a 5 0
        let bytes := (d.drop 8).take n
        if bitOf a 6 then
          let va := descArg2 d + 2 ^ 32 * leAt d (8 + 46) 2
          if !s.mapped ctx va n true then .next (s.descReject ctx 2 4 va)
          else if s.guarded ctx va n then .next ((s.evalWrite ⟨st, 0, 0, ctx, 0⟩).descReject ctx 3 5 va)
          else
            match s.memBad st ctx [(va, n)] true with
            | some b => .next (s.denied ⟨st, 0, 0, ctx, 0⟩ b true)
            | none =>
              match s.inlineMeets src { place := .virt, addr := va } n met.ecc with
              | (s, false) => .next s
              | (s, true) => .next (((s.vwrN ctx va bytes).reachW ctx [(va, n)]).descDone ctx 0 0)
        else
          let o := descArg2 d
          if o + n > s.window ctx ∨ s.hitsLift ctx o n then .next (s.descReject ctx 2 4 o)
          else if (s.linesOf ctx [(o, n)]).any fun l => (s.tag st l).pending then .next (s.descReject ctx 3 5 o)
          else
            let v : View := { place := .spd, addr := o }
            let words := fun (l : List Nat) => l.filterMap (s.winAddr ctx)
            let parts := words (partWords o n)
            match parts.find? (has s.tr.bad ·) with
            | some w => .next (s.denied src (.spd w 4) true)
            | none =>
              match s.inlineMeets src v n met.ecc with
              | (s, false) => .next s
              | (s, true) =>
                let whole := (words ((List.range ((o + n + 7) / 8 - o / 8)).map fun k => 8 * (o / 8 + k))).filter fun w => !has parts w
                let s : State := { s with tr := { s.tr with bad := s.tr.bad.filter fun w => !has whole w } }
                .next ((s.putBytes ctx v 0 bytes).descDone ctx 0 0)

/-- POST: adds to a semaphore (R86, R268). -/
def execPost (ctx : Nat) (s : State) : Res :=
  match s.curDesc ctx 4 with
  | none => .next s
  | some d =>
    match descStatic d with
    | some (status, code, v) => .next (s.descReject ctx status code v)
    | none =>
      let a := descArg d
      .next ((s.semPost ⟨stoveOf ctx, 0, 0, ctx, 0⟩ (bits a 4 0) (bits a 31 16)).descDone ctx 0 0)

/-- NOTE: does nothing but complete (R268). -/
def execNote (ctx : Nat) (s : State) : Res :=
  match s.curDesc ctx 5 with
  | none => .next s
  | some d =>
    match descStatic d with
    | some (status, code, v) => .next (s.descReject ctx status code v)
    | none => .next (s.descDone ctx 0 0)

-- STEP (R9, R17, R45, R210, R269, R294)

/-- A step begins on the module: banks, the held taint, CSEQ (R17, R45, R294). -/
def State.beginStep (s : State) (b step passes : Nat) : State :=
  let j := s.job b
  let s := s.rotateBanks b
  let s := s.setCjob b { s.cjob b with cseq := 0 }
  let abort := s.fb.early.any fun e => e.op == 16 && e.slot == b && e.step == step
  s.setJob b { inStep := true, step := step, passes := passes, taint := j.heldTaint || abort, abortSeen := abort, contrib := j.contrib, outcome := j.outcome }
/-- Checks the STEP at the head of a ring and acts on it, or leaves it waiting (R268 to R270). -/
def State.tryStep (s : State) (c : Nat) : State :=
  match s.curDesc c 2 with
  | none => s
  | some d =>
    let st := stoveOf c
    let x := s.ctx c
    let n := bits (descArg d) 8 0
    let step := leAt d 8 4 + 2 ^ 32 * (descArg2 d % 65536)
    match descStatic d with
    | some (status, code, v) =>
      let s := if status = 1 then (s.stkLog st 2 0 0 c v).raise st 0xB0 9 else s
      s.descReject c status code v
    | none =>
      let b := x.slot
      let j := s.job b
      if !x.isJob ∨ !bitOf (s.swpCtrl st b).toNat 0 then s.descReject c 3 6 step
      else if (List.range 4).any fun t => !bitOf (s.swpCtrl t b).toNat 0 then s
      else if j.inStep then
        if step = j.step then (if n = j.passes ∨ n = 0 then s.descDone c 0 0 else s.descReject c 3 6 step) else s
      else if step ≠ s.nextStep st b then s.descReject c 3 6 step
      else if n = 0 then s.descDone c 0 0
      else (s.beginStep b step n).descDone c 0 0

/-- STEP: a STEP descriptor reaches the head of its ring (R269). -/
def execStep (ctx : Nat) (s : State) : Res := .next (s.tryStep ctx)
/-- STEP_WAIT_RESUME: a waiting STEP is checked again (R269). -/
def execStepWaitResume (ctx : Nat) (s : State) : Res := .next (s.tryStep ctx)

/-- COMPLETION_RECORD_ACK: the record's write is acknowledged; the ring's message follows (R271). -/
def execCompletionRecordAck (ctx : Nat) (s : State) : Res :=
  let r := s.ring ctx
  let st := stoveOf ctx
  match r.cplIrq with
  | none => .next s
  | some irq =>
    let a := s.rdAddr st (Reg.UCI_TGT_t_LO + 16 * r.tgt) (Reg.UCI_TGT_t_HI + 16 * r.tgt)
    let s := if irq then s.emit (.irq a r.msg) else s
    let r := { r with cplIrq := none }
    .next (s.setRing ctx (if r.closing then { r with closing := false, enable := false, fetching := false } else r))

-- Flash commands (R274, R275)

/-- CMD. -/
def flashCmd (b : List Byte) : Nat := leAt b 0 1
/-- SERIAL. -/
def flashSerial (b : List Byte) : Nat := leAt b 4 4
/-- The completion of a flash command and its message (R274); a record that the memory does not take is logged as a failed write, and no
message announces it. -/
def State.flashDone (s : State) (st : Nat) (b : List Byte) (status : Nat) : State :=
  let hi := s.rd st Reg.UCI_FLASH_CPL_HI
  let a := s.rdN st Reg.UCI_FLASH_CPL_LO + 2 ^ 32 * fld hi 15 0 + 16 * (flashSerial b % 256)
  let t := fld hi 19 16
  match s.addrWrite st a (leBytes 4 (flashSerial b) ++ leBytes 1 (flashCmd b) ++ leBytes 1 status ++ List.replicate 10 0) with
  | (s, none) =>
    s.emit (.irq (s.rdAddr st (Reg.UCI_TGT_t_LO + 16 * t) (Reg.UCI_TGT_t_HI + 16 * t)) (s.rd st Reg.UCI_FLASH_MSG))
  | (s, some b) => s.hostDenied true b
/-- A refused flash command. -/
def State.flashRefuse (s : State) (st : Nat) (b : List Byte) : State :=
  ((s.uciLog st 0xC8 8 0 (flashSerial b) (flashCmd b) (leAt b 0 4) 0).raise st 0xC8 4).flashDone st b 1
/-- Is a reserved bit of a command set? A stand-in directive alone uses bytes from 0x10 on (R274, R302). -/
def flashReserved (b : List Byte) : Bool :=
  let tail := if flashCmd b = 3 then leAt b 0x10 4 / 4096 + leAt b 0x18 4 / 4096 + leAt b 0x1C 4 / 256 + leAt b 0x20 32
    else leAt b 0x10 48
  bitOf (leAt b 0 4) 23 || decide (leAt b 8 8 + tail ≠ 0)

/-- FLASH_MAILBOX_STORE: from the host die, or from the kindler, whose writes are accepted wherever the runtime's are (R274, R336). -/
def execFlashMailboxStore (ag : Agent) (st : Nat) (data : List Byte) (s : State) : Res :=
  match s.pageGuard ag st 0xC8 0 with
  | (s, false) => .next s
  | (s, true) =>
    let held := s.flash st
    if (ag ≠ .runtime ∧ ag ≠ .kindler) ∨ data.length ≠ 64 then .next (s.uciLog st 0xC8 0x0A 0 0 0 (leAt data 0 4) 0)
    else if held.length ≥ 4 then
      let w := s.rd st Reg.UCI_FLASH_STATUS
      let s := s.wr st Reg.UCI_FLASH_STATUS (setFld w 31 8 (satAdd 0xFFFFFF (fld w 31 8) 1))
      .next ((s.uciLog st 0xC8 7 0 (flashSerial data) (flashCmd data) (leAt data 0 4) 0).raise st 0xC8 3)
    else .next ((s.wakeStove st).setFlash st (held ++ [⟨data⟩]))

/-- Takes the command at the front of a mailbox at a beat tick, where it is of a kind; one of no kind is refused. None is taken while the
stove re-binds a context, or is not Lit (R250, R255, R276). -/
def State.takeFlash (s : State) (st cmd : Nat) (f : State → List Byte → State) : State :=
  match s.flash st with
  | [] => s
  | x :: t =>
    if s.rebinding st ∨ !s.lit st then s
    else
    let s' := s.setFlash st t
    if flashCmd x.bytes = cmd then (if flashReserved x.bytes then s'.flashRefuse st x.bytes else f s' x.bytes)
    else if flashCmd x.bytes = 0 ∨ flashCmd x.bytes > 3 then s'.flashRefuse st x.bytes
    else s

/-- STOP_NOW (R19, R275, R297): the context's sequencers are held and its units stop at their next beat boundaries. -/
def execStopNow (st : Nat) (s : State) : Res :=
  .next (s.takeFlash st 1 fun s b =>
    let c := bits (leAt b 0 4) 19 8
    let x := s.ctx c
    if !x.valid ∨ stoveOf c ≠ st then s.flashRefuse st b
    else if x.state = 2 then
      let s := if x.stopping.isSome then s else s.stopBegin c 1
      { s with uc := { s.uc with stops := s.uc.stops ++ [(c, b)] } }
    else
      let j := s.job x.slot
      (if x.isJob && !(j.inStep && j.sent) then ((s.stkLog st 6 0 0 c 0).taint x.slot).abortJob x.slot else s).flashDone st b 0)

/-- STOP_NOW_COMPLETE: every unit of a context that is being stopped has stopped (R258, R275). -/
def execStopNowComplete (ctx : Nat) (s : State) : Res :=
  let st := stoveOf ctx
  match (s.ctx ctx).stopping with
  | none => .next s
  | some why =>
    if !s.unitsStill ctx then .next s
    else
      let s := s.stopCtx ctx
      let s := if why = 0 then s.stkDone st ctx else s
      let mine := s.uc.stops.filter fun p => p.1 == ctx
      let s := mine.foldl (fun s p => s.flashDone st p.2 0) { s with uc := { s.uc with stops := s.uc.stops.filter fun p => p.1 != ctx } }
      .next (s.passLoan ctx)

/-- LOSS_SCALE_OVERRIDE (R208, R275). -/
def execLossScaleOverride (st : Nat) (s : State) : Res :=
  .next (s.takeFlash st 2 fun s b =>
    let k := bits (leAt b 0 4) 22 20
    if !bitOf (s.swpCtrl st k).toNat 0 then s.flashRefuse st b
    else
      ((List.range 4).foldl (fun s t => s.setDamper t k { s.damper t k with override := some (leAt b 3 1) }) s).flashDone st b 0)

-- Peers (R278)

/-- PEER_ACCESS: a peer's read of as many bytes as `d.data` has, or its write of them; `d.across` says that the address, as the host die
translates it, is the other root port's. One outside the host partition is answered with an Unsupported Request, counted and logged by
the host die (R278). One whose data cannot be had, or whose chimney the host die does not reach, gets an error completion (R241, R263). -/
def execPeerAccess (port addr : Nat) (write : Bool) (d : PeerData) (s : State) : Res :=
  let n := d.data.length
  if d.across then .next (s.emit (.across (1 - port) addr write d.data))
  else if n ≠ 0 ∧ s.inHost addr ∧ s.inHost (addr + n - 1) then
    match (s.hostUnits addr n).findSome? fun u => s.hostBad addr n u write with
    | some b => .next ((s.hostDenied write b).emit (.peer port false []))
    | none =>
    .next (if write then (s.mwrN addr d.data).emit (.peer port true []) else s.emit (.peer port true (s.mrdN addr n)))
  else
    .next (({ s with uc := { s.uc with refused := s.uc.refused ++ [(port, addr)] } } : State).emit (.peer port false []))

-- Links (R279)

/-- The page of a link end. -/
def linkPage (k : Nat) : Nat := 0xC0 + k
/-- A write of UCI_LINK_CTRL.RETRAIN: the modules that are up retrain (R279). -/
def execRetrain (ag : Agent) (die link : Nat) (s : State) : Res :=
  match s.regGuard ag die (linkPage link) 1 with
  | (s, false) => .next s
  | (s, true) =>
    .next ((List.range (linkModules die link)).foldl (fun s k => if s.umod die link k = 0 then s else s.setUmod die link k 3) s)

end Sys2Proof.Machine
end

