-- ==== Sys2Proof/Machine/Coll.lean ====
section
/-! DEFINITION. Collectives: COLL, the reference tree on modules, collective data, PUT and GET, time limits and ABORT (R39, R148,
R288, R290, R294 to R297, R301). -/

namespace Sys2Proof.Machine

-- The tree on modules (R296)

/-- Nodes of a level over n members. -/
def nodeCount (n l : Nat) : Nat := cdiv n (2 ^ l)
/-- The level of the root. -/
def topLevel (n : Nat) : Nat := ((List.range 14).find? fun l => decide (n ≤ 2 ^ l)).getD 14
/-- pos(ℓ, k, c): the position at which the combine of a node runs. -/
def treePos (n c : Nat) : Nat → Nat → Nat
  | 0, k => k
  | l + 1, k =>
    let p := k * 2 ^ (l + 1) + c % 2 ^ (l + 1)
    if p < n then p else treePos n c l (2 * k)
/-- The combine number of node (ℓ, k), ℓ from 1 (R36). -/
def combineNo (n l k : Nat) : Nat := ((List.range (l - 1)).map fun i => nodeCount n i / 2).sum + k
/-- Chunk c of E elements (R295). -/
def chunkSpan (e n c : Nat) : Nat × Nat := (c * e / n, (c + 1) * e / n)

/-- Operations that combine along the tree: ALL_REDUCE, REDUCE_SCATTER, FLAG_OR, MAX. -/
def collReduces (op : Nat) : Bool := has [0, 1, 5, 6] op
/-- Bytes an element takes in the collective's messages: its code, and its scale where codes and scales travel unchanged. -/
def collWidth (op : Nat) : Nat := if op = 5 then 1 else if collReduces op then 2 else 3
/-- The elements that a part names: a chunk, a row, or all. -/
def CollF.span (p : CollF) (n c : Nat) : Nat × Nat :=
  if p.op = 3 then (c * p.b.cols, (c + 1) * p.b.cols) else if p.op = 4 then (0, p.b.size) else chunkSpan p.count n c
/-- Does a part hold anything? -/
def CollF.full (p : CollF) (n c : Nat) : Bool := decide ((p.span n c).1 < (p.span n c).2)

/-- Element `j` of a view, row by row, as the collective's messages carry it. -/
def State.collElem (s : State) (c : Nat) (v : View) (op j : Nat) : List Byte :=
  if op = 5 then [s.byteOf c v j]
  else
    let r := j / v.cols
    let k := j % v.cols
    leBytes 2 (s.codeAt c v r k) ++ if collReduces op then [] else leBytes 1 (s.scaleAt c v r k)
/-- Elements of a view from `lo` to `hi`. -/
def State.collBytes (s : State) (c : Nat) (v : View) (op lo hi : Nat) : List Byte :=
  (List.range (hi - lo)).flatMap fun t => s.collElem c v op (lo + t)
/-- Is an element the first of its block, so that its scale is the block's? -/
def View.blockHead (v : View) (r k : Nat) : Bool := k % v.grain.size == 0 && (v.grain != .square || r % 8 == 0)
/-- A code as a collective writes it: one that it has combined is never 0x8000 (R27); data moved unchanged keeps it. -/
def collCode (op n : Nat) : Nat := if collReduces op ∧ n = 0x8000 then 0 else n
/-- Writes elements of a view from `lo` on; the scale of a block comes with the block's first element. -/
def State.putColl (s : State) (c : Nat) (v : View) (op lo : Nat) (b : List Byte) : State :=
  if op = 5 then s.putBytes c v lo b
  else
    let w := collWidth op
    (List.range (b.length / w)).foldl (fun s t =>
      let r := (lo + t) / v.cols
      let k := (lo + t) % v.cols
      let s := s.putCode c v r k (collCode op (leAt b (w * t) 2))
      if w = 3 ∧ scaled v.fmt ∧ v.blockHead r k then s.putBytes c v (v.scaleOff + v.blk r k) [b.getD (w * t + 2) 0] else s) s

/-- A combine of a node's two children: its bytes and its range events (R39, R296). -/
def collCombine (d : Draw) (p : CollF) (lo cn : Nat) (x y : List Byte) : List Byte × Ev :=
  if p.op = 5 then ((x.zip y).map fun z => z.1 ||| z.2, (0, 0))
  else
    let rs := (List.range (x.length / 2)).map fun t =>
      let a := BitVec.ofNat 16 (leAt x (2 * t) 2)
      let b := BitVec.ofNat 16 (leAt y (2 * t) 2)
      if p.op = 6 then ((if decN16 a < decN16 b then b else a), ((0, 0) : Ev))
      else
        let j := lo + t
        let r := combineN16 d p.a.tid 0x30 (fold40 (p.a.num (j / p.a.cols) (j % p.a.cols)) cn) (decN16 a + decN16 b)
        (encN16 r.val, evAdd (0, 0) r)
    (rs.flatMap fun r => leBytes 2 r.1.toNat, rs.foldl (fun e r => (e.1 + r.2.1, e.2 + r.2.2)) (0, 0))

/-- Where a collective runs: its flight, its member count, the module's position, and the members. -/
structure CollAt where
  f : Flight
  n : Nat
  me : Nat
  members : List Nat

/-- Sends a node of a chunk to a member. -/
def State.sendNode (s : State) (w : CollAt) (p : CollF) (to_ chunk level node : Nat) (b : List Byte) : State :=
  s.send (some p.slot) 0x20 (nth 0 w.members to_) [p.op, p.count, chunk, level, node] b w.f.ctx (some p.step) p.cseq

/-- A chunk's final value goes down the tree from a node that is placed here; at the leaf it is written (R296). Levels of this
direction are sent with 128 added. -/
def State.spread (s : State) (w : CollAt) (p : CollF) (c : Nat) (b : List Byte) : Nat → Nat → State × CollF
  | 0, _ => (s.putColl w.f.ctx p.b p.op (p.span w.n c).1 b, { p with parts := p.parts ++ [(c, [])] })
  | l + 1, k =>
    ([2 * k, 2 * k + 1].filter fun j => decide (j < nodeCount w.n l)).foldl (fun (x : State × CollF) j =>
      let to_ := treePos w.n c l j
      if to_ = w.me then x.1.spread w x.2 c b l j else (x.1.sendNode w x.2 to_ c (128 + l) j b, x.2)) (s, p)

/-- The value of node (ℓ, k) of a chunk stands here: it is sent to the place of its parent, carried up, combined with its
sibling where that is here too, or kept until it comes (R296). -/
def State.climb (s : State) (w : CollAt) (p : CollF) (c : Nat) : Nat → Nat → Nat → List Byte → State × CollF
  | 0, l, k, b =>
    if p.op = 1 then (s.putColl w.f.ctx p.b p.op (p.span w.n c).1 b, { p with parts := p.parts ++ [(c, [])] })
    else s.spread w p c b l k
  | u + 1, l, k, b =>
    let to_ := treePos w.n c (l + 1) (k / 2)
    if to_ ≠ w.me then (s.sendNode w p to_ c l k b, { p with nodes := p.nodes ++ [(c, 255, 0, [])] })
    else if k % 2 = 0 ∧ k + 1 ≥ nodeCount w.n l then s.climb w p c u (l + 1) (k / 2) b
    else
      let sib := if k % 2 = 0 then k + 1 else k - 1
      match p.nodes.find? fun x => x.1 == c && x.2.1 == l && x.2.2.1 == sib with
      | none => (s, { p with nodes := p.nodes ++ [(c, l, k, b)] })
      | some x =>
        let y := if k % 2 = 0 then (b, x.2.2.2) else (x.2.2.2, b)
        let z := collCombine (s.draw w.f.ctx) p (p.span w.n c).1 (combineNo w.n (l + 1) (k / 2)) y.1 y.2
        (s.tallyCtx w.f.ctx .n16 .grad ⟨z.2.1, z.2.2, 0⟩).climb w { p with nodes := p.nodes.erase x } c u (l + 1) (k / 2) z.1

/-- Has the module done all it has to do for a collective? -/
def CollF.finished (p : CollF) (w : CollAt) : Bool :=
  let have_ := fun (c : Nat) => p.parts.any fun x => x.1 == c
  let chunks := (List.range w.n).filter fun c => p.full w.n c
  match p.op with
  | 1 => chunks.all fun c => if c = w.me then have_ c else p.nodes.any fun x => x.1 == c && x.2.1 == 255
  | 4 => have_ 0
  | 7 | 8 => false
  | _ => chunks.all have_
/-- Keeps a collective's progress in its flight; a finished one may complete. -/
def State.keepColl (w : CollAt) (x : State × CollF) : State :=
  x.1.putFlight { w.f with body := if x.2.finished w then .plain else .coll x.2 }

/-- The bytes of a view packed: its rows one after another, then its scales. -/
def State.packed (s : State) (c : Nat) (v : View) : List Byte :=
  ((List.range v.rows).flatMap fun r =>
    if v.place = .rb then (List.range v.cols).flatMap fun k => leBytes 2 (s.codeAt c v r k)
    else s.bytesOf c v (r * v.stride) (rowBytes v.fmt v.cols)) ++ s.bytesOf c v v.scaleOff v.scaleLen
/-- Writes packed bytes into a view. -/
def State.unpack (s : State) (c : Nat) (v : View) (b : List Byte) : State :=
  let n := rowBytes v.fmt v.cols
  let s := (List.range v.rows).foldl (fun s r =>
    let row := fitBytes n (b.drop (r * n))
    if v.place = .rb then (List.range v.cols).foldl (fun s k => s.putCode c v r k (leAt row (2 * k) 2)) s
    else s.putBytes c v (r * v.stride) row) s
  s.putBytes c v v.scaleOff (fitBytes v.scaleLen (b.drop (v.rows * n)))

-- Issue (R94, R294, R295, R297)

/-- The collective's operands as views. -/
structure CollV where
  a : View
  b : View
  peer : Nat
  remote : Nat

/-- The bytes that a PUT or a GET moves. -/
def State.remoteLen (s : State) (c op : Nat) (v : CollV) : Nat :=
  if op = 7 then (s.packed c v.a).length else if op = 8 then (s.packed c v.b).length else 0
/-- The first failing check at issue: 1 counts, 2 formats, 3 members, 4 staging region, 5 peer mapping, which is `far` where the peer is
another module (R295). -/
def State.collCheck (s : State) (x : Src) (b op : Nat) (v : CollV) (far : Bool) : Option Nat :=
  let n := s.memberCount b
  let pos := s.position b
  let e := v.b.size
  let root := some v.peer == s.fb.lid
  let counts :=
    match op with
    | 2 => v.a.size == e || (match pos with
        | some p => v.a.size == (chunkSpan e n p).2 - (chunkSpan e n p).1
        | none => false)
    | 4 => !root || v.a.size == e
    | 5 => v.a.rows == 1 && v.b.rows == 1 && rowBytes v.a.fmt v.a.cols == 16 && rowBytes v.b.fmt v.b.cols == 16
    | 7 | 8 => true
    | _ => v.a.size == e
  let same := v.a.fmt == v.b.fmt && v.a.grain == v.b.grain && v.a.zp == v.b.zp
  let formats :=
    match op with
    | 0 | 1 => v.a.fmt == .n16 && v.b.fmt == .n16 && v.a.cls == .grad && v.b.cls == .grad
    | 6 => v.a.fmt == .n16 && v.b.fmt == .n16
    | 4 => !root || same
    | 5 => v.a.place != .rb && v.b.place != .rb
    | 7 | 8 => true
    | _ => same
  let members := bitOf (s.rdN 4 (colReg b Reg.COL_JOB_b_CTRL)) 0 && pos.isSome && decide (1 ≤ n) &&
    (op != 3 || (v.a.rows == n && v.b.rows == n)) && (!has [4, 7, 8] op || has (s.members b) v.peer)
  let need := if v.a.place = .rb then 2 * v.a.size else v.a.extent - v.a.addr
  let stage := decide (v.a.size = 0 ∨ need ≤ 2 ^ 21 * fld (s.rd 4 (colReg b Reg.COL_JOB_b_STAGE_HI)) 27 16)
  let far := !has [7, 8] op || (if root then s.mapped (s.dirCtx b) v.remote (s.remoteLen x.ctx op v) (op == 7) else far)
  if (has [0, 1] op && decide (max v.a.size v.b.size > 2 ^ 30)) || !counts then some 1
  else if !formats then some 2
  else if !members then some 3
  else if !stage then some 4
  else if !far then some 5
  else none

/-- A COLL that fails a check of its own (R295): skipped, logged in the COL page. -/
def State.collSkip (s : State) (i : Iss) (x : Src) (b reason peer cseq : Nat) : State :=
  let s := s.postOpt x i.post
  let s := (s.bump x.st Reg.SEQ_SKIP_TOTAL 1).raise x.st 0x10 5
  let s := (s.colLog 3 b reason peer x.ctx cseq (s.job b).step).raise 4 0xE0 9
  (s.modSeq x.st x.sq fun q => { q with skips := satAdd 65535 q.skips 1 }).taintSeq x.st x.sq x.ctx

/-- Begins to move a collective's data. -/
def State.startColl (s : State) (w : CollAt) (p : CollF) (junk : Option Nat) : State :=
  let c := w.f.ctx
  let read := fun (lo hi : Nat) =>
    match junk with
    | some k => (List.range (collWidth p.op * (hi - lo))).map fun t => Config.freeByte k (4 * lo + t)
    | none => s.collBytes c p.a p.op lo hi
  let top := topLevel w.n
  match p.op with
  | 2 =>
    let sp := p.span w.n w.me
    let lo := if p.a.size = p.count then sp.1 else 0
    State.keepColl w (if p.full w.n w.me then s.spread w p w.me (read lo (lo + (sp.2 - sp.1))) top 0 else (s, p))
  | 3 =>
    let y := (List.range w.n).foldl (fun (y : State × CollF) q =>
      let b := read (q * p.a.cols) ((q + 1) * p.a.cols)
      if q = w.me then (y.1.putColl c p.b 3 (q * p.b.cols) b, { y.2 with parts := y.2.parts ++ [(q, [])] })
      else (y.1.sendNode w y.2 q w.me 0 0 b, y.2)) (s, p)
    State.keepColl w y
  | 4 =>
    if some p.peer = s.fb.lid then
      let b := read 0 p.a.size
      let s := (List.range w.n).foldl (fun s q => if q = w.me then s else s.sendNode w p q 0 0 0 b) s
      State.keepColl w (s.putColl c p.b 4 0 b, { p with parts := [(0, [])] })
    else State.keepColl w (s, p)
  | 7 => (s.putFlight { w.f with body := .coll p }).send (some p.slot) 0x04 p.peer [0, p.remote] (s.packed c p.a) c (some p.step) p.cseq
  | 8 => (s.putFlight { w.f with body := .coll p }).send (some p.slot) 0x03 p.peer
      [w.f.id, p.remote, (s.packed c p.b).length] [] c (some p.step) p.cseq
  | _ =>
    State.keepColl w ((List.range w.n).foldl (fun (y : State × CollF) q =>
      if p.full w.n q then y.1.climb w y.2 q top 0 w.me (read (p.span w.n q).1 (p.span w.n q).2) else y) (s, p))

/-- Collective data reaches the collective it belongs to; false where it does not fit it. -/
def State.collData (s : State) (w : CollAt) (p : CollF) (src : Nat) (m : CMsg) : State × Bool :=
  let from_ := (w.members.idxOf? src).getD w.n
  let sized := decide (m.chunk < w.n) && m.bytes.length == collWidth p.op * ((p.span w.n m.chunk).2 - (p.span w.n m.chunk).1)
  let fresh := !(p.parts.any fun x => x.1 == m.chunk)
  if p.op ≠ m.op ∨ p.count ≠ m.count ∨ !sized then (s, false)
  else if p.op = 3 ∨ p.op = 4 then
    if !fresh ∨ (p.op = 3 ∧ m.chunk ≠ from_) ∨ (p.op = 4 ∧ (m.chunk ≠ 0 ∨ src ≠ p.peer)) then (s, false)
    else (State.keepColl w (s.putColl w.f.ctx p.b p.op (p.span w.n m.chunk).1 m.bytes,
      { p with parts := p.parts ++ [(m.chunk, [])] }), true)
  else if m.level ≥ 128 then
    let l := m.level - 128
    if !fresh ∨ p.op = 1 ∨ l ≥ topLevel w.n ∨ m.node ≥ nodeCount w.n l ∨ treePos w.n m.chunk l m.node ≠ w.me ∨
        treePos w.n m.chunk (l + 1) (m.node / 2) ≠ from_ then (s, false)
    else (State.keepColl w (s.spread w p m.chunk m.bytes l m.node), true)
  else if !collReduces p.op ∨ m.level ≥ topLevel w.n ∨ m.node ≥ nodeCount w.n m.level ∨
      treePos w.n m.chunk m.level m.node ≠ from_ ∨ treePos w.n m.chunk (m.level + 1) (m.node / 2) ≠ w.me ∨
      (p.nodes.any fun x => x.1 == m.chunk && x.2.1 == m.level && x.2.2.1 == m.node) then (s, false)
  else (State.keepColl w (s.climb w p m.chunk (topLevel w.n - m.level) m.level m.node m.bytes), true)

/-- The collective of a slot, step and number that is in flight, if it has not finished here. -/
def State.collOf (s : State) (b step cseq : Nat) : Option (Flight × CollF) :=
  s.sq.flights.findSome? fun f =>
    match f.body with
    | .coll p => if p.slot = b ∧ p.step = step ∧ p.cseq = cseq then some (f, p) else none
    | _ => none
/-- Where a flight's collective runs. -/
def State.collAt (s : State) (f : Flight) (p : CollF) : CollAt :=
  ⟨f, s.memberCount p.slot, (s.position p.slot).getD 0, s.members p.slot⟩

/-- A collective message that disagrees: discarded, logged, the step tainted (R294). -/
def State.collMismatch (s : State) (b src dst cseq : Nat) (f : Option Flight) : State :=
  let s := s.colLog 4 b 0 src ((f.map (·.ctx)).getD 0) cseq (dst + 4096 * src + 2 ^ 24 * (s.kd.rink % 256))
  match f with
  | some f => s.taintSeq f.st f.sq f.ctx
  | none => s.taint b
/-- Takes a message into the collective in flight that it names. -/
def State.takeData (s : State) (m : CMsg) : State :=
  match s.collOf m.slot m.step m.cseq with
  | some (f, p) =>
    let y := (s.setNext f.id).collData (s.collAt f p) p m.src m
    if y.2 then y.1.setNext s.sq.nextId else s.collMismatch m.slot m.src (s.fb.lid.getD 0) m.cseq (some f)
  | none => s.collMismatch m.slot m.src (s.fb.lid.getD 0) m.cseq none

/-- Does a COLL read operand A, and write operand B? -/
def State.collUses (s : State) (op peer : Nat) : Bool × Bool := (op != 8 && !(op == 4 && some peer != s.fb.lid), op != 7)
/-- Resolves the operands of a COLL (R295). -/
def State.collViews (s : State) (x : Src) (op : Nat) (o : CollOps) : CollV :=
  let q := s.seq x.st x.sq
  let a := s.view x.st x.sq x.ctx o.a 0 0
  let b := if o.inplace then a else s.view x.st x.sq x.ctx o.b 0 0
  let peer := (q.sreg o.reg).toNat
  let use := s.collUses op peer
  ⟨if use.1 then a else { rows := 0, cols := 0 }, if use.2 then b else { rows := 0, cols := 0 }, peer, q.addr48 (o.reg + 1)⟩
/-- The run-time check of R94 that a COLL fails, and its detail. -/
def State.collFails (s : State) (x : Src) (op : Nat) (o : CollOps) (v : CollV) : Option (Nat × Nat) :=
  let ob := if o.inplace then o.a else o.b
  let use := s.collUses op v.peer
  let both := [(o.a, v.a), (ob, v.b)]
  let used := (if use.1 then [(o.a, v.a)] else []) ++ (if use.2 then [(ob, v.b)] else [])
  checks [
    (3, (if use.1 then badAddr [(o.a, v.a)] fun p => s.descFails x.st x.sq x.ctx p.1 p.2 false else none) <|>
      (if use.2 then badAddr [(ob, v.b)] fun p => s.descFails x.st x.sq x.ctx p.1 p.2 true else none)),
    (1, badAddr both fun p => s.extentFails x.ctx p.1 p.2),
    (2, (both.find? fun p => s.countFails x.ctx p.2).map fun p => p.2.size),
    (4, badAddr used fun p => !p.1.desc)]

/-- A COLL that moves data (R295). -/
def State.issueColl (s : State) (op : Nat) (i : Iss) (o : CollOps) : State :=
  match s.begin i 0x40 [] with
  | (s, none) => s
  | (s, some x) =>
    let b := (s.ctx x.ctx).slot
    let cseq := (s.cjob b).cseq
    let v := s.collViews x op o
    let t := s.setCjob b { s.cjob b with cseq := (cseq + 1) % 2 ^ 32 }
    match s.collFails x op o v with
    | some r => t.skip i x r.1 r.2
    | none =>
      match s.collCheck x b op v o.far with
      | some r => t.collSkip i x b r (if has [4, 7, 8] op then v.peer % 4096 else 0) cseq
      | none =>
        let k := s.ctx x.ctx
        if k.isEval ∧ ((v.b.place = .rb ∧ v.b.size ≠ 0) ∨ s.guardedView x.ctx v.b ∨
            (op = 7 ∧ s.jobHit (s.dirCtx b) v.remote (s.remoteLen x.ctx op v))) then t.evalWrite x
        else
        match [v.a, v.b].find? (t.mergeView x.ctx) with
        | some w => t.rbSkip i x w.refused.1 w.refused.2
        | none =>
          let s := t
          let s := s.readLines x (s.viewLines x.ctx v.a)
          match s.access x i [v.a] [v.b] 1 (descs := [o.a, o.b]) with
          | (s, false) => s
          | (s, true) =>
            let s := if i.rd = .unitCe then ((s.countC 4 0xE0 1).colLog 0x0E b 0 0 x.ctx cseq 0).raise 4 0xE0 12
              else if i.rd = .unitUe then
                (((s.countU 4 0xE0 1).colLog 0x0C b 0 0 x.ctx cseq (s.job b).step).raise 4 0xE0 13).taintSeq x.st x.sq x.ctx
              else s
            let junk := if i.rd = .unitUe then some s.free else none
            let s := s.nextFree
            let s := if v.a.place = .rb ∨ v.b.place = .rb then s.setRb b { s.rb b with coll := true } else s
            let lines := s.viewLines x.ctx v.b
            let s := s.claimLines x lines
            let p : CollF :=
              { op := op, cseq := cseq, slot := b, step := (s.job b).step, a := v.a, b := v.b, peer := v.peer, remote := v.remote,
                count := if op = 5 then 16 else v.b.size, parts := [], nodes := [] }
            let s := s.launch i x [] lines (.coll p)
            match s.flight (s.sq.nextId - 1) with
            | none => s
            | some f =>
              if (s.job b).abortSeen then s.voidColl f
              else
                let s := s.asOf f.id fun s => s.startColl (s.collAt f p) p junk
                let mine := fun (m : CMsg) => m.slot == b && m.step == p.step && m.cseq == cseq && m.op != 16
                let now := s.fb.early.filter mine
                let s := { s with fb := { s.fb with early := s.fb.early.filter fun m => !mine m } }
                now.foldl (fun s m => s.takeData m) s

/-- ALL_REDUCE (R295, R296). -/
def execAllReduce (i : Iss) (c : CollOps) (s : State) : Res := .next (s.issueColl 0 i c)
/-- REDUCE_SCATTER (R295, R296). -/
def execReduceScatter (i : Iss) (c : CollOps) (s : State) : Res := .next (s.issueColl 1 i c)
/-- ALL_GATHER (R295). -/
def execAllGather (i : Iss) (c : CollOps) (s : State) : Res := .next (s.issueColl 2 i c)
/-- ALL_TO_ALL (R295). -/
def execAllToAll (i : Iss) (c : CollOps) (s : State) : Res := .next (s.issueColl 3 i c)
/-- BROADCAST (R295). -/
def execBroadcast (i : Iss) (c : CollOps) (s : State) : Res := .next (s.issueColl 4 i c)
/-- FLAG_OR (R295). -/
def execFlagOr (i : Iss) (c : CollOps) (s : State) : Res := .next (s.issueColl 5 i c)
/-- MAX (R295). -/
def execMaxColl (i : Iss) (c : CollOps) (s : State) : Res := .next (s.issueColl 6 i c)
/-- PUT (R295). -/
def execPut (i : Iss) (c : CollOps) (s : State) : Res := .next (s.issueColl 7 i c)
/-- GET (R295). -/
def execGet (i : Iss) (c : CollOps) (s : State) : Res := .next (s.issueColl 8 i c)

/-- PISTE: holds the job's egress until the switch (R14, R301). An entry that holds no piste skips the instruction. -/
def execPiste (i : Iss) (c : CollOps) (s : State) : Res :=
  match s.begin i 0x40 [] with
  | (s, none) => .next s
  | (s, some x) =>
    let b := (s.ctx x.ctx).slot
    let j := s.cjob b
    if (j.image c.piste).isNone then .next (s.collSkip i x b 6 0 j.cseq)
    else
      let s := s.launch i x [] [] (.piste b c.piste)
      .next (s.setCjob b { j with switching := some (j.switching.getD c.piste) })

/-- STEP_END: the module's collectives of the step are over (R295, R298). -/
def execStepEnd (i : Iss) (s : State) : Res :=
  match s.begin i 0x40 [] with
  | (s, none) => .next s
  | (s, some x) =>
    let k := s.ctx x.ctx
    let s := if k.isJob ∧ (s.job k.slot).inStep then
        s.modJob k.slot fun j => { j with stepEnd := true, vstate := if j.sent then j.vstate else 1 }
      else s
    .next (s.postOpt x i.post)

-- Messages of collectives, PUT and GET

/-- CDATA (R293, R294, R296). Data for a collective that is still to be issued here is kept for it. -/
def execCdata (m : MsgHdr) (op count chunk level node : Nat) (bytes : List Byte) (s : State) : Res :=
  if s.fenced m then .next (s.fence m)
  else
    match s.slotOf m.jtag with
    | none => .next s
    | some b =>
      let j := s.job b
      let c : CMsg := ⟨b, m.src, m.cseq, m.step, op, count, chunk, level, node, bytes⟩
      let later := decide (m.step > j.step) || (m.step == j.step &&
        (decide (m.cseq ≥ (s.cjob b).cseq) || (!j.inStep && decide (m.cseq < 0x80000000))))
      if !has (s.members b) m.src ∨ m.step < j.step then .next s
      else if (s.collOf b m.step m.cseq).isSome then .next (s.takeData c)
      else if later then .next { s with fb := { s.fb with early := s.fb.early ++ [c] } }
      else .next (s.collMismatch b m.src m.dst m.cseq none)

/-- COLLECTIVE_TIMEOUT (R297). -/
def execCollectiveTimeout (slot cseq : Nat) (s : State) : Res :=
  match s.sq.flights.find? fun f =>
      match f.body with
      | .coll p => p.slot == slot && p.cseq == cseq
      | _ => false with
  | none => .next s
  | some f =>
    let s := s.colLog 5 slot 0 0 f.ctx cseq (s.job slot).step
    .next (((s.voidColl f).taintSeq f.st f.sq f.ctx).tryLoan f.ctx)

/-- ABORT (R297). One for a step that has not begun here is kept for it. -/
def execAbort (m : MsgHdr) (s : State) : Res :=
  if s.fenced m then .next (s.fence m)
  else
    match s.slotOf m.jtag with
    | none => .next s
    | some b =>
      let j := s.job b
      if !has (s.members b) m.src then .next s
      else if j.inStep ∧ m.step = j.step then
        .next (if j.abortSeen then s else s.abortStep b false m.src)
      else if m.step ≥ j.step then
        let s := (s.colLog 0x0B b 0 m.src 0 0 m.step).raise 4 0xE0 11
        .next { s with fb := { s.fb with early := s.fb.early ++ [⟨b, m.src, 0, m.step, 16, 0, 0, 0, 0, []⟩] } }
      else .next s

/-- A request of a peer that fails: UNREACHABLE with the request's header (R290, R241). -/
def State.turnAway (s : State) (b type : Nat) (m : MsgHdr) : State :=
  s.send (some b) 0x17 m.src [] (wireBytes type s.kd.rink s.kd.seat m) m.ctx (some m.step) m.cseq
/-- GET_REQUEST: a peer reads memory of the job's address space (R288, R295), or asks for what a sweep needs (R215 to R217, R222). A request
that is refused, or whose data is bad, is answered UNREACHABLE. -/
def execGetRequest (m : MsgHdr) (addr : Nat) (a : GetAsk) (s : State) : Res :=
  if s.fenced m then .next (s.fence m)
  else
    match s.slotOf m.jtag with
    | none => .next s
    | some b =>
      match a.sweep with
      | some q =>
        match s.fixAnswer b q with
        | some d => .next (s.send (some b) 0x16 m.src [q.id] d m.ctx (some m.step) m.cseq)
        | none => .next (s.turnAway b 3 m)
      | none =>
        if s.mapped (s.dirCtx b) addr a.len false then
          match s.ownRead 0 b addr a.len a.ecc 1 with
          | (s, none) => .next (s.send (some b) 0x16 m.src [] (s.vrdN (s.dirCtx b) addr a.len) m.ctx (some m.step) m.cseq)
          | (s, some _) => .next (s.turnAway b 3 m)
        else .next (s.turnAway b 3 m)

/-- PUT_REQUEST: a peer writes memory of the job's address space (R288, R295). -/
def execPutRequest (m : MsgHdr) (addr : Nat) (data : List Byte) (s : State) : Res :=
  if s.fenced m then .next (s.fence m)
  else
    match s.slotOf m.jtag with
    | none => .next s
    | some b =>
      let c := s.dirCtx b
      if !s.mapped c addr data.length true ∨ (s.memBad (stoveOf c) c [(addr, data.length)] true).isSome then .next (s.turnAway b 4 m)
      else
        .next (((s.vwrN c addr data).reachW c [(addr, data.length)]).send (some b) 0x13 m.src [keyArg ⟨0, 0⟩ 2] [] m.ctx (some m.step) m.cseq)

/-- DATA: what a GET asked for arrives, for an instruction in flight or for a sweep (R288). -/
def execData (m : MsgHdr) (id : Nat) (bytes : List Byte) (s : State) : Res :=
  if s.fenced m then .next (s.fence m)
  else
    match s.flight id with
    | some f =>
      match f.body with
      | .coll p =>
        .next (if p.op = 8 ∧ p.peer = m.src then (s.asOf f.id fun s => s.unpack f.ctx p.b bytes).putFlight { f with body := .plain } else s)
      | _ => .next s
    | none => .next (s.fixData id m.src bytes)

/-- UNREACHABLE: a request could not be delivered; a lookup gets an invalid row, a GET or PUT is an uncorrectable error of the
data it was to move (R167, R241, R290). -/
def execUnreachable (m : MsgHdr) (st : Nat) (k : Option Key) (id : Nat) (s : State) : Res :=
  if s.fenced m then .next (s.fence m)
  else
  let b := (s.slotOf m.jtag).getD 0
  let s := ((s.bump 4 Reg.COL_UNREACH_TOTAL 1).colLog 7 b 0 m.src m.ctx m.cseq
    (m.dst + 4096 * m.src + 2 ^ 24 * (s.kd.rink % 256))).raise 4 0xE0 8
  match k with
  | some k =>
    match s.waiting st m.ctx k with
    | some (f, l, i, e) => .next (s.invalidRow f l i e m.src)
    | none => .next s
  | none =>
    match s.flight id with
    | some f =>
      match f.body with
      | .coll p => .next (if p.op = 7 ∨ p.op = 8 then s.fail f.ctx 7 0xE else s)
      | _ => .next s
    | none => .next (s.fixLost id)

end Sys2Proof.Machine
end

