-- ==== Sys2Proof/Machine/Fabric.lean ====
section
/-! DEFINITION. Ports, link flits, names, seats, pistes, stand-in takeover and the job slots of the collective engines (R280 to R287,
R289 to R294, R299 to R303, R305, R306, R332). -/

namespace Sys2Proof.Machine

/-- The die of a port's page. -/
def fabDie (p : Nat) : Nat := 4 + p / 16
/-- The page of a port (R305). -/
def fabPage (p : Nat) : Nat := 0xD0 + p % 16
/-- A register of a port's page. -/
def fabReg (p r : Nat) : Nat := r + 4096 * (p % 16)
/-- A FAB record (R305). -/
def State.fabLog (s : State) (p code seq vc : Nat) (detail : W32) : State :=
  s.logErr (fabDie p) (fabPage p) ⟨pack [(code, 0), (p, 8)], pack [(seq, 0), (vc, 12)], partnerWord (s.port p).partner, detail⟩
/-- An event of a port's page. -/
def State.fabEvent (s : State) (p bit : Nat) : State := s.raise (fabDie p) (fabPage p) bit
/-- FAB_CTRL.ENABLE. -/
def State.portOn (s : State) (p : Nat) : Bool :=
  bitOf (s.rdN (fabDie p) (fabReg p Reg.FAB_CTRL)) 0 && s.blockOn (fabDie p) (fabPage p)

-- Cabling (R282 to R284)

/-- The number j of a local port Lj. -/
def localNo (p : Nat) : Nat := if p ≤ 7 then p else p - 8
/-- The number g of a global port Gg. -/
def globalNo (p : Nat) : Nat := if p ≤ 15 then p - 8 else p - 16
/-- The partner that the cabling rules give a port; none for a global port that is left unconnected. -/
def State.cabled (s : State) (p : Nat) : Option Partner :=
  let r := s.kd.rink
  let t := s.kd.seat
  if portRole p = 0 then
    let j := localNo p
    let i := 14 - j
    some ⟨r, (t + j + 1) % 16, if i ≤ 7 then i else i + 8⟩
  else
    let n := Config.rinks
    let k := 16 * t + globalNo p
    let d := k % (n - 1)
    let m := k / (n - 1)
    if n < 2 ∨ (m + 1) * (n - 1) > 256 then none
    else
      let i := (n - 2 - d) + m * (n - 1)
      some ⟨(r + 1 + d) % n, i / 16, globalPort (i % 16)⟩
/-- Does a partner keep the cabling rules? The service port accepts any partner but the module itself. -/
def State.cableOk (s : State) (p : Nat) (q : Partner) : Bool :=
  !(q.rink == s.kd.rink && q.seat == s.kd.seat) && (portRole p == 2 || s.cabled p == some q)

-- Seats and the link map (R289, R291, R303)

/-- The index of a seat. -/
def seatIdx (rink seat : Nat) : Nat := 16 * rink + seat
/-- Changes a seat's entry and raises SEAT_CHANGE. -/
def State.seatTo (s : State) (rink seat state lid : Nat) : State :=
  (s.setSeatE (seatIdx rink seat) ⟨state, lid⟩).raise 4 0xE0 7
/-- Sets the link between two rinks in the global link map. -/
def State.setLink (s : State) (r r2 : Nat) (up : Bool) : State :=
  { s with fb := { s.fb with
      linkDown := if up then s.fb.linkDown.filter (fun k => k != 256 * r + r2 && k != 256 * r2 + r)
        else addOnce (addOnce s.fb.linkDown (256 * r + r2)) (256 * r2 + r) } }
/-- A global port has gone up or down: LINK_STATE is broadcast (R289). -/
def State.tellLink (s : State) (p : Nat) (up : Bool) : State :=
  match portRole p, (s.port p).partner with
  | 1, some q => (s.setLink s.kd.rink q.rink up).announce 0x33 [s.kd.rink, q.rink, b2n up]
  | _, _ => s

-- Training, retraining and loss of a port (R282, R286, R303)

/-- PORT_TRAINING: identities are exchanged: the port sends the module's rink and seat and its own number, and `partner` is what comes
back (R282). A port that was retraining keeps its sequence state. Every port that comes up on a module without a logical ID announces
its seat SPARE (R303). -/
def execPortTraining (p : Nat) (partner : Partner) (s : State) : Res :=
  let q := s.port p
  let s := if s.kd.released < 8 ∨ s.kd.noPosition ∨ has s.kd.portsDown p ∨ !s.portOn p ∨ q.state = 2 ∨ q.state = 4 then s
    else s.emit (.ident p s.kd.rink s.kd.seat)
  if s.kd.released < 8 ∨ s.kd.noPosition ∨ has s.kd.portsDown p ∨ !s.portOn p ∨ q.state = 2 ∨ q.state = 4 then .next s
  else if !s.cableOk p partner then
    .next (((s.setPort p { q with state := 4, partner := some partner }).fabLog p 4 0 0 0).fabEvent p 4)
  else if q.state = 3 then
    let s := (s.setPort p { q with state := 2, partner := some partner, resends := 0 }).pump p q.queue.length
    .next (((s.bump (fabDie p) (fabReg p Reg.FAB_RETRAINS) 1).fabLog p 2 0 0 0).fabEvent p 3)
  else
    let s := (s.setPort p { state := 2, partner := some partner }).fabEvent p 0
    let s := s.tellLink p true
    if s.fb.lid.isSome ∨ portRole p = 2 then .next s
    else
      let s := if (s.seatE (seatIdx s.kd.rink s.kd.seat)).state = 1 then s else s.seatTo s.kd.rink s.kd.seat 1 0
      .next (s.sendService p 0x32 [s.kd.rink, s.kd.seat, 1, 0])

/-- A write of FAB_CTRL.RETRAIN (R305). -/
def execPortRetrain (ag : Agent) (p : Nat) (s : State) : Res :=
  match s.regGuard ag (fabDie p) (fabPage p) 2 with
  | (s, false) => .next s
  | (s, true) =>
    let q := s.port p
    .next (if !s.portOn p ∨ s.kd.noPosition then s else if q.state = 2 then s.setPort p { q with state := 3 }
      else if q.state = 4 then s.setPort p { q with state := 1 } else s)

/-- A port as it is when it has gone down: what it held is lost. -/
def Port.down (q : Port) : Port :=
  { state := 0, partner := q.partner, txSeq := q.txSeq, rxSeq := q.rxSeq }
/-- Messages that were still coming in by a port that goes down do not go on: their last flits stay with the neighbour. One that has come
whole does. -/
def State.dropTransit (s : State) (p : Nat) : State :=
  (List.range 32).foldl (fun s k =>
    let q := s.port k
    let mine := fun (x : Option (Nat × Nat)) => x.map (·.1) == some p
    if (q.queue.any fun f => mine f.from_) ∨ (q.going.any fun g => mine g.2) then
      let kept := (q.queue.zipIdx.filter fun f =>
        !mine f.1.from_ || (q.queue.drop f.2).any fun g => g.from_ == f.1.from_ && g.hdr.last).map (·.1)
      s.setPort k { q with queue := kept, going := q.going.filter fun g => !mine g.2 || kept.any fun f => f.from_ == g.2 && f.hdr.vc == g.1 }
    else s) s
/-- A port goes down: its record, its count and its event are made, the link map follows, the places of what waited in transit are
returned, and the messages it held are lost (R287, R289, R290, R305, R340). -/
def State.takeDown (s : State) (p : Nat) : State :=
  let q := s.port p
  let s := (s.setPort p q.down).dropTransit p
  let s := ((s.countU (fabDie p) (fabPage p) 1).fabLog p 3 0 0 0).fabEvent p 1
  let s := if q.state = 2 ∨ q.state = 3 then
      (s.setHdr (fabDie p) (fabPage p) { s.hdr (fabDie p) (fabPage p) with bad := true }).tellLink p false
    else s
  (q.queue.foldl (fun s f => s.returnPlace f.from_) s).loseFlits (q.retry ++ q.queue)
/-- A port is lost: it goes down, and its neighbour's seat is LOST where no port leads there any more and it had not drained (R290,
R303). -/
def State.portLost (s : State) (p : Nat) : State :=
  let q := s.port p
  if q.state = 0 then s
  else
    let up := q.state == 2 || q.state == 3
    let s := s.takeDown p
    match q.partner with
    | none => s
    | some x =>
      let there := fun (k : Nat) => decide ((s.port k).state = 2 ∨ (s.port k).state = 3) &&
        ((s.port k).partner.map fun y => (y.rink, y.seat)) == some (x.rink, x.seat)
      let e := s.seatE (seatIdx x.rink x.seat)
      if !up ∨ portRole p = 2 ∨ (List.range 32).any there ∨ e.state = 3 ∨ e.state = 4 then s
      else (s.seatTo x.rink x.seat 4 e.lid).announce 0x32 [x.rink, x.seat, 4, e.lid]

/-- PORT_DOWN: a retrain has failed or a lane is lost (R286). -/
def execPortDown (p : Nat) (s : State) : Res := .next (s.portLost p)

/-- BER_HIGH (R286, R305). -/
def execBerHigh (p : Nat) (measured : W32) (s : State) : Res :=
  .next (((s.wr (fabDie p) (fabReg p Reg.FAB_BER) measured).fabLog p 6 0 0 0).fabEvent p 6)

-- Link flits (R285, R286)

/-- Flits that an ACK leaves in the retry buffer: those after the acknowledged one. -/
def afterAck (ack : Nat) (l : List Flit) : List Flit :=
  match l.findIdx? fun f => f.hdr.seq == ack with
  | some k => l.drop (k + 1)
  | none => l
/-- Takes the ACK and NAK of a flit: acknowledged flits leave the buffer; a NAK resends the rest in order, and the ninth sending
in a row of the same flit retrains the port. -/
def State.takeAck (s : State) (p : Nat) (h : FlitHdr) : State :=
  let q := s.port p
  let l := afterAck h.ack q.retry
  let moved := decide (l.length < q.retry.length)
  if !h.nak ∨ l.isEmpty then s.setPort p { q with retry := l, resends := if moved then 0 else q.resends }
  else
    let n := if moved then 0 else q.resends
    if n ≥ 8 then s.setPort p { q with state := 3, retry := l, resends := 0 }
    else
      let s := s.setPort p { q with retry := l, resends := n + 1 }
      let s := ((s.bump (fabDie p) (fabReg p Reg.FAB_RESENT) l.length).countC (fabDie p) (fabPage p) l.length).fabEvent p 2
      l.foldl (fun s f => (s.putFlit p f.hdr f.data).fabLog p 1 f.hdr.seq f.hdr.vc 0) s
/-- Takes the credits that a flit returns (R285, R287). -/
def State.takeCredits (s : State) (p : Nat) (h : FlitHdr) : State :=
  if h.credits = 0 ∨ h.cvc ≥ 9 then s
  else
    let q := s.port p
    s.setPort p { q with used := tabSet (fun _ => 0) q.used h.cvc (tabGet (fun _ => 0) q.used h.cvc - h.credits) }
/-- Asks for the flits after the last one received in order. -/
def State.sendNak (s : State) (p : Nat) : State := s.sendBare p 1 true
/-- A data flit received in order is taken; where the port then sends no data, an idle flit acknowledges it. -/
def State.acceptFlit (s : State) (p : Nat) (h : FlitHdr) (payload : List Byte) : State :=
  let q := s.port p
  let s := (s.setPort p { q with rxSeq := (q.rxSeq + 1) % 4096 }).bumpWrap (fabDie p) (fabReg p Reg.FAB_RX_FLITS) 1
  let s := s.takeFlit p h (payload.take h.len)
  if (s.port p).txSeq = q.txSeq then s.sendBare p 2 false else s

/-- FLIT: a flit arrives with its payload and its CRC: its acknowledgement and its credits are taken, waiting flits go out against them,
and a data flit is taken if it is the one expected; the credits of one that is not come again with its resend (R285 to R287). -/
def execFlit (p : Nat) (h : FlitHdr) (b : FlitBody) (s : State) : Res :=
  if (s.port p).state ≠ 2 then .next s
  else if b.crc ≠ flitCrc h b.payload then .next ((s.bump (fabDie p) (fabReg p Reg.FAB_CRC_ERR) 1).sendNak p)
  else if h.kind ≥ 3 ∨ h.vc ≥ 9 then
    .next ((s.fabLog p 5 h.seq h.vc (BitVec.ofNat 32 (flitWord h))).fabEvent p 5)
  else
    let s := s.takeAck p h
    let s := if h.kind ≠ 0 ∨ h.seq = (s.port p).rxSeq then s.takeCredits p h else s
    let s := s.pump p (s.port p).queue.length
    if h.kind ≠ 0 then .next s
    else if h.seq = (s.port p).rxSeq then .next (s.acceptFlit p h b.payload)
    else .next (s.sendNak p)

-- Names (R291, R292)

/-- Applies a name update. -/
def State.applyName (s : State) (lid rink seat version oldRink oldSeat : Nat) : State :=
  let s := s.setName lid ⟨true, rink, seat⟩
  let s := { s with fb := { s.fb with ntVersion := version } }
  ((s.seatTo oldRink oldSeat 4 lid).seatTo rink seat 2 lid).raise 4 0xE0 4

/-- NAME_UPDATE received on a port: applied and passed on, acknowledged, or refused as a conflict (R292). -/
def execNameUpdate (lid rink seat version oldRink oldSeat from_ : Nat) (s : State) : Res :=
  let ack := fun (s : State) (c : Nat) => s.sendService from_ 0x31 [lid, s.kd.rink, s.kd.seat, version, c]
  let e := s.name lid
  if version > s.fb.ntVersion then
    let s := ack (s.applyName lid rink seat version oldRink oldSeat) 0
    let to_ := if portRole from_ = 1 then portsOf 0 else if portRole from_ = 0 ∧ rink = s.kd.rink then portsOf 1 else []
    .next (to_.foldl (fun s p => s.sendService p 0x30 [lid, rink, seat, version, oldRink, oldSeat]) s)
  else if version = s.fb.ntVersion ∧ e.valid ∧ e.rink = rink ∧ e.seat = seat then .next (ack s 0)
  else
    let q := ((s.port from_).partner.map fun x => (x.rink, x.seat)).getD (0, 0)
    let word := s.fb.lid.getD 0 + 2 ^ 12 * (s.seatE (seatIdx q.1 q.2)).lid + 2 ^ 24 * (s.kd.rink % 256)
    .next (ack ((s.colLog 9 0 0 lid 0 0 word).raise 4 0xE0 5) 1)

/-- SEAT_STATE: a broadcast reaches the module; what is new to it, it passes on (R292, R303). -/
def execSeatState (rink seat state lid : Nat) (s : State) : Res :=
  .next (if state > 4 then s
    else
      let t := s.seatTo rink seat state lid
      if s.seatE (seatIdx rink seat) = ⟨state, lid⟩ then t else t.announce 0x32 [rink, seat, state, lid])

/-- LINK_STATE: a broadcast reaches the module; what is new to it, it passes on (R289, R292). -/
def execLinkState (rink rink2 : Nat) (up : Bool) (s : State) : Res :=
  let t := s.setLink rink rink2 up
  .next (if s.rinkLink rink rink2 = up then t else t.announce 0x33 [rink, rink2, b2n up])

/-- COL_SEAT_CMD.DRAIN (R303, R306). -/
def execDrain (ag : Agent) (s : State) : Res :=
  match s.regGuard ag 4 0xE0 1 with
  | (s, false) => .next s
  | (s, true) =>
    if s.fb.lid.isSome then .next ((s.colLog 0x0D 0 0 0 0 0 0).raise 4 0xE0 14)
    else
      let s := (s.seatTo s.kd.rink s.kd.seat 3 0).announce 0x32 [s.kd.rink, s.kd.seat, 3, 0]
      .next ((List.range 32).foldl (fun s p => if (s.port p).state = 0 then s else s.takeDown p) s)

-- Stand-in takeover (R302)

/-- STANDIN_DIRECTIVE: the flash command at the front of a stove's mailbox (R274, R302). -/
def execStandinDirective (st : Nat) (s : State) : Res :=
  .next (s.takeFlash st 3 fun s b =>
    let lid := leAt b 0x10 4 % 4096
    let version := leAt b 0x14 4
    if s.fb.lid.isSome ∨ version ≤ s.fb.ntVersion then s.flashRefuse st b
    else
      let old := leAt b 0x18 4
      let s := { s with fb := { s.fb with lid := some lid } }
      let s := s.applyName lid s.kd.rink s.kd.seat version (bits old 7 0) (bits old 11 8)
      let me := seatIdx s.kd.rink s.kd.seat
      let peers := (s.fb.seats.filter fun e => e.1 != me && (e.2.state == 1 || e.2.state == 2)).map (·.1)
      let s := { s with fb := { s.fb with
        standin := 1, waiting := peers, standinCmd := b, conflict := false } }
      (s.flashDone st b 0).announce 0x30 [lid, s.kd.rink, s.kd.seat, version, bits old 7 0, bits old 11 8])

/-- NAME_ACK at the stand-in (R292, R302). -/
def execNameAck (lid rink seat version : Nat) (conflict : Bool) (s : State) : Res :=
  if s.fb.standin ≠ 1 ∨ s.fb.lid ≠ some lid ∨ version ≠ s.fb.ntVersion then .next s
  else
    .next { s with fb := { s.fb with
      waiting := s.fb.waiting.filter (· != seatIdx rink seat), conflict := s.fb.conflict || conflict } }

/-- The directive ends with a status: the job slots that SLOTS names resume, and what was held of them goes out. -/
def State.endStandin (s : State) (status : Nat) : State :=
  let slots := leAt s.fb.standinCmd 0x1C 1
  let s := { s with fb := { s.fb with standin := status, parked := (List.range 8).filter fun b => !bitOf slots b } }
  (s.raise 4 0xE0 6).flushHeld

/-- STANDIN_DONE: every seat asked has answered (R302). -/
def execStandinDone (s : State) : Res :=
  if s.fb.standin ≠ 1 ∨ !s.fb.waiting.isEmpty then .next s
  else .next (s.endStandin (if s.fb.conflict then 3 else 2))

/-- NT_TIMEOUT (R302). -/
def execNtTimeout (s : State) : Res :=
  if s.fb.standin ≠ 1 ∨ s.fb.waiting.isEmpty then .next s
  else .next ((s.colLog 0x0A 0 0 (s.fb.lid.getD 0) 0 0 0).endStandin 4)

-- Pistes (R299 to R301)

/-- The first failing check of a piste image, 0 for none (R300). -/
def State.pisteReason (s : State) (b : Nat) (img : List Byte) : Nat :=
  let n := leAt img 0x14 4
  let exc := pisteExc img
  let me := (s.kd.rink, s.kd.seat)
  let clean := leAt img 6 2 + leAt img 8 4 / 16 + leAt img 12 4 / 2 ^ 24 + n / 2048 + leAt img 0x18 40 +
    ((List.range (min n 1024)).map fun e => leAt img (64 + 8 * e) 8 / 2 ^ 26).sum
  let mask := leAt img 16 4
  let bad := fun (e : Nat × Nat × Nat × Nat) =>
    let d := s.name e.1
    let there := (d.rink, d.seat)
    let via := (e.2.2.1, e.2.2.2)
    match e.2.1 with
    | 0 => false
    | 1 => via == me || via == there || (via.1 != me.1 && via.1 != there.1)
    | 2 => me.1 == there.1 || via.1 == me.1 || via.1 == there.1
    | _ => true
  if leAt img 0 4 ≠ 0x45545350 ∨ leAt img 4 2 ≠ 1 ∨ clean ≠ 0 then 1
  else if pisteClasses img = 0 ∨ leAt img 12 1 + leAt img 13 1 + leAt img 14 1 > 256 then 2
  else if bitOf mask 23 ∨ !((portsOf 0).any fun p => bitOf mask p) then 3
  else if n > 1024 ∨ 64 + 8 * n > img.length then 4
  else if exc.any bad then 5
  else if exc.any fun e => !has (s.members b) e.1 then 6
  else 0

/-- COL_PISTE_LOAD_CMD (R299, R300, R306). A write with GO 0 loads nothing. -/
def execPisteLoad (ag : Agent) (value : W32) (s : State) : Res :=
  match s.regGuard ag 4 0xE0 value with
  | (s, false) => .next s
  | (s, true) =>
    let b := fld value 2 0
    let k := fld value 6 3
    let len := 8 * fld value 19 7
    let hi := s.rd 4 Reg.COL_PISTE_LOAD_HI
    let a := s.rdN 4 Reg.COL_PISTE_LOAD_LO + 2 ^ 32 * fld hi 15 0
    let c := fld hi 27 16
    let j := s.cjob b
    if !bitOf value.toNat 31 then .next s
    else if j.active = some k ∨ a % 64 ≠ 0 ∨ !s.mapped c a len false ∨ (s.memBad 0 c [(a, len)] false).isSome then
      .next (s.colLog 2 b 0 0 c 0 0)
    else
      let img := s.vrdN c a len
      let r := s.pisteReason b img
      let s := (s.reachAs 0 c [(a, len)] false false 1 []).wr 4 Reg.COL_PISTE_STATUS (pack [(b2n (r == 0), 1), (r, 8)])
      if r ≠ 0 then .next ((s.colLog 1 b r 0 c 0 0).raise 4 0xE0 1)
      else .next (s.setCjob b { j with pistes := j.pistes.filter (fun p => p.1 != k) ++ [(k, img)] })

/-- PISTE_SWITCH: once every flit that the job sent under the outgoing piste is acknowledged, the oldest switch of the slot takes effect
(R14, R301). -/
def execPisteSwitch (slot : Nat) (s : State) : Res :=
  let mine := fun (f : Flight) =>
    match f.body with
    | .piste b k => if b = slot then some k else none
    | _ => none
  match s.sq.flights.find? fun f => (mine f).isSome with
  | none => .next s
  | some f =>
    if s.unacked slot then .next s
    else
    let s := if (s.ctx f.ctx).state = 4 ∨ !(s.ctx f.ctx).isBound then s.endFlight f else s.putFlight { f with body := .plain }
    let next := s.sq.flights.findSome? mine
    let s := s.setCjob slot { s.cjob slot with active := mine f, switching := next }
    .next ((s.raise 4 0xE0 0).flushHeld)

-- Job slots (R210, R294, R306)

/-- A write to COL_JOB_b_CTRL. -/
def State.colCtrlWrite (s : State) (ag : Agent) (b : Nat) (value : W32) : State :=
  match s.regGuard ag 4 0xE1 value with
  | (s, false) => s
  | (s, true) =>
    let k := colReg b Reg.COL_JOB_b_CTRL
    let refuse := (s.colLog 0x0D b 0 0 0 0 0).raise 4 0xE0 14
    let c := s.dirCtx b
    let n := s.memberCount b
    let at_ := fun lo hi => s.rdN 4 (colReg b lo) + 2 ^ 32 * fld (s.rd 4 (colReg b hi)) 15 0
    if bitOf (s.rdN 4 k) 0 then
      if bitOf value.toNat 0 ∨ (s.job b).inStep ∨ (List.range 4).any (fun st => bitOf (s.swpCtrl st b).toNat 0) then refuse
      else s.wr 4 k 0
    else if !bitOf value.toNat 0 then s
    else if s.blockOn 4 0xE1 ∧ !s.kd.serviceOnly ∧ 1 ≤ n ∧ n ≤ 4096 ∧
        s.mapped c (at_ Reg.COL_JOB_b_MEM_LO Reg.COL_JOB_b_MEM_HI) (2 * n) false ∧
        s.mapped c (at_ Reg.COL_JOB_b_STAGE_LO Reg.COL_JOB_b_STAGE_HI)
          (2 ^ 21 * fld (s.rd 4 (colReg b Reg.COL_JOB_b_STAGE_HI)) 27 16) true ∧
        s.mapped c (at_ Reg.COL_JOB_b_VDEST_LO Reg.COL_JOB_b_VDEST_HI) (64 + 48 * n) true then
      let s := (s.wr 4 k 1).setCjob b { s.cjob b with cseq := 0 }
      ({ s with fb := { s.fb with parked := s.fb.parked.filter (· != b) } } : State).flushHeld
    else refuse

/-- A write to COL_JOB_b_CTRL that sets ENABLE (R294). -/
def execColJobEnable (ag : Agent) (slot : Nat) (value : W32) (s : State) : Res := .next (s.colCtrlWrite ag slot value)
/-- A write to COL_JOB_b_CTRL that clears ENABLE (R210, R306). -/
def execColJobDisable (ag : Agent) (slot : Nat) (value : W32) (s : State) : Res := .next (s.colCtrlWrite ag slot value)

/-- TEMP_HIGH: a die sensor reads TRIP − 10 °C or more (R332). -/
def execTempHigh (die temp : Nat) (s : State) : Res :=
  let s := s.wr die Reg.PLT_TEMP (setFld (s.rd die Reg.PLT_TEMP) 7 0 temp)
  .next (if temp ≥ 100 ∧ die ≤ 6 then s.raise die 0xF0 3 else s)

end Sys2Proof.Machine
end

