-- ==== Sys2Proof/Machine/Kindle.lean ====
section
/-! DEFINITION. Reset sources, the power input, the release order, kindling, pins and the journal's background erase (R3, R307 to
R311, R314 to R323, R330, R331, R350 to R360). -/

namespace Sys2Proof.Machine

-- Images (R318 to R323)

/-- A copy of a type: 0 slot A, 1 slot B, 2 and 3 the recovery regions of device 0 and 1. -/
def State.image (s : State) (copy type : Nat) : Image := tabGet (fun _ => {}) s.kd.images (16 * copy + type)
/-- Does flash still hold what the module was delivered with there? -/
def Image.factory (i : Image) : Bool := i.manifest.isEmpty && i.image.isEmpty
/-- The entry of a directory for a type (R318): the type, 7 reserved bytes, and the offset and length of its manifest and image. -/
def dirEntry (dir : List Byte) (type : Nat) : Option (Nat × Nat) :=
  ((List.range 5).find? fun e => leAt dir (16 * e) 1 == type).map fun e => (leAt dir (16 * e + 8) 4, leAt dir (16 * e + 12) 4)
/-- The 4 KiB directory of a slot: an entry for each type that an update has written there (R318). -/
def State.slotDirectory (s : State) (copy : Nat) : List Byte :=
  fitBytes 4096 ([1, 2, 3, 4, 5].flatMap fun t =>
    let i := s.image copy t
    leBytes 1 t ++ List.replicate 7 0 ++ leBytes 4 i.off ++ leBytes 4 (4096 + i.image.length))
/-- A member of a recovery bundle's region: the manifest that its directory names, and the image behind it (R318). -/
def bundleMember (b : List Byte) (type : Nat) : Image :=
  match dirEntry b type with
  | some (off, len) => { manifest := (b.drop off).take 4096, image := ((b.drop off).drop 4096).take (len - 4096), off := off }
  | none => {}
/-- The images of a bundle in all, in bytes (R318). -/
def bundleImages (b : List Byte) : Nat := ([1, 2, 3, 4, 5].map fun t => (bundleMember b t).image.length).sum
/-- The manifest of a copy: in a slot, or of a member of the recovery bundle of a device (R318). -/
def State.manifest (s : State) (copy type : Nat) : List Byte :=
  if copy < 2 then
    let i := s.image copy type
    if i.factory then Config.factoryManifest (16 * copy + type) else i.manifest
  else
    let b := s.image copy 15
    if b.factory then Config.factoryManifest (16 * copy + type) else (bundleMember b.image type).manifest
/-- SVN of a manifest. -/
def manSvn (m : List Byte) : Nat := leAt m 0x0C 2
/-- The manifest digest (R321). -/
def manDigest (m : List Byte) : List Byte := shake256 (m.take 0xF8E) 64
/-- Is every byte of a list zero? -/
def zeros (l : List Byte) : Bool := l.all fun b => b == 0
/-- May an image with this manifest run as the fuses now stand: its key is not revoked, and its SVN is not below the type's counter
(R321)? -/
def State.fusesAllow (s : State) (type : Nat) (m : List Byte) : Bool :=
  let v := tabGet (fun _ => 0) s.kd.svn type
  (s.kd.revoked.isEmpty || !has s.kd.revoked (leAt m 7 1)) && (v == 0 || decide (v ≤ manSvn m))
/-- Does an image verify under a manifest of a type (R321)? -/
def State.verifies (s : State) (type : Nat) (i : Image) : Bool :=
  let m := i.manifest
  let k := leAt m 7 1
  let key := (m.drop 0x60).take 57
  let len := leAt m 0x10 4
  m.length == 4096 && leAt m 0 4 == 0x464D594E && leAt m 4 2 == 1 && leAt m 6 1 == type && decide (k < 4) &&
    zeros ((m.drop 0x16).take 10) && zeros ((m.drop 0x99).take 7) && zeros ((m.drop 0x6A0).take 2286) &&
    ((List.range 64).all fun e => m.getD (0xA0 + 8 * e + 3) 0 == 0) &&
    ((List.range 128).all fun e => zeros ((m.drop (0x2A0 + 8 * e + 1)).take 3)) &&
    shake256 key 64 == Config.fusedKeyDigest k && Config.ed448Verify key (manDigest m) (m.drop 0xF8E) &&
    decide (len ≤ i.image.length) && shake256 (i.image.take len) 64 == (m.drop 0x20).take 64 && s.fusesAllow type m
/-- Does what an update carries as a component verify: an image under its manifest, or each member of a recovery bundle under its own
manifest of type 0x0F (R318, R321)? -/
def State.componentOk (s : State) (type : Nat) (i : Image) : Bool :=
  if type = 15 then [1, 2, 3, 4, 5].all fun t => s.verifies 15 (bundleMember i.image t) else s.verifies type i
/-- Does a copy verify? Of what the module was delivered with the attempt's own outcome tells what its bytes are; the fuses are as they
stand now. -/
def State.copyOk (s : State) (copy type : Nat) (pass : Bool) : Bool :=
  let i := s.image copy type
  if !i.factory then s.componentOk type i
  else if type = 15 then pass && [1, 2, 3, 4, 5].all fun t => s.fusesAllow 15 (s.manifest copy t)
  else pass && s.fusesAllow type (s.manifest copy type)
/-- The recovery bundle that verifies: of device 0 (copy 2), else of device 1 (copy 3) (R318). -/
def State.bundle (s : State) (pass : Bool) : Option Nat := [2, 3].find? fun c => s.copyOk c 15 pass
/-- The active copy of a type. -/
def State.activeCopy (s : State) (t : Nat) : Nat := tabGet (fun _ => 0) s.kd.jr.active t
/-- The copy that runs. -/
def State.runs (s : State) (t : Nat) : Nat := tabGet (fun _ => 0) s.kd.running t
/-- Sets the copy that runs. -/
def State.setRuns (s : State) (t c : Nat) : State := { s with kd := { s.kd with running := tabSet (fun _ => 0) s.kd.running t c } }
/-- Does the module run its recovery bundle, or a member of it? -/
def State.inRecovery (s : State) : Bool := (List.range 6).any fun t => decide (1 ≤ t) && decide (2 ≤ s.runs t)

/-- The stamps of a manifest: interface, accepts, level range (R322). -/
def stamps (m : List Byte) : List (Nat × Bool × Nat × Nat) :=
  (List.range (min 64 (leAt m 0x0E 2))).map fun e =>
    let o := 0xA0 + 8 * e
    (leAt m o 2, leAt m (o + 2) 1 == 1, leAt m (o + 4) 2, leAt m (o + 6) 2)
/-- Does `y` provide what `x` accepts from it (R323)? An interface names its provider and acceptors (R322). -/
def accepts (tx ty : Nat) (x y : List Byte) : Bool :=
  let iface : List (Nat × Nat × List Nat) := [(1, 1, [2]), (2, 1, [3, 4, 5]), (3, 3, [2, 5]), (4, 4, [3]), (5, 5, [3])]
  (iface.filter fun i => i.2.1 == ty && has i.2.2 tx).all fun i =>
    ((stamps x).filter fun a => a.1 == i.1 && a.2.1).all fun a =>
      match (stamps y).find? fun p => p.1 == i.1 && !p.2.1 with
      | some p => decide (a.2.2.1 ≤ p.2.2.1 ∧ p.2.2.1 ≤ a.2.2.2)
      | none => false
/-- The pairs of types that share an interface, in pair order (R322). -/
def imagePairs : List (Nat × Nat) := [(1, 2), (1, 3), (1, 4), (1, 5), (2, 3), (3, 4), (3, 5)]
/-- Is a pair of manifests compatible? -/
def compatible (p : Nat × Nat) (x y : List Byte) : Bool := accepts p.1 p.2 x y && accepts p.2 p.1 y x
/-- Does a TESTED list hold a type and version? -/
def listsTested (m : List Byte) (t : Nat) (o : List Byte) : Bool :=
  (List.range (min 128 (leAt m 0x14 2))).any fun e =>
    leAt m (0x2A0 + 8 * e) 1 == t && (m.drop (0x2A0 + 8 * e + 4)).take 4 == (o.drop 8).take 4
/-- Is the pair of running copies compatible? -/
def State.pairOk (s : State) (p : Nat × Nat) : Bool :=
  compatible p (s.manifest (s.runs p.1) p.1) (s.manifest (s.runs p.2) p.2)
/-- Is it tested? -/
def State.pairTested (s : State) (p : Nat × Nat) : Bool :=
  let x := s.manifest (s.runs p.1) p.1
  let y := s.manifest (s.runs p.2) p.2
  listsTested x p.2 y || listsTested y p.1 x

/-- Journals a copy as the active one of its type; `pending` says from the next kindling on (R324, R331). -/
def State.jnlSlot (s : State) (t copy : Nat) (pending : Bool) : State :=
  s.jnl 6 [t, copy, b2n pending, tabGet (fun _ => 0) s.kd.jr.actSeq t] []
/-- Makes a copy active now, with the next activation number. -/
def State.activate (s : State) (t copy : Nat) : State := s.jnl 6 [t, copy, 0, s.kd.jr.nextAct] []
/-- Forgets the memory of every instance of some steps, and the parts that step 9 had mapped out (R317). -/
def State.clearSteps (s : State) (steps : List Nat) : State :=
  s.modJr fun k => { k with
    mem := k.mem.filter fun e => !has steps (e.1 / 65536), pcKeep := if has steps 9 then [] else k.pcKeep }
/-- The steps whose memory a newly activated type clears (R317). -/
def typeSteps (t : Nat) : List Nat :=
  7 :: (match t with
    | 1 => [2]
    | 2 => [6]
    | 3 => [12]
    | 4 => [9]
    | _ => [15])

/-- Step 7's running set, with swaps for pairs that are not compatible (R323); false where none is left. -/
def State.formSet : Nat → State → State × Bool
  | 0, s => (s, false)
  | u + 1, s =>
    match imagePairs.find? fun p => !s.pairOk p with
    | none => (s, true)
    | some p =>
      let seq := fun t => tabGet (fun _ => 0) s.kd.jr.actSeq t
      let x := if seq p.1 > seq p.2 then p.1 else p.2
      let y := if x = p.1 then p.2 else p.1
      let free := fun t => decide (s.runs t < 2) && s.copyOk (1 - s.runs t) t true && !(s.kd.tried.any fun e => e == (t, 1 - s.runs t))
      let swap := fun (t : Nat) =>
        let c := 1 - s.runs t
        let s := { s with kd := { s.kd with tried := s.kd.tried ++ [(t, 1 - c), (t, c)] } }
        let s := ((s.setRuns t c).activate t c).clearSteps (typeSteps t)
        ((s.kdlLog 3 7 0 t 1 0 s.kd.jnlSeq).raise 7 0x100 7).jnl 11 [3, t] []
      if free x then State.formSet u (swap x) else if free y then State.formSet u (swap y) else (s, false)
/-- Pairs that run untested are marked and logged once (R323). -/
def State.markUntested (s : State) : State :=
  let n := ((imagePairs.zipIdx.filter fun p => !s.pairTested p.1).map fun p => 2 ^ p.2).sum
  let s := { s with kd := { s.kd with untested := n } }
  if n = 0 then s else (((s.kdlLog 0x0C 7 0 0 0 n s.kd.jnlSeq).raise 7 0x100 6).jnl 11 [0x0C, n] [])

-- Kindling (R314 to R317)

/-- Methods of a step. -/
def stepMethods (n : Nat) : Nat := nth 0 [0, 1, 3, 3, 1, 1, 3, 2, 2, 3, 2, 1, 2, 1, 1, 1, 1, 1] n
/-- Instances of a step: links, stacks, packages, stoves, arrays, granules, ports, or the module. -/
def stepCount (n : Nat) : Nat := nth 1 [0, 1, 1, 1, 1, 1, 1, 1, 2, 20, 32, 1, 4, 192, 1536, 32, 1, 1] n
/-- The release that a step performs, 0 for none (R310). -/
def stepRelease (n : Nat) : Nat := nth 0 [0, 1, 0, 0, 0, 2, 3, 0, 4, 5, 0, 0, 6, 7, 0, 8, 0, 0] n
/-- Steps whose failure halts the kindler. -/
def stepHalts (n : Nat) : Bool := has [1, 2, 5, 6, 7, 16] n

/-- Every memory and register outside the kindler loses its contents; the kindler's own page stays (R308). What the memories then hold
is undefined: free values of one draw. -/
def State.diesReset (s : State) : State :=
  { State.reset with
    pg := { hdr := s.pg.hdr.filter (fun e => e.1 / 4096 == 7), regs := s.pg.regs.filter (fun e => e.1 / 0x1000000 == 7), latch := [] }
    sp := { SpdSt.reset with seed := s.free + 1 }, tr := { TierSt.reset with seed := s.free + 1 }
    kd := { s.kd with late := [] }, out := s.out, pending := s.pending, free := s.free + 1 }
/-- A halt: every domain but the kindler is held in reset; in step 1 it is a hard halt (R314). A kindling that it ends counts as one
without a hand-off (R317). -/
def State.haltKdl (s : State) (hard : Bool) : State :=
  let s := (s.diesReset.countU 7 0x100 1).jnl 11 [4, s.kd.step] []
  let s := if s.kd.state = 0 then s.modJr fun k => { k with fails := min 15 (k.fails + 1) } else s
  { s with kd := { s.kd with state := 4, hard := hard, method := 0, released := min 1 s.kd.released } }

/-- A part leaves service at kindling; `fresh` where it has just failed, so that a RETIRE record is due (R316, R331). -/
def State.partOut (s : State) (fresh : Bool) (kind die index : Nat) : State :=
  let s := if fresh then s.retire kind die index 0 else s
  { s with kd := { s.kd with degraded := true } }
/-- Maps pseudo-channels of a stack out: stack number, and which of its 32. -/
def State.mapOut (s : State) (stack : Nat) (which : List Nat) (fresh : Bool) : State :=
  let st := stack / 5
  which.foldl (fun s i =>
    let p := 160 * st + 32 * (stack % 5) + i
    let s := { s with tr := { s.tr with pcOut := addOnce s.tr.pcOut p }, kd := { s.kd with degraded := true } }
    if fresh then s.jnl 3 [2, st, p % 160, 0] [] else s) s
/-- What a step does when every method of an instance has failed (R314). Step 4 also applies the configuration (R3); whether the
configured host-partition size still applies when the step fails for want of a position the spec does not say: here it does not,
and the default of 128 GiB stays, with no CONFIG record (DESIGN CHOICE, log 75). -/
def State.failAction (s : State) (step inst : Nat) (fresh : Bool) : State :=
  match step with
  | 4 => { s with kd := { s.kd with noPosition := true } }
  | 8 | 12 => ({ s with kd := { s.kd with serviceOnly := true } } : State).jnl 11 [2, step] []
  | 9 => s.mapOut inst (List.range 32) fresh
  | 10 =>
    ({ s with tr := { s.tr with pkgOut := addOnce s.tr.pkgOut inst } } : State).partOut fresh 3 (4 + inst / 16) (inst % 16)
  | 13 =>
    let a := s.arr (inst / 48) (inst % 48)
    (s.setArr (inst / 48) (inst % 48) { a with retired := true, retKindling := true }).partOut fresh 0 (inst / 48) (inst % 48)
  | 14 =>
    ({ s with sp := { s.sp with granRet := addOnce s.sp.granRet inst, granKin := addOnce s.sp.granKin inst } } : State).partOut fresh 1 (inst / 384) (inst % 384)
  | 15 => ({ s with kd := { s.kd with portsDown := addOnce s.kd.portsDown inst } } : State).partOut fresh 4 (4 + inst / 16) (inst % 16)
  | _ => s
/-- Begins an attempt: the BEGUN record (R316). Its detail is 0, the first sub-unit in training; a watchdog names the one that hung:
DESIGN CHOICE (log 98). -/
def State.attempt (s : State) (step inst m : Nat) : State :=
  let s := s.jnl 2 [step, inst, m, 3, 0] []
  { s with kd := { s.kd with step := step, inst := inst, method := m } }
/-- The starting method of an instance, none where none is left; a BEGUN with no outcome is settled (R315). -/
def State.startMethod (s : State) (step inst : Nat) : State × Option Nat :=
  let i := s.inst step inst
  let failed := fun (m : Nat) => if step = 15 ∨ m ≥ stepMethods step then none else some (m + 1)
  match i.outcome with
  | 0 => (s, some 1)
  | 1 => (s, some i.method)
  | 2 => (s, failed i.method)
  | _ =>
    if has [4, 7] s.kd.cause then
      (s.jnl 2 [step, inst, i.method, 2, i.detail] [], failed i.method)
    else ({ s with kd := { s.kd with torn := satAdd 0xFFFFFFFF s.kd.torn 1 } }, some i.method)
/-- The instance after another, in the order of the steps. -/
def nextInst (step inst : Nat) : Nat × Nat := if inst + 1 < stepCount step then (step, inst + 1) else (step + 1, 0)

/-- The hand-off of step 17 (R314, R317): the state that kindling ends in. -/
def State.handOff (s : State) : State :=
  let k := s.kd
  let st := if s.inRecovery then 3 else if k.serviceOnly then 2 else 1
  let s := { s with kd := { k with state := st, method := 0, inst := 0, step := 17, serviceOnly := k.serviceOnly || s.inRecovery } }
  let s := if s.inRecovery then s.jnl 11 [2, 17] [] else s
  (s.modJr fun k => { k with fails := 0 }).raise 7 0x100 0
/-- Goes to an instance and begins its attempt. An instance with no method left takes its failure action at once; a step waits for
the release that it performs; without a position every fabric port is held down. -/
def State.enter : Nat → Nat → Nat → State → State
  | 0, _, _, s => s
  | u + 1, step, inst, s =>
    let s := { s with kd := { s.kd with step := step, inst := inst, method := 0 } }
    if step > 17 then s.handOff
    else if inst = 0 ∧ stepRelease step > s.kd.released then s
    else if step = 15 ∧ s.kd.noPosition then
      State.enter u 16 0 ((List.range 32).foldl (fun s p => s.setPort p { s.port p with state := 4 }) s)
    else
      let y := s.startMethod step inst
      match y.2 with
      | some m => y.1.attempt step inst m
      | none =>
        if stepHalts step then y.1.haltKdl (step == 1)
        else
          let n := nextInst step inst
          State.enter u n.1 n.2 (y.1.failAction step inst ((s.inst step inst).outcome == 3))

/-- More than every instance of every step. -/
def kindleFuel : Nat := 2000

/-- A half as mounted: records are appended from the next page of 256 bytes on (R329). -/
def Keep.mounted (k : Keep) : Keep := { k with used := alignUp k.used 256 }
/-- The half that mount takes: the one with a committed, valid header and the higher GENERATION (R330). -/
def KdlSt.mount (k : KdlSt) : KdlSt :=
  match k.older with
  | some o => if o.headOk && (!k.jr.headOk || decide (o.generation > k.jr.generation)) then { k with jr := o, older := some k.jr } else k
  | none => k
/-- A kindling starts: the journal is mounted, the boot is counted and recorded, and pending images become active (R307, R317, R324,
R329). -/
def State.startKindling (s : State) : State :=
  let s := ({ s with kd := { s.kd.mount with measured := [] } } : State).modJr Keep.mounted
  let s := s.jnl 1 [s.kd.jr.bootCount + 1, s.kd.cause, s.kd.sub] []
  State.enter kindleFuel 1 0 (s.kd.jr.pendingImg.foldl
    (fun s t => if t = 15 then s else (s.activate t (1 - s.activeCopy t)).clearSteps (typeSteps t)) s)

/-- What the journal holds with one more kindling that had no hand-off, where one runs (R317). -/
def KdlSt.failed (k : KdlSt) (j : Keep) : Keep := if k.state = 0 ∧ 1 ≤ k.step then { j with fails := min 15 (j.fails + 1) } else j
/-- The kindler's state that flash and fuses keep, and the power input. Records that waited in the buffer are lost, and what they said
with them (R330). -/
def KdlSt.cold (k : KdlSt) : KdlSt :=
  let j := k.flashed.getD k.jr
  { KdlSt.reset with
    jr := k.failed j, jnlSeq := j.nextSeq
    older := k.older, images := k.images, svn := k.svn, revoked := k.revoked, erasing := k.erasing
    pre := k.pre, present := k.present, mainSwitch := k.mainSwitch, vsb := k.vsb, inputGood := k.inputGood, bus := k.bus }
/-- The kindler's state that a reset which does not reach it keeps too (R308). -/
def KdlSt.warm (k : KdlSt) : KdlSt :=
  { k.cold with
    jr := k.failed k.jr, flashed := k.flashed.map k.failed, jnlSeq := k.jnlSeq
    buffered := k.buffered, trips := k.trips, tripHold := k.tripHold, tripSeen := k.tripSeen, rrstDropped := k.rrstDropped
    torn := k.torn, released := 1, sensed := k.sensed }

/-- The kindler begins a kindling, or after eight without a hand-off halts instead, with a BOOT record of the cause; `force` is
HALT_RELEASE (R317). -/
def State.kindle (s : State) (force : Bool) : State :=
  if s.kd.jr.fails ≥ 8 ∧ !force then
    let s := ((s.countU 7 0x100 1).jnl 1 [s.kd.jr.bootCount, s.kd.cause, s.kd.sub] []).jnl 11 [4, 0] []
    { s with kd := { s.kd with state := 4 } }
  else s.startKindling
/-- A module reset (R307, R308): its cause is recorded, and the fuses keep sensed unless it is a power-on. One that reaches the kindler
waits for release 1 (R310); `force` is HALT_RELEASE. -/
def State.moduleReset (s : State) (cause sub expired : Nat) (force : Bool) : State :=
  let reached := decide (cause ≤ 2)
  let k := if reached then s.kd.cold else s.kd.warm
  let s : State := { s with kd := { k with cause := cause, sub := sub, expired := expired, sensed := cause ≠ 1 && s.kd.sensed } }
  let s : State := if reached then { s.diesReset with pg := PageSt.reset } else s.diesReset
  if reached then s else s.kindle force

/-- Can a reset of a running module start: it has power, and its dies are not held off (R309)? -/
def State.powered (s : State) : Bool := s.kd.inputGood && !s.kd.diesOff

/-- All die power is lost: only flash and fuses keep what they hold (R358, R359). -/
def State.powerLost (s : State) : State :=
  let s := { s with kd := { s.kd.cold with inputGood := false, mainSwitch := false } }
  { s.diesReset with pg := PageSt.reset }

/-- POWER_ON: input power becomes good after having been absent (R307, R359). -/
def execPowerOn (s : State) : Res :=
  if s.kd.inputGood ∨ !s.kd.mainSwitch then .next s
  else .next (({ s with kd := { s.kd with inputGood := true, vsb := true, bus := true } } : State).moduleReset 1 0 0 false)
/-- MOD_RESET_N held low for a number of samples (R307, R355). -/
def execModResetN (lowSamples : Nat) (s : State) : Res :=
  .next (if lowSamples ≥ 100 ∧ s.powered then s.moduleReset 2 0 0 false else s)
/-- PLT_MOD_RESET: from the host die, or from the kindler, whose writes are accepted wherever the runtime's are (R307, R332, R336). -/
def execPltModReset (ag : Agent) (die : Nat) (value : W32) (s : State) : Res :=
  if die ≠ 6 then .next (s.pageGuard ag die 0xF0 value).1
  else
  match s.regGuard ag die 0xF0 value with
  | (s, false) => .next s
  | (s, true) =>
    if (ag ≠ .runtime ∧ ag ≠ .kindler) ∨ value ≠ 0x4B525354 then .next (s.pltLog 6 4 0xF0 value)
    else .next (if s.powered then s.moduleReset 3 0 0 false else s)
/-- KINDLER_WATCHDOG: a step over its budget (1), or the kindler firmware's own watchdog (2) (R307, R314). The record of the hung
attempt names the sub-unit in training (R315, R316). A hard halt is left by no watchdog (R314). -/
def execKindlerWatchdog (w : Hang) (s : State) : Res :=
  let k := s.kd
  let sub := w.sub
  if !s.powered ∨ k.hard ∨ !(sub = 2 ∨ (sub = 1 ∧ k.state = 0 ∧ 1 ≤ k.method)) then .next s
  else
    let e := if sub = 1 then k.step else 0
    let s := if k.state = 0 ∧ 1 ≤ k.method ∧ w.detail ≠ 0 then s.jnl 2 [k.step, k.inst, k.method, 3, w.detail] [] else s
    .next ((s.kdlLog 0x0B k.step k.inst 0 k.method sub k.jnlSeq).moduleReset 4 sub e false)
/-- PLL_UNLOCK: a PLL loses lock after release 2 (R310). -/
def execPllUnlock (die : Nat) (s : State) : Res :=
  if !s.powered ∨ s.kd.released < 2 ∨ die > 6 then .next s
  else .next ((((s.raise die 0xF0 2).pltLog die 3 0xF0 0).countU die 0xF0 1).moduleReset 4 3 0 false)
/-- THERMAL_TRIP: a die sensor has read at least its trip temperature for 10 µs, at a time in seconds (R309). -/
def execThermalTrip (die reading time : Nat) (s : State) : Res :=
  if !s.powered ∨ reading < 110 ∨ die > 6 then .next s
  else
    let s := (s.kdlLog 0x0A 0 0 0 0 reading s.kd.jnlSeq).jnl 8 [die, Config.tripSensor die s.free, reading] []
    let t := s.kd.trips.filter (fun x => decide (time ≤ x + 3600)) ++ [time]
    let hold := decide (t.length ≥ 3)
    let k := s.kd.warm
    .next ({ s with kd := { k with
      cause := s.kd.cause, sub := s.kd.sub, trips := t, tripHold := k.tripHold || hold, tripSeen := k.tripSeen || hold,
      diesOff := true } } : State).diesReset
/-- TRIP_COOLDOWN_RESTART: after a trip the carrier's hottest sensor and the time since the trip (R309, R362). -/
def execTripCooldownRestart (hottest elapsedMs : Nat) (s : State) : Res :=
  if !s.kd.diesOff then .next s
  else
    let s := s.wr 7 Reg.KDL_THERM (setFld (s.rd 7 Reg.KDL_THERM) 7 0 hottest)
    if s.kd.tripHold ∨ hottest ≥ 60 ∨ elapsedMs < 10000 then .next s
    else .next (({ s with kd := { s.kd with diesOff := false } } : State).moduleReset 7 0 0 false)

/-- A release whose check fails is a failure of the step that performs it, at the last method of each of its instances (R310, R315,
R316). -/
def State.releaseFails (s : State) : State :=
  let n := s.kd.step
  let s := s.kdlLog 1 n 0 0 0 0 s.kd.jnlSeq
  let failed := fun (s : State) (i : Nat) => s.jnl 2 [n, i, stepMethods n, 2, 0] []
  if n = 9 then State.enter kindleFuel 10 0 ((List.range 20).foldl (fun s i => (failed s i).failAction 9 i true) s)
  else (failed s 0).haltKdl false
/-- DOMAIN_RELEASE: the gap of the next release has ended, with the outcome of its check (R310, R311). -/
def execDomainRelease (checkOk : Bool) (s : State) : Res :=
  let k := s.kd
  let r := k.released + 1
  if !s.powered ∨ k.state ≠ 0 ∨ r > 8 then .next s
  else if r = 1 then
    if checkOk then .next (({ s with kd := { k with released := 1, sensed := true } } : State).kindle false)
    else
      let s := { s with kd := { k with step := 1 } }
      .next ((s.kdlLog 9 1 0 0 0 0 k.jnlSeq).haltKdl true)
  else if k.method ≠ 0 ∨ stepRelease k.step ≠ r then .next s
  else
    let t := { s with kd := { k with released := r } }
    if (r = 2 ∨ r = 5) ∧ !checkOk then .next t.releaseFails else .next (State.enter kindleFuel k.step 0 t)

/-- Even parity of the 13 straps: RINK [7:0], SEAT [11:8], POS_PAR [12] (R352). -/
def strapsEven (w : Nat) : Bool := ((List.range 13).filter fun i => bitOf w i).length % 2 == 0
/-- What an attempt yields: images are verified, and the half that a method mounts must be there with a valid header (R314, R321,
R330). -/
def State.tryAttempt (s : State) (pass : Bool) : State × Bool :=
  let k := s.kd
  let bad := fun (s : State) (t : Nat) => s.kdlLog 2 k.step k.inst t k.method 0 k.jnlSeq
  let deliver := fun (t : Nat) =>
    let c := if k.method = 1 then s.activeCopy t else 1 - s.activeCopy t
    match if k.method = 3 then s.bundle pass else if s.copyOk c t pass then some c else none with
    | some c => (s.setRuns t c, pass)
    | none => (bad s t, false)
  match k.step with
  | 2 => deliver 1
  | 3 => (if pass then s else s.kdlLog 7 3 0 0 k.method 0 k.jnlSeq, pass && (k.method != 1 || k.jr.headOk) && (k.method != 2 || k.older.any Keep.headOk))
  | 6 => deliver 2
  | 7 =>
    if k.method = 1 then
      match [3, 4, 5].find? fun t => !s.copyOk (s.activeCopy t) t pass with
      | some t => (bad s t, false)
      | none =>
        let s := [3, 4, 5].foldl (fun s t => s.setRuns t (s.activeCopy t)) s
        let y := State.formSet 12 s
        (y.1, pass && y.2)
    else
      match s.bundle pass with
      | some c =>
        let t := [1, 2, 3, 4, 5].foldl (fun s t => s.setRuns t c) s
        (t, pass && imagePairs.all fun p => t.pairOk p)
      | none => (bad s 15, false)
  | _ => (s, pass)
/-- The images that run, by type: of each its manifest, and that of the recovery bundle where one runs (R325, R326). -/
def State.runningManifests (s : State) : List (Nat × List Byte) :=
  let b := if s.inRecovery then ((List.range 5).map fun t => s.runs (t + 1)).foldl max 2 else 2
  (List.range 5).map (fun t => (t + 1, s.manifest (s.runs (t + 1)) (t + 1))) ++
    [(15, Config.bundleManifest ((List.range 5).map fun t => s.manifest b (t + 1)))]
/-- What a passed attempt brings about (R3, R314, R325). Straps of odd parity are no position, and are read again at the next kindling: the
read itself has passed (R352; DEDUCED, log 75). -/
def State.passEffect (s : State) (detail straps : Nat) : State :=
  let k := s.kd
  match k.step with
  | 3 =>
    if k.method = 1 then s
    else
      let s := s.modJr fun _ => if k.method = 2 then (k.older.getD Keep.empty).mounted else Keep.empty
      let s := { s with kd := { s.kd with older := none, flashed := none, jnlSeq := s.kd.jr.nextSeq } }
      s.jnl 1 [s.kd.jr.bootCount + 1, k.cause, k.sub] []
  | 4 =>
    let u := k.jr.hostUnits
    let ok := decide (4 ≤ u ∧ u ≤ 32)
    let s := { s with kd := { k with rink := bits straps 7 0, seat := bits straps 11 8, noPosition := !strapsEven straps } }
    let s := { s with tr := { s.tr with hostUnits := if ok then u else 8 } }
    if ok then s else (s.kdlLog 8 4 0 0 1 u k.jnlSeq).jnl 5 [1, 8] []
  | 7 => s.markUntested
  | 9 =>
    let kept := (List.range 32).filter fun i => has k.jr.pcKeep (160 * (k.inst / 5) + 32 * (k.inst % 5) + i)
    let s := s.mapOut k.inst kept false
    if k.method = 1 then s
    else if k.method = 2 then
      { s with tr := { s.tr with fallback := addOnce s.tr.fallback k.inst }, kd := { s.kd with degraded := true } }
    else s.mapOut k.inst ((List.range 32).filter fun i => bitOf detail i && !has kept i) true
  | 10 =>
    if k.method = 1 then s
    else { s with tr := { s.tr with fallback := addOnce s.tr.fallback (32 + k.inst) }, kd := { s.kd with degraded := true } }
  | 11 => { s with mem := s.mem.filter fun e => decide (spdBase ≤ e.1), tr := { s.tr with seed := 0 } }
  | 15 => s.setPort k.inst { s.port k.inst with state := 1 }
  | 16 => { s with kd := { k with measured := s.runningManifests } }
  | _ => s

/-- KINDLING_STEP: the attempt in progress ends (R314 to R316). `detail` names the sub-unit; at method 3 of step 9 it is the mask of
the pseudo-channels that failed at both rates, and at step 3 the number of CRC failures that the mount has met (R334). -/
def execKindlingStep (pass : Bool) (detail straps : Nat) (s : State) : Res :=
  let k := s.kd
  if !s.powered ∨ k.state ≠ 0 ∨ k.method = 0 then .next s
  else
    let y := s.tryAttempt pass
    let s := if y.2 then y.1.passEffect detail straps else y.1
    let s := if k.step = 3 then s.countC 7 0x100 detail else s
    let s := s.jnl 2 [k.step, k.inst, k.method, if y.2 then 1 else 2, detail] []
    let n := nextInst k.step k.inst
    if y.2 then .next (State.enter kindleFuel n.1 n.2 s)
    else
      let s := s.kdlLog 1 k.step k.inst 0 k.method detail (s.kd.jnlSeq - 1)
      if k.method < stepMethods k.step then .next (s.attempt k.step k.inst (k.method + 1))
      else if stepHalts k.step then .next (s.haltKdl (k.step == 1))
      else .next (State.enter kindleFuel n.1 n.2 (s.failAction k.step k.inst true))

/-- Puts buffered records into the journal; a compaction on the way numbers the rest one higher and keeps it buffered (R330). -/
def State.flushJnl (s : State) : Nat → List JRec → State
  | _, [] => { s with kd := { s.kd with flashed := if s.kd.erasing then s.kd.flashed else none } }
  | d, r :: t =>
    let r := { r with seq := r.seq + d }
    if s.kd.erasing then ({ s with kd := { s.kd with buffered := s.kd.buffered ++ [r] } } : State).flushJnl d t
    else
      let g := s.kd.jr.generation
      let s := s.jnlPut r
      s.flushJnl (if s.kd.jr.generation = g then d else d + 1) t
/-- JOURNAL_ERASE_DONE: the old half has been erased; records held in the buffer are written (R330). -/
def execJournalEraseDone (s : State) : Res :=
  if !s.kd.erasing then .next s
  else
    let l := s.kd.buffered
    .next (({ s with kd := { s.kd with erasing := false, older := none, buffered := [] } } : State).flushJnl 0 l)

/-- RAIL_FAULT: a die rail leaves regulation after step 5; the kindler switches every die rail off and halts (R360). -/
def execRailFault (rail : Nat) (s : State) : Res :=
  let k := s.kd
  if !s.powered ∨ k.state = 4 ∨ (k.state = 0 ∧ k.step ≤ 5) then .next s
  else .next ((s.kdlLog 1 5 0 0 0 rail k.jnlSeq).haltKdl false)
/-- INPUT_LOCKOUT: the bus leaves the lockout limits; the main switch opens and the standby regulator shuts off (R358). -/
def execInputLockout (_overVolt : Bool) (s : State) : Res :=
  let t := s.powerLost
  .next { t with kd := { t.kd with vsb := false, bus := false } }
/-- PRE_MATE: the PRE contact mates; VSB comes up where the bus lies within the lockout limits (R354, R358, R359). The bus does, until
INPUT_LOCKOUT says that it has left them, and again once the main switch has closed or the module stands at another bus: DESIGN CHOICE
(log 99). -/
def execPreMate (s : State) : Res := .next { s with kd := { s.kd with pre := true, vsb := s.kd.vsb || s.kd.bus } }
/-- MAIN_SWITCH_CLOSE: closes only with PRESENT_N low and the bulk voltage within 1.0 V of VIN (R359). -/
def execMainSwitchClose (presentLow bulkWithin1V : Bool) (s : State) : Res :=
  if s.kd.pre ∧ presentLow ∧ bulkWithin1V then .next { s with kd := { s.kd with present := true, mainSwitch := true, vsb := true, bus := true } }
  else .next s
/-- PRESENT_N_BREAK: the main switch opens and the module loses power (R359). -/
def execPresentNBreak (s : State) : Res :=
  let t := s.powerLost
  .next { t with kd := { t.kd with present := false, bus := true } }

-- Pins (R311, R351, R357)

/-- The fused pin personality map: REL × 0x100 + POST × 0x10 + RST for groups 0 to 10 (R351). -/
def pinMap : List Nat := [0x0155, 0x0155, 0x0155, 0x0165, 0x0160, 0x0877, 0x0367, 0x0363, 0x0367, 0x0155, 0x0100]
/-- The state of a pin group, coded as R311: high impedance until the fuses are sensed after power-on and in a hard halt, RST until its
domain's release, POST after it. -/
def State.pinState (s : State) (g : Nat) : Nat :=
  let e := nth 0 pinMap g
  if s.kd.hard ∨ !s.kd.sensed then 0 else if s.kd.released ≥ e / 0x100 then e / 0x10 % 16 else e % 16
/-- The state of the lanes of an Ikigon port: they leave electrical idle when the port trains (R311, R351). -/
def State.lanePins (s : State) (p : Nat) : Nat := if has [1, 2, 3] (s.port p).state then 6 else s.pinState 5
/-- FAULT_N is low (R357): not in a hard halt, and not before the fuses are sensed. -/
def State.faultN (s : State) : Bool := s.kd.sensed && !s.kd.hard && (s.kd.state == 4 || s.kd.tripHold || s.kd.diesOff)

end Sys2Proof.Machine
end

