-- ==== Sys2Proof/Machine/Kdl.lean ====
section
/-! DEFINITION. Block resets, KDL commands, firmware update, identity, attestation, SPDM and remote reset (R312, R313, R321, R324 to
R328, R333, R334). -/

namespace Sys2Proof.Machine

-- Software reset of a block (R312, R313)

/-- Is a buffer slot enabled on a stove other than one that is being reset? The slot's state, which the four stoves share, is then theirs
still. -/
def State.rbElsewhere (s : State) (die b : Nat) : Bool :=
  (List.range 4).any fun t => t != die && bitOf (s.rdN t (Reg.HTH_RB_b_CFG + 32 * b)) 0
/-- The data that a block holds outside its registers, emptied; what R313 keeps stays. -/
def State.blockEmpty (s : State) (die page : Nat) : State :=
  let keep := fun {α : Type} (n : Nat) (t : Tab α) => t.filter fun e => e.1 / n != die
  match pageType die page with
  | 0x01 => { s with sq := { s.sq with
      seqs := keep 64 s.sq.seqs, slots := keep 32 s.sq.slots, gates := keep 1 s.sq.gates
      markers := s.sq.markers.filter fun m => stoveOf m.1 != die } }
  | 0x03 => { s with sp := { s.sp with
      lifts := keep 128 s.sp.lifts, tags := keep (2 ^ 22) s.sp.tags, scrubPos := s.sp.scrubPos.filter fun e => e.1 / 48 != die } }
  | 0x05 => { s with rw := { handles := keep 4096 s.rw.handles, recs := s.rw.recs.filter fun e => e.1 / 65536 / 4096 != die } }
  | 0x06 =>
    { s with
      ht := { s.ht with
        windows := keep 16 s.ht.windows, ways := keep 16 s.ht.ways
        lost := s.ht.lost.filter fun l => 128 * l / hbmRegion != die
        rbs := s.ht.rbs.filter fun e => s.rbElsewhere die e.1 }
      ca := { s.ca with lines := s.ca.lines.filter fun l => 128 * l.line / hbmRegion != die }
      em := { s.em with
        embers := s.em.embers.filter fun e => e.st != die, replicas := s.em.replicas.filter fun e => e.st != die } }
  | 0x07 => { s with em := { s.em with
      hops := keep 8 s.em.hops, epochs := keep 8 s.em.epochs
      covQueue := s.em.covQueue.filter fun c => c.st != die, covers := s.em.covers.filter fun c => c.st != die
      fragQueue := s.em.fragQueue.filter fun c => c.st != die, frags := s.em.frags.filter fun c => c.st != die
      held := s.em.held.filter fun c => c.st != die, merge := s.em.merge.filter fun c => c.st != die
      embers := s.em.embers.filter fun e => e.st != die, replicas := s.em.replicas.filter fun e => e.st != die
      sketch := keep 65536 s.em.sketch, missed := s.em.missed.filter fun e => e.1 != die } }
  | 0x08 => { s with sw := { s.sw with
      dampers := keep 8 s.sw.dampers, suspects := keep 16 s.sw.suspects, elems := keep 1 s.sw.elems
      repairs := s.sw.repairs.filter fun r => r.st != die, fixes := s.sw.fixes.filter fun r => r.st != die } }
  | 0x0B => ({ s with sw := { s.sw with
      rcCur := s.sw.rcCur.filter fun e => e.1 / 768 != die, rcPrev := s.sw.rcPrev.filter fun e => e.1 / 768 != die } } : State).setStk die {}
  | 0x0D => s.setPort (16 * (die - 4) + (page - 0xD0)) {}
  | 0x0E => { s with fb := { s.fb with jobs := [], held := [], early := [], standin := 0, waiting := [] } }
  | _ => s
/-- Does a register keep its value at the reset of its block: the ARR counters since kindling (R67)? -/
def keptReg (page off : Nat) : Bool := pageType 0 page == 0x02 && page == 0x20 && off != 0x44
/-- Parts that a block's FAULTED tells of and that its reset keeps: arrays, or granules, retired since kindling (R340). -/
def State.retiredParts (s : State) (die page : Nat) : Nat :=
  match pageType die page with
  | 0x02 => ((List.range 48).filter fun a => (s.arr die a).retired && !(s.arr die a).retKindling).length
  | 0x03 => (s.sp.granRet.filter fun k => k / 384 == die && !has s.sp.granKin k).length
  | _ => 0
/-- The dies whose PLT page shows the cause of a block's reset: both chimneys for the collective engines (R306, R307). -/
def blockDies (die page : Nat) : List Nat := if pageType die page = 0x0E then [4, 5] else [die]
/-- An honoured block reset: registers at their Reset values, queues and tags empty, RESET_BUSY set on every page (R312), and its cause, 5,
recorded (R307). -/
def State.blockReset (s : State) (die page : Nat) : State :=
  let pages := blockPages die page
  let d := canonDie die page
  let gone := fun (k : Nat) => decide (k / 0x1000000 = d) && has pages (k % 0x1000000 / 4096) &&
    !(decide (die < 4) && keptReg (k % 0x1000000 / 4096) (k % 4096))
  let s := { s with pg := { s.pg with
    regs := s.pg.regs.filter (fun e => !gone e.1), latch := s.pg.latch.filter fun e => !gone (e.1 % 2 ^ 28) } }
  let n := s.retiredParts die page
  let s := pages.foldl (fun s p =>
    s.setHdr die p { lockCfg := (s.hdr die p).lockCfg, lockEvt := (s.hdr die p).lockEvt, busy := true, base := n }) s
  let s := s.blockEmpty die page
  let s := { s with kd := { s.kd with late := (blockDies die page ++ [7]).foldl addOnce s.kd.late } }
  s.jnl 1 [s.kd.jr.bootCount, 5, 0] []

/-- A write of SOFT_RESET in a word of PG_CTRL (R312, R346). -/
def State.softReset (s : State) (ag : Agent) (die page : Nat) (v : W32) : State :=
  match s.pageGuard ag die page v with
  | (s, false) => s
  | (s, true) =>
    if ag ≠ .kindler ∧ (blockPages die page).any (fun p => (s.hdr die p).lockCfg) then s.lockLog die page v
    else if neverIdle die page ∨ !s.idle die page then s.srstRefused die page v
    else s.blockReset die page
/-- SOFT_RESET: a write of PG_CTRL.SOFT_RESET, its other fields as they stand. -/
def execSoftReset (ag : Agent) (die page : Nat) (s : State) : Res :=
  .next (s.softReset ag die page (s.ctrlWord die page none none ||| 1))

/-- SRST_DONE: RESET_BUSY of a block clears (R312). -/
def execSrstDone (die page : Nat) (s : State) : Res :=
  if !(s.hdr die page).busy then .next s
  else .next (((s.modBlock die page fun h => { h with busy := false }).bump die Reg.PLT_SRST_DONE 1).raise die 0xF0 1)

-- Identity (R325)

/-- The 57-byte identity private key: SHAKE256 of the unique seed and the ASCII bytes "IK960-IDENTITY". -/
def identityKey : List Byte :=
  shake256 (Config.fuseSeed ++ [0x49, 0x4B, 0x39, 0x36, 0x30, 0x2D, 0x49, 0x44, 0x45, 0x4E, 0x54, 0x49, 0x54, 0x59]) 57
/-- The manifest of a running image: as step 16 has measured it, before that as flash holds it; type 0x0F is the recovery bundle's. -/
def State.runManifest (s : State) (t : Nat) : List Byte :=
  match s.kd.measured.find? fun m => m.1 == t with
  | some m => m.2
  | none => if t = 15 then [] else s.manifest (s.runs t) t
/-- Has step 16 derived the identity key and measured the images of this kindling (R325)? -/
def State.hasIdentity (s : State) : Bool := !s.kd.measured.isEmpty
/-- The reset cause that registers and the report show on a die: 5 after the reset of a block there, else that of the last module reset
(R307). -/
def State.causeAt (s : State) (die : Nat) : Nat := if has s.kd.late die then 5 else s.kd.cause
/-- The report's bytes before its signature (R326). -/
def State.report (s : State) (nonce : List Byte) : List Byte :=
  let k := s.kd
  let flags := b2n s.inRecovery + 2 * b2n (k.untested != 0) + 4 * b2n k.serviceOnly + 8 * b2n k.degraded + 16 * b2n k.tripSeen
  let entry := fun (t : Nat) =>
    let m := s.runManifest t
    leBytes 1 t ++ leBytes 1 (if t = 15 then 2 else min 2 (s.runs t)) ++ leBytes 2 (manSvn m) ++
      leBytes 2 (tabGet (fun _ => 0) k.svn t) ++ leBytes 2 0 ++ fitBytes 4 (m.drop 8) ++ leBytes 4 0 ++ manDigest m
  let arrays := (s.ar.arrays.filter fun a => a.2.retired).length
  leBytes 4 0x414D594E ++ leBytes 2 1 ++ leBytes 2 flags ++ leBytes 4 k.jr.bootCount ++ leBytes 4 (s.causeAt 7) ++
    fitBytes 32 nonce ++ fitBytes 64 (Config.ed448Public identityKey) ++ ([1, 2, 3, 4, 5, 15].flatMap entry) ++
    leBytes 2 s.tr.pcOut.length ++ leBytes 1 s.tr.pkgOut.length ++ leBytes 2 arrays ++ leBytes 2 s.sp.granRet.length ++
    leBytes 1 k.portsDown.length ++ leBytes 1 k.rink ++ leBytes 1 k.seat ++ leBytes 2 (s.fb.lid.getD 0xFFFF) ++ leBytes 4 0

-- KDL commands (R334)

/-- Bytes of the command window. -/
def State.winBytes (s : State) (off n : Nat) : List Byte :=
  (List.range n).map fun k => BitVec.ofNat 8 (s.rdN 7 (Reg.KDL_WIN + 4 * ((off + k) / 4)) / 2 ^ (8 * ((off + k) % 4)))
/-- Writes a result to the window from its start. -/
def State.putWin (s : State) (b : List Byte) : State :=
  (List.range (cdiv (min b.length 1024) 4)).foldl (fun s k => s.wr 7 (Reg.KDL_WIN + 4 * k) (w32 (leAt b (4 * k) 4))) s
/-- A refused command. -/
def State.kdlRefuse (s : State) (reason : Nat) : State :=
  ((s.wr 7 Reg.KDL_CMD_STATUS (pack [(1, 2), (reason, 8)])).raise 7 0x100 2).kdlLog 5 0 0 0 0 reason 0
/-- A command that has been carried out. -/
def State.kdlDone (s : State) : State := (s.wr 7 Reg.KDL_CMD_STATUS 2).raise 7 0x100 1
/-- A write of KDL_CMD with GO and one command's OP: refused with a reason, or carried out whole. -/
def State.kdlCmd (s : State) (ag : Agent) (f : State → State ⊕ Nat) : State :=
  match s.regGuard ag 7 0x100 0x80000000 with
  | (s, false) => s
  | (s, true) =>
    if !s.answers then s
    else
      match f s with
      | .inl t => t
      | .inr r => s.kdlRefuse r
/-- The first argument word. -/
def State.kdlArg (s : State) : Nat := s.rdN 7 Reg.KDL_WIN
/-- Has the journal room for a record, or its buffer while a half erases? -/
def State.hasRoom (s : State) (type : Nat) (fields : List Nat) (text : List Byte) : Bool :=
  s.jnlRoom { seq := 0, type := type, fields := fields, text := text }

/-- CLEAR_STEP (R317). -/
def execClearStep (ag : Agent) (s : State) : Res :=
  .next (s.kdlCmd ag fun s =>
    let a := s.kdlArg
    let n := a % 32
    let i := a / 256
    if a / 32 % 8 ≠ 0 ∨ n = 0 ∨ n > 17 ∨ (i ≥ stepCount n ∧ i ≠ 0xFFFFFF) then .inr 2
    else if i = 0xFFFFFF then .inl (s.clearSteps [n]).kdlDone
    else
      let mine := fun (p : Nat) => decide (n = 9 ∧ 5 * (p / 160) + p % 160 / 32 = i)
      .inl ((s.modJr fun k => { k.setInst n i {} with pcKeep := k.pcKeep.filter fun p => !mine p }).kdlDone))
/-- ADVANCE_SVN: never during kindling, nor in recovery (R321). -/
def execAdvanceSvn (ag : Agent) (s : State) : Res :=
  .next (s.kdlCmd ag fun s =>
    let t := s.kdlArg
    if !has [1, 2, 3, 4, 5, 15] t then .inr 2
    else if s.kd.state = 0 ∨ s.inRecovery ∨ t = 15 then .inr 4
    else
      let v := max (tabGet (fun _ => 0) s.kd.svn t) (min 63 (manSvn (s.runManifest t)))
      .inl (({ s with kd := { s.kd with svn := tabSet (fun _ => 0) s.kd.svn t v } } : State).kdlDone))
/-- PREFER_COPY: the copy becomes active at the next kindling. -/
def execPreferCopy (ag : Agent) (s : State) : Res :=
  .next (s.kdlCmd ag fun s =>
    let a := s.kdlArg
    let t := a % 256
    let c := a / 256
    if t = 0 ∨ t > 5 ∨ c > 1 then .inr 2
    else if !s.hasRoom 6 [t, c, 1, 0] [] then .inr 5
    else
      .inl ((s.jnlSlot t c true).kdlDone))
/-- ATTEST (R326). Before step 16 has derived the identity key and measured the images it is refused, reason 4: DEDUCED (log 100). -/
def execAttest (ag : Agent) (s : State) : Res :=
  .next (s.kdlCmd ag fun s =>
    if !s.hasIdentity then .inr 4
    else
    let r := s.report (s.winBytes 0 32)
    let s := s.putWin (r ++ fitBytes 114 (Config.ed448Sign identityKey (shake256 r 64)))
    .inl (({ s with kd := { s.kd with tripSeen := false } } : State).kdlDone))
/-- SET_RRST_KEY (R328). -/
def execSetRrstKey (ag : Agent) (s : State) : Res :=
  .next (s.kdlCmd ag fun s =>
    let k := s.winBytes 0 64
    if !s.hasRoom 7 [1] k then .inr 5
    else .inl ((s.jnl 7 [1] k).kdlDone))
/-- JNL_APPEND (R331). -/
def execJnlAppend (ag : Agent) (s : State) : Res :=
  .next (s.kdlCmd ag fun s =>
    let n := s.kdlArg
    if n = 0 ∨ n > 256 then .inr 2
    else
      let d := s.winBytes 0x10 n
      if s.hasRoom 9 [] d then .inl ((s.jnl 9 [] d).kdlDone) else .inr 5)
/-- JNL_READ: the record with a SEQ, header first, as far as the window holds it. -/
def execJnlRead (ag : Agent) (s : State) : Res :=
  .next (s.kdlCmd ag fun s =>
    match (s.kd.jr.journal ++ s.kd.buffered).find? fun r => r.seq == s.kdlArg with
    | some r => .inl ((s.putWin r.bytes).kdlDone)
    | none => .inr 4)
/-- SET_HOSTPART (R3). -/
def execSetHostpart (ag : Agent) (s : State) : Res :=
  .next (s.kdlCmd ag fun s =>
    let u := s.kdlArg
    if u < 4 ∨ u > 32 then .inr 2
    else if !s.hasRoom 5 [0, u] [] then .inr 5
    else .inl ((s.jnl 5 [0, u] []).kdlDone))
/-- HALT_RELEASE: from the management interface, out of a halt or TRIP_HOLD (R309, R314, R317). -/
def execHaltRelease (ag : Agent) (s : State) : Res :=
  .next (s.kdlCmd ag fun s =>
    if ag ≠ .mgmt then .inr 3
    else if s.kd.state ≠ 4 ∧ !s.kd.tripHold then .inr 4
    else
      let s := { s with kd := { s.kd with tripHold := false, diesOff := false } }
      .inl (s.kdlDone.moduleReset 3 0 0 true))
/-- REVOKE_KEY (R321). -/
def execRevokeKey (ag : Agent) (s : State) : Res :=
  .next (s.kdlCmd ag fun s =>
    let k := s.kdlArg
    if ag ≠ .mgmt then .inr 3
    else if k > 3 then .inr 2
    else if [1, 2, 3, 4, 5].any fun t => leAt (s.runManifest t) 7 1 == k then .inr 4
    else .inl (({ s with kd := { s.kd with revoked := addOnce s.kd.revoked k } } : State).kdlDone))

-- Firmware update (R318, R324)

/-- The largest image of a type in KiB (R319). -/
def maxImage (t : Nat) : Nat := nth 0 [0, 2048, 8192, 8192, 1024, 2048, 0, 0, 0, 0, 0, 0, 0, 0, 0, 4032] t
/-- FIRMWARE_UPDATE: one PLDM component is written, verified and, if it verifies, journaled as pending; a copy that has been pending
and is overwritten by one that does not verify is pending no more. A component of type 0x0F is the bundle's region from its directory on:
its members have their own manifests, and `manifest` says nothing of it (R318, R324). -/
def execFirmwareUpdate (type : Nat) (manifest image : List Byte) (s : State) : Res :=
  let k := s.kd
  let tooLong := if type = 15 then decide (bundleImages image > 1024 * maxImage 15) else decide (image.length > 1024 * maxImage type)
  if !s.answers ∨ !has [1, 2, 3, 4, 5, 15] type ∨ tooLong ∨ (type = 15 ∧ s.inRecovery) ∨ (type ≠ 15 ∧ manifest.length ≠ 4096) then .next s
  else
    let c := if type = 15 then 3 else 1 - s.activeCopy type
    let i : Image := ⟨if type = 15 then [] else manifest, image, Config.slotPlace (16 * c + type) image.length⟩
    let put := fun (s : State) (c : Nat) =>
      ({ s with kd := { s.kd with images := tabSet (fun _ => {}) s.kd.images (16 * c + type) i } } : State)
    let s := if type = 15 then put (put s 3) 2 else put s c
    if !s.componentOk type i then
      let s := s.kdlLog 2 k.step 0 type 0 0 k.jnlSeq
      .next (if has s.kd.jr.pendingImg type then s.jnlSlot type (s.activeCopy type) true else s)
    else .next (s.jnlSlot type (if type = 15 then 2 else c) true)

-- SPDM (R327). Request codes and the bodies that the standard fixes are taken from DMTF SPDM 1.3.

/-- An answer of the SPDM responder. -/
def State.spdm (s : State) (code : Nat) (body : List Byte) : Res := .next (if s.answers then s.emit (.spdm code body) else s)
/-- GET_VERSION. -/
def execGetVersion (req : List Byte) (s : State) : Res := s.spdm 0x04 (Config.spdmBody 0x84 req)
/-- GET_CAPABILITIES. -/
def execGetCapabilities (req : List Byte) (s : State) : Res := s.spdm 0x61 (Config.spdmBody 0xE1 req)
/-- NEGOTIATE_ALGORITHMS: SHA3-512 as measurement hash, EdDSA Ed448 as base asymmetric algorithm, SHA3-512 as base hash. The places and
the bits of the three selections are those of DMTF SPDM 1.3: PRESUMED (log 101). -/
def execNegotiateAlgorithms (req : List Byte) (s : State) : Res :=
  let b := Config.spdmBody 0xE3 req
  s.spdm 0x63 (fitBytes 4 b ++ leBytes 4 0x40 ++ leBytes 4 0x800 ++ leBytes 4 0x20 ++ b.drop 16)
/-- GET_DIGESTS: the SHA3-512 digest of the chain in slot 0, the one slot that holds any. The body is taken to be the digests alone:
PRESUMED (log 101). -/
def execGetDigests (_req : List Byte) (s : State) : Res := s.spdm 0x01 (sha3_512 Config.certChain)
/-- GET_CERTIFICATE: the part asked for of the chain in slot 0; any other slot is empty. -/
def execGetCertificate (slot off len : Nat) (s : State) : Res :=
  if slot = 0 then s.spdm 0x02 ((Config.certChain.drop off).take len) else s.spdm 0x7F []
/-- CHALLENGE: a response signed by the identity key, once step 16 has derived it. -/
def execChallenge (nonce : List Byte) (s : State) : Res :=
  if !s.hasIdentity then s.spdm 0x7F []
  else
  let b := Config.spdmBody 0x83 nonce
  s.spdm 0x03 (b ++ Config.ed448Sign identityKey b)
/-- GET_MEASUREMENTS, once step 16 has measured: indices 1 to 5 the digests of the running manifests, 6 the report's raw bytes. -/
def execGetMeasurements (index : Nat) (s : State) : Res :=
  if !s.hasIdentity then s.spdm 0x7F []
  else
  let r := s.report []
  let one := fun (i : Nat) =>
    if i = 6 then (r.drop 6).take 10 ++ (r.drop 0x250).take 16 else sha3_512 (s.runManifest i)
  if index = 0 then s.spdm 0x60 (leBytes 1 6)
  else if index ≤ 6 then s.spdm 0x60 (one index)
  else if index = 0xFF then s.spdm 0x60 ([1, 2, 3, 4, 5, 6].flatMap one)
  else s.spdm 0x7F []

-- Remote reset (R328)

/-- The first failing check of a RESET_REQ, 0 for none. -/
def State.rrstCheck (s : State) (b : List Byte) : Nat :=
  let key := (b.drop 0x10).take 57
  let lid := leAt b 2 2 % 4096
  if leAt b 0 1 ≠ s.kd.rink ∨ leAt b 1 1 % 16 ≠ s.kd.seat ∨ s.kd.noPosition then 1
  else if lid ≠ 0xFFF ∧ s.fb.lid ≠ some lid then 2
  else if zeros s.kd.jr.rrstKey ∨ shake256 key 64 ≠ s.kd.jr.rrstKey then 3
  else if leAt b 8 8 ≤ s.kd.jr.rrstCounter then 4
  else if !Config.ed448Verify key (shake256 (b.take 0x58) 64) ((b.drop 0x58).take 114) then 5
  else 0
/-- RESET_REQ: a remote reset request, `sinceMs` after the one verified before it. -/
def execResetReq (payload : List Byte) (sinceMs : Nat) (s : State) : Res :=
  if !s.powered ∨ s.kd.released < 8 then .next s
  else if sinceMs < 10 then .next { s with kd := { s.kd with rrstDropped := s.kd.rrstDropped + 1 } }
  else
    match s.rrstCheck payload with
    | 0 =>
      let c := leAt payload 8 8
      .next ((s.jnl 7 [0, c] []).moduleReset 6 0 0 false)
    | n => .next ((s.kdlLog 4 0 0 0 0 n 0).raise 7 0x100 3)

end Sys2Proof.Machine
end

