-- ==== Sys2Proof/Machine/Vop.lean ====
section
/-! DEFINITION. Vector engines: kernel images, their ops on tiles, loads, stores and the VOP instruction (R119 to R127). -/

namespace Sys2Proof.Machine

/-- An op word (R122). -/
structure KOp where
  op : Nat
  d : Nat
  a : Nat
  b : Nat
  c : Nat
  slot : Nat
  sr : Bool
  rsv : Nat
deriving DecidableEq, Repr

/-- A kernel image (R121). -/
structure Kernel where
  ops : Nat
  out : Nat
  out2 : Nat
  ks : List W16
  words : List KOp
deriving DecidableEq, Repr

/-- The fields of an op word (R122). -/
def kOp (w : Nat) : KOp :=
  { op := bits w 5 0, d := bits w 10 6, a := bits w 15 11, b := bits w 20 16, c := bits w 25 21, slot := bits w 28 26,
    sr := bitOf w 29, rsv := bits w 31 30 }

/-- The fields of a kernel image (R121). -/
def kernelOf (m : List Byte) : Kernel :=
  { ops := leAt m 0 1, out := leAt m 1 1 % 32, out2 := leAt m 2 1 % 32,
    ks := (List.range 16).map fun k => BitVec.ofNat 16 (leAt m (0x20 + 2 * k) 2),
    words := (List.range (min 48 (leAt m 0 1))).map fun k => kOp (leAt m (0x40 + 4 * k) 4) }

/-- Rounded ops (R122). -/
def KOp.rounded (k : KOp) : Bool := has [2, 3, 4, 5, 0x15, 0x16, 0x17, 0x20, 0x22] k.op
/-- Is the op code listed (R122)? -/
def KOp.listed (k : KOp) : Bool := decide (k.op ≤ 0x18) || has [0x20, 0x21, 0x22, 0x23, 0x24] k.op
/-- The cycles of an op (R122). -/
def KOp.cycles (k : KOp) : Nat :=
  if k.op = 0 then 0
  else if (0x10 ≤ k.op ∧ k.op ≤ 0x16) ∨ 0x20 ≤ k.op then 2
  else 1

/-- The first check that op `n` fails (R127): 2 reserved, 3 cycles, 4 shared SLOT, 5 SR with a raw C. -/
def Kernel.failAt (k : Kernel) (cycles : Nat) (rawC : Bool) (n : Nat) : Option Nat :=
  let o := (k.words[n]?).getD (kOp 0)
  let before := k.words.take n
  let srs := fun (x : KOp) => x.rounded && x.sr
  if !o.listed ∨ o.rsv ≠ 0 then some 2
  else if (before.map KOp.cycles).sum + o.cycles > cycles then some 3
  else if srs o ∧ before.any (fun x => srs x && x.slot == o.slot) then some 4
  else if srs o ∧ rawC then some 5
  else none
/-- The first failing op and its check (R127): 1 is OPS. -/
def Kernel.reject (k : Kernel) (cycles : Nat) (rawC : Bool) : Option (Nat × Nat) :=
  if k.ops = 0 ∨ k.ops > 48 then some (0, 1)
  else (List.range k.ops).findSome? fun n => (k.failAt cycles rawC n).map fun c => (n, c)

/-- A tile: 16 rows of 16 values. -/
abbrev Tile := List (List ℚ)
/-- The tile of a function of row and column. -/
def tileOf (f : Nat → Nat → ℚ) : Tile := (List.range 16).map fun r => (List.range 16).map fun c => f r c
/-- An element of a tile. -/
def Tile.at (t : Tile) (r c : Nat) : ℚ := (t.getD r []).getD c 0
/-- The tile registers. -/
abbrev TileRegs := List Tile
/-- Register n. -/
def TileRegs.t (g : TileRegs) (n : Nat) : Tile := g.getD n []

/-- What a kernel needs to know of the position it runs at (R123, R125, R126), with the numbering of C and the logical inputs that
tell the work apart (R2, R77). -/
structure KPos where
  lr : Nat
  lc : Nat
  row0 : Nat
  col0 : Nat
  rowBase : Nat
  colBase : Nat
  event : Nat
  origin : Nat
  lstep : Nat
  key : List Nat
deriving DecidableEq, Repr

/-- A value of op `n` at an element that the spec does not state (R122: a function code FN does not list, a maximum over nothing), by
the logical inputs of the element (R2). -/
def KPos.anyAt (p : KPos) (n r c : Nat) : ℚ :=
  decN16 (Config.stableW16 (p.key ++ [n, p.origin + (p.row0 + r) * p.lstep + p.col0 + c]))

/-- FN and DFN (R122). α of code 2 has no field in a VOP. -/
def KPos.fn (p : KPos) (n : Nat) (deriv : Bool) (code r c : Nat) (x : ℚ) : ℚ :=
  if 1 ≤ code ∧ code ≤ 6 then
    let alpha := if code = 2 ∧ x ≤ 0 then decN16 (Config.stableW16 (p.key ++ [n])) else 0
    if deriv then fnDeriv code alpha [] x else fnVal code alpha [] x
  else p.anyAt n r c

/-- The exact value of op `n` at element (r, c), or the rounded one of a cr op with its events. A CONST whose c field is 16 or more, which
the table does not list, takes constant c mod 16: DESIGN CHOICE (log 80). -/
def kValue (g : TileRegs) (ks : List W16) (p : KPos) (n : Nat) (o : KOp) (r c : Nat) : ℚ ⊕ Rd :=
  let a := (g.t o.a).at r c
  let b := (g.t o.b).at r c
  let x := (g.t o.c).at r c
  let inside := decide (r < p.lr ∧ c < p.lc)
  let rowVals := if r < p.lr then (List.range p.lc).map fun k => (g.t o.a).at r k else []
  let colVals := if c < p.lc then (List.range p.lr).map fun k => (g.t o.a).at k c else []
  let top := fun (l : List ℚ) =>
    match l with
    | [] => p.anyAt n r c
    | y :: t => t.foldl max y
  match o.op with
  | 0x01 => .inl a
  | 0x02 => .inl (a + b)
  | 0x03 => .inl (a - b)
  | 0x04 => .inl (a * b)
  | 0x05 => .inl (a * b + x)
  | 0x06 => .inl (max a b)
  | 0x07 => .inl (min a b)
  | 0x08 => .inl (rabs a)
  | 0x09 => .inl (-a)
  | 0x0A => .inl (if a > b then 1 else 0)
  | 0x0B => .inl (if a = b then 1 else 0)
  | 0x0C => .inl (if x ≠ 0 then a else b)
  | 0x0D => .inl (if inside then a else b)
  | 0x0E => .inl (min (max a b) x)
  | 0x0F => .inl (if p.colBase + p.col0 + c ≤ p.rowBase + p.row0 + r then a else b)
  | 0x10 => .inr (crExp a)
  | 0x11 => .inr (crLn a)
  | 0x12 => .inr (crRsqrt a)
  | 0x13 => .inr (crRecip a)
  | 0x14 => .inr (crSqrt a)
  | 0x15 => .inl (p.fn n false o.c r c a)
  | 0x16 => .inl (p.fn n true o.c r c a)
  | 0x17 => .inl (a * pow2 (sx o.c 5))
  | 0x18 => .inl (decN16 (ks.getD (o.c % 16) 0))
  | 0x20 => .inl rowVals.sum
  | 0x21 => .inl (top rowVals)
  | 0x22 => .inl colVals.sum
  | 0x23 => .inl (top colVals)
  | _ => .inl ((g.t o.a).at c r)

/-- One op at one position (R122, R124, R125): the registers after it and its range events. -/
def kStep (d : Draw) (vc : View) (ks : List W16) (p : KPos) (g : TileRegs) (n : Nat) (o : KOp) : TileRegs × Tally :=
  if o.op = 0 then (g, {})
  else
    let cell := fun (r c : Nat) =>
      match kValue g ks p n o r c with
      | .inr rd => rd
      | .inl v =>
        if o.rounded then
          let i := vc.num (p.row0 + r) (p.col0 + c)
          roundN16 v (if o.sr then d.u vc.tid (fold40 i p.event) (0x50 + o.slot) else none)
        else { val := v, sat := false, flush := false }
    let cells := (List.range 16).map fun r => (List.range 16).map fun c => cell r c
    let t := cells.foldl (fun (t : Tally) row => row.foldl (fun t rd => t.add (.ofRd rd)) t) {}
    (g.set o.d (cells.map fun row => row.map (·.val)), t)

/-- The kernel at one position. -/
def kRun (d : Draw) (vc : View) (k : Kernel) (p : KPos) (g : TileRegs) : TileRegs × Tally :=
  k.words.zipIdx.foldl (fun (x : TileRegs × Tally) o =>
    let y := kStep d vc k.ks p x.1 o.2 o.1
    (y.1, x.2.add y.2)) (g, {})

/-- The tile that an input loads at a position, in the lengths, with the events of its conversions (R120, R123, R124). -/
def State.loadTile (s : State) (c : Nat) (o : Opd) (v : View) (p : KPos) : Tile × Tally :=
  if o.absent then (tileOf fun _ _ => 0, {})
  else
    let cell := fun (r k : Nat) =>
      if r < p.lr ∧ k < p.lc then
        roundN16 (s.valAt c v (if v.rows = 1 then 0 else p.row0 + r) (if v.cols = 1 then 0 else p.col0 + k)) none
      else { val := 0, sat := false, flush := false }
    let cells := (List.range 16).map fun r => (List.range 16).map fun k => cell r k
    (cells.map fun row => row.map (·.val),
      cells.foldl (fun (t : Tally) row => row.foldl (fun t rd => t.add (.ofRd rd)) t) {})

/-- The elements of a tile within the lengths, as items of the output. -/
def KPos.items (p : KPos) (t : Tile) : List Item :=
  (List.range p.lr).flatMap fun r => (List.range p.lc).map fun c => (p.row0 + r, p.col0 + c, t.at r c)

/-- The shape of a raw output (R78): the largest counts of the operands named by descriptors. -/
def rawShape (l : List (Opd × View)) : Nat × Nat :=
  l.foldl (fun m o => if o.1.desc then (max m.1 o.2.rows, max m.2 o.2.cols) else m) (0, 0)

/-- A VEC record (R137). -/
def State.vecLog (s : State) (x : Src) (code engine : Nat) (w3 : W32) : State :=
  s.logErr x.st 0x40 ⟨pack [(code, 0), (engine, 8)], pack [(x.ctx, 0), (x.sq, 12)], w32 x.pc, w3⟩

/-- The views of a VOP's operands A, B, E, C, D. -/
structure VopViews where
  a : View
  b : View
  e : View
  c : View
  d : View
deriving DecidableEq, Repr

/-- Resolves a VOP's operands (R78, R120). -/
def State.vopViews (s : State) (x : Src) (v : VopOps) : VopViews :=
  let w := fun (o : Opd) => s.view x.st x.sq x.ctx o 0 0
  let n := if v.c.desc then ((w v.c).rows, (w v.c).cols)
    else rawShape [(v.a, w v.a), (v.b, w v.b), (v.e, w v.e), (v.d, w v.d)]
  let u := fun (o : Opd) => s.view x.st x.sq x.ctx o n.1 n.2
  ⟨u v.a, u v.b, u v.e, u v.c, u v.d⟩

/-- Runs a kernel over every position of C and collects what it stores (R123). -/
def State.vopRun (s : State) (x : Src) (v : VopOps) (w : VopViews) (k : Kernel) : List Item × List Item × Tally :=
  let q := s.seq x.st x.sq
  let d := s.draw x.ctx
  let nc := cdiv w.c.cols 16
  let zero : Tile := tileOf fun _ _ => 0
  let y := (List.range (cdiv w.c.rows 16 * nc)).foldl (fun (y : TileRegs × List Item × List Item × Tally) n =>
    let r0 := 16 * (n / nc)
    let c0 := 16 * (n % nc)
    let p : KPos :=
      { lr := min 16 (w.c.rows - r0), lc := min 16 (w.c.cols - c0), row0 := r0, col0 := c0,
        rowBase := (q.sreg v.rbreg).toNat, colBase := (q.sreg v.cbreg).toNat, event := (q.sreg v.breg).toNat,
        origin := w.c.origin, lstep := w.c.lstep, key := [d.seed.toNat, d.step, w.c.tid, (q.sreg v.breg).toNat] }
    let t0 := s.loadTile x.ctx v.a w.a p
    let t1 := s.loadTile x.ctx v.b w.b p
    let t2 := s.loadTile x.ctx v.e w.e p
    let g := [t0.1, t1.1, t2.1] ++ List.replicate 13 zero ++ y.1.drop 16
    let z := kRun d w.c k p g
    (z.1, y.2.1 ++ p.items (z.1.t k.out), y.2.2.1 ++ p.items (z.1.t k.out2),
      y.2.2.2.add (t0.2.add (t1.2.add (t2.2.add z.2))))) (List.replicate 32 zero, [], [], {})
  y.2

/-- Stores an output of a VOP (R124, R125): the draws of a gradient output take the numbering of C. -/
def State.vopStore (s : State) (x : Src) (v c : View) (event : Nat) (l : List Item) : State :=
  let d := s.draw x.ctx
  let u := fun i => if v.cls = .grad then d.u v.tid (fold40 i event) 0x5B else none
  let w := s.storeItems x.ctx { v with origin := c.origin, lstep := c.lstep } u l
  w.1.tallyCtx x.ctx v.fmt v.cls w.2

/-- The operands that a VOP reads. -/
def VopViews.ins (w : VopViews) (v : VopOps) : List (Opd × View) :=
  ([(v.a, w.a), (v.b, w.b), (v.e, w.e)]).filter fun o => !o.1.absent
/-- The operands that it writes. -/
def VopViews.outs (w : VopViews) (v : VopOps) : List (Opd × View) := ([(v.c, w.c), (v.d, w.d)]).filter fun o => !o.1.absent
/-- The kernel image as an operand. -/
def State.kernelView (s : State) (x : Src) (v : VopOps) : View :=
  { s.view x.st x.sq x.ctx v.f 1 128 with fmt := .n16, rows := 1, cols := 128 }
/-- The kernel image. -/
def State.vopKernel (s : State) (x : Src) (v : VopOps) : Kernel := kernelOf (s.bytesOf x.ctx (s.kernelView x v) 0 256)
/-- The operand of a VOP whose memory descriptor or pages fail (R94, check 1). -/
def State.vopDesc (s : State) (x : Src) (v : VopOps) (w : VopViews) : Option Nat :=
  (badAddr (w.ins v) fun o => s.descFails x.st x.sq x.ctx o.1 o.2 false) <|>
    badAddr (w.outs v) fun o => s.descFails x.st x.sq x.ctx o.1 o.2 true
/-- The run-time check on its operands that a VOP fails, and its detail (R94). -/
def State.vopCheck (s : State) (x : Src) (v : VopOps) (w : VopViews) : Option (Nat × Nat) :=
  let vf := s.kernelView x v
  let desc := s.vopDesc x v w
  let extent := (badAddr (w.ins v ++ w.outs v ++ [(v.f, vf)]) fun o => s.extentFails x.ctx o.1 o.2) <|>
    (if vf.addr % 64 ≠ 0 then some vf.addr else none)
  if desc.isSome then some (3, desc.getD 0)
  else if extent.isSome then some (1, extent.getD 0)
  else (badAddr (w.ins v ++ w.outs v) fun o => o.2.place != .spd).map fun a => (4, a)
/-- The address of an operand that does not have the shape of C: an input may have one row or one column (R120, R123). -/
def VopViews.misshaped (w : VopViews) (v : VopOps) : Option Nat :=
  (badAddr (w.ins v) fun o => !((o.2.rows == 1 || o.2.rows == w.c.rows) && (o.2.cols == 1 || o.2.cols == w.c.cols))) <|>
    badAddr (w.outs v) fun o => !(o.2.rows == w.c.rows && o.2.cols == w.c.cols)
/-- Do the operands have the shape of C? -/
def VopViews.shaped (w : VopViews) (v : VopOps) : Bool := (w.misshaped v).isNone
/-- The lines that a VOP reads under a claim check. -/
def State.vopReads (s : State) (x : Src) (v : VopOps) (w : VopViews) : List Nat :=
  ((w.ins v).flatMap fun o => if o.1.isChair then [] else s.viewLines x.ctx o.2) ++ s.viewLines x.ctx (s.kernelView x v)
/-- The lines that it claims. -/
def State.vopLines (s : State) (x : Src) (v : VopOps) (w : VopViews) : List Nat :=
  ((w.outs v).flatMap fun o => s.viewLines x.ctx o.2).eraseDups

/-- VOP (R119 to R127). The record of a VOP that names no engine of its lease has ENGINE 0: DESIGN CHOICE (log 83). -/
def execVop (i : Iss) (v : VopOps) (s : State) : Res :=
  match s.begin i 0x28 [v.a, v.b, v.e] with
  | (s, none) => .next s
  | (s, some x) =>
    let w := s.vopViews x v
    match s.vopDesc x v w with
    | some a => .next (s.skip i x 3 a)
    | none =>
    if w.c.size = 0 then .next (s.postOpt x i.post)
    else
      match s.vopCheck x v w with
      | some r => .next (s.skipOpd i x ((w.ins v).map (·.2)) ((w.outs v).map (·.2)) r)
      | none =>
        if s.lendsNow x.ctx then .next (s.loanSkip i x)
        else
        match (s.ctx x.ctx).engines[v.engine]? with
        | none => .next (((s.skip i x 2 v.engine).vecLog x 4 0 0).raise x.st 0x40 3)
        | some e =>
          if !w.shaped v then .next (s.skip i x 2 ((w.misshaped v).getD 0))
          else
            let k := s.vopKernel x v
            match k.reject v.cycles (!v.c.desc) with
            | some r =>
              .next (((s.skip i x 2 (s.kernelView x v).addr).vecLog x 1 e (pack [(r.1, 0), (r.2, 8)])).bump x.st Reg.VEC_KREJ_TOTAL 1
                |>.raise x.st 0x40 0)
            | none =>
              let s := s.readLines x (s.vopReads x v w)
              match s.access x i (((w.ins v).map (·.2)) ++ [s.kernelView x v]) ((w.outs v).map (·.2)) 2 e
                  (descs := [v.a, v.b, v.c, v.d, v.e]) with
              | (s, false) => .next s
              | (s, true) =>
                let y := s.vopRun x v w k
                let s := s.tallyCtx x.ctx .n16 w.c.cls y.2.2
                let s := s.tallyT2 x.ctx ((w.ins v).map fun o => (o.2, o.2.cells))
                let lines := s.vopLines x v w
                let s := s.claimLines x lines
                let ev := ((s.seq x.st x.sq).sreg v.breg).toNat
                let t := s.vopStore x w.c w.c ev y.1
                let r := s.defer (if v.d.absent then t else t.vopStore x w.d w.c ev y.2.1) x.ctx ((w.outs v).map (·.2))
                .next (r.1.launch i x (s.readersOf x.ctx [v.a, v.b, v.e]) lines (.vec e) r.2)

end Sys2Proof.Machine
end

