-- ==== Sys2Proof/Machine/RowEng.lean ====
section
/-! DEFINITION. Row engines: stats handles, the row functions, chunked softmax and the ROWOP instructions (R128 to R136). -/

namespace Sys2Proof.Machine

-- Handles and records (R128, R129)

/-- Bytes of a record of a kind (R128). -/
def recSize (kind : Nat) : Nat := if kind = 2 then 8 else 4
/-- The end of a handle's extent in its side memory. -/
def Handle.stop (h : Handle) : Nat := 32 * h.base + h.rows * recSize h.kind
/-- A record as it will stand when the ROWOPs before this one, which its engine runs in order, are done (R134, R136). -/
def State.recNow (s : State) (st h row : Nat) : W64 :=
  s.sq.flights.foldl (fun w f =>
    match f.body with
    | .row _ k recs reset =>
      if f.st = st ∧ k = some h then (if reset then 0 else ((recs.find? (·.1 == row)).map (·.2)).getD w) else w
    | _ => w) (s.rowRec st h row)
/-- A record from its first and second N16 and its event count (R128). -/
def mkRec (a b : W16) (events : Nat) : W64 := BitVec.ofNat 64 (a.toNat + 2 ^ 16 * b.toNat + 2 ^ 32 * events)
/-- The first, second value and the event count of a record. -/
def recA (w : W64) : W16 := BitVec.ofNat 16 w.toNat
/-- The second value. -/
def recB (w : W64) : W16 := BitVec.ofNat 16 (w.toNat / 2 ^ 16)
/-- EVENTS. -/
def recEvents (w : W64) : Nat := bits w.toNat 53 32
/-- The N16 values of a record that are near their limit (R45). -/
def recNear (w : W64) : Nat := b2n (nearN16 (decN16 (recA w))) + b2n (nearN16 (decN16 (recB w)))

/-- Is a ROWOP that names the handle queued or running (R129)? -/
def State.handleBusy (s : State) (st h : Nat) : Bool :=
  s.sq.flights.any fun f => f.st == st && (match f.body with
    | .row _ x .. => x == some h
    | _ => false)

/-- The handle that W0 and W1 spell (R138). -/
def handleOf (w0 w1 : W32) : Handle :=
  { valid := bitOf w0.toNat 0, kind := fld w0 2 1, engine := fld w0 4 3, ctx := fld w0 16 5, base := fld w1 15 0,
    rows := fld w1 31 16 + 1 }

/-- The other valid handles of a stove. -/
def State.otherHandles (s : State) (st h : Nat) : List Handle :=
  (s.rw.handles.filter fun p => p.1 / 4096 == st && p.1 != 4096 * st + h && p.2.valid).map (·.2)

/-- The first reason for which a handle write is refused (R129). -/
def State.handleReason (s : State) (st h : Nat) (v : Handle) : Option Nat :=
  let l := (s.otherHandles st h).filter fun o => o.engine == v.engine
  if v.valid ∧ l.any (fun o => decide (32 * v.base < o.stop ∧ 32 * o.base < v.stop)) then some 1
  else if v.valid ∧ v.stop > 2 ^ 21 then some 2
  else if v.valid ∧ v.kind = 2 ∧ (l.filter fun o => o.kind == 2).length ≥ 16 then some 3
  else if s.handleBusy st h then some 4
  else if v.kind = 3 then some 6
  else none

/-- A handle command: who may give it, then what it does to the handle that ROW_HTAB_IDX names; none may touch a handle in use (R129). -/
def State.handleCmd (s : State) (ag : Agent) (st : Nat) (bit : Nat) (f : State → Nat → State) : State :=
  if !ag.trusted then s.handleRefused st 5
  else
    match s.regGuard ag st 0x50 (w32 bit) with
    | (s, false) => s
    | (s, true) => f s (fld (s.rd st Reg.ROW_HTAB_IDX) 11 0)

/-- ROW_HTAB_CMD WRITE (R129). A disabled block stays idle: the command is refused, with reason 0 (R339; DESIGN CHOICE, log 102). -/
def execHandleWrite (ag : Agent) (st : Nat) (s : State) : Res :=
  .next (s.handleCmd ag st 1 fun s h =>
    let v := handleOf (s.rd st Reg.ROW_HTAB_W0) (s.rd st Reg.ROW_HTAB_W1)
    match if s.blockOn st 0x50 then s.handleReason st h v else some 0 with
    | some r => s.handleRefused st r
    | none => ((s.setHandle st h v).zeroRecs st h).wr st Reg.ROW_HTAB_STATUS 0)

/-- ROW_HTAB_CMD READ (R129, R138). -/
def execHandleRead (ag : Agent) (st : Nat) (s : State) : Res :=
  .next (s.handleCmd ag st 2 fun s h =>
    let v := s.handle st h
    if s.handleBusy st h then s.handleRefused st 4
    else
    let s := s.wr st Reg.ROW_HTAB_W0 (pack [(b2n v.valid, 0), (v.kind, 1), (v.engine, 3), (v.ctx, 5)])
    (s.wr st Reg.ROW_HTAB_W1 (pack [(v.base, 0), (v.rows - 1, 16)])).wr st Reg.ROW_HTAB_STATUS 0)

/-- ROW_HTAB_CMD CLEAR (R129). -/
def execHandleClear (ag : Agent) (st : Nat) (s : State) : Res :=
  .next (s.handleCmd ag st 4 fun s h =>
    if s.handleBusy st h then s.handleRefused st 4 else (s.zeroRecs st h).wr st Reg.ROW_HTAB_STATUS 0)

-- Row functions (R131, R132)

/-- A value with the range events that led to it. -/
abbrev Counted (α : Type) := α × Tally

/-- Round to nearest even, counted. -/
def rneC (x : ℚ) : Counted ℚ := let r := roundN16 x none; (r.val, .ofRd r)
/-- The events of a list of roundings. -/
def tallyOf (l : List Rd) : Tally := l.foldl (fun t r => t.add (.ofRd r)) {}
/-- The largest of a row. -/
def rowMax (x : List ℚ) : ℚ := x.tail.foldl max (x.headD 0)

/-- One row of a forward normalisation: its outputs, μ and rstd (LN_FWD, RMS_FWD). -/
def normFwd (rms : Bool) (eps : ℚ) (x g b : List ℚ) : Counted (List ℚ × ℚ × ℚ) :=
  let n : ℚ := x.length
  let m := if rms then (0, {}) else rneC (x.sum / n)
  let v := (x.map fun a => (a - m.1) * (a - m.1)).sum / n
  let r := crRsqrt (v + eps)
  let y := (x.zip (g.zip b)).map fun p => (p.1 - m.1) * r.val * p.2.1 + (if rms then 0 else p.2.2)
  ((y, m.1, r.val), m.2.add (.ofRd r))

/-- One row of a backward normalisation: dx and x̂, which takes no μ in RMS (LN_BWD, RMS_BWD). -/
def normBwd (rms : Bool) (mu rstd : ℚ) (dy x g : List ℚ) : List ℚ × List ℚ :=
  let n : ℚ := x.length
  let xh := x.map fun a => (a - if rms then 0 else mu) * rstd
  let gg := (dy.zip g).map fun p => p.1 * p.2
  let a := if rms then 0 else gg.sum / n
  let b := ((gg.zip xh).map fun p => p.1 * p.2).sum / n
  ((gg.zip xh).map fun p => rstd * (p.1 - a - p.2 * b), xh)

/-- m, the rounded exponentials and their sum of a row (SMAX_FWD, LSMAX_FWD). -/
def softParts (x : List ℚ) : Counted (ℚ × List ℚ × ℚ) :=
  let m := rneC (rowMax x)
  let e := x.map fun a => crExp (a - m.1)
  ((m.1, e.map (·.val), (e.map (·.val)).sum), m.2.add (tallyOf e))

/-- One row of SMAX_FWD: outputs, m and rne(s). A sum of zero leaves the quotients open: `any` supplies them. -/
def smaxFwd (any : Nat → ℚ) (x : List ℚ) : Counted (List ℚ × ℚ × ℚ) :=
  let p := softParts x
  let s := rneC p.1.2.2
  let y := p.1.2.1.zipIdx.map fun e => if p.1.2.2 = 0 then any e.2 else e.1 / p.1.2.2
  ((y, p.1.1, s.1), p.2.add s.2)

/-- One row of LSMAX_FWD. -/
def lsmaxFwd (x : List ℚ) : Counted (List ℚ × ℚ × ℚ) :=
  let p := softParts x
  let l := crLn p.1.2.2
  let s := rneC p.1.2.2
  ((x.map fun a => a - p.1.1 - l.val, p.1.1, s.1), (p.2.add (.ofRd l)).add s.2)

/-- One row of SMAX_BWD. -/
def smaxBwd (dy y : List ℚ) : List ℚ :=
  let t := ((dy.zip y).map fun p => p.1 * p.2).sum
  (dy.zip y).map fun p => p.2 * (p.1 - t)

/-- One row of LSMAX_BWD. -/
def lsmaxBwd (dy y : List ℚ) : Counted (List ℚ) :=
  let e := y.map crExp
  ((dy.zip e).map fun p => p.1 - p.2.val * dy.sum, tallyOf e)

/-- One row of a chunk (R133): P, c and the new record. -/
def chunkRow (d : Draw) (tid j : Nat) (r : W64) (x : List ℚ) : Counted (List ℚ × ℚ × W64) :=
  let mc := rneC (rowMax x)
  let ev := recEvents r
  let mOld := decN16 (recA r)
  let m := if ev = 0 then mc.1 else max mOld mc.1
  let c := if ev = 0 then { val := 0, sat := false, flush := false } else crExp (mOld - m)
  let e := x.map fun a => crExp (a - m)
  let t := c.val * (if ev = 0 then 0 else decN16 (recB r)) + (e.map (·.val)).sum
  let s := roundN16 t (d.u tid (fold40 j ev) 0x58)
  ((e.map (·.val), c.val, mkRec (encN16 m) (encN16 s.val) (ev + x.length)),
    ((mc.2.add (.ofRd c)).add (tallyOf e)).add (.ofRd s))

-- Issue

/-- The row functions (R130). -/
inductive RowFn where
  | lnFwd | lnBwd | rmsFwd | rmsBwd | smaxFwd | smaxBwd | lsmaxFwd | lsmaxBwd | chunk | finish | reset
deriving DecidableEq, Repr

/-- The kind of record a function keeps (R128, R130); none keeps none, RESET takes any. -/
def RowFn.kind : RowFn → Option Nat
  | .lnFwd | .lnBwd | .rmsFwd | .rmsBwd => some 0
  | .smaxFwd | .lsmaxFwd => some 1
  | .chunk | .finish => some 2
  | _ => none
/-- Does the function name a handle? -/
def RowFn.usesHandle : RowFn → Bool
  | .smaxBwd | .lsmaxBwd => false
  | _ => true

/-- The operands of a ROWOP that hold whole rows, the 2 × COLS operands, and the ROWS × 1 outputs (R130): read, then
written. -/
structure RowRole where
  rowsIn : List Opd
  gamma : Opd
  rowsOut : List Opd
  gammaOut : Opd
  colsOut : List Opd
deriving DecidableEq, Repr

/-- The roles of the operands (R130). -/
def RowFn.role (f : RowFn) (r : RowOps) : RowRole :=
  match f with
  | .lnFwd | .rmsFwd => ⟨[r.a], r.b, [r.c], .none, []⟩
  | .lnBwd | .rmsBwd => ⟨[r.a, r.b], r.d, [r.c], r.e, []⟩
  | .smaxFwd | .lsmaxFwd => ⟨[r.a], .none, [r.c], .none, []⟩
  | .smaxBwd | .lsmaxBwd => ⟨[r.a, r.b], .none, [r.c], .none, []⟩
  | .chunk => ⟨[r.a], .none, [r.c], .none, [r.d]⟩
  | .finish => ⟨[], .none, [], .none, [r.c, r.d]⟩
  | .reset => ⟨[], .none, [], .none, []⟩

/-- The rows and columns of a ROWOP (R78, R130): from A, or C for FINISH, else from another operand that a descriptor names. -/
def State.rowShape (s : State) (x : Src) (f : RowFn) (r : RowOps) : Nat × Nat :=
  let w := fun (o : Opd) => s.view x.st x.sq x.ctx o 0 0
  let l := (f.role r).rowsIn ++ (f.role r).rowsOut ++ (f.role r).colsOut
  match l.find? Opd.desc with
  | some o => ((w o).rows, (w o).cols)
  | none => (0, 0)

/-- A ROW record (R138). -/
def State.rowLog (s : State) (x : Src) (code engine handle detail : Nat) : State :=
  s.logErr x.st 0x50 ⟨pack [(code, 0), (engine, 8), (handle, 12)], pack [(x.ctx, 0), (x.sq, 12)], w32 x.pc, w32 detail⟩

/-- A skip on a row-engine check (R130). -/
def State.rowSkip (s : State) (i : Iss) (x : Src) (code engine handle detail : Nat) : State :=
  (((s.skip i x 2 detail).rowLog x code engine handle detail).bump x.st Reg.ROW_SKIP_TOTAL 1).raise x.st 0x50 1

/-- What a ROWOP writes: outputs by role with their draw's site, and records. -/
structure RowResult where
  out : List (List ℚ) := []
  gammaOut : List (List ℚ) := []
  col1 : List ℚ := []
  col2 : List ℚ := []
  recs : List (Nat × W64) := []
  ev : Tally := {}
deriving DecidableEq, Repr

/-- The exact rows of an operand. -/
def State.opdRows (s : State) (x : Src) (o : Opd) (rows cols : Nat) : List (List ℚ) :=
  s.vals x.ctx (s.view x.st x.sq x.ctx o rows cols)

/-- γ and β of an operand; none stands for 1 and 0 (R130). -/
def State.gammaBeta (s : State) (x : Src) (o : Opd) (cols : Nat) : List ℚ × List ℚ :=
  if o.absent then (List.replicate cols 1, List.replicate cols 0)
  else
    let v := s.opdRows x o 2 cols
    (v.getD 0 [], v.getD 1 [])

/-- Adds two rows. -/
def addRows (a b : List ℚ) : List ℚ := (a.zip b).map fun p => p.1 + p.2

/-- The result of a ROWOP over its rows (R132, R133). A quotient by a sum of zero is a free value of its logical inputs (R2). -/
def State.rowRun (s : State) (x : Src) (f : RowFn) (r : RowOps) (n : Nat × Nat) : RowResult :=
  let a := s.opdRows x r.a n.1 n.2
  let rec1 := fun (k : Nat) => s.recNow x.st r.handle (r.rowOff + k)
  let va := s.view x.st x.sq x.ctx r.a n.1 n.2
  let each := fun (z : RowResult) (g : Nat → RowResult → RowResult) => (List.range n.1).foldl (fun z k => g k z) z
  match f with
  | .lnFwd | .rmsFwd =>
    let gb := s.gammaBeta x r.b n.2
    each {} fun k z =>
      let y := normFwd (f == .rmsFwd) (decN16 r.eps) (a.getD k []) gb.1 gb.2
      { z with
        out := z.out ++ [y.1.1]
        recs := z.recs ++ [(k, mkRec (encN16 y.1.2.1) (encN16 y.1.2.2) 0)]
        ev := z.ev.add y.2 }
  | .lnBwd | .rmsBwd =>
    let gb := s.gammaBeta x r.d n.2
    let b := s.opdRows x r.b n.1 n.2
    let zero := List.replicate n.2 (0 : ℚ)
    each { gammaOut := [zero, zero] } fun k z =>
      let dy := a.getD k []
      let y := normBwd (f == .rmsBwd) (decN16 (recA (rec1 k))) (decN16 (recB (rec1 k))) dy (b.getD k []) gb.1
      let dg := addRows (z.gammaOut.getD 0 []) ((dy.zip y.2).map fun p => p.1 * p.2)
      let db := if f = .rmsBwd then zero else addRows (z.gammaOut.getD 1 []) dy
      { z with out := z.out ++ [y.1], gammaOut := [dg, db] }
  | .smaxFwd | .lsmaxFwd =>
    each {} fun k z =>
      let row := a.getD k []
      let d := s.draw x.ctx
      let any := fun (e : Nat) => decN16 (Config.stableW16 [d.seed.toNat, d.step, va.tid, va.num k e])
      let y := if f = .smaxFwd then smaxFwd any row else lsmaxFwd row
      { z with
        out := z.out ++ [y.1.1]
        recs := z.recs ++ [(k, mkRec (encN16 y.1.2.1) (encN16 y.1.2.2) 0)]
        ev := z.ev.add y.2 }
  | .smaxBwd =>
    let b := s.opdRows x r.b n.1 n.2
    each {} fun k z => { z with out := z.out ++ [smaxBwd (a.getD k []) (b.getD k [])] }
  | .lsmaxBwd =>
    let b := s.opdRows x r.b n.1 n.2
    each {} fun k z =>
      let y := lsmaxBwd (a.getD k []) (b.getD k [])
      { z with out := z.out ++ [y.1], ev := z.ev.add y.2 }
  | .chunk =>
    let d := s.draw x.ctx
    each {} fun k z =>
      let y := chunkRow d va.tid (va.num k 0) (rec1 k) (a.getD k [])
      { z with
        out := z.out ++ [y.1.1], col1 := z.col1 ++ [y.1.2.1], recs := z.recs ++ [(k, y.1.2.2)], ev := z.ev.add y.2 }
  | .finish =>
    each {} fun k z =>
      let w := rec1 k
      if recEvents w = 0 then { z with col1 := z.col1 ++ [0], col2 := z.col2 ++ [0] }
      else
        let c := crRecip (decN16 (recB w))
        let l := crLn (decN16 (recB w))
        let t := rneC (decN16 (recA w) + l.val)
        { z with
          col1 := z.col1 ++ [c.val], col2 := z.col2 ++ [t.1]
          ev := z.ev.add (if r.d.absent then .ofRd c else ((Tally.ofRd c).add (.ofRd l)).add t.2) }
  | .reset => {}

/-- Stores rows into an output; gradient outputs round stochastically at a site (R132, R134). -/
def State.rowStore (s : State) (x : Src) (o : Opd) (rows cols site : Nat) (m : List (List ℚ)) : State :=
  if o.absent then s
  else
    let v := s.view x.st x.sq x.ctx o rows cols
    let d := s.draw x.ctx
    let u := fun i => if v.cls = .grad then d.u v.tid (fold40 i 0) site else none
    let w := s.storeItems x.ctx v u (itemsAt 0 0 m)
    w.1.tallyCtx x.ctx v.fmt v.cls w.2

/-- Why a row engine skips a ROWOP at issue (R130, R133): the ROW code and its detail. -/
def State.rowCheck (s : State) (x : Src) (f : RowFn) (r : RowOps) (n : Nat × Nat) : Option (Nat × Nat) :=
  let h := s.handle x.st r.handle
  if f.usesHandle ∧ (!h.valid ∨ h.ctx ≠ x.ctx ∨ f.kind.any (fun k => k != h.kind) ∨ r.rowOff + n.1 > h.rows) then some (2, 0)
  else if f = .chunk then
    let e0 := ((s.seq x.st x.sq).sreg r.e0reg).toNat
    match (List.range n.1).find? fun k => recEvents (s.recNow x.st r.handle (r.rowOff + k)) != e0 with
    | some k => some (3, recEvents (s.recNow x.st r.handle (r.rowOff + k)))
    | none => if e0 + n.2 > 2097152 then some (3, 0) else none
  else none

/-- The operands of a ROWOP that are there, by role, resolved. -/
structure RowV where
  rin : List (Opd × View)
  gin : List (Opd × View)
  rout : List (Opd × View)
  gout : List (Opd × View)
  cout : List (Opd × View)
deriving DecidableEq, Repr

/-- Resolves the operands of a ROWOP over its rows and columns. -/
def State.rowViews (s : State) (x : Src) (f : RowFn) (r : RowOps) (n : Nat × Nat) : RowV :=
  let ro := f.role r
  let at_ := fun (rows cols : Nat) (l : List Opd) =>
    (l.filter fun o => !o.absent).map fun o => (o, s.view x.st x.sq x.ctx o rows cols)
  ⟨at_ n.1 n.2 ro.rowsIn, at_ 2 n.2 [ro.gamma], at_ n.1 n.2 ro.rowsOut, at_ 2 n.2 [ro.gammaOut], at_ n.1 1 ro.colsOut⟩
/-- What it reads. -/
def RowV.ins (v : RowV) : List (Opd × View) := v.rin ++ v.gin
/-- What it writes. -/
def RowV.outs (v : RowV) : List (Opd × View) := v.rout ++ v.gout ++ v.cout
/-- The operand of a ROWOP whose memory descriptor or pages fail (R94, check 1). -/
def State.rowDesc (s : State) (x : Src) (v : RowV) : Option Nat :=
  badAddr v.ins (fun o => s.descFails x.st x.sq x.ctx o.1 o.2 false) <|>
    badAddr v.outs fun o => s.descFails x.st x.sq x.ctx o.1 o.2 true
/-- The run-time check on its operands that a ROWOP fails, and the address of the operand that fails it (R94, R100). -/
def State.rowOpdCheck (s : State) (x : Src) (v : RowV) (n : Nat × Nat) : Option (Nat × Nat) :=
  let one := fun (code : Nat) (l : List (Opd × View)) (p : Opd × View → Bool) => (badAddr l p).map fun a => (code, a)
  (s.rowDesc x v).map (fun a => (3, a)) <|>
  one 1 (v.ins ++ v.outs) (fun o => s.extentFails x.ctx o.1 o.2) <|>
  one 2 (v.rin ++ v.rout) (fun o => o.2.rows != n.1 || o.2.cols != n.2) <|>
  one 2 (v.gin ++ v.gout) (fun o => o.2.rows != 2 || o.2.cols != n.2) <|>
  one 2 v.cout (fun o => o.2.rows != n.1 || o.2.cols != 1) <|>
  one 4 (v.ins ++ v.outs) (fun o => o.2.place != .spd) <|>
  one 4 v.gin fun o => o.2.fmt != .n16
/-- The engine that a ROWOP runs on. -/
def State.rowEngine (s : State) (x : Src) (f : RowFn) (r : RowOps) : Nat :=
  if f.usesHandle then (s.handle x.st r.handle).engine else r.handle % 4
/-- The lines that it reads under a claim check. -/
def State.rowReads (s : State) (x : Src) (v : RowV) : List Nat :=
  v.ins.flatMap fun o => if o.1.isChair then [] else s.viewLines x.ctx o.2
/-- The lines that it claims. -/
def State.rowLines (s : State) (x : Src) (v : RowV) : List Nat := (v.outs.flatMap fun o => s.viewLines x.ctx o.2).eraseDups

/-- Stores the outputs of a ROWOP (R132, R133). -/
def State.rowStores (s : State) (x : Src) (ro : RowRole) (n : Nat × Nat) (z : RowResult) : State :=
  let s := ro.rowsOut.foldl (fun s o => s.rowStore x o n.1 n.2 0x5A z.out) s
  let s := s.rowStore x ro.gammaOut 2 n.2 0x59 z.gammaOut
  let cols := [z.col1, z.col2]
  ro.colsOut.zipIdx.foldl (fun s o => s.rowStore x o.1 n.1 1 0x5A ((cols.getD o.2 []).map fun v => [v])) s

/-- A ROWOP (R128 to R136). -/
def State.issueRow (s : State) (f : RowFn) (i : Iss) (r : RowOps) : State :=
  let ro := f.role r
  match s.begin i 0x30 (ro.rowsIn ++ [ro.gamma]) with
  | (s, none) => s
  | (s, some x) =>
    let n := s.rowShape x f r
    let v := s.rowViews x f r n
    let engine := s.rowEngine x f r
    match s.rowDesc x v with
    | some a => s.skip i x 3 a
    | none =>
    if f ≠ .reset ∧ (n.1 = 0 ∨ n.2 = 0) then s.postOpt x i.post
    else
      match s.rowOpdCheck x v n with
      | some k => s.skipOpd i x (v.ins.map (·.2)) (v.outs.map (·.2)) k
      | none =>
        match s.rowCheck x f r n with
        | some c => s.rowSkip i x c.1 engine r.handle c.2
        | none =>
          let s := s.readLines x (s.rowReads x v)
          match s.access x i (v.ins.map (·.2)) (v.outs.map (·.2)) 3 (engine + 16 * (if f.usesHandle then r.handle else 0))
              (descs := (v.ins ++ v.outs).map (·.1)) with
          | (s, false) => s
          | (s, true) =>
            let z := s.rowRun x f r n
            let s := s.tallyCtx x.ctx .n16 ((v.outs.head?.map (·.2.cls)).getD .act)
              (z.ev.add ⟨0, 0, (z.recs.map fun w => recNear w.2).sum⟩)
            let s := s.tallyT2 x.ctx (v.ins.map fun o => (o.2, o.2.cells))
            let lines := s.rowLines x v
            let s := s.claimLines x lines
            let w := s.defer (s.rowStores x ro n z) x.ctx (v.outs.map (·.2))
            let s := w.1
            s.launch i x (s.readersOf x.ctx (ro.rowsIn ++ [ro.gamma])) lines
              (.row engine (if f.usesHandle then some r.handle else none) (z.recs.map fun w => (r.rowOff + w.1, w.2)) (f == .reset)) w.2

/-- LN_FWD (R130, R132). -/
def execLnFwd (i : Iss) (r : RowOps) (s : State) : Res := .next (s.issueRow .lnFwd i r)
/-- LN_BWD. -/
def execLnBwd (i : Iss) (r : RowOps) (s : State) : Res := .next (s.issueRow .lnBwd i r)
/-- RMS_FWD. -/
def execRmsFwd (i : Iss) (r : RowOps) (s : State) : Res := .next (s.issueRow .rmsFwd i r)
/-- RMS_BWD. -/
def execRmsBwd (i : Iss) (r : RowOps) (s : State) : Res := .next (s.issueRow .rmsBwd i r)
/-- SMAX_FWD. -/
def execSmaxFwd (i : Iss) (r : RowOps) (s : State) : Res := .next (s.issueRow .smaxFwd i r)
/-- SMAX_BWD. -/
def execSmaxBwd (i : Iss) (r : RowOps) (s : State) : Res := .next (s.issueRow .smaxBwd i r)
/-- LSMAX_FWD. -/
def execLsmaxFwd (i : Iss) (r : RowOps) (s : State) : Res := .next (s.issueRow .lsmaxFwd i r)
/-- LSMAX_BWD. -/
def execLsmaxBwd (i : Iss) (r : RowOps) (s : State) : Res := .next (s.issueRow .lsmaxBwd i r)
/-- CHUNK (R133). -/
def execChunk (i : Iss) (r : RowOps) (s : State) : Res := .next (s.issueRow .chunk i r)
/-- FINISH (R133). -/
def execFinish (i : Iss) (r : RowOps) (s : State) : Res := .next (s.issueRow .finish i r)
/-- RESET of a handle's records (R130). -/
def execResetRows (i : Iss) (r : RowOps) (s : State) : Res := .next (s.issueRow .reset i r)

end Sys2Proof.Machine
end

