-- ==== Sys2Proof/Machine/RegRead.lean ====
section
/-! DEFINITION. What a read of a register returns: the header, the registers that show the state of their block, and the stored
words (R8, R312, R337 to R345 and the page maps of R67, R100, R118, R137, R138, R157, R179, R224, R242, R243, R260, R279, R305,
R306, R332, R333). -/

namespace Sys2Proof.Machine

/-- Bits lo to lo + n − 1 of a set, as a word from bit 0 on. -/
def maskOf (p : Nat → Bool) (lo n : Nat) : W32 := w32 ((List.range n).map fun k => b2n (p (lo + k)) * 2 ^ k).sum

/-- The instance of a register with several instances that an offset names: number and offset within it, given first offset,
stride and count. -/
def regInst (off base stride count : Nat) : Option (Nat × Nat) :=
  if base ≤ off ∧ (off - base) / stride < count then some ((off - base) / stride, (off - base) % stride) else none

-- The header (R337 to R345)

/-- PG_CAPS. -/
def pageCaps (die page : Nat) : W32 :=
  match pageType die page with
  | 0x01 => pack [(64, 0), (32, 7), (256, 13), (4, 22)]
  | 0x02 => pack [(48, 0), (1, 6), (1, 7), (7, 8)]
  | 0x03 => pack [(48, 0), (8, 6), (16, 10), (128, 15)]
  | 0x04 => pack [(12, 0), (32, 4), (48, 10)]
  | 0x05 => pack [(4, 0), (4096, 3), (16, 16)]
  | 0x06 => pack [(64, 0), (16, 7), (8, 12), (16, 16)]
  | 0x07 => pack [(4096, 0), (4, 13), (8, 16), (8, 20)]
  | 0x08 => pack [(64, 0), (32, 7), (16, 13), (8, 18), (16, 22)]
  | 0x09 => pack [(160, 0), (5, 8), (4, 11)]
  | 0x0A => pack [(16, 0), (4, 5)]
  | 0x0B => pack [(1024, 0), (12, 11), (5, 15)]
  | 0x0C => pack [(if page < 0xC8 then linkModules die (page - 0xC0) else 0, 0), (4, 4), (0x8000, 16)]
  | 0x0D => pack [(4, 0), (portRole (16 * (die - 4) + (page - 0xD0)), 3), (9, 5)]
  | 0x0E => pack [(8, 0), (16, 4), (4096, 9)]
  | 0x0F => pack [(8, 0), (b2n (die == 6), 4)]
  | 0x10 => pack [(2, 0), (5, 2), (64, 6)]
  | _ => 0
/-- PAGE_INDEX (R349). -/
def pageIndex (die page : Nat) : Nat :=
  match pageType die page with
  | 0x0C => page - 0xC0
  | 0x0D => 0
  | _ => page - (blockPages die page).headD page
/-- PG_ID (R338). -/
def pageId (die page : Nat) : W32 :=
  pack [(pageType die page, 0), (pageInst die page, 8), (pageIndex die page, 16), (1, 24)]
/-- Lines of a stove's region that are lost now (R157). -/
def State.lostOn (s : State) (st : Nat) : Nat := (s.ht.lost.filter fun l => 128 * l / hbmRegion == st).length
/-- FAULTED (R340). -/
def State.pageFaulted (s : State) (die page : Nat) : Bool :=
  match pageType die page with
  | 0x02 | 0x03 => decide (s.retiredParts die page > (s.hdr die page).base)
  | 0x06 => s.lostOn die != 0
  | 0x09 => s.tr.pcFail.any fun p => p / 160 == die
  | 0x0A => s.tr.pkgFail.any fun p => 4 + p / 16 == die
  | 0x0C => (List.range (if page < 0xC8 then linkModules die (page - 0xC0) else 0)).any fun m => s.umod die (page - 0xC0) m == 0
  | 0x0D =>
    let n := (s.port (16 * (die - 4) + (page - 0xD0))).state
    n == 4 || ((s.hdr die page).bad && n != 2 && n != 3)
  | 0x0F => false
  | 0x10 => s.kd.state == 4 || s.kd.tripHold
  | _ => (s.hdr die page).bad
/-- PG_STATUS (R340). -/
def State.pageStatus (s : State) (die page : Nat) : W32 :=
  let h := s.hdr die page
  pack [(b2n (s.idle die page), 0), (b2n h.busy, 1), (b2n (s.pageFaulted die page), 2), (b2n !h.errs.isEmpty, 3),
    (h.errs.length, 4), (b2n h.errLost, 7)]
/-- A word of the header. -/
def State.hdrWord (s : State) (die page off : Nat) : W32 :=
  let h := s.hdr die page
  let e := h.errs.headD ⟨0, 0, 0, 0⟩
  match off with
  | 0x00 => pageId die page
  | 0x04 => pageCaps die page
  | 0x08 => pack [(b2n h.enable, 1), (b2n h.irqEn, 2)]
  | 0x0C => s.pageStatus die page
  | 0x10 => h.evStatus
  | 0x14 => h.evEnable
  | 0x1C => h.evFirst
  | 0x20 => e.w0
  | 0x24 => e.w1
  | 0x28 => e.w2
  | 0x2C => e.w3
  | 0x30 => pack [(h.countC, 0), (h.countU, 16)]
  | 0x34 => pack [(b2n h.lockCfg, 0), (b2n h.lockEvt, 1)]
  | _ => 0

-- Registers that show state, by page; none where the stored word is shown

/-- The context whose lease holds vector engine e of a stove, and its place in the lease. -/
def State.engineOf (s : State) (st e : Nat) : Option (Nat × Nat) :=
  (s.boundOn st).findSome? fun p => (p.2.engines.idxOf? e).map fun k => (p.1, k)
/-- The context of the flight that a vector engine runs. -/
def State.vecRuns (s : State) (st e : Nat) : Option Nat :=
  s.sq.flights.findSome? fun f => match f.body with
    | .vec k => if f.st = st ∧ k = e then some f.ctx else none
    | _ => none
/-- The contexts of the flights on a row engine, in issue order. -/
def State.rowRuns (s : State) (st g : Nat) : List Nat :=
  s.sq.flights.filterMap fun f => match f.body with
    | .row k _ _ _ => if f.st = st ∧ k = g then some f.ctx else none
    | _ => none
/-- ARR pages (R67). -/
def State.viewArr (s : State) (st page off : Nat) : Option W32 :=
  let n := fun (p : Nat → Bool) => ((List.range 48).filter p).length
  let ret := fun a => (s.arr st a).retired
  let pend := fun a => (s.arr st a).pending
  let busy := fun a => (s.arr st a).run.isSome
  if page = 0x20 then
    match off with
    | 0x40 => some (pack [(s.arraysIn st, 0), (n fun a => (s.leasedBy st a).isSome, 8), (n ret, 16), (n pend, 24)])
    | 0x54 => some (maskOf ret 0 32)
    | 0x58 => some (maskOf ret 32 16)
    | 0x5C => some (maskOf pend 0 32)
    | 0x60 => some (maskOf pend 32 16)
    | 0x64 => some (maskOf busy 0 32)
    | 0x68 => some (maskOf busy 32 16)
    | _ => none
  else
    (regInst off 0x40 4 48).map fun k =>
      let x := s.arr st k.1
      let c := s.leasedBy st k.1
      pack [(x.mism, 0), (b2n x.retired, 8), (b2n x.pending, 9), (b2n c.isSome, 10), (b2n x.retKindling, 11), (c.getD 0, 16)]
/-- SEQ pages (R100). -/
def State.viewSeq (s : State) (st page off : Nat) : Option W32 :=
  match page with
  | 0x10 =>
    let g := s.gate st
    match off with
    | 0x54 => some (pack [(b2n g.busy, 0), (g.slot, 1), (g.half, 6), (b2n g.passed, 7), (g.reason, 8)])
    | 0x58 => some (w32 g.failAt)
    | 0x5C => some (w32 Config.latLevel.toNat)
    | _ => none
  | 0x11 =>
    (regInst off 0x40 16 32).map fun k =>
      let p := s.slot st k.1
      match k.2 with
      | 0 => p.map
      | 4 => pack [(p.stA, 0), (p.stB, 3), (p.active, 6), (b2n p.pending, 7), (s.users st k.1 p.active, 8),
          (s.users st k.1 (1 - p.active), 15)]
      | 8 => w32 p.owner
      | _ => w32 p.gen
  | 0x12 =>
    (regInst off 0x40 32 64).bind fun k =>
      let q := s.seq st k.1
      match k.2 with
      | 0x00 => some (pack [(match q.ctx with
          | some c => if 1 ≤ q.state ∧ q.state ≤ 3 ∧ s.held c then 4 else q.state
          | none => q.state, 0), (q.slot, 3), (q.half, 8), (q.entry, 9), (q.ctx.getD 0, 12), (b2n q.evalInvalid, 24)])
      | 0x04 => some (w32 q.pc)
      | 0x14 => some (w32 q.issued)
      | 0x18 => some (pack [(q.skips, 0), (q.slips, 16)])
      | 0x1C => some (match q.waitKind with
          | 1 => w32 q.waitNum
          | 2 => pack [(q.waitNum, 8), (1, 13)]
          | _ => 0)
      | _ => none
  | _ => none
/-- SPD pages (R118). -/
def State.viewSpd (s : State) (st page off : Nat) : Option W32 :=
  if page = 0x30 then
    let ret := fun g => has s.sp.granRet (384 * st + g)
    let pend := fun g => has s.sp.granPend (384 * st + g)
    match off with
    | 0x40 => some (pack [(s.granulesIn st, 0), (384 - s.granulesIn st, 16)])
    | 0x64 =>
      let c := fld (s.rd st Reg.SPD_XLATE_CTX) 11 0
      some (match if stoveOf c = st then s.winPhys c (fld (s.rd st Reg.SPD_XLATE_OFF) 28 0) else none with
        | some x => pack [(1, 0), (x / 0x800000, 1), (x % 0x800000, 7)]
        | none => 0)
    | _ =>
      match regInst off 0x70 4 12, regInst off 0xA0 4 12 with
      | some k, _ => some (maskOf ret (32 * k.1) 32)
      | _, some k => some (maskOf pend (32 * k.1) 32)
      | _, _ => none
  else
    (regInst off 0x40 32 32).bind fun k =>
      let h := 32 * (page - 0x31) + k.1
      let l := s.lift st h
      match k.2 with
      | 0x0C => some (pack [(l.head, 0), (l.tail, 8), ((l.chairs.filter (· == 2)).length, 16)])
      | 0x10 => some (w32 (l.chairs.zipIdx.map fun c => c.1 * 4 ^ c.2).sum)
      | 0x14 => some (pack [(l.fills, 0), (l.errFills, 24)])
      | _ => none
/-- VEC page (R137). -/
def State.viewVec (s : State) (st off : Nat) : Option W32 :=
  if off = 0x40 then some (maskOf (fun e => (s.vecRuns st e).isSome) 0 12)
  else
    (regInst off 0x50 8 12).bind fun k =>
      let o := s.engineOf st k.1
      let c : Option Nat := (s.vecRuns st k.1).orElse fun _ => o.map (·.1)
      if k.2 = 0 then some (pack [(c.getD 0, 0), (b2n (s.vecRuns st k.1).isSome, 12), (b2n o.isSome, 13), ((o.map (·.2)).getD 0, 14)])
      else none
/-- ROW page (R138). -/
def State.viewRow (s : State) (st off : Nat) : Option W32 :=
  let hs := (s.rw.handles.filter fun p => p.1 / 4096 == st && p.2.valid).map (·.2)
  if off = 0x54 then
    some (pack ((List.range 4).map fun g => ((hs.filter fun h => h.kind == 2 && h.engine == g).length, 8 * g)))
  else
    (regInst off 0x70 16 4).bind fun k =>
      let l := s.rowRuns st k.1
      match k.2 with
      | 0x0 => some (pack [(l.headD 0, 0), (b2n !l.isEmpty, 12)])
      | 0x4 => some (w32 (l.length - 1))
      | 0xC => some (w32 (65536 - ((hs.filter fun h => h.engine == k.1).map fun h => cdiv h.stop 32 - h.base).sum))
      | _ => none
/-- HTH pages (R157). -/
def State.viewHth (s : State) (st page off : Nat) : Option W32 :=
  let way := fun (k : Nat) => tabGet (fun _ => (0, 0)) s.ht.ways (16 * st + k)
  if page = 0x60 then
    match regInst off 0x40 4 16, regInst off 0x80 4 6 with
    | some k, _ => some (pack [((way k.1).1, 0), ((way k.1).2, 3), (b2n (has s.ht.moving (16 * st + k.1)), 15)])
    | _, some k => some (w32 (s.hthCount st k.1))
    | _, _ => if off = 0xAC then some (w32 (s.lostOn st)) else none
  else
    (regInst off 0x40 32 8).bind fun k =>
      let r := s.rb k.1
      let moving := (List.range 16).any fun w => has s.ht.moving (16 * st + w) && way w == (2, k.1)
      match k.2 with
      | 0x10 => some (pack [(r.gen, 0), (r.pass, 16), (b2n r.coll, 24), (b2n moving, 25), (b2n (has r.walking st), 26),
          (b2n r.allClosed, 27)])
      | 0x14 => some (w32 (min (64 * s.rbResident st k.1) (s.rbSize k.1 / 4)))
      | _ => none
/-- EMB pages (R179). -/
def State.viewEmb (s : State) (st page off : Nat) : Option W32 :=
  match page with
  | 0x70 =>
    (regInst off 0x140 16 8).bind fun k =>
      match k.2 with
      | 0x4 => some (w32 (s.em.merge.filter fun m => m.st == st && m.slot == k.1).length)
      | 0x8 => some (w32 (s.epoch st k.1))
      | 0xC => some (w32 (s.epoch st k.1 / 2 ^ 32))
      | _ => none
  | 0x71 =>
    (regInst off 0x40 32 8).bind fun k =>
      let h := s.hop st k.1
      match k.2 with
      | 0x14 => some (w32 h.head)
      | 0x18 => some (pack [(h.tag, 0), (h.gen, 16)])
      | _ => none
  | _ =>
    match off with
    | 0x4C => some (w32 (s.em.embers.filter fun e => e.st == st).length)
    | 0x64 => some (w32 ((s.em.replicas.filter fun e => e.st == st).length % 8192))
    | _ => none
/-- SWP pages (R224). -/
def State.viewSwp (s : State) (st page off : Nat) : Option W32 :=
  if page = 0x80 then
    match off with
    | 0x40 => some (match (List.range 8).find? fun b => (s.job b).phase ≥ 2 ∨ ((s.job b).phase = 1 ∧ (s.job b).begun) with
        | some b => pack [((s.job b).phase, 0), (b, 4)]
        | none =>
          let n := tabGet (fun _ => 0) s.sw.auditing st
          if n = 0 then 0 else pack [(4, 0), (n - 1, 4)])
    | 0x58 => some (w32 (min 0xFFFFFFFF (tabGet (fun _ => 0) s.sw.elems st / 1024)))
    | _ =>
      (regInst off 0x80 4 16).map fun k =>
        match s.suspect st k.1 with
        | some x => pack [(x.shard, 0), (x.table, 16), (x.slot, 28), (1, 31)]
        | none => 0
  else
    (regInst off 0x40 64 8).bind fun k =>
      match k.2 with
      | 0x2C => some (w32 (cdiv ((s.job k.1).logBytes st) 4096))
      | 0x30 => some (w32 (s.damper st k.1).s)
      | 0x34 => some (w32 (s.damper st k.1).clean)
      | _ => none
/-- HBM pages (R242). HOT and the temperature of a stack are free values: nothing that the module is sent tells them. -/
def State.viewHbm (s : State) (st page off : Nat) : Option W32 :=
  let out := fun p => has s.tr.pcOut (160 * st + p)
  if page = 0x90 then
    match off with
    | 0x40 => some (w32 (s.pcsIn st))
    | 0x44 => some (w32 (768 * s.pcsIn st))
    | 0x48 => some (w32 (s.freeIn (s.hbmFrames st)))
    | _ =>
      match regInst off 0x4C 4 5, regInst off 0x80 8 6 with
      | some k, _ => some (maskOf out (32 * k.1) 32)
      | _, some k => some (w32 (s.stall st (fld (s.rd st Reg.HBM_STALL_CTX) 11 0) k.1 (k.2 == 4)))
      | _, _ => none
  else
    let c := page - 0x91
    let failed := fun p => has s.tr.pcFail (160 * st + p)
    match off with
    | 0x40 =>
      let trained := decide (s.kd.state ≠ 0 ∨ s.kd.step > 9) && (List.range 32).any fun k => !out (32 * c + k)
      some (pack [(b2n trained, 0), (b2n (has s.tr.fallback (5 * st + c)), 1),
        (b2n ((List.range 32).any fun k => failed (32 * c + k)), 2), (b2n (Config.stackHot (5 * st + c) s.free), 3)])
    | 0x44 => some (maskOf failed (32 * c) 32)
    | 0x5C => some (w32 (Config.stackTemp (5 * st + c) s.free).toNat)
    | _ => (regInst off 0x60 4 4).map fun k => w32 (s.servedOf st c k.1)
/-- CLD page (R243). -/
def State.viewCld (s : State) (die off : Nat) : Option W32 :=
  let first := 16 * (die - 4)
  match off with
  | 0x40 => some (w32 s.pkgsIn)
  | 0x44 => some (w32 s.tr.hostUnits)
  | 0x48 => some (maskOf (fun k => !has s.tr.pkgOut k) first 16 ||| maskOf (fun k => has s.tr.pkgFail k) first 16 <<< 16)
  | 0x98 => some (w32 (s.freeIn s.coldFrames))
  | _ => (regInst off 0x68 8 6).map fun k => w32 (s.stall die (fld (s.rd die Reg.CLD_STALL_CTX) 11 0) k.1 (k.2 == 4))
/-- The smallest hint of a context's sequencers now (R253). -/
def State.ctxHint (s : State) (c : Nat) : Nat :=
  let l := (List.range 64).filterMap fun n => if (s.seq (stoveOf c) n).ctx = some c then s.hintOf (stoveOf c) n else none
  l.foldl min (l.headD 0)
/-- STK pages (R260). -/
def State.viewStk (s : State) (st page off : Nat) : Option W32 :=
  let k := s.stk st
  if page = 0xB0 then
    match off with
    | 0x50 => some (pack [(k.power, 0), (b2n k.waking, 3)])
    | 0x68 => some (pack [(k.temp, 0), (k.throttle, 8)])
    | 0x90 => some (pack [(min ((s.freeArrays st).length / 4) (s.freeEngines st).length, 0), ((s.freeGranules st).length, 4),
        ((s.freeSeqs st).length, 13), ((s.generalWays st).length, 20)])
    | 0x94 => some (w32 (s.sumLeases (2 ^ 20) Lease.hbmQuota))
    | 0x98 => some (w32 (s.sumLeases (2 ^ 20) Lease.coldQuota))
    | _ =>
      (regInst off 0x84 4 3).map fun n =>
        let r := s.rd st Reg.STK_RC_SEL
        let key := rcKey st (fld r 2 0) (fld r 6 4) (fld r 9 8) n.1
        w32 (if bitOf r.toNat 12 then tabGet (fun _ => 0) s.sw.rcPrev key else s.rc key)
  else
    let c := 1024 * st + fld (s.rd st Reg.STK_CTX_IDX) 9 0
    let x := s.ctx c
    let l := if x.isBound then x.bound else {}
    match off with
    | 0x44 => some (if !x.valid then 0 else pack [(1, 0), (x.state, 1), (x.kind, 4), (x.slot, 6), (x.prio, 9), (x.aspace, 12), (b2n x.isBound, 24),
        (b2n x.loanCut, 25), (b2n x.borrowing.isSome, 26)])
    | 0x48 => some (pack [(l.groups, 0), (b2n l.lend, 4), (l.lendSem, 5), (l.granules, 10), (l.seqs, 19)])
    | 0x4C => some (pack [(l.weightWays, 0), (l.atomicWays, 4), (l.redWays, 8), (l.mergeWays, 13), (l.fabShare, 18)])
    | 0x50 => some (w32 (s.hbmUse c))
    | 0x54 => some (w32 (s.coldUse c))
    | 0x58 => some (pack [(x.fault, 0), (x.faultType, 8)])
    | 0x5C => some (w32 x.feedStall)
    | 0x60 => some (w32 x.pisteStall)
    | 0x64 => some (w32 x.wakeStall)
    | 0x68 => some (w32 (s.ctxHint c))
    | _ => none
/-- Has kindling trained a link end: step 8 the host–chimney links, step 12 the others (R310, R314)? -/
def State.linkTrained (s : State) (die k : Nat) : Bool :=
  let chimney := (4 ≤ die ∧ die < 6 ∧ k = 0) ∨ (die = 6 ∧ 4 ≤ k)
  decide ((if chimney then 4 else 6) ≤ s.kd.released ∧ (s.kd.state ≠ 0 ∨ (if chimney then 8 else 12) < s.kd.step))
/-- UCI pages (R279). The KiB that a link has carried are free values from the first release of a reset on: no command tells them. -/
def State.viewUci (s : State) (die page off : Nat) : Option W32 :=
  if page < 0xC8 then
    let k := page - 0xC0
    let n := if s.linkTrained die k then linkModules die k else 0
    let up := ((List.range n).filter fun m => let x := s.umod die k m; x == 1 || x == 2).length
    match off with
    | 0x40 => some (pack [(b2n (up != 0), 0), (up, 1), (linkPeer die k, 8)])
    | 0x44 => some (w32 ((List.range n).map fun m => s.umod die k m * 4 ^ m).sum)
    | 0x68 => some (if s.kd.released = 0 then 0 else Config.linkKb (8 * die + k) 0 s.free)
    | 0x6C => some (if s.kd.released = 0 then 0 else Config.linkKb (8 * die + k) 1 s.free)
    | _ => none
  else if page = 0xC8 then
    let r := s.ring (s.ringCtx die)
    match off with
    | 0x60 => some (pack [(r.head, 0), (r.gen, 17), (b2n r.fetching, 18), (b2n r.staleWait, 19)])
    | 0x64 => some (w32 r.tag)
    | 0x7C => some (setFld (s.rd die Reg.UCI_FLASH_STATUS) 2 0 (s.flash die).length)
    | _ => none
  else none
/-- FAB pages (R305). The codewords that a port's FEC has met since it first trained are free values: no command tells them. -/
def State.viewFab (s : State) (die page off : Nat) : Option W32 :=
  let q := s.port (16 * (die - 4) + (page - 0xD0))
  match off with
  | 0x40 => some (w32 q.state)
  | 0x48 => some (partnerWord q.partner)
  | 0x4C => some (if q.partner.isNone then 0 else Config.fecWords (16 * (die - 4) + (page - 0xD0)) 0 s.free)
  | 0x50 => some (if q.partner.isNone then 0 else Config.fecWords (16 * (die - 4) + (page - 0xD0)) 1 s.free)
  | _ => none
/-- COL pages (R306). -/
def State.viewCol (s : State) (page off : Nat) : Option W32 :=
  if page = 0xE0 then
    match off with
    | 0x40 => some (pack [(s.fb.lid.getD 0, 0), (b2n s.fb.lid.isSome, 12), (s.kd.rink, 16), (s.kd.seat, 24)])
    | 0x44 => some (w32 s.fb.ntVersion)
    | 0x4C => let e := s.name (fld (s.rd 4 Reg.COL_NT_IDX) 11 0); some (pack [(e.rink, 0), (e.seat, 8), (b2n e.valid, 12)])
    | 0x54 => let e := s.seatE (fld (s.rd 4 Reg.COL_SEAT_IDX) 11 0); some (pack [(e.state, 0), (e.lid, 4)])
    | 0x60 => some (pack [(s.fb.standin, 0), (s.fb.waiting.length, 4)])
    | _ => none
  else
    (regInst off 0x40 64 8).bind fun k =>
      let j := s.cjob k.1
      match k.2 with
      | 0x10 => some (match s.position k.1 with
          | some n => pack [(n, 0), (1, 12)]
          | none => 0)
      | 0x18 => some (pack [(j.active.getD 0, 0), (b2n j.active.isSome, 4), (b2n j.switching.isSome, 5)])
      | 0x1C => some (maskOf (fun n => (j.image n).isSome) 0 16)
      | 0x20 => some (w32 j.cseq)
      | 0x24 => some (pack [((s.job k.1).vstate, 0), (b2n (s.job k.1).abortSeen, 2)])
      | _ => none
/-- The releases that concern a die (R310): clocks reach every die; the host die releases 3, 4 and 6, the latter two with the adapters of
its links; chimneys 4, 5 and 8, stoves 5 to 7. -/
def dieReleases (die : Nat) : List Nat := if die < 4 then [2, 5, 6, 7] else if die < 6 then [2, 4, 5, 8] else [2, 3, 4, 6]
/-- PLT pages (R332). -/
def State.viewPlt (s : State) (die off : Nat) : Option W32 :=
  match off with
  | 0x40 => some (pack [(s.causeAt die, 0), (if has s.kd.late die then 0 else s.kd.sub, 4)])
  | 0x44 => some (maskOf (fun k => has (dieReleases die) k && decide (k ≤ s.kd.released)) 1 8)
  | 0x48 =>
    let on := decide (2 ≤ s.kd.released)
    some (pack [(b2n on, 0), (b2n (on && decide (die < 4)), 1), (b2n (on && decide (die < 4)), 2),
      (b2n (on && decide (4 ≤ die ∧ die < 6)), 3)])
  | 0x4C => some (setFld (s.rd die Reg.PLT_TEMP) 15 8 110)
  | 0x5C => some (w32 s.kd.jr.bootCount)
  | _ => none
/-- KDL page (R333). -/
def State.viewKdl (s : State) (off : Nat) : Option W32 :=
  let k := s.kd
  let copyOf := fun t => min 2 (tabGet (fun _ => 0) k.running t)
  let late := has k.late 7
  let svnOf := fun t => tabGet (fun _ => 0) k.svn t
  match off with
  | 0x40 => some (pack [(k.state, 0), (k.step, 3), (b2n (k.untested != 0), 8), (b2n k.degraded, 9), (b2n k.tripHold, 10),
      (b2n k.noPosition, 11)])
  | 0x44 => some (pack [(s.causeAt 7, 0), (if late then 0 else k.sub, 4), (if late then 0 else k.expired, 8)])
  | 0x48 => some (w32 k.jr.bootCount)
  | 0x4C => some (w32 (min 15 k.jr.fails))
  | 0x50 => some (pack ((List.range 5).map (fun t => (copyOf (t + 1), 2 * t)) ++
      (List.range 5).map fun t => (b2n (has k.jr.pendingImg (t + 1)), 10 + t)))
  | 0x54 => some (w32 k.untested)
  | 0x58 => some (pack ((List.range 4).map fun t => (svnOf (t + 1) % 256, 8 * t)))
  | 0x5C => some (pack [(svnOf 5 % 256, 0), (svnOf 15 % 256, 8)])
  | 0x60 => some (pack [(k.jr.half, 0), (b2n k.erasing, 1), (b2n !k.buffered.isEmpty, 2), (k.jr.used / 1024, 8)])
  | 0x64 => some (w32 k.jr.generation)
  | 0x68 => some (w32 k.jnlSeq)
  | 0x70 => some (w32 k.torn)
  | 0x74 => some (setFld (s.rd 7 Reg.KDL_THERM) 15 8 (min 255 k.trips.length))
  | 0x78 => some (w32 k.jr.rrstCounter)
  | 0x7C => some (w32 (k.jr.rrstCounter / 2 ^ 32))
  | _ => none

/-- The register that shows state at an offset of a page. -/
def State.regView (s : State) (die page off : Nat) : Option W32 :=
  match pageType die page with
  | 0x01 => s.viewSeq die page off
  | 0x02 => s.viewArr die page off
  | 0x03 => s.viewSpd die page off
  | 0x04 => s.viewVec die off
  | 0x05 => s.viewRow die off
  | 0x06 => s.viewHth die page off
  | 0x07 => s.viewEmb die page off
  | 0x08 => s.viewSwp die page off
  | 0x09 => s.viewHbm die page off
  | 0x0A => s.viewCld die off
  | 0x0B => s.viewStk die page off
  | 0x0C => s.viewUci die page off
  | 0x0D => s.viewFab die page off
  | 0x0E => s.viewCol page off
  | 0x0F => s.viewPlt die off
  | 0x10 => s.viewKdl off
  | _ => none

/-- The word that a read of a register returns: zero for holes, RSV and WO, and, but for PG_ID and PG_STATUS, while the block is
being reset (R8, R312, R348). -/
def State.readReg (s : State) (die page off : Nat) : W32 :=
  if !pageExists die page ∨ off % 4 ≠ 0 then 0
  else if (s.hdr die page).busy ∧ off ≠ 0 ∧ off ≠ 0x0C then 0
  else if off < 0x40 then
    if (0x10 ≤ off ∧ off ≤ 0x1C ∧ !hasEvents page) ∨ (0x20 ≤ off ∧ off ≤ 0x30 ∧ !hasErrLog page) then 0 else s.hdrWord die page off
  else
    match findReg die page off with
    | none => 0
    | some r =>
      if r.acc = 2 then 0
      else
        match s.regView die page off with
        | some w => w
        | none => s.rd die (4096 * page + off)

end Sys2Proof.Machine
end

