-- ==== Sys2Proof/Machine/RegWrite.lean ====
section
/-! DEFINITION. A write to any register: partial writes, locks, fields with rules of their own, and the commands that a write of
their register gives; and the reads that latch (R67, R100, R118, R129, R157, R179, R224, R242, R243, R258, R260, R266, R274, R279,
R305, R306, R332 to R336, R346, R347). -/

namespace Sys2Proof.Machine

/-- The state that a command without a stop leaves. -/
def Res.after (r : Res) (s : State) : State :=
  match r with
  | .next t => t
  | _ => s

/-- Stores a word in a RW register: its writable bits. -/
def State.wrPlain (s : State) (die page off mask : Nat) (v : W32) : State := s.wr die (4096 * page + off) (v &&& w32 mask)
/-- A RW register that a value out of its range leaves unchanged. -/
def State.wrIf (s : State) (ok : Bool) (die page off mask : Nat) (v : W32) : State :=
  if ok then s.wrPlain die page off mask v else s
/-- The field [hi:lo] of `new` where it may be written, else that of the stored word. -/
def keepFld (ok : Bool) (old new : W32) (hi lo : Nat) : Nat × Nat := (fld (if ok then new else old) hi lo, lo)

-- The stoker's command record (R258)

/-- The bits of word k of a record that a command uses. -/
def stkUsed (op k : Nat) : Nat :=
  match k, op with
  | 0, _ => 0x000FFFFF
  | 1, 0x01 => 0x000FFFFF
  | 2, 0x02 => 0x03FFFFFF
  | 3, 0x02 => 0x03FFFFFF
  | 4, 0x02 => 0x0007FFFF
  | 5, 0x02 => 0x001FFFFF
  | 6, 0x08 | 6, 0x09 => 0xFFFFFFFF
  | 7, 0x08 | 7, 0x09 => 0x0000FFFF
  | 8, 0x08 | 8, 0x09 => 0x01FFFFFF
  | 9, 0x03 => 0x00003FFF
  | 10, 0x0A => 0xFFFFFF3F
  | _, _ => 0
/-- The fields of a command record. -/
def stkRecOf (b : List Byte) : StkRec :=
  let w := fun k => leAt b (4 * k) 4
  let op := w 0 % 256
  { ctx := bits (w 0) 19 8, kind := bits (w 1) 1 0, slot := bits (w 1) 4 2, prio := bits (w 1) 7 5, aspace := bits (w 1) 19 8,
    groups := bits (w 2) 3 0, lend := bitOf (w 2) 4, lendSem := bits (w 2) 9 5, granules := bits (w 2) 18 10,
    seqs := bits (w 2) 25 19, weightWays := bits (w 3) 3 0, atomicWays := bits (w 3) 7 4, redWays := bits (w 3) 12 8,
    mergeWays := bits (w 3) 17 13, fabShare := bits (w 3) 25 18, hbmQuota := bits (w 4) 18 0, coldQuota := bits (w 5) 20 0,
    va := leAt b 0x18 6, pages := bits (w 8) 18 0, hint := bits (w 8) 20 19, write := bitOf (w 8) 21, host := bitOf (w 8) 22,
    stove := bits (w 8) 24 23, seq := bits (w 9) 5 0, pslot := bits (w 9) 10 6, entry := bits (w 9) 13 11,
    sem := bits (w 10) 4 0, chair := bitOf (w 10) 5, hintUs := bits (w 10) 31 8,
    junk := (List.range 16).any fun k => w k &&& (0xFFFFFFFF - stkUsed op k) != 0 }
/-- A write of STK_CMD_GO: the record is read and its command given (R258, R259). A record that cannot be read is logged as a failed read and
refused with reason 2: DESIGN CHOICE (log 103). -/
def State.stkGo (s : State) (ag : Agent) (st : Nat) : State :=
  let a := 64 * (s.rdAddr st Reg.STK_CMD_LO Reg.STK_CMD_HI / 64)
  let b := s.mrdN a 64
  let r := stkRecOf b
  let op := leAt b 0 1
  match s.addrRead st a 64 1 with
  | (s, some bad) => (s.hostDenied false bad).stkRefuse st 2 0 0
  | (s, none) =>
  Res.after (match op with
    | 0x01 => execCreate ag st r s
    | 0x02 => execLease ag st r s
    | 0x03 => execStart ag st r s
    | 0x04 => execStop ag st r s
    | 0x05 => execResume ag st r s
    | 0x06 => execRelease ag st r s
    | 0x07 => execDestroy ag st r s
    | 0x08 => execMap ag st r s
    | 0x09 => execUnmap ag st r s
    | 0x0A => execHint ag st r s
    | _ => s.stkCmd ag st op r fun _ => .inl 2) s

-- Writes by page, after the rules of every page

/-- ARR pages (R67). -/
def State.writeArr (s : State) (ag : Agent) (st page off : Nat) (v : W32) : State :=
  if !ag.priv then s.refuseAgent st page v
  else if page = 0x20 then
    let old := s.rd st Reg.ARR_RES_CTRL
    s.wr st Reg.ARR_RES_CTRL (pack [keepFld (fld v 7 0 != 0) old v 7 0, keepFld (decide (2 ≤ fld v 10 8)) old v 10 8])
  else
    let a := fld v 5 0
    match fld v 9 8 with
    | 1 => Res.after (execClearMismatchCnt ag st a s) s
    | 2 => Res.after (execMarkRetest ag st a s) s
    | 3 => s.logErr st 0x20 ⟨0x800, 0, 0, 0⟩
    | _ => if off = 0x100 then s else s
/-- SEQ pages (R100). -/
def State.writeSeq (s : State) (ag : Agent) (st page off mask : Nat) (v : W32) : State :=
  match page, off with
  | 0x10, 0x4C => Res.after (execSeqLoad ag st v s) s
  | 0x10, 0x50 => Res.after (execSeqCommit ag st v s) s
  | 0x11, _ => Res.after (execSlotTableWrite ag st ((off - 0x40) / 16) (off % 16 == 8) v s) s
  | 0x13, 0x50 => s.wrIf (decide (v.toNat ≤ 2 ^ 24)) st page off mask v
  | _, _ => s.wrPlain st page off mask v
/-- SPD pages (R108, R115, R118). -/
def State.writeSpd (s : State) (ag : Agent) (st page off mask : Nat) (v : W32) : State :=
  if page = 0x30 then
    if off = 0x44 then s.wrIf (let n := fld v 11 0; n == 0 || decide (16 ≤ n)) st page off mask v else s.wrPlain st page off mask v
  else
    let k := 32 * (page - 0x31) + (off - 0x40) / 32
    match (off - 0x40) % 32 with
    | 0x00 => s.liftCfgWrite ag st k v
    | 0x1C => if bitOf v.toNat 0 then Res.after (execLiftReset ag st k s) s else s
    | _ => if (s.liftCfg st k).enable then s.liftRefused st k (s.liftCfg st k).ctx else s.wrPlain st page off mask v
/-- The ROW page (R129, R138): one command bit is a command, others in the same write follow in the order of their bits. -/
def State.writeRow (s : State) (ag : Agent) (st off mask : Nat) (v : W32) : State :=
  if off = 0x4C then
    let s := if bitOf v.toNat 0 then Res.after (execHandleWrite ag st s) s else s
    let s := if bitOf v.toNat 1 then Res.after (execHandleRead ag st s) s else s
    if bitOf v.toNat 2 then Res.after (execHandleClear ag st s) s else s
  else s.wrPlain st 0x50 off mask v
/-- HTH pages (R144, R154, R157). -/
def State.writeHth (s : State) (ag : Agent) (st page off mask : Nat) (v : W32) : State :=
  if page = 0x60 then
    if off = 0xA4 then s.wrIf (v != 0) st page off mask v
    else if bitOf v.toNat 0 then Res.after (execHthFlush ag st s) s else s
  else
    match regInst off 0x40 32 8, regInst off 0x200 16 16 with
    | some k, _ =>
      if k.2 = 0 then Res.after (execRbEnable ag st k.1 v s) s
      else if s.rbOn st k.1 then s.hthRefused st k.1 0 else s.wrPlain st page off mask v
    | _, some k =>
      if k.2 = 0xC then
        match fld v 2 0 with
        | 0 => s
        | 1 => Res.after (execAtomicWindowBind ag st k.1 s) s
        | 2 => Res.after (execAtomicWindowUnbind ag st k.1 s) s
        | 4 => Res.after (execAtomicWindowReset ag st k.1 s) s
        | _ => s.hthRefused st 0 k.1
      else s.wrPlain st page off mask v
    | _, _ => s
/-- EMB pages (R179). -/
def State.writeEmb (s : State) (ag : Agent) (st page off mask : Nat) (v : W32) : State :=
  match page with
  | 0x70 =>
    match regInst off 0x40 32 8, regInst off 0x140 16 8 with
    | some k, _ =>
      if bitOf (s.rdN st (Reg.EMB_JOB_b_CTRL + 16 * k.1)) 0 then s.embRefused st 0 k.1 else s.wrPlain st page off mask v
    | _, some k => s.embJobWrite ag st k.1 v
    | _, _ => s
  | 0x71 =>
    (regInst off 0x40 32 8).elim s fun k =>
      match k.2 with
      | 0x0C => s.hopCtrlWrite ag st k.1 v
      | 0x10 => Res.after (execHopperDoorbell ag st k.1 (fld v 16 0) s) s
      | _ => if (s.hopCfg st k.1).on then s.embRefused st k.1 0 else s.wrPlain st page off mask v
  | _ => if off = 0x48 then s.wrIf (decide (fld v 12 0 ≤ 4096)) st page off mask v else s.wrPlain st page off mask v
/-- SWP pages (R207, R210, R218, R224). -/
def State.writeSwp (s : State) (ag : Agent) (st page off mask : Nat) (v : W32) : State :=
  if page = 0x80 then
    if off = 0x74 then Res.after (execSuspLostClear ag st v s) s
    else if off = 0x44 then s.wrPlain st page off mask v
    else Res.after (execSuspectClear ag st ((off - 0x80) / 4) v s) s
  else
    (regInst off 0x40 64 8).elim s fun k =>
      let on := bitOf (s.rdN st (Reg.SWP_JOB_b_CTRL + 64 * k.1)) 0
      match k.2 with
      | 0x00 => Res.after (execSwpJobEnable ag st k.1 v s) s
      | 0x3C => Res.after (execSwpDmpInit ag st k.1 v s) s
      | 0x38 => if on then s.swpRefused st k.1 else s.wrIf (fld v 15 0 != 0) st page off mask v
      | _ => if on then s.swpRefused st k.1 else s.wrPlain st page off mask v
/-- May a scrubber's PERIOD be written: 0, or 1 to 168 hours (R242, R243)? -/
def periodOk (v : W32) : Bool := decide (fld v 7 0 ≤ 168)
/-- HBM pages (R242). -/
def State.writeHbm (s : State) (st page off mask : Nat) (v : W32) : State :=
  match page, off with
  | 0x90, 0x60 => s.wrIf (v != 0) st page off mask v
  | 0x90, 0x64 => s.wrIf (decide (0x10000 ≤ v.toNat)) st page off mask v
  | 0x90, 0x68 =>
    let old := s.rd st Reg.HBM_TM_CTRL
    let m := fld v 12 8
    s.wr st Reg.HBM_TM_CTRL (pack [(fld v 0 0, 0), keepFld (decide (1 ≤ m ∧ m ≤ 16)) old v 12 8, keepFld (fld v 31 16 != 0) old v 31 16])
  | 0x90, _ => s.wrPlain st page off mask v
  | _, _ => s.wrIf (periodOk v) st page off mask v
/-- CLD pages (R243). -/
def State.writeCld (s : State) (die off mask : Nat) (v : W32) : State :=
  match off with
  | 0x54 => s.wrIf (periodOk v) die 0xA0 off mask v
  | 0x5C => s.wrIf (v != 0) die 0xA0 off mask v
  | 0x60 => s.wrIf (decide (0x10000 ≤ v.toNat)) die 0xA0 off mask v
  | _ => s.wrPlain die 0xA0 off mask v
/-- STK pages: an accepted write brings the module out of Cold (R256, R260). -/
def State.writeStk (s : State) (ag : Agent) (st page off mask : Nat) (v : W32) : State :=
  let s := s.leaveCold
  match page, off with
  | 0xB0, 0x48 => if bitOf v.toNat 0 then s.stkGo ag st else s
  | 0xB0, 0x54 =>
    let s := s.wrPlain st page off mask v
    if bitOf v.toNat 3 ∧ st = 0 then Res.after (execColdEnter ag s) s else s
  | 0xB0, 0x6C =>
    let old := s.rd st Reg.STK_THERM_CTRL
    let ok := decide (fld v 15 8 < fld v 7 0)
    s.wr st Reg.STK_THERM_CTRL (pack [keepFld ok old v 7 0, keepFld ok old v 15 8, (fld v 27 16, 16)])
  | 0xB0, 0x74 => s.wrIf (decide (v.toNat ≤ 65535)) st page off mask v
  | 0xB0, 0x9C => s.wrIf (decide (fld v 4 0 ≤ 16)) st page off mask v
  | _, _ => s.wrPlain st page off mask v
/-- UCI pages (R266, R274, R279). -/
def State.writeUci (s : State) (ag : Agent) (die page off mask : Nat) (v : W32) : State :=
  if page < 0xC8 then (if bitOf v.toNat 0 then Res.after (execRetrain ag die (page - 0xC0) s) s else s)
  else if page = 0xC8 then
    if off = 0x5C then
      match fld v 1 0 with
      | 1 => Res.after (execRingWrite ag die s) s
      | 2 => Res.after (execRingRead ag die s) s
      | 3 => s.ringRefuse die (s.ringCtx die) v.toNat
      | _ => s
    else s.wrPlain die page off mask v
  else if 0x800 ≤ off ∧ off % 8 = 4 then Res.after (execSourceUnmask ag die ((off - 0x804) / 8) v s) s
  else s.wrPlain die page off mask v
/-- FAB pages (R305, R339). -/
def State.writeFab (s : State) (ag : Agent) (die page off mask : Nat) (v : W32) : State :=
  let p := 16 * (die - 4) + (page - 0xD0)
  if bitOf v.toNat 0 ∧ !bitOf (s.rdN die (4096 * page + off)) 0 ∧ !s.blockOn die page then s.fabLog p 7 0 0 0
  else
    let s := s.wrPlain die page off mask v
    if bitOf v.toNat 1 then Res.after (execPortRetrain ag p s) s else s
/-- COL pages (R294, R301, R303, R306). -/
def State.writeCol (s : State) (ag : Agent) (page off mask : Nat) (v : W32) : State :=
  if page = 0xE0 then
    match off with
    | 0x58 => if bitOf v.toNat 0 then Res.after (execDrain ag s) s else s
    | 0x5C => s.wrIf (v != 0) 4 page off mask v
    | 0x74 => if bitOf v.toNat 31 then Res.after (execPisteLoad ag v s) s else s
    | _ => s.wrPlain 4 page off mask v
  else
    (regInst off 0x40 64 8).elim s fun k =>
      if k.2 = 0 then s.colCtrlWrite ag k.1 v
      else if bitOf (s.rdN 4 (colReg k.1 Reg.COL_JOB_b_CTRL)) 0 then (s.colLog 0x0D k.1 0 0 0 0 0).raise 4 0xE0 14
      else if k.2 = 0x14 then s.wrIf (v != 0) 4 page off mask v
      else s.wrPlain 4 page off mask v
/-- A write of KDL_CMD: nothing without GO; else the command of OP (R333, R334). -/
def State.kdlGo (s : State) (ag : Agent) (v : W32) : State :=
  if !bitOf v.toNat 31 then s
  else if fld v 30 8 ≠ 0 then s.kdlCmd ag fun _ => .inr 2
  else
    match fld v 7 0 with
    | 0x01 => Res.after (execClearStep ag s) s
    | 0x02 => Res.after (execAdvanceSvn ag s) s
    | 0x03 => Res.after (execPreferCopy ag s) s
    | 0x04 => Res.after (execAttest ag s) s
    | 0x05 => Res.after (execSetRrstKey ag s) s
    | 0x06 => Res.after (execJnlAppend ag s) s
    | 0x07 => Res.after (execJnlRead ag s) s
    | 0x08 => Res.after (execSetHostpart ag s) s
    | 0x09 => Res.after (execHaltRelease ag s) s
    | 0x0A => Res.after (execRevokeKey ag s) s
    | _ => s.kdlCmd ag fun _ => .inr 2
/-- The bytes of a word that a write enables. -/
def mergeBe (old v : W32) (be : BitVec 4) : W32 :=
  pack ((List.range 4).map fun k => (fld (if bitOf be.toNat k then v else old) (8 * k + 7) (8 * k), 8 * k))
/-- A write of a whole word to a RW or WO register. -/
def State.writeReg (s : State) (ag : Agent) (die page off mask : Nat) (v : W32) : State :=
  match pageType die page with
  | 0x01 => s.writeSeq ag die page off mask v
  | 0x02 => s.writeArr ag die page off v
  | 0x03 => s.writeSpd ag die page off mask v
  | 0x05 => s.writeRow ag die off mask v
  | 0x06 => s.writeHth ag die page off mask v
  | 0x07 => s.writeEmb ag die page off mask v
  | 0x08 => s.writeSwp ag die page off mask v
  | 0x09 => s.writeHbm die page off mask v
  | 0x0A => s.writeCld die off mask v
  | 0x0B => s.writeStk ag die page off mask v
  | 0x0C => s.writeUci ag die page off mask v
  | 0x0D => s.writeFab ag die page off mask v
  | 0x0E => s.writeCol ag page off mask v
  | 0x0F => Res.after (execPltModReset ag die v s) s
  | 0x10 => s.kdlGo ag v
  | _ => s
/-- A write to a word of the header (R337 to R346). Of PG_CTRL, ERR_POP, EVT_IRQ_EN, ENABLE and SOFT_RESET take effect, in this
order: a pop goes before a record of the same cycle (R344). -/
def State.writeHdr (s : State) (ag : Agent) (die page off : Nat) (v : W32) : State :=
  match off with
  | 0x08 =>
    let irq := bitOf v.toNat 2
    let s := if bitOf v.toNat 3 then Res.after (execErrPop ag die page s) s else s
    let s := if irq != (s.hdr die page).irqEn then s.irqEnWrite ag die page irq v else s
    let s := if bitOf v.toNat 1 then Res.after (execBlockEnableSet ag die page s) s else s.enableClear ag die page v
    if bitOf v.toNat 0 then s.softReset ag die page v else s
  | 0x10 => Res.after (execEvtStatusClear ag die page v 0 s) s
  | 0x14 => Res.after (execEvtEnableWrite ag die page v s) s
  | 0x18 => Res.after (execEvtSet ag die page v s) s
  | 0x30 => Res.after (execErrCountClear ag die page v s) s
  | 0x34 =>
    let s := if bitOf v.toNat 0 then Res.after (execLockCfg ag die page s) s else s
    if bitOf v.toNat 1 then Res.after (execLockEvt ag die page s) s else s
  | _ => s
/-- The local index of a context whose doorbell stands at an offset of a doorbell page (R279). -/
def doorbellAt (die page off : Nat) : Option Nat :=
  if die < 4 ∧ 0xCC ≤ page ∧ page ≤ 0xCF ∧ off % 8 = 0 then (regInst off 0x40 8 256).map fun k => 256 * (page - 0xCC) + k.1
  else none
/-- A write to a register or a hole of a page. -/
def State.regWrite (s : State) (ag : Agent) (die page off : Nat) (v : W32) (be : BitVec 4) : State :=
  match s.pageGuard ag die page v off with
  | (s, false) => s
  | (s, true) =>
    let win := decide (die = 7 ∧ page = 0x100 ∧ 0x400 ≤ off ∧ off < 0x800)
    let mbx := decide (die < 4 ∧ page = 0xC8 ∧ 0x100 ≤ off ∧ off < 0x140)
    if mbx then s.uciLog die 0xC8 0x0A 0 0 0 v.toNat 0
    else if be ≠ 15 ∧ !win then s.writeLog die page v 2
    else if off < 0x40 then s.writeHdr ag die page off v
    else
      match doorbellAt die page off, findReg die page off with
      | some i, _ => Res.after (execDoorbell ag (1024 * die + i) v s) s
      | _, some r =>
        if r.acc = 0 then s
        else if s.lockedCfg ag die page then s.lockLog die page v
        else if win then s.wr die (4096 * page + off) (mergeBe (s.rd die (4096 * page + off)) v be)
        else s.writeReg ag die page off r.mask v
      | _, none => s

/-- REGISTER_WRITE (R335). -/
def execRegisterWrite (ag : Agent) (die page off : Nat) (value : W32) (be : BitVec 4) (s : State) : Res :=
  .next (s.regWrite ag die page off value be)

-- Latching reads (R347)

/-- The offset of _HI, where the register at an offset is the _LO half of an RO pair. -/
def roPair (die page off : Nat) : Option Nat :=
  let pool := pageType die page == 0x02 && page == 0x20 && has [0x54, 0x5C, 0x64] off
  let cycle := pageType die page == 0x01 && page == 0x13 && off == 0x40
  let epoch := pageType die page == 0x07 && page == 0x70 && (match regInst off 0x140 16 8 with
    | some k => k.2 == 8
    | none => false)
  let kdl := pageType die page == 0x10 && has [0x58, 0x78] off
  if pool || cycle || epoch || kdl then some (off + 4) else none
/-- The key of a latched word. -/
def latchKey (ag : Agent) (die page off : Nat) : Nat := 2 ^ 28 * ag.cls + 0x1000000 * canonDie die page + 4096 * page + off

/-- A read by an agent: a _LO half latches _HI for the agent's class; a _HI half gives what the class's last read of _LO latched,
before any the present half. -/
def State.readLatch (s : State) (ag : Agent) (die page off : Nat) : State × W32 :=
  let v := s.readReg die page off
  match roPair die page off with
  | some h => ({ s with pg := { s.pg with latch := tabPut s.pg.latch (latchKey ag die page h) (s.readReg die page h) } }, v)
  | none =>
    let k := latchKey ag die page off
    match (if 4 ≤ off then roPair die page (off - 4) else none), s.pg.latch.find? fun e => e.1 == k with
    | some _, some e => (s, if (s.hdr die page).busy then 0 else e.2)
    | _, _ => (s, v)
/-- A read whose answer goes to the agent: none from a domain in reset (R310), an error completion over a host link that is down (R263),
zero from a hole, which is logged for the host (R348). -/
def State.readAnswer (s : State) (ag : Agent) (die page off : Nat) : State :=
  if !reaches ag die ∨ !s.agentUp ag then s
  else if !pageExists die page then
    (if ag = .runtime ∧ s.pageUp 0 0x90 then s.holeLog (regBase + 0x1000000 * die + 4096 * page + off) else s).emit (.regRead ag.cls 0)
  else if !s.linkUp ag die then s.emit (.host false [])
  else if !s.pageUp die page then s
  else
    let y := s.readLatch ag die page off
    y.1.emit (.regRead ag.cls y.2)

/-- LO_READ_LATCH (R347). -/
def execLoReadLatch (ag : Agent) (die page off : Nat) (s : State) : Res := .next (s.readAnswer ag die page off)
/-- HI_READ_LATCHED (R347). -/
def execHiReadLatched (ag : Agent) (die page off : Nat) (s : State) : Res := .next (s.readAnswer ag die page off)

end Sys2Proof.Machine
end

