-- ==== Sys2Proof/Machine/Copy.lean ====
section
/-! DEFINITION. COPY: bytes between scratchpad, the memory tiers, a reduction buffer, and, for a service context, register space
(R13, R20, R79, R94, R116, R117, R148, R150, R335, R336). -/

namespace Sys2Proof.Machine

-- The register window of a service context (R336)

/-- Start of the register window in a service context's address space. -/
def regWindow : Nat := 0xFF0000000000
/-- Does a view lie in the register window of its context? -/
def State.inRegs (s : State) (c : Nat) (v : View) : Bool :=
  (s.ctx c).kind == 2 && v.place == .virt && decide (regWindow ≤ v.addr ∧ v.extent ≤ regWindow + 0x08000000)
/-- Reads bytes of register space by words, in ascending order. -/
def State.readRegs (s : State) (ag : Agent) (x n : Nat) : State × List Byte :=
  let y := (List.range (if n = 0 then 0 else (x + n - 1) / 4 + 1 - x / 4)).foldl (fun (y : State × List Byte) k =>
    let a := 4 * (x / 4 + k)
    let z := y.1.readLatch ag (a / 0x1000000) (a / 4096 % 4096) (a % 4096)
    (z.1, y.2 ++ leBytes 4 z.2.toNat)) (s, [])
  (y.1, (y.2.drop (x % 4)).take n)
/-- Writes bytes of register space by words, in ascending order; a word that is not whole has its other bytes disabled. -/
def State.writeRegs (s : State) (ag : Agent) (x : Nat) (b : List Byte) : State :=
  let n := b.length
  (List.range (if n = 0 then 0 else (x + n - 1) / 4 + 1 - x / 4)).foldl (fun s k =>
    let a := 4 * (x / 4 + k)
    let inside := fun i => decide (x ≤ a + i ∧ a + i < x + n)
    let w := leNat ((List.range 4).map fun i => if inside i then nth 0 b (a + i - x) else 0)
    let be := ((List.range 4).map fun i => b2n (inside i) * 2 ^ i).sum
    s.regWrite ag (a / 0x1000000) (a / 4096 % 4096) (a % 4096) (w32 w) (BitVec.ofNat 4 be)) s

-- Reading and writing the bytes of a view

/-- The byte ranges of a view relative to its address: the rows, then the scales. -/
def View.parts (v : View) : List (Nat × Nat) :=
  (List.range v.rows).map (fun r => (r * v.stride, rowBytes v.fmt v.cols)) ++ (if scaled v.fmt then [(v.scaleOff, v.scaleLen)] else [])
/-- The bytes of a view as COPY reads them, part by part. -/
def State.copyRead (s : State) (c : Nat) (v : View) : State × List (List Byte) :=
  if s.inRegs c v then
    v.parts.foldl (fun (y : State × List (List Byte)) p =>
      let z := y.1.readRegs (.service c) (v.addr - regWindow + p.1) p.2
      (z.1, y.2 ++ [z.2])) (s, [])
  else if v.place = .rb then
    (s, (List.range v.rows).map fun r => (List.range v.cols).flatMap fun k => leBytes 2 (s.codeAt c v r k))
  else (s, v.parts.map fun p => s.bytesOf c v p.1 p.2)
/-- Writes the parts of a view of the same shape and format. -/
def State.copyWrite (s : State) (c : Nat) (v : View) (l : List (List Byte)) : State :=
  (v.parts.zip l).foldl (fun s p =>
    if s.inRegs c v then s.writeRegs (.service c) (v.addr - regWindow + p.1.1) p.2 else s.putBytes c v p.1.1 p.2) s

-- What COPY may not reach

/-- A view with the counts of another where it is raw and the other is named by a descriptor (R78). -/
def State.sized (s : State) (x : Src) (o : Opd) (v : View) (p : Opd) (w : View) : View :=
  if !o.desc ∧ p.desc then s.view x.st x.sq x.ctx o w.rows w.cols else v

/-- The operands of COPY, resolved: a raw one takes the counts of the one that a descriptor names (R78). -/
def State.copyViews (s : State) (x : Src) (a b : Opd) : View × View :=
  let a0 := s.view x.st x.sq x.ctx a 0 0
  let b0 := s.view x.st x.sq x.ctx b 0 0
  (s.sized x a a0 b b0, s.sized x b b0 a a0)
/-- The run-time check that COPY fails, and its detail: the address of the operand at fault (R94, R100, R116). -/
def State.copyCheck (s : State) (x : Src) (a b : Opd) (v w : View) : Option (Nat × Nat) :=
  let map := fun (wr : Bool) (o : Opd × View) =>
    s.descFails x.st x.sq x.ctx o.1 (if s.inRegs x.ctx o.2 then { o.2 with place := .rb } else o.2) wr
  let desc := badAddr [(a, v)] (map false) <|> badAddr [(b, w)] (map true)
  let extent := badAddr [(a, v), (b, w)] fun o => s.extentFails x.ctx o.1 o.2
  let count := badAddr [(a, v), (b, w)] fun o => s.countFails x.ctx o.2
  if desc.isSome then some (3, desc.getD 0)
  else if extent.isSome then some (1, extent.getD 0)
  else if v.rows ≠ w.rows ∨ v.cols ≠ w.cols ∨ v.fmt ≠ w.fmt ∨ v.grain ≠ w.grain ∨ v.zp ≠ w.zp then some (2, w.addr)
  else if count.isSome then some (2, count.getD 0)
  else if b.isChair then some (4, w.addr)
  else none
/-- The accesses of COPY: register space has no ECC that the rule names. -/
def State.copyAccess (s : State) (x : Src) (i : Iss) (a b : Opd) (v w : View) : State × Bool :=
  let l := [v, w]
  let skip := match l[i.rdOpd]? with
    | some u => s.inRegs x.ctx u
    | none => false
  s.access x (if skip then { i with rd := .ok } else i) [v] [w] 1 (descs := [a, b])

/-- COPY (R116, R117); of a view of the merge area that it may not reach the record names LOCATION 0 (log 86). The bytes are read at issue; those that go to scratchpad land when it completes (R95). -/
def execCopy (i : Iss) (a b : Opd) (s : State) : Res :=
  match s.begin i 0x20 [a] with
  | (s, none) => .next s
  | (s, some x) =>
    let p := s.copyViews x a b
    let va := p.1
    let vb := p.2
    match s.copyCheck x a b va vb with
    | some r => .next (s.skip i x r.1 r.2)
    | none =>
      if va.size = 0 then .next (s.postOpt x i.post)
      else if vb.place = .rb then .next (if (s.ctx x.ctx).isEval then s.evalWrite x else s.rbSkip i x (vb.rbElem 0 0) vb.addr)
      else if s.guardedView x.ctx vb then .next (s.evalWrite x)
      else if va.place = .rb ∧ !s.rbReadable (s.ctx x.ctx).slot then .next (s.rbSkip i x (va.rbElem 0 0) va.addr)
      else if s.mergeView x.ctx va then .next (s.rbSkip i x 0 va.addr)
      else if s.mergeView x.ctx vb then .next (s.rbSkip i x 0 vb.addr)
      else
        let s := s.readLines x (if a.isChair then [] else s.viewLines x.ctx va)
        match s.copyAccess x i a b va vb with
        | (s, false) => .next s
        | (s, true) =>
          let lines := s.viewLines x.ctx vb
          let s := s.claimLines x lines
          let y := s.copyRead x.ctx va
          let r := y.1.defer (y.1.copyWrite x.ctx vb y.2) x.ctx [vb]
          .next (r.1.launch i x (s.readersOf x.ctx [a]) lines .plain r.2)

end Sys2Proof.Machine
end

