-- ==== Sys2Proof/Machine/Image.lean ====
section
/-! DEFINITION. A stream image as the gate reads it: header, instructions, pool, what each instruction's words say, and which
scratchpad ranges and scalar registers it names without computed operands (R69, R72 to R82, R91). -/

namespace Sys2Proof.Machine

/-- An instruction's words (R72): the header, word 1, and the three operand words. -/
structure GInsn where
  w0 : Nat := 0
  w1 : Nat := 0
  wa : Nat := 0
  wb : Nat := 0
  wc : Nat := 0
deriving DecidableEq, Repr

/-- The words of 32 bytes. -/
def insnOf (b : List Byte) : GInsn := ⟨leAt b 0 4, leAt b 4 4, leAt b 8 8, leAt b 16 8, leAt b 24 8⟩
/-- The 32 bytes of an instruction. -/
def GInsn.bytes (g : GInsn) : List Byte :=
  leBytes 4 g.w0 ++ leBytes 4 g.w1 ++ leBytes 8 g.wa ++ leBytes 8 g.wb ++ leBytes 8 g.wc
/-- OPCODE. -/
def GInsn.op (g : GInsn) : Nat := bits g.w0 7 0
/-- OFFSET. -/
def GInsn.offset (g : GInsn) : Nat := bits g.w0 19 8
/-- The semaphore waited on, where WAIT_EN is 1. -/
def GInsn.wait (g : GInsn) : Option Nat := if bitOf g.w0 25 then some (bits g.w0 24 20) else none
/-- The semaphore posted, where POST_EN is 1. -/
def GInsn.post (g : GInsn) : Option Nat := if bitOf g.w0 31 then some (bits g.w0 30 26) else none
/-- Bytes 8–11, where they hold a word in place of operand A (R72). -/
def GInsn.word (g : GInsn) : Nat := bits g.wa 31 0

/-- An image: its header, its instructions, its pool (R69). -/
structure Img where
  hdr : List Byte
  code : List GInsn
  pool : List (List Byte)
  len : Nat
deriving DecidableEq, Repr

/-- Image offset of instruction j (R69). -/
def insnAt (j : Nat) : Nat := 64 + 32 * j
/-- Image offset of the pool behind n instructions (R69). -/
def poolAt (n : Nat) : Nat := alignUp (insnAt n) 64

/-- CODE_COUNT. -/
def Img.codeCount (m : Img) : Nat := leAt m.hdr 8 4
/-- POOL_COUNT. -/
def Img.poolCount (m : Img) : Nat := leAt m.hdr 12 4
/-- WINDOW_MIN, in MiB. -/
def Img.windowMin (m : Img) : Nat := leAt m.hdr 0x10 4
/-- KIND. -/
def Img.kind (m : Img) : Nat := leAt m.hdr 0x14 1
/-- ENTRY_COUNT. -/
def Img.entryCount (m : Img) : Nat := leAt m.hdr 0x15 1
/-- ENTRY[k]. -/
def Img.entry (m : Img) (k : Nat) : Nat := leAt m.hdr (0x18 + 4 * k) 4

/-- The image in a byte list; instructions and descriptors past its end are left out. -/
def imgOf (b : List Byte) : Img :=
  let n := min (leAt b 8 4) ((b.length - 64) / 32)
  let p := min (leAt b 12 4) ((b.length - poolAt n) / 64)
  { hdr := b.take 64, len := b.length,
    code := (List.range n).map fun j => insnOf ((b.drop (insnAt j)).take 32),
    pool := (List.range p).map fun i => (b.drop (poolAt n + 64 * i)).take 64 }

/-- Instruction j. -/
def Img.insn (m : Img) (j : Nat) : GInsn := m.code.getD j {}
/-- The OPX in front of instruction j (R73). -/
def Img.opx (m : Img) (j : Nat) : Option GInsn := if j ≠ 0 ∧ (m.insn (j - 1)).op = 1 then some (m.insn (j - 1)) else none
/-- The operand words A to F of instruction j (R72, R73). -/
def Img.opdWords (m : Img) (j : Nat) : List Nat :=
  let g := m.insn j
  [g.wa, g.wb, g.wc] ++
    (match m.opx j with
      | some x => [x.wa, x.wb, x.wc]
      | none => [0, 0, 0])

/-- Do bytes 8–31 hold no operand specifiers: MARKER, BR, LOOP, SLI and the OPX itself (R72, R73, R81)? -/
def noSpecs (op : Nat) : Bool := has [1, 2, 4, 5, 6] op

/-- The operand that a specifier word names (R74); kinds that are not listed read as none. -/
def opdOf (w : Nat) : Opd :=
  let f := (Fmt.ofCode (bits w 51 48)).getD .f4
  let g := (Grain.ofCode (bits w 54 52)).getD .none
  let z := bits w 58 55
  let k := Cls.ofCode (bits w 60 59)
  match w % 8 with
  | 1 => .direct (16 * bits w 27 3) (16 * bits w 47 28) f g z k
  | 2 => .pool (bits w 23 3)
  | 3 => .mem (bits w 8 3)
  | 4 => .indirect (bits w 8 3) (16 * bits w 47 28) f g z k
  | 5 => .chair (bits w 7 3) (bitOf w 8) f g z k
  | _ => .none

/-- Operand k (0 for A to 5 for F) of instruction j. -/
def Img.opd (m : Img) (j k : Nat) : Opd := if noSpecs (m.insn j).op && decide (k < 3) then .none else opdOf (nth 0 (m.opdWords j) k)

/-- Has a specifier word a non-zero reserved bit (R74)? -/
def opdReserved (w : Nat) : Bool :=
  match w % 8 with
  | 0 => w / 8 != 0
  | 1 => bits w 63 61 != 0
  | 2 => bits w 63 24 != 0
  | 3 => bits w 63 9 != 0
  | 4 => bits w 27 9 != 0 || bits w 63 61 != 0
  | 5 => bits w 47 9 != 0 || bits w 63 61 != 0
  | _ => false

/-- Are a specifier word's kind, FMT, GRAIN, ZP and register valid (R74, R75)? -/
def opdValid (w : Nat) : Bool :=
  let fields := match Fmt.ofCode (bits w 51 48), Grain.ofCode (bits w 54 52) with
    | some f, some g => grainFits f g && zpFits f (bits w 58 55)
    | _, _ => false
  match w % 8 with
  | 0 | 2 => true
  | 3 => bits w 8 3 != 63
  | 1 | 4 | 5 => fields
  | _ => false

-- Fields of word 1

/-- The opcodes of products. -/
def isProd (op : Nat) : Bool := has [0x10, 0x11, 0x12] op
/-- RED, where it is static (R80). -/
def GInsn.red (g : GInsn) : Option Nat := if bitOf g.w1 17 then none else some (bits g.w1 16 0)
/-- FUNC of a product. -/
def GInsn.func (g : GInsn) : Nat := bits g.w1 20 18
/-- G_s of a product; 0 for the code that is an error. -/
def GInsn.gs (g : GInsn) : Nat := nth 0 [32, 64, 128, 0] (bits g.w1 22 21)
/-- DERIV. -/
def GInsn.deriv (g : GInsn) : Bool := bitOf g.w1 23
/-- SECOND. -/
def GInsn.second (g : GInsn) : Bool := bitOf g.w1 24
/-- The function of a ROWOP (R130). -/
def rowFnOf : Nat → Option RowFn
  | 0 => some .lnFwd | 1 => some .lnBwd | 2 => some .rmsFwd | 3 => some .rmsBwd | 4 => some .smaxFwd | 5 => some .smaxBwd
  | 6 => some .lsmaxFwd | 7 => some .lsmaxBwd | 8 => some .chunk | 9 => some .finish | 10 => some .reset | _ => none

/-- Is an opcode listed (R80)? -/
def opListed (op : Nat) : Bool :=
  decide (op ≤ 0x0A) ||
    has [0x10, 0x11, 0x12, 0x18, 0x20, 0x21, 0x22, 0x28, 0x30, 0x38, 0x39, 0x3C, 0x40] op

/-- Bits of word 1 that an opcode gives no meaning, and codes within it that are errors (R80 to R84, R86, R111, R126, R130,
R152, R165, R170, R295). -/
def word1Bad (op w : Nat) : Bool :=
  match op with
  | 0x00 | 0x03 | 0x20 | 0x21 | 0x22 => w != 0
  | 0x04 => bits w 2 0 == 7 || bits w 31 15 != 0
  | 0x05 | 0x08 | 0x09 => bits w 31 6 != 0
  | 0x07 => decide (bits w 3 0 > 12) || bits w 31 22 != 0
  | 0x0A => decide (bits w 7 5 > 1) || bits w 15 8 != 0
  | 0x10 | 0x11 | 0x12 => bits w 22 21 == 3 || bits w 31 25 != 0
  | 0x18 => bits w 2 0 == 7
  | 0x28 => bits w 31 28 != 0
  | 0x30 => decide (bits w 3 0 > 10)
  | 0x38 | 0x39 => bits w 31 9 != 0
  | 0x3C => decide (bits w 3 0 > 6) || bits w 31 22 != 0
  | 0x40 => decide (bits w 3 0 > 10) || bits w 31 15 != 0
  | _ => false

/-- Bits of an OPX's word 1 that its owner gives no meaning (R80, R130). -/
def opxWord1Bad (op w : Nat) : Bool :=
  if isProd op then bits w 31 16 != 0 else if op = 0x30 then bits w 31 22 != 0 else false

/-- The operand kinds that an instruction takes in positions A to F (R80, R81, R110, R111, R120, R130, R153, R165, R170,
R295); a position not listed takes none. E of LN_BWD and RMS_BWD may be absent, which R130 says of FINISH's D only: DESIGN CHOICE
(log 82). -/
def positions (op w1 : Nat) : List (List Nat) :=
  let src := [1, 2, 3, 4, 5]
  let dst := [1, 2, 3, 4]
  match op with
  | 0x08 | 0x09 => [[1, 4]]
  | 0x10 => [src, src, dst, if bitOf w1 24 then dst else 0 :: dst, 0 :: dst, if bits w1 20 18 = 7 then [1, 4] else [0, 1, 4]]
  | 0x11 => [src, src, dst, if bitOf w1 23 then src else 0 :: src, 0 :: dst,
      if bits w1 20 18 = 7 then [1, 4] else [0, 1, 4]]
  | 0x12 => [src, src, dst, [0], 0 :: dst, [0, 1, 4]]
  | 0x18 => [src]
  | 0x20 => [src, dst]
  | 0x21 => [src, [5]]
  | 0x22 => [[5]]
  | 0x28 => [src, 0 :: src, dst, 0 :: dst, 0 :: src, [1, 4]]
  | 0x30 =>
    match rowFnOf (bits w1 3 0) with
    | some .lnFwd | some .rmsFwd => [src, 0 :: src, dst]
    | some .lnBwd | some .rmsBwd => [src, src, dst, 0 :: src, 0 :: dst]
    | some .smaxFwd | some .lsmaxFwd => [src, [0], dst]
    | some .smaxBwd | some .lsmaxBwd => [src, src, dst]
    | some .chunk => [src, [0], dst, dst]
    | some .finish => [[0], [0], dst, 0 :: dst]
    | _ => []
  | 0x38 => [[1, 4, 5], dst, [1, 4]]
  | 0x39 => [src, [0], [1, 4]]
  | 0x3C => if bits w1 3 0 ≤ 3 then [dst, src] else if bits w1 3 0 ≤ 5 then [[0], 0 :: dst] else []
  | 0x40 =>
    match bits w1 3 0 with
    | 7 => [dst]
    | 8 => [[0], dst]
    | 9 | 10 => []
    | _ => [dst, if bitOf w1 14 then 0 :: dst else dst]
  | _ => []

/-- The positions whose operand a descriptor must name (R78): outside scratchpad, a product's output, REDUCE_TO_SCALAR's
input, and what a unit's chapter says is a descriptor. -/
def descPositions (op w1 : Nat) : List Nat :=
  match op with
  | 0x10 => if bitOf w1 24 then [2, 3] else [2]
  | 0x11 | 0x12 => [2]
  | 0x18 => [0]
  | 0x30 => if bits w1 3 0 = 8 then [0] else []
  | 0x38 => [1]
  | 0x39 => [0]
  | 0x3C => if bits w1 3 0 ≤ 3 then [0] else []
  | 0x40 => [0, 1]
  | _ => []

/-- The positions whose output may be rounded stochastically: it is where its class is gradient (R78, R124, R132). -/
def roundPositions (op : Nat) : List Nat := if op = 0x28 then [2, 3] else if op = 0x30 then [2, 3, 4] else []

-- Views named without computed operands

/-- A descriptor of the pool. -/
def Img.poolView (m : Img) (i : Nat) : View := descView (m.pool.getD i [])

/-- The view of an operand that is not computed; a raw one takes the counts given (R78). -/
def Img.view (m : Img) (o : Opd) (n : Option (Nat × Nat)) : Option View :=
  match o with
  | .direct a sd f g z k =>
    n.map fun n => ({ place := .spd, addr := a, fmt := f, grain := g, zp := z, cls := k, rows := n.1, cols := n.2,
                      stride := sd } : View).placed 0
  | .pool i => some (m.poolView i)
  | _ => none
/-- The counts of an operand that a pool descriptor names. -/
def Img.counts (m : Img) (o : Opd) : Option (Nat × Nat) :=
  match o with
  | .pool i => some ((m.poolView i).rows, (m.poolView i).cols)
  | _ => none

/-- An operand as an instruction uses it: position, operand, its static view, and whether it is written. -/
structure Use where
  pos : Nat
  opd : Opd
  view : Option View
  out : Bool
deriving DecidableEq, Repr

/-- A raw byte range as a view. -/
def rangeView (v : View) (n : Nat) : View :=
  { v with rows := 1, cols := cdiv n 2, fmt := .n16, grain := .none, stride := alignUp n 16, scaleOff := 0 }

/-- M, N and K of a product, where they are static (R51, R78). -/
def Img.mnk (m : Img) (j : Nat) : Option (Nat × Nat × Nat) :=
  let g := m.insn j
  match m.counts (m.opd j 2), g.red with
  | some n, some k => some (if g.op = 0x12 then (n.2, n.1, k) else (n.1, n.2, k))
  | _, _ => none

/-- The operands of a ROWOP as the machine's own record of them. -/
def Img.rowOps (m : Img) (j : Nat) : RowOps :=
  ⟨bits (m.insn j).w1 15 4, bits (m.insn j).w1 31 16, 0, 0, m.opd j 0, m.opd j 1, m.opd j 2, m.opd j 3, m.opd j 4⟩

/-- The uses of an instruction's operands. -/
def Img.uses (m : Img) (j : Nat) : List Use :=
  let g := m.insn j
  let o := m.opd j
  let use := fun (k : Nat) (n : Option (Nat × Nat)) (out : Bool) => (⟨k, o k, m.view (o k) n, out⟩ : Use)
  let raw := fun (k n : Nat) (out : Bool) => (⟨k, o k, (m.view (o k) (some (1, 1))).map (rangeView · n), out⟩ : Use)
  let l : List Use := match g.op with
    | 0x08 => [raw 0 4 false]
    | 0x09 => [raw 0 4 true]
    | 0x10 | 0x11 | 0x12 =>
      let n := m.mnk j
      let sh := n.map fun n => prodShapes g.op n.1 n.2.1 n.2.2
      let c := m.counts (o 2)
      let tree := match n with
        | some n => if n.2.2 > 4096 then [raw 4 (2 * (cdiv n.2.2 4096 * n.1 * n.2.1)) true] else []
        | none => []
      [use 0 (sh.map (·.1)) false, use 1 (sh.map (·.2)) false, use 2 none true] ++
        (if g.op = 0x10 ∧ g.second then [use 3 c true] else if g.op = 0x11 ∧ g.deriv then [use 3 c false] else []) ++
        tree ++ (if g.func = 7 then [raw 5 512 false] else [])
    | 0x18 => [use 0 none false]
    | 0x20 => [use 0 (m.counts (o 1)) false, use 1 (m.counts (o 0)) true]
    | 0x21 => [use 0 none false]
    | 0x28 =>
      let n := match m.counts (o 2) with
        | some n => some n
        | none =>
          if (o 2).computed then none
          else
            let l := [o 0, o 1, o 3, o 4].filterMap m.counts
            if ([o 0, o 1, o 3, o 4].any Opd.computed) then none
            else some (l.foldl (fun a b => (max a.1 b.1, max a.2 b.2)) (0, 0))
      [use 0 n false, use 1 n false, use 4 n false, use 2 n true, use 3 n true, raw 5 256 false]
    | 0x30 =>
      match rowFnOf (bits g.w1 3 0) with
      | none => []
      | some f =>
        let r := f.role (m.rowOps j)
        let n := match (r.rowsIn ++ r.rowsOut ++ r.colsOut).find? Opd.desc with
          | some p => m.counts p
          | none => some (0, 0)
        let two := n.map fun n => (2, n.2)
        let one := n.map fun n => (n.1, 1)
        let mk := fun (n : Option (Nat × Nat)) (out : Bool) (p : Opd) =>
          (⟨((if out then [2, 3, 4] else [0, 1, 3]).find? fun k => o k == p).getD 0, p, m.view p n, out⟩ : Use)
        r.rowsIn.map (mk n false) ++ [mk two false r.gamma] ++ r.rowsOut.map (mk n true) ++ [mk two true r.gammaOut] ++
          r.colsOut.map (mk one true)
    | 0x38 => [raw 2 (16 * bits g.w1 8 0) false, ⟨1, o 1, (m.view (o 1) none).map fun v => rangeView v (v.rows * v.stride), true⟩]
    | 0x39 => [raw 2 (16 * bits g.w1 8 0) false, ⟨0, o 0, (m.view (o 0) none).map fun v => rangeView v (v.rows * v.stride), false⟩]
    | 0x3C =>
      if bits g.w1 3 0 ≤ 3 then [use 0 none true, use 1 (m.counts (o 0)) false]
      else if bits g.w1 3 0 ≤ 5 then [raw 1 4 true] else []
    | 0x40 =>
      if bits g.w1 3 0 = 8 then [use 1 none true]
      else if (o 1).absent then [use 0 none (bitOf g.w1 14)]
      else [use 0 none false, use 1 none true]
    | _ => []
  l.filter fun u => !u.opd.absent

/-- The scratchpad byte ranges that an instruction names without computed operands, read or written (R91). -/
def Img.ranges (m : Img) (j : Nat) (out : Bool) : List (Nat × Nat) :=
  (m.uses j).flatMap fun u =>
    if u.out == out then
      match u.view with
      | some v => if v.place = .spd then v.ranges else []
      | none => []
    else []

-- Scalar registers

/-- The scalar registers that an operand reads. -/
def opdRegs : Opd → List Nat
  | .indirect r .. => [r]
  | .mem r => [r, r + 1]
  | _ => []
/-- The scalar registers that an instruction reads (R81 to R84, R80, R126, R130, R152, R295). -/
def Img.regsRead (m : Img) (j : Nat) : List Nat :=
  let g := m.insn j
  let w := g.w1
  let own : List Nat := match g.op with
    | 0x04 => [bits w 8 3, bits w 14 9]
    | 0x05 | 0x09 => [bits w 5 0]
    | 0x07 => [bits w 15 10, bits w 21 16]
    | 0x10 | 0x11 | 0x12 => if bitOf w 17 then [bits w 5 0] else []
    | 0x28 => [bits w 11 6, bits w 17 12, bits w 23 18]
    | 0x30 =>
      if bits w 3 0 = 8 then (match m.opx j with | some x => [bits x.w1 21 16] | none => []) else []
    | 0x3C =>
      match bits w 3 0 with
      | 0 | 1 => [bits w 9 4]
      | 4 => [bits w 9 4, bits w 9 4 + 1, bits w 15 10, bits w 21 16]
      | 5 => [bits w 9 4, bits w 9 4 + 1]
      | _ => []
    | 0x40 =>
      match bits w 3 0 with
      | 4 => [bits w 13 8]
      | 7 | 8 => [bits w 13 8, bits w 13 8 + 1, bits w 13 8 + 2]
      | _ => []
    | _ => []
  own ++ (List.range 6).flatMap fun k => opdRegs (m.opd j k)
/-- The scalar register that an instruction writes; S0 discards it (R81). -/
def Img.regWritten (m : Img) (j : Nat) : Option Nat :=
  let g := m.insn j
  let d := match g.op with
    | 0x06 => bits g.wa 5 0
    | 0x07 => bits g.w1 9 4
    | 0x08 => bits g.w1 5 0
    | 0x18 => bits g.w1 8 3
    | _ => 0
  if d = 0 then none else some d

end Sys2Proof.Machine
end

