-- ==== Sys2Proof/Machine/Paths.lean ====
section
/-! DEFINITION. The gate's checks over the control-flow graph of an image: static dependencies whose times the spec states, and
waits on instructions without a static completion time (R81, R83, R88, R91, R126). -/

namespace Sys2Proof.Machine

/-- The last instruction of a LOOP's body: its end target, or where that is an OPX its owner (R73, R84). -/
def Img.loopEnd (m : Img) (j : Nat) : Nat :=
  let e := (m.insn j).word
  if (m.insn e).op = 1 then e + 1 else e
/-- The instructions that may follow instruction j: branch targets, a LOOP's body and exit, and the way back from a LOOP's end
target (R82, R84, R89). -/
def Img.succs (m : Img) (j : Nat) : List Nat :=
  let g := m.insn j
  let own : List Nat := match g.op with
    | 0x03 => []
    | 0x04 => if bits g.w1 2 0 = 0 then [g.word] else [j + 1, g.word]
    | 0x05 => [j + 1, m.loopEnd j + 1]
    | _ => [j + 1]
  let back := (List.range m.code.length).filter fun l => (m.insn l).op == 5 && m.loopEnd l == j
  (own ++ back.map (· + 1)).filter fun k => decide (k < m.code.length)

/-- The smaller of two distances; none is no path. -/
def minDist : Option Nat → Option Nat → Option Nat
  | some a, some b => some (min a b)
  | some a, none => some a
  | none, b => b

/-- One round of the shortest-path search: distances from instruction p, counted in OFFSETs, over instructions not cut. -/
def Img.relax (m : Img) (p : Nat) (cut : Nat → Bool) (cur : List (Option Nat)) : List (Option Nat) :=
  (List.range m.code.length).map fun k =>
    if cut k then none
    else
      let from_ := fun (j : Nat) (d : Nat) => if has (m.succs j) k then some (d + (m.insn k).offset) else none
      (List.range m.code.length).foldl (fun b j => minDist b ((cur.getD j none).bind (from_ j))) (from_ p 0)

/-- The shortest path from p to each instruction, in array cycles, where a path enters no cut instruction (R91). -/
def Img.paths (m : Img) (p : Nat) (cut : Nat → Bool) : List (Option Nat) :=
  (List.range m.code.length).foldl (fun cur _ => m.relax p cut cur) (List.replicate m.code.length none)

/-- Is a semaphore posted by no instruction of the image but p (R91)? -/
def Img.solePost (m : Img) (p k : Nat) : Bool :=
  (m.insn p).post == some k && (List.range m.code.length).all fun j =>
    let g := m.insn j
    j == p || (g.post != some k && !(g.op == 0x0A && bits g.w1 4 0 == k) &&
      !(g.op == 0x3C && bits g.w1 3 0 == 6 && bits g.w1 8 4 == k))

/-- Do ranges of two lists overlap? -/
def rangesOverlap (a b : List (Nat × Nat)) : Bool :=
  a.any fun x => b.any fun y => decide (x.1 < y.1 + y.2 ∧ y.1 < x.1 + x.2 ∧ x.2 ≠ 0 ∧ y.2 ≠ 0)

/-- What an operand's specifier or pool descriptor says of its place, format, grain and class. -/
structure Form where
  place : Place
  fmt : Fmt
  grain : Grain
  cls : Cls
deriving DecidableEq, Repr

/-- The form of an operand; none where a memory descriptor names it or it is absent. -/
def Img.form (m : Img) (o : Opd) : Option Form :=
  match o with
  | .direct _ _ f g _ k | .indirect _ _ f g _ k | .chair _ _ f g _ k => some ⟨.spd, f, g, k⟩
  | .pool i => let v := m.poolView i; some ⟨v.place, v.fmt, v.grain, v.cls⟩
  | _ => none
/-- Does a descriptor in memory name one of the operands A to E of instruction j? Its counts and format are not static. -/
def Img.memOpd (m : Img) (j : Nat) : Bool :=
  (List.range 5).any fun k => match m.opd j k with
    | .mem _ => true
    | _ => false

-- The times of a VOP (R126)

/-- The counts of a VOP's primary output: C's own, or for a raw C the largest that a descriptor gives (R78, R120). -/
def Img.vopCounts (m : Img) (j : Nat) : Nat × Nat :=
  match m.counts (m.opd j 2) with
  | some n => n
  | none => ([0, 1, 3, 4].filterMap fun k => m.counts (m.opd j k)).foldl (fun a b => (max a.1 b.1, max a.2 b.2)) (0, 0)
/-- Load or store cycles of one tile position for an operand. An input with one row, or column, is a broadcast where C has more; a raw
operand has C's counts and is none: DESIGN CHOICE (log 81). -/
def Img.vopIo (m : Img) (j k : Nat) : Nat :=
  let o := m.opd j k
  let c := m.vopCounts j
  let broadcast := has [0, 1, 4] k && (m.counts o).any fun n => decide ((n.1 = 1 ∧ c.1 ≠ 1) ∨ (n.2 = 1 ∧ c.2 ≠ 1))
  match m.form o with
  | some f => if !broadcast && (f.fmt == .b16 || f.fmt == .n16) then 2 else 1
  | none => 0
/-- T × t of a VOP, where no descriptor in memory names an operand. -/
def Img.vopCycles (m : Img) (j : Nat) : Option Nat :=
  let c := m.vopCounts j
  if m.memOpd j then none
  else some (cdiv c.1 16 * cdiv c.2 16 * max (bits (m.insn j).w1 5 0) ((List.range 5).map (m.vopIo j)).sum)

-- The times of a product (R66, R104)

/-- The largest, over the arrays of a lease of `arrays`, of the sum of `f` over the units from 0 to `n` that go to it (R50). -/
def busiest (arrays n : Nat) (f : Nat → Nat) : Nat :=
  (List.range arrays).foldl (fun b a => max b (((List.range n).filter fun u => u % arrays == a).map f).sum) 0
/-- The array cycles that the beats of a unit occupy: the last its streamed rows, every other at least 544 (R66). -/
def Product.unitTime (p : Product) (u : Nat) : Nat :=
  let m := (p.rowsOf (p.tileOf u)).2
  (p.unitBeats u - 1) * max m 544 + m
/-- The tree pass of an output tile (R66). -/
def Product.treeTime (p : Product) (t : Nat) : Nat := cdiv (p.segs * (p.rowsOf t).2) 2 + 40
/-- w and T: the busiest array's beats, and its longest run of tree passes where K > 4,096 (R52, R66). -/
def Product.loads (p : Product) (arrays : Nat) : Nat × Nat :=
  (busiest arrays p.units p.unitTime,
    if p.segs > 1 then busiest arrays p.units fun u => if u % p.segs = 0 then p.treeTime (p.tileOf u) else 0 else 0)
/-- Drain latency D of a product (R66). -/
def Img.drainTime (m : Img) (j : Nat) : Nat :=
  let g := m.insn j
  let place := ((m.form (m.opd j 2)).map (·.place)).getD .spd
  let square := fun (k : Nat) => (m.form (m.opd j k)).any fun f => f.grain == .square
  (if g.func = 0 ∨ place = .rb then 20 else if g.func ≤ 2 then 24 else 36) + (if g.deriv then 12 else 0) +
    (if square 2 ∨ (g.op = prodN ∧ g.second) then 8 else 0)
/-- The units, tasks and beats of a product whose size is static and whose operands all lie in scratchpad. -/
def Img.staticProduct (m : Img) (j : Nat) : Option Product :=
  let g := m.insn j
  let present := (List.range 6).filter fun k => !(m.opd j k).absent
  let near := present.all fun k => (m.form (m.opd j k)).any fun f => k == 2 || f.place == .spd
  let view := fun (k : Nat) => (m.form (m.opd j k)).map fun f => ({ fmt := f.fmt, grain := f.grain, place := f.place } : View)
  match m.mnk j, view 0, view 1, view 2 with
  | some n, some a, some b, some c =>
    if near && c.place != .virt then
      some { kind := g.op, a := a, b := b, c := c, d := none, tree := none, z := none, m := n.1, n := n.2.1, k := n.2.2, gs := g.gs,
             func := g.func, deriv := g.deriv, alpha := 0, table := [], beats := [], acc := [], trees := [], ended := false }
    else none
  | _, _, _, _ => none
/-- When a product's last stationary or streamed row has been read, and when its last row is written, after its issue on a lease of
`arrays`; every first-line fetch from scratchpad takes 64 (R66, R104). An empty product reads and writes nothing. -/
def Img.productTimes (m : Img) (arrays j : Nat) : Option (Nat × Nat) :=
  (m.staticProduct j).map fun p =>
    if p.m = 0 ∨ p.n = 0 ∨ p.k = 0 then (0, 0)
    else
      let w := p.loads arrays
      (64 + 256 + w.1, 64 + 256 + w.1 + 544 + m.drainTime j + 4 + w.2)

/-- When an instruction's last output is readable, after its issue, where the spec states it for the image and the lease alone (R66,
R81, R83, R126). -/
def Img.readyAfter (m : Img) (arrays j : Nat) : Option Nat :=
  match (m.insn j).op with
  | 0x06 | 0x07 => some 1
  | 0x08 => some 32
  | 0x09 => some 9
  | 0x10 | 0x11 | 0x12 => (m.productTimes arrays j).map (·.2)
  | 0x18 => (m.counts (m.opd j 0)).map fun n => cdiv (n.1 * n.2) 256 + 40
  | 0x28 => (m.vopCycles j).map fun n => 64 + n + 40
  | _ => none
/-- When an instruction has read the last of its operands, after its issue: SLD its line, REDUCE_TO_SCALAR its elements at 256 a cycle,
a VOP its last tile position, a product its last stationary and streamed rows; Z is read at the drain, before the row is written (R66,
R81, R126). DEDUCED (log 73). -/
def Img.readAfter (m : Img) (arrays j : Nat) : Option Nat :=
  match (m.insn j).op with
  | 0x08 => some 8
  | 0x18 => (m.counts (m.opd j 0)).map fun n => cdiv (n.1 * n.2) 256
  | 0x10 | 0x11 | 0x12 => (m.productTimes arrays j).map fun t => if (m.insn j).deriv then t.2 - 4 else t.1
  | 0x28 => (m.vopCycles j).map (64 + ·)
  | _ => none

/-- How long after p instruction q must issue, for the static dependencies with stated times: a register or range that p writes
and q reads or writes, a range that p reads and q writes, and the engine of a VOP (R91, R126). -/
def Img.needs (m : Img) (arrays p q : Nat) : Nat :=
  let g := m.insn p
  let h := m.insn q
  let reg := match m.regWritten p with
    | some d => has (m.regsRead q) d || m.regWritten q == some d
    | none => false
  let mem := rangesOverlap (m.ranges p true) (m.ranges q false ++ m.ranges q true)
  let ready := if reg || mem then (m.readyAfter arrays p).getD 0 else 0
  let last := if rangesOverlap (m.ranges p false) (m.ranges q true) then (m.readAfter arrays p).getD 0 else 0
  let engine := if g.op = 0x28 ∧ h.op = 0x28 ∧ bits g.w1 27 24 = bits h.w1 27 24 then (m.vopCycles p).elim 0 (64 + ·) else 0
  max ready (max last engine)

/-- Does an issue offset break a static dependency of q (R91)? -/
def Img.lateFor (m : Img) (arrays q : Nat) : Bool :=
  (List.range m.code.length).any fun p =>
    let n := m.needs arrays p q
    n != 0 && (match (m.paths p fun k => (m.insn k).wait.any (m.solePost p)).getD q none with
      | some d => decide (d < n)
      | none => false)

/-- Unit classes (R80); 0 for scalar instructions. -/
def unitOf (op : Nat) : Nat :=
  match op with
  | 0x10 | 0x11 | 0x12 => 1
  | 0x20 | 0x21 => 2
  | 0x18 | 0x28 => 3
  | 0x30 => 4
  | 0x38 | 0x39 => 5
  | 0x3C => 6
  | 0x40 => 7
  | 0x08 | 0x09 | 0x22 => 8
  | _ => 0

/-- Has an instruction no static completion time: a unit's that gives none, a product whose reduction length is computed, one with a
descriptor in memory or a memory-tier operand (R66, R80, R88, R111, R116, R135, R152, R166, R295)? -/
def Img.nonStatic (m : Img) (j : Nat) : Bool :=
  has [0x20, 0x21, 0x30, 0x38, 0x39, 0x3C, 0x40] (m.insn j).op || (isProd (m.insn j).op && (m.insn j).red.isNone) ||
    (m.uses j).any fun u =>
      match u.opd with
      | .mem _ => true
      | _ => u.view.any fun v => v.place == .virt

/-- The instructions that p reaches without a wait on the semaphore it posts (R88). -/
def Img.unwaited (m : Img) (p q : Nat) : Bool :=
  match (m.insn p).post with
  | some k => ((m.paths p fun j => (m.insn j).wait == some k).getD q none).isSome
  | none => ((m.paths p fun _ => false).getD q none).isSome

/-- Does a later instruction of a unit class issue without a wait on an earlier one that has no static completion time (R88)? -/
def Img.queueBad (m : Img) (q : Nat) : Bool :=
  (List.range m.code.length).any fun p =>
    m.nonStatic p && unitOf (m.insn p).op == unitOf (m.insn q).op && m.unwaited p q

-- The bound of 8 (R88)

/-- A path back from an instruction: where it begins, the semaphores waited on along it, how many instructions of the class on it are
still in flight at its end, and its length in OFFSETs. -/
structure Back where
  node : Nat
  waits : List Nat
  live : Nat
  dist : Nat
deriving DecidableEq, Repr

/-- Is a path no better for a search than another: no more in flight, no shorter, no fewer waits? -/
def Back.under (x y : Back) : Bool :=
  x.node == y.node && decide (x.live ≤ y.live ∧ y.dist ≤ x.dist) && y.waits.all (has x.waits)
/-- Adds a path to a search unless another one covers it. -/
def addBack (l : List Back) (x : Back) : List Back := if l.any x.under then l else x :: l.filter fun y => !y.under x

/-- Is instruction p still queued or in flight `d` array cycles after its issue, behind waits on `waits`? One without a stated time is
in flight until its semaphore is waited on, which `queueBad` asks for. -/
def Img.liveAt (m : Img) (arrays p d : Nat) (waits : List Nat) : Bool :=
  (m.readyAfter arrays p).any (fun n => decide (d < n)) && !(waits.any (m.solePost p))
/-- The paths one instruction further back. -/
def Img.stepBack (m : Img) (arrays q far : Nat) (x : Back) : List Back :=
  let g := m.insn x.node
  let ws := match g.wait with
    | some k => addOnce x.waits k
    | none => x.waits
  let d := x.dist + g.offset
  if d ≥ far then []
  else
    ((List.range m.code.length).filter fun j => has (m.succs j) x.node).map fun j =>
      ⟨j, ws, x.live + b2n (unitOf (m.insn j).op == unitOf (m.insn q).op && m.liveAt arrays j d ws), d⟩
/-- The best paths back from q, found in `fuel` rounds. -/
def Img.backs (m : Img) (arrays q far : Nat) : Nat → List Back → List Back
  | 0, l => l
  | fuel + 1, l =>
    let n := (l.flatMap (m.stepBack arrays q far)).foldl addBack l
    if n = l then l else m.backs arrays q far fuel n
/-- Can 8 earlier instructions of its unit class be queued or in flight when q issues, by the latency tables (R88)? -/
def Img.fullBad (m : Img) (arrays q : Nat) : Bool :=
  unitOf (m.insn q).op != 0 &&
    let mates := (List.range m.code.length).filter fun j => unitOf (m.insn j).op == unitOf (m.insn q).op
    let far := mates.foldl (fun b j => max b ((m.readyAfter arrays j).getD 0)) 0
    (m.backs arrays q far (16 * m.code.length + 16) [⟨q, [], 0, 0⟩]).any fun x => decide (8 ≤ x.live)

/-- The ranges of memory that an instruction names without computed operands, read or written. -/
def Img.memRanges (m : Img) (j : Nat) (out : Bool) : List (Nat × Nat) :=
  (m.uses j).flatMap fun u => if u.out == out then (u.view.map View.vranges).getD [] else []

/-- Does an instruction without a static completion time post nothing, or a consumer of its output, in scratchpad or in memory, not
wait for it (R66, R88)? -/
def Img.consumerBad (m : Img) (q : Nat) : Bool :=
  (m.nonStatic q && (m.insn q).post.isNone) ||
    (List.range m.code.length).any fun p =>
      m.nonStatic p && m.unwaited p q &&
        (rangesOverlap (m.ranges p true) (m.ranges q false ++ m.ranges q true) ||
          rangesOverlap (m.memRanges p true) (m.memRanges q false ++ m.memRanges q true))

end Sys2Proof.Machine
end

