-- ==== Sys2Proof/Machine/Gate.lean ====
section
/-! DEFINITION. The gate: its checks in the order of R90's table, relocation and the outcome of a load (R31, R43, R48, R49, R56,
R60, R69 to R84, R90 to R93). -/

namespace Sys2Proof.Machine

/-- Does an operand's form, where it is static, satisfy a test? -/
def Img.formIs (m : Img) (j k : Nat) (p : Form → Bool) : Bool := (m.form (m.opd j k)).all p

-- The header (reasons 0x01 to 0x03 and 0x09)

/-- Reason 0x01: the header field that breaks R69 (R90). `kind` is that of the slot owner's context. -/
def Img.headerBad (m : Img) (kind : Option Nat) : Option Nat :=
  let entries := (List.range 8).find? fun k => decide (m.entryCount ≤ k) && m.entry k != 0
  if leAt m.hdr 0 4 ≠ 0x534B4D52 then some 0
  else if leAt m.hdr 4 2 ≠ 1 then some 4
  else if m.codeCount = 0 ∨ m.codeCount > 262142 ∨ m.codeCount ≠ m.code.length then some 8
  else if m.poolCount > 131071 ∨ m.poolCount ≠ m.pool.length then some 0xC
  else if m.windowMin = 0 ∨ m.windowMin > 384 then some 0x10
  else if kind ≠ some m.kind then some 0x14
  else if m.entryCount = 0 ∨ m.entryCount > 8 then some 0x15
  else entries.map fun k => 0x18 + 4 * k

/-- The first instruction that fails a check, as an image offset. -/
def Img.firstBad (m : Img) (p : Nat → Bool) : Option Nat := ((List.range m.code.length).find? p).map insnAt

/-- Reason 0x03: reserved bits of the header, codes not listed, encoding errors and reserved bits of an instruction. -/
def Img.encodingBad (m : Img) (j : Nat) : Bool :=
  let g := m.insn j
  let owner := (m.insn (j + 1)).op
  !opListed g.op ||
    (match g.op with
      | 0x01 => opxWord1Bad owner g.w1 || opdReserved g.wa || opdReserved g.wb || opdReserved g.wc
      | 0x02 => bits g.wa 63 1 != 0 || g.wb != 0 || g.wc != 0
      | 0x04 | 0x05 => word1Bad g.op g.w1 || bits g.wa 63 32 != 0 || g.wb != 0 || g.wc != 0
      | 0x06 => bits g.wa 63 6 != 0 || opdReserved g.wb || opdReserved g.wc
      | _ => word1Bad g.op g.w1 || opdReserved g.wa || opdReserved g.wb || opdReserved g.wc)

/-- Products: formats and places (R48, R54, R60, R61). -/
def Img.prodForms (m : Img) (j : Nat) : Bool :=
  let g := m.insn j
  let four := fun (f : Fmt) => has [0, 1, 2, 3, 4] f.code
  m.formIs j 0 (fun f => decide (f.fmt.code ≤ 6) && f.place == .spd) &&
    m.formIs j 1 (fun f => decide (f.fmt.code ≤ 6) && f.place != .rb) &&
    m.formIs j 2 (fun f => (four f.fmt || f.fmt == .n16) && f.place != .virt) &&
    (!(g.op == 0x10 && g.second) ||
      m.formIs j 3 fun f => f.place == .spd && f.grain == .square && f.cls == .act && four f.fmt) &&
    (!(g.op == 0x11 && g.deriv) || m.formIs j 3 fun f => f.place == .spd) &&
    m.formIs j 4 (fun f => f.place == .spd) && m.formIs j 5 fun f => f.place == .spd

/-- The address of a direct operand, for an alignment that its position asks for (R80, R120). -/
def directAddr : Opd → Nat
  | .direct a .. => a
  | _ => 0

/-- Reason 0x04: operand kinds, formats, grains, zero points, classes and register indices. -/
def Img.operandBad (m : Img) (j : Nat) : Bool :=
  let g := m.insn j
  let ws := m.opdWords j
  let ps := positions g.op g.w1
  let slot := fun k =>
    let w := nth 0 ws k
    if noSpecs g.op ∧ (k = 0 ∨ g.op ≠ 6) ∧ k < 3 then true
    else
      opdValid w && has (ps.getD k [0]) (w % 8) &&
        (w % 8 != 5 || (bitOf w 8 == (g.op == 0x21 && k == 1)))
  let pair := if g.op = 0x3C ∧ (bits g.w1 3 0 = 4 ∨ bits g.w1 3 0 = 5) then bits g.w1 9 4 + 1
    else if g.op = 0x40 ∧ (bits g.w1 3 0 = 7 ∨ bits g.w1 3 0 = 8) then bits g.w1 13 8 + 2 else 0
  g.op != 1 &&
    (!((List.range 6).all slot) || decide (pair > 63) ||
      (isProd g.op && (!m.prodForms j || directAddr (m.opd j 5) % 512 != 0)) ||
      (g.op == 0x28 && directAddr (m.opd j 5) % 64 != 0) ||
      (has [0x18, 0x28, 0x30] g.op && !((List.range 6).all fun k => m.formIs j k fun f => f.place == .spd)) ||
      (g.op == 0x3C && decide (bits g.w1 3 0 ≤ 3) &&
        !(m.formIs j 0 fun f => f.place == .virt && f.fmt == (if bits g.w1 3 0 = 1 then .b16 else .n16))))

/-- Does a BR name instruction j as its target? -/
def Img.branchTarget (m : Img) (j : Nat) : Bool := m.code.any fun g => g.op == 0x04 && g.word == j

/-- Reason 0x05: placement of OPX (R73, R120). -/
def Img.opxBad (m : Img) (j : Nat) : Bool :=
  let g := m.insn j
  if g.op = 1 then
    g.offset != 0 || g.wait.isSome || g.post.isSome || decide (m.code.length ≤ j + 1) || (m.insn (j + 1)).op == 1 ||
      m.branchTarget (j + 1)
  else g.op == 0x28 && (m.opx j).isNone

/-- Reason 0x06: static scratchpad extents within WINDOW_MIN. -/
def Img.windowBad (m : Img) (j : Nat) : Bool :=
  (m.uses j).any fun u => u.view.any fun v => v.place == .spd && v.size != 0 && decide (v.extent > 2 ^ 20 * m.windowMin)

/-- Do the counts of two operands, both static, differ? -/
def Img.countsDiffer (m : Img) (a b : Opd) : Bool :=
  match m.counts a, m.counts b with
  | some x, some y => x != y
  | _, _ => false
/-- Are an operand's static counts smaller than a shape? -/
def Img.smaller (m : Img) (o : Opd) (n : Nat × Nat) : Bool :=
  (m.counts o).any fun c => decide (c.1 < n.1 ∨ c.2 < n.2)

/-- Limits of a product (R51): its counts, its operands and its tree area against the descriptors behind them. -/
def Img.prodLimits (m : Img) (j : Nat) : Bool :=
  let g := m.insn j
  let c := m.opd j 2
  let mn := (m.counts c).map fun n => if g.op = 0x12 then (n.2, n.1) else n
  g.red.any (fun k => decide (k > 65536)) || mn.any (fun n => decide (n.1 > 65536 ∨ n.2 > 16384)) ||
    (g.red.any (fun k => decide (k > 4096)) && (m.opd j 4).absent) ||
    (match m.mnk j with
      | some n =>
        let sh := prodShapes g.op n.1 n.2.1 n.2.2
        m.smaller (m.opd j 0) sh.1 || m.smaller (m.opd j 1) sh.2
      | none => false) ||
    (((g.op == 0x10 && g.second) || (g.op == 0x11 && g.deriv)) && m.countsDiffer c (m.opd j 3)) ||
    (match m.mnk j, m.opd j 4 with
      | some n, .pool i =>
        let v := m.poolView i
        decide (4096 < n.2.2 ∧ v.extent - v.addr < 2 * (cdiv n.2.2 4096 * n.1 * n.2.1))
      | _, _ => false)

/-- Shapes of a VOP (R120): inputs equal C's or are broadcast, D equals C's. -/
def Img.vopShapes (m : Img) (j : Nat) : Bool :=
  match (m.uses j).find? fun u => u.pos == 2 with
  | some ⟨_, _, some c, _⟩ =>
    (m.uses j).any fun u => u.pos != 5 && u.view.any fun v =>
      if u.out then decide (v.rows ≠ c.rows ∨ v.cols ≠ c.cols)
      else !((v.rows == 1 || v.rows == c.rows) && (v.cols == 1 || v.cols == c.cols))
  | _ => false

/-- Shapes of a ROWOP (R130). -/
def Img.rowShapes (m : Img) (j : Nat) : Bool :=
  match rowFnOf (bits (m.insn j).w1 3 0) with
  | none => false
  | some f =>
    let r := f.role (m.rowOps j)
    match (r.rowsIn ++ r.rowsOut ++ r.colsOut).filterMap m.counts with
    | [] => false
    | n :: _ =>
      let differs := fun (k : Nat × Nat) (o : Opd) => (m.counts o).any (· != k)
      (r.rowsIn ++ r.rowsOut).any (differs n) || [r.gamma, r.gammaOut].any (differs (2, n.2)) ||
        r.colsOut.any (differs (n.1, 1))

/-- Reason 0x07: static fields and extents within their limits; a VOP's engine is one of the `groups` that the slot owner's lease gives
(R119). -/
def Img.limitBad (m : Img) (groups j : Nat) : Bool :=
  let g := m.insn j
  match g.op with
  | 0x10 | 0x11 | 0x12 => m.prodLimits j
  | 0x20 =>
    match m.opd j 0, m.opd j 1 with
    | .pool a, .pool b =>
      let v := m.poolView a
      let w := m.poolView b
      decide (v.rows ≠ w.rows ∨ v.cols ≠ w.cols) || v.fmt != w.fmt || v.grain != w.grain || v.zp != w.zp
    | _, _ => false
  | 0x28 => bits g.w1 5 0 == 0 || decide (groups ≤ bits g.w1 27 24) || m.vopShapes j
  | 0x30 => m.rowShapes j
  | 0x38 | 0x39 => decide (bits g.w1 8 0 > 256)
  | 0x3C =>
    decide (bits g.w1 3 0 ≤ 3) &&
      ((m.counts (m.opd j 0)).any (fun n => decide (n.1 * n.2 > 1048576)) || m.countsDiffer (m.opd j 0) (m.opd j 1))
  | _ => false

/-- Do two views occupy exactly the same extent (R120)? -/
def sameExtent (a b : View) : Bool :=
  a.place == b.place && a.addr == b.addr && a.stride == b.stride && a.fmt == b.fmt && a.grain == b.grain &&
    a.rows == b.rows && a.cols == b.cols && a.scaleOff == b.scaleOff
/-- The ranges that a view takes up in its place: of bytes, or of elements of a reduction buffer (R76). -/
def View.spans (v : View) : List (Nat × Nat) :=
  if v.place = .rb then (List.range v.rows).map fun r => (v.rbElem r 0, v.cols) else v.ranges
/-- Do two views meet? -/
def viewsMeet (a b : View) : Bool := a.place == b.place && rangesOverlap a.spans b.spans

/-- In-place work that R120 and R130 permit. -/
def inPlace (op : Nat) (o i : Use) (a b : View) : Bool :=
  sameExtent a b && ((op == 0x28 && has [2, 3] o.pos && has [0, 1, 4] i.pos) || (op == 0x30 && o.pos == 2 && i.pos == 0))

/-- Reason 0x08: strides of written operands, and overlaps within an instruction. -/
def Img.overlapBad (m : Img) (j : Nat) : Bool :=
  let op := (m.insn j).op
  let us := m.uses j
  us.any fun o => o.out && o.view.any fun a =>
    (a.size != 0 && decide (a.stride < rowBytes a.fmt a.cols)) ||
      us.any fun i => (!i.out || i.pos != o.pos) && i.view.any fun b => viewsMeet a b && !(!i.out && inPlace op o i a b)

/-- Is instruction j one of the image that no OPX owns? -/
def Img.isTarget (m : Img) (j : Nat) : Bool := decide (j < m.code.length) && (m.opx j).isNone

/-- Reason 0x09, for an instruction: branch and loop targets and pool indices. -/
def Img.targetBad (m : Img) (j : Nat) : Bool :=
  let g := m.insn j
  ((g.op == 0x04 || g.op == 0x05) && !m.isTarget g.word) ||
    (List.range 6).any fun k =>
      match m.opd j k with
      | .pool i => decide (m.pool.length ≤ i)
      | _ => false

/-- Reason 0x0D: the product rules R31, R48, R49, R56 and R60, for what is static. -/
def Img.productBad (m : Img) (j : Nat) : Bool :=
  let g := m.insn j
  let pairs := fun (f : Form) => f.fmt == .t2 || f.fmt == .i2s
  let size := fun (f : Form) => !f.grain.linear || f.grain.size == g.gs
  isProd g.op &&
    (!(m.formIs j 0 size) || !(m.formIs j 1 size) ||
      !(m.formIs j 0 fun f => !pairs f) || (g.op == 0x12 && !(m.formIs j 1 fun f => !pairs f)) ||
      (g.op == 0x12 && !(m.formIs j 0 fun f => !f.grain.linear)) ||
      (g.op != 0x11 && !(m.formIs j 1 fun f => !f.grain.linear)) ||
      (g.func != 0 && (g.op == 0x12 || (g.op == 0x11 && !g.deriv))) || (g.deriv && g.op != 0x11) ||
      (g.second && g.op != 0x10) ||
      ((g.func != 0 || g.deriv) && !(m.formIs j 2 fun f => f.place != .rb)) ||
      (g.deriv && !(m.formIs j 2 fun f => f.cls == .grad)))

/-- Reason 0x0E, for an instruction: operands that a descriptor must name (R78). -/
def Img.rawBad (m : Img) (j : Nat) : Bool :=
  let g := m.insn j
  (descPositions g.op g.w1).any (fun k => !(m.opd j k).desc && !(m.opd j k).absent) ||
    (roundPositions g.op).any fun k => !(m.opd j k).desc && (m.form (m.opd j k)).any fun f => f.cls == .grad

/-- Reason 0x0E, for the pool: descriptors by R43, R76 and R77. -/
def Img.descBad (m : Img) : Option Nat :=
  ((List.range m.pool.length).find? fun i =>
      let b := m.pool.getD i []
      !descOk b || decide ((descView b).tid ≥ 0xF00000)).map fun i => poolAt m.code.length + 64 * i

/-- The LOOPs whose bodies hold instruction j (R84). -/
def Img.loopsAround (m : Img) (j : Nat) : Nat :=
  ((List.range j).filter fun l => (m.insn l).op == 5 && decide (j ≤ m.loopEnd l)).length
/-- Reason 0x0F: LOOP in service images only, nested at most 4 deep. -/
def Img.loopBad (m : Img) (j : Nat) : Bool :=
  (m.insn j).op == 5 && (m.kind != 2 || decide (m.loopsAround j ≥ 4))

/-- Reason 0x10: OFFSET 0 only for scalar instructions and OPX (R85). -/
def Img.offsetBad (m : Img) (j : Nat) : Bool :=
  (m.insn j).offset == 0 && (m.insn j).op != 1 && unitOf (m.insn j).op != 0

/-- A reason with the place of its first failure. -/
def reasonAt (r : Nat) (o : Option Nat) : Option (Nat × Nat) := o.map fun x => (r, x)

/-- What the gate finds: the first check of R90's table that fails and where, for a slot whose owner has the kind and the lease of
`groups` given. `timing` is the outcome of the checks 0x0A to 0x0C against times that the spec states nowhere (R91). -/
def Img.verdict (m : Img) (kind : Option Nat) (groups : Nat) (timing : Option (Nat × Nat)) : Option (Nat × Nat) :=
  let timed := fun r => (timing.bind fun t => if t.1 = r then some (r, t.2) else none)
  reasonAt 1 (m.headerBad kind)
    <|> reasonAt 2 (if leAt m.hdr 6 2 = Config.latLevel.toNat then none else some 6)
    <|> reasonAt 3 (if leAt m.hdr 0x16 2 ≠ 0 then some 0x16 else if leAt m.hdr 0x38 8 ≠ 0 then some 0x38
        else m.firstBad m.encodingBad)
    <|> reasonAt 4 (m.firstBad m.operandBad)
    <|> reasonAt 5 (m.firstBad m.opxBad)
    <|> reasonAt 6 (m.firstBad m.windowBad)
    <|> reasonAt 7 (m.firstBad (m.limitBad groups))
    <|> reasonAt 8 (m.firstBad m.overlapBad)
    <|> reasonAt 9 ((((List.range 8).find? fun k => decide (k < m.entryCount) && !m.isTarget (m.entry k)).map
        fun k => 0x18 + 4 * k) <|> m.firstBad m.targetBad)
    <|> reasonAt 0xA (m.firstBad (m.lateFor (4 * groups))) <|> timed 0xA
    <|> reasonAt 0xB (m.firstBad fun j => m.queueBad j || m.fullBad (4 * groups) j) <|> timed 0xB
    <|> reasonAt 0xC (m.firstBad m.consumerBad) <|> timed 0xC
    <|> reasonAt 0xD (m.firstBad m.productBad)
    <|> reasonAt 0xE (m.firstBad m.rawBad <|> m.descBad)
    <|> reasonAt 0xF (m.firstBad m.loopBad)
    <|> reasonAt 0x10 (m.firstBad m.offsetBad)
    <|> reasonAt 0x11 (m.firstBad fun j => m.kind == 1 && (m.insn j).op == 0x39)

-- Relocation (R92)

/-- A pool specifier's INDEX in units of 64 bytes of the program store; other specifiers stay. -/
def relocOpd (unit w : Nat) : Nat := if w % 8 = 2 then 2 + 8 * (bits w 23 3 + unit) else w
/-- An instruction at its place: `base` is the half's byte offset in the store, `unit` the pool's 64-byte unit. -/
def GInsn.reloc (base unit : Nat) (g : GInsn) : GInsn :=
  if g.op = 0x04 ∨ g.op = 0x05 then { g with wa := base + insnAt g.word }
  else if g.op = 0x02 then g
  else if g.op = 0x06 then { g with wb := relocOpd unit g.wb, wc := relocOpd unit g.wc }
  else { g with wa := relocOpd unit g.wa, wb := relocOpd unit g.wb, wc := relocOpd unit g.wc }
/-- The image as it stands in a half whose byte offset in the store is `base`. -/
def Img.reloc (m : Img) (base : Nat) : List Byte :=
  let unit := (base + poolAt m.code.length) / 64
  let entries := (List.range 8).flatMap fun k =>
    leBytes 4 (if k < m.entryCount then base + insnAt (m.entry k) else m.entry k)
  let code := m.code.flatMap fun g => (g.reloc base unit).bytes
  m.hdr.take 0x18 ++ entries ++ m.hdr.drop 0x38 ++ fitBytes (poolAt m.code.length - 64) code ++ m.pool.flatten

/-- Writes bytes into a stove's program store. -/
def State.psWrite (s : State) (st : Nat) : Nat → List Byte → State
  | _, [] => s
  | a, b :: t =>
    ({ s with sq := { s.sq with store := tabSet (storeDef s.sp.seed) s.sq.store (2 ^ 24 * st + a) b } } : State).psWrite st (a + 1) t

/-- The bytes of an image at its source. -/
def State.imgBytes (s : State) (g : Gate) : List Byte := s.vrdN g.ctx g.src g.len

/-- The kind of the context that owns a slot. -/
def State.ownerKind (s : State) (st k : Nat) : Option Nat :=
  let c := s.ctx (s.slot st k).owner
  if c.valid then some c.kind else none
/-- The groups of the lease of a slot's owner: the one it is bound to, or else the one recorded for it (R119, R245). DESIGN CHOICE
(log 73). -/
def State.ownerGroups (s : State) (st k : Nat) : Nat :=
  let c := s.ctx (s.slot st k).owner
  if c.isBound then c.bound.groups else c.lease.groups

/-- The half is REJECTED for a reason, at an image offset (R93). -/
def State.gateReject (s : State) (st : Nat) (r : Nat × Nat) : State :=
  let g := s.gate st
  let s := (s.setSlot st g.slot ((s.slot st g.slot).setSt g.half 3)).setGate st
    { g with busy := false, passed := false, reason := r.1, failAt := r.2 }
  (s.logErr st 0x10 ⟨w32 0x0D, pack [(g.slot, 12), (g.half, 17)], 0, 0⟩).raise st 0x10 1

/-- GATE_DONE: the gate of a stove ends (R90, R92, R93). It copies the image as one reader of the context's memory that
SEQ_LOAD_CMD names, page by page (R231, R232). An image that cannot be read, from an unmapped page or over data that cannot be had
(R241), is rejected under reason 0x01 at offset 0: DESIGN CHOICE (log 74). -/
def execGateDone (st : Nat) (timing : Option (Nat × Nat)) (s : State) : Res :=
  let g := s.gate st
  let rs := [(g.src, g.len)]
  if !g.busy then .next s
  else if !s.mapped g.ctx g.src g.len false then .next (s.gateReject st (1, 0))
  else
    match s.memBad st g.ctx rs false with
    | some b => .next ((s.denied ⟨st, 0, 0, g.ctx, 0⟩ b false).gateReject st (1, 0))
    | none =>
      let m := imgOf (s.imgBytes g)
      let p := s.slot st g.slot
      let s := s.reachAs st g.ctx rs false false 1 []
      match m.verdict (s.ownerKind st g.slot) (s.ownerGroups st g.slot) timing with
      | none =>
        let s := s.psWrite st (p.base g.half) (m.reloc (p.base g.half))
        .next (((s.setSlot st g.slot (p.setSt g.half 2)).setGate st
          { g with busy := false, passed := true, reason := 0, failAt := 0 }).raise st 0x10 0)
      | some r => .next (s.gateReject st r)

end Sys2Proof.Machine
end

