-- ==== Sys2Proof/Machine/Hatom.lean ====
section
/-! DEFINITION. HATOM: ordered additions in atomic windows, maxima and minima, and the two word operations (R12, R20, R45, R143, R150,
R152 to R155, R234). -/

namespace Sys2Proof.Machine

-- The pages of a target (R153, R234)

/-- The pages of an atomic's target: those of its view, or of its word. -/
def AtomF.pages (a : AtomF) : List Nat := if a.op ≤ 3 then pageRange a.target.addr (a.target.extent - a.target.addr) else pageRange a.va 4
/-- Is every page in HBM and at rest? -/
def State.pagesReady (s : State) (c : Nat) (l : List Nat) : Bool :=
  l.all fun k => let p := s.pte (s.ctx c).aspace k; p.valid && !p.cold && !p.moving
/-- The cold pages of a target that no move carries. -/
def State.coldPages (s : State) (c : Nat) (l : List Nat) : List Nat :=
  l.filter fun k => let p := s.pte (s.ctx c).aspace k; p.valid && p.cold && !p.moving
/-- May the tier manager of a cold page promote it at all (R234)? -/
def State.canPromote (s : State) (owner page : Nat) : Bool :=
  let p := s.pte owner page
  bitOf (s.rdN p.stove Reg.HBM_TM_CTRL) 0 && p.movable
/-- Asks for the promotion of the cold pages of a target, as far as the tier managers have room; and the first that is denied. -/
def State.askPages (s : State) (c : Nat) (l : List Nat) : State × Option Nat :=
  let o := (s.ctx c).aspace
  (s.coldPages c l).foldl (fun (y : State × Option Nat) k =>
    if y.2.isSome then y
    else if !y.1.canPromote o k then (y.1, some k)
    else
      match y.1.promote (y.1.pte o k).stove o k with
      | (t, .denied) => (t, some k)
      | (t, _) => (t, none)) (s, none)

-- Effects (R153)

/-- The stove at whose hearth an element of a view in HBM is updated (R140, R153). -/
def State.homeOf (s : State) (c : Nat) (v : View) (r k : Nat) : Nat :=
  s.byteAddr c v (r * v.stride + k * fmtBits v.fmt / 8) / hbmRegion
/-- The blocks of a target that stand near the limit of their format (R45): the first element and the stove of each whose scale is 0, 1,
254 or 255 and that holds a value other than zero. -/
def State.nearBlocks (s : State) (c : Nat) (v : View) : List (Nat × Nat) :=
  let cells := (List.range v.size).map fun i => (i / v.cols, i % v.cols)
  let full := (cells.filter fun p => has [0, 1, 254, 255] (s.scaleAt c v p.1 p.2) && s.valAt c v p.1 p.2 != 0).map fun p => v.blk p.1 p.2
  full.eraseDups.filterMap fun b => cells.find? fun p => v.blk p.1 p.2 == b
/-- Applies an ADD whole: each element takes its own draw, and its range events are counted at its home hearth (R45, R153, R155). A block
of an ADD_B16 that is near its limit counts once for the operation. -/
def State.atomAdd (s : State) (c : Nat) (a : AtomF) (count : Nat) : State :=
  let v := a.target
  let d := s.draw c
  let u := fun i => d.u v.tid (fold40 i count) 0x11
  a.vals.zipIdx.foldl (fun (s : State) p =>
    let r := p.2 / v.cols
    let k := p.2 % v.cols
    let z := s.storeItem c v u (s.scaleAt c v r k) (r, k, s.valAt c v r k + p.1)
    z.1.tallyAt (s.homeOf c v r k) c v.fmt v.cls z.2) s
  |> fun (s : State) => if scaled v.fmt then
      (s.nearBlocks c v).foldl (fun (s : State) p => s.tallyAt (s.homeOf c v p.1 p.2) c v.fmt v.cls ⟨0, 0, 1⟩) s
    else s
/-- Applies MAX_N16 or MIN_N16; range events as for ADD. -/
def State.atomMax (s : State) (c : Nat) (a : AtomF) : State :=
  let v := a.target
  a.vals.zipIdx.foldl (fun (s : State) p =>
    let r := p.2 / v.cols
    let k := p.2 % v.cols
    let b := roundN16 p.1 none
    let t := s.valAt c v r k
    let m := if a.op = 2 then max t b.val else min t b.val
    (s.putCode c v r k (encN16 m).toNat).tallyAt (s.homeOf c v r k) c v.fmt v.cls ⟨b2n b.sat, b2n b.flush, b2n (nearN16 m)⟩) s
/-- Applies CAS32 or INC32; the old word is for its window word. -/
def State.atomWord (s : State) (c : Nat) (a : AtomF) : State :=
  let old := w32 (leNat (s.vrdN c a.va 4))
  let new := if a.op = 4 then (if old = a.cmp then a.swap else old) else w32 (satAdd 0xFFFFFFFF old.toNat 1)
  let s := s.vwrN c a.va (leBytes 4 new.toNat)
  match a.dest with
  | some o => s.putBytes c (wordView o) 0 (leBytes 4 old.toNat)
  | none => s
/-- Applies an operation that carries no ordinal: the state, and the scratchpad bytes that land when it completes (R95). -/
def State.atomNow (s : State) (c : Nat) (a : AtomF) : State × List (Nat × Byte) :=
  if a.op ≤ 3 then (s.atomMax c a, []) else s.defer (s.atomWord c a) c (a.dest.toList.map wordView)

-- Denied promotions (R234)

/-- A HATOM whose cold target cannot be promoted (R234): skipped, logged with HBM code 0x0A. -/
def State.atomDenied (s : State) (post : Option Nat) (x : Src) (k : Nat) : State :=
  let p := s.pte (s.ctx x.ctx).aspace k
  (s.skipAs post x 3 (2 ^ 21 * k)).hbmLog p.stove 0x0A 0 0 2 x.ctx 0 (2 ^ 21 * p.frame) 0
/-- Waiting operations go on as far as their pages let them: the missing pages are asked for again, and an operation whose page is
denied is skipped. An ADD stays until its turn. -/
def State.retryAtoms (s : State) : State :=
  s.sq.flights.foldl (fun s f =>
    match f.body with
    | .atom a =>
      if s.pagesReady f.ctx a.pages then
        (if a.op < 2 then s
        else
          let y := s.atomNow f.ctx a
          y.1.putFlight { f with body := .plain, writes := y.2 })
      else
        match s.askPages f.ctx a.pages with
        | (s, none) => s
        | (s, some k) => (s.endFlight f).atomDenied f.post f.src k
    | _ => s) s

-- Issue

/-- Launches an operation: at once where its pages are ready, else it waits for them. -/
def State.atomLaunch (s : State) (i : Iss) (x : Src) (a : AtomF) (readers : List (Nat × Nat)) (lines : List Nat) : State :=
  if a.op < 2 ∨ !s.pagesReady x.ctx a.pages then s.launch i x readers lines (.atom a)
  else
    let y := s.atomNow x.ctx a
    y.1.launch i x readers lines .plain y.2

/-- The end of a waiting or refused ADD that is not applied (R155): logged, its post made, the step tainted. -/
def State.addLost (s : State) (x : Src) (post : Option Nat) (code event win ordinal : Nat) : State :=
  (((s.hthLog x.st code x.ctx (s.ctx x.ctx).slot win 0 0 ordinal).raise x.st 0x60 event).postOpt x post).taintSeq x.st x.sq x.ctx

/-- The run-time check that an element-wise HATOM fails, and its detail: the address of the operand at fault (R94, R100, R114, R153). -/
def State.atomCheck (s : State) (x : Src) (fmt : Fmt) (h : HatomOps) (v w : View) : Option (Nat × Nat) :=
  let desc := badAddr [(h.a, v)] (fun o => s.descFails x.st x.sq x.ctx o.1 o.2 true) <|>
    badAddr [(h.b, w)] fun o => s.descFails x.st x.sq x.ctx o.1 o.2 false
  let extent := badAddr [(h.a, v), (h.b, w)] fun o => s.extentFails x.ctx o.1 o.2
  let count := badAddr [(h.a, v), (h.b, w)] fun o => s.countFails x.ctx o.2
  if desc.isSome then some (3, desc.getD 0)
  else if extent.isSome then some (1, extent.getD 0)
  else if count.isSome then some (2, count.getD 0)
  else if v.rows ≠ w.rows ∨ v.cols ≠ w.cols then some (2, w.addr)
  else if v.size > 1048576 then some (2, v.size)
  else if v.fmt ≠ fmt then some (4, v.addr)
  else none
/-- An ADD whose target is not inside one bound atomic window is logged (R153). -/
def State.noWindow (s : State) (x : Src) (v : View) : State :=
  (s.hthLog x.st 0x0A x.ctx (s.ctx x.ctx).slot 0 0 (s.byteAddr x.ctx v 0 / 128) 0).raise x.st 0x60 5
/-- The operation that an element-wise HATOM asks for. -/
def State.atomOf (s : State) (x : Src) (op win : Nat) (h : HatomOps) (v w : View) : AtomF :=
  { op := op, win := win, ordinal := ((s.seq x.st x.sq).sreg h.ra).toNat % 65536, target := v, va := 0,
    vals := (s.vals x.ctx w).flatten, dest := none, cmp := 0, swap := 0 }
/-- How far an ordinal is ahead of its window's count, modulo 65,536 (R155). -/
def State.aheadOf (s : State) (st : Nat) (a : AtomF) : Nat := (a.ordinal + 65536 - (s.awin st a.win).count % 65536) % 65536

/-- ADD_N16, ADD_B16, MAX_N16 and MIN_N16 (R153, R155). -/
def State.atomView (s : State) (op : Nat) (fmt : Fmt) (i : Iss) (h : HatomOps) : State :=
  match s.begin i 0x3C [h.b] with
  | (s, none) => s
  | (s, some x) =>
    let v := s.view x.st x.sq x.ctx h.a 0 0
    let w := s.view x.st x.sq x.ctx h.b v.rows v.cols
    let len := v.extent - v.addr
    match s.atomCheck x fmt h v w with
    | some r => s.skip i x r.1 r.2
    | none =>
      if v.size = 0 then s.postOpt x i.post
      else
        let win := if v.place = .virt then s.windowOf x.st x.ctx v.addr len else none
        if v.place = .rb ∧ (s.ctx x.ctx).isEval then s.evalWrite x
        else if v.place = .rb then (if op < 2 then s.noWindow x v else s).rbSkip i x (v.rbElem 0 0) v.addr
        else if op < 2 ∧ win.isNone then (s.noWindow x v).skip i x 2 v.addr
        else if v.place = .spd then s.skip i x 4 v.addr
        else if s.guardedView x.ctx v then s.evalWrite x
        else if w.place = .rb then s.rbSkip i x (w.rbElem 0 0) w.addr
        else if s.mergeView x.ctx v then s.rbSkip i x 0 v.addr
        else if s.mergeView x.ctx w then s.rbSkip i x 0 w.addr
        else
          let a := s.atomOf x op (win.getD 0) h v w
          match s.askPages x.ctx a.pages with
          | (s, some k) => s.atomDenied i.post x k
          | (s, none) =>
            let s := s.readLines x (if h.b.isChair then [] else s.viewLines x.ctx w)
            match s.access x i [w, v] [] 1 (descs := [h.a, h.b]) with
            | (s, false) => s
            | (s, true) =>
              let s := s.reachW x.ctx v.vranges
              let s := s.tallyT2 x.ctx [(w, w.cells)]
              if op < 2 ∧ s.aheadOf x.st a ≥ 32768 then s.addLost x i.post 8 5 a.win a.ordinal
              else s.atomLaunch i x a (s.readersOf x.ctx [h.b]) []

/-- ADD_N16 (R153, R155). -/
def execAddN16 (i : Iss) (h : HatomOps) (s : State) : Res := .next (s.atomView 0 .n16 i h)
/-- ADD_B16 (R153, R155). -/
def execAddB16 (i : Iss) (h : HatomOps) (s : State) : Res := .next (s.atomView 1 .b16 i h)
/-- MAX_N16 (R153). -/
def execMaxN16 (i : Iss) (h : HatomOps) (s : State) : Res := .next (s.atomView 2 .n16 i h)
/-- MIN_N16 (R153). -/
def execMinN16 (i : Iss) (h : HatomOps) (s : State) : Res := .next (s.atomView 3 .n16 i h)

/-- CAS32 and INC32 (R153): the word at S[RA+1][15:0] × 2^32 + S[RA], and the scratchpad word that receives its old value. -/
def State.atomWordOp (s : State) (op : Nat) (i : Iss) (h : HatomOps) : State :=
  match s.begin i 0x3C [] with
  | (s, none) => s
  | (s, some x) =>
    let q := s.seq x.st x.sq
    let va := q.addr48 h.ra
    let t : View := { place := .virt, addr := va, fmt := .n16, rows := 1, cols := 2, stride := 16 }
    let o := if h.b.absent then none else s.wordOpd x h.b
    if va % 4 ≠ 0 ∨ !s.mapped x.ctx va 4 true then s.skip i x 3 va
    else if !h.b.absent ∧ o.isNone then s.skip i x 1 (s.wordAddr x h.b)
    else if s.guarded x.ctx va 4 then s.evalWrite x
    else if s.mergeView x.ctx t then s.rbSkip i x 0 va
    else
      let a : AtomF :=
        { op := op, win := 0, ordinal := 0, target := t, va := va, vals := [], dest := o, cmp := q.sreg h.rb, swap := q.sreg h.rc }
      match s.askPages x.ctx a.pages with
      | (s, some k) => s.atomDenied i.post x k
      | (s, none) =>
        match s.access x i [t] (o.toList.map wordView) 1 with
        | (s, false) => s
        | (s, true) =>
          let lines := match o with
            | some o => s.viewLines x.ctx (wordView o)
            | none => []
          ((s.reachW x.ctx t.vranges).claimLines x lines).atomLaunch i x a [] lines

/-- CAS32 (R153). -/
def execCas32 (i : Iss) (h : HatomOps) (s : State) : Res := .next (s.atomWordOp 4 i h)
/-- INC32 (R153). -/
def execInc32 (i : Iss) (h : HatomOps) (s : State) : Res := .next (s.atomWordOp 5 i h)

-- Waiting ADDs (R155)

/-- The ADD that waits at a window with an ordinal. -/
def State.waitingAdd (s : State) (st w n : Nat) : Option (Flight × AtomF) :=
  s.sq.flights.findSome? fun f =>
    match f.body with
    | .atom a => if f.st = st ∧ a.op < 2 ∧ a.win = w ∧ a.ordinal = n then some (f, a) else none
    | _ => none
/-- Waiting ADDs that the count has overtaken are refused. -/
def State.refuseBehind (s : State) (st w : Nat) : State :=
  let count := (s.awin st w).count
  s.sq.flights.foldl (fun s f =>
    match f.body with
    | .atom a =>
      if f.st = st ∧ a.op < 2 ∧ a.win = w ∧ (a.ordinal + 65536 - count % 65536) % 65536 ≥ 32768 then
        (s.endFlight f).addLost f.src f.post 8 5 w a.ordinal
      else s
    | _ => s) s

/-- ATOM_ADD_APPLY: the ADD whose ordinal is the window's count is applied to all its elements, and the count advances; where the target
has become bad while it waited, its context is faulted (R143, R241). -/
def execAtomAddApply (st w : Nat) (s : State) : Res :=
  let g := s.awin st w
  match s.waitingAdd st w (g.count % 65536) with
  | none => .next s
  | some (f, a) =>
    if !g.bound ∨ !s.pagesReady f.ctx a.pages then .next s
    else
      match s.memBad f.st f.ctx a.target.vranges false with
      | some b => .next ((s.endFlight f).denied f.src b false)
      | none =>
      let s := (s.reach f.ctx a.target.vranges).reachW f.ctx a.target.vranges
      let s := (s.atomAdd f.ctx a g.count).putFlight { f with body := .plain }
      .next ((s.setAwin st w { g with count := g.count + 1 }).refuseBehind st w)

/-- ATOM_TIMEOUT: an ADD that has waited HTH_ATOM_TMO hearth cycles is discarded. -/
def execAtomTimeout (st w n : Nat) (s : State) : Res :=
  match s.waitingAdd st w n with
  | none => .next s
  | some (f, _) => .next ((s.endFlight f).addLost f.src f.post 9 6 w n)

end Sys2Proof.Machine
end

