-- ==== Sys2Proof/Machine/Tiers.lean ====
section
/-! DEFINITION. The memory tiers at work: decay, promotion and demotion, the end of page moves, patrol scrubbing, late accesses, and
requests that are not answered (R226, R228 to R230, R234, R235, R239 to R241). -/

namespace Sys2Proof.Machine

-- The tier manager (R234, R235)

/-- Does a stove's tier manager handle a page: its frame lies in the stove's region, or it is cold and names the stove? -/
def Pte.of (p : Pte) (st : Nat) : Bool := p.valid && !p.host && (if p.cold then p.stove == st else p.frame / 122880 == st)
/-- Does a cold page ask for promotion (R234)? -/
def Pte.wants (p : Pte) (thr : Nat) : Bool :=
  p.cold && p.movable && ((p.hint == 3 && p.count != 0) || decide (thr ≤ p.count))
/-- Promotes the cold pages of a stove that ask for it, or that are pinned (R144), in ascending owner and address. -/
def State.promoteAll (s : State) (st : Nat) : State :=
  let thr := fld (s.rd st Reg.HBM_TM_CTRL) 31 16
  s.tr.ptes.foldl (fun s e =>
    let o := e.1 / 2 ^ 27
    let k := e.1 % 2 ^ 27
    let p := s.pte o k
    if !p.of st then s
    else if p.pins ≠ 0 then s.pinMove st o k
    else if p.wants thr then (s.promote st o k).1 else s) s
/-- Demotes what owners hold beyond their HBM quotas (R233). -/
def State.demoteAll (s : State) (st : Nat) : State :=
  ((s.tr.ptes.map fun e => e.1 / 2 ^ 27).eraseDups).foldl (fun s o =>
    s.demoteExcess st o (fld (s.rd st Reg.HBM_TM_CTRL) 12 8)) s
/-- Halves every COUNT that a stove handles. -/
def State.halveCounts (s : State) (st : Nat) : State :=
  s.tr.ptes.foldl (fun s e =>
    let p := e.2
    if p.of st then
      let q := s.pte (e.1 / 2 ^ 27) (e.1 % 2 ^ 27)
      s.setPte (e.1 / 2 ^ 27) (e.1 % 2 ^ 27) { q with count := q.count / 2 }
    else s) s

/-- TM_DECAY (R232, R234): the translation entries of the stove add what they have counted, the pages whose COUNT has reached the threshold
are promoted, the excess of owners is demoted, and every COUNT is halved. A period of 0 disables the decay alone (R242). -/
def execTmDecay (st : Nat) (s : State) : Res :=
  let decay := fld (s.rd st Reg.HBM_TM_PERIOD) 15 0 ≠ 0
  if !bitOf (s.rdN st Reg.HBM_TM_CTRL) 0 then .next s
  else
    let s := ((if decay then s.flushTlb st else s).promoteAll st).demoteAll st
    .next (if decay then s.halveCounts st else s)

/-- Has a part failed in service that holds a share of every page of a frame's region (R226, R229, R240)? -/
def State.frameDown (s : State) (f : Nat) : Bool :=
  if s.inCold (2 ^ 21 * f) then !s.tr.pkgFail.isEmpty else s.tr.pcFail.any fun p => p / 160 == f / 122880
/-- PAGE_MOVE_COMPLETE: the n-th move in flight ends (R235), or is abandoned for an uncorrectable error, a lost line or a failed part in
its source (R143, R240, R241). That a failed part in its target ends it too is DEDUCED (log 92). -/
def execPageMoveComplete (n : Nat) (ecc : Ecc) (s : State) : Res :=
  match s.tr.moves[n]? with
  | none => .next s
  | some m =>
    let f := (s.pte (m.page / 2 ^ 27) (m.page % 2 ^ 27)).frame
    let a := 2 ^ 21 * f
    let lost := s.ht.lost.any fun l => 128 * l / 2 ^ 21 == f
    if s.frameDown f then .next (((s.failAtOnce a 0 3).abandonMove m).retryAtoms)
    else if s.frameDown m.frame then .next (((s.failAtOnce (2 ^ 21 * m.frame) 0 3).abandonMove m).retryAtoms)
    else if ecc = .ue ∨ (s.tr.bad.any fun u => u / 2 ^ 21 == f) then .next (((s.tierUeCount a).abandonMove m).retryAtoms)
    else if lost then .next ((s.abandonMove m).retryAtoms)
    else
      let s := match ecc with
        | .ce => s.nextFree.tierCe a 0 s.anySyndrome 3
        | .dieCe => s.dieCe a
        | .linkCe => s.linkCe a 0 3
        | _ => s
      .next ((s.endMove m).retryAtoms)

-- Patrol scrubbing (R228, R230)

/-- The address of byte y of a stove's pseudo-channel p, by the inverse of hbm_place (R226). -/
def State.hbmAddrOf (s : State) (st p y : Nat) : Nat :=
  let n := s.pcsIn st
  let j := ((List.range p).filter fun k => !has s.tr.pcOut (160 * st + k)).length
  let q := y / 512
  let b := q * n + (j + 13 * n * (q + 1) - 13 * q) % n
  hbmRegion * st + 512 * b + y % 512
/-- The address of byte y of a package, by the inverse of cold_place (R229). -/
def State.coldAddrOf (s : State) (p y : Nat) : Nat :=
  let n := s.pkgsIn
  let j := ((List.range p).filter fun k => !has s.tr.pkgOut k).length
  let q := y / 256
  let b := q * n + (j + 5 * n * (q + 1) - 5 * q) % n
  coldBase + 256 * b + y % 256
/-- Sectors of 32 bytes of a pseudo-channel, units of 64 bytes of a package. -/
def scrubUnits (cold : Bool) : Nat := if cold then 64 * 2 ^ 30 / 64 else 3 * 2 ^ 29 / 32
/-- Sectors that a scrubber has read: pseudo-channel st × 160 + p, or 1,000 + package. -/
def State.scrubbed (s : State) (k : Nat) : Nat := tabGet (fun _ => 0) s.tr.scrub k
/-- Complete passes over every part of a list. -/
def State.scrubPasses (s : State) (cold : Bool) (l : List Nat) : Nat :=
  l.foldl (fun m k => min m (s.scrubbed k / scrubUnits cold)) (s.scrubbed (l.headD 0) / scrubUnits cold)
/-- A scrubber has read one sector of part k among the parts l of its controller, whose pass counter is `reg`. -/
def State.scrubStep (s : State) (cold : Bool) (die reg k : Nat) (l : List Nat) : State :=
  let before := s.scrubPasses cold l
  let s := { s with tr := { s.tr with scrub := tabSet (fun _ => 0) s.tr.scrub k (s.scrubbed k + 1) } }
  s.bumpWrap die reg (s.scrubPasses cold l - before)

/-- PATROL_SCRUB (R228, R230): the next sector of pseudo-channel or package `unit` is read; a corrected error is written back, an
uncorrectable one left as it is; a failed part answers nothing (R240). -/
def execPatrolScrub (t : Tier) (unit : Nat) (ecc : Ecc) (syndrome : Nat) (s : State) : Res :=
  match t with
  | .hbm st =>
    let c := unit / 32
    let k := 160 * st + unit
    let base := 4096 * c
    if st ≥ 4 ∨ unit ≥ 160 ∨ has s.tr.pcOut k ∨ fld (s.rd st (Reg.HBM_c_SCRUB_CTRL + base)) 7 0 = 0 then .next s
    else
      let a := s.hbmAddrOf st unit (32 * (s.scrubbed k % scrubUnits false))
      let l := ((List.range 32).map fun i => 160 * st + 32 * c + i).filter fun p => !has s.tr.pcOut p
      let s := s.scrubStep false st (Reg.HBM_c_SCRUB_PASSES + base) k l
      if s.partDown a then .next (s.failAtOnce a 0 3)
      else
      let s := s.serve a 3
      match (if has s.tr.bad a then .ue else ecc) with
      | .ce => .next ((((s.bump st (Reg.HBM_c_CE + base) 1).countC st 0x90 1).hbmLog st 1 c (unit % 32) 3 0 0 a syndrome).raise st 0x90 0)
      | .ue => .next (((((s.markBad a).bump st (Reg.HBM_c_UE + base) 1).countU st 0x90 1).hbmLog st 3 c (unit % 32) 3 0 0 a syndrome).raise st 0x90 2)
      | .dieCe => .next (s.dieCe a)
      | _ => .next s
  | .cold d =>
    let die := 4 + d
    let p := 16 * d + unit
    if d ≥ 2 ∨ unit ≥ 16 ∨ has s.tr.pkgOut p ∨ fld (s.rd die Reg.CLD_SCRUB_CTRL) 7 0 = 0 then .next s
    else
      let a := s.coldAddrOf p (64 * (s.scrubbed (1000 + p) % scrubUnits true))
      let l := ((List.range 16).filter fun i => !has s.tr.pkgOut (16 * d + i)).map fun i => 1000 + 16 * d + i
      let s := s.scrubStep true die Reg.CLD_SCRUB_PASSES (1000 + p) l
      if s.partDown a then .next (s.failAtOnce a 0 3)
      else
      match (if has s.tr.bad a then .ue else ecc) with
      | .ce => .next ((((s.bump die Reg.CLD_CE 1).countC die 0xA0 1).cldLog die 1 unit 3 0 0 a syndrome).raise die 0xA0 0)
      | .ue => .next (((((s.markBad a).bump die Reg.CLD_UE 1).countU die 0xA0 1).cldLog die 3 unit 3 0 0 a syndrome).raise die 0xA0 2)
      | .linkCe => .next (s.linkCe a 0 3)
      | _ => .next s

-- Late and failed requests (R239, R240)

/-- Where a tier's late time is counted for a context: its own stove's region page, or the chimney that served it. -/
def lateAt (t : Tier) (ctx : Nat) : Nat :=
  match t with
  | .hbm _ => stoveOf ctx
  | .cold d => 4 + d
/-- ACCESS_LATE (R239): an access is late by `cycles`. -/
def execAccessLate (t : Tier) (ctx cause cycles : Nat) (s : State) : Res :=
  let k := lateAt t ctx
  .next (((s.stallAdd k ctx cause false 1).stallAdd k ctx cause true cycles).raise k (if k < 4 then 0x90 else 0xA0) 3)

/-- A pseudo-channel or package is marked failed in service: the next kindling maps it out (R240). -/
def State.partFailed (s : State) (t : Tier) (part : Nat) : State :=
  match t with
  | .hbm st =>
    let p := 160 * st + part
    let s := { s with tr := { s.tr with pcFail := addOnce s.tr.pcFail p } }
    s.retire 2 st part 3
  | .cold d =>
    let p := 16 * d + part
    ({ s with tr := { s.tr with pkgFail := addOnce s.tr.pkgFail p } } : State).retire 3 (4 + d) part 3
/-- A record of a failed request of a tier, by its code. -/
def State.tierLog (s : State) (t : Tier) (code part cls ctx cause addr : Nat) : State :=
  match t with
  | .hbm st => s.hbmLog st code (part / 32) (part % 32) cls ctx cause addr 0
  | .cold d => s.cldLog (4 + d) code part cls ctx cause addr 0
/-- What the data of a request is (R241): a page table of an address space; a row of an embedding table of a stove's slot, with its
working and master addresses, and whether it is the master; the occurrences or weights of an announcement that is being cut; spill or
merge lines of a slot; an entry of a stove's sweep log; a block of a dense entry of a slot that is being swept; or anything else. -/
inductive DataKind where
  | walk (space : Nat)
  | row (st b : Nat) (k : Key) (w m : Nat) (master : Bool)
  | occ (st h : Nat)
  | buffer (b : Nat)
  | log (st b : Nat) (e : LogEnt)
  | dense (b j k : Nat)
  | other
deriving DecidableEq, Repr
/-- The address space and the virtual address at which a module address is mapped. -/
def State.vaOf (s : State) (a : Nat) : Option (Nat × Nat) :=
  (s.tr.ptes.find? fun e => e.2.valid && e.2.frame == a / 2 ^ 21).map fun e => (e.1 / 2 ^ 27, 2 ^ 21 * (e.1 % 2 ^ 27) + a % 2 ^ 21)
/-- The enabled job slots of the stoves, whose tables lie in an address space. -/
def State.jobsIn (s : State) (sp : Nat) : List (Nat × Nat) :=
  ((List.range 4).flatMap fun st => (List.range 8).map fun b => (st, b)).filter fun p =>
    bitOf (s.rdN p.1 (Reg.EMB_JOB_b_CTRL + 16 * p.2)) 0 && (s.ctx (s.tdir p.1 p.2).1).aspace == sp
/-- The row of a stove's slot whose record holds a virtual address, with its addresses, and whether that record is the master. -/
def State.rowAt (s : State) (st b va : Nat) : Option (Key × Nat × Nat × Bool) :=
  let pick := fun (d : TDesc) (k : Key) (w m : Nat) =>
    if meet va 1 w d.wrec then some (k, w, m, false) else if meet va 1 m d.mrec then some (k, w, m, true) else none
  ((List.range 4096).findSome? fun t =>
    let d := s.tdesc st b t
    if !d.valid then none
    else [false, true].findSome? fun mir => (List.range 65536).findSome? fun sh =>
      let e := s.dirEnt st b d mir sh
      if !e.valid then none
      else
        let q := if meet va 1 e.wbase (d.slotsOf * d.wrec) then (va - e.wbase) / d.wrec else (va - e.mbase) / d.mrec
        if q < d.slotsOf then pick d ⟨t, rowIn t q sh⟩ (e.wbase + q * d.wrec) (e.mbase + q * d.mrec) else none) <|>
    (s.relayedRows st b).findSome? fun k => (s.heldAt st b k).bind fun h => pick (s.tdesc st b k.table) k h.1 h.2.1
/-- The kind of data at a module address. -/
def State.dataKind (s : State) (a : Nat) : DataKind :=
  match s.tr.tables.find? fun t => t.2 == a / 2 ^ 21 with
  | some t => .walk (if t.1 < 2 ^ 21 then t.1 / 512 else t.1 - 2 ^ 21)
  | none =>
    match s.vaOf a with
    | none => .other
    | some (sp, va) =>
      let hops := ((List.range 4).flatMap fun st => (List.range 8).map fun h => (st, h)).filter fun p =>
        match (s.hop p.1 p.2).doing with
        | some (e, _) =>
          let n := annOf e
          (s.ctx (s.hopCfg p.1 p.2).ctx).aspace == sp && (meet va 1 n.occ (8 * n.count) || (n.wgt != 0 && meet va 1 n.wgt (2 * n.count)))
        | none => false
      let spill := ((List.range 4).flatMap fun st => (List.range 8).map fun b => (st, b)).filter fun p =>
        let r := s.spillRegion p.1 p.2
        s.rbOn p.1 p.2 && (s.ctx r.1).aspace == sp && meet va 1 r.2.1 r.2.2
      let merge := (s.jobsIn sp).filter fun p => meet va 1
        (s.rdN p.1 (Reg.EMB_JOB_b_MRG_LO + 32 * p.2) + 2 ^ 32 * fld (s.rd p.1 (Reg.EMB_JOB_b_MRG_HI + 32 * p.2)) 15 0)
        (4096 * s.rdN p.1 (Reg.EMB_JOB_b_MRG_SIZE + 32 * p.2))
      match hops, spill ++ merge with
      | h :: _, _ => .occ h.1 h.2
      | [], b :: _ => .buffer b.2
      | [], [] =>
        let log := (s.jobsIn sp).findSome? fun p =>
          ((s.job p.2).log.find? fun e => e.st == p.1 && meet va 1 ((s.logRegion p.1 p.2).1 + e.off) e.size).map (DataKind.log p.1 p.2)
        let row := (s.jobsIn sp).findSome? fun p =>
          (s.rowAt p.1 p.2 va).map fun r => DataKind.row p.1 p.2 r.1 r.2.1 r.2.2.1 r.2.2.2
        let dense := (s.jobsIn sp).findSome? fun p =>
          if p.1 ≠ 0 ∨ (s.job p.2).phase ≠ 1 then none
          else (List.range (s.plan 0 p.2).2).findSome? fun j =>
            let d := s.dense 0 p.2 j
            ((List.range d.blocks).find? fun k => (d.parts k).any fun q => meet va 1 q.2.1 q.2.2).map (DataKind.dense p.2 j)
        (log <|> row <|> dense).getD .other
/-- A read of a row's record has failed (R177, R215, R240): the working record is derived from its master, a master is asked of another
holder. -/
def State.rowLost (s : State) (st b : Nat) (k : Key) (w m : Nat) (master : Bool) : State :=
  let ask := fun (s : State) => s.startRepair st b k w m (decide (0 < (s.job b).phase))
  if master then ask s
  else
    match s.rederive st b k w m .ok with
    | (s, some _) => ((s.bump st Reg.EMB_REDERIVED 1).embLog st 5 0 b (s.tdir st b).1 k 0 0).raise st 0x70 2
    | (s, none) => ask s
/-- The consequence of a failed request, by what its data is (R241): a page move is abandoned; the host die takes an error completion; a
walk breaks its address space and faults its context; a row comes from its master or from another holder, and the log from its copy at
install, with no context affected; an announcement is refused; a slot's step is tainted for its spill and merge lines; any other
consumer is faulted and its step tainted. -/
def State.requestLost (s : State) (t : Tier) (ctx addr cls : Nat) : State :=
  if cls = 3 then
    match s.tr.moves.find? fun m => (s.pte (m.page / 2 ^ 27) (m.page % 2 ^ 27)).frame == addr / 2 ^ 21 with
    | some m => (s.abandonMove m).retryAtoms
    | none => s
  else if ctx = 0 ∧ s.inHost addr then
    let die := 4 + s.coldPart addr / 16
    (s.cldLog die 6 (s.coldPart addr % 16) cls 0 0 addr 0).emit (.host false [])
  else
    match s.dataKind addr with
    | .walk sp => ({ s with tr := { s.tr with broken := addOnce s.tr.broken sp } } : State).walkFault ⟨stoveOf ctx, 0, 0, ctx, 0⟩ addr
    | .row st b k w m master => s.rowLost st b k w m master
    | .log _ b e => s.badEntry b e
    | .dense b j k => s.newFix b 0 6 ⟨0, 0⟩ j k ((s.members b).filter fun l => !s.isMe l)
    | .occ st h =>
      match (s.hop st h).doing with
      | some (e, _) => s.hopRefuse st h (annOf e) (some (s.hopCfg st h).lift)
      | none => s
    | .buffer b =>
      (((s.hthLog (addr / hbmRegion) 4 ctx b 0 0 0 0).raise (addr / hbmRegion) 0x60 3)).taint b
    | .other => s.fail ctx 4 (match t with
      | .hbm _ => 9
      | .cold _ => 0xA)
/-- Cycles that a request has been late when it fails: those from the threshold to the time limit (R239, R240). -/
def State.failCycles (s : State) (t : Tier) : Nat :=
  match t with
  | .hbm st => s.rdN st Reg.HBM_TMO - s.rdN st Reg.HBM_LATE_THR
  | .cold d => s.rdN (4 + d) Reg.CLD_TMO - s.rdN (4 + d) Reg.CLD_LATE_THR
/-- REQUEST_TIMEOUT (R240): a request of context `ctx` at `addr` to pseudo-channel or package `part` is not answered in time; the
third such failure marks the part failed, and later requests to it fail at once. -/
def execRequestTimeout (t : Tier) (part ctx addr : Nat) (cls : Nat) (s : State) : Res :=
  let k := match t with
    | .hbm st => 160 * st + part
    | .cold d => 16 * d + part
  let page := match t with
    | .hbm st => (st, 0x90)
    | .cold d => (4 + d, 0xA0)
  let failed := match t with
    | .hbm _ => has s.tr.pcFail k
    | .cold _ => has s.tr.pkgFail k
  let s := s.stallAdd (lateAt t ctx) ctx 4 false 1
  if failed then .next (((s.tierLog t 5 part cls ctx 4 addr).raise page.1 page.2 5).requestLost t ctx addr cls)
  else
    let s := s.stallAdd (lateAt t ctx) ctx 4 true (s.failCycles t)
    let s := (s.tierUeCount addr).tierLog t 4 part cls ctx 4 addr
    let s := s.raise page.1 page.2 4
    let n := match t with
      | .hbm _ => tabGet (fun _ => 0) s.tr.pcTmo k + 1
      | .cold _ => tabGet (fun _ => 0) s.tr.pkgTmo k + 1
    let s : State := match t with
      | .hbm _ => { s with tr := { s.tr with pcTmo := tabSet (fun _ => 0) s.tr.pcTmo k n } }
      | .cold _ => { s with tr := { s.tr with pkgTmo := tabSet (fun _ => 0) s.tr.pkgTmo k n } }
    let s := if n = 3 then ((s.partFailed t part).tierLog t 5 part cls ctx 4 addr).raise page.1 page.2 5 else s
    .next (s.requestLost t ctx addr cls)

end Sys2Proof.Machine
end

