-- ==== Sys2Proof/Machine/Links.lean ====
section
/-! DEFINITION. The die-to-die links: retries and retrains of UCIe modules, links that go down, and packets (R263, R264, R279). -/

namespace Sys2Proof.Machine

/-- The key of a UCIe module. -/
def umodKey (die link m : Nat) : Nat := 16 * (16 * die + link) + m
/-- UCIE_FLIT_RETRY: a flit is tried again, with success or not; after 16 without it the module retrains (R263). -/
def execUcieFlitRetry (die link : Nat) (r : FlitRetry) (s : State) : Res :=
  let p := linkPage link
  let k := umodKey die link r.m
  let n := if r.ok then 0 else tabGet (fun _ => 0) s.uc.tries k + 1
  let s := (((s.bump die (Reg.UCI_CRC_RETRY + 4096 * link) 1).countC die p 1).uciLog die p 0x10 0 0 0 0 r.m).raise die p 0
  let s : State := { s with uc := { s.uc with tries := tabSet (fun _ => 0) s.uc.tries k (if n ≥ 16 then 0 else n) } }
  .next (if n ≥ 16 then s.setUmod die link r.m 3 else s)

/-- A lookup's requests to other stoves of the module whose path is down fail: the context is faulted (R241, R263). -/
def State.dropRequests (s : State) : State :=
  s.sq.flights.foldl (fun s f =>
    match f.body with
    | .lookup l =>
      if l.keys.any (fun k => !k.got && s.fb.lid == some k.owner && s.pathDown f.st k.ownerStove) then s.fail f.ctx 0x13 0xC else s
    | _ => s) s
/-- Page moves whose source or target the stove no longer reaches are abandoned (R241, R263). -/
def State.dropMoves (s : State) : State :=
  s.tr.moves.foldl (fun s m =>
    let a := 2 ^ 21 * (s.pte (m.page / 2 ^ 27) (m.page % 2 ^ 27)).frame
    if s.pathDown m.st (s.dieOf a) ∨ s.pathDown m.st (s.dieOf (2 ^ 21 * m.frame)) then s.abandonMove m else s) s

/-- LINK_RETRAIN: a retrain of a UCIe module ends; the requests outstanding over a link that has gone down fail (R263). -/
def execLinkRetrain (die link m : Nat) (ok repaired : Bool) (s : State) : Res :=
  let p := linkPage link
  let s := (s.bump die (Reg.UCI_RETRAINS + 4096 * link) 1).raise die p 1
  if ok then
    let s := (s.setUmod die link m (if repaired then 2 else 1)).uciLog die p 0x11 0 0 0 0 m
    .next (if repaired then s.raise die p 2 else s)
  else
    let s := ((s.setUmod die link m 0).uciLog die p 0x12 0 0 0 0 m).raise die p 3
    if s.endDown die link then
      .next ((((((s.countU die p 1).uciLog die p 0x13 0 0 0 0 m).raise die p 4).dropRequests).dropMoves).retryAtoms)
    else .next s

/-- BAD_PACKET: a packet reaches a receiver; word 0 of its header holds TYPE and LEN. One with a reserved TYPE, or more than 256 bytes, is
discarded, counted and logged; any other is no bad packet (R264). -/
def execBadPacket (die link : Nat) (word0 : W32) (s : State) : Res :=
  let p := linkPage link
  if fld word0 3 0 < 7 ∧ fld word0 30 22 ≤ 256 then .next s
  else .next (((s.bump die (Reg.UCI_BAD_PACKETS + 4096 * link) 1).uciLog die p 0x14 0 0 0 word0.toNat 0).raise die p 5)

end Sys2Proof.Machine
end

