-- ==== Sys2Proof/Machine/Dispatch.lean ====
section
/-! DEFINITION. The dispatch of commands to their meanings: one arm per constructor of `Instr`. -/

namespace Sys2Proof.Machine

def exec (i : Instr) (s : State) : Host.Outcome State Fault Refusal :=
  match i with
  | .powerOn => Sys2Proof.Machine.execPowerOn s
  | .modResetN lowSamples => Sys2Proof.Machine.execModResetN lowSamples s
  | .pltModReset ag die value => Sys2Proof.Machine.execPltModReset ag die value s
  | .kindlerWatchdog w => Sys2Proof.Machine.execKindlerWatchdog w s
  | .pllUnlock die => Sys2Proof.Machine.execPllUnlock die s
  | .thermalTrip die reading time => Sys2Proof.Machine.execThermalTrip die reading time s
  | .tripCooldownRestart hottest elapsedMs => Sys2Proof.Machine.execTripCooldownRestart hottest elapsedMs s
  | .domainRelease checkOk => Sys2Proof.Machine.execDomainRelease checkOk s
  | .kindlingStep pass detail straps => Sys2Proof.Machine.execKindlingStep pass detail straps s
  | .journalEraseDone => Sys2Proof.Machine.execJournalEraseDone s
  | .railFault rail => Sys2Proof.Machine.execRailFault rail s
  | .inputLockout overVolt => Sys2Proof.Machine.execInputLockout overVolt s
  | .preMate => Sys2Proof.Machine.execPreMate s
  | .mainSwitchClose presentLow bulkWithin1V => Sys2Proof.Machine.execMainSwitchClose presentLow bulkWithin1V s
  | .presentNBreak => Sys2Proof.Machine.execPresentNBreak s
  | .softReset ag die page => Sys2Proof.Machine.execSoftReset ag die page s
  | .srstDone die page => Sys2Proof.Machine.execSrstDone die page s
  | .firmwareUpdate type manifest image => Sys2Proof.Machine.execFirmwareUpdate type manifest image s
  | .clearStep ag => Sys2Proof.Machine.execClearStep ag s
  | .advanceSvn ag => Sys2Proof.Machine.execAdvanceSvn ag s
  | .preferCopy ag => Sys2Proof.Machine.execPreferCopy ag s
  | .attest ag => Sys2Proof.Machine.execAttest ag s
  | .setRrstKey ag => Sys2Proof.Machine.execSetRrstKey ag s
  | .jnlAppend ag => Sys2Proof.Machine.execJnlAppend ag s
  | .jnlRead ag => Sys2Proof.Machine.execJnlRead ag s
  | .setHostpart ag => Sys2Proof.Machine.execSetHostpart ag s
  | .haltRelease ag => Sys2Proof.Machine.execHaltRelease ag s
  | .revokeKey ag => Sys2Proof.Machine.execRevokeKey ag s
  | .getVersion req => Sys2Proof.Machine.execGetVersion req s
  | .getCapabilities req => Sys2Proof.Machine.execGetCapabilities req s
  | .negotiateAlgorithms req => Sys2Proof.Machine.execNegotiateAlgorithms req s
  | .getDigests req => Sys2Proof.Machine.execGetDigests req s
  | .getCertificate slot off len => Sys2Proof.Machine.execGetCertificate slot off len s
  | .challenge nonce => Sys2Proof.Machine.execChallenge nonce s
  | .getMeasurements index => Sys2Proof.Machine.execGetMeasurements index s
  | .resetReq payload sinceMs => Sys2Proof.Machine.execResetReq payload sinceMs s
  | .registerWrite ag die page off value be => Sys2Proof.Machine.execRegisterWrite ag die page off value be s
  | .loReadLatch ag die page off => Sys2Proof.Machine.execLoReadLatch ag die page off s
  | .hiReadLatched ag die page off => Sys2Proof.Machine.execHiReadLatched ag die page off s
  | .evtStatusClear ag die page value sameCycle => Sys2Proof.Machine.execEvtStatusClear ag die page value sameCycle s
  | .evtSet ag die page value => Sys2Proof.Machine.execEvtSet ag die page value s
  | .evtEnableWrite ag die page value => Sys2Proof.Machine.execEvtEnableWrite ag die page value s
  | .evtIrqEnWrite ag die page on => Sys2Proof.Machine.execEvtIrqEnWrite ag die page on s
  | .blockEnableClear ag die page => Sys2Proof.Machine.execBlockEnableClear ag die page s
  | .blockEnableSet ag die page => Sys2Proof.Machine.execBlockEnableSet ag die page s
  | .errPop ag die page => Sys2Proof.Machine.execErrPop ag die page s
  | .errCountClear ag die page value => Sys2Proof.Machine.execErrCountClear ag die page value s
  | .lockCfg ag die page => Sys2Proof.Machine.execLockCfg ag die page s
  | .lockEvt ag die page => Sys2Proof.Machine.execLockEvt ag die page s
  | .sourceUnmask ag die src value => Sys2Proof.Machine.execSourceUnmask ag die src value s
  | .holeAccess addr a => Sys2Proof.Machine.execHoleAccess addr a s
  | .seqLoad ag st value => Sys2Proof.Machine.execSeqLoad ag st value s
  | .gateDone st timing => Sys2Proof.Machine.execGateDone st timing s
  | .seqCommit ag st value => Sys2Proof.Machine.execSeqCommit ag st value s
  | .slotTableWrite ag st slot owner value => Sys2Proof.Machine.execSlotTableWrite ag st slot owner value s
  | .nop iss => Sys2Proof.Machine.execNop iss s
  | .marker iss value propagate cycle => Sys2Proof.Machine.execMarker iss value propagate cycle s
  | .markerUnitRecord ctx value source cycle => Sys2Proof.Machine.execMarkerUnitRecord ctx value source cycle s
  | .endI iss => Sys2Proof.Machine.execEndI iss s
  | .endStop st sq => Sys2Proof.Machine.execEndStop st sq s
  | .br iss cond a b target => Sys2Proof.Machine.execBr iss cond a b target s
  | .loop iss n target => Sys2Proof.Machine.execLoop iss n target s
  | .sli iss d imm => Sys2Proof.Machine.execSli iss d imm s
  | .salu iss fn d a b => Sys2Proof.Machine.execSalu iss fn d a b s
  | .sld iss d a => Sys2Proof.Machine.execSld iss d a s
  | .sst iss r a => Sys2Proof.Machine.execSst iss r a s
  | .semopPost iss sem value => Sys2Proof.Machine.execSemopPost iss sem value s
  | .semopSet iss sem value => Sys2Proof.Machine.execSemopSet iss sem value s
  | .matmul iss p => Sys2Proof.Machine.execMatmul iss p s
  | .matmulT iss p => Sys2Proof.Machine.execMatmulT iss p s
  | .matmulWg iss p => Sys2Proof.Machine.execMatmulWg iss p s
  | .reduceToScalar iss op d shift thresh a => Sys2Proof.Machine.execReduceToScalar iss op d shift thresh a s
  | .copy iss a b => Sys2Proof.Machine.execCopy iss a b s
  | .liftFill iss a b => Sys2Proof.Machine.execLiftFill iss a b s
  | .liftRelease iss a => Sys2Proof.Machine.execLiftRelease iss a s
  | .vop iss v => Sys2Proof.Machine.execVop iss v s
  | .lnFwd iss r => Sys2Proof.Machine.execLnFwd iss r s
  | .lnBwd iss r => Sys2Proof.Machine.execLnBwd iss r s
  | .rmsFwd iss r => Sys2Proof.Machine.execRmsFwd iss r s
  | .rmsBwd iss r => Sys2Proof.Machine.execRmsBwd iss r s
  | .smaxFwd iss r => Sys2Proof.Machine.execSmaxFwd iss r s
  | .smaxBwd iss r => Sys2Proof.Machine.execSmaxBwd iss r s
  | .lsmaxFwd iss r => Sys2Proof.Machine.execLsmaxFwd iss r s
  | .lsmaxBwd iss r => Sys2Proof.Machine.execLsmaxBwd iss r s
  | .chunk iss r => Sys2Proof.Machine.execChunk iss r s
  | .finish iss r => Sys2Proof.Machine.execFinish iss r s
  | .resetRows iss r => Sys2Proof.Machine.execResetRows iss r s
  | .embLookup iss features a b c => Sys2Proof.Machine.execEmbLookup iss features a b c s
  | .embGrad iss features a c => Sys2Proof.Machine.execEmbGrad iss features a c s
  | .embGradFragments id => Sys2Proof.Machine.execEmbGradFragments id s
  | .addN16 iss h => Sys2Proof.Machine.execAddN16 iss h s
  | .addB16 iss h => Sys2Proof.Machine.execAddB16 iss h s
  | .maxN16 iss h => Sys2Proof.Machine.execMaxN16 iss h s
  | .minN16 iss h => Sys2Proof.Machine.execMinN16 iss h s
  | .cas32 iss h => Sys2Proof.Machine.execCas32 iss h s
  | .inc32 iss h => Sys2Proof.Machine.execInc32 iss h s
  | .rbClose iss sem => Sys2Proof.Machine.execRbClose iss sem s
  | .allReduce iss c => Sys2Proof.Machine.execAllReduce iss c s
  | .reduceScatter iss c => Sys2Proof.Machine.execReduceScatter iss c s
  | .allGather iss c => Sys2Proof.Machine.execAllGather iss c s
  | .allToAll iss c => Sys2Proof.Machine.execAllToAll iss c s
  | .broadcast iss c => Sys2Proof.Machine.execBroadcast iss c s
  | .flagOr iss c => Sys2Proof.Machine.execFlagOr iss c s
  | .maxColl iss c => Sys2Proof.Machine.execMaxColl iss c s
  | .put iss c => Sys2Proof.Machine.execPut iss c s
  | .get iss c => Sys2Proof.Machine.execGet iss c s
  | .piste iss c => Sys2Proof.Machine.execPiste iss c s
  | .stepEnd iss => Sys2Proof.Machine.execStepEnd iss s
  | .instructionComplete id => Sys2Proof.Machine.execInstructionComplete id s
  | .arrayBeat st arr res => Sys2Proof.Machine.execArrayBeat st arr res s
  | .beatReexec st failed sub res => Sys2Proof.Machine.execBeatReexec st failed sub res s
  | .treePass id tile => Sys2Proof.Machine.execTreePass id tile s
  | .clearMismatchCnt ag st arr => Sys2Proof.Machine.execClearMismatchCnt ag st arr s
  | .markRetest ag st arr => Sys2Proof.Machine.execMarkRetest ag st arr s
  | .scrubRead st slice ecc syndrome => Sys2Proof.Machine.execScrubRead st slice ecc syndrome s
  | .hostScratchpadWrite addr data => Sys2Proof.Machine.execHostScratchpadWrite addr data s
  | .liftEnable ag st k value => Sys2Proof.Machine.execLiftEnable ag st k value s
  | .liftDisable ag st k value => Sys2Proof.Machine.execLiftDisable ag st k value s
  | .liftReset ag st k => Sys2Proof.Machine.execLiftReset ag st k s
  | .chairFillComplete st k chair ecc => Sys2Proof.Machine.execChairFillComplete st k chair ecc s
  | .handleWrite ag st => Sys2Proof.Machine.execHandleWrite ag st s
  | .handleRead ag st => Sys2Proof.Machine.execHandleRead ag st s
  | .handleClear ag st => Sys2Proof.Machine.execHandleClear ag st s
  | .rbAddition n ecc => Sys2Proof.Machine.execRbAddition n ecc s
  | .rbCloseCounted slot ctx => Sys2Proof.Machine.execRbCloseCounted slot ctx s
  | .rbWalk st slot => Sys2Proof.Machine.execRbWalk st slot s
  | .rbEnable ag st slot value => Sys2Proof.Machine.execRbEnable ag st slot value s
  | .rbDisable ag st slot value => Sys2Proof.Machine.execRbDisable ag st slot value s
  | .atomAddApply st w => Sys2Proof.Machine.execAtomAddApply st w s
  | .atomTimeout st w n => Sys2Proof.Machine.execAtomTimeout st w n s
  | .atomicWindowBind ag st w => Sys2Proof.Machine.execAtomicWindowBind ag st w s
  | .atomicWindowUnbind ag st w => Sys2Proof.Machine.execAtomicWindowUnbind ag st w s
  | .atomicWindowReset ag st w => Sys2Proof.Machine.execAtomicWindowReset ag st w s
  | .hthFlush ag st => Sys2Proof.Machine.execHthFlush ag st s
  | .hopperRingEnable ag st h value => Sys2Proof.Machine.execHopperRingEnable ag st h value s
  | .hopperDoorbell ag st h tail => Sys2Proof.Machine.execHopperDoorbell ag st h tail s
  | .announcementReread st h => Sys2Proof.Machine.execAnnouncementReread st h s
  | .hopperBlockWrite st h ecc => Sys2Proof.Machine.execHopperBlockWrite st h ecc s
  | .blockCoverage st => Sys2Proof.Machine.execBlockCoverage st s
  | .fragment st => Sys2Proof.Machine.execFragment st s
  | .lookup st m k epoch eval reqStove ecc => Sys2Proof.Machine.execLookup st m k epoch eval reqStove ecc s
  | .row st m k data => Sys2Proof.Machine.execRow st m k data s
  | .redirect st m k h => Sys2Proof.Machine.execRedirect st m k h s
  | .invalid st m k reason => Sys2Proof.Machine.execInvalid st m k reason s
  | .partialI st m p => Sys2Proof.Machine.execPartialI st m p s
  | .emberAdmit st slot k => Sys2Proof.Machine.execEmberAdmit st slot k s
  | .replica st m k epoch data => Sys2Proof.Machine.execReplica st m k epoch data s
  | .embJobEnable ag st slot value => Sys2Proof.Machine.execEmbJobEnable ag st slot value s
  | .embJobDisable ag st slot value => Sys2Proof.Machine.execEmbJobDisable ag st slot value s
  | .step ctx => Sys2Proof.Machine.execStep ctx s
  | .stepWaitResume ctx => Sys2Proof.Machine.execStepWaitResume ctx s
  | .verdictStart slot => Sys2Proof.Machine.execVerdictStart slot s
  | .verdict m c => Sys2Proof.Machine.execVerdict m c s
  | .verdictDone slot e unit => Sys2Proof.Machine.execVerdictDone slot e unit s
  | .verdictTimeout slot => Sys2Proof.Machine.execVerdictTimeout slot s
  | .ship st m ship => Sys2Proof.Machine.execShip st m ship s
  | .ack st m what => Sys2Proof.Machine.execAck st m what s
  | .digest st m table number shard value => Sys2Proof.Machine.execDigest st m table number shard value s
  | .commitVoteJoin slot => Sys2Proof.Machine.execCommitVoteJoin slot s
  | .vote m fault overflow => Sys2Proof.Machine.execVote m fault overflow s
  | .voteResult slot => Sys2Proof.Machine.execVoteResult slot s
  | .voteTimeout slot => Sys2Proof.Machine.execVoteTimeout slot s
  | .sweepCommit slot e => Sys2Proof.Machine.execSweepCommit slot e s
  | .swpJobEnable ag st slot value => Sys2Proof.Machine.execSwpJobEnable ag st slot value s
  | .swpJobDisable ag st slot value => Sys2Proof.Machine.execSwpJobDisable ag st slot value s
  | .swpDmpInit ag st slot value => Sys2Proof.Machine.execSwpDmpInit ag st slot value s
  | .suspectClear ag st n value => Sys2Proof.Machine.execSuspectClear ag st n value s
  | .suspLostClear ag st value => Sys2Proof.Machine.execSuspLostClear ag st value s
  | .tmDecay st => Sys2Proof.Machine.execTmDecay st s
  | .pageMoveComplete n ecc => Sys2Proof.Machine.execPageMoveComplete n ecc s
  | .patrolScrub t unit ecc syndrome => Sys2Proof.Machine.execPatrolScrub t unit ecc syndrome s
  | .accessLate t ctx cause cycles => Sys2Proof.Machine.execAccessLate t ctx cause cycles s
  | .requestTimeout t part ctx addr cls => Sys2Proof.Machine.execRequestTimeout t part ctx addr cls s
  | .create ag st r => Sys2Proof.Machine.execCreate ag st r s
  | .lease ag st r => Sys2Proof.Machine.execLease ag st r s
  | .start ag st r => Sys2Proof.Machine.execStart ag st r s
  | .stop ag st r => Sys2Proof.Machine.execStop ag st r s
  | .resume ag st r => Sys2Proof.Machine.execResume ag st r s
  | .release ag st r => Sys2Proof.Machine.execRelease ag st r s
  | .destroy ag st r => Sys2Proof.Machine.execDestroy ag st r s
  | .map ag st r => Sys2Proof.Machine.execMap ag st r s
  | .unmap ag st r => Sys2Proof.Machine.execUnmap ag st r s
  | .hint ag st r => Sys2Proof.Machine.execHint ag st r s
  | .contextBind ctx => Sys2Proof.Machine.execContextBind ctx s
  | .rebindComplete ctx us => Sys2Proof.Machine.execRebindComplete ctx us s
  | .loanCut ctx => Sys2Proof.Machine.execLoanCut ctx s
  | .borrowerStopped ctx => Sys2Proof.Machine.execBorrowerStopped ctx s
  | .powerStateEnter st p => Sys2Proof.Machine.execPowerStateEnter st p s
  | .powerExit st => Sys2Proof.Machine.execPowerExit st s
  | .wake st heldCycles => Sys2Proof.Machine.execWake st heldCycles s
  | .coldEnter ag => Sys2Proof.Machine.execColdEnter ag s
  | .coldExit source => Sys2Proof.Machine.execColdExit source s
  | .throttleLevelChange st temp power => Sys2Proof.Machine.execThrottleLevelChange st temp power s
  | .thermalHold st => Sys2Proof.Machine.execThermalHold st s
  | .thermalGateEnd st => Sys2Proof.Machine.execThermalGateEnd st s
  | .ucieFlitRetry die link r => Sys2Proof.Machine.execUcieFlitRetry die link r s
  | .linkRetrain die link m ok repaired => Sys2Proof.Machine.execLinkRetrain die link m ok repaired s
  | .retrain ag die link => Sys2Proof.Machine.execRetrain ag die link s
  | .badPacket die link word0 => Sys2Proof.Machine.execBadPacket die link word0 s
  | .ringWrite ag st => Sys2Proof.Machine.execRingWrite ag st s
  | .ringRead ag st => Sys2Proof.Machine.execRingRead ag st s
  | .doorbell ag ctx value => Sys2Proof.Machine.execDoorbell ag ctx value s
  | .descriptorFetch ctx => Sys2Proof.Machine.execDescriptorFetch ctx s
  | .descriptorReread ctx => Sys2Proof.Machine.execDescriptorReread ctx s
  | .run ctx => Sys2Proof.Machine.execRun ctx s
  | .inlineI ctx => Sys2Proof.Machine.execInlineI ctx s
  | .post ctx => Sys2Proof.Machine.execPost ctx s
  | .note ctx => Sys2Proof.Machine.execNote ctx s
  | .completionRecordAck ctx => Sys2Proof.Machine.execCompletionRecordAck ctx s
  | .flashMailboxStore ag st data => Sys2Proof.Machine.execFlashMailboxStore ag st data s
  | .stopNow st => Sys2Proof.Machine.execStopNow st s
  | .stopNowComplete ctx => Sys2Proof.Machine.execStopNowComplete ctx s
  | .lossScaleOverride st => Sys2Proof.Machine.execLossScaleOverride st s
  | .standinDirective st => Sys2Proof.Machine.execStandinDirective st s
  | .standinDone => Sys2Proof.Machine.execStandinDone s
  | .ntTimeout => Sys2Proof.Machine.execNtTimeout s
  | .peerAccess port addr write d => Sys2Proof.Machine.execPeerAccess port addr write d s
  | .portTraining p partner => Sys2Proof.Machine.execPortTraining p partner s
  | .portRetrain ag p => Sys2Proof.Machine.execPortRetrain ag p s
  | .flit p h b => Sys2Proof.Machine.execFlit p h b s
  | .portDown p => Sys2Proof.Machine.execPortDown p s
  | .getRequest m addr q => Sys2Proof.Machine.execGetRequest m addr q s
  | .putRequest m addr data => Sys2Proof.Machine.execPutRequest m addr data s
  | .data m id bytes => Sys2Proof.Machine.execData m id bytes s
  | .unreachable m st k id => Sys2Proof.Machine.execUnreachable m st k id s
  | .cdata m op count chunk level node bytes => Sys2Proof.Machine.execCdata m op count chunk level node bytes s
  | .collectiveTimeout slot cseq => Sys2Proof.Machine.execCollectiveTimeout slot cseq s
  | .abort m => Sys2Proof.Machine.execAbort m s
  | .nameUpdate lid rink seat version oldRink oldSeat from_ => Sys2Proof.Machine.execNameUpdate lid rink seat version oldRink oldSeat from_ s
  | .nameAck lid rink seat version conflict => Sys2Proof.Machine.execNameAck lid rink seat version conflict s
  | .seatState rink seat state lid => Sys2Proof.Machine.execSeatState rink seat state lid s
  | .linkState rink rink2 up => Sys2Proof.Machine.execLinkState rink rink2 up s
  | .pisteLoad ag value => Sys2Proof.Machine.execPisteLoad ag value s
  | .pisteSwitch slot => Sys2Proof.Machine.execPisteSwitch slot s
  | .drain ag => Sys2Proof.Machine.execDrain ag s
  | .colJobEnable ag slot value => Sys2Proof.Machine.execColJobEnable ag slot value s
  | .colJobDisable ag slot value => Sys2Proof.Machine.execColJobDisable ag slot value s
  | .tempHigh die temp => Sys2Proof.Machine.execTempHigh die temp s
  | .berHigh p measured => Sys2Proof.Machine.execBerHigh p measured s

end Sys2Proof.Machine
end

