-- ==== Sys2Proof/Safety.lean ====
section
/-! DEFINITION. The terms in which statements speak: completion, what a command leaves alone, when a register write is taken,
when an instruction issues, and the canonical form of memory. -/

namespace Sys2Proof.Machine

/-- The command completes in state `t`. -/
def Runs (c : Instr) (s t : State) : Prop := exec c s = .next t

/-- The parts of the state. -/
inductive Part where
  | pg | mem | cx | sq | sp | ar | rw | ht | ca | em | sw | tr | uc | fb | kd | out | pending | free
deriving DecidableEq, Repr

/-- Do two states agree on a part? -/
def samePart (s t : State) : Part → Prop
  | .pg => t.pg = s.pg
  | .mem => t.mem = s.mem
  | .cx => t.cx = s.cx
  | .sq => t.sq = s.sq
  | .sp => t.sp = s.sp
  | .ar => t.ar = s.ar
  | .rw => t.rw = s.rw
  | .ht => t.ht = s.ht
  | .ca => t.ca = s.ca
  | .em => t.em = s.em
  | .sw => t.sw = s.sw
  | .tr => t.tr = s.tr
  | .uc => t.uc = s.uc
  | .fb => t.fb = s.fb
  | .kd => t.kd = s.kd
  | .out => t.out = s.out
  | .pending => t.pending = s.pending
  | .free => t.free = s.free

/-- Every part but those listed is unchanged. -/
structure Frame (touched : List Part) (s t : State) : Prop where
  keep : ∀ p, p ∉ touched → samePart s t p

/-- Every page header but that of one page is unchanged. -/
def OtherHeaders (s t : State) (die page : Nat) : Prop :=
  ∀ d p, 4096 * canonDie d p + p ≠ 4096 * canonDie die page + page → t.hdr d p = s.hdr d p

/-- The state in which a page takes a write: one to an STK page brings the module out of Cold (R256). -/
def State.warmed (s : State) (die page : Nat) : State := if pageType die page = 0x0B then s.leaveCold else s

/-- What accesses to memory may touch beside its bytes: the caches; the tiers, where page entries count accesses, units of memory are
renewed and writes wait for a page's move; a stove's stoker, where the access wakes it (R142, R228, R231, R232, R235, R255). -/
def reachParts : List Part := [.ca, .tr, .cx]
/-- Parts that a command may touch, and those that its accesses to memory may. -/
abbrev reaching (l : List Part) : List Part := l ++ reachParts

/-- Nothing keeps an instruction from the data of the views it reads and writes, of the operands that it reads tile by tile, and of
descriptors in memory (R106, R143, R228, R240, R241, R263). -/
abbrev State.clearTo (s : State) (x : Src) (ins outs chain : List View) (descs : List Opd) : Prop :=
  s.memBad x.st x.ctx ((s.descRanges x descs ++ ins.flatMap View.vranges) ++ chain.flatMap View.vranges) false = none ∧
    s.memBad x.st x.ctx (outs.flatMap View.vranges) true = none ∧
    s.spdBad x.ctx (ins ++ chain) false = none ∧ s.spdBad x.ctx outs true = none

/-- An element of a slot's reduction buffer lies in a resident line of its home stove (R144). -/
abbrev State.residentElem (s : State) (b e : Nat) : Prop := rbLocal e / 64 < s.rbResident (rbHome e) b

/-- A page takes a write of an agent: the page exists, the agent reaches it, no block reset runs (R312, R336, R348). -/
abbrev State.takes (s : State) (ag : Agent) (die page : Nat) (v : W32) : Prop := (s.pageGuard ag die page v).2 = true

/-- A register at offset 0x040 or above takes a write of an agent: the page does, and no lock ignores it (R346). -/
abbrev State.accepts (s : State) (ag : Agent) (die page : Nat) (v : W32) : Prop := (s.regGuard ag die page v).2 = true

/-- An instruction whose operands are `ops` issues for context `c`: its sequencer runs and is not held, its word is readable, its
semaphore is there if it waits for one, no chair operand waits, and the stove is Lit (R86, R87, R98, R110, R255). -/
abbrev State.canIssue (s : State) (i : Iss) (c : Nat) (ops : List Opd) : Prop :=
  (s.seq i.st i.sq).ctx = some c ∧ 1 ≤ (s.seq i.st i.sq).state ∧ (s.seq i.st i.sq).state ≤ 3 ∧ s.held c = false ∧
    (s.seq i.st i.sq).atEnd = false ∧ (s.seq i.st i.sq).switchTo = none ∧ s.lit i.st = true ∧ i.ps ≠ .ue ∧
    (i.waitEn = true → (s.ctx c).semReady i.waitSem i.sq = true) ∧ ops.findSome? (s.chairWaits c) = none

/-- The memory is in canonical form. -/
abbrev MemWf (s : State) : Prop := tabWf (memDef s.seeds) s.mem = true

/-- Everything outside the kindler and its own page stands at its reset value, memory lists nothing, and the cause of the reset
is recorded (R307, R308). -/
structure DiesReset (t : State) (cause : Nat) : Prop where
  cause : t.kd.cause = cause
  mem : t.mem = []
  cx : t.cx = CtxSt.reset
  sq : t.sq = SeqSt.reset
  sp : ∃ n, t.sp = { SpdSt.reset with seed := n }
  ar : t.ar = ArrSt.reset
  rw : t.rw = RowSt.reset
  ht : t.ht = HthSt.reset
  ca : t.ca = CacheSt.reset
  em : t.em = EmbSt.reset
  sw : t.sw = SwpSt.reset
  tr : ∃ n, t.tr = { TierSt.reset with seed := n }
  uc : t.uc = UciSt.reset
  fb : t.fb = FabSt.reset
  regs : ∀ d r, d < 7 → r < 0x1000000 → t.rd d r = regReset (regKey d r)
  hdrs : ∀ d p, d < 7 → p < 4096 → t.hdr d p = {}

/-- The kindler's command window holds bytes from its start (R334). -/
abbrev State.winHolds (s : State) (b : List Byte) : Prop :=
  ∀ k, 4 * k < min b.length 1024 → s.rd 7 (Reg.KDL_WIN + 4 * k) = w32 (leAt b (4 * k) 4)

/-- The kindler takes a command of an agent: it answers, and its page takes the write (R314, R334). -/
abbrev State.kdlTakes (s : State) (ag : Agent) : Prop := s.answers = true ∧ s.accepts ag 7 0x100 0x80000000

/-- The sequencer as an issue leaves it: running, its instruction counted, at the next instruction (R82, R84). -/
def Seq.advance (q : Seq) (i : Iss) : Seq :=
  let p := q.pc + if i.opx then 32 else 0
  { q with
    state := 1, waitKind := 0, waitNum := 0, waited := 0, issued := (q.issued + if i.opx then 2 else 1) % 2 ^ 32
    pc := (loopNext q.pc (p + 32) q.loops).1, loops := (loopNext q.pc (p + 32) q.loops).2 }

/-- A semaphore of the context after an issue has taken its one (R86). -/
def State.semTaken (s : State) (i : Iss) (c k : Nat) : Nat :=
  if i.waitEn = true ∧ k = i.waitSem then (s.ctx c).sem k - 1 else (s.ctx c).sem k

/-- A count after the post of an instruction (R86). -/
def semPosted (i : Iss) (k n : Nat) : Nat := if i.postEn = true ∧ k = i.postSem then satAdd 65535 n 1 else n

/-- What an issue leaves of the streams: the sequencer is `q`, but that an overflowing post may mark an evaluation; every other
sequencer, slot, gate and image is as before; of contexts only the semaphores of `c` and their waiters change, to `sem`. -/
structure Issues (s t : State) (i : Iss) (c : Nat) (q : Seq) (sem : Nat → Nat) : Prop where
  seq : t.seq i.st i.sq = { q with evalInvalid := (t.seq i.st i.sq).evalInvalid }
  seqs : ∀ st n, 64 * st + n ≠ 64 * i.st + i.sq → t.seq st n = s.seq st n
  slots : t.sq.slots = s.sq.slots
  gates : t.sq.gates = s.sq.gates
  store : t.sq.store = s.sq.store
  ctx : t.ctx c = { s.ctx c with sems := (t.ctx c).sems, waiters := (t.ctx c).waiters }
  sem : ∀ k, (t.ctx c).sem k = sem k
  ctxs : ∀ d, d ≠ c → t.ctx d = s.ctx d

/-- The state in which an instruction's operands are resolved: it has issued (R82, R86). -/
def State.atIssue (s : State) (i : Iss) (op c : Nat) : State := (s.fetched i).issued i (s.srcOf i op c)

/-- An instruction has entered its unit's queue as flight `f`: its sequencer has gone on, and the flight carries the instruction's
post. -/
structure Enters (s t : State) (i : Iss) (c : Nat) (f : Flight) : Prop where
  pc : (t.seq i.st i.sq).pc = ((s.seq i.st i.sq).advance i).pc
  loops : (t.seq i.st i.sq).loops = ((s.seq i.st i.sq).advance i).loops
  issued : (t.seq i.st i.sq).issued = ((s.seq i.st i.sq).advance i).issued
  flights : t.sq.flights = s.sq.flights ++ [f]
  id : f.id = s.sq.nextId
  src : f.st = i.st ∧ f.sq = i.sq ∧ f.ctx = c
  post : f.post = i.post

/-- An instruction has entered its unit's queue, and no other sequencer has changed. -/
structure Launches (s t : State) (i : Iss) (c : Nat) (f : Flight) : Prop extends Enters s t i c f where
  seqs : ∀ st n, 64 * st + n ≠ 64 * i.st + i.sq → t.seq st n = s.seq st n

/-- Every sequencer but one is as it was, but for slips that what it has in flight has met (R96). -/
def OtherSeqs (s t : State) (i : Iss) : Prop :=
  ∀ st n, 64 * st + n ≠ 64 * i.st + i.sq →
    t.seq st n = { s.seq st n with slips := (t.seq st n).slips, evalInvalid := (t.seq st n).evalInvalid }

/-- Scalar registers are unchanged. -/
def SameRegs (s t : State) (i : Iss) : Prop := ∀ n, (t.seq i.st i.sq).sreg n = (s.seq i.st i.sq).sreg n

/-- Memory outside some views of a context is unchanged, byte by byte. -/
def MemOutside (s t : State) (c : Nat) (l : List View) : Prop :=
  ∀ a, (∀ v ∈ l, ∀ r ∈ v.parts, ∀ j, j < r.2 → a ≠ s.byteAddr c v (r.1 + j)) → t.mrd a = s.mrd a

/-- A product's views have the shape that it was issued with (R50, R52, R56). -/
def Product.Fits (p : Product) : Prop :=
  (p.c.rows, p.c.cols) = p.outAt p.m p.n ∧ (∀ v, p.d = some v → (v.rows, v.cols) = p.outAt p.m p.n) ∧
    (∀ v, p.tree = some v → v.place = .spd ∧ v.rows = 1 ∧ v.cols = p.segs * p.m * p.n ∧ v.fmt = .n16)

/-- Flights are numbered below the next number. -/
abbrev FlightsNumbered (s : State) : Prop := ∀ f ∈ s.sq.flights, f.id < s.sq.nextId

/-- Two views of a context share no byte. -/
def State.apart (s : State) (c : Nat) (v w : View) : Prop :=
  ∀ r ∈ v.parts, ∀ q ∈ w.parts, ∀ j k, j < r.2 → k < q.2 → s.byteAddr c v (r.1 + j) ≠ s.byteAddr c w (q.1 + k)

/-- The step in progress of a slot has been resolved with an outcome (R16, R18, R145, R208, R294): it is over, the next step has
its number, the buffers' generation has advanced, and the dampers stand as the outcome leaves them. -/
structure Resolved (s t : State) (b outcome : Nat) : Prop where
  done : (t.job b).inStep = false
  result : (t.job b).outcome = outcome
  step : (t.job b).step = if outcome = 3 then (s.job b).step else ((s.job b).step + 1) % 2 ^ 48
  gen : (t.rb b).gen = ((s.rb b).gen + 1) % 65536
  pass : (t.rb b).pass = 0
  merge : ∀ m ∈ t.em.merge, m.slot ≠ b
  cseq : (t.cjob b).cseq = 0x80000000
  damper : ∀ st, st < 4 → t.damper st b = (s.dampStove st b outcome).damper st b

/-- A stoker takes a command record of an agent: its page takes the write, no command is in progress, unused bits are zero, and the
context is its own (R258, R259). -/
structure StkTakes (s : State) (ag : Agent) (st : Nat) (r : StkRec) : Prop where
  access : s.leaveCold.accepts ag st 0xB0 1
  ready : s.leaveCold.stkBusy st = false
  clean : r.junk = false
  home : stoveOf r.ctx = st

/-- A stoker command has completed: DONE with its context, CMD_DONE raised, the module out of Cold (R256, R258). -/
structure StkDone (t : State) (st c : Nat) : Prop where
  status : t.rd st Reg.STK_CMD_STATUS = pack [(2, 0), (c, 16)]
  event : bitOf (t.hdr st 0xB0).evStatus.toNat 0 = true
  lit : t.cx.cold = false

/-- The memory takes the completion record of a ring's descriptor in progress, where that asks for one (R241, R263, R271). -/
abbrev State.recordGoes (s : State) (c : Nat) : Prop :=
  ∀ d, (s.ring c).cur = some d → bitOf (leAt d 1 1) 0 = true →
    (s.addrWrite (stoveOf c) ((s.ring c).cplBase + 16 * (s.ring c).curIndex) (List.replicate 16 0)).2 = none

/-- No atomic operation waits for a page: those in flight wait for an ordinal alone (R153, R155). -/
abbrev State.noWaitingAtoms (s : State) (page : Nat) : Prop :=
  ∀ f ∈ s.sq.flights, ∀ a, f.body = .atom a → a.op < 2 ∧ s.pagesReady f.ctx a.pages = true ∧
    ∀ k ∈ a.pages, 2 ^ 27 * (s.ctx f.ctx).aspace + k ≠ page

/-- The ports' page takes a write of FAB_CTRL.RETRAIN of an agent, and the port is enabled (R305). -/
abbrev State.portTakes (s : State) (ag : Agent) (p : Nat) : Prop :=
  s.accepts ag (fabDie p) (fabPage p) 2 ∧ s.portOn p = true

/-- A ROWOP executes normally (R86, R94, R98, R114, R128 to R130, R133, R148): it issues, it has something to do, its operands and its
handle pass every check, and nothing keeps their data from it. -/
structure RowReady (s : State) (f : RowFn) (i : Iss) (r : RowOps) (c : Nat) : Prop where
  word : i.rd = .ok
  issue : s.canIssue i c ((f.role r).rowsIn ++ [(f.role r).gamma])
  shape : let n := (s.atIssue i 0x30 c).rowShape (s.srcOf i 0x30 c) f r
    f = .reset ∨ (n.1 ≠ 0 ∧ n.2 ≠ 0)
  checks : let x := s.srcOf i 0x30 c
    let u := s.atIssue i 0x30 c
    let n := u.rowShape x f r
    u.rowOpdCheck x (u.rowViews x f r n) n = none ∧ u.rowCheck x f r n = none
  data : let x := s.srcOf i 0x30 c
    let u := s.atIssue i 0x30 c
    let v := u.rowViews x f r (u.rowShape x f r)
    u.clearTo x (v.ins.map (·.2)) (v.outs.map (·.2)) [] ((v.ins ++ v.outs).map (·.1))

/-- What a ROWOP leaves of memory at once, and the scratchpad writes that wait for its completion (R95, R130 to R134). -/
abbrev State.rowOutputs (s : State) (f : RowFn) (i : Iss) (r : RowOps) (c : Nat) : State × List (Nat × Byte) :=
  let x := s.srcOf i 0x30 c
  let u := s.atIssue i 0x30 c
  let n := u.rowShape x f r
  u.defer (u.rowStores x (f.role r) n (u.rowRun x f r n)) c ((u.rowViews x f r n).outs.map (·.2))

/-- A ROWOP has executed: it has entered its row engine's queue with its outputs and its handle's records, which its function gives and
which the ROWOPs behind it in the queue read; the records as they stand change when it completes (R128 to R134, R136). -/
structure RowDone (s t : State) (f : RowFn) (i : Iss) (r : RowOps) (c : Nat) : Prop where
  queued : ∃ fl, Launches s t i c fl ∧ fl.writes = (s.rowOutputs f i r c).2 ∧
    let x := s.srcOf i 0x30 c
    let u := s.atIssue i 0x30 c
    fl.body = .row (u.rowEngine x f r) (if f.usesHandle then some r.handle else none)
      ((u.rowRun x f r (u.rowShape x f r)).recs.map fun w => (r.rowOff + w.1, w.2)) (f == .reset)
  memory : t.mem = (s.rowOutputs f i r c).1.mem
  kept : t.rw.recs = s.rw.recs
  records : let x := s.srcOf i 0x30 c
    let u := s.atIssue i 0x30 c
    if f = .reset then ∀ k, t.recNow i.st r.handle k = 0
    else ∀ w ∈ (u.rowRun x f r (u.rowShape x f r)).recs, t.recNow i.st r.handle (r.rowOff + w.1) = w.2

/-- A COLL that moves data executes normally (R86, R94, R98, R294, R295): it issues, no check fails, nothing keeps its data from it, the step
has met no ABORT, no collective of the step has its number yet, and an evaluation context writes no job memory (R20). -/
structure CollReady (s : State) (op : Nat) (i : Iss) (o : CollOps) (c : Nat) : Prop where
  word : i.rd = .ok
  issue : s.canIssue i c []
  numbered : FlightsNumbered s
  checks : let x := s.srcOf i 0x40 c
    let u := s.atIssue i 0x40 c
    let v := u.collViews x op o
    u.collFails x op o v = none ∧ u.collCheck x (s.ctx c).slot op v o.far = none
  data : let x := s.srcOf i 0x40 c
    let u := s.atIssue i 0x40 c
    let v := u.collViews x op o
    u.mergeView c v.a = false ∧ u.mergeView c v.b = false ∧ u.clearTo x [v.a] [v.b] [] [o.a, o.b]
  step : (s.job (s.ctx c).slot).abortSeen = false
  fresh : ∀ f ∈ s.sq.flights, ∀ p, f.body = .coll p →
    ¬(p.slot = (s.ctx c).slot ∧ p.step = (s.job (s.ctx c).slot).step ∧ p.cseq = (s.cjob (s.ctx c).slot).cseq)
  guard : let u := s.atIssue i 0x40 c
    let v := u.collViews (s.srcOf i 0x40 c) op o
    (s.ctx c).isEval = false ∨ ((v.b.size = 0 ∨ v.b.place ≠ .rb) ∧ u.guardedView c v.b = false ∧
      (op = 7 → u.jobHit (u.dirCtx (s.ctx c).slot) v.remote (u.remoteLen c op v) = false))

/-- A COLL that moves data has executed: it has entered the collective engine with its views under the slot's next number, and only its
destination has changed (R294, R295). -/
structure CollDone (s t : State) (op : Nat) (i : Iss) (o : CollOps) (c : Nat) : Prop where
  queued : ∃ f, Launches s t i c f ∧ (f.body = .plain ∨ ∃ p : CollF, f.body = .coll p ∧ p.op = op ∧
    p.cseq = (s.cjob (s.ctx c).slot).cseq ∧ p.slot = (s.ctx c).slot ∧
    p.a = ((s.atIssue i 0x40 c).collViews (s.srcOf i 0x40 c) op o).a ∧ p.b = ((s.atIssue i 0x40 c).collViews (s.srcOf i 0x40 c) op o).b)
  number : (t.cjob (s.ctx c).slot).cseq = ((s.cjob (s.ctx c).slot).cseq + 1) % 2 ^ 32
  memory : let v := ((s.atIssue i 0x40 c).collViews (s.srcOf i 0x40 c) op o).b
    v.place ≠ .rb → MemOutside s t c [v]

end Sys2Proof.Machine
end

