-- ==== Sys2Proof/Certificates/Slice0/Obligations.lean ====
section
/-! DEFINITION. The statements for the provers, each on one family of commands or one shared matter of the machine. -/

section Statements

open Sys2Proof Sys2Proof.Machine

/-- Events and interrupts of a page (R341, R342, R346, R347). EVT_STATUS is written one to clear, and a bit that hardware sets in
the same cycle stays set; EVT_SET, from the privileged agents, sets the bits that the page defines; EVT_ENABLE and EVT_IRQ_EN
take the value written. Nothing but the page's header, interrupts and pending messages changes.
Error records, error counts and locks of a page (R344 to R346). ERR_POP discards the oldest record; a write to ERR_COUNT
clears both counts; LOCK_CFG and LOCK_EVT stay set once written. -/
def Obligations.PageHeader : Prop :=
  (∀ ag die page v same s, s.takes ag die page v → hasEvents page = true →
    ∃ t, Runs (.evtStatusClear ag die page v same) s t ∧
      (t.hdr die page).evStatus =
        ((s.hdr die page).evStatus &&& ~~~v) ||| (same &&& w32 (2 ^ eventBits page - 1)) ∧
      ((t.hdr die page).evStatus = 0 → (t.hdr die page).evFirst = 0) ∧
      OtherHeaders s t die page ∧ Frame [.pg, .out] (s.warmed die page) t) ∧
  (∀ ag die page v s, s.takes ag die page v → hasEvents page = true → ag.priv = true → s.lockedEvt ag die page = false →
    ∃ t, Runs (.evtSet ag die page v) s t ∧
      (t.hdr die page).evStatus = (s.hdr die page).evStatus ||| (v &&& w32 (2 ^ eventBits page - 1)) ∧
      OtherHeaders s t die page ∧ Frame [.pg, .out] (s.warmed die page) t) ∧
  (∀ ag die page v s, s.takes ag die page v → hasEvents page = true → s.lockedEvt ag die page = false →
    ∃ t, Runs (.evtEnableWrite ag die page v) s t ∧
      t.hdr die page = { s.hdr die page with evEnable := v &&& w32 (2 ^ eventBits page - 1) } ∧
      OtherHeaders s t die page ∧ Frame [.pg, .out] (s.warmed die page) t) ∧
  (∀ ag die page on s, s.takes ag die page (s.ctrlWord die page none (some on)) → s.lockedEvt ag die page = false →
    ∃ t, Runs (.evtIrqEnWrite ag die page on) s t ∧
      t.hdr die page = { s.hdr die page with irqEn := on } ∧
      OtherHeaders s t die page ∧ Frame [.pg, .out] (s.warmed die page) t) ∧
  (∀ ag die page s, s.takes ag die page 8 → (s.hdr die page).errs ≠ [] →
    ∃ t, Runs (.errPop ag die page) s t ∧ (t.hdr die page).errs = (s.hdr die page).errs.tail ∧
      ((s.hdr die page).errs.tail = [] → (t.hdr die page).errLost = false) ∧
      ((s.hdr die page).errs.tail ≠ [] → (t.hdr die page).errLost = (s.hdr die page).errLost) ∧
      OtherHeaders s t die page ∧ Frame [.pg] (s.warmed die page) t) ∧
  (∀ ag die page v s, s.takes ag die page v → hasErrLog page = true →
    ∃ t, Runs (.errCountClear ag die page v) s t ∧ t.hdr die page = { s.hdr die page with countC := 0, countU := 0 } ∧
      OtherHeaders s t die page ∧ Frame [.pg] (s.warmed die page) t) ∧
  (∀ ag die page s, s.takes ag die page 1 → ag.trusted = true →
    ∃ t, Runs (.lockCfg ag die page) s t ∧ t.hdr die page = { s.hdr die page with lockCfg := true } ∧
      OtherHeaders s t die page ∧ Frame [.pg] (s.warmed die page) t) ∧
  (∀ ag die page s, s.takes ag die page 2 → ag.trusted = true →
    ∃ t, Runs (.lockEvt ag die page) s t ∧ t.hdr die page = { s.hdr die page with lockEvt := true } ∧
      OtherHeaders s t die page ∧ Frame [.pg] (s.warmed die page) t)

/-- ENABLE and the software reset of a block (R312, R313, R339): an idle block is disabled and enabled on all its pages; a reset
returns its registers to their Reset values, but for the ARR counters of R67, holds RESET_BUSY until it is done, and leaves cause 5
on its die and in the kindler. -/
def Obligations.BlockControl : Prop :=
  (∀ ag die page s, s.takes ag die page (s.ctrlWord die page (some false) none) → ag.priv = true → neverIdle die page = false → s.blockOn die page = true →
    s.lockedCfg ag die page = false → s.idle die page = true →
    ∃ t, Runs (.blockEnableClear ag die page) s t ∧
      (∀ p ∈ blockPages die page, t.hdr die p = { s.hdr die p with enable := false }) ∧ Frame [.pg] (s.warmed die page) t) ∧
  (∀ ag die page s, s.takes ag die page 2 →
    ∃ t, Runs (.blockEnableSet ag die page) s t ∧
      (∀ p ∈ blockPages die page, t.hdr die p = { s.hdr die p with enable := true }) ∧ Frame [.pg] (s.warmed die page) t) ∧
  (∀ ag die page s, s.takes ag die page (s.ctrlWord die page none none ||| 1) →
    (ag = .kindler ∨ ∀ p ∈ blockPages die page, (s.hdr die p).lockCfg = false) → neverIdle die page = false →
    s.idle die page = true →
    ∃ t, Runs (.softReset ag die page) s t ∧
      (∀ p ∈ blockPages die page, (t.hdr die p).busy = true ∧ (t.hdr die p).lockCfg = (s.hdr die p).lockCfg ∧ (t.hdr die p).lockEvt = (s.hdr die p).lockEvt ∧
        (t.hdr die p).evStatus = 0 ∧ (t.hdr die p).errs = []) ∧
      (∀ p ∈ blockPages die page, ∀ off, off < 4096 → ¬ (die < 4 ∧ keptReg p off = true) →
        t.rd die (4096 * p + off) = regReset (regKey die (4096 * p + off))) ∧
      (∀ d ∈ blockDies die page ++ [7], d ∈ t.kd.late) ∧
      Frame [.pg, .cx, .sq, .sp, .rw, .ht, .ca, .em, .sw, .fb, .kd] s t) ∧
  (∀ die page s, (s.hdr die page).busy = true →
    ∃ t, Runs (.srstDone die page) s t ∧ (∀ p ∈ blockPages die page, (t.hdr die p).busy = false) ∧
      t.rdN die Reg.PLT_SRST_DONE = satAdd 0xFFFFFFFF (s.rdN die Reg.PLT_SRST_DONE) 1 ∧ Frame [.pg, .out] s t)

/-- Register writes (R335, R346): a whole-word write of a plain register stores the word and nothing else; a partial write and a
write to a locked page change no register. The statement takes SEQ_LOAD_SRC_LO as the plain register.
Reads of a 64-bit pair (R347): a read of _LO answers its word and latches _HI for the agent's class; the class's next read of
_HI answers the latched word, whatever _HI is by then.
Interrupt source entries and holes (R225, R277, R348). A write takes MASK and the target and keeps PENDING; it sends a pending
message that it unmasks. An access to a hole changes no byte and no register but the error record. -/
def Obligations.RegisterAccess : Prop :=
  (∀ ag die v s, die < 4 → s.accepts ag die 0x10 v →
    ∃ t, Runs (.registerWrite ag die 0x10 0x40 v 15) s t ∧ t.rd die Reg.SEQ_LOAD_SRC_LO = v ∧
      (∀ d r, regKey d r ≠ regKey die Reg.SEQ_LOAD_SRC_LO → t.rd d r = s.rd d r) ∧ Frame [.pg] s t) ∧
  (∀ ag die page off v be s, s.takes ag die page v → be ≠ 15 → die < 7 →
    ∃ t, Runs (.registerWrite ag die page off v be) s t ∧ (∀ d r, t.rd d r = s.rd d r) ∧ Frame [.pg] (s.warmed die page) t) ∧
  (∀ ag die page off v s, s.takes ag die page v → s.lockedCfg ag die page = true → 0x40 ≤ off →
    doorbellAt die page off = none → ¬ (die < 4 ∧ page = 0xC8) →
    ∃ t, Runs (.registerWrite ag die page off v 15) s t ∧ (∀ d r, t.rd d r = s.rd d r) ∧ Frame [.pg] (s.warmed die page) t) ∧
  (∀ ag die page off s, reaches ag die = true → pageExists die page = true → roPair die page off = some (off + 4) →
    s.agentUp ag = true → s.linkUp ag die = true → s.pageUp die page = true →
    ∃ t, Runs (.loReadLatch ag die page off) s t ∧ t.out = .regRead ag.cls (s.readReg die page off) :: s.out ∧
      Frame [.pg, .out] s t ∧
      ∀ u : State, u.pg.latch = t.pg.latch → (u.hdr die page).busy = false → u.agentUp ag = true → u.linkUp ag die = true →
        u.pageUp die page = true →
        ∃ w, Runs (.hiReadLatched ag die page (off + 4)) u w ∧
          w.out = .regRead ag.cls (s.readReg die page (off + 4)) :: u.out ∧ Frame [.out] u w) ∧
  (∀ ag die src v s, s.accepts ag die 0xC9 v →
    let k := Reg.UCI_SRC_p_CTRL + 8 * src
    (bitOf (s.rd die k).toNat 1 = true ∧ bitOf v.toNat 0 = false →
      ∃ t, Runs (.sourceUnmask ag die src v) s t ∧ t.rd die k = v &&& 0xF0 ∧
        t.out = .irq (s.rdAddr die (Reg.UCI_TGT_t_LO + 16 * fld v 7 4) (Reg.UCI_TGT_t_HI + 16 * fld v 7 4))
          (s.rd die (Reg.UCI_SRC_p_DATA + 8 * src)) :: s.out ∧ Frame [.pg, .out] s t) ∧
    (¬ (bitOf (s.rd die k).toNat 1 = true ∧ bitOf v.toNat 0 = false) →
      ∃ t, Runs (.sourceUnmask ag die src v) s t ∧ t.rd die k = (v &&& 0xF1) ||| (s.rd die k &&& 2) ∧ Frame [.pg] s t)) ∧
  (∀ addr w data len e s, ¬ s.inMem addr = true → (addr < regBase ∨ regBase + 0x08000000 ≤ addr ∨
    pageExists ((addr - regBase) / 0x1000000) ((addr - regBase) / 4096 % 4096) = false) →
    ∃ t, Runs (.holeAccess addr ⟨w, data, len, e⟩) s t ∧ (∀ a, t.mrd a = s.mrd a) ∧ (∀ d r, t.rd d r = s.rd d r) ∧
      t.out = (if w then s.out else .host true (List.replicate len 0) :: s.out) ∧
      ((s.hdr 0 0x90).errs.length < 4 →
        (t.hdr 0 0x90).errs = (s.hdr 0 0x90).errs ++ [⟨0x0B, 0, w32 addr, w32 (addr / 2 ^ 32 % 65536)⟩]) ∧
      Frame [.pg, .out] s t)

/-- Module resets (R307, R308). Each source resets everything outside the kindler and records its cause; MOD_RESET_N and power-on
reach the kindler too, which then waits for release 1. Flash, fuses and the queue are kept. -/
def Obligations.ModuleResets : Prop :=
  (∀ s, s.kd.inputGood = false → s.kd.mainSwitch = true →
    ∃ t, Runs .powerOn s t ∧ DiesReset t 1 ∧ t.kd.inputGood = true ∧ t.kd.released = 0 ∧ t.kd.images = s.kd.images ∧
      t.kd.svn = s.kd.svn ∧ t.kd.revoked = s.kd.revoked ∧ Frame [.pg, .mem, .cx, .sq, .sp, .ar, .rw, .ht, .ca, .em, .sw, .tr, .uc, .fb, .kd, .free] s t) ∧
  (∀ n s, 100 ≤ n → s.powered = true →
    ∃ t, Runs (.modResetN n) s t ∧ DiesReset t 2 ∧ t.kd.released = 0 ∧ t.kd.images = s.kd.images ∧
      t.kd.svn = s.kd.svn ∧ t.kd.revoked = s.kd.revoked ∧ Frame [.pg, .mem, .cx, .sq, .sp, .ar, .rw, .ht, .ca, .em, .sw, .tr, .uc, .fb, .kd, .free] s t) ∧
  (∀ s, s.accepts .runtime 6 0xF0 0x4B525354 → s.powered = true →
    ∃ t, Runs (.pltModReset .runtime 6 0x4B525354) s t ∧ DiesReset t 3 ∧ t.kd.images = s.kd.images ∧
      t.kd.svn = s.kd.svn ∧ t.kd.revoked = s.kd.revoked ∧ Frame [.pg, .mem, .cx, .sq, .sp, .ar, .rw, .ht, .ca, .em, .sw, .tr, .uc, .fb, .kd, .free] s t) ∧
  (∀ sub detail s, s.powered = true → s.kd.hard = false → sub = 2 ∨ (sub = 1 ∧ s.kd.state = 0 ∧ 1 ≤ s.kd.method) →
    ∃ t, Runs (.kindlerWatchdog ⟨sub, detail⟩) s t ∧ DiesReset t 4 ∧ t.kd.sub = sub ∧ t.kd.images = s.kd.images ∧
      t.kd.svn = s.kd.svn ∧ t.kd.revoked = s.kd.revoked ∧ Frame [.pg, .mem, .cx, .sq, .sp, .ar, .rw, .ht, .ca, .em, .sw, .tr, .uc, .fb, .kd, .free] s t) ∧
  (∀ die s, s.powered = true → 2 ≤ s.kd.released → die ≤ 6 →
    ∃ t, Runs (.pllUnlock die) s t ∧ DiesReset t 4 ∧ t.kd.sub = 3 ∧ t.kd.images = s.kd.images ∧
      t.kd.svn = s.kd.svn ∧ t.kd.revoked = s.kd.revoked ∧
      Frame [.pg, .mem, .cx, .sq, .sp, .ar, .rw, .ht, .ca, .em, .sw, .tr, .uc, .fb, .kd, .free, .out] s t)

/-- Thermal trips, rail faults and input lockout (R309, R358, R360). A trip switches every die off and holds the module after the
third within 3,600 s; below 60 °C and after 10 s it restarts with cause 7; a rail fault halts the kindler.
Mating contacts and the main switch (R354, R359): PRE brings standby power
from a bus within the lockout limits, the switch closes only with PRESENT_N low and the
bulk voltage near VIN, and a break of PRESENT_N takes all die power. -/
def Obligations.TripsAndPower : Prop :=
  (∀ die reading time s, s.powered = true → 110 ≤ reading → die ≤ 6 →
    ∃ t, Runs (.thermalTrip die reading time) s t ∧ DiesReset t s.kd.cause ∧ t.kd.diesOff = true ∧ t.kd.released = 1 ∧
      t.kd.trips = s.kd.trips.filter (fun x => decide (time ≤ x + 3600)) ++ [time] ∧
      (t.kd.tripHold = true ↔ s.kd.tripHold = true ∨ 3 ≤ t.kd.trips.length)) ∧
  (∀ hottest ms s, s.kd.diesOff = true → s.kd.tripHold = false → hottest < 60 → 10000 ≤ ms →
    ∃ t, Runs (.tripCooldownRestart hottest ms) s t ∧ DiesReset t 7 ∧ t.kd.diesOff = false) ∧
  (∀ hottest ms s, s.kd.diesOff = true → (s.kd.tripHold = true ∨ 60 ≤ hottest ∨ ms < 10000) →
    ∃ t, Runs (.tripCooldownRestart hottest ms) s t ∧ t.kd = s.kd ∧ Frame [.pg] s t) ∧
  (∀ rail s, s.powered = true → s.kd.state ≠ 4 → (s.kd.state = 0 → 5 < s.kd.step) →
    ∃ t, Runs (.railFault rail) s t ∧ DiesReset t s.kd.cause ∧ t.kd.state = 4 ∧ t.kd.hard = false ∧ t.kd.released ≤ 1) ∧
  (∀ ov s, ∃ t, Runs (.inputLockout ov) s t ∧ DiesReset t 1 ∧ t.kd.mainSwitch = false ∧ t.kd.inputGood = false ∧
      t.kd.vsb = false ∧ t.kd.images = s.kd.images ∧ t.kd.svn = s.kd.svn ∧ t.kd.revoked = s.kd.revoked) ∧
  (∀ s, ∃ t, Runs .preMate s t ∧ t.kd = { s.kd with pre := true, vsb := s.kd.vsb || s.kd.bus } ∧ Frame [.kd] s t) ∧
  (∀ low near s, ∃ t, Runs (.mainSwitchClose low near) s t ∧
    t.kd = (if s.kd.pre = true ∧ low = true ∧ near = true then { s.kd with present := true, mainSwitch := true, vsb := true, bus := true }
      else s.kd) ∧ Frame [.kd] s t) ∧
  (∀ s, ∃ t, Runs .presentNBreak s t ∧ DiesReset t 1 ∧ t.kd.present = false ∧ t.kd.mainSwitch = false ∧
    t.kd.inputGood = false ∧ t.kd.vsb = s.kd.vsb ∧ t.kd.images = s.kd.images)

/-- Kindling (R310, R314 to R316). A release whose check passes begins the first method that the step's first instance has left, or,
without a position, holds every port down; a release that fails halts the kindler or, for the memories, maps every stack out. An
attempt leaves its outcome in the memory of its instance; a failed one is followed by the next method, and after the last by the
step's action. The erase of the old half ends with the buffered records in the journal (R330). -/
def Obligations.Kindling : Prop :=
  (∀ s, s.powered = true → s.kd.state = 0 → s.kd.released = 0 →
    ∃ t, Runs (.domainRelease true) s t ∧ t.kd.released = 1 ∧ t.kd.sensed = true ∧ t.pending = s.pending) ∧
  (∀ ok m s, s.powered = true → s.kd.state = 0 → 1 ≤ s.kd.released → s.kd.released < 8 → s.kd.method = 0 →
    stepRelease s.kd.step = s.kd.released + 1 → (ok = true ∨ (s.kd.released ≠ 1 ∧ s.kd.released ≠ 4)) →
    (s.kd.step = 15 → s.kd.noPosition = false) → (s.startMethod s.kd.step 0).2 = some m →
    ∃ t, Runs (.domainRelease ok) s t ∧ t.kd.released = s.kd.released + 1 ∧ t.kd.state = 0 ∧ t.kd.step = s.kd.step ∧
      t.kd.inst = 0 ∧ t.kd.method = m ∧ Frame [.pg, .kd] s t) ∧
  (∀ ok m s, s.powered = true → s.kd.state = 0 → s.kd.released = 7 → s.kd.method = 0 → s.kd.step = 15 → s.kd.noPosition = true →
    (s.startMethod 16 0).2 = some m →
    ∃ t, Runs (.domainRelease ok) s t ∧ t.kd.released = 8 ∧ t.kd.step = 16 ∧ (∀ p, p < 32 → (t.port p).state = 4) ∧
      Frame [.pg, .kd, .fb] s t) ∧
  (∀ s, s.powered = true → s.kd.state = 0 → (s.kd.released = 0 ∨
      (s.kd.released = 1 ∧ s.kd.method = 0 ∧ s.kd.step = 5)) →
    ∃ t, Runs (.domainRelease false) s t ∧ DiesReset t s.kd.cause ∧ t.kd.state = 4 ∧ t.kd.hard = decide (s.kd.released = 0)) ∧
  (∀ s, s.powered = true → s.kd.state = 0 → s.kd.released = 4 → s.kd.method = 0 → s.kd.step = 9 →
    ∃ t, Runs (.domainRelease false) s t ∧ t.kd.released = 5 ∧ t.kd.state = 0 ∧ ∀ p, p < 640 → p ∈ t.tr.pcOut) ∧
  (∀ detail straps s, s.powered = true → s.kd.state = 0 → s.kd.method ≠ 0 → 1 ≤ s.kd.step → s.kd.step ≤ 17 →
    s.kd.inst < stepCount s.kd.step → s.kd.erasing = false → (s.tryAttempt true).2 = true →
    ∃ t, Runs (.kindlingStep true detail straps) s t ∧ t.inst s.kd.step s.kd.inst = ⟨1, s.kd.method, detail⟩ ∧
      t.pending = s.pending) ∧
  (∀ s : State, has [2, 3, 6, 7] s.kd.step = false → (s.tryAttempt true).2 = true) ∧
  (∀ s : State, s.kd.step = 2 ∨ s.kd.step = 6 →
    let type := if s.kd.step = 2 then 1 else 2
    ((s.tryAttempt true).2 = true ↔
      if s.kd.method = 3 then (s.bundle true).isSome = true
      else s.copyOk (if s.kd.method = 1 then s.activeCopy type else 1 - s.activeCopy type) type true = true)) ∧
  (∀ s : State, s.kd.step = 3 → ((s.tryAttempt true).2 = true ↔
    (s.kd.method = 1 → s.kd.jr.headOk = true) ∧ (s.kd.method = 2 → ∃ o, s.kd.older = some o ∧ o.headOk = true))) ∧
  (∀ detail straps s, s.powered = true → s.kd.state = 0 → s.kd.method ≠ 0 → s.kd.method < stepMethods s.kd.step →
    s.kd.inst < stepCount s.kd.step → s.kd.erasing = false →
    ∃ t, Runs (.kindlingStep false detail straps) s t ∧ t.kd.method = s.kd.method + 1 ∧ t.kd.step = s.kd.step ∧
      t.kd.inst = s.kd.inst ∧ t.inst s.kd.step s.kd.inst = ⟨3, s.kd.method + 1, 0⟩) ∧
  (∀ detail straps s, s.powered = true → s.kd.state = 0 → s.kd.method ≠ 0 → stepMethods s.kd.step ≤ s.kd.method →
    stepHalts s.kd.step = true →
    ∃ t, Runs (.kindlingStep false detail straps) s t ∧ t.kd.state = 4 ∧ DiesReset t s.kd.cause) ∧
  (∀ detail straps s, s.powered = true → s.kd.state = 0 → s.kd.method ≠ 0 → stepMethods s.kd.step ≤ s.kd.method →
    stepHalts s.kd.step = false → 1 ≤ s.kd.step → s.kd.step ≤ 17 → s.kd.inst < stepCount s.kd.step → s.kd.erasing = false →
    ∃ t, Runs (.kindlingStep false detail straps) s t ∧ (t.inst s.kd.step s.kd.inst).outcome = 2 ∧ t.pending = s.pending) ∧
  (∀ s : State, s.kd.erasing = true → s.kd.jr.used + (s.kd.buffered.map JRec.size).sum ≤ halfSize →
    ∃ t, Runs .journalEraseDone s t ∧ t.kd.erasing = false ∧ t.kd.older = none ∧ t.kd.buffered = [] ∧ t.kd.flashed = none ∧
      t.kd.jr.journal = s.kd.jr.journal ++ s.kd.buffered ∧
      t.kd.jr.used = s.kd.jr.used + (s.kd.buffered.map JRec.size).sum ∧ Frame [.kd] s t)

/-- Firmware copies and the kindler's memory (R317, R318, R321, R324). A component is written to the copy that does not run and
becomes pending if it verifies, and ceases to be if it does not; CLEAR_STEP forgets what instances remember; ADVANCE_SVN raises a fused floor; PREFER_COPY makes
a copy the one of the next kindling. -/
def Obligations.FirmwareCommands : Prop :=
  (∀ type man img s, s.answers = true → has [1, 2, 3, 4, 5] type = true → img.length ≤ 1024 * maxImage type →
    man.length = 4096 → s.hasRoom 6 [type, 0, 1, 0] [] = true →
    let i : Image := ⟨man, img, Config.slotPlace (16 * (1 - s.activeCopy type) + type) img.length⟩
    ∃ t, Runs (.firmwareUpdate type man img) s t ∧ t.image (1 - s.activeCopy type) type = i ∧
      (∀ k, k ≠ 16 * (1 - s.activeCopy type) + type →
        tabGet (fun _ => {}) t.kd.images k = tabGet (fun _ => {}) s.kd.images k) ∧
      t.kd.jr.pendingImg = (if s.verifies type i = true then addOnce s.kd.jr.pendingImg type
        else s.kd.jr.pendingImg.filter (· != type)) ∧
      Frame [.pg, .kd] s t) ∧
  (∀ man img s, s.answers = true → s.inRecovery = false → bundleImages img ≤ 1024 * maxImage 15 →
    s.hasRoom 6 [15, 0, 1, 0] [] = true →
    ∃ t, Runs (.firmwareUpdate 15 man img) s t ∧ (t.image 2 15).image = img ∧ t.image 3 15 = t.image 2 15 ∧
      t.kd.jr.pendingImg = s.kd.jr.pendingImg.filter (· != 15) ∧ Frame [.pg, .kd] s t) ∧
  (∀ ag n i s, s.kdlTakes ag → 1 ≤ n → n ≤ 17 → i < stepCount n → s.kdlArg = n + 256 * i →
    ∃ t, Runs (.clearStep ag) s t ∧ t.inst n i = {} ∧
      (∀ m j, instKey m j ≠ instKey n i → t.inst m j = s.inst m j) ∧ t.rd 7 Reg.KDL_CMD_STATUS = 2 ∧ Frame [.pg, .kd] s t) ∧
  (∀ ag n s, s.kdlTakes ag → 1 ≤ n → n ≤ 17 → s.kdlArg = n + 256 * 0xFFFFFF →
    ∃ t, Runs (.clearStep ag) s t ∧ (∀ i, i < stepCount n → t.inst n i = {}) ∧ t.rd 7 Reg.KDL_CMD_STATUS = 2 ∧
      Frame [.pg, .kd] s t) ∧
  (∀ ag s, s.kdlTakes ag → has [1, 2, 3, 4, 5] s.kdlArg = true → s.kd.state ≠ 0 → s.inRecovery = false →
    ∃ t, Runs (.advanceSvn ag) s t ∧
      tabGet (fun _ => 0) t.kd.svn s.kdlArg =
        max (tabGet (fun _ => 0) s.kd.svn s.kdlArg) (min 63 (manSvn (s.runManifest s.kdlArg))) ∧
      (∀ k, k ≠ s.kdlArg → tabGet (fun _ => 0) t.kd.svn k = tabGet (fun _ => 0) s.kd.svn k) ∧
      t.rd 7 Reg.KDL_CMD_STATUS = 2 ∧ Frame [.pg, .kd] s t) ∧
  (∀ ag type copy s, s.kdlTakes ag → s.kdlArg = type + 256 * copy → 1 ≤ type → type ≤ 5 → copy ≤ 1 →
    s.hasRoom 6 [type, copy, 1, 0] [] = true →
    ∃ t, Runs (.preferCopy ag) s t ∧
      (type ∈ t.kd.jr.pendingImg ↔ copy ≠ s.activeCopy type) ∧ t.kd.jr.active = s.kd.jr.active ∧
      t.rd 7 Reg.KDL_CMD_STATUS = 2 ∧ Frame [.pg, .kd] s t)

/-- The kindler's other commands (R3, R309, R326, R328, R331, R334): each completes with DONE and its effect, and changes nothing
outside the kindler's page and state; HALT_RELEASE ends a halt or a trip hold with a module reset. -/
def Obligations.KindlerCommands : Prop :=
  (∀ ag s, s.kdlTakes ag → s.hasIdentity = true →
    ∃ t, Runs (.attest ag) s t ∧ t.kd = { s.kd with tripSeen := false } ∧
      t.winHolds (s.report (s.winBytes 0 32) ++ fitBytes 114 (Config.ed448Sign identityKey (shake256 (s.report (s.winBytes 0 32)) 64))) ∧
      t.rd 7 Reg.KDL_CMD_STATUS = 2 ∧ Frame [.pg, .kd] s t) ∧
  (∀ ag s, s.kdlTakes ag → s.hasRoom 7 [1] (s.winBytes 0 64) = true →
    ∃ t, Runs (.setRrstKey ag) s t ∧ t.kd.jr.rrstKey = s.winBytes 0 64 ∧ t.kd.jr.rrstCounter = s.kd.jr.rrstCounter ∧
      t.rd 7 Reg.KDL_CMD_STATUS = 2 ∧ Frame [.pg, .kd] s t) ∧
  (∀ ag s, s.kdlTakes ag → 1 ≤ s.kdlArg → s.kdlArg ≤ 256 → s.kd.erasing = false →
    s.kd.jr.used + alignUp (16 + s.kdlArg) 16 ≤ halfSize →
    ∃ t, Runs (.jnlAppend ag) s t ∧
      t.kd.jr.journal = s.kd.jr.journal ++ [⟨s.kd.jnlSeq, 9, [], s.winBytes 0x10 s.kdlArg⟩] ∧
      t.kd.jnlSeq = (s.kd.jnlSeq + 1) % 2 ^ 32 ∧ t.rd 7 Reg.KDL_CMD_STATUS = 2 ∧ Frame [.pg, .kd] s t) ∧
  (∀ ag r s, s.kdlTakes ag → (s.kd.jr.journal ++ s.kd.buffered).find? (fun r => r.seq == s.kdlArg) = some r →
    ∃ t, Runs (.jnlRead ag) s t ∧ t.winHolds r.bytes ∧ t.rd 7 Reg.KDL_CMD_STATUS = 2 ∧ Frame [.pg] s t) ∧
  (∀ ag s, s.kdlTakes ag → 4 ≤ s.kdlArg → s.kdlArg ≤ 32 → s.hasRoom 5 [0, s.kdlArg] [] = true →
    ∃ t, Runs (.setHostpart ag) s t ∧ t.kd.jr.hostUnits = s.kdlArg ∧ t.rd 7 Reg.KDL_CMD_STATUS = 2 ∧ Frame [.pg, .kd] s t) ∧
  (∀ s, s.kdlTakes .mgmt → s.kd.state = 4 ∨ s.kd.tripHold = true →
    ∃ t, Runs (.haltRelease .mgmt) s t ∧ DiesReset t 3 ∧ t.kd.tripHold = false ∧ t.kd.diesOff = false) ∧
  (∀ s, s.kdlTakes .mgmt → s.kdlArg ≤ 3 →
    ([1, 2, 3, 4, 5].any fun t => leAt (s.runManifest t) 7 1 == s.kdlArg) = false →
    ∃ t, Runs (.revokeKey .mgmt) s t ∧ t.kd = { s.kd with revoked := addOnce s.kd.revoked s.kdlArg } ∧
      t.rd 7 Reg.KDL_CMD_STATUS = 2 ∧ Frame [.pg, .kd] s t)

/-- SPDM and remote reset (R326 to R328). The responder answers each request and changes nothing else; a verified remote reset
resets the module with cause 6 and keeps its counter, and any other is refused with a record. -/
def Obligations.IdentityMessages : Prop :=
  (∀ req s, s.answers = true →
    (∃ t, Runs (.getVersion req) s t ∧ t = s.emit (.spdm 0x04 (Config.spdmBody 0x84 req))) ∧
    (∃ t, Runs (.getCapabilities req) s t ∧ t = s.emit (.spdm 0x61 (Config.spdmBody 0xE1 req))) ∧
    (∃ t b, Runs (.negotiateAlgorithms req) s t ∧ t = s.emit (.spdm 0x63 b) ∧
      leAt b 4 4 = 0x40 ∧ leAt b 8 4 = 0x800 ∧ leAt b 12 4 = 0x20) ∧
    (∃ t, Runs (.getDigests req) s t ∧ t = s.emit (.spdm 0x01 (sha3_512 Config.certChain))) ∧
    (s.hasIdentity = true → ∃ t, Runs (.challenge req) s t ∧ t = s.emit (.spdm 0x03 (Config.spdmBody 0x83 req ++
      Config.ed448Sign identityKey (Config.spdmBody 0x83 req))))) ∧
  (∀ slot off len s, s.answers = true →
    ∃ t, Runs (.getCertificate slot off len) s t ∧
      t = s.emit (if slot = 0 then .spdm 0x02 ((Config.certChain.drop off).take len) else .spdm 0x7F [])) ∧
  (∀ index s, s.answers = true → s.hasIdentity = true → 1 ≤ index → index ≤ 5 →
    ∃ t, Runs (.getMeasurements index) s t ∧ t = s.emit (.spdm 0x60 (sha3_512 (s.runManifest index)))) ∧
  (∀ s, s.answers = true → s.hasIdentity = true → ∃ t, Runs (.getMeasurements 0) s t ∧ t = s.emit (.spdm 0x60 [6])) ∧
  (∀ payload ms s, s.powered = true → s.kd.released = 8 → 10 ≤ ms → s.hasRoom 7 [0, leAt payload 8 8] [] = true →
    (∀ o, s.kd.older = some o → o.generation ≤ s.kd.jr.generation ∧ s.kd.jr.headOk = true) →
    ∃ t, Runs (.resetReq payload ms) s t ∧
      (s.rrstCheck payload = 0 → DiesReset t 6 ∧ t.kd.jr.rrstCounter = leAt payload 8 8) ∧
      (s.rrstCheck payload ≠ 0 → t.kd = s.kd ∧ Frame [.pg] s t ∧
        (t.hdr 7 0x100).evStatus = (s.hdr 7 0x100).evStatus ||| 8))

/-- Scalar instructions (R72, R80 to R84, R86): NOP, SLI, SALU, LOOP and BR issue, take and post their semaphores at issue, write
their register or move the program counter, and change no memory, no unit and no other sequencer. -/
def Obligations.ScalarInstructions : Prop :=
  ∀ (i : Iss) (c : Nat) (s : State), s.canIssue i c [] →
    let q := (s.seq i.st i.sq).advance i
    let sem := fun k => semPosted i k (s.semTaken i c k)
    (∃ t, Runs (.nop i) s t ∧ Issues s t i c q sem ∧ t.sq.flights = s.sq.flights ∧ Frame [.pg, .cx, .sq, .sw, .out] s t) ∧
    (∀ d imm, ∃ t, Runs (.sli i d imm) s t ∧ Issues s t i c (q.setSreg d imm) sem ∧ t.sq.flights = s.sq.flights ∧
      Frame [.pg, .cx, .sq, .sw, .out] s t) ∧
    (∀ fn d a b, ∃ t, Runs (.salu i fn d a b) s t ∧
      Issues s t i c (q.setSreg d (saluFn fn ((s.seq i.st i.sq).sreg a) ((s.seq i.st i.sq).sreg b))) sem ∧
      t.sq.flights = s.sq.flights ∧ Frame [.pg, .cx, .sq, .sw, .out] s t) ∧
    (∀ n target, ∃ t, Runs (.loop i n target) s t ∧
      Issues s t i c
        (if (s.seq i.st i.sq).sreg n = 0 then
          { q with
            pc := (loopNext target (target + s.insnLen i.st target) q.loops).1
            loops := (loopNext target (target + s.insnLen i.st target) q.loops).2 }
        else { q with loops := ((s.srcOf i 5 c).pc + 32, target, ((s.seq i.st i.sq).sreg n).toNat) :: q.loops }) sem ∧
      t.sq.flights = s.sq.flights ∧ Frame [.pg, .cx, .sq, .sw, .out] s t) ∧
    (∀ cond a b target, brCond cond ((s.seq i.st i.sq).sreg a) ((s.seq i.st i.sq).sreg b) = false →
      ∃ t, Runs (.br i cond a b target) s t ∧ Issues s t i c q sem ∧ t.sq.flights = s.sq.flights ∧
        Frame [.pg, .cx, .sq, .sw, .out] s t) ∧
    (∀ cond a b target, brCond cond ((s.seq i.st i.sq).sreg a) ((s.seq i.st i.sq).sreg b) = true →
      s.entryAt i.st (s.seq i.st i.sq) target = none →
      ∃ t, Runs (.br i cond a b target) s t ∧
        Issues s t i c { q with
          pc := target
          loops := (s.seq i.st i.sq).loops.dropWhile fun b => decide (target < b.1 ∨ b.2.1 < target) } sem ∧
        t.sq.flights = s.sq.flights ∧ Frame [.pg, .cx, .sq, .sw, .out] s t)

/-- A branch to an entry is a program boundary (R71, R82): with no other half to take the sequencer goes on there; with one it
takes the new half at once if it owes no instruction, and else waits to switch. -/
def Obligations.BranchBoundary : Prop :=
  ∀ (i : Iss) (c cond a b target e : Nat) (s : State), s.canIssue i c [] →
    brCond cond ((s.seq i.st i.sq).sreg a) ((s.seq i.st i.sq).sreg b) = true →
    s.entryAt i.st (s.seq i.st i.sq) target = some e →
    let p := s.slot i.st (s.seq i.st i.sq).slot
    (p.pending = false → p.active = (s.seq i.st i.sq).half →
      ∃ t, Runs (.br i cond a b target) s t ∧ (t.seq i.st i.sq).pc = target ∧ (t.seq i.st i.sq).entry = e ∧
        (t.seq i.st i.sq).switchTo = none ∧ t.slot i.st (s.seq i.st i.sq).slot = p ∧ Frame [.pg, .cx, .sq, .sw, .out] s t) ∧
    (p.pending = true ∨ p.active ≠ (s.seq i.st i.sq).half → s.owes i.st i.sq = true →
      ∃ t, Runs (.br i cond a b target) s t ∧ (t.seq i.st i.sq).pc = target ∧
        (t.seq i.st i.sq).switchTo = some (e, target) ∧ (t.seq i.st i.sq).half = (s.seq i.st i.sq).half ∧
        t.slot i.st (s.seq i.st i.sq).slot = p ∧ Frame [.pg, .cx, .sq, .sw, .out] s t) ∧
    (p.pending = true → s.owes i.st i.sq = false → e < s.imgHdr i.st (s.seq i.st i.sq).slot (1 - p.active) 0x15 1 →
      ∃ t, Runs (.br i cond a b target) s t ∧ (t.seq i.st i.sq).half = 1 - p.active ∧ (t.seq i.st i.sq).entry = e ∧
        (t.seq i.st i.sq).pc = s.imgHdr i.st (s.seq i.st i.sq).slot (1 - p.active) (0x18 + 4 * e) 4 ∧
        (t.seq i.st i.sq).loops = [] ∧ (t.slot i.st (s.seq i.st i.sq).slot).active = 1 - p.active ∧
        Frame [.pg, .cx, .sq, .sw, .out] s t)

/-- SEMOP, END and MARKER (R86, R89, R99). A post adds to a count that stops at 65,535, a set replaces it; END leaves the sequencer
waiting, and when it owes nothing it stops; a marker writes its record where the trace ring has room and enters every unit's queue
where it propagates, and a unit that reaches it takes it from the queue.
A trace record (R99): value, context, sequencer, source and cycle in 16 bytes at the ring's head, which moves on; with the ring
full the record is dropped and counted. -/
def Obligations.SemaphoresAndMarkers : Prop :=
  (∀ (i : Iss) (c sem value : Nat) (s : State), s.canIssue i c [] →
    let q := (s.seq i.st i.sq).advance i
    (∃ t, Runs (.semopPost i sem value) s t ∧
      Issues s t i c q (fun k => semPosted i k (if k = sem then satAdd 65535 (s.semTaken i c k) value else s.semTaken i c k)) ∧
      t.sq.flights = s.sq.flights ∧ Frame [.pg, .cx, .sq, .sw, .out] s t) ∧
    (∃ t, Runs (.semopSet i sem value) s t ∧
      Issues s t i c q (fun k => semPosted i k (if k = sem then value else s.semTaken i c k)) ∧
      t.sq.flights = s.sq.flights ∧ Frame [.pg, .cx, .sq, .sw, .out] s t) ∧
    (∃ t, Runs (.endI i) s t ∧
      Issues s t i c { q with atEnd := true } (fun k => semPosted i k (s.semTaken i c k)) ∧
      t.sq.flights = s.sq.flights ∧ Frame [.pg, .cx, .sq, .sw, .out] s t) ∧
    (∀ v prop cycle, ∃ t, Runs (.marker i v prop cycle) s t ∧
      Issues s t i c q (fun k => semPosted i k (s.semTaken i c k)) ∧ t.sq.flights = s.sq.flights ∧
      t.sq.markers = (if prop then s.sq.markers ++ (List.range 7).map fun k => (c, v, k + 1, i.sq) else s.sq.markers) ∧
      (s.rdN i.st Reg.SEQ_TRACE_SIZE = 0 → t.mem = s.mem) ∧
      Frame (reaching [.pg, .mem, .sq, .sw, .out]) s t)) ∧
  (∀ st sq c s, (s.seq st sq).ctx = some c → (s.seq st sq).atEnd = true → (s.seq st sq).switchTo = none →
    s.owes st sq = false → (s.ctx c).borrowing = none →
    ∃ t, Runs (.endStop st sq) s t ∧ (t.seq st sq).state = 5 ∧ (t.seq st sq).atEnd = false ∧
      (t.seq st sq).resumable = false ∧ t.sq.flights = s.sq.flights) ∧
  (∀ ctx v source cycle sq s, s.sq.markers.find? (fun m => m.1 == ctx && m.2.1 == v && m.2.2.1 == source) = some (ctx, v, source, sq) →
    ∃ t, Runs (.markerUnitRecord ctx v source cycle) s t ∧ t.sq.markers = s.sq.markers.erase (ctx, v, source, sq) ∧
      t.sq.flights = s.sq.flights ∧ Frame (reaching [.pg, .mem, .sq, .out]) s t) ∧
  (∀ (i : Iss) (c : Nat) (v : W32) (cycle : Nat) (s : State), s.canIssue i c [] → s.rdN i.st Reg.SEQ_TRACE_SIZE ≠ 0 →
    let n := s.rdN i.st Reg.SEQ_TRACE_SIZE
    let h := s.rdN i.st Reg.SEQ_TRACE_HEAD
    let a := s.rdAddr i.st Reg.SEQ_TRACE_BASE_LO Reg.SEQ_TRACE_BASE_HI + 16 * h
    let r := leBytes 4 v.toNat ++ leBytes 2 c ++ leBytes 1 i.sq ++ [0] ++ leBytes 6 (cycle % 2 ^ 48) ++ [0, 0]
    ((h + 1) % n ≠ s.rdN i.st Reg.SEQ_TRACE_TAIL →
      ∃ t, Runs (.marker i v false cycle) s t ∧ t.rdN i.st Reg.SEQ_TRACE_HEAD = (h + 1) % n ∧
        (∀ j, j < 16 → s.writable (a + j) = true → t.mrd (a + j) = r.getD j 0) ∧
        (∀ x, x < a ∨ a + 16 ≤ x → t.mrd x = s.mrd x) ∧ Frame (reaching [.pg, .mem, .sq, .sw, .out]) s t) ∧
    ((h + 1) % n = s.rdN i.st Reg.SEQ_TRACE_TAIL →
      ∃ t, Runs (.marker i v false cycle) s t ∧
        t.rdN i.st Reg.SEQ_TRACE_DROPS = satAdd 0xFFFFFFFF (s.rdN i.st Reg.SEQ_TRACE_DROPS) 1 ∧
        t.rdN i.st Reg.SEQ_TRACE_HEAD = h ∧ Frame [.pg, .cx, .sq, .sw, .out] s t))

/-- SLD and SST (R81, R94, R95). A word of the window is read into a register, or stored from one, when the instruction completes; the
destination line is claimed; no byte changes until then. An operand that fails its check is skipped: nothing is loaded or stored.
REDUCE_TO_SCALAR (R83): register d takes the function of the view's exact elements; a view of zero elements leaves it. -/
def Obligations.LoadsAndStores : Prop :=
  (∀ (i : Iss) (c d o : Nat) (a : Opd) (s : State), s.canIssue i c [] → i.rd = .ok →
    s.wordOpd (s.srcOf i 8 c) a = some o → s.spdBad c [wordView o] false = none → (∀ l ∈ s.viewLines c (wordView o), (s.tag i.st l).pending = false) →
    ∃ t, Runs (.sld i d a) s t ∧
      Issues s t i c (((s.seq i.st i.sq).advance i).setSreg d (w32 (leNat (s.bytesOf c (wordView o) 0 4)))) (s.semTaken i c) ∧
      (∃ f : Flight, t.sq.flights = s.sq.flights ++ [f] ∧ f.body = .plain ∧ f.post = i.post ∧ f.lines = [] ∧ f.ctx = c) ∧
      Frame [.pg, .cx, .sq] s t) ∧
  (∀ (i : Iss) (c r o : Nat) (a : Opd) (s : State), s.canIssue i c [] → i.rd = .ok →
    s.wordOpd (s.srcOf i 9 c) a = some o → s.spdBad c [wordView o] true = none → (∀ l ∈ s.viewLines c (wordView o), (s.tag i.st l).pending = false) →
    let v := leBytes 4 ((s.seq i.st i.sq).sreg r).toNat
    ∃ t, Runs (.sst i r a) s t ∧ Issues s t i c ((s.seq i.st i.sq).advance i) (s.semTaken i c) ∧
      (∀ x, t.mrd x = s.mrd x) ∧
      (∀ l ∈ s.viewLines c (wordView o), (t.tag i.st l).pending = true) ∧
      (∃ f : Flight, t.sq.flights = s.sq.flights ++ [f] ∧ f.body = .plain ∧ f.post = i.post ∧
        f.lines = s.viewLines c (wordView o) ∧ f.ctx = c ∧
        ((∀ j, j < 4 → s.writable (s.byteAddr c (wordView o) j) = true) →
          f.writes = (List.range 4).map fun j => (s.byteAddr c (wordView o) j, v.getD j 0))) ∧
      Frame [.pg, .mem, .cx, .sq, .sp] s t) ∧
  (∀ (i : Iss) (c d r : Nat) (a : Opd) (s : State), s.canIssue i c [] →
    (s.wordOpd (s.srcOf i 8 c) a = none →
      ∃ t, Runs (.sld i d a) s t ∧ (∀ n, (t.seq i.st i.sq).sreg n = (s.seq i.st i.sq).sreg n) ∧
        t.sq.flights = s.sq.flights ∧ Frame [.pg, .cx, .sq, .sw, .out] s t) ∧
    (s.wordOpd (s.srcOf i 9 c) a = none →
      ∃ t, Runs (.sst i r a) s t ∧ t.sq.flights = s.sq.flights ∧ Frame [.pg, .cx, .sq, .sw, .out] s t)) ∧
  (∀ (i : Iss) (op d : Nat) (shift : Int) (thresh : W16) (a : Opd) (c : Nat) (s : State), s.canIssue i c [] →
    let u := s.atIssue i 0x18 c
    let v := u.view i.st i.sq c a 0 0
    u.descFails i.st i.sq c a v false = false → v.place = .spd → u.extentFails c a v = false →
    (v.size ≠ 0 → i.rd = .ok → u.clearTo (s.srcOf i 0x18 c) [v] [] [] [a] →
      let cells := (List.range v.rows).flatMap fun r => (List.range v.cols).map fun k => (r, k)
      let w := reduceResult op shift (decN16 thresh) (cells.filter fun p => atLimit v.fmt v.zp (u.codeAt c v p.1 p.2)).length
        (cells.map fun p => u.valAt c v p.1 p.2)
      ∃ t f, Runs (.reduceToScalar i op d shift thresh a) s t ∧ Launches s t i c f ∧ f.body = .plain ∧ f.lines = [] ∧
        (∀ n, (t.seq i.st i.sq).sreg n = ((s.seq i.st i.sq).setSreg d w).sreg n) ∧
        Frame (reaching [.pg, .sq, .sw, .out]) s t) ∧
    (v.size = 0 →
      ∃ t, Runs (.reduceToScalar i op d shift thresh a) s t ∧ SameRegs s t i ∧ t.sq.flights = s.sq.flights ∧
        (∀ k, (t.ctx c).sem k = semPosted i k (s.semTaken i c k)) ∧ Frame [.pg, .cx, .sq, .sw, .out] s t))

/-- Loads, the gate and commits of images (R70, R71, R90, R92, R100). A load of an idle half starts the gate; the gate leaves the
half CHECKED with the relocated image in it, or REJECTED with its reason and the store untouched, as an image is that it cannot read
(reason 0x01 is the model's choice, log 74); a commit makes a CHECKED half
pending; a slot whose halves nobody runs takes its map or owner. -/
def Obligations.ProgramStore : Prop :=
  (∀ ag st v s, s.accepts ag st 0x10 v → bitOf v.toNat 31 = true →
    let k := fld v 4 0
    let h := fld v 8 8
    let p := s.slot st k
    let len := s.rdN st Reg.SEQ_LOAD_LEN
    s.blockOn st 0x10 = true → h ≠ p.active → p.st h ≠ 5 → s.users st k h = 0 → (s.gate st).busy = false → len ≤ p.size → len ≠ 0 → len % 32 = 0 →
    ∃ t, Runs (.seqLoad ag st v) s t ∧ (t.slot st k).st h = 1 ∧ (t.slot st k).pending = false ∧ (t.gate st).busy = true ∧
      (t.gate st).slot = k ∧ (t.gate st).half = h ∧ (t.gate st).len = len ∧ (t.gate st).ctx = fld v 27 16 ∧
      (t.gate st).src = s.rdAddr st Reg.SEQ_LOAD_SRC_LO Reg.SEQ_LOAD_SRC_HI ∧ t.sq.store = s.sq.store ∧ Frame [.sq] s t) ∧
  (∀ st timing s, (s.gate st).busy = true →
    let g := s.gate st
    let m := imgOf (s.imgBytes g)
    let p := s.slot st g.slot
    let groups := s.ownerGroups st g.slot
    (s.mapped g.ctx g.src g.len false = false →
      ∃ t, Runs (.gateDone st timing) s t ∧ t.slot st g.slot = p.setSt g.half 3 ∧
        t.gate st = { g with busy := false, passed := false, reason := 1, failAt := 0 } ∧
        t.sq.store = s.sq.store ∧ Frame [.pg, .sq, .out] s t) ∧
    (s.mapped g.ctx g.src g.len false = true → s.memBad st g.ctx [(g.src, g.len)] false = none →
      m.verdict (s.ownerKind st g.slot) groups timing = none →
      ∃ t, Runs (.gateDone st timing) s t ∧ t.slot st g.slot = p.setSt g.half 2 ∧
        t.gate st = { g with busy := false, passed := true, reason := 0, failAt := 0 } ∧
        t.psN st (p.base g.half) (m.reloc (p.base g.half)).length = m.reloc (p.base g.half) ∧
        (∀ a, a < p.base g.half ∨ p.base g.half + (m.reloc (p.base g.half)).length ≤ a → t.psN st a 1 = s.psN st a 1) ∧
        Frame (reaching [.pg, .sq, .out]) s t) ∧
    (∀ reason off, s.mapped g.ctx g.src g.len false = true → s.memBad st g.ctx [(g.src, g.len)] false = none →
      m.verdict (s.ownerKind st g.slot) groups timing = some (reason, off) →
      ∃ t, Runs (.gateDone st timing) s t ∧ t.slot st g.slot = p.setSt g.half 3 ∧
        t.gate st = { g with busy := false, passed := false, reason := reason, failAt := off } ∧
        t.sq.store = s.sq.store ∧ Frame (reaching [.pg, .sq, .out]) s t)) ∧
  (∀ ag st v s, s.accepts ag st 0x10 v → bitOf v.toNat 31 = true →
    (s.slot st (fld v 4 0)).st (1 - (s.slot st (fld v 4 0)).active) = 2 →
    ∃ t, Runs (.seqCommit ag st v) s t ∧
      t.slot st (fld v 4 0) = { s.slot st (fld v 4 0) with
        pending := true, gen := ((s.slot st (fld v 4 0)).gen + 1) % 65536 } ∧
      (∀ d k, 32 * d + k ≠ 32 * st + fld v 4 0 → t.slot d k = s.slot d k) ∧ t.sq.seqs = s.sq.seqs ∧ Frame [.sq] s t) ∧
  (∀ ag st k owner v s, s.accepts ag st 0x11 v → s.users st k 0 = 0 → s.users st k 1 = 0 → (s.slot st k).stA ≠ 1 →
    (s.slot st k).stB ≠ 1 → (owner = true ∨ s.mapFits st k (v &&& 0x00FFFFFF) = true) →
    ∃ t, Runs (.slotTableWrite ag st k owner v) s t ∧
      t.slot st k = (if owner = true then { s.slot st k with owner := fld v 11 0 }
        else { s.slot st k with map := v &&& 0x00FFFFFF }) ∧
      (∀ d j, 32 * d + j ≠ 32 * st + k → t.slot d j = s.slot d j) ∧ Frame [.sq] s t)

/-- Products (R50, R51, R56, R80, R95). MATMUL, MATMUL_T and MATMUL_WG whose operands pass the run-time checks enter the array pool
with their views, shape and user table; their output lines are claimed; at issue they change no memory and no scalar register. -/
def Obligations.ProductsIssue : Prop :=
  ∀ (i : Iss) (p : ProdOps) (c : Nat) (s : State), i.rd = .ok →
    let go := fun (op : Nat) (cmd : Instr) =>
      s.canIssue i c (prodChairs op p) →
      let x := s.srcOf i op c
      let u := s.atIssue i op c
      let v := u.prodViews x op p
      v.m ≠ 0 → v.n ≠ 0 → v.k ≠ 0 → u.lendsNow c = false → u.prodCheck x op p v = none →
      (prodUses p op = true → userTableOk (u.prodTable c op p v) p.deriv = true) →
      (v.c.place = .rb → (u.ctx c).isEval = false) → (v.ins p).any (fun o => u.mergeView c o.2) = false →
      u.clearTo x (v.a :: v.z.toList ++ (if prodUses p op then [v.f] else [])) ((v.outs p).map (·.2) ++ v.tree.toList) [v.b]
        [p.a, p.b, p.c, p.d, p.e] →
      ∃ t f, Runs cmd s t ∧ Enters s t i c f ∧ OtherSeqs s t i ∧ f.body = .product (v.start op p (u.prodTable c op p v)) ∧
        f.lines = u.prodLines c p v ∧ f.chairs = u.readersOf c (prodChairs op p) ∧
        (∀ l ∈ u.prodLines c p v, (t.tag i.st l).pending = true) ∧ SameRegs s t i ∧
        Frame (reaching [.pg, .sq, .sp, .sw, .ar, .ht, .out]) s t
    go prodN (.matmul i p) ∧ go prodT (.matmulT i p) ∧ go prodWg (.matmulWg i p)

/-- A product with an empty dimension, whose descriptors can be read, writes nothing and posts at issue; one that fails a run-time check
other than of its places and formats is skipped with that code of R94 (R56, R94): neither enters the pool or changes memory. -/
def Obligations.ProductsTurnedAway : Prop :=
  ∀ (i : Iss) (p : ProdOps) (c : Nat) (s : State),
    let go := fun (op : Nat) (cmd : Instr) =>
      s.canIssue i c (prodChairs op p) →
      let x := s.srcOf i op c
      let u := s.atIssue i op c
      let v := u.prodViews x op p
      (v.m = 0 ∨ v.n = 0 ∨ v.k = 0 → u.prodDesc x p v = none →
        ∃ t, Runs cmd s t ∧ t.sq.flights = s.sq.flights ∧
          (∀ k, (t.ctx c).sem k = semPosted i k (s.semTaken i c k)) ∧ Frame [.pg, .cx, .sq, .sw, .out] s t) ∧
      (∀ r, (u.prodDesc x p v = none → v.m ≠ 0 ∧ v.n ≠ 0 ∧ v.k ≠ 0) → u.prodCheck x op p v = some r → r.1 ≠ 4 →
        ∃ t, Runs cmd s t ∧ t.sq.flights = s.sq.flights ∧
          t.rdN i.st Reg.SEQ_SKIP_TOTAL = satAdd 0xFFFFFFFF (s.rdN i.st Reg.SEQ_SKIP_TOTAL) 1 ∧
          Frame [.pg, .cx, .sq, .sw, .out] s t)
    go prodN (.matmul i p) ∧ go prodT (.matmulT i p) ∧ go prodWg (.matmulWg i p)

/-- Beats (R47, R50, R53, R62 to R64). A beat that passes leaves its unit's accumulators as the group sums over the array's active
stationary tile give them and one more beat done, and every other unit's as they were; a unit's last beat drains it, into the
product's own views alone. A group's sum, or a rescale station's result, whose residue is not that of its operands is counted against
the array, and with a substitute to choose the beat waits for it with its context held, with the rows before the failed one that stand
written; re-executed, it counts as passed and writes the others. -/
def Obligations.Beats : Prop :=
  (∀ st arr r f p s, (s.arr st arr).run = some r → s.flight r.fid = some f → f.body = .product p → p.ended = false → p.Fits →
    s.lit st = true →
    let u := s.setArr st arr { s.arr st arr with run := none }
    let w := p.beatAcc (s.arr st arr).stream (s.arr st arr).tile (u.draw f.ctx) r.unit r.beat
    let p' := { p with acc := mergeAcc p.acc r.unit w.1, beats := tabSet (fun _ => 0) p.beats r.unit (r.beat + 1) }
    ∃ t, Runs (.arrayBeat st arr .pass) s t ∧ (p'.unitDone r.unit = false → t.flight r.fid = some { f with body := .product p' }) ∧
      t.mem = (u.passBeat f p r w.1 w.2.1 w.2.2 0).mem ∧ (p'.unitDone r.unit = false → t.mem = s.mem) ∧
      MemOutside s t f.ctx (p.c :: (p.d.toList ++ p.tree.toList)) ∧
      Frame (reaching [.pg, .mem, .sq, .sp, .ar, .ht, .sw, .out]) s t) ∧
  (∀ st arr r f p res s, (s.arr st arr).run = some r → s.flight r.fid = some f → f.st = st → f.body = .product p →
    (s.ctx f.ctx).stopping = none → 1 < fld (s.rd st Reg.ARR_RES_CTRL) 10 8 → s.lit st = true →
    (∃ row lane group sub obs n, res = .mismatch row lane group sub obs n) ∨
      (∃ row lane group obs n, res = .station row lane group obs n) →
    let a := s.arr st arr
    let u := s.setArr st arr { a with run := none }
    let w := p.beatAcc a.stream a.tile (u.draw f.ctx) r.unit r.beat
    let e := p.checkBeat a.stream a.tile (u.draw f.ctx) r res
    e.1 ≠ .pass → p.Fits → (u.mismatch st arr).bestRank st f.ctx [arr] ≠ none →
    ∃ t, Runs (.arrayBeat st arr res) s t ∧ (t.arr st arr).mism = satAdd 255 (s.arr st arr).mism 1 ∧
      (t.arr st arr).run = none ∧
      (let b : FailedBeat := ⟨st, r, [arr], a.tile, a.stream, 0, e.2, w.1, w.2.1, w.2.2⟩
       t.ar.failed = (s.ar.failed.filter fun y => y.run != r) ++ [{ b with written := p.rowsWritten b (beatRows res) }]) ∧
      Hold.residue ∈ (t.ctx f.ctx).holds ∧ MemOutside s t f.ctx (p.c :: (p.d.toList ++ p.tree.toList)) ∧
      (r.beat + 1 ≠ p.unitBeats r.unit → t.mem = s.mem ∧ t.sq = s.sq)) ∧
  (∀ st failed sub b f p s, s.ar.failed.find? (fun b => b.st == st && b.arrays.getLast? == some failed) = some b →
    s.flight b.run.fid = some f → f.body = .product p → p.ended = false → p.Fits →
    s.subRank st f.ctx b.arrays sub ≠ none → s.subRank st f.ctx b.arrays sub = s.bestRank st f.ctx b.arrays →
    (s.arr st sub).run = none →
    let p' := { p with acc := mergeAcc p.acc b.run.unit b.acc, beats := tabSet (fun _ => 0) p.beats b.run.unit (b.run.beat + 1) }
    ∃ t, Runs (.beatReexec st failed sub .pass) s t ∧ t.ar.failed = s.ar.failed.filter (fun y => y.run != b.run) ∧
      t.rdN st Reg.ARR_REEXEC_TOTAL = satAdd 0xFFFFFFFF (s.rdN st Reg.ARR_REEXEC_TOTAL) 1 ∧
      (p'.unitDone b.run.unit = false → t.flight b.run.fid = some { f with body := .product p' } ∧ t.mem = s.mem) ∧
      MemOutside s t f.ctx (p.c :: (p.d.toList ++ p.tree.toList)))

/-- Tree passes, the end of instructions, and the health of arrays (R36, R52, R65, R80, R86, R95). An instruction's results in scratchpad
stand from its completion on, and so do the records of a row operation, the oldest of its engine; an array marked for retest is one whose instance remembers nothing at the next kindling. -/
def Obligations.TreesAndCompletions : Prop :=
  (∀ id tile f p v s, s.tr.bad.any inSpd = false → s.flight id = some f → f.body = .product p → p.tree = some v → p.Fits → 1 < p.segs → tile < p.tiles →
    has p.trees tile = false → ((List.range p.segs).all fun k => p.unitDone (tile * p.segs + k)) = true →
    p.arrayDone (tile * p.segs) (s.poolOf f.ctx).length = true →
    ∃ t g, Runs (.treePass id ⟨tile, .ok⟩) s t ∧ t.flight id = some g ∧
      g.body = (if ({ p with trees := p.trees ++ [tile] } : Product).done = true then .plain
        else .product { p with trees := p.trees ++ [tile] }) ∧
      MemOutside s t f.ctx (p.c :: p.d.toList) ∧ Frame [.pg, .mem, .sq, .sp, .ht, .sw, .tr, .out] s t) ∧
  (∀ id f s, s.flight id = some f →
    (f.body = .plain ∧ (s.ht.adds.any fun a => a.fid == id) = false ∧ (s.em.fragQueue.any fun g => g.fid == id) = false) ∨
      ((∃ e, f.body = .vec e) ∧ s.lit f.st = true) →
    (s.ctx f.ctx).loanWait = false → (s.ctx f.ctx).state ≠ 3 → (s.tr.waiting.any fun w => w.fid == id) = false →
    ∃ t, Runs (.instructionComplete id) s t ∧ t.sq.flights = s.sq.flights.filter (fun g => g.id != id) ∧
      (∀ k, (t.ctx f.ctx).sem k = (match f.post with
        | some n => if k = n then satAdd 65535 ((s.ctx f.ctx).sem k) 1 else (s.ctx f.ctx).sem k
        | none => (s.ctx f.ctx).sem k)) ∧
      (∀ l ∈ f.lines, (s.tag f.st l).epoch = f.epoch % 65536 → (t.tag f.st l).pending = false) ∧
      ((f.writes.map (·.1)).Nodup → ∀ w ∈ f.writes, s.writable w.1 = true → t.mrd w.1 = w.2) ∧
      (∀ a, (∀ w ∈ f.writes, w.1 ≠ a) → t.mrd a = s.mrd a) ∧
      Frame [.pg, .mem, .cx, .sq, .sp, .sw, .out] s t) ∧
  (∀ id f e k recs reset s, s.flight id = some f → f.body = .row e k recs reset → s.lit f.st = true →
    (s.sq.flights.find? fun g => match g.body with | .row d .. => g.st == f.st && d == e | _ => false).map (·.id) = some id →
    (s.ctx f.ctx).loanWait = false → (s.ctx f.ctx).state ≠ 3 → (s.tr.waiting.any fun w => w.fid == id) = false →
    ∃ t, Runs (.instructionComplete id) s t ∧ t.sq.flights = s.sq.flights.filter (fun g => g.id != id) ∧
      (∀ h, k = some h → (recs.map (·.1)).Nodup → ∀ w ∈ recs, t.rowRec f.st h w.1 = w.2) ∧
      (∀ h n, k = some h → reset = true → n < 65536 → (∀ w ∈ recs, w.1 ≠ n ∧ w.1 < 65536) → t.rowRec f.st h n = 0) ∧
      (∀ st h n, n < 65536 → (∀ w ∈ recs, w.1 < 65536) → (∀ g, k = some g → 4096 * st + h ≠ 4096 * f.st + g) →
        t.rowRec st h n = s.rowRec st h n) ∧
      t.rw.handles = s.rw.handles ∧ Frame [.pg, .mem, .cx, .sq, .sp, .sw, .rw, .out] s t) ∧
  (∀ ag st a s, s.accepts ag st 0x21 (w32 (a + 0x100)) → ag.priv = true → a < 48 →
    ∃ t, Runs (.clearMismatchCnt ag st a) s t ∧ t.arr st a = { s.arr st a with mism := 0 } ∧
      (∀ d n, 48 * d + n ≠ 48 * st + a → t.arr d n = s.arr d n) ∧ Frame [.ar] s t) ∧
  (∀ ag st a s, s.accepts ag st 0x21 (w32 (a + 0x200)) → ag.priv = true → a < 48 → s.hasRoom 4 [0, st, a] [] = true →
    ∃ t, Runs (.markRetest ag st a) s t ∧ t.inst 13 (48 * st + a) = {} ∧
      (∀ m j, instKey m j ≠ instKey 13 (48 * st + a) → t.inst m j = s.inst m j) ∧ Frame [.pg, .kd, .out] s t)

/-- COPY (R95, R116, R117). The bytes of one view go to another of the same shape and format, in scratchpad when the copy completes, and
no other byte of memory changes; from the register window of a service context the copy completes too. -/
def Obligations.Copies : Prop :=
  ∀ (i : Iss) (a b : Opd) (c : Nat) (s : State), s.canIssue i c [a] → i.rd = .ok →
    let x := s.srcOf i 0x20 c
    let u := s.atIssue i 0x20 c
    let v := (u.copyViews x a b).1
    let w := (u.copyViews x a b).2
    u.copyCheck x a b v w = none → v.size ≠ 0 → w.place ≠ .rb → u.guardedView c w = false →
    (v.place = .rb → v.fmt = .n16 ∧ u.rbReadable (u.ctx c).slot = true) → u.mergeView c v = false → u.mergeView c w = false →
    u.clearTo x [v] [w] [] [a, b] → u.inRegs c w = false →
    (u.inRegs c v = false →
      let z := u.defer (u.copyWrite c w (u.copyRead c v).2) c [w]
      ∃ t f, Runs (.copy i a b) s t ∧ Launches s t i c f ∧ f.body = .plain ∧ f.lines = u.viewLines c w ∧
        f.chairs = u.readersOf c [a] ∧ f.writes = z.2 ∧ t.mem = z.1.mem ∧ MemOutside s t c [w] ∧
        SameRegs s t i ∧ Frame (reaching [.pg, .mem, .sq, .sp, .ht, .sw, .out]) s t) ∧
    (u.inRegs c v = true →
      ∃ t f, Runs (.copy i a b) s t ∧ Launches s t i c f ∧ f.body = .plain ∧ MemOutside s t c [w] ∧ SameRegs s t i ∧
        Frame (reaching [.pg, .mem, .sq, .sp, .ht, .sw, .out]) s t)

/-- Lifts in streams (R109 to R113, R115). LIFT_FILL claims the tail chair, advances TAIL and packs its source into the chair; the
fill's end makes the chair FULL, or EMPTY again after an uncorrectable error. -/
def Obligations.LiftFills : Prop :=
  (∀ (i : Iss) (a : Opd) (lift : Nat) (f : Fmt) (g : Grain) (z : Nat) (k : Cls) (c h n : Nat) (s : State),
    let b : Opd := .chair lift true f g z k
    s.canIssue i c [b] →
    let u := s.atIssue i 0x21 c
    let v := u.view i.st i.sq c a 0 0
    let w := u.view i.st i.sq c b v.rows v.cols
    u.descFails i.st i.sq c a v false = false → u.extentFails c a v = false → v.place ≠ .rb → a.desc = true →
    v.size ≠ 0 → u.mergeView c v = false →
    u.chairOf c b = some (h, n, true) → (u.liftCfg i.st h).producer = 0 → w.extent - w.addr ≤ (u.liftCfg i.st h).size →
    v.fmt = f → v.grain = g → v.zp = z →
    ∃ t fl, Runs (.liftFill i a b) s t ∧ Launches s t i c fl ∧ fl.body = .fill h n v w ∧
      (t.lift i.st h).tail = ((s.lift i.st h).tail + 1) % (u.liftCfg i.st h).chairs ∧
      (t.lift i.st h).chair (s.lift i.st h).tail = 1 ∧ (t.lift i.st h).head = (s.lift i.st h).head ∧
      t.mem = (u.copyView c v w).mem ∧ MemOutside s t c [w] ∧ Frame (reaching [.pg, .mem, .sq, .sp, .sw, .out]) s t) ∧
  (∀ st k n f v w s, s.sq.flights.find? (fun f => match f.body with | .fill a b .. => f.st == st && a == k && b == n | _ => false) = some f →
    f.body = .fill k n v w → s.memBad f.st f.ctx v.vranges false = none → s.spdBad f.ctx [v] false = none →
    s.spdBad f.ctx [w] true = none →
    ∃ t, Runs (.chairFillComplete st k n .ok) s t ∧ (t.lift st k).chair n = 2 ∧
      (t.lift st k).fills = ((s.lift st k).fills + 1) % 2 ^ 24 ∧ (t.lift st k).tail = (s.lift st k).tail ∧
      (t.lift st k).head = (s.lift st k).head ∧ t.mem = s.mem ∧
      ((s.ctx f.ctx).state ≠ 4 → (s.ctx f.ctx).isBound = true → t.flight f.id = some { f with body := .plain })) ∧
  (∀ st k n f v w s, s.sq.flights.find? (fun f => match f.body with | .fill a b .. => f.st == st && a == k && b == n | _ => false) = some f →
    f.body = .fill k n v w → v.place ≠ .rb → w.place ≠ .rb →
    ∃ t, Runs (.chairFillComplete st k n .ue) s t ∧ (t.lift st k).chair n = 0 ∧
      (t.lift st k).errFills = satAdd 255 (s.lift st k).errFills 1 ∧ (t.lift st k).tail = (s.lift st k).tail)

/-- LIFT_RELEASE names the head chair in operand A and waits until that chair is FULL. At issue it advances HEAD. The chair becomes
EMPTY at once if its reader count is 0, and RELEASING otherwise (R112). -/
def Obligations.LiftRelease : Prop :=
  ∀ (i : Iss) (lift : Nat) (f : Fmt) (g : Grain) (z : Nat) (k : Cls) (c h : Nat) (s : State),
    let a : Opd := .chair lift false f g z k
    let l := s.lift (stoveOf c) h
    s.findLift c lift = some h → stoveOf c = i.st →
    (s.canIssue i c [a] →
      l.chair l.head = 2 ∧
      ∃ t fl, Runs (.liftRelease i a) s t ∧ Launches s t i c fl ∧
        (t.lift i.st h).head = (l.head + 1) % (s.liftCfg i.st h).chairs ∧ (t.lift i.st h).tail = l.tail ∧
        (t.lift i.st h).chair l.head = (if nth 0 l.readers l.head = 0 then 0 else 3) ∧
        (∀ n, n ≠ l.head → (t.lift i.st h).chair n = l.chair n) ∧ Frame [.pg, .cx, .sq, .sp] s t) ∧
    (l.chair l.head ≠ 2 → s.canIssue i c [] →
      ∃ t, Runs (.liftRelease i a) s t ∧ (t.seq i.st i.sq).state = 3 ∧ (t.seq i.st i.sq).pc = (s.seq i.st i.sq).pc ∧
        t.lift i.st h = l ∧ t.sq.flights = s.sq.flights ∧ Frame [.pg, .sq] s t)

/-- VOP (R95, R119 to R127): a kernel that passes its checks runs over the output's positions, writes its outputs when it completes and
changes no other byte of memory and no scalar register; a kernel that fails one is skipped, counted and leaves memory alone. -/
def Obligations.VectorOps : Prop :=
  ∀ (i : Iss) (v : VopOps) (c e : Nat) (s : State), s.canIssue i c [v.a, v.b, v.e] →
    let x := s.srcOf i 0x28 c
    let u := s.atIssue i 0x28 c
    let w := u.vopViews x v
    w.c.size ≠ 0 → u.lendsNow c = false → u.vopCheck x v w = none → (u.ctx c).engines[v.engine]? = some e → w.shaped v = true →
    (i.rd = .ok → (u.vopKernel x v).reject v.cycles (!v.c.desc) = none →
      u.clearTo x ((w.ins v).map (·.2) ++ [u.kernelView x v]) ((w.outs v).map (·.2)) [] [v.a, v.b, v.c, v.d, v.e] →
      let y := u.vopRun x v w (u.vopKernel x v)
      let ev := ((s.seq i.st i.sq).sreg v.breg).toNat
      let z := u.defer (if v.d.absent = true then u.vopStore x w.c w.c ev y.1
        else (u.vopStore x w.c w.c ev y.1).vopStore x w.d w.c ev y.2.1) c ((w.outs v).map (·.2))
      ∃ t f, Runs (.vop i v) s t ∧ Launches s t i c f ∧ f.body = .vec e ∧ f.lines = u.vopLines x v w ∧
        f.writes = z.2 ∧ t.mem = z.1.mem ∧
        MemOutside s t c (if v.d.absent = true then [w.c] else [w.c, w.d]) ∧ SameRegs s t i ∧
        Frame (reaching [.pg, .mem, .sq, .sp, .ht, .sw, .out, .free]) s t) ∧
    (∀ n k, (u.vopKernel x v).reject v.cycles (!v.c.desc) = some (n, k) →
      ∃ t, Runs (.vop i v) s t ∧ t.sq.flights = s.sq.flights ∧
        t.rdN i.st Reg.VEC_KREJ_TOTAL = satAdd 0xFFFFFFFF (s.rdN i.st Reg.VEC_KREJ_TOTAL) 1 ∧ SameRegs s t i ∧
        Frame [.pg, .cx, .sq, .sw, .out] s t)

/-- Row operations (R95, R128 to R136). Each of the eleven functions, with its operands and its handle in order, enters its engine's queue
with the outputs and the records that its function gives, which the row operations behind it read; until it completes no record, no
scalar register and no byte of memory in scratchpad changes.
Stats handles (R128, R129, R138): WRITE sets a handle that passes its checks and zeroes its records, READ shows it, CLEAR zeroes
its records; a command whose handle is busy is refused with reason 4. -/
def Obligations.RowOperations : Prop :=
  (∀ (i : Iss) (r : RowOps) (c : Nat) (s : State), i.rd = .ok →
    let go := fun (f : RowFn) (cmd : Instr) =>
      let ro := f.role r
      let x := s.srcOf i 0x30 c
      let u := s.atIssue i 0x30 c
      let n := u.rowShape x f r
      let v := u.rowViews x f r n
      let z := u.rowRun x f r n
      s.canIssue i c (ro.rowsIn ++ [ro.gamma]) → (f = .reset ∨ (n.1 ≠ 0 ∧ n.2 ≠ 0)) → u.rowOpdCheck x v n = none →
      u.rowCheck x f r n = none → u.clearTo x (v.ins.map (·.2)) (v.outs.map (·.2)) [] ((v.ins ++ v.outs).map (·.1)) →
      ∃ t fl, Runs cmd s t ∧ Launches s t i c fl ∧
        fl.body = .row (u.rowEngine x f r) (if f.usesHandle then some r.handle else none)
          (z.recs.map fun w => (r.rowOff + w.1, w.2)) (f == .reset) ∧
        fl.lines = u.rowLines x v ∧ fl.writes = (s.rowOutputs f i r c).2 ∧ t.mem = (s.rowOutputs f i r c).1.mem ∧
        MemOutside s t c (v.outs.map (·.2)) ∧
        (f ≠ .reset → ∀ w ∈ z.recs, t.recNow i.st r.handle (r.rowOff + w.1) = w.2) ∧
        (f = .reset → ∀ k, t.recNow i.st r.handle k = 0) ∧
        SameRegs s t i ∧ Frame (reaching [.pg, .mem, .sq, .sp, .ht, .sw, .out, .free]) s t
    go .lnFwd (.lnFwd i r) ∧ go .lnBwd (.lnBwd i r) ∧ go .rmsFwd (.rmsFwd i r) ∧ go .rmsBwd (.rmsBwd i r) ∧
      go .smaxFwd (.smaxFwd i r) ∧ go .smaxBwd (.smaxBwd i r) ∧ go .lsmaxFwd (.lsmaxFwd i r) ∧
      go .lsmaxBwd (.lsmaxBwd i r) ∧ go .chunk (.chunk i r) ∧ go .finish (.finish i r) ∧ go .reset (.resetRows i r)) ∧
  (∀ ag st s, ag.trusted = true → s.accepts ag st 0x50 1 → s.blockOn st 0x50 = true →
    let h := fld (s.rd st Reg.ROW_HTAB_IDX) 11 0
    let v := handleOf (s.rd st Reg.ROW_HTAB_W0) (s.rd st Reg.ROW_HTAB_W1)
    (s.handleReason st h v = none →
      ∃ t, Runs (.handleWrite ag st) s t ∧ t.handle st h = v ∧ (∀ k, k < 65536 → t.rowRec st h k = 0) ∧
        t.rd st Reg.ROW_HTAB_STATUS = 0 ∧ (∀ d g, 4096 * d + g ≠ 4096 * st + h → t.handle d g = s.handle d g) ∧
        Frame [.pg, .rw] s t) ∧
    (∀ k, s.handleReason st h v = some k →
      ∃ t, Runs (.handleWrite ag st) s t ∧ t.rd st Reg.ROW_HTAB_STATUS = pack [(1, 0), (k, 4)] ∧ Frame [.pg, .out] s t)) ∧
  (∀ ag st s, ag.trusted = true → s.accepts ag st 0x50 2 →
    let h := fld (s.rd st Reg.ROW_HTAB_IDX) 11 0
    let v := s.handle st h
    (s.handleBusy st h = false →
      ∃ t, Runs (.handleRead ag st) s t ∧
        t.rd st Reg.ROW_HTAB_W0 = pack [(b2n v.valid, 0), (v.kind, 1), (v.engine, 3), (v.ctx, 5)] ∧
        t.rd st Reg.ROW_HTAB_W1 = pack [(v.base, 0), (v.rows - 1, 16)] ∧ t.rd st Reg.ROW_HTAB_STATUS = 0 ∧ Frame [.pg] s t) ∧
    (s.handleBusy st h = true →
      ∃ t, Runs (.handleRead ag st) s t ∧ t.rd st Reg.ROW_HTAB_STATUS = pack [(1, 0), (4, 4)] ∧ Frame [.pg, .out] s t)) ∧
  (∀ ag st s, ag.trusted = true → s.accepts ag st 0x50 4 →
    let h := fld (s.rd st Reg.ROW_HTAB_IDX) 11 0
    (s.handleBusy st h = false →
      ∃ t, Runs (.handleClear ag st) s t ∧ (∀ k, k < 65536 → t.rowRec st h k = 0) ∧ t.handle st h = s.handle st h ∧
        (∀ d g k, k < 65536 → 4096 * d + g ≠ 4096 * st + h → t.rowRec d g k = s.rowRec d g k) ∧ Frame [.pg, .rw] s t) ∧
    (s.handleBusy st h = true →
      ∃ t, Runs (.handleClear ag st) s t ∧ t.rd st Reg.ROW_HTAB_STATUS = pack [(1, 0), (4, 4)] ∧ Frame [.pg, .out] s t))

/-- Scratchpad (R105 to R108, R115, R261). The scrubber reads on through a slice; a host write changes the bytes of lines that no claim
holds; a host read gives the bytes, or zero where they are uncorrectable; a lift whose set-up fits is enabled with every chair EMPTY, an idle one is disabled, and RESET empties its chairs. -/
def Obligations.Scratchpad : Prop :=
  (∀ st k y s, fld (s.rd st Reg.SPD_SCRUB_CTRL) 11 0 ≠ 0 → s.tr.bad.any inSpd = false →
    (∃ t, Runs (.scrubRead st k .ok y) s t ∧
      tabGet (fun _ => 0) t.sp.scrubPos (48 * st + k) = tabGet (fun _ => 0) s.sp.scrubPos (48 * st + k) + 1 ∧ Frame [.pg, .sp] s t) ∧
    (∃ t, Runs (.scrubRead st k .ce y) s t ∧
      t.rdN st Reg.SPD_CE_TOTAL = satAdd 0xFFFFFFFF (s.rdN st Reg.SPD_CE_TOTAL) 1 ∧ Frame [.pg, .sp, .out] s t) ∧
    (∃ t, Runs (.scrubRead st k .ue y) s t ∧
      t.rdN st Reg.SPD_SCRUB_UE = satAdd 0xFFFFFFFF (s.rdN st Reg.SPD_SCRUB_UE) 1 ∧ t.mem = s.mem)) ∧
  (∀ addr b s, inSpd addr = true → addr % 256 + b.length ≤ 256 → s.unreached 6 (s.dieOf addr) = false → s.tr.bad.any inSpd = false →
    let st := (addr - spdBase) / 0x40000000
    let l := (addr - spdBase) % 0x40000000 / 256
    ((s.tag st l).pending = false →
      ∃ t, Runs (.hostScratchpadWrite addr ⟨b, .ok⟩) s t ∧ (∀ j, j < b.length → t.mrd (addr + j) = b.getD j 0) ∧
        (∀ x, x < addr ∨ addr + b.length ≤ x → t.mrd x = s.mrd x) ∧ Frame [.mem] s t) ∧
    ((s.tag st l).pending = true → b ≠ [] →
      ∃ t, Runs (.hostScratchpadWrite addr ⟨b, .ok⟩) s t ∧
        t.rdN st Reg.SPD_HOST_REFUSED = satAdd 0xFFFFFFFF (s.rdN st Reg.SPD_HOST_REFUSED) 1 ∧ Frame [.pg, .out] s t)) ∧
  (∀ addr n d s, inSpd addr = true → s.unreached 6 (s.dieOf addr) = false → s.tr.bad.any inSpd = false →
    Runs (.holeAccess addr ⟨false, d, n, .ok⟩) s (s.emit (.host true (s.mrdN addr n))) ∧
    ∃ t, Runs (.holeAccess addr ⟨false, d, n, .ue⟩) s t ∧ t.mem = s.mem ∧ t.out.head? = some (.host true (List.replicate n 0)) ∧
      t.rdN ((addr - spdBase) / 0x40000000) Reg.SPD_UE_TOTAL =
        satAdd 0xFFFFFFFF (s.rdN ((addr - spdBase) / 0x40000000) Reg.SPD_UE_TOTAL) 1) ∧
  (∀ ag st k v s, s.accepts ag st (0x31 + k / 32) v → k < 128 → st < 4 → bitOf v.toNat 0 = true →
    let r := liftReg k Reg.SPD_LIFT_k_CFG
    let u := s.wr st r (v &&& 0x00FFFFFF)
    bitOf (s.rd st r).toNat 0 = false → s.blockOn st 0x30 = true → u.liftFits st k (u.liftCfg st k) = true →
    ∃ t, Runs (.liftEnable ag st k v) s t ∧ t.rd st r = v &&& 0x00FFFFFF ∧ (t.lift st k).head = 0 ∧ (t.lift st k).tail = 0 ∧
      (∀ n, (t.lift st k).chair n = 0) ∧ Frame [.pg, .sp] s t) ∧
  (∀ ag st k v s, s.accepts ag st (0x31 + k / 32) v →
    let r := liftReg k Reg.SPD_LIFT_k_CFG
    bitOf (s.rd st r).toNat 0 = true → v &&& 0x00FFFFFF = s.rd st r &&& 0xFFFFFFFE → (s.lift st k).moving = false →
    ∃ t, Runs (.liftDisable ag st k v) s t ∧ t.rd st r = v &&& 0x00FFFFFF ∧ t.lift st k = s.lift st k ∧ Frame [.pg] s t) ∧
  (∀ ag st k s, s.accepts ag st (0x31 + k / 32) 1 → (s.lift st k).moving = false →
    ∃ t, Runs (.liftReset ag st k) s t ∧ (t.lift st k).head = 0 ∧ (t.lift st k).tail = 0 ∧ (∀ n, (t.lift st k).chair n = 0) ∧
      Frame [.sp] s t)

/-- EMB_LOOKUP and EMB_GRAD (R165, R166, R169, R170). A lookup whose operands pass the checks writes its record and, once every row
is at hand, its outputs, and no other byte of memory; a gradient pass waits in its unit with the record and the gradients. With
FEATURES 0 both only post. -/
def Obligations.EmbeddingInstructions : Prop :=
  ∀ (i : Iss) (n : Nat) (a b o : Opd) (c : Nat) (s : State),
    (s.canIssue i c [a] → i.rd = .ok → FlightsNumbered s → n ≠ 0 →
      let x := s.srcOf i 0x38 c
      let u := s.atIssue i 0x38 c
      let v := u.lookViews x n a b o
      u.lookupEarly c v.step = false → u.lookCheck x n a b o v = none → u.guardedView c v.recv = false →
      (v.outs.any fun w => u.guardedView c w.2.1) = false →
      let y := (u.readLines x ((if a.isChair then [] else u.viewLines c v.blk) ++ u.viewLines c v.feat)).lookAccess x i b v
      y.2 = true → (y.1.lookMaps x v).2 = true →
      ∃ t f, Runs (.embLookup i n a b o) s t ∧ Launches s t i c f ∧
        (f.body = .plain ∨ ∃ l : LookupF, f.body = .lookup l ∧ l.recv = v.recv ∧ l.step = v.step ∧
          l.outs = v.outs.map fun w => (w.1, w.2.1)) ∧
        f.lines = u.lookLines c v ∧ f.chairs = u.readersOf c [a] ∧ MemOutside s t c (v.recv :: v.outs.map fun w => w.2.1) ∧
        SameRegs s t i ∧ Frame (reaching [.pg, .mem, .sq, .sp, .ht, .em, .sw, .fb, .out]) s t) ∧
    (s.canIssue i c [] → i.rd = .ok → n ≠ 0 →
      let x := s.srcOf i 0x39 c
      let u := s.atIssue i 0x39 c
      let v := u.gradViews x n a o
      u.gradCheck x n a o v = none → (v.recv :: v.ins.map fun w => w.2.1).find? (u.mergeView c) = none →
      u.clearTo x ([v.recv, v.feat] ++ v.ins.map fun w => w.2.1) [] [] [a] →
      ∃ t f, Runs (.embGrad i n a o) s t ∧ Launches s t i c f ∧
        f.body = (if v.head.refused = true then .plain else .grad ⟨v.recv, v.ins.map fun w => (w.1, w.2.1)⟩) ∧ f.lines = [] ∧
        SameRegs s t i ∧ Frame (reaching [.pg, .sq, .sw, .out]) s t) ∧
    (n = 0 → s.canIssue i c [a] →
      ∃ t, Runs (.embLookup i n a b o) s t ∧ t.sq.flights = s.sq.flights ∧
        (∀ k, (t.ctx c).sem k = semPosted i k (s.semTaken i c k)) ∧ SameRegs s t i ∧ Frame [.pg, .cx, .sq, .sw, .out] s t) ∧
    (n = 0 → s.canIssue i c [] →
      ∃ t, Runs (.embGrad i n a o) s t ∧ t.sq.flights = s.sq.flights ∧
        (∀ k, (t.ctx c).sem k = semPosted i k (s.semTaken i c k)) ∧ SameRegs s t i ∧ Frame [.pg, .cx, .sq, .sw, .out] s t)

/-- The owner's side of lookups (R167, R182, R187, R188). A request of the committed epoch is served from the row's record or the
ember cache, redirected to the holders of a relayed row, or answered invalid; one of the next epoch is held; any other is answered
invalid. -/
def Obligations.LookupRequests : Prop :=
  ∀ st m k epoch eval reqStove b s, s.fenced m = false → s.slotOf m.jtag = some b →
    let go := fun (e e' : Ecc) => Instr.lookup st m k epoch eval reqStove ⟨e, e'⟩
    let u := (s.ownReads st b (s.heldReads st b k) 0).1
    let t0 := u.tdesc st b k.table
    (epoch = s.epoch st b → (s.ownReads st b (s.heldReads st b k) 0).2 = none →
      (t0.valid = true → k.row < t0.rows → (eval = true ∨ u.isSuspect st b k = false) →
        (∀ w ma e', u.heldAt st b k = some (w, ma, true) →
          (u.primary st b k = none → (u.ownRead st b w t0.wrec .ok 0).2 = none) →
          ∃ t v : State, Runs (go .ok e') s t ∧
            t = v.answer m 0x10 reqStove k [] (match u.primary st b k with
              | some e => e.bytes
              | none => u.jrdN st b w t0.wrec) ∧
            v.out = s.out ∧ t.rdN st Reg.EMB_REQ_SERVED = satAdd 0xFFFFFFFF (s.rdN st Reg.EMB_REQ_SERVED) 1 ∧
            Frame (reaching [.pg, .mem, .ht, .em, .fb, .out]) s t) ∧
        (u.heldAt st b k = none → ∀ e ecc e', eval = false → u.ovOwn st b k = some e → u.ownsShard st b k = true →
          Runs (go ecc e') s (u.answer m 0x11 reqStove k [] (leBytes 8 (leAt e 8 6)))) ∧
        (u.heldAt st b k = none → ∀ ecc e', u.ovOwn st b k = none →
          Runs (go ecc e') s (u.answer m 0x12 reqStove k [] []))) ∧
      ((t0.valid = false ∨ t0.rows ≤ k.row) → ∀ ecc e', Runs (go ecc e') s (u.answer m 0x12 reqStove k [] []))) ∧
    ((s.ownReads st b (s.heldReads st b k) 0).2 = none → Frame reachParts s u) ∧
    (eval = false → epoch = s.epoch st b + 1 → ∀ ecc e', ∃ t, Runs (go ecc e') s t ∧
      t.em.held = s.em.held ++ [⟨st, m, k, epoch, reqStove, ecc, e'⟩] ∧ Frame [.em] s t) ∧
    (eval = false → epoch ≠ s.epoch st b → epoch ≠ s.epoch st b + 1 → ∀ ecc e',
      Runs (go ecc e') s (s.answer m 0x12 reqStove k [] [])) ∧
    (eval = true → epoch ≠ s.epoch st b → ∀ ecc e', ∃ t u : State, Runs (go ecc e') s t ∧
      t = u.answer m 0x12 reqStove k [7] [] ∧ Frame [.pg, .out] s u)

/-- The requester's side (R166 to R169, R178, R188). A row's bytes go into its place of the lookup record with ROW_VALID, an invalid
answer puts a zero row there and is counted, an unusable master, a refused epoch, a failed SRAM of the complex or a page table that
cannot be read faults the context (that the owner answers reasons 2 and 8 is DEDUCED, log 24), and a redirect sends the
request that has not been redirected yet once more, to the owner named, and one that answers it again makes the row invalid. -/
def Obligations.LookupAnswers : Prop :=
  ∀ st m k s f l i e, s.fenced m = false → s.waiting st m.ctx k = some (f, l, i, e) → s.flight f.id = some f →
    let got := { l with keys := l.keys.set i { e with got := true } }
    let place := fun (d : List Byte) (v : Nat) =>
      (s.putBytes f.ctx l.recv (32 * e.rowOff) d).putBytes f.ctx l.recv (64 + 32 * i + 24) (leBytes 8 (e.rowOff + 2 ^ 32 * v))
    let bad := place (List.replicate e.wrec 0) 0
    (∀ d, ∃ t, Runs (.row st m k d) s t ∧
      (got.keys.all (·.got) = false → t.flight f.id = some { f with body := .lookup got } ∧
        t.mem = (place (fitBytes e.wrec d) 1).mem ∧ Frame (reaching [.mem, .sq, .ht]) s t) ∧
      (got.keys.all (·.got) = true → t.flight f.id = some { f with body := .plain } ∧
        Frame (reaching [.mem, .sq, .ht, .sw, .free]) s t)) ∧
    (∀ r, has [2, 6, 7, 8] r = false → ∃ t, Runs (.invalid st m k r) s t ∧
      t.rdN f.st Reg.EMB_DROPPED = satAdd 0xFFFFFFFF (s.rdN f.st Reg.EMB_DROPPED) 1 ∧
      (got.keys.all (·.got) = false → t.flight f.id = some { f with body := .lookup got } ∧ t.mem = bad.mem) ∧
      (got.keys.all (·.got) = true → t.flight f.id = some { f with body := .plain }) ∧
      Frame (reaching [.pg, .mem, .sq, .ht, .sw, .out, .free]) s t) ∧
    (∀ r, has [2, 6, 7, 8] r = true → (s.ctx f.ctx).valid = true → (s.ctx f.ctx).state ≠ 4 → ∃ t, Runs (.invalid st m k r) s t ∧
      (t.ctx f.ctx).state = 4 ∧ (t.ctx f.ctx).fault = r ∧ (t.ctx f.ctx).faultType = 7) ∧
    (∀ h, s.toRedirect st m.ctx k = some (f, l, i, e) → e.redirected = false →
      let e' := { e with owner := h.owner, ownerStove := h.ownerStove, relayed := true, redirected := true }
      ∃ t, Runs (.redirect st m k h) s t ∧ t.flight f.id = some { f with body := .lookup { l with keys := l.keys.set i e' } } ∧
      t.rdN st Reg.EMB_REDIRECTS = satAdd 0xFFFFFFFF (s.rdN st Reg.EMB_REDIRECTS) 1 ∧
      Frame (reaching [.pg, .mem, .sq, .ht, .fb, .out]) s t) ∧
    (∀ h, s.toRedirect st m.ctx k = some (f, l, i, e) → e.redirected = true → ∃ t, Runs (.redirect st m k h) s t ∧
      t.rdN f.st Reg.EMB_DROPPED = satAdd 0xFFFFFFFF (s.rdN f.st Reg.EMB_DROPPED) 1 ∧
      Frame (reaching [.pg, .mem, .sq, .ht, .sw, .out, .free]) s t)

/-- Gradients at the key stoves and the owners (R170 to R173, R196). The fragments of a gradient pass go to the key stoves; a key
stove takes coverage and fragments while its key area has room, ranks the blocks once coverage totals PASS_TOTAL and sends a key's
partial once its fragments cover the run; an owner appends a partial while its merge area has room. -/
def Obligations.GradientMerge : Prop :=
  (∀ id f g s, s.flight id = some f → f.body = .grad g → leNat (s.bytesOf f.ctx g.recv 0x28 1) % 16 = 15 →
    ∃ t l, Runs (.embGradFragments id) s t ∧ t.em.fragQueue = s.em.fragQueue ++ l ∧
      (∀ x ∈ l, x.slot = (s.ctx f.ctx).slot ∧ x.fid = f.id) ∧ t.flight id = some { f with body := .plain } ∧
      Frame [.sq, .em, .sw] s t) ∧
  (∀ st c s, s.em.covQueue.find? (fun d => d.st == st) = some c →
    let all := s.em.covers ++ [c]
    let need := s.keyUsed st c.slot + Config.keyBytes 0 0 + c.runs.length * Config.keyBytes 1 0
    ∃ t, Runs (.blockCoverage st) s t ∧ t.em.covQueue = s.em.covQueue.erase c ∧
      (need ≤ s.keySize st c.slot →
        t.em.covers = (if ((all.filter fun d => d.same c).map (·.count)).sum = c.total then
          all.map fun d => if d.same c = true then { d with ranked := true } else d else all) ∧ Frame (reaching [.em, .mem, .ht]) s t) ∧
      (s.keySize st c.slot < need → t.em.covers = s.em.covers ∧
        ((t.job c.slot).taint = true ∨ (t.job c.slot).heldTaint = true) ∧ Frame [.em, .pg, .out, .sw] s t)) ∧
  (∀ st f s, s.em.fragQueue.find? (fun g => g.st == st) = some f →
    let all := s.em.frags ++ [f]
    let mine := fun (g : Frag) => g.st == st && g.slot == f.slot && g.pass == f.pass && g.key == f.key
    let len := ((s.em.covers.filter fun c => c.st == st && c.slot == f.slot && c.pass == f.pass && c.ranked).flatMap fun c =>
      (c.runs.filter fun r => r.1 == f.key).map fun r => r.2.1).sum
    let need := s.keyUsed st f.slot + Config.keyBytes 2 f.elems.length
    ∃ t, Runs (.fragment st) s t ∧ t.em.fragQueue = s.em.fragQueue.erase f ∧ t.mem = s.mem ∧
      (need ≤ s.keySize st f.slot →
        (((all.filter mine).map fun g => (2 : Nat) ^ g.level).sum = len → t.em.frags = all.filter fun g => !mine g) ∧
        (((all.filter mine).map fun g => (2 : Nat) ^ g.level).sum ≠ len → t.em.frags = all ∧ Frame [.em] s t)) ∧
      (s.keySize st f.slot < need → t.em.frags = s.em.frags)) ∧
  (∀ st m p b ecc s, s.fenced m = false → s.slotOf m.jtag = some b →
    let used := ((s.em.merge.filter fun x => x.st == st && x.slot == b).map MRec.size).sum
    let r : MRec := ⟨st, b, p.key, p.source, p.pass, p.occ, p.elems, (s.rb b).gen, used⟩
    (used + r.size ≤ s.mergeSize st b →
      ∃ t, Runs (.partialI st m ⟨p, ecc⟩) s t ∧ t.em.merge = s.em.merge ++ [r] ∧
        (ecc = .ok → Frame (reaching [.mem, .ht, .em, .fb, .out]) s t) ∧
        (ecc = .ok → used + r.size ≤ s.mergeWayBytes st b → (∀ h, s.heldAt st b p.key = some h → h.2.2 = false) →
          t.mem = s.mem ∧ Frame [.em, .fb, .out] s t) ∧
        (ecc = .ue → (t.job b).taint = true ∨ (t.job b).heldTaint = true)) ∧
    (s.mergeSize st b < used + r.size →
      ∃ t, Runs (.partialI st m ⟨p, ecc⟩) s t ∧ t.em.merge = s.em.merge ∧
        t.rdN st Reg.EMB_MERGE_DISCARD = satAdd 0xFFFFFFFF (s.rdN st Reg.EMB_MERGE_DISCARD) 1 ∧
        ((t.job b).taint = true ∨ (t.job b).heldTaint = true) ∧ Frame [.pg, .sw, .fb, .out] s t))

/-- The ember cache (R174 to R176). A missed row that fits is admitted as a copy of its record with the sketch's estimate, one that this
stove no longer owns is not, one that would have to replace an
entry of no smaller F is not; a replica takes the place of an older one of its row and is kept where there are lines for it. -/
def Obligations.EmberCache : Prop :=
  (∀ st slot k w ma s, s.em.missed.contains (st, slot, k) = true → s.heldAt st slot k = some (w, ma, true) →
    let d := s.jrdN st slot w (s.tdesc st slot k.table).wrec
    (s.primary st slot k = none → s.emberUsed st + recLines d ≤ s.emberLines st →
      ∃ t, Runs (.emberAdmit st slot k) s t ∧
        t.em.embers = s.em.embers ++ [⟨st, slot, k, s.sketchMin st k, s.em.emberOrder, d⟩] ∧
        t.em.missed = s.em.missed.erase (st, slot, k) ∧
        t.rdN st Reg.EMB_EC_ADMITS = satAdd 0xFFFFFFFF (s.rdN st Reg.EMB_EC_ADMITS) 1 ∧ Frame [.pg, .em] s t) ∧
    (∀ v, s.emberLines st < s.emberUsed st + recLines d → s.emberVictim st = some v →
      ∃ t, Runs (.emberAdmit st slot k) s t ∧ (s.sketchMin st k ≤ v.freq → t.em.embers = s.em.embers) ∧ Frame [.pg, .em] s t)) ∧
  (∀ st slot k s, s.em.missed.contains (st, slot, k) = true → s.heldAt st slot k = none →
    Runs (.emberAdmit st slot k) s { s with em := { s.em with missed := s.em.missed.erase (st, slot, k) } }) ∧
  (∀ st m k epoch d b s, s.fenced m = false → s.slotOf m.jtag = some b →
    let rest := s.em.replicas.filter fun r => !(r.st == st && r.slot == b && r.key == k)
    let u : State := { s with em := { s.em with replicas := rest } }
    (u.emberUsed st + recLines d ≤ s.emberLines st →
      ∃ t, Runs (.replica st m k epoch d) s t ∧ t.em.replicas = rest ++ [⟨st, b, k, epoch, d⟩] ∧ Frame [.em] s t) ∧
    (s.emberLines st < u.emberUsed st + recLines d →
      ∃ t, Runs (.replica st m k epoch d) s t ∧ t.em.replicas = rest ∧
        t.rdN st Reg.EMB_EC_REPL_DROP = satAdd 0xFFFFFFFF (s.rdN st Reg.EMB_EC_REPL_DROP) 1 ∧ Frame [.pg, .em] s t))

/-- The hopper and the slots of the embedding complex (R163, R164, R179). An enabled ring starts at HEAD 0, TAG 0, GEN 1; a doorbell
takes the entry at HEAD only with the expected TAG and GEN; stale entries are read again, eight times, and then logged; blocks go
to a hopper lift's tail chair; a slot is enabled over mapped areas and disabled outside steps and sweeps. -/
def Obligations.HopperAndSlots : Prop :=
  (∀ ag st h v s, s.accepts ag st 0x71 v → st < 4 → h < 8 →
    let k := Reg.EMB_HOP_h_CTRL + 32 * h
    bitOf (s.rdN st k) 0 = false → bitOf v.toNat 0 = true → s.blockOn st 0x71 = true →
    (∃ n, 1 ≤ n ∧ n ≤ 16 ∧ (s.hopCfg st h).size = 2 ^ n) →
    ∃ t, Runs (.hopperRingEnable ag st h v) s t ∧ t.rd st k = v &&& 0xFF ∧ (t.hop st h).head = 0 ∧ (t.hop st h).tag = 0 ∧
      (t.hop st h).gen = 1 ∧ Frame [.pg, .em] s t) ∧
  (∀ ag st h tail s, s.accepts ag st 0x71 (w32 tail) →
    let g := s.hopCfg st h
    let p := s.hop st h
    let e := s.vrdN g.ctx (g.base + 64 * p.head) 64
    let x := tail % 2 ^ 17
    let fresh := leAt e 0x3E 2 = p.tag ∧ leAt e 0x3C 1 % 2 = p.gen
    (g.on = false ∨ g.size ≤ x ∨ x = p.head → Runs (.hopperDoorbell ag st h tail) s s) ∧
    (g.on = true → x < g.size → x ≠ p.head → p.doing = none → p.fetching = false →
      s.memBad st g.ctx [(g.base + 64 * p.head, 64)] false = none →
      ∃ t, Runs (.hopperDoorbell ag st h tail) s t ∧ (t.hop st h).tail = x ∧
        (fresh → (t.hop st h).head = (p.head + 1) % g.size ∧ (t.hop st h).tag = (p.tag + 1) % 65536 ∧
          (t.hop st h).doing = some (e, 0)) ∧
        (¬fresh → (t.hop st h).head = p.head ∧ (t.hop st h).tag = p.tag ∧ (t.hop st h).doing = none ∧
          (t.hop st h).fetching = true) ∧ Frame (reaching [.em]) s t)) ∧
  (∀ st h s, let g := s.hopCfg st h
    let p := s.hop st h
    let e := s.vrdN g.ctx (g.base + 64 * p.head) 64
    let fresh := leAt e 0x3E 2 = p.tag ∧ leAt e 0x3C 1 % 2 = p.gen
    p.fetching = true → s.memBad st g.ctx [(g.base + 64 * p.head, 64)] false = none →
    ∃ t, Runs (.announcementReread st h) s t ∧
      (fresh → (t.hop st h).head = (p.head + 1) % g.size ∧ (t.hop st h).tag = (p.tag + 1) % 65536 ∧
        (t.hop st h).fetching = false ∧ (t.hop st h).doing = some (e, 0) ∧ Frame (reaching [.em]) s t) ∧
      (¬fresh → (t.hop st h).head = p.head ∧ (t.hop st h).tag = p.tag ∧
        (p.tries + 1 < 8 → (t.hop st h).tries = p.tries + 1 ∧ Frame (reaching [.em]) s t) ∧
        (8 ≤ p.tries + 1 → (t.hop st h).fetching = false ∧ Frame (reaching [.pg, .em, .out]) s t))) ∧
  (∀ st h e d y n last s, let g := s.hopCfg st h
    (s.hop st h).doing = some (e, d) → (s.liftCfg st g.lift).enable = true → (s.liftCfg st g.lift).producer = 1 →
    (s.lift st g.lift).chair (s.lift st g.lift).tail = 0 → (annOf e).ok = true →
    s.nextBlock g.ctx (annOf e) d (s.liftCfg st g.lift).size = some (y, n, last) →
    s.memBad st g.ctx [((annOf e).occ + 8 * d, 8 * n), ((annOf e).wgt + 2 * d, if (annOf e).wgt = 0 then 0 else 2 * n)] false = none →
    (last = true → (s.hop st h).head = (s.hop st h).tail) →
    ∃ t, Runs (.hopperBlockWrite st h .ok) s t ∧ (t.lift st g.lift).chair (s.lift st g.lift).tail = 2 ∧
      (t.lift st g.lift).tail = ((s.lift st g.lift).tail + 1) % (s.liftCfg st g.lift).chairs ∧
      (t.hop st h).doing = (if last = true then none else some (e, d + n)) ∧ Frame (reaching [.mem, .sp, .em]) s t) ∧
  (∀ ag st b v s, s.accepts ag st 0x70 v → st < 4 → b < 8 →
    let k := Reg.EMB_JOB_b_CTRL + 16 * b
    let at_ := fun lo hi => s.rdN st (lo + 32 * b) + 2 ^ 32 * fld (s.rd st (hi + 32 * b)) 15 0
    (bitOf (s.rdN st k) 0 = false → v &&& 1 ≠ 0 → s.blockOn st 0x70 = true → s.kd.serviceOnly = false →
      s.mapped (s.tdir st b).1 (at_ Reg.EMB_JOB_b_MRG_LO Reg.EMB_JOB_b_MRG_HI) (4096 * s.rdN st (Reg.EMB_JOB_b_MRG_SIZE + 32 * b)) true = true →
      s.mapped (s.tdir st b).1 (at_ Reg.EMB_JOB_b_KEY_LO Reg.EMB_JOB_b_KEY_HI) (4096 * s.rdN st (Reg.EMB_JOB_b_KEY_SIZE + 32 * b)) true = true →
      ∃ t, Runs (.embJobEnable ag st b v) s t ∧ t.rd st k = 1 ∧ Frame [.pg] s t) ∧
    (bitOf (s.rdN st k) 0 = true → v &&& 1 = 0 → (s.job b).inStep = false →
      (∀ q, q < 4 → bitOf (s.rdN q (Reg.SWP_JOB_b_CTRL + 64 * b)) 0 = false) →
      ∃ t, Runs (.embJobDisable ag st b v) s t ∧ t.rd st k = 0 ∧ (∀ e ∈ t.em.embers, ¬(e.st = st ∧ e.slot = b)) ∧
        (∀ r ∈ t.em.replicas, ¬(r.st = st ∧ r.slot = b)) ∧ t.em.epochs = s.em.epochs ∧ Frame [.pg, .em] s t))

/-- Reduction buffers (R12, R144 to R148). An addition under way is rounded into its element at its home, in the resident line or in the
spill region, or refused with a count; a close waits for its context's additions and is then counted, and CONTRIB closes end the pass
and post their semaphores; the walker keeps every element's value; enabling and disabling a buffer, and the generation that a disable
begins, in which every line reads as zero. -/
def Obligations.ReductionBuffers : Prop :=
  (∀ n a s, s.ht.adds[n]? = some a → a.slot < 8 →
    (s.addRefused a = none →
      let u : State := { s with ht := { s.ht with adds := s.ht.adds.eraseIdx n } }
      let v := encN16 (roundN16 (decN16 (s.elem a.slot a.elem) + decN16 a.value)
        ((s.draw a.ctx).u a.tid (fold40 a.logical (s.rb a.slot).pass) 0x10)).val
      (a.elem < 2 ^ 30 → s.residentElem a.slot a.elem →
        ∃ t, Runs (.rbAddition n .ok) s t ∧ t.ht.adds = s.ht.adds.eraseIdx n ∧ t.elem a.slot a.elem = v ∧
        (∀ b e, b < 8 → e < 2 ^ 30 → 2 ^ 30 * b + e ≠ 2 ^ 30 * a.slot + a.elem → t.elem b e = s.elem b e) ∧
        t.ht.rbs = s.ht.rbs ∧ Frame [.ht, .sw] s t) ∧
      (¬s.residentElem a.slot a.elem → (u.spillReach a.ctx a.slot true (rbHome a.elem) (rbLocal a.elem / 64)).2 = true →
        ∃ t, Runs (.rbAddition n .ok) s t ∧ t.ht = u.ht ∧
        t.mem = (u.setElemTag a.slot a.elem v fun g => g.touch (s.rb a.slot).pass (rbLocal a.elem % 64)).mem ∧
        Frame (reaching [.pg, .mem, .ht, .sw]) s t) ∧
      (∃ t, Runs (.rbAddition n .ue) s t ∧ t.ht = { s.ht with adds := s.ht.adds.eraseIdx n } ∧
        ((t.job a.slot).taint = true ∨ (t.job a.slot).heldTaint = true) ∧ Frame [.pg, .ht, .sw, .out, .free] s t)) ∧
    (∀ code ecc, s.addRefused a = some code →
      ∃ t, Runs (.rbAddition n ecc) s t ∧ t.ht = { s.ht with adds := s.ht.adds.eraseIdx n } ∧
        t.rdN (rbHome a.elem) (rbReg a.slot Reg.HTH_RB_b_REFUSED) =
          satAdd 0xFFFFFFFF (s.rdN (rbHome a.elem) (rbReg a.slot Reg.HTH_RB_b_REFUSED)) 1 ∧
        Frame [.pg, .ht, .sw, .out, .free] s t)) ∧
  (∀ slot ctx c s, (s.rb slot).waitClose.find? (fun c => c.ctx == ctx) = some c →
    (s.ht.adds.any fun a => a.slot == slot && a.ctx == ctx && a.pass == c.pass) = false →
    let r := s.rb slot
    let all := r.closed ++ [c]
    let now := all.filter fun d => d.pass == r.pass
    let n := fld (s.rbCfg 0 slot) 5 1
    (r.allClosed = true ∨ now.length < n ∨ now = [] →
      ∃ t, Runs (.rbCloseCounted slot ctx) s t ∧ t.cpass slot ctx = min 255 (c.pass + 1) ∧
        t.rb slot = { r with waitClose := r.waitClose.erase c, closed := all } ∧ t.ht.elems = s.ht.elems ∧ Frame [.ht] s t) ∧
    (r.allClosed = false → n ≤ now.length → now ≠ [] → (all.filter fun d => d.pass == r.pass + 1) = [] → r.pass ≤ 255 →
      ∃ t, Runs (.rbCloseCounted slot ctx) s t ∧ t.cpass slot ctx = min 255 (c.pass + 1) ∧
        (t.rb slot).pass = (if r.pass = 255 then 255 else r.pass + 1) ∧ ((t.rb slot).allClosed = true ↔ r.pass = 255) ∧
        (∀ d ∈ now, 1 ≤ (t.ctx d.ctx).sem d.sem) ∧ t.ht.elems = s.ht.elems ∧ Frame [.pg, .cx, .sq, .ht, .sw, .out] s t)) ∧
  (∀ st slot s, has (s.rb slot).walking st = true →
    ∃ t, Runs (.rbWalk st slot) s t ∧
      t.rb slot = { s.rb slot with walking := (s.rb slot).walking.filter fun d => d != st } ∧
      (∀ b, b ≠ slot → t.rb b = s.rb b) ∧
      ((s.ht.tags.map (·.1)).Nodup → ∀ b e, b < 8 → e < 2 ^ 30 → s.residentElem b e → t.elem b e = s.elem b e) ∧
      (∀ p ∈ t.ht.tags, p.1 / 2 ^ 24 = 4 * slot + st → p.2.gen = (s.rb slot).gen) ∧ Frame (reaching [.pg, .mem, .ht]) s t) ∧
  (∀ st slot s, has (s.rb slot).walking st = false → Runs (.rbWalk st slot) s s) ∧
  (∀ ag st b v s, s.accepts ag st 0x61 v → st < 4 → b < 8 →
    let k := rbReg b Reg.HTH_RB_b_CFG
    let g := s.spillRegion st b
    let u := fld (s.rd st (rbReg b Reg.HTH_RB_b_SIZE)) 12 0
    (bitOf (s.rd st k).toNat 0 = false → bitOf v.toNat 0 = true → s.blockOn st 0x61 = true →
      1 ≤ fld (v &&& 0x3F) 5 1 → fld (v &&& 0x3F) 5 1 ≤ 16 → 1 ≤ u → u ≤ 4096 → s.mapped g.1 g.2.1 g.2.2 true = true →
      s.pinFits g.1 g.2.1 g.2.2 = true →
      ∃ t, Runs (.rbEnable ag st b v) s t ∧ t.rd st k = v &&& 0x3F ∧ t.ht = s.ht ∧ Frame [.pg, .mem, .ca, .tr, .out] s t) ∧
    (bitOf (s.rd st k).toNat 0 = true → v &&& 0x3F = s.rd st k &&& 0x3E → (s.job b).inStep = false →
      ∃ t, Runs (.rbDisable ag st b v) s t ∧ t.rd st k = v &&& 0x3F ∧ (t.rb b).gen = ((s.rb b).gen + 1) % 65536 ∧
        (t.rb b).pass = 0 ∧ (∀ c, c < 4096 → t.cpass b c = 0) ∧
        ((∀ p ∈ s.ht.tags, p.2.gen ≠ ((s.rb b).gen + 1) % 65536) → ∀ e, s.residentElem b e → t.elem b e = 0) ∧
        (∀ m ∈ t.em.merge, m.slot ≠ b) ∧ (∀ d, d ≠ b → t.rb d = s.rb d) ∧ Frame [.pg, .tr, .ht, .em] s t)) ∧
  (∀ (i : Iss) (sem c : Nat) (s : State), s.canIssue i c [] → (s.ctx c).isEval = false →
    let b := (s.ctx c).slot
    (s.closeRefused b c = false →
      ∃ t f, Runs (.rbClose i sem) s t ∧ Launches s t i c f ∧ f.body = .plain ∧
        t.rb b = { s.rb b with waitClose := (s.rb b).waitClose ++ [⟨c, s.cpass b c, sem, i.sq⟩] } ∧ SameRegs s t i ∧
        t.mem = s.mem ∧ Frame [.pg, .cx, .sq, .ht] s t) ∧
    (s.closeRefused b c = true →
      ∃ t f, Runs (.rbClose i sem) s t ∧ Launches s t i c f ∧ f.body = .plain ∧ t.ht = s.ht ∧ SameRegs s t i ∧
        Frame [.pg, .cx, .sq, .sw, .out, .free] s t))

/-- Atomic windows (R154, R157). BIND takes the set-up registers' range where it is mapped, fits the atomic ways and meets no other
window, and its lines are read; UNBIND gives them up; RESET; a flush leaves no general line of the stove dirty. -/
def Obligations.AtomicWindows : Prop :=
  ∀ ag st w s, st < 4 → w < 16 →
    (s.accepts ag st 0x61 1 → s.bindOk st w = true →
      ∃ t, Runs (.atomicWindowBind ag st w) s t ∧ t.awin st w = s.awinCfg st w ∧
        (∀ d v, 16 * d + v ≠ 16 * st + w → t.awin d v = s.awin d v) ∧ bitOf (t.rdN st Reg.HTH_AW_BOUND) w = true ∧
        Frame (reaching [.pg, .ht]) s t) ∧
    (s.accepts ag st 0x61 2 → (s.awin st w).bound = true →
      ∃ t, Runs (.atomicWindowUnbind ag st w) s t ∧ t.awin st w = { s.awin st w with bound := false } ∧
        (∀ d v, 16 * d + v ≠ 16 * st + w → t.awin d v = s.awin d v) ∧ bitOf (t.rdN st Reg.HTH_AW_BOUND) w = false ∧
        Frame [.pg, .ca, .tr, .ht] s t) ∧
    (s.accepts ag st 0x61 4 →
      ∃ t, Runs (.atomicWindowReset ag st w) s t ∧ t.awin st w = { s.awin st w with count := 0 } ∧
        (∀ d v, 16 * d + v ≠ 16 * st + w → t.awin d v = s.awin d v) ∧ Frame [.ht] s t) ∧
    (s.accepts ag st 0x60 1 →
      ∃ t, Runs (.hthFlush ag st) s t ∧ t.ca.lines.map (·.line) = s.ca.lines.map (·.line) ∧
        (∀ h ∈ t.ca.lines, h.kind = 0 → 128 * h.line / hbmRegion = st → h.dirty = false) ∧ Frame [.ca] s t)

/-- Hearth atomics at issue (R152, R153, R155, R234). An ordered addition waits in its window with its ordinal; MAX_N16 and MIN_N16
apply at once where their pages are in HBM, and change no byte outside their target; CAS32 and INC32 replace their word, and the old
one lands in the window when they complete. -/
def Obligations.AtomicsIssue : Prop :=
  ∀ (i : Iss) (h : HatomOps) (c : Nat) (s : State), i.rd = .ok →
    let x := s.srcOf i 0x3C c
    let u := s.atIssue i 0x3C c
    let v := u.view i.st i.sq c h.a 0 0
    let w := u.view i.st i.sq c h.b v.rows v.cols
    let ready := fun (fmt : Fmt) (a : AtomF) => s.canIssue i c [h.b] ∧ u.atomCheck x fmt h v w = none ∧ v.size ≠ 0 ∧
      v.place = .virt ∧ w.place ≠ .rb ∧ u.guardedView c v = false ∧ u.mergeView c v = false ∧ u.mergeView c w = false ∧
      (u.askPages c a.pages).2 = none ∧ (u.askPages c a.pages).1.clearTo x [w, v] [] [] [h.a, h.b]
    let add := fun (op : Nat) (fmt : Fmt) (cmd : Instr) => ∀ win, u.windowOf i.st c v.addr (v.extent - v.addr) = some win →
      let a := u.atomOf x op win h v w
      ready fmt a →
      (u.aheadOf i.st a < 32768 →
        ∃ t f, Runs cmd s t ∧ Launches s t i c f ∧ f.body = .atom a ∧ f.lines = [] ∧ f.chairs = u.readersOf c [h.b] ∧
          t.mem = s.mem ∧ SameRegs s t i ∧ Frame (reaching [.pg, .sq, .sp, .ht, .sw, .out]) s t) ∧
      (32768 ≤ u.aheadOf i.st a →
        ∃ t, Runs cmd s t ∧ t.sq.flights = s.sq.flights ∧
          (∀ k, (t.ctx c).sem k = semPosted i k (s.semTaken i c k)) ∧
          Frame (reaching [.pg, .sq, .sp, .ht, .sw, .out, .free]) s t)
    let best := fun (op : Nat) (cmd : Instr) =>
      let a := u.atomOf x op ((u.windowOf i.st c v.addr (v.extent - v.addr)).getD 0) h v w
      ready .n16 a →
      (u.pagesReady c a.pages = true →
        ∃ t f, Runs cmd s t ∧ Launches s t i c f ∧ f.body = .plain ∧ f.lines = [] ∧ t.mem = (u.atomMax c a).mem ∧
          MemOutside s t c [v] ∧ SameRegs s t i ∧ Frame (reaching [.pg, .mem, .sq, .sp, .ht, .sw, .out]) s t) ∧
      (u.pagesReady c a.pages = false →
        ∃ t f, Runs cmd s t ∧ Launches s t i c f ∧ f.body = .atom a ∧ SameRegs s t i ∧
          Frame (reaching [.pg, .sq, .sp, .ht, .sw, .out]) s t)
    let va := (s.seq i.st i.sq).addr48 h.ra
    let o := if h.b.absent = true then none else u.wordOpd x h.b
    let tv : View := { place := .virt, addr := va, fmt := .n16, rows := 1, cols := 2, stride := 16 }
    let old := w32 (leNat (s.vrdN c va 4))
    let word := fun (op : Nat) (new : W32) (cmd : Instr) => s.canIssue i c [] → va % 4 = 0 → u.mapped c va 4 true = true →
      (h.b.absent = true ∨ o ≠ none) → u.guarded c va 4 = false → u.mergeView c tv = false →
      (u.askPages c (pageRange va 4)).2 = none →
      (u.askPages c (pageRange va 4)).1.clearTo x [tv] (o.toList.map wordView) [] [] →
      (u.pagesReady c (pageRange va 4) = true →
        ∃ t f, Runs cmd s t ∧ Launches s t i c f ∧ f.body = .plain ∧ SameRegs s t i ∧
          ((∀ d ∈ o.toList, s.apart c tv (wordView d)) → ∀ j, j < 4 → s.writable (s.byteAddr c tv j) = true →
            t.mrd (s.byteAddr c tv j) = (leBytes 4 new.toNat).getD j 0) ∧
          (o = none → f.writes = []) ∧
          (∀ d, o = some d → ∀ j, j < 4 → s.writable (s.byteAddr c (wordView d) j) = true →
            (s.byteAddr c (wordView d) j, (leBytes 4 old.toNat).getD j 0) ∈ f.writes) ∧
          MemOutside s t c [tv] ∧ Frame (reaching [.pg, .mem, .sq, .sp, .ht, .sw, .out]) s t) ∧
      (u.pagesReady c (pageRange va 4) = false →
        ∃ t f, Runs cmd s t ∧ Launches s t i c f ∧ (∃ a, f.body = .atom a ∧ a.op = op ∧ a.va = va ∧ a.dest = o) ∧
          SameRegs s t i ∧ Frame (reaching [.pg, .sq, .sp, .ht, .sw, .out]) s t)
    add 0 .n16 (.addN16 i h) ∧ add 1 .b16 (.addB16 i h) ∧ best 2 (.maxN16 i h) ∧ best 3 (.minN16 i h) ∧
      word 4 (if old = (s.seq i.st i.sq).sreg h.rb then (s.seq i.st i.sq).sreg h.rc else old) (.cas32 i h) ∧
      word 5 (w32 (satAdd 0xFFFFFFFF old.toNat 1)) (.inc32 i h)

/-- Ordered additions that wait (R155). The addition whose ordinal is the window's count is applied, to its target alone, and the
count advances; one that waits too long is discarded, with its post made. -/
def Obligations.OrderedAdditions : Prop :=
  (∀ st w f a s, let g := s.awin st w
    s.waitingAdd st w (g.count % 65536) = some (f, a) → g.bound = true → s.pagesReady f.ctx a.pages = true →
    s.flight f.id = some f → (∀ e ∈ s.sq.flights, e.id = f.id → e = f) → a.target.place = .virt → a.vals.length = a.target.size →
    s.memBad f.st f.ctx a.target.vranges false = none →
    ∃ t, Runs (.atomAddApply st w) s t ∧ (t.awin st w).count = g.count + 1 ∧ t.flight f.id = some { f with body := .plain } ∧
      t.mem = (s.atomAdd f.ctx a g.count).mem ∧ MemOutside s t f.ctx [a.target]) ∧
  (∀ st w n f a s, s.waitingAdd st w n = some (f, a) →
    ∃ t, Runs (.atomTimeout st w n) s t ∧ t.sq.flights = s.sq.flights.filter (fun e => e.id != f.id) ∧
      (∀ p, f.post = some p → 1 ≤ (t.ctx f.ctx).sem p) ∧ t.awin st w = s.awin st w ∧
      Frame [.pg, .cx, .sq, .sp, .sw, .out, .free] s t)

/-- Collectives at issue (R94, R294, R295). Each of the nine that move data takes the slot's next number and, its checks passed,
enters the engine with its views; only its destination changes. One that fails a check is skipped with its number taken. (That the
operand `far` carries whether another module's range is mapped is DEDUCED, log 70.) -/
def Obligations.CollectivesIssue : Prop :=
  ∀ (i : Iss) (o : CollOps) (c : Nat) (s : State), s.canIssue i c [] →
    let go := fun (op : Nat) (cmd : Instr) =>
      let x := s.srcOf i 0x40 c
      let u := s.atIssue i 0x40 c
      let b := (s.ctx c).slot
      let n := (s.cjob b).cseq
      let v := u.collViews x op o
      (u.collFails x op o v = none → u.collCheck x b op v o.far = none → i.rd = .ok → FlightsNumbered s →
        (s.job b).abortSeen = false → u.mergeView c v.a = false → u.mergeView c v.b = false → u.clearTo x [v.a] [v.b] [] [o.a, o.b] →
        ((s.ctx c).isEval = false ∨ ((v.b.size = 0 ∨ v.b.place ≠ .rb) ∧ u.guardedView c v.b = false ∧
          (op = 7 → u.jobHit (u.dirCtx b) v.remote (u.remoteLen c op v) = false))) →
        (∀ f ∈ s.sq.flights, ∀ p, f.body = .coll p → ¬(p.slot = b ∧ p.step = (s.job b).step ∧ p.cseq = n)) →
        ∃ t f, Runs cmd s t ∧ Launches s t i c f ∧
          (f.body = .plain ∨ ∃ p : CollF, f.body = .coll p ∧ p.op = op ∧ p.cseq = n ∧ p.slot = b ∧ p.a = v.a ∧ p.b = v.b ∧
            p.peer = v.peer) ∧
          f.lines = u.viewLines c v.b ∧ (t.cjob b).cseq = (n + 1) % 2 ^ 32 ∧
          (v.b.place ≠ .rb → MemOutside s t c [v.b] ∧ t.ht.elems = s.ht.elems) ∧ SameRegs s t i ∧
          Frame (reaching [.pg, .mem, .sq, .sp, .ht, .sw, .fb, .out, .free]) s t) ∧
      (u.collFails x op o v ≠ none ∨ u.collCheck x b op v o.far ≠ none →
        ∃ t, Runs cmd s t ∧ t.sq.flights = s.sq.flights ∧ (t.cjob b).cseq = (n + 1) % 2 ^ 32 ∧
          t.rdN i.st Reg.SEQ_SKIP_TOTAL = satAdd 0xFFFFFFFF (s.rdN i.st Reg.SEQ_SKIP_TOTAL) 1 ∧ SameRegs s t i ∧
          Frame [.pg, .cx, .sq, .sw, .fb, .out] s t)
    go 0 (.allReduce i o) ∧ go 1 (.reduceScatter i o) ∧ go 2 (.allGather i o) ∧ go 3 (.allToAll i o) ∧ go 4 (.broadcast i o) ∧
      go 5 (.flagOr i o) ∧ go 6 (.maxColl i o) ∧ go 7 (.put i o) ∧ go 8 (.get i o)

/-- PISTE and STEP_END (R294, R295, R298, R301): PISTE of a loaded entry holds the job's egress until the switch, STEP_END marks the
end of the step's collectives; neither takes a collective number. -/
def Obligations.PisteAndStepEnd : Prop :=
  ∀ (i : Iss) (o : CollOps) (c : Nat) (s : State), s.canIssue i c [] →
    let b := (s.ctx c).slot
    ((s.cjob b).image o.piste ≠ none →
      ∃ t f, Runs (.piste i o) s t ∧ Launches s t i c f ∧ f.body = .piste b o.piste ∧
        t.cjob b = { s.cjob b with switching := some ((s.cjob b).switching.getD o.piste) } ∧ SameRegs s t i ∧
        Frame [.pg, .cx, .sq, .fb] s t) ∧
    ((s.cjob b).image o.piste = none →
      ∃ t, Runs (.piste i o) s t ∧ t.sq.flights = s.sq.flights ∧
        t.rdN i.st Reg.SEQ_SKIP_TOTAL = satAdd 0xFFFFFFFF (s.rdN i.st Reg.SEQ_SKIP_TOTAL) 1 ∧ Frame [.pg, .cx, .sq, .sw, .out] s t) ∧
    (∃ t, Runs (.stepEnd i) s t ∧ t.sq.flights = s.sq.flights ∧
      (∀ k, (t.ctx c).sem k = semPosted i k (s.semTaken i c k)) ∧
      ((s.ctx c).isJob = true → (s.job b).inStep = true → (t.job b).stepEnd = true) ∧ SameRegs s t i ∧
      Frame [.pg, .cx, .sq, .sw, .out] s t)

/-- Messages of GET and PUT (R288, R290, R295). A peer reads or writes mapped memory of the job's address space; what a GET asked for
goes into its destination alone; a request for what is not mapped, or is bad, is answered UNREACHABLE with its own header (DEDUCED for bad
data, log 69); a request that cannot be delivered is counted, and gives a lookup an invalid row and faults the
context of a GET or PUT. -/
def Obligations.PeerMessages : Prop :=
  (∀ m addr len b s, s.fenced m = false → s.slotOf m.jtag = some b →
    (s.mapped (s.dirCtx b) addr len false = true → s.memBad 0 (s.dirCtx b) [(addr, len)] false = none →
      ∃ u, Runs (.getRequest m addr ⟨len, none, .ok⟩) s (u.send (some b) 0x16 m.src [] (s.vrdN (s.dirCtx b) addr len) m.ctx
        (some m.step) m.cseq) ∧ Frame reachParts s u) ∧
    (∀ ecc, s.mapped (s.dirCtx b) addr len false = true → (s.ownRead 0 b addr len ecc 1).2 ≠ none →
      Runs (.getRequest m addr ⟨len, none, ecc⟩) s ((s.ownRead 0 b addr len ecc 1).1.turnAway b 3 m)) ∧
    (∀ ecc, s.mapped (s.dirCtx b) addr len false = false →
      Runs (.getRequest m addr ⟨len, none, ecc⟩) s (s.turnAway b 3 m)) ∧
    (∀ q d ecc, s.fixAnswer b q = some d →
      Runs (.getRequest m addr ⟨len, some q, ecc⟩) s (s.send (some b) 0x16 m.src [q.id] d m.ctx (some m.step) m.cseq))) ∧
  (∀ m addr d b s, s.fenced m = false → s.slotOf m.jtag = some b →
    (s.mapped (s.dirCtx b) addr d.length true = true →
      s.memBad (stoveOf (s.dirCtx b)) (s.dirCtx b) [(addr, d.length)] true = none →
      ∃ t, Runs (.putRequest m addr d) s t ∧ t.mem = (s.vwrN (s.dirCtx b) addr d).mem ∧
        (∀ a, (∀ j, j < d.length → s.vaAddr (s.dirCtx b) (addr + j) ≠ some a) → t.mrd a = s.mrd a) ∧
        Frame (reaching [.pg, .mem, .ht, .fb, .out]) s t) ∧
    (s.mapped (s.dirCtx b) addr d.length true = false ∨
        s.memBad (stoveOf (s.dirCtx b)) (s.dirCtx b) [(addr, d.length)] true ≠ none →
      Runs (.putRequest m addr d) s (s.turnAway b 4 m))) ∧
  (∀ m id d f p s, s.fenced m = false → s.flight id = some f → f.body = .coll p → p.op = 8 → p.peer = m.src →
    ∃ t, Runs (.data m id d) s t ∧ t.flight id = some { f with body := .plain } ∧ t.mem = (s.unpack f.ctx p.b d).mem ∧
      (p.b.place ≠ .rb → MemOutside s t f.ctx [p.b]) ∧ Frame [.mem, .ht, .sq, .tr] s t) ∧
  (∀ m st k id f l j e s, s.fenced m = false → s.waiting st m.ctx k = some (f, l, j, e) →
    ∃ t, Runs (.unreachable m st (some k) id) s t ∧
      t.rdN 4 Reg.COL_UNREACH_TOTAL = satAdd 0xFFFFFFFF (s.rdN 4 Reg.COL_UNREACH_TOTAL) 1 ∧
      t.rdN f.st Reg.EMB_DROPPED = satAdd 0xFFFFFFFF (s.rdN f.st Reg.EMB_DROPPED) 1) ∧
  (∀ m st id f p s, s.fenced m = false → s.flight id = some f → f.body = .coll p → p.op = 7 ∨ p.op = 8 → (s.ctx f.ctx).valid = true →
    (s.ctx f.ctx).state ≠ 4 →
    ∃ t, Runs (.unreachable m st none id) s t ∧ (t.ctx f.ctx).state = 4 ∧ (t.ctx f.ctx).fault = 7 ∧
      (t.ctx f.ctx).faultType = 0xE)

/-- Collective data, time limits and ABORT (R294, R296, R297). Data for a later collective is kept, data of an older step is
dropped, data that its collective takes goes into it, and data that disagrees is discarded, logged and taints; a collective that
does not end in time ends with only its destination changed and its semaphore posted; ABORT ends every collective of the step. -/
def Obligations.CollectiveMessages : Prop :=
  (∀ m op count chunk level node d b s, s.fenced m = false → s.slotOf m.jtag = some b → has (s.members b) m.src = true →
    let c : CMsg := ⟨b, m.src, m.cseq, m.step, op, count, chunk, level, node, d⟩
    let cmd := Instr.cdata m op count chunk level node d
    (m.step < (s.job b).step → Runs cmd s s) ∧
    (s.collOf b m.step m.cseq = none → (s.job b).step < m.step →
      ∃ t, Runs cmd s t ∧ t.fb.early = s.fb.early ++ [c] ∧ Frame [.fb] s t) ∧
    (∀ f p, (s.job b).step ≤ m.step → s.collOf b m.step m.cseq = some (f, p) →
      (((s.setNext f.id).collData (s.collAt f p) p m.src c).2 = true →
        Runs cmd s (((s.setNext f.id).collData (s.collAt f p) p m.src c).1.setNext s.sq.nextId)) ∧
      (p.op ≠ op ∨ p.count ≠ count → ∃ t, Runs cmd s t ∧ t.sq.flights = s.sq.flights ∧
        ((s.ctx f.ctx).isJob = true → (t.job (s.ctx f.ctx).slot).taint = true ∨ (t.job (s.ctx f.ctx).slot).heldTaint = true) ∧
        Frame [.pg, .sq, .sw] s t)) ∧
    (s.collOf b m.step m.cseq = none → m.step = (s.job b).step → (s.job b).inStep = true → m.cseq < (s.cjob b).cseq →
      ∃ t, Runs cmd s t ∧ (t.job b).taint = true ∧ Frame [.pg, .sw] s t)) ∧
  (∀ slot cseq f p s, s.sq.flights.find? (fun f => match f.body with | .coll p => p.slot == slot && p.cseq == cseq | _ => false) = some f →
    f.body = .coll p → (s.ctx f.ctx).loanWait = false →
    ∃ t, Runs (.collectiveTimeout slot cseq) s t ∧ t.sq.flights = s.sq.flights.filter (fun g => g.id != f.id) ∧
      (∀ k, f.post = some k → 1 ≤ (t.ctx f.ctx).sem k) ∧
      ((s.ctx f.ctx).isJob = true → (t.job (s.ctx f.ctx).slot).taint = true ∨ (t.job (s.ctx f.ctx).slot).heldTaint = true) ∧
      (p.b.place ≠ .rb → MemOutside s t f.ctx [p.b]) ∧ Frame [.pg, .mem, .cx, .sq, .sp, .ht, .sw, .tr, .out, .free] s t) ∧
  (∀ m b s, s.fenced m = false → s.slotOf m.jtag = some b → has (s.members b) m.src = true →
    ((s.job b).inStep = true → m.step = (s.job b).step → (s.job b).abortSeen = false →
      ∃ t, Runs (.abort m) s t ∧ (t.job b).abortSeen = true ∧ (t.job b).taint = true ∧
        (∀ g ∈ t.sq.flights, ∀ p, g.body = .coll p → p.slot ≠ b)) ∧
    ((s.job b).inStep = true → m.step = (s.job b).step → (s.job b).abortSeen = true → Runs (.abort m) s s) ∧
    ((s.job b).step < m.step → ∃ t, Runs (.abort m) s t ∧
      t.fb.early = s.fb.early ++ [⟨b, m.src, 0, m.step, 16, 0, 0, 0, 0, []⟩] ∧ Frame [.pg, .fb, .out] s t))

/-- The verdict (R15, R16, R18, R173, R191, R208, R298). The module contributes once its partials are acknowledged or the step is
aborted; contributions are kept by member and step; with all of them an overflow or a taint skips the step on every module, a
clear verdict begins the sweep, and either waits behind the slot that is being swept; a verdict that does not come abandons the step. -/
def Obligations.Verdict : Prop :=
  (∀ slot s, let j := s.job slot
    j.inStep = true → j.sent = false → (j.abortSeen = true ∨ (j.stepEnd = true ∧ s.partialsDone slot = true)) →
    let w := s.readList slot j.step
    ∃ t c, Runs (.verdictStart slot) s t ∧ (t.job slot).sent = true ∧ (t.job slot).vstate = 2 ∧
      (t.job slot).contrib = j.contrib ++ [(s.fb.lid.getD 0, j.step, c)] ∧ c.overflow = s.overflowFlag slot ∧ c.taint = j.taint ∧
      c.listDigest = BitVec.ofNat 64 (listDigest j.step w.1 w.2) ∧ (t.job slot).orders = w.2 ∧
      c.listOk = decide (s.listFails slot w.1 (w.2.map orderOf) = 0) ∧ Frame (reaching [.mem, .ht, .sw, .fb, .out]) s t) ∧
  (∀ m c b s, s.fenced m = false → s.slotOf m.jtag = some b → has (s.members b) m.src = true →
    ∃ t, Runs (.verdict m c) s t ∧
      t.job b = { s.job b with
        contrib := (s.job b).contrib.filter (fun p => p.1 != m.src || p.2.1 != m.step) ++ [(m.src, m.step, c)] } ∧
      (∀ d, d ≠ b → t.job d = s.job d) ∧ Frame [.sw] s t) ∧
  (∀ slot e unit cs s, slot < 8 → s.verdictOf slot = some cs → (s.job slot).inStep = true → (s.job slot).phase = 0 →
    (s.job slot).sent = true → (s.job slot).begun = false →
    let busy := (List.range 8).any fun b => (s.job b).phase == 1 && (s.job b).begun && !(s.job b).applied
    let skip := if (cs.any fun c => c.2.overflow) = true then some 1 else if (cs.any fun c => c.2.taint) = true then some 2 else none
    (∀ o, busy = false → s.sw.queue = [] → skip = some o → ∃ t, Runs (.verdictDone slot e unit) s t ∧ Resolved s t slot o) ∧
    (busy = false → s.sw.queue = [] → skip = none →
      ∃ t, Runs (.verdictDone slot e unit) s t ∧ (t.job slot).inStep = true ∧ (t.job slot).phase = 1 ∧ (t.job slot).begun = true ∧
        (t.job slot).step = (s.job slot).step ∧ (t.job slot).vstate = 3) ∧
    (busy = true →
      ∃ t, Runs (.verdictDone slot e unit) s t ∧ (t.job slot).inStep = true ∧ (t.job slot).phase = 1 ∧ (t.job slot).begun = false ∧
        (t.job slot).step = (s.job slot).step ∧ (t.job slot).vstate = 3 ∧ t.sw.queue = s.sw.queue ++ [⟨slot, skip, e, unit⟩])) ∧
  (∀ slot s, slot < 8 → (s.job slot).inStep = true → (s.job slot).phase = 0 →
    ((s.job slot).stepEnd = true ∨ (s.job slot).abortSeen = true) →
    ∃ t, Runs (.verdictTimeout slot) s t ∧ Resolved s t slot 3)

/-- Migration and comparison messages of a sweep (R173, R193, R216, R294). -/
def Obligations.SweepMessages : Prop :=
  (∀ st m x b s, s.fenced m = false → s.slotOf m.jtag = some b → (s.job b).inStep = true → m.step = (s.job b).step →
    let k : Key := ⟨x.table, x.row⟩
    let ack := fun (u : State) => u.send (some b) 0x13 m.src [keyArg k 1] [] m.ctx (some m.step)
    (x.master = [] → ∃ t, Runs (.ship st m x) s t ∧ t.job b = { s.job b with ships := (s.job b).ships ++ [(st, x)] } ∧
      Frame [.pg, .sw, .fb, .out] s t) ∧
    (∀ a, x.master ≠ [] → ((s.job b).orders.map orderOf).findSome? (s.prepared b st k) = some a →
      Runs (.ship st m x) s (ack ((s.ownWrite st b a.1 x.working).ownWrite st b a.2 x.master)))) ∧
  (∀ st m b s, s.fenced m = false → s.slotOf m.jtag = some b →
    (∃ t, Runs (.ack st m 0) s t ∧
      t.partsOut b m.step = s.partsOut b m.step - 1 ∧ (∀ c n, 8 * n + c ≠ 8 * m.step + b → t.partsOut c n = s.partsOut c n) ∧
      Frame [.em] s t) ∧
    (∃ t, Runs (.ack st m 1) s t ∧ t.job b = { s.job b with shipOut := (s.job b).shipOut - 1 } ∧ Frame [.sw] s t) ∧
    (∀ f p, s.sq.flights.find? (fun f => match f.body with | .coll p => p.slot == b && p.op == 7 && p.cseq == m.cseq | _ => false) =
        some f → f.body = .coll p →
      ∃ t, Runs (.ack st m 2) s t ∧
        t.sq.flights = s.sq.flights.map (fun g => if g.id = f.id then { f with body := .plain } else g) ∧ Frame [.sq] s t)) ∧
  (∀ st m table number shard d b s, s.fenced m = false → s.slotOf m.jtag = some b → (s.job b).inStep = true →
    m.step = (s.job b).step → (s.job b).applied = false →
    ∃ t, Runs (.digest st m table number shard d) s t ∧
      t.job b = { s.job b with digests := (s.job b).digests ++ [⟨st, ⟨table, number⟩, shard, m.src, leNat d⟩] } ∧ Frame [.sw] s t)

/-- The commit vote and the install (R18, R194, R219 to R222). A module votes once its sweep, its shipments and its comparisons are
over, unless the list has changed since its contribution; an overflow or fault vote skips the step, clear votes lead to the
install, which copies the log into place, advances the map epoch on all stoves and resolves the step as committed. -/
def Obligations.VoteAndInstall : Prop :=
  (∀ slot s, let j := s.job slot
    j.inStep = true → j.phase = 1 → j.shipped = true → j.shipOut = 0 →
    (s.sw.repairs.any fun r => r.slot == slot && r.sweep) = false → (s.sw.fixes.any fun f => f.slot == slot && f.kind != 5) = false →
    (j.cmps.any fun c => !c.done) = false →
    let w := s.readList slot j.step
    (listDigest j.step w.1 w.2 = j.listDigest →
      ∃ t f o, Runs (.commitVoteJoin slot) s t ∧ (t.job slot).joined = true ∧ (t.job slot).phase = 2 ∧
        (t.job slot).votes = j.votes ++ [(s.fb.lid.getD 0, f, o)] ∧ (j.fault = true → f = true) ∧ (o = j.overflow) ∧
        Frame (reaching [.pg, .mem, .ht, .sw, .fb, .out]) s t) ∧
    (listDigest j.step w.1 w.2 ≠ j.listDigest → ∃ t, Runs (.commitVoteJoin slot) s t ∧ Frame [.pg] s t)) ∧
  (∀ m fault ovf b s, s.fenced m = false → s.slotOf m.jtag = some b → (s.job b).inStep = true → m.step = (s.job b).step →
    has (s.members b) m.src = true →
    ∃ t, Runs (.vote m fault ovf) s t ∧
      t.job b = { s.job b with votes := (s.job b).votes.filter (fun v => v.1 != m.src) ++ [(m.src, fault, ovf)] } ∧
      Frame [.sw] s t) ∧
  (∀ slot s, slot < 8 → (s.job slot).inStep = true → (s.job slot).phase = 2 →
    ((s.members slot).all fun l => (s.job slot).votes.any fun v => v.1 == l) = true →
    (((s.job slot).votes.any fun v => v.2.2) = true → ∃ t, Runs (.voteResult slot) s t ∧ Resolved s t slot 1) ∧
    (((s.job slot).votes.any fun v => v.2.2) = false → ((s.job slot).votes.any fun v => v.2.1) = true →
      ∃ t, Runs (.voteResult slot) s t ∧ Resolved s t slot 2) ∧
    (((s.job slot).votes.any fun v => v.2.2) = false → ((s.job slot).votes.any fun v => v.2.1) = false →
      ∃ t, Runs (.voteResult slot) s t ∧ t.job slot = { s.job slot with phase := 3 } ∧ Frame [.sw] s t)) ∧
  (∀ slot s, slot < 8 → (s.job slot).inStep = true → ((s.job slot).phase = 1 ∨ (s.job slot).phase = 2) →
    (s.sw.queue.any fun w => w.slot == slot && w.skip.isSome) = false →
    ∃ t, Runs (.voteTimeout slot) s t ∧ Resolved s t slot 3) ∧
  (∀ slot e s, slot < 8 → (s.job slot).inStep = true → (s.job slot).phase = 3 →
    ∃ t, Runs (.sweepCommit slot e) s t ∧ Resolved s t slot 0 ∧
      (∀ st, st < 4 → t.epoch st slot = ((s.job slot).step + 1) % 2 ^ 48)) ∧
  (∀ slot st (s : State), s.tr.broken = [] → s.tr.pcFail = [] → s.tr.pkgFail = [] → s.tr.bad = [] → s.ht.lost = [] →
    s.uc.mods = [] → (s.copyLog slot st []).mem =
    (((s.job slot).log.filter fun e => e.st == st).foldl (fun (u : State) e =>
      if s.mapped (s.tdir st slot).1 e.addr e.bytes.length true = true then u.jwrN st slot e.addr e.bytes else u) s).mem)

/-- The set-up of sweep slots, dampers and suspects (R208, R210, R218, R219). -/
def Obligations.SweepSetup : Prop :=
  (∀ ag st b v s, s.accepts ag st 0x81 v → st < 4 → b < 8 →
    let r := Reg.SWP_JOB_b_CTRL + 64 * b
    let g := s.logRegion st b
    let p := s.plan st b
    (bitOf (s.rd st r).toNat 0 = false → bitOf v.toNat 0 = true → bitOf (s.rdN st (Reg.EMB_JOB_b_CTRL + 16 * b)) 0 = true →
      bitOf (s.rdN 4 (colReg b Reg.COL_JOB_b_CTRL)) 0 = true → s.blockOn st 0x81 = true → s.kd.serviceOnly = false →
      (s.damper st b).initDone = true → s.nextStep st b ≤ 2 ^ 48 - 2 → g.2 ≠ 0 →
      s.mapped (s.tdir st b).1 p.1 (0x4000 + 64 * p.2) false = true → s.jmapped st b g.1 g.2 = true → s.jmapped st b (s.srecAt st b) 64 = true →
      ∃ t, Runs (.swpJobEnable ag st b v) s t ∧ t.rd st r = v &&& 7 ∧ t.epoch st b = s.nextStep st b ∧
        (t.job b).step = s.nextStep st b ∧ Frame (reaching [.pg, .mem, .ht, .em, .sw, .out]) s t) ∧
    (bitOf (s.rd st r).toNat 0 = true → bitOf v.toNat 0 = false → (s.job b).inStep = false →
      ∃ t, Runs (.swpJobDisable ag st b v) s t ∧ t.rd st r = s.rd st r &&& 6 ∧
        t.damper st b = { s.damper st b with initDone := false } ∧ Frame [.pg, .sw, .tr] s t) ∧
    (bitOf v.toNat 31 = true → bitOf (s.swpCtrl st b).toNat 0 = false →
      ∃ t, Runs (.swpDmpInit ag st b v) s t ∧
        t.damper st b = { s.damper st b with s := fld v 7 0, clean := 0, initDone := true } ∧ Frame [.sw] s t)) ∧
  (∀ ag st n v s, s.accepts ag st 0x80 v → n < 16 →
    (bitOf v.toNat 31 = false →
      ∃ t, Runs (.suspectClear ag st n v) s t ∧ t.suspect st n = none ∧
        (∀ d k, 16 * d + k ≠ 16 * st + n → t.suspect d k = s.suspect d k) ∧ Frame [.sw] s t) ∧
    (v = 0 → ∃ t, Runs (.suspLostClear ag st v) s t ∧ t.rd st Reg.SWP_SUSP_LOST = 0 ∧ Frame [.pg] s t))

/-- Rings and doorbells (R266, R271 to R273). The ring window writes and reads a context's ring; a doorbell names a new tail or is
ignored and counted; the descriptor at HEAD, where nothing keeps it from the stove, is accepted only with the expected TAG and GEN, else read again up to 8 times; a completion
record's acknowledgement sends the ring's message. -/
def Obligations.RingsAndDoorbells : Prop :=
  (∀ ag st s, s.accepts ag st 0xC8 1 → let c := s.ringCtx st
    let r := s.ring c
    let w0 := s.rd st Reg.UCI_RING_W0
    let w2 := s.rd st Reg.UCI_RING_W2
    let n := fld w0 17 1
    let base := s.rdN st Reg.UCI_RING_W1 + 2 ^ 32 * fld w2 15 0
    let cpl := s.rdN st Reg.UCI_RING_W3 + 2 ^ 32 * fld w2 31 16
    (r.enable = false → bitOf w0.toNat 0 = true → base % 64 = 0 → cpl % 64 = 0 → (∃ k, 1 ≤ k ∧ k ≤ 16 ∧ n = 2 ^ k) →
      s.ringRange base (64 * n) = true → s.ringRange cpl (16 * n) = true → (s.ctx c).valid = true →
      ∃ t, Runs (.ringWrite ag st) s t ∧ (t.ring c).enable = true ∧ (t.ring c).size = n ∧ (t.ring c).base = base ∧
        (t.ring c).cplBase = cpl ∧ (t.ring c).head = 0 ∧ (t.ring c).tag = 0 ∧ (t.ring c).gen = 1 ∧
        (∀ d, d ≠ c → t.ring d = s.ring d) ∧ Frame [.uc] s t) ∧
    (r.enable = false → bitOf w0.toNat 0 = true → (base % 64 ≠ 0 ∨ cpl % 64 ≠ 0 ∨ (∀ k, 1 ≤ k → k ≤ 16 → n ≠ 2 ^ k) ∨
        s.ringRange base (64 * n) = false ∨ s.ringRange cpl (16 * n) = false ∨ (s.ctx c).valid = false) →
      ∃ t, Runs (.ringWrite ag st) s t ∧ Frame [.pg, .out] s t) ∧
    (r.enable = true → bitOf w0.toNat 0 = false → r.cur = none → r.cplIrq = none →
      ∃ t, Runs (.ringWrite ag st) s t ∧ (t.ring c).enable = false ∧ Frame [.uc] s t) ∧
    (r.enable = true → bitOf w0.toNat 0 = true → ∃ t, Runs (.ringWrite ag st) s t ∧ Frame [.pg, .out] s t)) ∧
  (∀ ag st s, s.accepts ag st 0xC8 2 → let r := s.ring (s.ringCtx st)
    ∃ t, Runs (.ringRead ag st) s t ∧ bitOf (t.rdN st Reg.UCI_RING_W0) 0 = r.enable ∧
      t.rd st Reg.UCI_RING_W1 = w32 r.base ∧ t.rd st Reg.UCI_RING_W3 = w32 r.cplBase ∧ t.rd st Reg.UCI_RING_MSG = r.msg ∧
      t.rd st Reg.UCI_RING_TGT = w32 r.tgt ∧ Frame [.pg] s t) ∧
  (∀ ag c v s, s.accepts ag (stoveOf c) (0xCC + c % 1024 / 256) v → let r := s.ring c
    let n := fld v 16 0
    (r.enable = true → n < r.size → n ≠ r.head →
      ∃ t, Runs (.doorbell ag c v) s t ∧ (t.ring c).tail = n ∧ (t.ring c).fetching = true ∧ (t.ring c).staleWait = false ∧
        (t.ring c).head = r.head ∧ (t.ring c).tag = r.tag ∧ (t.ring c).gen = r.gen ∧ (∀ d, d ≠ c → t.ring d = s.ring d) ∧
        Frame [.cx, .uc] s t) ∧
    (r.enable = false ∨ r.size ≤ n ∨ n = r.head → ∃ t, Runs (.doorbell ag c v) s t ∧ t.uc.rings = s.uc.rings ∧
      tabGet (fun _ => 0) t.uc.ignored (stoveOf c) = tabGet (fun _ => 0) s.uc.ignored (stoveOf c) + 1 ∧ Frame [.pg, .uc, .out] s t)) ∧
  (∀ c s (cmd : Instr), s.ringReady c = true → let r := s.ring c
    (cmd = .descriptorFetch c ∧ r.tries = 0) ∨ (cmd = .descriptorReread c ∧ r.tries ≠ 0) →
    let d := s.mrdN (r.base + 64 * r.head) 64
    let h := (r.head + 1) % r.size
    (s.addrRead (stoveOf c) (r.base + 64 * r.head) 64 0).2 = none →
    ((leAt d 0x3E 2 = r.tag → leAt d 0x3C 1 % 2 = r.gen → 1 ≤ descType d → descType d ≤ 5 →
      ∃ t, Runs cmd s t ∧ (t.ring c).cur = some d ∧ (t.ring c).curIndex = r.head ∧ (t.ring c).head = h ∧
        (t.ring c).tag = (r.tag + 1) % 65536 ∧ (t.ring c).gen = (if h = 0 then 1 - r.gen else r.gen) ∧
        Frame [.cx, .ca, .uc] s t) ∧
    (leAt d 0x3E 2 ≠ r.tag ∨ leAt d 0x3C 1 % 2 ≠ r.gen → r.tries < 8 →
      ∃ t, Runs cmd s t ∧ t.ring c = { r with tries := r.tries + 1 } ∧ Frame [.cx, .ca, .uc] s t) ∧
    (leAt d 0x3E 2 ≠ r.tag ∨ leAt d 0x3C 1 % 2 ≠ r.gen → 8 ≤ r.tries →
      ∃ t, Runs cmd s t ∧ t.ring c = { r with tries := 0, staleWait := true, fetching := false } ∧
        t.rdN (stoveOf c) Reg.UCI_STALE_TOTAL = satAdd 0xFFFFFFFF (s.rdN (stoveOf c) Reg.UCI_STALE_TOTAL) 1 ∧
        Frame [.pg, .cx, .ca, .uc, .out] s t))) ∧
  (∀ c irq s, (s.ring c).cplIrq = some irq →
    ∃ t, Runs (.completionRecordAck c) s t ∧ (t.ring c).cplIrq = none ∧
      t.out = (if irq then [.irq (s.rdAddr (stoveOf c) (Reg.UCI_TGT_t_LO + 16 * (s.ring c).tgt)
        (Reg.UCI_TGT_t_HI + 16 * (s.ring c).tgt)) (s.ring c).msg] else []) ++ s.out ∧ Frame [.uc, .out] s t)

/-- What descriptors do (R45, R86, R268 to R271): each type has its effect and completes; STEP opens the step that the slot's
record names, joins the step in progress, or waits; a failed check rejects the descriptor, and nothing moves. -/
def Obligations.Descriptors : Prop :=
  (∀ c d s, s.curDesc c 1 = some d → descStatic d = none → s.recordGoes c → (s.ctx c).isBound = true → (s.ctx c).rebind = false →
    let st := stoveOf c
    let a := descArg d
    let n := nth 0 (s.ctx c).seqs (bits a 5 0)
    bits a 5 0 < (s.ctx c).bound.seqs → (s.slot st (bits a 10 6)).pending = false → s.startReason st c (bits a 10 6) (bits a 13 11) (s.ctx c).bound.granules = none →
    (s.seq st n).state = 0 ∨ (s.seq st n).state = 5 →
    ∃ t, Runs (.run c) s t ∧ (t.seq st n).ctx = some c ∧ (t.seq st n).state = 1 ∧
      (∀ k, 1 ≤ k → k ≤ bits a 17 14 → k < 16 → (t.seq st n).sreg k = w32 (leAt d (4 + 4 * k) 4)) ∧
      (t.ring c).cur = none ∧ (∀ m e, 64 * m + e ≠ 64 * st + n → t.seq m e = s.seq m e) ∧
      Frame [.pg, .mem, .cx, .sq, .ca, .uc, .out] s t) ∧
  (∀ c d s, s.curDesc c 3 = some d → descStatic d = none → (s.ctx c).isBound = true → (s.ctx c).rebind = false →
    let n := bits (descArg d) 5 0
    let o := descArg2 d
    let va := o + 2 ^ 32 * leAt d (8 + 46) 2
    (bitOf (descArg d) 6 = true → s.mapped c va n true = true → s.guarded c va n = false →
      s.memBad (stoveOf c) c [(va, n)] true = none →
      let u := (s.vwrN c va ((d.drop 8).take n)).reachW c [(va, n)]
      ∃ t, Runs (.inlineI ⟨c, .ok⟩) s t ∧ t = u.descDone c 0 0 ∧ (u.recordGoes c → Frame (reaching [.mem, .ht, .uc]) s t)) ∧
    (bitOf (descArg d) 6 = false → o + n ≤ s.window c → s.hitsLift c o n = false →
      ((s.linesOf c [(o, n)]).any fun l => (s.tag (stoveOf c) l).pending) = false →
      let phys := fun (l : List Nat) => l.filterMap (s.winAddr c)
      let parts := phys (partWords o n)
      let whole := (phys ((List.range ((o + n + 7) / 8 - o / 8)).map fun k => 8 * (o / 8 + k))).filter fun w => !has parts w
      (∀ w ∈ parts, has s.tr.bad w = false) →
      let u : State := { s with tr := { s.tr with bad := s.tr.bad.filter fun w => !has whole w } }
      ∃ t, Runs (.inlineI ⟨c, .ok⟩) s t ∧
        t = (u.putBytes c { place := .spd, addr := o } 0 ((d.drop 8).take n)).descDone c 0 0 ∧
        (u.recordGoes c → Frame (reaching [.mem, .uc]) s t))) ∧
  (∀ c d s, s.curDesc c 4 = some d → descStatic d = none → s.recordGoes c →
    ∃ t, Runs (.post c) s t ∧
      (∀ k, (t.ctx c).sem k = if k = bits (descArg d) 4 0 then satAdd 65535 ((s.ctx c).sem k) (bits (descArg d) 31 16)
        else (s.ctx c).sem k) ∧ (t.ring c).cur = none ∧ Frame [.pg, .mem, .cx, .sq, .ca, .sw, .uc, .out] s t) ∧
  (∀ c d s, s.curDesc c 5 = some d → descStatic d = none → s.recordGoes c →
    ∃ t, Runs (.note c) s t ∧ t = s.descDone c 0 0 ∧ (t.ring c).cur = none ∧ Frame [.mem, .cx, .ca, .uc] s t) ∧
  (∀ c d s (cmd : Instr), cmd = .step c ∨ cmd = .stepWaitResume c → s.curDesc c 2 = some d → descStatic d = none →
    (s.ctx c).isJob = true → (∀ t, t < 4 → bitOf (s.swpCtrl t (s.ctx c).slot).toNat 0 = true) →
    bitOf (s.swpCtrl (stoveOf c) (s.ctx c).slot).toNat 0 = true →
    let b := (s.ctx c).slot
    let j := s.job b
    let n := bits (descArg d) 8 0
    let step := leAt d 8 4 + 2 ^ 32 * (descArg2 d % 65536)
    (j.inStep = false → step = s.nextStep (stoveOf c) b → n ≠ 0 → s.recordGoes c →
      ∃ t, Runs cmd s t ∧ (t.job b).inStep = true ∧ (t.job b).step = step ∧ (t.job b).passes = n ∧ (t.job b).sent = false ∧
        (j.heldTaint = true → (t.job b).taint = true) ∧ (t.cjob b).cseq = 0 ∧ (t.ring c).cur = none) ∧
    (j.inStep = false → step = s.nextStep (stoveOf c) b → n = 0 → Runs cmd s (s.descDone c 0 0)) ∧
    (j.inStep = false → step ≠ s.nextStep (stoveOf c) b → Runs cmd s (s.descReject c 3 6 step)) ∧
    (j.inStep = true → step = j.step → n = j.passes ∨ n = 0 → Runs cmd s (s.descDone c 0 0)) ∧
    (j.inStep = true → step = j.step → n ≠ j.passes → n ≠ 0 → Runs cmd s (s.descReject c 3 6 step)) ∧
    (j.inStep = true → step ≠ j.step → Runs cmd s s)) ∧
  (∀ c e s (cmd : Instr), cmd = .run c ∨ cmd = .inlineI ⟨c, e⟩ → (s.ctx c).isBound = false ∨ (s.ctx c).rebind = true → Runs cmd s s) ∧
  (∀ c d status code v e s (cmd : Instr), ((cmd = .run c ∧ s.curDesc c 1 = some d ∨ cmd = .inlineI ⟨c, e⟩ ∧ s.curDesc c 3 = some d) ∧
        (s.ctx c).isBound = true ∧ (s.ctx c).rebind = false) ∨ (cmd = .post c ∧ s.curDesc c 4 = some d) ∨ (cmd = .note c ∧ s.curDesc c 5 = some d) →
    descStatic d = some (status, code, v) → s.recordGoes c →
    ∃ t, Runs cmd s t ∧ (t.ring c).cur = none ∧ Frame [.pg, .mem, .cx, .ca, .uc, .out] s t ∧
      (∀ a, (a < (s.ring c).cplBase + 16 * (s.ring c).curIndex ∨ (s.ring c).cplBase + 16 * (s.ring c).curIndex + 16 ≤ a) →
        t.mrd a = s.mrd a) ∧ (bitOf (leAt d 1 1) 0 = false → t.mem = s.mem))

/-- Flash commands (R208, R274, R275). A 64-byte store of the runtime or the kindler joins the mailbox of 4 commands, or is discarded when it is full; stop-now
stops a running context, and ends when its units are still; an override sets the dampers of its slot. -/
def Obligations.FlashCommands : Prop :=
  (∀ ag st data s, ag = .runtime ∨ ag = .kindler → s.takes ag st 0xC8 0 → data.length = 64 →
    ((s.flash st).length < 4 →
      ∃ t, Runs (.flashMailboxStore ag st data) s t ∧ t.flash st = s.flash st ++ [⟨data⟩] ∧
        (∀ d, d ≠ st → t.flash d = s.flash d) ∧ Frame [.cx, .uc] s t) ∧
    (4 ≤ (s.flash st).length →
      ∃ t, Runs (.flashMailboxStore ag st data) s t ∧ t.flash st = s.flash st ∧
        (st < 4 → fld (t.rd st Reg.UCI_FLASH_STATUS) 31 8 = satAdd 0xFFFFFF (fld (s.rd st Reg.UCI_FLASH_STATUS) 31 8) 1) ∧
        Frame [.pg, .out] s t)) ∧
  (∀ ag st data s, s.takes ag st 0xC8 0 → (ag ≠ .runtime ∧ ag ≠ .kindler) ∨ data.length ≠ 64 →
    ∃ t, Runs (.flashMailboxStore ag st data) s t ∧ Frame [.pg] s t) ∧
  (∀ st b r s, s.flash st = b :: r → flashCmd b.bytes = 1 → flashReserved b.bytes = false →
    s.rebinding st = false → s.lit st = true →
    let c := bits (leAt b.bytes 0 4) 19 8
    (s.ctx c).valid = true → stoveOf c = st → (s.ctx c).state = 2 → s.ar.failed = [] →
    ∃ t, Runs (.stopNow st) s t ∧ t.flash st = r ∧ (t.ctx c).stopping ≠ none ∧ t.uc.stops = s.uc.stops ++ [(c, b.bytes)] ∧
      ((s.ctx c).stopping = none → (s.ctx c).isJob = true →
        ((s.job (s.ctx c).slot).inStep = true → (s.job (s.ctx c).slot).sent = false → (t.job (s.ctx c).slot).taint = true) ∧
        ((s.job (s.ctx c).slot).inStep = false → (t.job (s.ctx c).slot).heldTaint = true))) ∧
  (∀ st s, s.rebinding st = true ∨ s.lit st = false → Runs (.stopNow st) s s ∧ Runs (.lossScaleOverride st) s s) ∧
  (∀ c why s, (s.ctx c).stopping = some why → s.unitsStill c = true → (s.ctx c).borrowing = none →
    ((s.ctx c).loanWait = true → (s.ctx c).state = 2) →
    ∃ t, Runs (.stopNowComplete c) s t ∧ (t.ctx c).stopping = none ∧ (t.ctx c).state ≠ 2 ∧
      (∀ p ∈ t.uc.stops, p.1 ≠ c) ∧ (∀ n, n < 64 → (t.seq (stoveOf c) n).ctx = some c →
        ¬ (1 ≤ (t.seq (stoveOf c) n).state ∧ (t.seq (stoveOf c) n).state ≤ 4))) ∧
  (∀ st b r s, s.flash st = b :: r → flashCmd b.bytes = 2 → flashReserved b.bytes = false →
    s.rebinding st = false → s.lit st = true →
    let k := bits (leAt b.bytes 0 4) 22 20
    bitOf (s.swpCtrl st k).toNat 0 = true →
    ∃ t, Runs (.lossScaleOverride st) s t ∧ t.flash st = r ∧
      (∀ d, d < 4 → t.damper d k = { s.damper d k with override := some (leAt b.bytes 3 1) }) ∧
      Frame [.pg, .mem, .cx, .ca, .tr, .sw, .uc, .out, .free] s t)

/-- The host links and peers (R263, R264, R278, R279): a retried flit and a discarded packet are counted, and the sixteenth retry that
fails begins a retrain; a retrain leaves its module up, repaired or down; RETRAIN retrains the modules that are up; and a peer reaches
the host partition alone, with an error completion where its data cannot be had, and across the host die the other root port. -/
def Obligations.HostLinks : Prop :=
  (∀ die link m s, die < 7 → link < 6 →
    (∀ ok, ∃ t, Runs (.ucieFlitRetry die link ⟨m, ok⟩) s t ∧ t.rdN die (Reg.UCI_CRC_RETRY + 4096 * link) =
        satAdd 0xFFFFFFFF (s.rdN die (Reg.UCI_CRC_RETRY + 4096 * link)) 1 ∧
        (ok = false → tabGet (fun _ => 0) s.uc.tries (umodKey die link m) = 15 → t.umod die link m = 3) ∧
        (ok = true ∨ tabGet (fun _ => 0) s.uc.tries (umodKey die link m) < 15 → t.uc.mods = s.uc.mods) ∧
        Frame [.pg, .uc, .out] s t) ∧
    (∀ w, fld w 3 0 < 7 → fld w 30 22 ≤ 256 → Runs (.badPacket die link w) s s) ∧
    (∀ w, 7 ≤ fld w 3 0 ∨ 256 < fld w 30 22 → ∃ t, Runs (.badPacket die link w) s t ∧ t.rdN die (Reg.UCI_BAD_PACKETS + 4096 * link) =
        satAdd 0xFFFFFFFF (s.rdN die (Reg.UCI_BAD_PACKETS + 4096 * link)) 1 ∧ Frame [.pg, .out] s t) ∧
    (∀ ok rep, ∃ t, Runs (.linkRetrain die link m ok rep) s t ∧
        t.umod die link m = (if ok = true then (if rep = true then 2 else 1) else 0) ∧
        (∀ k, k ≠ m → t.umod die link k = s.umod die link k) ∧
        t.rdN die (Reg.UCI_RETRAINS + 4096 * link) =
          satAdd 0xFFFFFFFF (s.rdN die (Reg.UCI_RETRAINS + 4096 * link)) 1 ∧
        (ok = true ∨ (s.setUmod die link m 0).endDown die link = false → Frame [.pg, .uc, .out] s t))) ∧
  (∀ ag die link s, s.accepts ag die (0xC0 + link) 1 →
    ∃ t, Runs (.retrain ag die link) s t ∧
      (∀ k, k < linkModules die link → t.umod die link k = if s.umod die link k = 0 then 0 else 3) ∧ Frame [.uc] s t) ∧
  (∀ port addr data s, data ≠ [] → s.inHost addr = true → s.inHost (addr + data.length - 1) = true →
    (∀ write, ((s.hostUnits addr data.length).findSome? fun u => s.hostBad addr data.length u write) = none) →
    Runs (.peerAccess port addr true ⟨data, false⟩) s ((s.mwrN addr data).emit (.peer port true [])) ∧
    Runs (.peerAccess port addr false ⟨data, false⟩) s (s.emit (.peer port true (s.mrdN addr data.length)))) ∧
  (∀ port addr write data b s, data ≠ [] → s.inHost addr = true → s.inHost (addr + data.length - 1) = true →
    ((s.hostUnits addr data.length).findSome? fun u => s.hostBad addr data.length u write) = some b →
    Runs (.peerAccess port addr write ⟨data, false⟩) s ((s.hostDenied write b).emit (.peer port false []))) ∧
  (∀ port addr write data s, s.inHost addr = false → Runs (.peerAccess port addr write ⟨data, false⟩) s
    (({ s with uc := { s.uc with refused := s.uc.refused ++ [(port, addr)] } } : State).emit (.peer port false []))) ∧
  (∀ port addr write data s, Runs (.peerAccess port addr write ⟨data, true⟩) s (s.emit (.across (1 - port) addr write data)))

/-- The memory tiers (R228, R230, R234, R235, R239 to R242). Decay halves the counts of the stove's pages and moves none of their
frames, and a period of 0 halves none; a move's end rewrites tier and frame, carries the page's bytes and lands the writes that waited for it, an uncorrectable error
abandons it; a scrub reads one unit; a late access is counted; the third timeout marks a part failed, and a consumer is faulted. -/
def Obligations.MemoryTiers : Prop :=
  (∀ st s, bitOf (s.rdN st Reg.HBM_TM_CTRL) 0 = false → Runs (.tmDecay st) s s) ∧
  (∀ st s, bitOf (s.rdN st Reg.HBM_TM_CTRL) 0 = true → fld (s.rd st Reg.HBM_TM_PERIOD) 15 0 = 0 →
    ∃ t, Runs (.tmDecay st) s t ∧
      (∀ o k, k < 2 ^ 27 → (s.pte o k).moving = (t.pte o k).moving → t.pte o k = { s.pte o k with count := (t.pte o k).count }) ∧
      (s.tr.ptes = [] → t.tr.ptes = []) ∧ Frame [.pg, .ca, .tr, .out] s t) ∧
  (∀ st s, bitOf (s.rdN st Reg.HBM_TM_CTRL) 0 = true → fld (s.rd st Reg.HBM_TM_PERIOD) 15 0 ≠ 0 →
    tabSorted 0 s.tr.ptes = true →
    ∃ t, Runs (.tmDecay st) s t ∧
      (∀ o k, k < 2 ^ 27 → let p := (s.flushTlb st).pte o k
        t.pte o k = { p with moving := (t.pte o k).moving, count := (t.pte o k).count } ∧
        ((t.pte o k).moving = p.moving → (t.pte o k).count = if p.of st = true then p.count / 2 else p.count)) ∧
      Frame [.pg, .ca, .tr, .out] s t) ∧
  (∀ (n : Nat) (m : Move) (s : State), s.tr.moves[n]? = some m → s.noWaitingAtoms m.page →
    let p := s.pte (m.page / 2 ^ 27) (m.page % 2 ^ 27)
    s.frameDown p.frame = false → s.frameDown m.frame = false →
    ((s.tr.bad.any fun u => u / 2 ^ 21 == p.frame) = false → (s.ht.lost.any fun l => 128 * l / 2 ^ 21 == p.frame) = false → MemWf s → 2 ^ 21 * (p.frame + 1) ≤ spdBase →
      2 ^ 21 * (m.frame + 1) ≤ spdBase →
      ∃ t, Runs (.pageMoveComplete n .ok) s t ∧ t.tr.moves = s.tr.moves.erase m ∧
        (let q := t.pte (m.page / 2 ^ 27) (m.page % 2 ^ 27)
         q = { p with moving := false, cold := m.toCold, frame := m.frame, count := q.count } ∧
         ((∀ e ∈ s.ca.tlb, 2 ^ 27 * e.space + e.page ≠ m.page) → q.count = p.count)) ∧
        (∀ o k, 2 ^ 27 * o + k ≠ m.page → t.pte o k = s.pte o k) ∧
        (∀ e ∈ t.ca.tlb, ¬ (e.space = m.page / 2 ^ 27 ∧ e.page = m.page % 2 ^ 27)) ∧
        ((∀ w ∈ s.tr.waiting, w.page ≠ m.page) →
          (∀ a, a < 2 ^ 21 → s.inMem (2 ^ 21 * p.frame + a) = true → s.inMem (2 ^ 21 * m.frame + a) = true →
            t.mrd (2 ^ 21 * m.frame + a) = s.mrd (2 ^ 21 * p.frame + a)) ∧
          (∀ a, a / 2 ^ 21 ≠ m.frame → t.mrd a = s.mrd a)) ∧
        (∀ w, (s.tr.waiting.filter fun v => v.page == m.page) = [w] → s.writable (2 ^ 21 * m.frame + w.off) = true →
          t.mrd (2 ^ 21 * m.frame + w.off) = w.byte) ∧
        (∀ w ∈ t.tr.waiting, w.page ≠ m.page) ∧ Frame [.pg, .mem, .ca, .tr] s t) ∧
    (∃ t, Runs (.pageMoveComplete n .ue) s t ∧ t.tr.moves = s.tr.moves.erase m ∧
      t.pte (m.page / 2 ^ 27) (m.page % 2 ^ 27) = { p with moving := false, badLine := true } ∧
      ((∀ w ∈ s.tr.waiting, w.page ≠ m.page) → t.mem = s.mem) ∧ Frame [.pg, .mem, .tr, .out] s t)) ∧
  (∀ st unit ecc syn s, st < 4 → unit < 160 → has s.tr.pcOut (160 * st + unit) = false →
    fld (s.rd st (Reg.HBM_c_SCRUB_CTRL + 4096 * (unit / 32))) 7 0 ≠ 0 →
    let a := s.hbmAddrOf st unit (32 * (s.scrubbed (160 * st + unit) % scrubUnits false))
    ∃ t, Runs (.patrolScrub (.hbm st) unit ecc syn) s t ∧
      t.scrubbed (160 * st + unit) = s.scrubbed (160 * st + unit) + 1 ∧
      t.rdN st (Reg.HBM_c_CE + 4096 * (unit / 32)) = (if ecc = .ce ∧ has s.tr.bad a = false ∧ s.partDown a = false then
        satAdd 0xFFFFFFFF (s.rdN st (Reg.HBM_c_CE + 4096 * (unit / 32))) 1 else s.rdN st (Reg.HBM_c_CE + 4096 * (unit / 32))) ∧
      Frame [.pg, .ca, .tr, .out] s t) ∧
  (∀ d unit ecc syn s, d < 2 → unit < 16 → has s.tr.pkgOut (16 * d + unit) = false →
    fld (s.rd (4 + d) Reg.CLD_SCRUB_CTRL) 7 0 ≠ 0 →
    let a := s.coldAddrOf (16 * d + unit) (64 * (s.scrubbed (1000 + (16 * d + unit)) % scrubUnits true))
    ∃ t, Runs (.patrolScrub (.cold d) unit ecc syn) s t ∧
      t.scrubbed (1000 + (16 * d + unit)) = s.scrubbed (1000 + (16 * d + unit)) + 1 ∧
      t.rdN (4 + d) Reg.CLD_UE = (if (ecc = .ue ∨ has s.tr.bad a = true) ∧ s.partDown a = false then
          satAdd 0xFFFFFFFF (s.rdN (4 + d) Reg.CLD_UE) 1
        else s.rdN (4 + d) Reg.CLD_UE) ∧
      Frame [.pg, .tr, .out] s t) ∧
  (∀ tier c cause cycles s,
    ∃ t, Runs (.accessLate tier c cause cycles) s t ∧
      t.stall (lateAt tier c) c cause false = satAdd 0xFFFFFFFF (s.stall (lateAt tier c) c cause false) 1 ∧
      t.stall (lateAt tier c) c cause true = satAdd 0xFFFFFFFF (s.stall (lateAt tier c) c cause true) cycles ∧
      Frame [.pg, .tr, .out] s t) ∧
  (∀ st part c addr cls s, let k := 160 * st + part
    (has s.tr.pcFail k = false →
      ∃ t, Runs (.requestTimeout (.hbm st) part c addr cls) s t ∧
        tabGet (fun _ => 0) t.tr.pcTmo k = tabGet (fun _ => 0) s.tr.pcTmo k + 1 ∧
        (tabGet (fun _ => 0) s.tr.pcTmo k = 2 → has t.tr.pcFail k = true) ∧
        (cls ≠ 3 → ¬ (c = 0 ∧ s.inHost addr = true) → s.inMem addr = true → (s.ctx c).valid = true →
          (s.dataKind addr = .other ∨ ∃ sp, s.dataKind addr = .walk sp) → (t.ctx c).state = 4)) ∧
    (has s.tr.pcFail k = true →
      ∃ t, Runs (.requestTimeout (.hbm st) part c addr cls) s t ∧ t.tr.pcTmo = s.tr.pcTmo ∧
        (cls ≠ 3 → ¬ (c = 0 ∧ s.inHost addr = true) → s.inMem addr = true → (s.ctx c).valid = true →
          (s.dataKind addr = .other ∨ ∃ sp, s.dataKind addr = .walk sp) → (t.ctx c).state = 4)))

/-- The stoker's commands (R245 to R249, R258). Each completes with DONE and its effect, or, where it takes time, with BUSY until
its end. -/
def Obligations.StokerCommands : Prop :=
  (∀ ag st r s, StkTakes s ag st r → let x := s.ctx r.ctx
    (x.valid = false → s.blockOn st 0xB0 = true → r.kind ≤ 2 →
      (r.aspace = r.ctx ∨ ((s.ctx r.aspace).valid = true ∧ (s.ctx r.aspace).aspace = r.aspace)) →
      ∃ t, Runs (.create ag st r) s t ∧ StkDone t st r.ctx ∧
        t.ctx r.ctx = { valid := true, kind := r.kind, slot := r.slot, prio := r.prio, aspace := r.aspace, age := s.cx.nextAge } ∧
        (∀ d, d ≠ r.ctx → t.ctx d = s.ctx d) ∧ Frame [.pg, .cx, .out] s t) ∧
    (x.valid = true → x.state ≠ 4 → x.isBound = false → (leaseOf r).inRange = true →
      s.leaveCold.leaseFits st (leaseOf r) = true → s.leaveCold.quotaFails r.ctx (leaseOf r) = false →
      s.leaveCold.waysAgree r.ctx (leaseOf r) = true →
      s.leaveCold.sumLeases r.ctx Lease.fabShare + r.fabShare ≤ 256 →
      ∃ t, Runs (.lease ag st r) s t ∧ StkDone t st r.ctx ∧ t.ctx r.ctx = { x with lease := leaseOf r } ∧
        (∀ d, d ≠ r.ctx → t.ctx d = s.ctx d) ∧ Frame [.pg, .cx, .out] s t) ∧
    (x.valid = true → x.state ≠ 4 → x.isBound = true → (leaseOf r).inRange = true →
      s.leaveCold.leaseFits st (leaseOf r) = true → s.leaveCold.canRebind r.ctx (leaseOf r) = true →
      s.leaveCold.quotaFails r.ctx (leaseOf r) = false → s.leaveCold.waysAgree r.ctx (leaseOf r) = true →
      s.leaveCold.sumLeases r.ctx Lease.fabShare + r.fabShare ≤ 256 →
      ∃ t, Runs (.lease ag st r) s t ∧ t.rd st Reg.STK_CMD_STATUS = pack [(1, 0), (r.ctx, 16)] ∧
        t.ctx r.ctx = { x with lease := leaseOf r, rebind := true, holds := x.holds ++ [.rebind] } ∧
        (∀ d, d ≠ r.ctx → t.ctx d = s.ctx d) ∧ t.ht.ways = s.ht.ways ∧ Frame [.pg, .cx, .ht] s t) ∧
    (x.valid = true → x.state ≠ 4 → x.rebind = false → x.isBound = true → r.seq < x.bound.seqs →
      (s.slot st r.pslot).pending = false →
      s.startReason st r.ctx r.pslot r.entry x.bound.granules = none →
      let n := nth 0 x.seqs r.seq
      (s.seq st n).state = 0 ∨ 5 ≤ (s.seq st n).state →
      ∃ t, Runs (.start ag st r) s t ∧ StkDone t st r.ctx ∧ (t.ctx r.ctx).state = 2 ∧ (t.seq st n).ctx = some r.ctx ∧
        (t.seq st n).state = 1 ∧ (t.seq st n).slot = r.pslot ∧ (t.seq st n).entry = r.entry ∧
        (∀ d, d ≠ r.ctx → t.ctx d = s.ctx d) ∧ (∀ m e, 64 * m + e ≠ 64 * st + n → t.seq m e = s.seq m e) ∧
        Frame [.pg, .cx, .sq, .out] s t) ∧
    (x.valid = true → x.state ≠ 4 → x.rebind = false → x.isBound = false → r.seq < x.lease.seqs →
      s.startReason st r.ctx r.pslot r.entry x.lease.granules = none → (x.pendingStart.any fun p => p.1 == r.seq) = false →
      s.leaveCold.leaseFits st x.lease = true → s.leaveCold.waysAgree r.ctx x.lease = true →
      let u := s.leaveCold.setCtx r.ctx { x with state := 1, pendingStart := x.pendingStart ++ [(r.seq, r.pslot, r.entry)] }
      (u.nextBind st ≠ some r.ctx ∨ u.rebinding st = true → Runs (.start ag st r) s (u.stkDone st r.ctx)) ∧
      (u.nextBind st = some r.ctx → u.rebinding st = false →
        ∃ t, Runs (.start ag st r) s t ∧ StkDone t st r.ctx ∧ (t.ctx r.ctx).isBound = true ∧ (t.ctx r.ctx).bound = x.lease)) ∧
    (x.state = 2 → x.stopping = none → s.ar.failed = [] →
      ∃ t, Runs (.stop ag st r) s t ∧ t.rd st Reg.STK_CMD_STATUS = pack [(1, 0), (r.ctx, 16)] ∧
        (t.ctx r.ctx).stopping = some 0 ∧ Hold.stopNow ∈ (t.ctx r.ctx).holds) ∧
    (x.state = 3 →
      ∃ t, Runs (.resume ag st r) s t ∧ StkDone t st r.ctx ∧ t.ctx r.ctx = { x with state := 2 } ∧
        (∀ n, n < 64 → (t.seq st n).state = if (s.seq st n).ctx = some r.ctx ∧ (s.seq st n).state = 5 ∧
            (s.seq st n).resumable = true then 1 else (s.seq st n).state) ∧
        (∀ n, n < 64 → t.seq st n = { s.seq st n with
          state := (t.seq st n).state, resumable := (t.seq st n).resumable, slips := (t.seq st n).slips,
          evalInvalid := (t.seq st n).evalInvalid }) ∧
        Frame [.pg, .cx, .sq, .out, .ar, .ca, .tr, .sw] s t) ∧
    (x.valid = true → x.state = 0 ∨ x.state = 3 ∨ x.state = 4 → x.rebind = false →
      ∃ t, Runs (.release ag st r) s t ∧ StkDone t st r.ctx ∧ (t.ctx r.ctx).state = 0 ∧ (t.ctx r.ctx).isBound = false ∧
        (t.ctx r.ctx).lease = x.lease ∧
        (x.isBound = true → (t.ctx r.ctx).arrays = [] ∧ (t.ctx r.ctx).granules = [] ∧ (t.ctx r.ctx).seqs = [] ∧
          ∀ n ∈ x.seqs, (t.seq st n).ctx = none) ∧
        (x.lentTo = none → x.borrowing = none → ∀ d, d ≠ r.ctx → t.ctx d = s.ctx d)) ∧
    (x.valid = true → x.state = 0 → x.isBound = false →
      (x.aspace = r.ctx → (s.cx.ctxs.any fun p => p.1 != r.ctx && p.2.valid && p.2.aspace == r.ctx) = false) →
      ∃ t, Runs (.destroy ag st r) s t ∧ StkDone t st r.ctx ∧ t.ctx r.ctx = {} ∧ (∀ d, d ≠ r.ctx → t.ctx d = s.ctx d) ∧
        (x.aspace = r.ctx → ∀ k, k < 2 ^ 27 → t.pte r.ctx k = {}) ∧ Frame [.pg, .cx, .ca, .tr, .out] s t) ∧
    (pagesBad r = false → x.valid = true → x.state ≠ 4 →
      let p := r.va / 2 ^ 21
      ((s.leaveCold.mapPages x.aspace r.hint r.stove r.write r.host p r.pages).isSome = true →
        ∃ t, Runs (.map ag st r) s t ∧ StkDone t st r.ctx ∧
          (∀ k, k < r.pages → let e := t.pte x.aspace (p + k)
            e.valid = true ∧ e.write = r.write ∧ e.host = r.host ∧ e.hint = r.hint ∧ e.pins = 0) ∧
          (∀ k, k < p ∨ p + r.pages ≤ k → t.pte x.aspace k = s.pte x.aspace k) ∧ Frame [.pg, .cx, .ca, .tr, .out] s t) ∧
      ((∀ k, k < r.pages → (s.pte x.aspace (p + k)).pins = 0) →
        ∃ t, Runs (.unmap ag st r) s t ∧ StkDone t st r.ctx ∧ (∀ k, k < r.pages → t.pte x.aspace (p + k) = {}) ∧
          (∀ k, k < p ∨ p + r.pages ≤ k → t.pte x.aspace k = s.pte x.aspace k) ∧ Frame [.pg, .cx, .ca, .tr, .out] s t)) ∧
    (x.valid = true →
      ∃ t, Runs (.hint ag st r) s t ∧ StkDone t st r.ctx ∧
        t.ctx r.ctx = (if r.chair = true then { x with chairHint := r.hintUs }
          else { x with semHint := tabSet (fun _ => 0) x.semHint r.sem r.hintUs }) ∧ Frame [.pg, .cx, .out] s t))

/-- Binding, re-binding and loans (R248 to R251, R260). The runnable context that comes first is bound with its lease; a lender's
arrays pass to the borrower it waits for; an unreadable context record faults its context; a re-binding ends with the recorded lease
bound; a cut loan stops its borrower, and its end posts LEND_SEM. -/
def Obligations.BindingAndLoans : Prop :=
  (∀ c s, s.nextBind (stoveOf c) = some c → s.rebinding (stoveOf c) = false →
    ∃ t, Runs (.contextBind ⟨c, .ok⟩) s t ∧ (t.ctx c).isBound = true ∧ (t.ctx c).bound = (s.ctx c).lease ∧
      (t.ctx c).arrays = (s.freeArrays (stoveOf c)).take (4 * (s.ctx c).lease.groups) ∧
      (t.ctx c).arrays.length = 4 * (s.ctx c).lease.groups ∧ (t.ctx c).granules.length = (s.ctx c).lease.granules ∧
      (t.ctx c).seqs.length = (s.ctx c).lease.seqs ∧ (t.ctx c).pendingStart = [] ∧
      ((s.ctx c).pendingStart = [] → (t.ctx c).state = 2 ∧ ∀ d, d ≠ c → t.ctx d = s.ctx d)) ∧
  (∀ c s, s.nextBind (stoveOf c) ≠ some c ∨ s.rebinding (stoveOf c) = true →
    (s.lenderOf c = none → Runs (.contextBind ⟨c, .ok⟩) s s) ∧
    (∀ l, s.lenderOf c = some l → (s.ctx l).loanWait = true → s.arrayWork l = false → ∃ t, Runs (.contextBind ⟨c, .ok⟩) s t ∧
      (c ≠ l → (t.ctx l).lending = true ∧ (t.ctx l).lentTo = some c ∧ (t.ctx l).loanWait = false) ∧
      (t.ctx c).isBound = true ∧ (c ≠ l → (t.ctx c).borrowing = some l ∧ (t.ctx c).arrays = (s.ctx l).arrays))) ∧
  (∀ c s, (s.ctx c).valid = true → (s.ctx c).state ≠ 4 → ∃ t, Runs (.contextBind ⟨c, .ue⟩) s t ∧ (t.ctx c).state = 4 ∧
    (t.ctx c).fault = 8 ∧ (t.ctx c).faultType = 0xB) ∧
  (∀ c us e s, (s.ctx c).rebind = true → s.settled c = true →
    ∃ t, Runs (.rebindComplete c ⟨us, e⟩) s t ∧ (t.ctx c).rebind = false ∧ (t.ctx c).bound = (s.ctx c).lease ∧
      Hold.rebind ∉ (t.ctx c).holds ∧ t.rd (stoveOf c) Reg.STK_REBIND_LAST = w32 us ∧
      t.rd (stoveOf c) Reg.STK_CMD_STATUS = pack [(2, 0), (c, 16)]) ∧
  (∀ c us e s, (s.ctx c).rebind = false ∨ s.settled c = false → Runs (.rebindComplete c ⟨us, e⟩) s s) ∧
  (∀ c d s, (s.ctx c).lentTo = some d → (s.ctx d).loanCut = false →
    ∃ t, Runs (.loanCut c) s t ∧ (t.ctx d).loanCut = true ∧ Hold.stopNow ∈ (t.ctx d).holds ∧ Frame [.pg, .cx, .out] s t) ∧
  (∀ c d s, c ≠ d → (s.ctx c).lentTo = some d → (s.ctx d).loanCut = true → (s.ctx d).loanWait = false → s.unitsStill d = true →
    ∃ t, Runs (.borrowerStopped c) s t ∧ (t.ctx c).lending = false ∧ (t.ctx c).lentTo = none ∧ (t.ctx d).borrowing = none ∧
      (t.ctx d).arrays = [] ∧ (t.ctx d).state ≠ 2 ∧
      (t.ctx c).sem (s.ctx c).bound.lendSem = satAdd 65535 ((s.ctx c).sem (s.ctx c).bound.lendSem) 1)

/-- Power states and thermal throttling (R253 to R257). A stove that is not waking enters the deepest enabled state whose break-even time
its hint allows, the times its sequencers have waited taken off; it wakes, and is Lit again, by its timed exit or a wake; the module enters Cold with every stove in Ash and no job slot enabled; the throttle level
follows the readings; a thermal hold gates the stove's clock once its units stand still. -/
def Obligations.PowerAndHeat : Prop :=
  (∀ st k waited s, let u := s.noteWaits st waited
    let on := fun (j : Nat) => bitOf (s.rdN st Reg.STK_PWR_CTRL) (j - 1)
    ((s.stk st).power < k → k ≤ 3 → on k = true → s.cx.cold = false → (s.stk st).waking = false →
      (∃ h, u.stoveHint st = some h ∧ breakEven k ≤ h ∧ ∀ j, k < j → j ≤ 3 → on j = true → h < breakEven j) ∨
        (u.stoveHint st = none ∧ 2 ≤ k ∧ (k = 2 → on 3 = false) ∧
          (s.cx.ctxs.any fun p => p.1 / 1024 == st && p.2.valid && p.2.state == 1) = false) →
      ∃ t, Runs (.powerStateEnter st ⟨k, waited⟩) s t ∧ t.stk st = { s.stk st with power := k, waking := false } ∧
        (∀ d, d ≠ st → t.stk d = s.stk d) ∧ t.sq = u.sq ∧ Frame [.pg, .cx, .sq, .out] s t) ∧
    (k ≤ (s.stk st).power ∨ 3 < k ∨ on k = false ∨ (s.stk st).waking = true ∨ (∃ h, u.stoveHint st = some h ∧ h < breakEven k) →
      Runs (.powerStateEnter st ⟨k, waited⟩) s u) ∧
    (∀ n q, n < waited.length → q = s.seq st n → u.seq st n = if q.state = 2 ∨ q.state = 3
      then { q with waited := nth 0 waited n } else q)) ∧
  (∀ st s, (s.lit st = true → Runs (.powerExit st) s s) ∧
    (s.lit st = false → (s.stk st).waking = false →
      ∃ t, Runs (.powerExit st) s t ∧ t.stk st = { s.stk st with waking := true } ∧ Frame [.cx] s t) ∧
    (s.lit st = false → (s.stk st).waking = true →
      ∃ t, Runs (.powerExit st) s t ∧ t.stk st = { s.stk st with power := 0, waking := false } ∧
        Frame [.pg, .cx, .sq, .out, .ar, .ca, .tr, .sw] s t)) ∧
  (∀ st n s, (s.lit st = true → Runs (.wake st n) s s) ∧
    (s.lit st = false → tabSorted 0 s.cx.ctxs = true →
      ∃ t, Runs (.wake st n) s t ∧ t.stk st = { s.stk st with power := 0, waking := false } ∧
        (∀ c, stoveOf c = st → (s.ctx c).valid = true → (s.ctx c).isBound = true →
          t.ctx c = if ((List.range 64).any (s.wantsLit c)) = true
            then { s.ctx c with wakeStall := satAdd 0xFFFFFFFF (s.ctx c).wakeStall n } else s.ctx c) ∧
        (∀ c, stoveOf c ≠ st ∨ (s.ctx c).isBound = false → t.ctx c = s.ctx c) ∧
        Frame [.pg, .cx, .sq, .out, .ar, .ca, .tr, .sw] s t)) ∧
  (∀ ag s, s.leaveCold.accepts ag 0 0xB0 8 →
    (ag = .runtime → (∀ st, st < 4 → (s.stk st).power = 3) → s.leaveCold.anyJobOn = false →
      ∃ t, Runs (.coldEnter ag) s t ∧ t.cx = { s.cx with cold := true } ∧ Frame [.cx] s t) ∧
    (ag ≠ .runtime ∨ (∃ st, st < 4 ∧ (s.stk st).power ≠ 3) ∨ s.leaveCold.anyJobOn = true →
      ∃ t, Runs (.coldEnter ag) s t ∧ t.cx = { s.cx with cold := false } ∧ Frame [.pg, .cx, .out] s t)) ∧
  (∀ source s, ∃ t, Runs (.coldExit source) s t ∧
    t.cx.cold = (if s.wakes source = true then false else s.cx.cold) ∧ Frame [.cx] s t) ∧
  (∀ st temp power s, let k := s.stk st
    let c := s.rd st Reg.STK_THERM_CTRL
    ∃ t, Runs (.throttleLevelChange st temp power) s t ∧ (t.stk st).temp = temp ∧
      (fld c 7 0 < temp ∨ fld c 27 16 < power → (t.stk st).throttle = min 15 (k.throttle + 1)) ∧
      (¬ (fld c 7 0 < temp ∨ fld c 27 16 < power) → temp < fld c 15 8 → power < fld c 27 16 →
        (t.stk st).throttle = k.throttle - 1) ∧
      (¬ (fld c 7 0 < temp ∨ fld c 27 16 < power) → ¬ (temp < fld c 15 8 ∧ power < fld c 27 16) →
        (t.stk st).throttle = k.throttle) ∧ Frame [.pg, .cx, .out] s t) ∧
  (∀ st s, (s.stk st).throttle ≠ 0 → (s.stk st).gating = false →
    ∃ t, Runs (.thermalHold st) s t ∧ (t.stk st).gating = true ∧ (∀ p ∈ s.boundOn st, Hold.thermal ∈ (t.ctx p.1).holds) ∧
      Frame [.cx] s t) ∧
  (∀ st s, (s.stk st).gating = true → (∀ a, a < 48 → (s.arr st a).run = none) →
    ∃ t, Runs (.thermalGateEnd st) s t ∧ (t.stk st).gating = false ∧ (∀ p ∈ s.boundOn st, Hold.thermal ∉ (t.ctx p.1).holds) ∧
      t.rdN st Reg.STK_THERM_GATED = satAdd 0xFFFFFFFF (s.rdN st Reg.STK_THERM_GATED) (1024 * (s.stk st).throttle))

/-- Ports and flits (R282, R285, R286, R303, R305, R332). Training sends the module's identity, brings up a port whose partner keeps the
cabling rules and holds another down; without a position a retrain leaves a port as it is; a flit with a bad CRC is answered with a NAK, one with a reserved KIND or VC is discarded; acknowledged flits leave the
retry buffer and returned credits are taken; a data flit is taken in order, and acknowledged, or answered with a NAK; a NAK resends, and
the ninth time retrains; a port that goes down loses what it held. That an idle flit acknowledges one is the model's choice (assumption
66). -/
def Obligations.LinkPorts : Prop :=
  (∀ p q s, 8 ≤ s.kd.released → s.kd.noPosition = false → has s.kd.portsDown p = false → s.portOn p = true →
    (s.port p).state ≠ 2 → (s.port p).state ≠ 4 →
    (s.cableOk p q = false → ∃ t, Runs (.portTraining p q) s t ∧ t.port p = { s.port p with state := 4, partner := some q } ∧
      (∀ k, k ≠ p → t.port k = s.port k) ∧ Frame [.pg, .fb, .out] s t) ∧
    (s.cableOk p q = true → (s.port p).state = 3 →
      ∃ t, Runs (.portTraining p q) s t ∧ (t.port p).state = 2 ∧ (t.port p).partner = some q ∧ (t.port p).resends = 0 ∧
        ((s.port p).queue = [] → t.port p = { s.port p with state := 2, partner := some q, resends := 0 } ∧
          ∀ k, k ≠ p → t.port k = s.port k) ∧ Frame [.pg, .fb, .out] s t) ∧
    (s.cableOk p q = true → (s.port p).state ≠ 3 →
      ∃ t, Runs (.portTraining p q) s t ∧ (t.port p).state = 2 ∧ (t.port p).partner = some q ∧
        Out.ident p s.kd.rink s.kd.seat ∈ t.out ∧
        (portRole p ≠ 2 → s.fb.lid = none → (t.seatE (seatIdx s.kd.rink s.kd.seat)).state = 1) ∧
        Frame [.pg, .fb, .out] s t)) ∧
  (∀ ag p s, s.portTakes ag p → s.kd.noPosition = true → Runs (.portRetrain ag p) s s) ∧
  (∀ ag p s, s.portTakes ag p → s.kd.noPosition = false →
    ∃ t, Runs (.portRetrain ag p) s t ∧
      t.port p = { s.port p with state := if (s.port p).state = 2 then 3 else if (s.port p).state = 4 then 1 else (s.port p).state } ∧
      Frame [.fb] s t) ∧
  (∀ p h payload crc s, (s.port p).state ≠ 2 → Runs (.flit p h ⟨payload, crc⟩) s s) ∧
  (∀ p h payload s, (s.port p).state = 2 →
    let q := s.port p
    let bare := fun (kind ack : Nat) (nak : Bool) (v n : Nat) => (⟨kind, 0, false, false, 0, ack, nak, v, n, 0⟩ : FlitHdr)
    (∀ crc, crc ≠ flitCrc h payload → ∃ t, Runs (.flit p h ⟨payload, crc⟩) s t ∧
      (let f := bare 1 ((q.rxSeq + 4095) % 4096) true q.owes.1 q.owes.2
       t.out = .flit p f [] (flitCrc f []) :: s.out) ∧ t.port p = q.paid ∧ (∀ k, k ≠ p → t.port k = s.port k) ∧
      t.rdN (fabDie p) (fabReg p Reg.FAB_CRC_ERR) = satAdd 0xFFFFFFFF (s.rdN (fabDie p) (fabReg p Reg.FAB_CRC_ERR)) 1 ∧
      Frame [.pg, .fb, .out] s t) ∧
    (3 ≤ h.kind ∨ 9 ≤ h.vc → ∃ t, Runs (.flit p h ⟨payload, flitCrc h payload⟩) s t ∧ Frame [.pg, .out] s t) ∧
    (h.kind ≤ 2 → h.vc < 9 →
      let l := afterAck h.ack q.retry
      let n := if l.length < q.retry.length then 0 else q.resends
      let w := readWire (payload.take h.len)
      let here := h.first = true ∧ (0x30 ≤ w.type ∨ (w.rink = s.kd.rink ∧ w.seat = s.kd.seat))
      ∃ t, Runs (.flit p h ⟨payload, flitCrc h payload⟩) s t ∧
        (t.port p).rxSeq = (if h.kind = 0 ∧ h.seq = q.rxSeq then (q.rxSeq + 1) % 4096 else q.rxSeq) ∧
        (t.port p).state = (if h.nak = true ∧ l ≠ [] ∧ 8 ≤ n then 3 else 2) ∧
        (h.nak = true → l ≠ [] → n < 8 → (t.port p).resends = n + 1) ∧
        (q.queue = [] → (h.kind = 0 → h.seq = q.rxSeq → here) →
          (t.port p).retry = l ∧ (t.port p).txSeq = q.txSeq ∧ (∀ k, k ≠ p → t.port k = s.port k) ∧
          (h.cvc < 9 → tabGet (fun _ => 0) (t.port p).used h.cvc =
            tabGet (fun _ => 0) q.used h.cvc - if h.kind = 0 ∧ h.seq ≠ q.rxSeq then 0 else h.credits)) ∧
        (h.kind = 0 → (h.seq = q.rxSeq → here) → ∃ v k,
          let f := if h.seq = q.rxSeq then bare 2 h.seq false v k else bare 1 ((q.rxSeq + 4095) % 4096) true v k
          h.seq < 4096 → t.out.head? = some (.flit p f [] (flitCrc f []))) ∧
        Frame [.pg, .fb, .out] s t)) ∧
  (∀ p s, (s.port p).state ≠ 0 →
    ∃ t, Runs (.portDown p) s t ∧ t.port p = ({
        state := 0, partner := (s.port p).partner, txSeq := (s.port p).txSeq, rxSeq := (s.port p).rxSeq } : Port) ∧
      Frame [.pg, .fb, .out] s t) ∧
  (∀ p w s, ∃ t, Runs (.berHigh p w) s t ∧ t.rd (fabDie p) (fabReg p Reg.FAB_BER) = w ∧ Frame [.pg, .out] s t) ∧
  (∀ die temp s, ∃ t, Runs (.tempHigh die temp) s t ∧
    t.rd die Reg.PLT_TEMP = setFld (s.rd die Reg.PLT_TEMP) 7 0 temp ∧
    (100 ≤ temp → die ≤ 6 → bitOf (t.hdr die 0xF0).evStatus.toNat 3 = true) ∧ Frame [.pg, .out] s t)

/-- Names, seats, links and stand-ins (R289, R291, R292, R302, R303). An update with a newer version is applied, one with the same
values acknowledged, any other refused; broadcasts change the seat table and the link map; a directive takes over a logical ID,
completes when it is accepted, and ends when every seat has answered, or at its time limit, when the job slots it names resume (the others
stay held, as the model reads it: assumption 63); DRAIN leaves the fabric and tells its links down. -/
def Obligations.NamesAndStandIns : Prop :=
  (∀ lid rink seat v r0 t0 from_ s,
    (s.fb.ntVersion < v →
      ∃ t, Runs (.nameUpdate lid rink seat v r0 t0 from_) s t ∧ t.name lid = ⟨true, rink, seat⟩ ∧ t.fb.ntVersion = v ∧
        t.seatE (seatIdx rink seat) = ⟨2, lid⟩ ∧ (seatIdx r0 t0 ≠ seatIdx rink seat → t.seatE (seatIdx r0 t0) = ⟨4, lid⟩) ∧
        (∀ l, l ≠ lid → t.name l = s.name l) ∧ Frame [.pg, .fb, .out] s t) ∧
    (v = s.fb.ntVersion → s.name lid = ⟨true, rink, seat⟩ →
      ∃ t, Runs (.nameUpdate lid rink seat v r0 t0 from_) s t ∧ t.fb.names = s.fb.names ∧ t.fb.ntVersion = v ∧
        t.fb.seats = s.fb.seats ∧ Frame [.pg, .fb, .out] s t) ∧
    (v < s.fb.ntVersion ∨ (v = s.fb.ntVersion ∧ s.name lid ≠ ⟨true, rink, seat⟩) →
      ∃ t, Runs (.nameUpdate lid rink seat v r0 t0 from_) s t ∧ t.fb.names = s.fb.names ∧ t.fb.ntVersion = s.fb.ntVersion ∧
        t.fb.seats = s.fb.seats ∧ bitOf (t.hdr 4 0xE0).evStatus.toNat 5 = true ∧ Frame [.pg, .fb, .out] s t)) ∧
  (∀ lid rink seat v c s,
    (s.fb.standin = 1 → s.fb.lid = some lid → v = s.fb.ntVersion →
      ∃ t, Runs (.nameAck lid rink seat v c) s t ∧ t.fb = { s.fb with
        waiting := s.fb.waiting.filter (· != seatIdx rink seat), conflict := s.fb.conflict || c } ∧ Frame [.fb] s t) ∧
    (s.fb.standin ≠ 1 ∨ s.fb.lid ≠ some lid ∨ v ≠ s.fb.ntVersion → Runs (.nameAck lid rink seat v c) s s)) ∧
  (∀ rink seat st lid s, st ≤ 4 →
    ∃ t, Runs (.seatState rink seat st lid) s t ∧ t.seatE (seatIdx rink seat) = ⟨st, lid⟩ ∧
      (∀ k, k ≠ seatIdx rink seat → t.seatE k = s.seatE k) ∧ Frame [.pg, .fb, .out] s t) ∧
  (∀ r r2 up s, ∃ t, Runs (.linkState r r2 up) s t ∧ has t.fb.linkDown (256 * r + r2) = !up ∧
    has t.fb.linkDown (256 * r2 + r) = !up ∧ Frame [.pg, .fb, .out] s t) ∧
  (∀ ag s, s.accepts ag 4 0xE0 1 →
    (s.fb.lid ≠ none → ∃ t, Runs (.drain ag) s t ∧ Frame [.pg, .out] s t) ∧
    (s.fb.lid = none → ∃ t, Runs (.drain ag) s t ∧ t.seatE (seatIdx s.kd.rink s.kd.seat) = ⟨3, 0⟩ ∧
      (∀ p, p < 32 → (t.port p).state = 0) ∧
      (∀ p q, p < 32 → portRole p = 1 → (s.port p).state = 2 → (s.port p).partner = some q →
        has t.fb.linkDown (256 * s.kd.rink + q.rink) = true) ∧ Frame [.pg, .fb, .out] s t)) ∧
  (∀ st s, s.rebinding st = true ∨ s.lit st = false → Runs (.standinDirective st) s s) ∧
  (∀ st b r s, s.flash st = b :: r → flashCmd b.bytes = 3 → flashReserved b.bytes = false →
    s.rebinding st = false → s.lit st = true →
    let lid := leAt b.bytes 0x10 4 % 4096
    let v := leAt b.bytes 0x14 4
    (s.fb.lid = none → s.fb.ntVersion < v →
      ∃ t, Runs (.standinDirective st) s t ∧ t.flash st = r ∧ t.fb.lid = some lid ∧ t.fb.standin = 1 ∧ t.fb.ntVersion = v ∧
        t.name lid = ⟨true, s.kd.rink, s.kd.seat⟩ ∧ t.fb.standinCmd = b.bytes ∧
        Frame (reaching [.pg, .mem, .fb, .uc, .out, .free]) s t) ∧
    (s.fb.lid ≠ none ∨ v ≤ s.fb.ntVersion →
      ∃ t, Runs (.standinDirective st) s t ∧ t.flash st = r ∧ Frame (reaching [.pg, .mem, .uc, .out, .free]) s t)) ∧
  (∀ s, s.fb.standin = 1 →
    let rest := (List.range 8).filter fun b => !bitOf (leAt s.fb.standinCmd 0x1C 1) b
    (s.fb.waiting = [] → ∃ t, Runs .standinDone s t ∧ t.fb.standin = (if s.fb.conflict = true then 3 else 2) ∧
      t.fb.parked = rest ∧ Frame [.pg, .fb, .out] s t) ∧
    (s.fb.waiting ≠ [] → Runs .standinDone s s ∧
      ∃ t, Runs .ntTimeout s t ∧ t.fb.standin = 4 ∧ t.fb.parked = rest ∧ Frame [.pg, .fb, .out] s t))

/-- Pistes and the collective engines' job slots (R294, R299 to R301, R306). A piste that passes its checks joins the slot's entries;
the active one is never loaded over; a switch makes the new piste active once every flit of the job is acknowledged, though its context
have faulted; a slot is enabled with its lists mapped and disabled
outside a step. -/
def Obligations.PistesAndJobSlots : Prop :=
  (∀ ag v s, s.accepts ag 4 0xE0 v →
    let b := fld v 2 0
    let k := fld v 6 3
    let len := 8 * fld v 19 7
    let hi := s.rd 4 Reg.COL_PISTE_LOAD_HI
    let a := s.rdN 4 Reg.COL_PISTE_LOAD_LO + 2 ^ 32 * fld hi 15 0
    let c := fld hi 27 16
    let img := s.vrdN c a len
    (bitOf v.toNat 31 = false → Runs (.pisteLoad ag v) s s) ∧
    (bitOf v.toNat 31 = true → (s.cjob b).active = some k → ∃ t, Runs (.pisteLoad ag v) s t ∧ Frame [.pg] s t) ∧
    (bitOf v.toNat 31 = true → (s.cjob b).active ≠ some k → a % 64 = 0 → s.mapped c a len false = true →
      s.memBad 0 c [(a, len)] false = none →
      (s.pisteReason b img = 0 →
        ∃ t, Runs (.pisteLoad ag v) s t ∧
          t.cjob b = { s.cjob b with pistes := (s.cjob b).pistes.filter (fun p => p.1 != k) ++ [(k, img)] } ∧
          (∀ d, d ≠ b → t.cjob d = s.cjob d) ∧ t.rd 4 Reg.COL_PISTE_STATUS = 2 ∧ Frame (reaching [.pg, .fb]) s t) ∧
      (s.pisteReason b img ≠ 0 →
        ∃ t, Runs (.pisteLoad ag v) s t ∧ fld (t.rd 4 Reg.COL_PISTE_STATUS) 15 8 = s.pisteReason b img ∧
          Frame (reaching [.pg, .out]) s t))) ∧
  (∀ slot k f s, (s.sq.flights.find? fun f => match f.body with | .piste b _ => b == slot | _ => false) = some f →
    f.body = .piste slot k → s.unacked slot = false →
    ∃ t, Runs (.pisteSwitch slot) s t ∧ (t.cjob slot).active = some k ∧ (t.cjob slot).pistes = (s.cjob slot).pistes ∧
      (∀ d, d ≠ slot → t.cjob d = s.cjob d) ∧
      ((s.ctx f.ctx).state ≠ 4 → (s.ctx f.ctx).isBound = true →
        t.sq.flights = s.sq.flights.map (fun g => if g.id = f.id then { f with body := .plain } else g)) ∧
      ((s.ctx f.ctx).state = 4 ∨ (s.ctx f.ctx).isBound = false → ∀ g ∈ t.sq.flights, g.id ≠ f.id)) ∧
  (∀ slot s, (∀ f ∈ s.sq.flights, ∀ k, f.body ≠ .piste slot k) ∨ s.unacked slot = true → Runs (.pisteSwitch slot) s s) ∧
  (∀ ag b v s, s.accepts ag 4 0xE1 v →
    let r := colReg b Reg.COL_JOB_b_CTRL
    let c := s.dirCtx b
    let n := s.memberCount b
    (bitOf (s.rdN 4 r) 0 = false → bitOf v.toNat 0 = true → s.blockOn 4 0xE1 = true → s.kd.serviceOnly = false → 1 ≤ n →
      n ≤ 4096 →
      s.mapped c (s.rdN 4 (colReg b Reg.COL_JOB_b_MEM_LO) + 2 ^ 32 * fld (s.rd 4 (colReg b Reg.COL_JOB_b_MEM_HI)) 15 0)
        (2 * n) false = true →
      s.mapped c (s.rdN 4 (colReg b Reg.COL_JOB_b_STAGE_LO) + 2 ^ 32 * fld (s.rd 4 (colReg b Reg.COL_JOB_b_STAGE_HI)) 15 0)
        (2 ^ 21 * fld (s.rd 4 (colReg b Reg.COL_JOB_b_STAGE_HI)) 27 16) true = true →
      s.mapped c (s.rdN 4 (colReg b Reg.COL_JOB_b_VDEST_LO) + 2 ^ 32 * fld (s.rd 4 (colReg b Reg.COL_JOB_b_VDEST_HI)) 15 0)
        (64 + 48 * n) true = true →
      ∃ t, Runs (.colJobEnable ag b v) s t ∧ t.rd 4 r = 1 ∧ (t.cjob b).cseq = 0 ∧ has t.fb.parked b = false ∧
        Frame [.pg, .fb, .out] s t) ∧
    (bitOf (s.rdN 4 r) 0 = true → bitOf v.toNat 0 = false → (s.job b).inStep = false →
      (∀ st, st < 4 → bitOf (s.swpCtrl st b).toNat 0 = false) →
      ∃ t, Runs (.colJobDisable ag b v) s t ∧ t.rd 4 r = 0 ∧ (∀ d x, regKey d x ≠ regKey 4 r → t.rd d x = s.rd d x) ∧
        Frame [.pg] s t) ∧
    (bitOf (s.rdN 4 r) 0 = true → bitOf v.toNat 0 = false →
      ((s.job b).inStep = true ∨ ∃ st, st < 4 ∧ bitOf (s.swpCtrl st b).toNat 0 = true) →
      ∃ t, Runs (.colJobDisable ag b v) s t ∧ t.rd 4 r = s.rd 4 r ∧ Frame [.pg, .out] s t))

/-- Messages from a position that their logical ID does not have in the name table (R293); one that bears the module's own logical ID,
while the table has no entry for it, comes from another position than the module's. Each is discarded, counted and logged, and changes
nothing else. That the module's own position stands in for that entry is the model's choice (assumption 17). -/
def Obligations.FencedMessages : Prop :=
  ∀ (m : MsgHdr) (cmd : Instr) (s : State),
    (if s.fb.lid = some m.src ∧ (s.name m.src).valid = false then ¬ (m.srcRink = s.kd.rink ∧ m.srcSeat = s.kd.seat)
      else ¬ ((s.name m.src).valid = true ∧ (s.name m.src).rink = m.srcRink ∧ (s.name m.src).seat = m.srcSeat)) →
    (∃ st k e v r q, cmd = .lookup st m k e v r q) ∨ (∃ st k d, cmd = .row st m k d) ∨ (∃ st k r, cmd = .invalid st m k r) ∨
      (∃ st k h, cmd = .redirect st m k h) ∨ (∃ st k e d, cmd = .replica st m k e d) ∨ (∃ st p, cmd = .partialI st m p) ∨
      (∃ st x, cmd = .ship st m x) ∨ (∃ st w, cmd = .ack st m w) ∨ (∃ st n k b d, cmd = .digest st m n k b d) ∨
      (∃ c, cmd = .verdict m c) ∨ (∃ f o, cmd = .vote m f o) ∨ (∃ a q, cmd = .getRequest m a q) ∨
      (∃ a d, cmd = .putRequest m a d) ∨ (∃ n b, cmd = .data m n b) ∨ (∃ o n k l d b, cmd = .cdata m o n k l d b) ∨
      cmd = .abort m ∨ (∃ st k n, cmd = .unreachable m st k n) →
    ∃ t, Runs cmd s t ∧
      t.rdN 4 Reg.COL_FENCED_TOTAL = satAdd 0xFFFFFFFF (s.rdN 4 Reg.COL_FENCED_TOTAL) 1 ∧
      bitOf (t.hdr 4 0xE0).evStatus.toNat 10 = true ∧ Frame [.pg, .out] s t

/-- The local wiring of a rink (R283): local port Lj, which is port j or j + 8 (R280), of seat s connects to local port L(14 − j) of
seat (s + j + 1) mod 16 of the same rink, so that any two seats have exactly one link. -/
def Obligations.LocalWiring : Prop :=
  let port := fun (j : Nat) => if j ≤ 7 then j else j + 8
  (∀ (j : Nat) (s : State), j ≤ 14 → s.cabled (port j) = some ⟨s.kd.rink, (s.kd.seat + j + 1) % 16, port (14 - j)⟩) ∧
  (∀ a b, a < 16 → b < 16 → a ≠ b → ∃ j, j ≤ 14 ∧ (a + j + 1) % 16 = b ∧ (b + (14 - j) + 1) % 16 = a ∧
    ∀ k, k ≤ 14 → (a + k + 1) % 16 = b → k = j)

/-- Every operand enters a multiplier as a 5-bit signed integer (R24): an F4 value as twice its value, an unsigned integer as
q − z, a signed integer or a T2 value as its value; so it lies in −15..15, a product in −225..225, and a sum of up to 128 products
is exact in 16-bit two's complement. -/
def Obligations.MultiplierOperands : Prop :=
  let takes := fun (f : Fmt) => f = .f4 ∨ f = .i4s ∨ f = .i4u ∨ f = .i3s ∨ f = .i3u ∨ f = .i2s ∨ f = .t2
  (∀ z c, (mulOperand .f4 z c : ℚ) = 2 * decF4 c ∧ mulOperand .i4u z c = (c % 16 : Int) - z ∧
    mulOperand .i3u z c = (c % 8 : Int) - z ∧ mulOperand .i4s z c = sx c 4 ∧ mulOperand .i3s z c = sx c 3 ∧
    mulOperand .i2s z c = sx c 2 ∧ mulOperand .t2 z c = if c % 4 = 1 then 1 else if c % 4 = 3 then -1 else 0) ∧
  (∀ f z c, takes f → z ≤ 15 → -15 ≤ mulOperand f z c ∧ mulOperand f z c ≤ 15) ∧
  (∀ f g y z c d, takes f → takes g → y ≤ 15 → z ≤ 15 →
    -225 ≤ mulOperand f y c * mulOperand g z d ∧ mulOperand f y c * mulOperand g z d ≤ 225) ∧
  (∀ (f g : Fmt) (y z : Nat) (l : List (Nat × Nat)), takes f → takes g → y ≤ 15 → z ≤ 15 → l.length ≤ 128 →
    (BitVec.ofInt 16 ((l.map fun p => mulOperand f y p.1 * mulOperand g z p.2).sum)).toInt =
      (l.map fun p => mulOperand f y p.1 * mulOperand g z p.2).sum) ∧
  (∀ v w : View, f4Flags v w = (if v.fmt = .f4 then 1 else 0) + (if w.fmt = .f4 then 1 else 0))

/-- The machine right after reset (R308, R339, R341): no command waits, every register stands at its Reset value and every page
header at its own, no context is valid, no sequencer runs, memory lists nothing, and the invariants hold. -/
def Obligations.ResetState : Prop :=
  State.reset.pending = [] ∧ State.reset.mem = [] ∧ MemWf State.reset ∧ FlightsNumbered State.reset ∧
    (∀ d r, State.reset.rd d r = regReset (regKey d r)) ∧ (∀ d p, State.reset.hdr d p = {}) ∧
    (∀ c, (State.reset.ctx c).valid = false) ∧ (∀ st n, (State.reset.seq st n).state = 0) ∧
    State.reset.rdN 4 Reg.COL_NT_TMO = 0x00B71B00 ∧ State.reset.rdN 4 Reg.COL_JOB_b_VTMO = 0x000186A0 ∧
    State.reset.rdN 0 Reg.UCI_SRC_p_CTRL = 1

/-- A step takes the command at the front of the queue and runs its meaning on the rest; with no command waiting the module idles,
which is the model's choice (assumption 1). -/
def Obligations.StepRunsFront : Prop :=
  (∀ (c : Instr) (q : List Instr) (s : State), s.pending = c :: q → step s = exec c { s with pending := q }) ∧
  (∀ s : State, s.pending = [] → step s = .next s)

/-- Every step keeps memory in its canonical form and flights numbered below the next number; this is the model's own invariant
(assumption 2). -/
def Obligations.StepKeepsInvariant : Prop :=
  ∀ s t : State, MemWf s → FlightsNumbered s → step s = .next t → MemWf t ∧ FlightsNumbered t

/-- Each of the eleven row functions (R128 to R136), and each of the nine collectives that move data (R294, R295), completes with its own
effect in every state and for all operands that let it execute normally. -/
def Obligations.RowsAndCollectivesComplete : Prop :=
  (∀ (i : Iss) (r : RowOps) (c : Nat) (s : State),
    (RowReady s .lnFwd i r c → ∃ t, Sys2Proof.Machine.exec (.lnFwd i r) s = .next t ∧ RowDone s t .lnFwd i r c) ∧
    (RowReady s .lnBwd i r c → ∃ t, Sys2Proof.Machine.exec (.lnBwd i r) s = .next t ∧ RowDone s t .lnBwd i r c) ∧
    (RowReady s .rmsFwd i r c → ∃ t, Sys2Proof.Machine.exec (.rmsFwd i r) s = .next t ∧ RowDone s t .rmsFwd i r c) ∧
    (RowReady s .rmsBwd i r c → ∃ t, Sys2Proof.Machine.exec (.rmsBwd i r) s = .next t ∧ RowDone s t .rmsBwd i r c) ∧
    (RowReady s .smaxFwd i r c → ∃ t, Sys2Proof.Machine.exec (.smaxFwd i r) s = .next t ∧ RowDone s t .smaxFwd i r c) ∧
    (RowReady s .smaxBwd i r c → ∃ t, Sys2Proof.Machine.exec (.smaxBwd i r) s = .next t ∧ RowDone s t .smaxBwd i r c) ∧
    (RowReady s .lsmaxFwd i r c → ∃ t, Sys2Proof.Machine.exec (.lsmaxFwd i r) s = .next t ∧ RowDone s t .lsmaxFwd i r c) ∧
    (RowReady s .lsmaxBwd i r c → ∃ t, Sys2Proof.Machine.exec (.lsmaxBwd i r) s = .next t ∧ RowDone s t .lsmaxBwd i r c) ∧
    (RowReady s .chunk i r c → ∃ t, Sys2Proof.Machine.exec (.chunk i r) s = .next t ∧ RowDone s t .chunk i r c) ∧
    (RowReady s .finish i r c → ∃ t, Sys2Proof.Machine.exec (.finish i r) s = .next t ∧ RowDone s t .finish i r c) ∧
    (RowReady s .reset i r c → ∃ t, Sys2Proof.Machine.exec (.resetRows i r) s = .next t ∧ RowDone s t .reset i r c)) ∧
  (∀ (i : Iss) (o : CollOps) (c : Nat) (s : State),
    (CollReady s 0 i o c → ∃ t, Sys2Proof.Machine.exec (.allReduce i o) s = .next t ∧ CollDone s t 0 i o c) ∧
    (CollReady s 1 i o c → ∃ t, Sys2Proof.Machine.exec (.reduceScatter i o) s = .next t ∧ CollDone s t 1 i o c) ∧
    (CollReady s 2 i o c → ∃ t, Sys2Proof.Machine.exec (.allGather i o) s = .next t ∧ CollDone s t 2 i o c) ∧
    (CollReady s 3 i o c → ∃ t, Sys2Proof.Machine.exec (.allToAll i o) s = .next t ∧ CollDone s t 3 i o c) ∧
    (CollReady s 4 i o c → ∃ t, Sys2Proof.Machine.exec (.broadcast i o) s = .next t ∧ CollDone s t 4 i o c) ∧
    (CollReady s 5 i o c → ∃ t, Sys2Proof.Machine.exec (.flagOr i o) s = .next t ∧ CollDone s t 5 i o c) ∧
    (CollReady s 6 i o c → ∃ t, Sys2Proof.Machine.exec (.maxColl i o) s = .next t ∧ CollDone s t 6 i o c) ∧
    (CollReady s 7 i o c → ∃ t, Sys2Proof.Machine.exec (.put i o) s = .next t ∧ CollDone s t 7 i o c) ∧
    (CollReady s 8 i o c → ∃ t, Sys2Proof.Machine.exec (.get i o) s = .next t ∧ CollDone s t 8 i o c))

end Statements
end

