-- ==== Sys2Proof/Laws/State.lean ====
section
/-! SUPPORT. What each update of State leaves alone: one lemma per update and part, so that no proof unfolds a record update. -/

namespace Sys2Proof.Machine

theorem upd_pg_mem (s : State) (x : PageSt) : ({ s with pg := x } : State).mem = s.mem := rfl
theorem upd_pg_cx (s : State) (x : PageSt) : ({ s with pg := x } : State).cx = s.cx := rfl
theorem upd_pg_sq (s : State) (x : PageSt) : ({ s with pg := x } : State).sq = s.sq := rfl
theorem upd_pg_sp (s : State) (x : PageSt) : ({ s with pg := x } : State).sp = s.sp := rfl
theorem upd_pg_ar (s : State) (x : PageSt) : ({ s with pg := x } : State).ar = s.ar := rfl
theorem upd_pg_rw (s : State) (x : PageSt) : ({ s with pg := x } : State).rw = s.rw := rfl
theorem upd_pg_ht (s : State) (x : PageSt) : ({ s with pg := x } : State).ht = s.ht := rfl
theorem upd_pg_ca (s : State) (x : PageSt) : ({ s with pg := x } : State).ca = s.ca := rfl
theorem upd_pg_em (s : State) (x : PageSt) : ({ s with pg := x } : State).em = s.em := rfl
theorem upd_pg_sw (s : State) (x : PageSt) : ({ s with pg := x } : State).sw = s.sw := rfl
theorem upd_pg_tr (s : State) (x : PageSt) : ({ s with pg := x } : State).tr = s.tr := rfl
theorem upd_pg_uc (s : State) (x : PageSt) : ({ s with pg := x } : State).uc = s.uc := rfl
theorem upd_pg_fb (s : State) (x : PageSt) : ({ s with pg := x } : State).fb = s.fb := rfl
theorem upd_pg_kd (s : State) (x : PageSt) : ({ s with pg := x } : State).kd = s.kd := rfl
theorem upd_pg_out (s : State) (x : PageSt) : ({ s with pg := x } : State).out = s.out := rfl
theorem upd_pg_pending (s : State) (x : PageSt) : ({ s with pg := x } : State).pending = s.pending := rfl
theorem upd_pg_free (s : State) (x : PageSt) : ({ s with pg := x } : State).free = s.free := rfl
theorem upd_mem_pg (s : State) (x : Tab Byte) : ({ s with mem := x } : State).pg = s.pg := rfl
theorem upd_mem_cx (s : State) (x : Tab Byte) : ({ s with mem := x } : State).cx = s.cx := rfl
theorem upd_mem_sq (s : State) (x : Tab Byte) : ({ s with mem := x } : State).sq = s.sq := rfl
theorem upd_mem_sp (s : State) (x : Tab Byte) : ({ s with mem := x } : State).sp = s.sp := rfl
theorem upd_mem_ar (s : State) (x : Tab Byte) : ({ s with mem := x } : State).ar = s.ar := rfl
theorem upd_mem_rw (s : State) (x : Tab Byte) : ({ s with mem := x } : State).rw = s.rw := rfl
theorem upd_mem_ht (s : State) (x : Tab Byte) : ({ s with mem := x } : State).ht = s.ht := rfl
theorem upd_mem_ca (s : State) (x : Tab Byte) : ({ s with mem := x } : State).ca = s.ca := rfl
theorem upd_mem_em (s : State) (x : Tab Byte) : ({ s with mem := x } : State).em = s.em := rfl
theorem upd_mem_sw (s : State) (x : Tab Byte) : ({ s with mem := x } : State).sw = s.sw := rfl
theorem upd_mem_tr (s : State) (x : Tab Byte) : ({ s with mem := x } : State).tr = s.tr := rfl
theorem upd_mem_uc (s : State) (x : Tab Byte) : ({ s with mem := x } : State).uc = s.uc := rfl
theorem upd_mem_fb (s : State) (x : Tab Byte) : ({ s with mem := x } : State).fb = s.fb := rfl
theorem upd_mem_kd (s : State) (x : Tab Byte) : ({ s with mem := x } : State).kd = s.kd := rfl
theorem upd_mem_out (s : State) (x : Tab Byte) : ({ s with mem := x } : State).out = s.out := rfl
theorem upd_mem_pending (s : State) (x : Tab Byte) : ({ s with mem := x } : State).pending = s.pending := rfl
theorem upd_mem_free (s : State) (x : Tab Byte) : ({ s with mem := x } : State).free = s.free := rfl
theorem upd_cx_pg (s : State) (x : CtxSt) : ({ s with cx := x } : State).pg = s.pg := rfl
theorem upd_cx_mem (s : State) (x : CtxSt) : ({ s with cx := x } : State).mem = s.mem := rfl
theorem upd_cx_sq (s : State) (x : CtxSt) : ({ s with cx := x } : State).sq = s.sq := rfl
theorem upd_cx_sp (s : State) (x : CtxSt) : ({ s with cx := x } : State).sp = s.sp := rfl
theorem upd_cx_ar (s : State) (x : CtxSt) : ({ s with cx := x } : State).ar = s.ar := rfl
theorem upd_cx_rw (s : State) (x : CtxSt) : ({ s with cx := x } : State).rw = s.rw := rfl
theorem upd_cx_ht (s : State) (x : CtxSt) : ({ s with cx := x } : State).ht = s.ht := rfl
theorem upd_cx_ca (s : State) (x : CtxSt) : ({ s with cx := x } : State).ca = s.ca := rfl
theorem upd_cx_em (s : State) (x : CtxSt) : ({ s with cx := x } : State).em = s.em := rfl
theorem upd_cx_sw (s : State) (x : CtxSt) : ({ s with cx := x } : State).sw = s.sw := rfl
theorem upd_cx_tr (s : State) (x : CtxSt) : ({ s with cx := x } : State).tr = s.tr := rfl
theorem upd_cx_uc (s : State) (x : CtxSt) : ({ s with cx := x } : State).uc = s.uc := rfl
theorem upd_cx_fb (s : State) (x : CtxSt) : ({ s with cx := x } : State).fb = s.fb := rfl
theorem upd_cx_kd (s : State) (x : CtxSt) : ({ s with cx := x } : State).kd = s.kd := rfl
theorem upd_cx_out (s : State) (x : CtxSt) : ({ s with cx := x } : State).out = s.out := rfl
theorem upd_cx_pending (s : State) (x : CtxSt) : ({ s with cx := x } : State).pending = s.pending := rfl
theorem upd_cx_free (s : State) (x : CtxSt) : ({ s with cx := x } : State).free = s.free := rfl
theorem upd_sq_pg (s : State) (x : SeqSt) : ({ s with sq := x } : State).pg = s.pg := rfl
theorem upd_sq_mem (s : State) (x : SeqSt) : ({ s with sq := x } : State).mem = s.mem := rfl
theorem upd_sq_cx (s : State) (x : SeqSt) : ({ s with sq := x } : State).cx = s.cx := rfl
theorem upd_sq_sp (s : State) (x : SeqSt) : ({ s with sq := x } : State).sp = s.sp := rfl
theorem upd_sq_ar (s : State) (x : SeqSt) : ({ s with sq := x } : State).ar = s.ar := rfl
theorem upd_sq_rw (s : State) (x : SeqSt) : ({ s with sq := x } : State).rw = s.rw := rfl
theorem upd_sq_ht (s : State) (x : SeqSt) : ({ s with sq := x } : State).ht = s.ht := rfl
theorem upd_sq_ca (s : State) (x : SeqSt) : ({ s with sq := x } : State).ca = s.ca := rfl
theorem upd_sq_em (s : State) (x : SeqSt) : ({ s with sq := x } : State).em = s.em := rfl
theorem upd_sq_sw (s : State) (x : SeqSt) : ({ s with sq := x } : State).sw = s.sw := rfl
theorem upd_sq_tr (s : State) (x : SeqSt) : ({ s with sq := x } : State).tr = s.tr := rfl
theorem upd_sq_uc (s : State) (x : SeqSt) : ({ s with sq := x } : State).uc = s.uc := rfl
theorem upd_sq_fb (s : State) (x : SeqSt) : ({ s with sq := x } : State).fb = s.fb := rfl
theorem upd_sq_kd (s : State) (x : SeqSt) : ({ s with sq := x } : State).kd = s.kd := rfl
theorem upd_sq_out (s : State) (x : SeqSt) : ({ s with sq := x } : State).out = s.out := rfl
theorem upd_sq_pending (s : State) (x : SeqSt) : ({ s with sq := x } : State).pending = s.pending := rfl
theorem upd_sq_free (s : State) (x : SeqSt) : ({ s with sq := x } : State).free = s.free := rfl
theorem upd_sp_pg (s : State) (x : SpdSt) : ({ s with sp := x } : State).pg = s.pg := rfl
theorem upd_sp_mem (s : State) (x : SpdSt) : ({ s with sp := x } : State).mem = s.mem := rfl
theorem upd_sp_cx (s : State) (x : SpdSt) : ({ s with sp := x } : State).cx = s.cx := rfl
theorem upd_sp_sq (s : State) (x : SpdSt) : ({ s with sp := x } : State).sq = s.sq := rfl
theorem upd_sp_ar (s : State) (x : SpdSt) : ({ s with sp := x } : State).ar = s.ar := rfl
theorem upd_sp_rw (s : State) (x : SpdSt) : ({ s with sp := x } : State).rw = s.rw := rfl
theorem upd_sp_ht (s : State) (x : SpdSt) : ({ s with sp := x } : State).ht = s.ht := rfl
theorem upd_sp_ca (s : State) (x : SpdSt) : ({ s with sp := x } : State).ca = s.ca := rfl
theorem upd_sp_em (s : State) (x : SpdSt) : ({ s with sp := x } : State).em = s.em := rfl
theorem upd_sp_sw (s : State) (x : SpdSt) : ({ s with sp := x } : State).sw = s.sw := rfl
theorem upd_sp_tr (s : State) (x : SpdSt) : ({ s with sp := x } : State).tr = s.tr := rfl
theorem upd_sp_uc (s : State) (x : SpdSt) : ({ s with sp := x } : State).uc = s.uc := rfl
theorem upd_sp_fb (s : State) (x : SpdSt) : ({ s with sp := x } : State).fb = s.fb := rfl
theorem upd_sp_kd (s : State) (x : SpdSt) : ({ s with sp := x } : State).kd = s.kd := rfl
theorem upd_sp_out (s : State) (x : SpdSt) : ({ s with sp := x } : State).out = s.out := rfl
theorem upd_sp_pending (s : State) (x : SpdSt) : ({ s with sp := x } : State).pending = s.pending := rfl
theorem upd_sp_free (s : State) (x : SpdSt) : ({ s with sp := x } : State).free = s.free := rfl
theorem upd_ar_pg (s : State) (x : ArrSt) : ({ s with ar := x } : State).pg = s.pg := rfl
theorem upd_ar_mem (s : State) (x : ArrSt) : ({ s with ar := x } : State).mem = s.mem := rfl
theorem upd_ar_cx (s : State) (x : ArrSt) : ({ s with ar := x } : State).cx = s.cx := rfl
theorem upd_ar_sq (s : State) (x : ArrSt) : ({ s with ar := x } : State).sq = s.sq := rfl
theorem upd_ar_sp (s : State) (x : ArrSt) : ({ s with ar := x } : State).sp = s.sp := rfl
theorem upd_ar_rw (s : State) (x : ArrSt) : ({ s with ar := x } : State).rw = s.rw := rfl
theorem upd_ar_ht (s : State) (x : ArrSt) : ({ s with ar := x } : State).ht = s.ht := rfl
theorem upd_ar_ca (s : State) (x : ArrSt) : ({ s with ar := x } : State).ca = s.ca := rfl
theorem upd_ar_em (s : State) (x : ArrSt) : ({ s with ar := x } : State).em = s.em := rfl
theorem upd_ar_sw (s : State) (x : ArrSt) : ({ s with ar := x } : State).sw = s.sw := rfl
theorem upd_ar_tr (s : State) (x : ArrSt) : ({ s with ar := x } : State).tr = s.tr := rfl
theorem upd_ar_uc (s : State) (x : ArrSt) : ({ s with ar := x } : State).uc = s.uc := rfl
theorem upd_ar_fb (s : State) (x : ArrSt) : ({ s with ar := x } : State).fb = s.fb := rfl
theorem upd_ar_kd (s : State) (x : ArrSt) : ({ s with ar := x } : State).kd = s.kd := rfl
theorem upd_ar_out (s : State) (x : ArrSt) : ({ s with ar := x } : State).out = s.out := rfl
theorem upd_ar_pending (s : State) (x : ArrSt) : ({ s with ar := x } : State).pending = s.pending := rfl
theorem upd_ar_free (s : State) (x : ArrSt) : ({ s with ar := x } : State).free = s.free := rfl
theorem upd_rw_pg (s : State) (x : RowSt) : ({ s with rw := x } : State).pg = s.pg := rfl
theorem upd_rw_mem (s : State) (x : RowSt) : ({ s with rw := x } : State).mem = s.mem := rfl
theorem upd_rw_cx (s : State) (x : RowSt) : ({ s with rw := x } : State).cx = s.cx := rfl
theorem upd_rw_sq (s : State) (x : RowSt) : ({ s with rw := x } : State).sq = s.sq := rfl
theorem upd_rw_sp (s : State) (x : RowSt) : ({ s with rw := x } : State).sp = s.sp := rfl
theorem upd_rw_ar (s : State) (x : RowSt) : ({ s with rw := x } : State).ar = s.ar := rfl
theorem upd_rw_ht (s : State) (x : RowSt) : ({ s with rw := x } : State).ht = s.ht := rfl
theorem upd_rw_ca (s : State) (x : RowSt) : ({ s with rw := x } : State).ca = s.ca := rfl
theorem upd_rw_em (s : State) (x : RowSt) : ({ s with rw := x } : State).em = s.em := rfl
theorem upd_rw_sw (s : State) (x : RowSt) : ({ s with rw := x } : State).sw = s.sw := rfl
theorem upd_rw_tr (s : State) (x : RowSt) : ({ s with rw := x } : State).tr = s.tr := rfl
theorem upd_rw_uc (s : State) (x : RowSt) : ({ s with rw := x } : State).uc = s.uc := rfl
theorem upd_rw_fb (s : State) (x : RowSt) : ({ s with rw := x } : State).fb = s.fb := rfl
theorem upd_rw_kd (s : State) (x : RowSt) : ({ s with rw := x } : State).kd = s.kd := rfl
theorem upd_rw_out (s : State) (x : RowSt) : ({ s with rw := x } : State).out = s.out := rfl
theorem upd_rw_pending (s : State) (x : RowSt) : ({ s with rw := x } : State).pending = s.pending := rfl
theorem upd_rw_free (s : State) (x : RowSt) : ({ s with rw := x } : State).free = s.free := rfl
theorem upd_ht_pg (s : State) (x : HthSt) : ({ s with ht := x } : State).pg = s.pg := rfl
theorem upd_ht_mem (s : State) (x : HthSt) : ({ s with ht := x } : State).mem = s.mem := rfl
theorem upd_ht_cx (s : State) (x : HthSt) : ({ s with ht := x } : State).cx = s.cx := rfl
theorem upd_ht_sq (s : State) (x : HthSt) : ({ s with ht := x } : State).sq = s.sq := rfl
theorem upd_ht_sp (s : State) (x : HthSt) : ({ s with ht := x } : State).sp = s.sp := rfl
theorem upd_ht_ar (s : State) (x : HthSt) : ({ s with ht := x } : State).ar = s.ar := rfl
theorem upd_ht_rw (s : State) (x : HthSt) : ({ s with ht := x } : State).rw = s.rw := rfl
theorem upd_ht_ca (s : State) (x : HthSt) : ({ s with ht := x } : State).ca = s.ca := rfl
theorem upd_ht_em (s : State) (x : HthSt) : ({ s with ht := x } : State).em = s.em := rfl
theorem upd_ht_sw (s : State) (x : HthSt) : ({ s with ht := x } : State).sw = s.sw := rfl
theorem upd_ht_tr (s : State) (x : HthSt) : ({ s with ht := x } : State).tr = s.tr := rfl
theorem upd_ht_uc (s : State) (x : HthSt) : ({ s with ht := x } : State).uc = s.uc := rfl
theorem upd_ht_fb (s : State) (x : HthSt) : ({ s with ht := x } : State).fb = s.fb := rfl
theorem upd_ht_kd (s : State) (x : HthSt) : ({ s with ht := x } : State).kd = s.kd := rfl
theorem upd_ht_out (s : State) (x : HthSt) : ({ s with ht := x } : State).out = s.out := rfl
theorem upd_ht_pending (s : State) (x : HthSt) : ({ s with ht := x } : State).pending = s.pending := rfl
theorem upd_ht_free (s : State) (x : HthSt) : ({ s with ht := x } : State).free = s.free := rfl
theorem upd_ca_pg (s : State) (x : CacheSt) : ({ s with ca := x } : State).pg = s.pg := rfl
theorem upd_ca_mem (s : State) (x : CacheSt) : ({ s with ca := x } : State).mem = s.mem := rfl
theorem upd_ca_cx (s : State) (x : CacheSt) : ({ s with ca := x } : State).cx = s.cx := rfl
theorem upd_ca_sq (s : State) (x : CacheSt) : ({ s with ca := x } : State).sq = s.sq := rfl
theorem upd_ca_sp (s : State) (x : CacheSt) : ({ s with ca := x } : State).sp = s.sp := rfl
theorem upd_ca_ar (s : State) (x : CacheSt) : ({ s with ca := x } : State).ar = s.ar := rfl
theorem upd_ca_rw (s : State) (x : CacheSt) : ({ s with ca := x } : State).rw = s.rw := rfl
theorem upd_ca_ht (s : State) (x : CacheSt) : ({ s with ca := x } : State).ht = s.ht := rfl
theorem upd_ca_em (s : State) (x : CacheSt) : ({ s with ca := x } : State).em = s.em := rfl
theorem upd_ca_sw (s : State) (x : CacheSt) : ({ s with ca := x } : State).sw = s.sw := rfl
theorem upd_ca_tr (s : State) (x : CacheSt) : ({ s with ca := x } : State).tr = s.tr := rfl
theorem upd_ca_uc (s : State) (x : CacheSt) : ({ s with ca := x } : State).uc = s.uc := rfl
theorem upd_ca_fb (s : State) (x : CacheSt) : ({ s with ca := x } : State).fb = s.fb := rfl
theorem upd_ca_kd (s : State) (x : CacheSt) : ({ s with ca := x } : State).kd = s.kd := rfl
theorem upd_ca_out (s : State) (x : CacheSt) : ({ s with ca := x } : State).out = s.out := rfl
theorem upd_ca_pending (s : State) (x : CacheSt) : ({ s with ca := x } : State).pending = s.pending := rfl
theorem upd_ca_free (s : State) (x : CacheSt) : ({ s with ca := x } : State).free = s.free := rfl
theorem upd_em_pg (s : State) (x : EmbSt) : ({ s with em := x } : State).pg = s.pg := rfl
theorem upd_em_mem (s : State) (x : EmbSt) : ({ s with em := x } : State).mem = s.mem := rfl
theorem upd_em_cx (s : State) (x : EmbSt) : ({ s with em := x } : State).cx = s.cx := rfl
theorem upd_em_sq (s : State) (x : EmbSt) : ({ s with em := x } : State).sq = s.sq := rfl
theorem upd_em_sp (s : State) (x : EmbSt) : ({ s with em := x } : State).sp = s.sp := rfl
theorem upd_em_ar (s : State) (x : EmbSt) : ({ s with em := x } : State).ar = s.ar := rfl
theorem upd_em_rw (s : State) (x : EmbSt) : ({ s with em := x } : State).rw = s.rw := rfl
theorem upd_em_ht (s : State) (x : EmbSt) : ({ s with em := x } : State).ht = s.ht := rfl
theorem upd_em_ca (s : State) (x : EmbSt) : ({ s with em := x } : State).ca = s.ca := rfl
theorem upd_em_sw (s : State) (x : EmbSt) : ({ s with em := x } : State).sw = s.sw := rfl
theorem upd_em_tr (s : State) (x : EmbSt) : ({ s with em := x } : State).tr = s.tr := rfl
theorem upd_em_uc (s : State) (x : EmbSt) : ({ s with em := x } : State).uc = s.uc := rfl
theorem upd_em_fb (s : State) (x : EmbSt) : ({ s with em := x } : State).fb = s.fb := rfl
theorem upd_em_kd (s : State) (x : EmbSt) : ({ s with em := x } : State).kd = s.kd := rfl
theorem upd_em_out (s : State) (x : EmbSt) : ({ s with em := x } : State).out = s.out := rfl
theorem upd_em_pending (s : State) (x : EmbSt) : ({ s with em := x } : State).pending = s.pending := rfl
theorem upd_em_free (s : State) (x : EmbSt) : ({ s with em := x } : State).free = s.free := rfl
theorem upd_sw_pg (s : State) (x : SwpSt) : ({ s with sw := x } : State).pg = s.pg := rfl
theorem upd_sw_mem (s : State) (x : SwpSt) : ({ s with sw := x } : State).mem = s.mem := rfl
theorem upd_sw_cx (s : State) (x : SwpSt) : ({ s with sw := x } : State).cx = s.cx := rfl
theorem upd_sw_sq (s : State) (x : SwpSt) : ({ s with sw := x } : State).sq = s.sq := rfl
theorem upd_sw_sp (s : State) (x : SwpSt) : ({ s with sw := x } : State).sp = s.sp := rfl
theorem upd_sw_ar (s : State) (x : SwpSt) : ({ s with sw := x } : State).ar = s.ar := rfl
theorem upd_sw_rw (s : State) (x : SwpSt) : ({ s with sw := x } : State).rw = s.rw := rfl
theorem upd_sw_ht (s : State) (x : SwpSt) : ({ s with sw := x } : State).ht = s.ht := rfl
theorem upd_sw_ca (s : State) (x : SwpSt) : ({ s with sw := x } : State).ca = s.ca := rfl
theorem upd_sw_em (s : State) (x : SwpSt) : ({ s with sw := x } : State).em = s.em := rfl
theorem upd_sw_tr (s : State) (x : SwpSt) : ({ s with sw := x } : State).tr = s.tr := rfl
theorem upd_sw_uc (s : State) (x : SwpSt) : ({ s with sw := x } : State).uc = s.uc := rfl
theorem upd_sw_fb (s : State) (x : SwpSt) : ({ s with sw := x } : State).fb = s.fb := rfl
theorem upd_sw_kd (s : State) (x : SwpSt) : ({ s with sw := x } : State).kd = s.kd := rfl
theorem upd_sw_out (s : State) (x : SwpSt) : ({ s with sw := x } : State).out = s.out := rfl
theorem upd_sw_pending (s : State) (x : SwpSt) : ({ s with sw := x } : State).pending = s.pending := rfl
theorem upd_sw_free (s : State) (x : SwpSt) : ({ s with sw := x } : State).free = s.free := rfl
theorem upd_tr_pg (s : State) (x : TierSt) : ({ s with tr := x } : State).pg = s.pg := rfl
theorem upd_tr_mem (s : State) (x : TierSt) : ({ s with tr := x } : State).mem = s.mem := rfl
theorem upd_tr_cx (s : State) (x : TierSt) : ({ s with tr := x } : State).cx = s.cx := rfl
theorem upd_tr_sq (s : State) (x : TierSt) : ({ s with tr := x } : State).sq = s.sq := rfl
theorem upd_tr_sp (s : State) (x : TierSt) : ({ s with tr := x } : State).sp = s.sp := rfl
theorem upd_tr_ar (s : State) (x : TierSt) : ({ s with tr := x } : State).ar = s.ar := rfl
theorem upd_tr_rw (s : State) (x : TierSt) : ({ s with tr := x } : State).rw = s.rw := rfl
theorem upd_tr_ht (s : State) (x : TierSt) : ({ s with tr := x } : State).ht = s.ht := rfl
theorem upd_tr_ca (s : State) (x : TierSt) : ({ s with tr := x } : State).ca = s.ca := rfl
theorem upd_tr_em (s : State) (x : TierSt) : ({ s with tr := x } : State).em = s.em := rfl
theorem upd_tr_sw (s : State) (x : TierSt) : ({ s with tr := x } : State).sw = s.sw := rfl
theorem upd_tr_uc (s : State) (x : TierSt) : ({ s with tr := x } : State).uc = s.uc := rfl
theorem upd_tr_fb (s : State) (x : TierSt) : ({ s with tr := x } : State).fb = s.fb := rfl
theorem upd_tr_kd (s : State) (x : TierSt) : ({ s with tr := x } : State).kd = s.kd := rfl
theorem upd_tr_out (s : State) (x : TierSt) : ({ s with tr := x } : State).out = s.out := rfl
theorem upd_tr_pending (s : State) (x : TierSt) : ({ s with tr := x } : State).pending = s.pending := rfl
theorem upd_tr_free (s : State) (x : TierSt) : ({ s with tr := x } : State).free = s.free := rfl
theorem upd_uc_pg (s : State) (x : UciSt) : ({ s with uc := x } : State).pg = s.pg := rfl
theorem upd_uc_mem (s : State) (x : UciSt) : ({ s with uc := x } : State).mem = s.mem := rfl
theorem upd_uc_cx (s : State) (x : UciSt) : ({ s with uc := x } : State).cx = s.cx := rfl
theorem upd_uc_sq (s : State) (x : UciSt) : ({ s with uc := x } : State).sq = s.sq := rfl
theorem upd_uc_sp (s : State) (x : UciSt) : ({ s with uc := x } : State).sp = s.sp := rfl
theorem upd_uc_ar (s : State) (x : UciSt) : ({ s with uc := x } : State).ar = s.ar := rfl
theorem upd_uc_rw (s : State) (x : UciSt) : ({ s with uc := x } : State).rw = s.rw := rfl
theorem upd_uc_ht (s : State) (x : UciSt) : ({ s with uc := x } : State).ht = s.ht := rfl
theorem upd_uc_ca (s : State) (x : UciSt) : ({ s with uc := x } : State).ca = s.ca := rfl
theorem upd_uc_em (s : State) (x : UciSt) : ({ s with uc := x } : State).em = s.em := rfl
theorem upd_uc_sw (s : State) (x : UciSt) : ({ s with uc := x } : State).sw = s.sw := rfl
theorem upd_uc_tr (s : State) (x : UciSt) : ({ s with uc := x } : State).tr = s.tr := rfl
theorem upd_uc_fb (s : State) (x : UciSt) : ({ s with uc := x } : State).fb = s.fb := rfl
theorem upd_uc_kd (s : State) (x : UciSt) : ({ s with uc := x } : State).kd = s.kd := rfl
theorem upd_uc_out (s : State) (x : UciSt) : ({ s with uc := x } : State).out = s.out := rfl
theorem upd_uc_pending (s : State) (x : UciSt) : ({ s with uc := x } : State).pending = s.pending := rfl
theorem upd_uc_free (s : State) (x : UciSt) : ({ s with uc := x } : State).free = s.free := rfl
theorem upd_fb_pg (s : State) (x : FabSt) : ({ s with fb := x } : State).pg = s.pg := rfl
theorem upd_fb_mem (s : State) (x : FabSt) : ({ s with fb := x } : State).mem = s.mem := rfl
theorem upd_fb_cx (s : State) (x : FabSt) : ({ s with fb := x } : State).cx = s.cx := rfl
theorem upd_fb_sq (s : State) (x : FabSt) : ({ s with fb := x } : State).sq = s.sq := rfl
theorem upd_fb_sp (s : State) (x : FabSt) : ({ s with fb := x } : State).sp = s.sp := rfl
theorem upd_fb_ar (s : State) (x : FabSt) : ({ s with fb := x } : State).ar = s.ar := rfl
theorem upd_fb_rw (s : State) (x : FabSt) : ({ s with fb := x } : State).rw = s.rw := rfl
theorem upd_fb_ht (s : State) (x : FabSt) : ({ s with fb := x } : State).ht = s.ht := rfl
theorem upd_fb_ca (s : State) (x : FabSt) : ({ s with fb := x } : State).ca = s.ca := rfl
theorem upd_fb_em (s : State) (x : FabSt) : ({ s with fb := x } : State).em = s.em := rfl
theorem upd_fb_sw (s : State) (x : FabSt) : ({ s with fb := x } : State).sw = s.sw := rfl
theorem upd_fb_tr (s : State) (x : FabSt) : ({ s with fb := x } : State).tr = s.tr := rfl
theorem upd_fb_uc (s : State) (x : FabSt) : ({ s with fb := x } : State).uc = s.uc := rfl
theorem upd_fb_kd (s : State) (x : FabSt) : ({ s with fb := x } : State).kd = s.kd := rfl
theorem upd_fb_out (s : State) (x : FabSt) : ({ s with fb := x } : State).out = s.out := rfl
theorem upd_fb_pending (s : State) (x : FabSt) : ({ s with fb := x } : State).pending = s.pending := rfl
theorem upd_fb_free (s : State) (x : FabSt) : ({ s with fb := x } : State).free = s.free := rfl
theorem upd_kd_pg (s : State) (x : KdlSt) : ({ s with kd := x } : State).pg = s.pg := rfl
theorem upd_kd_mem (s : State) (x : KdlSt) : ({ s with kd := x } : State).mem = s.mem := rfl
theorem upd_kd_cx (s : State) (x : KdlSt) : ({ s with kd := x } : State).cx = s.cx := rfl
theorem upd_kd_sq (s : State) (x : KdlSt) : ({ s with kd := x } : State).sq = s.sq := rfl
theorem upd_kd_sp (s : State) (x : KdlSt) : ({ s with kd := x } : State).sp = s.sp := rfl
theorem upd_kd_ar (s : State) (x : KdlSt) : ({ s with kd := x } : State).ar = s.ar := rfl
theorem upd_kd_rw (s : State) (x : KdlSt) : ({ s with kd := x } : State).rw = s.rw := rfl
theorem upd_kd_ht (s : State) (x : KdlSt) : ({ s with kd := x } : State).ht = s.ht := rfl
theorem upd_kd_ca (s : State) (x : KdlSt) : ({ s with kd := x } : State).ca = s.ca := rfl
theorem upd_kd_em (s : State) (x : KdlSt) : ({ s with kd := x } : State).em = s.em := rfl
theorem upd_kd_sw (s : State) (x : KdlSt) : ({ s with kd := x } : State).sw = s.sw := rfl
theorem upd_kd_tr (s : State) (x : KdlSt) : ({ s with kd := x } : State).tr = s.tr := rfl
theorem upd_kd_uc (s : State) (x : KdlSt) : ({ s with kd := x } : State).uc = s.uc := rfl
theorem upd_kd_fb (s : State) (x : KdlSt) : ({ s with kd := x } : State).fb = s.fb := rfl
theorem upd_kd_out (s : State) (x : KdlSt) : ({ s with kd := x } : State).out = s.out := rfl
theorem upd_kd_pending (s : State) (x : KdlSt) : ({ s with kd := x } : State).pending = s.pending := rfl
theorem upd_kd_free (s : State) (x : KdlSt) : ({ s with kd := x } : State).free = s.free := rfl
theorem upd_out_pg (s : State) (x : List Out) : ({ s with out := x } : State).pg = s.pg := rfl
theorem upd_out_mem (s : State) (x : List Out) : ({ s with out := x } : State).mem = s.mem := rfl
theorem upd_out_cx (s : State) (x : List Out) : ({ s with out := x } : State).cx = s.cx := rfl
theorem upd_out_sq (s : State) (x : List Out) : ({ s with out := x } : State).sq = s.sq := rfl
theorem upd_out_sp (s : State) (x : List Out) : ({ s with out := x } : State).sp = s.sp := rfl
theorem upd_out_ar (s : State) (x : List Out) : ({ s with out := x } : State).ar = s.ar := rfl
theorem upd_out_rw (s : State) (x : List Out) : ({ s with out := x } : State).rw = s.rw := rfl
theorem upd_out_ht (s : State) (x : List Out) : ({ s with out := x } : State).ht = s.ht := rfl
theorem upd_out_ca (s : State) (x : List Out) : ({ s with out := x } : State).ca = s.ca := rfl
theorem upd_out_em (s : State) (x : List Out) : ({ s with out := x } : State).em = s.em := rfl
theorem upd_out_sw (s : State) (x : List Out) : ({ s with out := x } : State).sw = s.sw := rfl
theorem upd_out_tr (s : State) (x : List Out) : ({ s with out := x } : State).tr = s.tr := rfl
theorem upd_out_uc (s : State) (x : List Out) : ({ s with out := x } : State).uc = s.uc := rfl
theorem upd_out_fb (s : State) (x : List Out) : ({ s with out := x } : State).fb = s.fb := rfl
theorem upd_out_kd (s : State) (x : List Out) : ({ s with out := x } : State).kd = s.kd := rfl
theorem upd_out_pending (s : State) (x : List Out) : ({ s with out := x } : State).pending = s.pending := rfl
theorem upd_out_free (s : State) (x : List Out) : ({ s with out := x } : State).free = s.free := rfl
theorem upd_pending_pg (s : State) (x : List Instr) : ({ s with pending := x } : State).pg = s.pg := rfl
theorem upd_pending_mem (s : State) (x : List Instr) : ({ s with pending := x } : State).mem = s.mem := rfl
theorem upd_pending_cx (s : State) (x : List Instr) : ({ s with pending := x } : State).cx = s.cx := rfl
theorem upd_pending_sq (s : State) (x : List Instr) : ({ s with pending := x } : State).sq = s.sq := rfl
theorem upd_pending_sp (s : State) (x : List Instr) : ({ s with pending := x } : State).sp = s.sp := rfl
theorem upd_pending_ar (s : State) (x : List Instr) : ({ s with pending := x } : State).ar = s.ar := rfl
theorem upd_pending_rw (s : State) (x : List Instr) : ({ s with pending := x } : State).rw = s.rw := rfl
theorem upd_pending_ht (s : State) (x : List Instr) : ({ s with pending := x } : State).ht = s.ht := rfl
theorem upd_pending_ca (s : State) (x : List Instr) : ({ s with pending := x } : State).ca = s.ca := rfl
theorem upd_pending_em (s : State) (x : List Instr) : ({ s with pending := x } : State).em = s.em := rfl
theorem upd_pending_sw (s : State) (x : List Instr) : ({ s with pending := x } : State).sw = s.sw := rfl
theorem upd_pending_tr (s : State) (x : List Instr) : ({ s with pending := x } : State).tr = s.tr := rfl
theorem upd_pending_uc (s : State) (x : List Instr) : ({ s with pending := x } : State).uc = s.uc := rfl
theorem upd_pending_fb (s : State) (x : List Instr) : ({ s with pending := x } : State).fb = s.fb := rfl
theorem upd_pending_kd (s : State) (x : List Instr) : ({ s with pending := x } : State).kd = s.kd := rfl
theorem upd_pending_out (s : State) (x : List Instr) : ({ s with pending := x } : State).out = s.out := rfl
theorem upd_pending_free (s : State) (x : List Instr) : ({ s with pending := x } : State).free = s.free := rfl
theorem upd_free_pg (s : State) (x : Nat) : ({ s with free := x } : State).pg = s.pg := rfl
theorem upd_free_mem (s : State) (x : Nat) : ({ s with free := x } : State).mem = s.mem := rfl
theorem upd_free_cx (s : State) (x : Nat) : ({ s with free := x } : State).cx = s.cx := rfl
theorem upd_free_sq (s : State) (x : Nat) : ({ s with free := x } : State).sq = s.sq := rfl
theorem upd_free_sp (s : State) (x : Nat) : ({ s with free := x } : State).sp = s.sp := rfl
theorem upd_free_ar (s : State) (x : Nat) : ({ s with free := x } : State).ar = s.ar := rfl
theorem upd_free_rw (s : State) (x : Nat) : ({ s with free := x } : State).rw = s.rw := rfl
theorem upd_free_ht (s : State) (x : Nat) : ({ s with free := x } : State).ht = s.ht := rfl
theorem upd_free_ca (s : State) (x : Nat) : ({ s with free := x } : State).ca = s.ca := rfl
theorem upd_free_em (s : State) (x : Nat) : ({ s with free := x } : State).em = s.em := rfl
theorem upd_free_sw (s : State) (x : Nat) : ({ s with free := x } : State).sw = s.sw := rfl
theorem upd_free_tr (s : State) (x : Nat) : ({ s with free := x } : State).tr = s.tr := rfl
theorem upd_free_uc (s : State) (x : Nat) : ({ s with free := x } : State).uc = s.uc := rfl
theorem upd_free_fb (s : State) (x : Nat) : ({ s with free := x } : State).fb = s.fb := rfl
theorem upd_free_kd (s : State) (x : Nat) : ({ s with free := x } : State).kd = s.kd := rfl
theorem upd_free_out (s : State) (x : Nat) : ({ s with free := x } : State).out = s.out := rfl
theorem upd_free_pending (s : State) (x : Nat) : ({ s with free := x } : State).pending = s.pending := rfl
@[simp] theorem State.setCtx_pg (s : State) (c : Nat) (v : Ctx) : (s.setCtx c v).pg = s.pg := upd_cx_pg s _
@[simp] theorem State.setCtx_mem (s : State) (c : Nat) (v : Ctx) : (s.setCtx c v).mem = s.mem := upd_cx_mem s _
@[simp] theorem State.setCtx_sq (s : State) (c : Nat) (v : Ctx) : (s.setCtx c v).sq = s.sq := upd_cx_sq s _
@[simp] theorem State.setCtx_sp (s : State) (c : Nat) (v : Ctx) : (s.setCtx c v).sp = s.sp := upd_cx_sp s _
@[simp] theorem State.setCtx_ar (s : State) (c : Nat) (v : Ctx) : (s.setCtx c v).ar = s.ar := upd_cx_ar s _
@[simp] theorem State.setCtx_rw (s : State) (c : Nat) (v : Ctx) : (s.setCtx c v).rw = s.rw := upd_cx_rw s _
@[simp] theorem State.setCtx_ht (s : State) (c : Nat) (v : Ctx) : (s.setCtx c v).ht = s.ht := upd_cx_ht s _
@[simp] theorem State.setCtx_ca (s : State) (c : Nat) (v : Ctx) : (s.setCtx c v).ca = s.ca := upd_cx_ca s _
@[simp] theorem State.setCtx_em (s : State) (c : Nat) (v : Ctx) : (s.setCtx c v).em = s.em := upd_cx_em s _
@[simp] theorem State.setCtx_sw (s : State) (c : Nat) (v : Ctx) : (s.setCtx c v).sw = s.sw := upd_cx_sw s _
@[simp] theorem State.setCtx_tr (s : State) (c : Nat) (v : Ctx) : (s.setCtx c v).tr = s.tr := upd_cx_tr s _
@[simp] theorem State.setCtx_uc (s : State) (c : Nat) (v : Ctx) : (s.setCtx c v).uc = s.uc := upd_cx_uc s _
@[simp] theorem State.setCtx_fb (s : State) (c : Nat) (v : Ctx) : (s.setCtx c v).fb = s.fb := upd_cx_fb s _
@[simp] theorem State.setCtx_kd (s : State) (c : Nat) (v : Ctx) : (s.setCtx c v).kd = s.kd := upd_cx_kd s _
@[simp] theorem State.setCtx_out (s : State) (c : Nat) (v : Ctx) : (s.setCtx c v).out = s.out := upd_cx_out s _
@[simp] theorem State.setCtx_pending (s : State) (c : Nat) (v : Ctx) : (s.setCtx c v).pending = s.pending := upd_cx_pending s _
@[simp] theorem State.setCtx_free (s : State) (c : Nat) (v : Ctx) : (s.setCtx c v).free = s.free := upd_cx_free s _
@[simp] theorem State.setStk_pg (s : State) (a : Nat) (v : Stoker) : (s.setStk a v).pg = s.pg := upd_cx_pg s _
@[simp] theorem State.setStk_mem (s : State) (a : Nat) (v : Stoker) : (s.setStk a v).mem = s.mem := upd_cx_mem s _
@[simp] theorem State.setStk_sq (s : State) (a : Nat) (v : Stoker) : (s.setStk a v).sq = s.sq := upd_cx_sq s _
@[simp] theorem State.setStk_sp (s : State) (a : Nat) (v : Stoker) : (s.setStk a v).sp = s.sp := upd_cx_sp s _
@[simp] theorem State.setStk_ar (s : State) (a : Nat) (v : Stoker) : (s.setStk a v).ar = s.ar := upd_cx_ar s _
@[simp] theorem State.setStk_rw (s : State) (a : Nat) (v : Stoker) : (s.setStk a v).rw = s.rw := upd_cx_rw s _
@[simp] theorem State.setStk_ht (s : State) (a : Nat) (v : Stoker) : (s.setStk a v).ht = s.ht := upd_cx_ht s _
@[simp] theorem State.setStk_ca (s : State) (a : Nat) (v : Stoker) : (s.setStk a v).ca = s.ca := upd_cx_ca s _
@[simp] theorem State.setStk_em (s : State) (a : Nat) (v : Stoker) : (s.setStk a v).em = s.em := upd_cx_em s _
@[simp] theorem State.setStk_sw (s : State) (a : Nat) (v : Stoker) : (s.setStk a v).sw = s.sw := upd_cx_sw s _
@[simp] theorem State.setStk_tr (s : State) (a : Nat) (v : Stoker) : (s.setStk a v).tr = s.tr := upd_cx_tr s _
@[simp] theorem State.setStk_uc (s : State) (a : Nat) (v : Stoker) : (s.setStk a v).uc = s.uc := upd_cx_uc s _
@[simp] theorem State.setStk_fb (s : State) (a : Nat) (v : Stoker) : (s.setStk a v).fb = s.fb := upd_cx_fb s _
@[simp] theorem State.setStk_kd (s : State) (a : Nat) (v : Stoker) : (s.setStk a v).kd = s.kd := upd_cx_kd s _
@[simp] theorem State.setStk_out (s : State) (a : Nat) (v : Stoker) : (s.setStk a v).out = s.out := upd_cx_out s _
@[simp] theorem State.setStk_pending (s : State) (a : Nat) (v : Stoker) : (s.setStk a v).pending = s.pending := upd_cx_pending s _
@[simp] theorem State.setStk_free (s : State) (a : Nat) (v : Stoker) : (s.setStk a v).free = s.free := upd_cx_free s _
@[simp] theorem State.setSeq_pg (s : State) (a b : Nat) (v : Seq) : (s.setSeq a b v).pg = s.pg := upd_sq_pg s _
@[simp] theorem State.setSeq_mem (s : State) (a b : Nat) (v : Seq) : (s.setSeq a b v).mem = s.mem := upd_sq_mem s _
@[simp] theorem State.setSeq_cx (s : State) (a b : Nat) (v : Seq) : (s.setSeq a b v).cx = s.cx := upd_sq_cx s _
@[simp] theorem State.setSeq_sp (s : State) (a b : Nat) (v : Seq) : (s.setSeq a b v).sp = s.sp := upd_sq_sp s _
@[simp] theorem State.setSeq_ar (s : State) (a b : Nat) (v : Seq) : (s.setSeq a b v).ar = s.ar := upd_sq_ar s _
@[simp] theorem State.setSeq_rw (s : State) (a b : Nat) (v : Seq) : (s.setSeq a b v).rw = s.rw := upd_sq_rw s _
@[simp] theorem State.setSeq_ht (s : State) (a b : Nat) (v : Seq) : (s.setSeq a b v).ht = s.ht := upd_sq_ht s _
@[simp] theorem State.setSeq_ca (s : State) (a b : Nat) (v : Seq) : (s.setSeq a b v).ca = s.ca := upd_sq_ca s _
@[simp] theorem State.setSeq_em (s : State) (a b : Nat) (v : Seq) : (s.setSeq a b v).em = s.em := upd_sq_em s _
@[simp] theorem State.setSeq_sw (s : State) (a b : Nat) (v : Seq) : (s.setSeq a b v).sw = s.sw := upd_sq_sw s _
@[simp] theorem State.setSeq_tr (s : State) (a b : Nat) (v : Seq) : (s.setSeq a b v).tr = s.tr := upd_sq_tr s _
@[simp] theorem State.setSeq_uc (s : State) (a b : Nat) (v : Seq) : (s.setSeq a b v).uc = s.uc := upd_sq_uc s _
@[simp] theorem State.setSeq_fb (s : State) (a b : Nat) (v : Seq) : (s.setSeq a b v).fb = s.fb := upd_sq_fb s _
@[simp] theorem State.setSeq_kd (s : State) (a b : Nat) (v : Seq) : (s.setSeq a b v).kd = s.kd := upd_sq_kd s _
@[simp] theorem State.setSeq_out (s : State) (a b : Nat) (v : Seq) : (s.setSeq a b v).out = s.out := upd_sq_out s _
@[simp] theorem State.setSeq_pending (s : State) (a b : Nat) (v : Seq) : (s.setSeq a b v).pending = s.pending := upd_sq_pending s _
@[simp] theorem State.setSeq_free (s : State) (a b : Nat) (v : Seq) : (s.setSeq a b v).free = s.free := upd_sq_free s _
@[simp] theorem State.setSlot_pg (s : State) (a b : Nat) (v : PSlot) : (s.setSlot a b v).pg = s.pg := upd_sq_pg s _
@[simp] theorem State.setSlot_mem (s : State) (a b : Nat) (v : PSlot) : (s.setSlot a b v).mem = s.mem := upd_sq_mem s _
@[simp] theorem State.setSlot_cx (s : State) (a b : Nat) (v : PSlot) : (s.setSlot a b v).cx = s.cx := upd_sq_cx s _
@[simp] theorem State.setSlot_sp (s : State) (a b : Nat) (v : PSlot) : (s.setSlot a b v).sp = s.sp := upd_sq_sp s _
@[simp] theorem State.setSlot_ar (s : State) (a b : Nat) (v : PSlot) : (s.setSlot a b v).ar = s.ar := upd_sq_ar s _
@[simp] theorem State.setSlot_rw (s : State) (a b : Nat) (v : PSlot) : (s.setSlot a b v).rw = s.rw := upd_sq_rw s _
@[simp] theorem State.setSlot_ht (s : State) (a b : Nat) (v : PSlot) : (s.setSlot a b v).ht = s.ht := upd_sq_ht s _
@[simp] theorem State.setSlot_ca (s : State) (a b : Nat) (v : PSlot) : (s.setSlot a b v).ca = s.ca := upd_sq_ca s _
@[simp] theorem State.setSlot_em (s : State) (a b : Nat) (v : PSlot) : (s.setSlot a b v).em = s.em := upd_sq_em s _
@[simp] theorem State.setSlot_sw (s : State) (a b : Nat) (v : PSlot) : (s.setSlot a b v).sw = s.sw := upd_sq_sw s _
@[simp] theorem State.setSlot_tr (s : State) (a b : Nat) (v : PSlot) : (s.setSlot a b v).tr = s.tr := upd_sq_tr s _
@[simp] theorem State.setSlot_uc (s : State) (a b : Nat) (v : PSlot) : (s.setSlot a b v).uc = s.uc := upd_sq_uc s _
@[simp] theorem State.setSlot_fb (s : State) (a b : Nat) (v : PSlot) : (s.setSlot a b v).fb = s.fb := upd_sq_fb s _
@[simp] theorem State.setSlot_kd (s : State) (a b : Nat) (v : PSlot) : (s.setSlot a b v).kd = s.kd := upd_sq_kd s _
@[simp] theorem State.setSlot_out (s : State) (a b : Nat) (v : PSlot) : (s.setSlot a b v).out = s.out := upd_sq_out s _
@[simp] theorem State.setSlot_pending (s : State) (a b : Nat) (v : PSlot) : (s.setSlot a b v).pending = s.pending := upd_sq_pending s _
@[simp] theorem State.setSlot_free (s : State) (a b : Nat) (v : PSlot) : (s.setSlot a b v).free = s.free := upd_sq_free s _
@[simp] theorem State.setGate_pg (s : State) (a : Nat) (v : Gate) : (s.setGate a v).pg = s.pg := upd_sq_pg s _
@[simp] theorem State.setGate_mem (s : State) (a : Nat) (v : Gate) : (s.setGate a v).mem = s.mem := upd_sq_mem s _
@[simp] theorem State.setGate_cx (s : State) (a : Nat) (v : Gate) : (s.setGate a v).cx = s.cx := upd_sq_cx s _
@[simp] theorem State.setGate_sp (s : State) (a : Nat) (v : Gate) : (s.setGate a v).sp = s.sp := upd_sq_sp s _
@[simp] theorem State.setGate_ar (s : State) (a : Nat) (v : Gate) : (s.setGate a v).ar = s.ar := upd_sq_ar s _
@[simp] theorem State.setGate_rw (s : State) (a : Nat) (v : Gate) : (s.setGate a v).rw = s.rw := upd_sq_rw s _
@[simp] theorem State.setGate_ht (s : State) (a : Nat) (v : Gate) : (s.setGate a v).ht = s.ht := upd_sq_ht s _
@[simp] theorem State.setGate_ca (s : State) (a : Nat) (v : Gate) : (s.setGate a v).ca = s.ca := upd_sq_ca s _
@[simp] theorem State.setGate_em (s : State) (a : Nat) (v : Gate) : (s.setGate a v).em = s.em := upd_sq_em s _
@[simp] theorem State.setGate_sw (s : State) (a : Nat) (v : Gate) : (s.setGate a v).sw = s.sw := upd_sq_sw s _
@[simp] theorem State.setGate_tr (s : State) (a : Nat) (v : Gate) : (s.setGate a v).tr = s.tr := upd_sq_tr s _
@[simp] theorem State.setGate_uc (s : State) (a : Nat) (v : Gate) : (s.setGate a v).uc = s.uc := upd_sq_uc s _
@[simp] theorem State.setGate_fb (s : State) (a : Nat) (v : Gate) : (s.setGate a v).fb = s.fb := upd_sq_fb s _
@[simp] theorem State.setGate_kd (s : State) (a : Nat) (v : Gate) : (s.setGate a v).kd = s.kd := upd_sq_kd s _
@[simp] theorem State.setGate_out (s : State) (a : Nat) (v : Gate) : (s.setGate a v).out = s.out := upd_sq_out s _
@[simp] theorem State.setGate_pending (s : State) (a : Nat) (v : Gate) : (s.setGate a v).pending = s.pending := upd_sq_pending s _
@[simp] theorem State.setGate_free (s : State) (a : Nat) (v : Gate) : (s.setGate a v).free = s.free := upd_sq_free s _
@[simp] theorem State.setFlights_pg (s : State) (l : List Flight) : (s.setFlights l).pg = s.pg := upd_sq_pg s _
@[simp] theorem State.setFlights_mem (s : State) (l : List Flight) : (s.setFlights l).mem = s.mem := upd_sq_mem s _
@[simp] theorem State.setFlights_cx (s : State) (l : List Flight) : (s.setFlights l).cx = s.cx := upd_sq_cx s _
@[simp] theorem State.setFlights_sp (s : State) (l : List Flight) : (s.setFlights l).sp = s.sp := upd_sq_sp s _
@[simp] theorem State.setFlights_ar (s : State) (l : List Flight) : (s.setFlights l).ar = s.ar := upd_sq_ar s _
@[simp] theorem State.setFlights_rw (s : State) (l : List Flight) : (s.setFlights l).rw = s.rw := upd_sq_rw s _
@[simp] theorem State.setFlights_ht (s : State) (l : List Flight) : (s.setFlights l).ht = s.ht := upd_sq_ht s _
@[simp] theorem State.setFlights_ca (s : State) (l : List Flight) : (s.setFlights l).ca = s.ca := upd_sq_ca s _
@[simp] theorem State.setFlights_em (s : State) (l : List Flight) : (s.setFlights l).em = s.em := upd_sq_em s _
@[simp] theorem State.setFlights_sw (s : State) (l : List Flight) : (s.setFlights l).sw = s.sw := upd_sq_sw s _
@[simp] theorem State.setFlights_tr (s : State) (l : List Flight) : (s.setFlights l).tr = s.tr := upd_sq_tr s _
@[simp] theorem State.setFlights_uc (s : State) (l : List Flight) : (s.setFlights l).uc = s.uc := upd_sq_uc s _
@[simp] theorem State.setFlights_fb (s : State) (l : List Flight) : (s.setFlights l).fb = s.fb := upd_sq_fb s _
@[simp] theorem State.setFlights_kd (s : State) (l : List Flight) : (s.setFlights l).kd = s.kd := upd_sq_kd s _
@[simp] theorem State.setFlights_out (s : State) (l : List Flight) : (s.setFlights l).out = s.out := upd_sq_out s _
@[simp] theorem State.setFlights_pending (s : State) (l : List Flight) : (s.setFlights l).pending = s.pending := upd_sq_pending s _
@[simp] theorem State.setFlights_free (s : State) (l : List Flight) : (s.setFlights l).free = s.free := upd_sq_free s _
@[simp] theorem State.setLift_pg (s : State) (a b : Nat) (v : Lift) : (s.setLift a b v).pg = s.pg := upd_sp_pg s _
@[simp] theorem State.setLift_mem (s : State) (a b : Nat) (v : Lift) : (s.setLift a b v).mem = s.mem := upd_sp_mem s _
@[simp] theorem State.setLift_cx (s : State) (a b : Nat) (v : Lift) : (s.setLift a b v).cx = s.cx := upd_sp_cx s _
@[simp] theorem State.setLift_sq (s : State) (a b : Nat) (v : Lift) : (s.setLift a b v).sq = s.sq := upd_sp_sq s _
@[simp] theorem State.setLift_ar (s : State) (a b : Nat) (v : Lift) : (s.setLift a b v).ar = s.ar := upd_sp_ar s _
@[simp] theorem State.setLift_rw (s : State) (a b : Nat) (v : Lift) : (s.setLift a b v).rw = s.rw := upd_sp_rw s _
@[simp] theorem State.setLift_ht (s : State) (a b : Nat) (v : Lift) : (s.setLift a b v).ht = s.ht := upd_sp_ht s _
@[simp] theorem State.setLift_ca (s : State) (a b : Nat) (v : Lift) : (s.setLift a b v).ca = s.ca := upd_sp_ca s _
@[simp] theorem State.setLift_em (s : State) (a b : Nat) (v : Lift) : (s.setLift a b v).em = s.em := upd_sp_em s _
@[simp] theorem State.setLift_sw (s : State) (a b : Nat) (v : Lift) : (s.setLift a b v).sw = s.sw := upd_sp_sw s _
@[simp] theorem State.setLift_tr (s : State) (a b : Nat) (v : Lift) : (s.setLift a b v).tr = s.tr := upd_sp_tr s _
@[simp] theorem State.setLift_uc (s : State) (a b : Nat) (v : Lift) : (s.setLift a b v).uc = s.uc := upd_sp_uc s _
@[simp] theorem State.setLift_fb (s : State) (a b : Nat) (v : Lift) : (s.setLift a b v).fb = s.fb := upd_sp_fb s _
@[simp] theorem State.setLift_kd (s : State) (a b : Nat) (v : Lift) : (s.setLift a b v).kd = s.kd := upd_sp_kd s _
@[simp] theorem State.setLift_out (s : State) (a b : Nat) (v : Lift) : (s.setLift a b v).out = s.out := upd_sp_out s _
@[simp] theorem State.setLift_pending (s : State) (a b : Nat) (v : Lift) : (s.setLift a b v).pending = s.pending := upd_sp_pending s _
@[simp] theorem State.setLift_free (s : State) (a b : Nat) (v : Lift) : (s.setLift a b v).free = s.free := upd_sp_free s _
@[simp] theorem State.setArr_pg (s : State) (a b : Nat) (v : Arr) : (s.setArr a b v).pg = s.pg := upd_ar_pg s _
@[simp] theorem State.setArr_mem (s : State) (a b : Nat) (v : Arr) : (s.setArr a b v).mem = s.mem := upd_ar_mem s _
@[simp] theorem State.setArr_cx (s : State) (a b : Nat) (v : Arr) : (s.setArr a b v).cx = s.cx := upd_ar_cx s _
@[simp] theorem State.setArr_sq (s : State) (a b : Nat) (v : Arr) : (s.setArr a b v).sq = s.sq := upd_ar_sq s _
@[simp] theorem State.setArr_sp (s : State) (a b : Nat) (v : Arr) : (s.setArr a b v).sp = s.sp := upd_ar_sp s _
@[simp] theorem State.setArr_rw (s : State) (a b : Nat) (v : Arr) : (s.setArr a b v).rw = s.rw := upd_ar_rw s _
@[simp] theorem State.setArr_ht (s : State) (a b : Nat) (v : Arr) : (s.setArr a b v).ht = s.ht := upd_ar_ht s _
@[simp] theorem State.setArr_ca (s : State) (a b : Nat) (v : Arr) : (s.setArr a b v).ca = s.ca := upd_ar_ca s _
@[simp] theorem State.setArr_em (s : State) (a b : Nat) (v : Arr) : (s.setArr a b v).em = s.em := upd_ar_em s _
@[simp] theorem State.setArr_sw (s : State) (a b : Nat) (v : Arr) : (s.setArr a b v).sw = s.sw := upd_ar_sw s _
@[simp] theorem State.setArr_tr (s : State) (a b : Nat) (v : Arr) : (s.setArr a b v).tr = s.tr := upd_ar_tr s _
@[simp] theorem State.setArr_uc (s : State) (a b : Nat) (v : Arr) : (s.setArr a b v).uc = s.uc := upd_ar_uc s _
@[simp] theorem State.setArr_fb (s : State) (a b : Nat) (v : Arr) : (s.setArr a b v).fb = s.fb := upd_ar_fb s _
@[simp] theorem State.setArr_kd (s : State) (a b : Nat) (v : Arr) : (s.setArr a b v).kd = s.kd := upd_ar_kd s _
@[simp] theorem State.setArr_out (s : State) (a b : Nat) (v : Arr) : (s.setArr a b v).out = s.out := upd_ar_out s _
@[simp] theorem State.setArr_pending (s : State) (a b : Nat) (v : Arr) : (s.setArr a b v).pending = s.pending := upd_ar_pending s _
@[simp] theorem State.setArr_free (s : State) (a b : Nat) (v : Arr) : (s.setArr a b v).free = s.free := upd_ar_free s _
@[simp] theorem State.setHandle_pg (s : State) (a b : Nat) (v : Handle) : (s.setHandle a b v).pg = s.pg := upd_rw_pg s _
@[simp] theorem State.setHandle_mem (s : State) (a b : Nat) (v : Handle) : (s.setHandle a b v).mem = s.mem := upd_rw_mem s _
@[simp] theorem State.setHandle_cx (s : State) (a b : Nat) (v : Handle) : (s.setHandle a b v).cx = s.cx := upd_rw_cx s _
@[simp] theorem State.setHandle_sq (s : State) (a b : Nat) (v : Handle) : (s.setHandle a b v).sq = s.sq := upd_rw_sq s _
@[simp] theorem State.setHandle_sp (s : State) (a b : Nat) (v : Handle) : (s.setHandle a b v).sp = s.sp := upd_rw_sp s _
@[simp] theorem State.setHandle_ar (s : State) (a b : Nat) (v : Handle) : (s.setHandle a b v).ar = s.ar := upd_rw_ar s _
@[simp] theorem State.setHandle_ht (s : State) (a b : Nat) (v : Handle) : (s.setHandle a b v).ht = s.ht := upd_rw_ht s _
@[simp] theorem State.setHandle_ca (s : State) (a b : Nat) (v : Handle) : (s.setHandle a b v).ca = s.ca := upd_rw_ca s _
@[simp] theorem State.setHandle_em (s : State) (a b : Nat) (v : Handle) : (s.setHandle a b v).em = s.em := upd_rw_em s _
@[simp] theorem State.setHandle_sw (s : State) (a b : Nat) (v : Handle) : (s.setHandle a b v).sw = s.sw := upd_rw_sw s _
@[simp] theorem State.setHandle_tr (s : State) (a b : Nat) (v : Handle) : (s.setHandle a b v).tr = s.tr := upd_rw_tr s _
@[simp] theorem State.setHandle_uc (s : State) (a b : Nat) (v : Handle) : (s.setHandle a b v).uc = s.uc := upd_rw_uc s _
@[simp] theorem State.setHandle_fb (s : State) (a b : Nat) (v : Handle) : (s.setHandle a b v).fb = s.fb := upd_rw_fb s _
@[simp] theorem State.setHandle_kd (s : State) (a b : Nat) (v : Handle) : (s.setHandle a b v).kd = s.kd := upd_rw_kd s _
@[simp] theorem State.setHandle_out (s : State) (a b : Nat) (v : Handle) : (s.setHandle a b v).out = s.out := upd_rw_out s _
@[simp] theorem State.setHandle_pending (s : State) (a b : Nat) (v : Handle) : (s.setHandle a b v).pending = s.pending := upd_rw_pending s _
@[simp] theorem State.setHandle_free (s : State) (a b : Nat) (v : Handle) : (s.setHandle a b v).free = s.free := upd_rw_free s _
@[simp] theorem State.setRb_pg (s : State) (a : Nat) (v : Rb) : (s.setRb a v).pg = s.pg := upd_ht_pg s _
@[simp] theorem State.setRb_mem (s : State) (a : Nat) (v : Rb) : (s.setRb a v).mem = s.mem := upd_ht_mem s _
@[simp] theorem State.setRb_cx (s : State) (a : Nat) (v : Rb) : (s.setRb a v).cx = s.cx := upd_ht_cx s _
@[simp] theorem State.setRb_sq (s : State) (a : Nat) (v : Rb) : (s.setRb a v).sq = s.sq := upd_ht_sq s _
@[simp] theorem State.setRb_sp (s : State) (a : Nat) (v : Rb) : (s.setRb a v).sp = s.sp := upd_ht_sp s _
@[simp] theorem State.setRb_ar (s : State) (a : Nat) (v : Rb) : (s.setRb a v).ar = s.ar := upd_ht_ar s _
@[simp] theorem State.setRb_rw (s : State) (a : Nat) (v : Rb) : (s.setRb a v).rw = s.rw := upd_ht_rw s _
@[simp] theorem State.setRb_ca (s : State) (a : Nat) (v : Rb) : (s.setRb a v).ca = s.ca := upd_ht_ca s _
@[simp] theorem State.setRb_em (s : State) (a : Nat) (v : Rb) : (s.setRb a v).em = s.em := upd_ht_em s _
@[simp] theorem State.setRb_sw (s : State) (a : Nat) (v : Rb) : (s.setRb a v).sw = s.sw := upd_ht_sw s _
@[simp] theorem State.setRb_tr (s : State) (a : Nat) (v : Rb) : (s.setRb a v).tr = s.tr := upd_ht_tr s _
@[simp] theorem State.setRb_uc (s : State) (a : Nat) (v : Rb) : (s.setRb a v).uc = s.uc := upd_ht_uc s _
@[simp] theorem State.setRb_fb (s : State) (a : Nat) (v : Rb) : (s.setRb a v).fb = s.fb := upd_ht_fb s _
@[simp] theorem State.setRb_kd (s : State) (a : Nat) (v : Rb) : (s.setRb a v).kd = s.kd := upd_ht_kd s _
@[simp] theorem State.setRb_out (s : State) (a : Nat) (v : Rb) : (s.setRb a v).out = s.out := upd_ht_out s _
@[simp] theorem State.setRb_pending (s : State) (a : Nat) (v : Rb) : (s.setRb a v).pending = s.pending := upd_ht_pending s _
@[simp] theorem State.setRb_free (s : State) (a : Nat) (v : Rb) : (s.setRb a v).free = s.free := upd_ht_free s _
@[simp] theorem State.setHop_pg (s : State) (a b : Nat) (v : Hop) : (s.setHop a b v).pg = s.pg := upd_em_pg s _
@[simp] theorem State.setHop_mem (s : State) (a b : Nat) (v : Hop) : (s.setHop a b v).mem = s.mem := upd_em_mem s _
@[simp] theorem State.setHop_cx (s : State) (a b : Nat) (v : Hop) : (s.setHop a b v).cx = s.cx := upd_em_cx s _
@[simp] theorem State.setHop_sq (s : State) (a b : Nat) (v : Hop) : (s.setHop a b v).sq = s.sq := upd_em_sq s _
@[simp] theorem State.setHop_sp (s : State) (a b : Nat) (v : Hop) : (s.setHop a b v).sp = s.sp := upd_em_sp s _
@[simp] theorem State.setHop_ar (s : State) (a b : Nat) (v : Hop) : (s.setHop a b v).ar = s.ar := upd_em_ar s _
@[simp] theorem State.setHop_rw (s : State) (a b : Nat) (v : Hop) : (s.setHop a b v).rw = s.rw := upd_em_rw s _
@[simp] theorem State.setHop_ht (s : State) (a b : Nat) (v : Hop) : (s.setHop a b v).ht = s.ht := upd_em_ht s _
@[simp] theorem State.setHop_ca (s : State) (a b : Nat) (v : Hop) : (s.setHop a b v).ca = s.ca := upd_em_ca s _
@[simp] theorem State.setHop_sw (s : State) (a b : Nat) (v : Hop) : (s.setHop a b v).sw = s.sw := upd_em_sw s _
@[simp] theorem State.setHop_tr (s : State) (a b : Nat) (v : Hop) : (s.setHop a b v).tr = s.tr := upd_em_tr s _
@[simp] theorem State.setHop_uc (s : State) (a b : Nat) (v : Hop) : (s.setHop a b v).uc = s.uc := upd_em_uc s _
@[simp] theorem State.setHop_fb (s : State) (a b : Nat) (v : Hop) : (s.setHop a b v).fb = s.fb := upd_em_fb s _
@[simp] theorem State.setHop_kd (s : State) (a b : Nat) (v : Hop) : (s.setHop a b v).kd = s.kd := upd_em_kd s _
@[simp] theorem State.setHop_out (s : State) (a b : Nat) (v : Hop) : (s.setHop a b v).out = s.out := upd_em_out s _
@[simp] theorem State.setHop_pending (s : State) (a b : Nat) (v : Hop) : (s.setHop a b v).pending = s.pending := upd_em_pending s _
@[simp] theorem State.setHop_free (s : State) (a b : Nat) (v : Hop) : (s.setHop a b v).free = s.free := upd_em_free s _
@[simp] theorem State.setEpoch_pg (s : State) (a b e : Nat) : (s.setEpoch a b e).pg = s.pg := upd_em_pg s _
@[simp] theorem State.setEpoch_mem (s : State) (a b e : Nat) : (s.setEpoch a b e).mem = s.mem := upd_em_mem s _
@[simp] theorem State.setEpoch_cx (s : State) (a b e : Nat) : (s.setEpoch a b e).cx = s.cx := upd_em_cx s _
@[simp] theorem State.setEpoch_sq (s : State) (a b e : Nat) : (s.setEpoch a b e).sq = s.sq := upd_em_sq s _
@[simp] theorem State.setEpoch_sp (s : State) (a b e : Nat) : (s.setEpoch a b e).sp = s.sp := upd_em_sp s _
@[simp] theorem State.setEpoch_ar (s : State) (a b e : Nat) : (s.setEpoch a b e).ar = s.ar := upd_em_ar s _
@[simp] theorem State.setEpoch_rw (s : State) (a b e : Nat) : (s.setEpoch a b e).rw = s.rw := upd_em_rw s _
@[simp] theorem State.setEpoch_ht (s : State) (a b e : Nat) : (s.setEpoch a b e).ht = s.ht := upd_em_ht s _
@[simp] theorem State.setEpoch_ca (s : State) (a b e : Nat) : (s.setEpoch a b e).ca = s.ca := upd_em_ca s _
@[simp] theorem State.setEpoch_sw (s : State) (a b e : Nat) : (s.setEpoch a b e).sw = s.sw := upd_em_sw s _
@[simp] theorem State.setEpoch_tr (s : State) (a b e : Nat) : (s.setEpoch a b e).tr = s.tr := upd_em_tr s _
@[simp] theorem State.setEpoch_uc (s : State) (a b e : Nat) : (s.setEpoch a b e).uc = s.uc := upd_em_uc s _
@[simp] theorem State.setEpoch_fb (s : State) (a b e : Nat) : (s.setEpoch a b e).fb = s.fb := upd_em_fb s _
@[simp] theorem State.setEpoch_kd (s : State) (a b e : Nat) : (s.setEpoch a b e).kd = s.kd := upd_em_kd s _
@[simp] theorem State.setEpoch_out (s : State) (a b e : Nat) : (s.setEpoch a b e).out = s.out := upd_em_out s _
@[simp] theorem State.setEpoch_pending (s : State) (a b e : Nat) : (s.setEpoch a b e).pending = s.pending := upd_em_pending s _
@[simp] theorem State.setEpoch_free (s : State) (a b e : Nat) : (s.setEpoch a b e).free = s.free := upd_em_free s _
@[simp] theorem State.setJob_pg (s : State) (a : Nat) (v : Job) : (s.setJob a v).pg = s.pg := upd_sw_pg s _
@[simp] theorem State.setJob_mem (s : State) (a : Nat) (v : Job) : (s.setJob a v).mem = s.mem := upd_sw_mem s _
@[simp] theorem State.setJob_cx (s : State) (a : Nat) (v : Job) : (s.setJob a v).cx = s.cx := upd_sw_cx s _
@[simp] theorem State.setJob_sq (s : State) (a : Nat) (v : Job) : (s.setJob a v).sq = s.sq := upd_sw_sq s _
@[simp] theorem State.setJob_sp (s : State) (a : Nat) (v : Job) : (s.setJob a v).sp = s.sp := upd_sw_sp s _
@[simp] theorem State.setJob_ar (s : State) (a : Nat) (v : Job) : (s.setJob a v).ar = s.ar := upd_sw_ar s _
@[simp] theorem State.setJob_rw (s : State) (a : Nat) (v : Job) : (s.setJob a v).rw = s.rw := upd_sw_rw s _
@[simp] theorem State.setJob_ht (s : State) (a : Nat) (v : Job) : (s.setJob a v).ht = s.ht := upd_sw_ht s _
@[simp] theorem State.setJob_ca (s : State) (a : Nat) (v : Job) : (s.setJob a v).ca = s.ca := upd_sw_ca s _
@[simp] theorem State.setJob_em (s : State) (a : Nat) (v : Job) : (s.setJob a v).em = s.em := upd_sw_em s _
@[simp] theorem State.setJob_tr (s : State) (a : Nat) (v : Job) : (s.setJob a v).tr = s.tr := upd_sw_tr s _
@[simp] theorem State.setJob_uc (s : State) (a : Nat) (v : Job) : (s.setJob a v).uc = s.uc := upd_sw_uc s _
@[simp] theorem State.setJob_fb (s : State) (a : Nat) (v : Job) : (s.setJob a v).fb = s.fb := upd_sw_fb s _
@[simp] theorem State.setJob_kd (s : State) (a : Nat) (v : Job) : (s.setJob a v).kd = s.kd := upd_sw_kd s _
@[simp] theorem State.setJob_out (s : State) (a : Nat) (v : Job) : (s.setJob a v).out = s.out := upd_sw_out s _
@[simp] theorem State.setJob_pending (s : State) (a : Nat) (v : Job) : (s.setJob a v).pending = s.pending := upd_sw_pending s _
@[simp] theorem State.setJob_free (s : State) (a : Nat) (v : Job) : (s.setJob a v).free = s.free := upd_sw_free s _
@[simp] theorem State.setDamper_pg (s : State) (a b : Nat) (v : Damper) : (s.setDamper a b v).pg = s.pg := upd_sw_pg s _
@[simp] theorem State.setDamper_mem (s : State) (a b : Nat) (v : Damper) : (s.setDamper a b v).mem = s.mem := upd_sw_mem s _
@[simp] theorem State.setDamper_cx (s : State) (a b : Nat) (v : Damper) : (s.setDamper a b v).cx = s.cx := upd_sw_cx s _
@[simp] theorem State.setDamper_sq (s : State) (a b : Nat) (v : Damper) : (s.setDamper a b v).sq = s.sq := upd_sw_sq s _
@[simp] theorem State.setDamper_sp (s : State) (a b : Nat) (v : Damper) : (s.setDamper a b v).sp = s.sp := upd_sw_sp s _
@[simp] theorem State.setDamper_ar (s : State) (a b : Nat) (v : Damper) : (s.setDamper a b v).ar = s.ar := upd_sw_ar s _
@[simp] theorem State.setDamper_rw (s : State) (a b : Nat) (v : Damper) : (s.setDamper a b v).rw = s.rw := upd_sw_rw s _
@[simp] theorem State.setDamper_ht (s : State) (a b : Nat) (v : Damper) : (s.setDamper a b v).ht = s.ht := upd_sw_ht s _
@[simp] theorem State.setDamper_ca (s : State) (a b : Nat) (v : Damper) : (s.setDamper a b v).ca = s.ca := upd_sw_ca s _
@[simp] theorem State.setDamper_em (s : State) (a b : Nat) (v : Damper) : (s.setDamper a b v).em = s.em := upd_sw_em s _
@[simp] theorem State.setDamper_tr (s : State) (a b : Nat) (v : Damper) : (s.setDamper a b v).tr = s.tr := upd_sw_tr s _
@[simp] theorem State.setDamper_uc (s : State) (a b : Nat) (v : Damper) : (s.setDamper a b v).uc = s.uc := upd_sw_uc s _
@[simp] theorem State.setDamper_fb (s : State) (a b : Nat) (v : Damper) : (s.setDamper a b v).fb = s.fb := upd_sw_fb s _
@[simp] theorem State.setDamper_kd (s : State) (a b : Nat) (v : Damper) : (s.setDamper a b v).kd = s.kd := upd_sw_kd s _
@[simp] theorem State.setDamper_out (s : State) (a b : Nat) (v : Damper) : (s.setDamper a b v).out = s.out := upd_sw_out s _
@[simp] theorem State.setDamper_pending (s : State) (a b : Nat) (v : Damper) : (s.setDamper a b v).pending = s.pending := upd_sw_pending s _
@[simp] theorem State.setDamper_free (s : State) (a b : Nat) (v : Damper) : (s.setDamper a b v).free = s.free := upd_sw_free s _
@[simp] theorem State.setSuspect_pg (s : State) (a b : Nat) (v : Option Suspect) : (s.setSuspect a b v).pg = s.pg := upd_sw_pg s _
@[simp] theorem State.setSuspect_mem (s : State) (a b : Nat) (v : Option Suspect) : (s.setSuspect a b v).mem = s.mem := upd_sw_mem s _
@[simp] theorem State.setSuspect_cx (s : State) (a b : Nat) (v : Option Suspect) : (s.setSuspect a b v).cx = s.cx := upd_sw_cx s _
@[simp] theorem State.setSuspect_sq (s : State) (a b : Nat) (v : Option Suspect) : (s.setSuspect a b v).sq = s.sq := upd_sw_sq s _
@[simp] theorem State.setSuspect_sp (s : State) (a b : Nat) (v : Option Suspect) : (s.setSuspect a b v).sp = s.sp := upd_sw_sp s _
@[simp] theorem State.setSuspect_ar (s : State) (a b : Nat) (v : Option Suspect) : (s.setSuspect a b v).ar = s.ar := upd_sw_ar s _
@[simp] theorem State.setSuspect_rw (s : State) (a b : Nat) (v : Option Suspect) : (s.setSuspect a b v).rw = s.rw := upd_sw_rw s _
@[simp] theorem State.setSuspect_ht (s : State) (a b : Nat) (v : Option Suspect) : (s.setSuspect a b v).ht = s.ht := upd_sw_ht s _
@[simp] theorem State.setSuspect_ca (s : State) (a b : Nat) (v : Option Suspect) : (s.setSuspect a b v).ca = s.ca := upd_sw_ca s _
@[simp] theorem State.setSuspect_em (s : State) (a b : Nat) (v : Option Suspect) : (s.setSuspect a b v).em = s.em := upd_sw_em s _
@[simp] theorem State.setSuspect_tr (s : State) (a b : Nat) (v : Option Suspect) : (s.setSuspect a b v).tr = s.tr := upd_sw_tr s _
@[simp] theorem State.setSuspect_uc (s : State) (a b : Nat) (v : Option Suspect) : (s.setSuspect a b v).uc = s.uc := upd_sw_uc s _
@[simp] theorem State.setSuspect_fb (s : State) (a b : Nat) (v : Option Suspect) : (s.setSuspect a b v).fb = s.fb := upd_sw_fb s _
@[simp] theorem State.setSuspect_kd (s : State) (a b : Nat) (v : Option Suspect) : (s.setSuspect a b v).kd = s.kd := upd_sw_kd s _
@[simp] theorem State.setSuspect_out (s : State) (a b : Nat) (v : Option Suspect) : (s.setSuspect a b v).out = s.out := upd_sw_out s _
@[simp] theorem State.setSuspect_pending (s : State) (a b : Nat) (v : Option Suspect) : (s.setSuspect a b v).pending = s.pending := upd_sw_pending s _
@[simp] theorem State.setSuspect_free (s : State) (a b : Nat) (v : Option Suspect) : (s.setSuspect a b v).free = s.free := upd_sw_free s _
@[simp] theorem State.setPte_pg (s : State) (a b : Nat) (v : Pte) : (s.setPte a b v).pg = s.pg := upd_tr_pg s _
@[simp] theorem State.setPte_mem (s : State) (a b : Nat) (v : Pte) : (s.setPte a b v).mem = s.mem := upd_tr_mem s _
@[simp] theorem State.setPte_cx (s : State) (a b : Nat) (v : Pte) : (s.setPte a b v).cx = s.cx := upd_tr_cx s _
@[simp] theorem State.setPte_sq (s : State) (a b : Nat) (v : Pte) : (s.setPte a b v).sq = s.sq := upd_tr_sq s _
@[simp] theorem State.setPte_sp (s : State) (a b : Nat) (v : Pte) : (s.setPte a b v).sp = s.sp := upd_tr_sp s _
@[simp] theorem State.setPte_ar (s : State) (a b : Nat) (v : Pte) : (s.setPte a b v).ar = s.ar := upd_tr_ar s _
@[simp] theorem State.setPte_rw (s : State) (a b : Nat) (v : Pte) : (s.setPte a b v).rw = s.rw := upd_tr_rw s _
@[simp] theorem State.setPte_ht (s : State) (a b : Nat) (v : Pte) : (s.setPte a b v).ht = s.ht := upd_tr_ht s _
@[simp] theorem State.setPte_ca (s : State) (a b : Nat) (v : Pte) : (s.setPte a b v).ca = s.ca := upd_tr_ca s _
@[simp] theorem State.setPte_em (s : State) (a b : Nat) (v : Pte) : (s.setPte a b v).em = s.em := upd_tr_em s _
@[simp] theorem State.setPte_sw (s : State) (a b : Nat) (v : Pte) : (s.setPte a b v).sw = s.sw := upd_tr_sw s _
@[simp] theorem State.setPte_uc (s : State) (a b : Nat) (v : Pte) : (s.setPte a b v).uc = s.uc := upd_tr_uc s _
@[simp] theorem State.setPte_fb (s : State) (a b : Nat) (v : Pte) : (s.setPte a b v).fb = s.fb := upd_tr_fb s _
@[simp] theorem State.setPte_kd (s : State) (a b : Nat) (v : Pte) : (s.setPte a b v).kd = s.kd := upd_tr_kd s _
@[simp] theorem State.setPte_out (s : State) (a b : Nat) (v : Pte) : (s.setPte a b v).out = s.out := upd_tr_out s _
@[simp] theorem State.setPte_pending (s : State) (a b : Nat) (v : Pte) : (s.setPte a b v).pending = s.pending := upd_tr_pending s _
@[simp] theorem State.setPte_free (s : State) (a b : Nat) (v : Pte) : (s.setPte a b v).free = s.free := upd_tr_free s _
@[simp] theorem State.setRing_pg (s : State) (a : Nat) (v : Ring) : (s.setRing a v).pg = s.pg := upd_uc_pg s _
@[simp] theorem State.setRing_mem (s : State) (a : Nat) (v : Ring) : (s.setRing a v).mem = s.mem := upd_uc_mem s _
@[simp] theorem State.setRing_cx (s : State) (a : Nat) (v : Ring) : (s.setRing a v).cx = s.cx := upd_uc_cx s _
@[simp] theorem State.setRing_sq (s : State) (a : Nat) (v : Ring) : (s.setRing a v).sq = s.sq := upd_uc_sq s _
@[simp] theorem State.setRing_sp (s : State) (a : Nat) (v : Ring) : (s.setRing a v).sp = s.sp := upd_uc_sp s _
@[simp] theorem State.setRing_ar (s : State) (a : Nat) (v : Ring) : (s.setRing a v).ar = s.ar := upd_uc_ar s _
@[simp] theorem State.setRing_rw (s : State) (a : Nat) (v : Ring) : (s.setRing a v).rw = s.rw := upd_uc_rw s _
@[simp] theorem State.setRing_ht (s : State) (a : Nat) (v : Ring) : (s.setRing a v).ht = s.ht := upd_uc_ht s _
@[simp] theorem State.setRing_ca (s : State) (a : Nat) (v : Ring) : (s.setRing a v).ca = s.ca := upd_uc_ca s _
@[simp] theorem State.setRing_em (s : State) (a : Nat) (v : Ring) : (s.setRing a v).em = s.em := upd_uc_em s _
@[simp] theorem State.setRing_sw (s : State) (a : Nat) (v : Ring) : (s.setRing a v).sw = s.sw := upd_uc_sw s _
@[simp] theorem State.setRing_tr (s : State) (a : Nat) (v : Ring) : (s.setRing a v).tr = s.tr := upd_uc_tr s _
@[simp] theorem State.setRing_fb (s : State) (a : Nat) (v : Ring) : (s.setRing a v).fb = s.fb := upd_uc_fb s _
@[simp] theorem State.setRing_kd (s : State) (a : Nat) (v : Ring) : (s.setRing a v).kd = s.kd := upd_uc_kd s _
@[simp] theorem State.setRing_out (s : State) (a : Nat) (v : Ring) : (s.setRing a v).out = s.out := upd_uc_out s _
@[simp] theorem State.setRing_pending (s : State) (a : Nat) (v : Ring) : (s.setRing a v).pending = s.pending := upd_uc_pending s _
@[simp] theorem State.setRing_free (s : State) (a : Nat) (v : Ring) : (s.setRing a v).free = s.free := upd_uc_free s _
@[simp] theorem State.setFlash_pg (s : State) (a : Nat) (v : List FlashCmd) : (s.setFlash a v).pg = s.pg := upd_uc_pg s _
@[simp] theorem State.setFlash_mem (s : State) (a : Nat) (v : List FlashCmd) : (s.setFlash a v).mem = s.mem := upd_uc_mem s _
@[simp] theorem State.setFlash_cx (s : State) (a : Nat) (v : List FlashCmd) : (s.setFlash a v).cx = s.cx := upd_uc_cx s _
@[simp] theorem State.setFlash_sq (s : State) (a : Nat) (v : List FlashCmd) : (s.setFlash a v).sq = s.sq := upd_uc_sq s _
@[simp] theorem State.setFlash_sp (s : State) (a : Nat) (v : List FlashCmd) : (s.setFlash a v).sp = s.sp := upd_uc_sp s _
@[simp] theorem State.setFlash_ar (s : State) (a : Nat) (v : List FlashCmd) : (s.setFlash a v).ar = s.ar := upd_uc_ar s _
@[simp] theorem State.setFlash_rw (s : State) (a : Nat) (v : List FlashCmd) : (s.setFlash a v).rw = s.rw := upd_uc_rw s _
@[simp] theorem State.setFlash_ht (s : State) (a : Nat) (v : List FlashCmd) : (s.setFlash a v).ht = s.ht := upd_uc_ht s _
@[simp] theorem State.setFlash_ca (s : State) (a : Nat) (v : List FlashCmd) : (s.setFlash a v).ca = s.ca := upd_uc_ca s _
@[simp] theorem State.setFlash_em (s : State) (a : Nat) (v : List FlashCmd) : (s.setFlash a v).em = s.em := upd_uc_em s _
@[simp] theorem State.setFlash_sw (s : State) (a : Nat) (v : List FlashCmd) : (s.setFlash a v).sw = s.sw := upd_uc_sw s _
@[simp] theorem State.setFlash_tr (s : State) (a : Nat) (v : List FlashCmd) : (s.setFlash a v).tr = s.tr := upd_uc_tr s _
@[simp] theorem State.setFlash_fb (s : State) (a : Nat) (v : List FlashCmd) : (s.setFlash a v).fb = s.fb := upd_uc_fb s _
@[simp] theorem State.setFlash_kd (s : State) (a : Nat) (v : List FlashCmd) : (s.setFlash a v).kd = s.kd := upd_uc_kd s _
@[simp] theorem State.setFlash_out (s : State) (a : Nat) (v : List FlashCmd) : (s.setFlash a v).out = s.out := upd_uc_out s _
@[simp] theorem State.setFlash_pending (s : State) (a : Nat) (v : List FlashCmd) : (s.setFlash a v).pending = s.pending := upd_uc_pending s _
@[simp] theorem State.setFlash_free (s : State) (a : Nat) (v : List FlashCmd) : (s.setFlash a v).free = s.free := upd_uc_free s _
@[simp] theorem State.setUmod_pg (s : State) (a b c v : Nat) : (s.setUmod a b c v).pg = s.pg := upd_uc_pg s _
@[simp] theorem State.setUmod_mem (s : State) (a b c v : Nat) : (s.setUmod a b c v).mem = s.mem := upd_uc_mem s _
@[simp] theorem State.setUmod_cx (s : State) (a b c v : Nat) : (s.setUmod a b c v).cx = s.cx := upd_uc_cx s _
@[simp] theorem State.setUmod_sq (s : State) (a b c v : Nat) : (s.setUmod a b c v).sq = s.sq := upd_uc_sq s _
@[simp] theorem State.setUmod_sp (s : State) (a b c v : Nat) : (s.setUmod a b c v).sp = s.sp := upd_uc_sp s _
@[simp] theorem State.setUmod_ar (s : State) (a b c v : Nat) : (s.setUmod a b c v).ar = s.ar := upd_uc_ar s _
@[simp] theorem State.setUmod_rw (s : State) (a b c v : Nat) : (s.setUmod a b c v).rw = s.rw := upd_uc_rw s _
@[simp] theorem State.setUmod_ht (s : State) (a b c v : Nat) : (s.setUmod a b c v).ht = s.ht := upd_uc_ht s _
@[simp] theorem State.setUmod_ca (s : State) (a b c v : Nat) : (s.setUmod a b c v).ca = s.ca := upd_uc_ca s _
@[simp] theorem State.setUmod_em (s : State) (a b c v : Nat) : (s.setUmod a b c v).em = s.em := upd_uc_em s _
@[simp] theorem State.setUmod_sw (s : State) (a b c v : Nat) : (s.setUmod a b c v).sw = s.sw := upd_uc_sw s _
@[simp] theorem State.setUmod_tr (s : State) (a b c v : Nat) : (s.setUmod a b c v).tr = s.tr := upd_uc_tr s _
@[simp] theorem State.setUmod_fb (s : State) (a b c v : Nat) : (s.setUmod a b c v).fb = s.fb := upd_uc_fb s _
@[simp] theorem State.setUmod_kd (s : State) (a b c v : Nat) : (s.setUmod a b c v).kd = s.kd := upd_uc_kd s _
@[simp] theorem State.setUmod_out (s : State) (a b c v : Nat) : (s.setUmod a b c v).out = s.out := upd_uc_out s _
@[simp] theorem State.setUmod_pending (s : State) (a b c v : Nat) : (s.setUmod a b c v).pending = s.pending := upd_uc_pending s _
@[simp] theorem State.setUmod_free (s : State) (a b c v : Nat) : (s.setUmod a b c v).free = s.free := upd_uc_free s _
@[simp] theorem State.setPort_pg (s : State) (a : Nat) (v : Port) : (s.setPort a v).pg = s.pg := upd_fb_pg s _
@[simp] theorem State.setPort_mem (s : State) (a : Nat) (v : Port) : (s.setPort a v).mem = s.mem := upd_fb_mem s _
@[simp] theorem State.setPort_cx (s : State) (a : Nat) (v : Port) : (s.setPort a v).cx = s.cx := upd_fb_cx s _
@[simp] theorem State.setPort_sq (s : State) (a : Nat) (v : Port) : (s.setPort a v).sq = s.sq := upd_fb_sq s _
@[simp] theorem State.setPort_sp (s : State) (a : Nat) (v : Port) : (s.setPort a v).sp = s.sp := upd_fb_sp s _
@[simp] theorem State.setPort_ar (s : State) (a : Nat) (v : Port) : (s.setPort a v).ar = s.ar := upd_fb_ar s _
@[simp] theorem State.setPort_rw (s : State) (a : Nat) (v : Port) : (s.setPort a v).rw = s.rw := upd_fb_rw s _
@[simp] theorem State.setPort_ht (s : State) (a : Nat) (v : Port) : (s.setPort a v).ht = s.ht := upd_fb_ht s _
@[simp] theorem State.setPort_ca (s : State) (a : Nat) (v : Port) : (s.setPort a v).ca = s.ca := upd_fb_ca s _
@[simp] theorem State.setPort_em (s : State) (a : Nat) (v : Port) : (s.setPort a v).em = s.em := upd_fb_em s _
@[simp] theorem State.setPort_sw (s : State) (a : Nat) (v : Port) : (s.setPort a v).sw = s.sw := upd_fb_sw s _
@[simp] theorem State.setPort_tr (s : State) (a : Nat) (v : Port) : (s.setPort a v).tr = s.tr := upd_fb_tr s _
@[simp] theorem State.setPort_uc (s : State) (a : Nat) (v : Port) : (s.setPort a v).uc = s.uc := upd_fb_uc s _
@[simp] theorem State.setPort_kd (s : State) (a : Nat) (v : Port) : (s.setPort a v).kd = s.kd := upd_fb_kd s _
@[simp] theorem State.setPort_out (s : State) (a : Nat) (v : Port) : (s.setPort a v).out = s.out := upd_fb_out s _
@[simp] theorem State.setPort_pending (s : State) (a : Nat) (v : Port) : (s.setPort a v).pending = s.pending := upd_fb_pending s _
@[simp] theorem State.setPort_free (s : State) (a : Nat) (v : Port) : (s.setPort a v).free = s.free := upd_fb_free s _
@[simp] theorem State.setName_pg (s : State) (a : Nat) (v : NameEnt) : (s.setName a v).pg = s.pg := upd_fb_pg s _
@[simp] theorem State.setName_mem (s : State) (a : Nat) (v : NameEnt) : (s.setName a v).mem = s.mem := upd_fb_mem s _
@[simp] theorem State.setName_cx (s : State) (a : Nat) (v : NameEnt) : (s.setName a v).cx = s.cx := upd_fb_cx s _
@[simp] theorem State.setName_sq (s : State) (a : Nat) (v : NameEnt) : (s.setName a v).sq = s.sq := upd_fb_sq s _
@[simp] theorem State.setName_sp (s : State) (a : Nat) (v : NameEnt) : (s.setName a v).sp = s.sp := upd_fb_sp s _
@[simp] theorem State.setName_ar (s : State) (a : Nat) (v : NameEnt) : (s.setName a v).ar = s.ar := upd_fb_ar s _
@[simp] theorem State.setName_rw (s : State) (a : Nat) (v : NameEnt) : (s.setName a v).rw = s.rw := upd_fb_rw s _
@[simp] theorem State.setName_ht (s : State) (a : Nat) (v : NameEnt) : (s.setName a v).ht = s.ht := upd_fb_ht s _
@[simp] theorem State.setName_ca (s : State) (a : Nat) (v : NameEnt) : (s.setName a v).ca = s.ca := upd_fb_ca s _
@[simp] theorem State.setName_em (s : State) (a : Nat) (v : NameEnt) : (s.setName a v).em = s.em := upd_fb_em s _
@[simp] theorem State.setName_sw (s : State) (a : Nat) (v : NameEnt) : (s.setName a v).sw = s.sw := upd_fb_sw s _
@[simp] theorem State.setName_tr (s : State) (a : Nat) (v : NameEnt) : (s.setName a v).tr = s.tr := upd_fb_tr s _
@[simp] theorem State.setName_uc (s : State) (a : Nat) (v : NameEnt) : (s.setName a v).uc = s.uc := upd_fb_uc s _
@[simp] theorem State.setName_kd (s : State) (a : Nat) (v : NameEnt) : (s.setName a v).kd = s.kd := upd_fb_kd s _
@[simp] theorem State.setName_out (s : State) (a : Nat) (v : NameEnt) : (s.setName a v).out = s.out := upd_fb_out s _
@[simp] theorem State.setName_pending (s : State) (a : Nat) (v : NameEnt) : (s.setName a v).pending = s.pending := upd_fb_pending s _
@[simp] theorem State.setName_free (s : State) (a : Nat) (v : NameEnt) : (s.setName a v).free = s.free := upd_fb_free s _
@[simp] theorem State.setSeatE_pg (s : State) (a : Nat) (v : SeatEnt) : (s.setSeatE a v).pg = s.pg := upd_fb_pg s _
@[simp] theorem State.setSeatE_mem (s : State) (a : Nat) (v : SeatEnt) : (s.setSeatE a v).mem = s.mem := upd_fb_mem s _
@[simp] theorem State.setSeatE_cx (s : State) (a : Nat) (v : SeatEnt) : (s.setSeatE a v).cx = s.cx := upd_fb_cx s _
@[simp] theorem State.setSeatE_sq (s : State) (a : Nat) (v : SeatEnt) : (s.setSeatE a v).sq = s.sq := upd_fb_sq s _
@[simp] theorem State.setSeatE_sp (s : State) (a : Nat) (v : SeatEnt) : (s.setSeatE a v).sp = s.sp := upd_fb_sp s _
@[simp] theorem State.setSeatE_ar (s : State) (a : Nat) (v : SeatEnt) : (s.setSeatE a v).ar = s.ar := upd_fb_ar s _
@[simp] theorem State.setSeatE_rw (s : State) (a : Nat) (v : SeatEnt) : (s.setSeatE a v).rw = s.rw := upd_fb_rw s _
@[simp] theorem State.setSeatE_ht (s : State) (a : Nat) (v : SeatEnt) : (s.setSeatE a v).ht = s.ht := upd_fb_ht s _
@[simp] theorem State.setSeatE_ca (s : State) (a : Nat) (v : SeatEnt) : (s.setSeatE a v).ca = s.ca := upd_fb_ca s _
@[simp] theorem State.setSeatE_em (s : State) (a : Nat) (v : SeatEnt) : (s.setSeatE a v).em = s.em := upd_fb_em s _
@[simp] theorem State.setSeatE_sw (s : State) (a : Nat) (v : SeatEnt) : (s.setSeatE a v).sw = s.sw := upd_fb_sw s _
@[simp] theorem State.setSeatE_tr (s : State) (a : Nat) (v : SeatEnt) : (s.setSeatE a v).tr = s.tr := upd_fb_tr s _
@[simp] theorem State.setSeatE_uc (s : State) (a : Nat) (v : SeatEnt) : (s.setSeatE a v).uc = s.uc := upd_fb_uc s _
@[simp] theorem State.setSeatE_kd (s : State) (a : Nat) (v : SeatEnt) : (s.setSeatE a v).kd = s.kd := upd_fb_kd s _
@[simp] theorem State.setSeatE_out (s : State) (a : Nat) (v : SeatEnt) : (s.setSeatE a v).out = s.out := upd_fb_out s _
@[simp] theorem State.setSeatE_pending (s : State) (a : Nat) (v : SeatEnt) : (s.setSeatE a v).pending = s.pending := upd_fb_pending s _
@[simp] theorem State.setSeatE_free (s : State) (a : Nat) (v : SeatEnt) : (s.setSeatE a v).free = s.free := upd_fb_free s _
@[simp] theorem State.setCjob_pg (s : State) (a : Nat) (v : ColJob) : (s.setCjob a v).pg = s.pg := upd_fb_pg s _
@[simp] theorem State.setCjob_mem (s : State) (a : Nat) (v : ColJob) : (s.setCjob a v).mem = s.mem := upd_fb_mem s _
@[simp] theorem State.setCjob_cx (s : State) (a : Nat) (v : ColJob) : (s.setCjob a v).cx = s.cx := upd_fb_cx s _
@[simp] theorem State.setCjob_sq (s : State) (a : Nat) (v : ColJob) : (s.setCjob a v).sq = s.sq := upd_fb_sq s _
@[simp] theorem State.setCjob_sp (s : State) (a : Nat) (v : ColJob) : (s.setCjob a v).sp = s.sp := upd_fb_sp s _
@[simp] theorem State.setCjob_ar (s : State) (a : Nat) (v : ColJob) : (s.setCjob a v).ar = s.ar := upd_fb_ar s _
@[simp] theorem State.setCjob_rw (s : State) (a : Nat) (v : ColJob) : (s.setCjob a v).rw = s.rw := upd_fb_rw s _
@[simp] theorem State.setCjob_ht (s : State) (a : Nat) (v : ColJob) : (s.setCjob a v).ht = s.ht := upd_fb_ht s _
@[simp] theorem State.setCjob_ca (s : State) (a : Nat) (v : ColJob) : (s.setCjob a v).ca = s.ca := upd_fb_ca s _
@[simp] theorem State.setCjob_em (s : State) (a : Nat) (v : ColJob) : (s.setCjob a v).em = s.em := upd_fb_em s _
@[simp] theorem State.setCjob_sw (s : State) (a : Nat) (v : ColJob) : (s.setCjob a v).sw = s.sw := upd_fb_sw s _
@[simp] theorem State.setCjob_tr (s : State) (a : Nat) (v : ColJob) : (s.setCjob a v).tr = s.tr := upd_fb_tr s _
@[simp] theorem State.setCjob_uc (s : State) (a : Nat) (v : ColJob) : (s.setCjob a v).uc = s.uc := upd_fb_uc s _
@[simp] theorem State.setCjob_kd (s : State) (a : Nat) (v : ColJob) : (s.setCjob a v).kd = s.kd := upd_fb_kd s _
@[simp] theorem State.setCjob_out (s : State) (a : Nat) (v : ColJob) : (s.setCjob a v).out = s.out := upd_fb_out s _
@[simp] theorem State.setCjob_pending (s : State) (a : Nat) (v : ColJob) : (s.setCjob a v).pending = s.pending := upd_fb_pending s _
@[simp] theorem State.setCjob_free (s : State) (a : Nat) (v : ColJob) : (s.setCjob a v).free = s.free := upd_fb_free s _
@[simp] theorem State.emit_pg (s : State) (o : Out) : (s.emit o).pg = s.pg := upd_out_pg s _
@[simp] theorem State.emit_mem (s : State) (o : Out) : (s.emit o).mem = s.mem := upd_out_mem s _
@[simp] theorem State.emit_cx (s : State) (o : Out) : (s.emit o).cx = s.cx := upd_out_cx s _
@[simp] theorem State.emit_sq (s : State) (o : Out) : (s.emit o).sq = s.sq := upd_out_sq s _
@[simp] theorem State.emit_sp (s : State) (o : Out) : (s.emit o).sp = s.sp := upd_out_sp s _
@[simp] theorem State.emit_ar (s : State) (o : Out) : (s.emit o).ar = s.ar := upd_out_ar s _
@[simp] theorem State.emit_rw (s : State) (o : Out) : (s.emit o).rw = s.rw := upd_out_rw s _
@[simp] theorem State.emit_ht (s : State) (o : Out) : (s.emit o).ht = s.ht := upd_out_ht s _
@[simp] theorem State.emit_ca (s : State) (o : Out) : (s.emit o).ca = s.ca := upd_out_ca s _
@[simp] theorem State.emit_em (s : State) (o : Out) : (s.emit o).em = s.em := upd_out_em s _
@[simp] theorem State.emit_sw (s : State) (o : Out) : (s.emit o).sw = s.sw := upd_out_sw s _
@[simp] theorem State.emit_tr (s : State) (o : Out) : (s.emit o).tr = s.tr := upd_out_tr s _
@[simp] theorem State.emit_uc (s : State) (o : Out) : (s.emit o).uc = s.uc := upd_out_uc s _
@[simp] theorem State.emit_fb (s : State) (o : Out) : (s.emit o).fb = s.fb := upd_out_fb s _
@[simp] theorem State.emit_kd (s : State) (o : Out) : (s.emit o).kd = s.kd := upd_out_kd s _
@[simp] theorem State.emit_pending (s : State) (o : Out) : (s.emit o).pending = s.pending := upd_out_pending s _
@[simp] theorem State.emit_free (s : State) (o : Out) : (s.emit o).free = s.free := upd_out_free s _
@[simp] theorem State.nextFree_pg (s : State) : (s.nextFree).pg = s.pg := upd_free_pg s _
@[simp] theorem State.nextFree_mem (s : State) : (s.nextFree).mem = s.mem := upd_free_mem s _
@[simp] theorem State.nextFree_cx (s : State) : (s.nextFree).cx = s.cx := upd_free_cx s _
@[simp] theorem State.nextFree_sq (s : State) : (s.nextFree).sq = s.sq := upd_free_sq s _
@[simp] theorem State.nextFree_sp (s : State) : (s.nextFree).sp = s.sp := upd_free_sp s _
@[simp] theorem State.nextFree_ar (s : State) : (s.nextFree).ar = s.ar := upd_free_ar s _
@[simp] theorem State.nextFree_rw (s : State) : (s.nextFree).rw = s.rw := upd_free_rw s _
@[simp] theorem State.nextFree_ht (s : State) : (s.nextFree).ht = s.ht := upd_free_ht s _
@[simp] theorem State.nextFree_ca (s : State) : (s.nextFree).ca = s.ca := upd_free_ca s _
@[simp] theorem State.nextFree_em (s : State) : (s.nextFree).em = s.em := upd_free_em s _
@[simp] theorem State.nextFree_sw (s : State) : (s.nextFree).sw = s.sw := upd_free_sw s _
@[simp] theorem State.nextFree_tr (s : State) : (s.nextFree).tr = s.tr := upd_free_tr s _
@[simp] theorem State.nextFree_uc (s : State) : (s.nextFree).uc = s.uc := upd_free_uc s _
@[simp] theorem State.nextFree_fb (s : State) : (s.nextFree).fb = s.fb := upd_free_fb s _
@[simp] theorem State.nextFree_kd (s : State) : (s.nextFree).kd = s.kd := upd_free_kd s _
@[simp] theorem State.nextFree_out (s : State) : (s.nextFree).out = s.out := upd_free_out s _
@[simp] theorem State.nextFree_pending (s : State) : (s.nextFree).pending = s.pending := upd_free_pending s _
@[simp] theorem State.setHdr_mem (s : State) (d p : Nat) (v : PageHdr) : (s.setHdr d p v).mem = s.mem := upd_pg_mem s _
@[simp] theorem State.setHdr_cx (s : State) (d p : Nat) (v : PageHdr) : (s.setHdr d p v).cx = s.cx := upd_pg_cx s _
@[simp] theorem State.setHdr_sq (s : State) (d p : Nat) (v : PageHdr) : (s.setHdr d p v).sq = s.sq := upd_pg_sq s _
@[simp] theorem State.setHdr_sp (s : State) (d p : Nat) (v : PageHdr) : (s.setHdr d p v).sp = s.sp := upd_pg_sp s _
@[simp] theorem State.setHdr_ar (s : State) (d p : Nat) (v : PageHdr) : (s.setHdr d p v).ar = s.ar := upd_pg_ar s _
@[simp] theorem State.setHdr_rw (s : State) (d p : Nat) (v : PageHdr) : (s.setHdr d p v).rw = s.rw := upd_pg_rw s _
@[simp] theorem State.setHdr_ht (s : State) (d p : Nat) (v : PageHdr) : (s.setHdr d p v).ht = s.ht := upd_pg_ht s _
@[simp] theorem State.setHdr_ca (s : State) (d p : Nat) (v : PageHdr) : (s.setHdr d p v).ca = s.ca := upd_pg_ca s _
@[simp] theorem State.setHdr_em (s : State) (d p : Nat) (v : PageHdr) : (s.setHdr d p v).em = s.em := upd_pg_em s _
@[simp] theorem State.setHdr_sw (s : State) (d p : Nat) (v : PageHdr) : (s.setHdr d p v).sw = s.sw := upd_pg_sw s _
@[simp] theorem State.setHdr_tr (s : State) (d p : Nat) (v : PageHdr) : (s.setHdr d p v).tr = s.tr := upd_pg_tr s _
@[simp] theorem State.setHdr_uc (s : State) (d p : Nat) (v : PageHdr) : (s.setHdr d p v).uc = s.uc := upd_pg_uc s _
@[simp] theorem State.setHdr_fb (s : State) (d p : Nat) (v : PageHdr) : (s.setHdr d p v).fb = s.fb := upd_pg_fb s _
@[simp] theorem State.setHdr_kd (s : State) (d p : Nat) (v : PageHdr) : (s.setHdr d p v).kd = s.kd := upd_pg_kd s _
@[simp] theorem State.setHdr_out (s : State) (d p : Nat) (v : PageHdr) : (s.setHdr d p v).out = s.out := upd_pg_out s _
@[simp] theorem State.setHdr_pending (s : State) (d p : Nat) (v : PageHdr) : (s.setHdr d p v).pending = s.pending := upd_pg_pending s _
@[simp] theorem State.setHdr_free (s : State) (d p : Nat) (v : PageHdr) : (s.setHdr d p v).free = s.free := upd_pg_free s _
@[simp] theorem State.wr_mem (s : State) (d r : Nat) (v : W32) : (s.wr d r v).mem = s.mem := upd_pg_mem s _
@[simp] theorem State.wr_cx (s : State) (d r : Nat) (v : W32) : (s.wr d r v).cx = s.cx := upd_pg_cx s _
@[simp] theorem State.wr_sq (s : State) (d r : Nat) (v : W32) : (s.wr d r v).sq = s.sq := upd_pg_sq s _
@[simp] theorem State.wr_sp (s : State) (d r : Nat) (v : W32) : (s.wr d r v).sp = s.sp := upd_pg_sp s _
@[simp] theorem State.wr_ar (s : State) (d r : Nat) (v : W32) : (s.wr d r v).ar = s.ar := upd_pg_ar s _
@[simp] theorem State.wr_rw (s : State) (d r : Nat) (v : W32) : (s.wr d r v).rw = s.rw := upd_pg_rw s _
@[simp] theorem State.wr_ht (s : State) (d r : Nat) (v : W32) : (s.wr d r v).ht = s.ht := upd_pg_ht s _
@[simp] theorem State.wr_ca (s : State) (d r : Nat) (v : W32) : (s.wr d r v).ca = s.ca := upd_pg_ca s _
@[simp] theorem State.wr_em (s : State) (d r : Nat) (v : W32) : (s.wr d r v).em = s.em := upd_pg_em s _
@[simp] theorem State.wr_sw (s : State) (d r : Nat) (v : W32) : (s.wr d r v).sw = s.sw := upd_pg_sw s _
@[simp] theorem State.wr_tr (s : State) (d r : Nat) (v : W32) : (s.wr d r v).tr = s.tr := upd_pg_tr s _
@[simp] theorem State.wr_uc (s : State) (d r : Nat) (v : W32) : (s.wr d r v).uc = s.uc := upd_pg_uc s _
@[simp] theorem State.wr_fb (s : State) (d r : Nat) (v : W32) : (s.wr d r v).fb = s.fb := upd_pg_fb s _
@[simp] theorem State.wr_kd (s : State) (d r : Nat) (v : W32) : (s.wr d r v).kd = s.kd := upd_pg_kd s _
@[simp] theorem State.wr_out (s : State) (d r : Nat) (v : W32) : (s.wr d r v).out = s.out := upd_pg_out s _
@[simp] theorem State.wr_pending (s : State) (d r : Nat) (v : W32) : (s.wr d r v).pending = s.pending := upd_pg_pending s _
@[simp] theorem State.wr_free (s : State) (d r : Nat) (v : W32) : (s.wr d r v).free = s.free := upd_pg_free s _

end Sys2Proof.Machine
end

