-- ==== Sys2Proof/Laws/Tab.lean ====
section
/-! SUPPORT. Sparse tables: reading after writing, and that every operation keeps the canonical form. -/

namespace Sys2Proof.Machine

section Any
variable {α : Type}

@[simp] theorem tabGet_nil (d : Nat → α) (k : Nat) : tabGet d [] k = d k := rfl

theorem tabGet_tabPut_same (d : Nat → α) (k : Nat) (v : α) : ∀ t : Tab α, tabGet d (tabPut t k v) k = v
  | [] => by simp [tabPut, tabGet]
  | (j, w) :: t => by
    by_cases h1 : k = j
    · simp [tabPut, tabGet, h1]
    · by_cases h2 : k < j
      · simp [tabPut, tabGet, h1, h2]
      · simp [tabPut, tabGet, h1, h2, tabGet_tabPut_same d k v t]

theorem tabGet_tabPut_other (d : Nat → α) (k i : Nat) (v : α) (h : i ≠ k) :
    ∀ t : Tab α, tabGet d (tabPut t k v) i = tabGet d t i
  | [] => by simp [tabPut, tabGet, h]
  | (j, w) :: t => by
    by_cases h1 : k = j
    · subst h1; simp [tabPut, tabGet, h]
    · by_cases h2 : k < j
      · simp [tabPut, tabGet, h1, h2, h]
      · by_cases h3 : i = j
        · simp [tabPut, tabGet, h1, h2, h3]
        · simp [tabPut, tabGet, h1, h2, h3, tabGet_tabPut_other d k i v h t]

theorem tabGet_tabDel_same (d : Nat → α) (k : Nat) : ∀ t : Tab α, tabGet d (tabDel t k) k = d k
  | [] => rfl
  | (j, w) :: t => by
    by_cases h1 : k = j
    · simp [tabDel, h1, tabGet_tabDel_same d j t]
    · simp [tabDel, tabGet, h1, tabGet_tabDel_same d k t]

theorem tabGet_tabDel_other (d : Nat → α) (k i : Nat) (h : i ≠ k) :
    ∀ t : Tab α, tabGet d (tabDel t k) i = tabGet d t i
  | [] => rfl
  | (j, w) :: t => by
    by_cases h1 : k = j
    · subst h1; simp [tabDel, tabGet, h, tabGet_tabDel_other d k i h t]
    · by_cases h3 : i = j
      · simp [tabDel, tabGet, h1, h3]
      · simp [tabDel, tabGet, h1, h3, tabGet_tabDel_other d k i h t]

theorem tabSorted_mono : ∀ (t : Tab α) (lo lo' : Nat), lo' ≤ lo → tabSorted lo t = true → tabSorted lo' t = true
  | [], _, _, _, _ => rfl
  | (j, v) :: t, lo, lo', h, hs => by
    simp only [tabSorted, Bool.and_eq_true, decide_eq_true_eq] at hs ⊢
    exact ⟨by omega, hs.2⟩

theorem tabSorted_tabPut (k : Nat) (v : α) :
    ∀ (t : Tab α) (lo : Nat), lo ≤ k → tabSorted lo t = true → tabSorted lo (tabPut t k v) = true
  | [], lo, h, _ => by simp [tabPut, tabSorted, h]
  | (j, w) :: t, lo, h, hs => by
    simp only [tabSorted, Bool.and_eq_true, decide_eq_true_eq] at hs
    by_cases h1 : k = j
    · subst h1; simp [tabPut, tabSorted, hs.1, hs.2]
    · by_cases h2 : k < j
      · simp [tabPut, tabSorted, h1, h2, h, hs.2]
      · simp [tabPut, tabSorted, h1, h2, hs.1, tabSorted_tabPut k v t (j + 1) (by omega) hs.2]

theorem tabSorted_tabDel (k : Nat) : ∀ (t : Tab α) (lo : Nat), tabSorted lo t = true → tabSorted lo (tabDel t k) = true
  | [], _, _ => rfl
  | (j, w) :: t, lo, hs => by
    simp only [tabSorted, Bool.and_eq_true, decide_eq_true_eq] at hs
    by_cases h1 : k = j
    · subst h1
      simpa [tabDel] using tabSorted_tabDel k t lo (tabSorted_mono t (k + 1) lo (by omega) hs.2)
    · simp [tabDel, tabSorted, h1, hs.1, tabSorted_tabDel k t (j + 1) hs.2]

end Any

variable {α : Type} [DecidableEq α]

/-- Reading a key after writing it gives the value written. -/
@[simp] theorem tabGet_tabSet_same (d : Nat → α) (t : Tab α) (k : Nat) (v : α) : tabGet d (tabSet d t k v) k = v := by
  by_cases e : v = d k
  · simp [tabSet, ← e, tabGet_tabDel_same d k t]
  · simp [tabSet, e, tabGet_tabPut_same]

/-- Writing a key leaves every other key alone. -/
theorem tabGet_tabSet_other (d : Nat → α) (t : Tab α) (k i : Nat) (v : α) (hi : i ≠ k) :
    tabGet d (tabSet d t k v) i = tabGet d t i := by
  by_cases e : v = d k
  · simp [tabSet, e, tabGet_tabDel_other d k i hi t]
  · simp [tabSet, e, tabGet_tabPut_other d k i v hi t]

/-- Reading any key after a write. -/
theorem tabGet_tabSet (d : Nat → α) (t : Tab α) (k i : Nat) (v : α) :
    tabGet d (tabSet d t k v) i = if i = k then v else tabGet d t i := by
  by_cases h : i = k
  · subst h; simp
  · simp [h, tabGet_tabSet_other d t k i v h]

theorem tabTight_tabPut (d : Nat → α) (k : Nat) (v : α) (h : v ≠ d k) :
    ∀ t : Tab α, tabTight d t = true → tabTight d (tabPut t k v) = true
  | [], _ => by simp [tabPut, tabTight, h]
  | (j, w) :: t, ht => by
    simp only [tabTight, Bool.and_eq_true, decide_eq_true_eq] at ht
    by_cases h1 : k = j
    · subst h1; simp [tabPut, tabTight, h, ht.2]
    · by_cases h2 : k < j
      · simp [tabPut, h1, h2, tabTight, h, ht.1, ht.2]
      · simp [tabPut, tabTight, h1, h2, ht.1, tabTight_tabPut d k v h t ht.2]

theorem tabTight_tabDel (d : Nat → α) (k : Nat) : ∀ t : Tab α, tabTight d t = true → tabTight d (tabDel t k) = true
  | [], _ => rfl
  | (j, w) :: t, ht => by
    simp only [tabTight, Bool.and_eq_true, decide_eq_true_eq] at ht
    by_cases h1 : k = j
    · subst h1; simpa [tabDel] using tabTight_tabDel d k t ht.2
    · simp [tabDel, tabTight, h1, ht.1, tabTight_tabDel d k t ht.2]

/-- A write keeps the canonical form. -/
theorem tabWf_tabSet (d : Nat → α) (t : Tab α) (k : Nat) (v : α) (h : tabWf d t = true) :
    tabWf d (tabSet d t k v) = true := by
  simp only [tabWf, Bool.and_eq_true] at h ⊢
  by_cases e : v = d k
  · simp only [tabSet, e, if_true]
    exact ⟨tabSorted_tabDel k t 0 h.1, tabTight_tabDel d k t h.2⟩
  · simp only [tabSet, e, if_false]
    exact ⟨tabSorted_tabPut k v t 0 (by omega) h.1, tabTight_tabPut d k v e t h.2⟩

end Sys2Proof.Machine
end

