-- ==== Sys2Proof/Laws/Ops.lean ====
section
/-! SUPPORT. The shared operations: what each reads after it has written, and which parts of the state it leaves alone. -/

namespace Sys2Proof.Machine

-- Frames

theorem Frame.refl {l : List Part} (s : State) : Frame l s s := ⟨fun p _ => by cases p <;> rfl⟩
theorem Frame.trans {l : List Part} {a b c : State} (h : Frame l a b) (g : Frame l b c) : Frame l a c :=
  ⟨fun p hp => by
    have h1 := h.keep p hp
    have h2 := g.keep p hp
    cases p <;> exact Eq.trans h2 h1⟩
theorem Frame.mono {l m : List Part} {a b : State} (h : Frame l a b) (hl : ∀ p, p ∈ l → p ∈ m) : Frame m a b :=
  ⟨fun p hp => h.keep p fun hh => hp (hl p hh)⟩

theorem Frame.pg {l : List Part} {a b : State} (h : Frame l a b) (n : .pg ∉ l) : b.pg = a.pg := h.keep _ n
theorem Frame.mem {l : List Part} {a b : State} (h : Frame l a b) (n : .mem ∉ l) : b.mem = a.mem := h.keep _ n
theorem Frame.cx {l : List Part} {a b : State} (h : Frame l a b) (n : .cx ∉ l) : b.cx = a.cx := h.keep _ n
theorem Frame.sq {l : List Part} {a b : State} (h : Frame l a b) (n : .sq ∉ l) : b.sq = a.sq := h.keep _ n
theorem Frame.sp {l : List Part} {a b : State} (h : Frame l a b) (n : .sp ∉ l) : b.sp = a.sp := h.keep _ n
theorem Frame.ar {l : List Part} {a b : State} (h : Frame l a b) (n : .ar ∉ l) : b.ar = a.ar := h.keep _ n
theorem Frame.rw {l : List Part} {a b : State} (h : Frame l a b) (n : .rw ∉ l) : b.rw = a.rw := h.keep _ n
theorem Frame.ht {l : List Part} {a b : State} (h : Frame l a b) (n : .ht ∉ l) : b.ht = a.ht := h.keep _ n
theorem Frame.ca {l : List Part} {a b : State} (h : Frame l a b) (n : .ca ∉ l) : b.ca = a.ca := h.keep _ n
theorem Frame.em {l : List Part} {a b : State} (h : Frame l a b) (n : .em ∉ l) : b.em = a.em := h.keep _ n
theorem Frame.sw {l : List Part} {a b : State} (h : Frame l a b) (n : .sw ∉ l) : b.sw = a.sw := h.keep _ n
theorem Frame.tr {l : List Part} {a b : State} (h : Frame l a b) (n : .tr ∉ l) : b.tr = a.tr := h.keep _ n
theorem Frame.uc {l : List Part} {a b : State} (h : Frame l a b) (n : .uc ∉ l) : b.uc = a.uc := h.keep _ n
theorem Frame.fb {l : List Part} {a b : State} (h : Frame l a b) (n : .fb ∉ l) : b.fb = a.fb := h.keep _ n
theorem Frame.kd {l : List Part} {a b : State} (h : Frame l a b) (n : .kd ∉ l) : b.kd = a.kd := h.keep _ n
theorem Frame.out {l : List Part} {a b : State} (h : Frame l a b) (n : .out ∉ l) : b.out = a.out := h.keep _ n
theorem Frame.pending {l : List Part} {a b : State} (h : Frame l a b) (n : .pending ∉ l) : b.pending = a.pending := h.keep _ n
theorem Frame.free {l : List Part} {a b : State} (h : Frame l a b) (n : .free ∉ l) : b.free = a.free := h.keep _ n

theorem frame_upd_pg (s : State) (x : PageSt) : Frame [.pg] s { s with pg := x } := ⟨fun p hp => by cases p <;> first | rfl | simp at hp⟩
theorem frame_upd_mem (s : State) (x : Tab Byte) : Frame [.mem] s { s with mem := x } := ⟨fun p hp => by cases p <;> first | rfl | simp at hp⟩
theorem frame_upd_cx (s : State) (x : CtxSt) : Frame [.cx] s { s with cx := x } := ⟨fun p hp => by cases p <;> first | rfl | simp at hp⟩
theorem frame_upd_sq (s : State) (x : SeqSt) : Frame [.sq] s { s with sq := x } := ⟨fun p hp => by cases p <;> first | rfl | simp at hp⟩
theorem frame_upd_sp (s : State) (x : SpdSt) : Frame [.sp] s { s with sp := x } := ⟨fun p hp => by cases p <;> first | rfl | simp at hp⟩
theorem frame_upd_ar (s : State) (x : ArrSt) : Frame [.ar] s { s with ar := x } := ⟨fun p hp => by cases p <;> first | rfl | simp at hp⟩
theorem frame_upd_rw (s : State) (x : RowSt) : Frame [.rw] s { s with rw := x } := ⟨fun p hp => by cases p <;> first | rfl | simp at hp⟩
theorem frame_upd_ht (s : State) (x : HthSt) : Frame [.ht] s { s with ht := x } := ⟨fun p hp => by cases p <;> first | rfl | simp at hp⟩
theorem frame_upd_ca (s : State) (x : CacheSt) : Frame [.ca] s { s with ca := x } := ⟨fun p hp => by cases p <;> first | rfl | simp at hp⟩
theorem frame_upd_em (s : State) (x : EmbSt) : Frame [.em] s { s with em := x } := ⟨fun p hp => by cases p <;> first | rfl | simp at hp⟩
theorem frame_upd_sw (s : State) (x : SwpSt) : Frame [.sw] s { s with sw := x } := ⟨fun p hp => by cases p <;> first | rfl | simp at hp⟩
theorem frame_upd_tr (s : State) (x : TierSt) : Frame [.tr] s { s with tr := x } := ⟨fun p hp => by cases p <;> first | rfl | simp at hp⟩
theorem frame_upd_uc (s : State) (x : UciSt) : Frame [.uc] s { s with uc := x } := ⟨fun p hp => by cases p <;> first | rfl | simp at hp⟩
theorem frame_upd_fb (s : State) (x : FabSt) : Frame [.fb] s { s with fb := x } := ⟨fun p hp => by cases p <;> first | rfl | simp at hp⟩
theorem frame_upd_kd (s : State) (x : KdlSt) : Frame [.kd] s { s with kd := x } := ⟨fun p hp => by cases p <;> first | rfl | simp at hp⟩
theorem frame_upd_out (s : State) (x : List Out) : Frame [.out] s { s with out := x } := ⟨fun p hp => by cases p <;> first | rfl | simp at hp⟩
theorem frame_upd_free (s : State) (x : Nat) : Frame [.free] s { s with free := x } := ⟨fun p hp => by cases p <;> first | rfl | simp at hp⟩

-- Pages

theorem State.hdr_setHdr (s : State) (d p d' p' : Nat) (v : PageHdr) :
    (s.setHdr d p v).hdr d' p' = if 4096 * canonDie d' p' + p' = 4096 * canonDie d p + p then v else s.hdr d' p' := by
  unfold State.hdr State.setHdr
  exact tabGet_tabSet _ _ _ _ _
@[simp] theorem State.hdr_setHdr_same (s : State) (d p : Nat) (v : PageHdr) : (s.setHdr d p v).hdr d p = v := by
  simp [State.hdr_setHdr]
theorem State.rd_wr (s : State) (d r d' r' : Nat) (v : W32) :
    (s.wr d r v).rd d' r' = if regKey d' r' = regKey d r then v else s.rd d' r' := by
  unfold State.rd State.wr
  exact tabGet_tabSet _ _ _ _ _
@[simp] theorem State.rd_wr_same (s : State) (d r : Nat) (v : W32) : (s.wr d r v).rd d r = v := by simp [State.rd_wr]
@[simp] theorem State.hdr_wr (s : State) (d r d' p' : Nat) (v : W32) : (s.wr d r v).hdr d' p' = s.hdr d' p' := rfl
@[simp] theorem State.rd_setHdr (s : State) (d p d' r' : Nat) (v : PageHdr) : (s.setHdr d p v).rd d' r' = s.rd d' r' := rfl
@[simp] theorem State.hdr_emit (s : State) (o : Out) (d' p' : Nat) : (s.emit o).hdr d' p' = s.hdr d' p' := rfl
@[simp] theorem State.rd_emit (s : State) (o : Out) (d' p' : Nat) : (s.emit o).rd d' p' = s.rd d' p' := rfl

theorem frame_setHdr (s : State) (d p : Nat) (v : PageHdr) : Frame [.pg] s (s.setHdr d p v) := frame_upd_pg s _
theorem frame_wr (s : State) (d r : Nat) (v : W32) : Frame [.pg] s (s.wr d r v) := frame_upd_pg s _
theorem frame_emit (s : State) (o : Out) : Frame [.out] s (s.emit o) := frame_upd_out s _

@[simp] theorem State.hdr_sendSource (s : State) (d p d' p' : Nat) : (s.sendSource d p).hdr d' p' = s.hdr d' p' := by
  unfold State.sendSource
  dsimp only
  split <;> rfl
theorem frame_sendSource (s : State) (d p : Nat) : Frame [.pg, .out] s (s.sendSource d p) := by
  unfold State.sendSource
  dsimp only
  split
  · exact (frame_wr _ _ _ _).mono (by simp)
  · exact (frame_emit _ _).mono (by simp)
@[simp] theorem State.hdr_sendIrq (s : State) (d p d' p' : Nat) : (s.sendIrq d p).hdr d' p' = s.hdr d' p' := by
  unfold State.sendIrq
  split
  · rfl
  · split <;> simp
theorem frame_sendIrq (s : State) (d p : Nat) : Frame [.pg, .out] s (s.sendIrq d p) := by
  unfold State.sendIrq
  split
  · exact Frame.refl s
  · split
    · exact (frame_sendSource _ _ _).trans (frame_sendSource _ _ _)
    · exact frame_sendSource _ _ _

/-- What setting event bits can do: the page's status and first event, and perhaps an interrupt (R341, R342). -/
theorem raiseBits_spec (s : State) (d p : Nat) (b : W32) :
    Frame [.pg, .out] s (s.raiseBits d p b) ∧ OtherHeaders s (s.raiseBits d p b) d p ∧
      (s.raiseBits d p b).hdr d p = { s.hdr d p with
        evStatus := (s.hdr d p).evStatus ||| b
        evFirst := if (s.hdr d p).evStatus = 0 ∧ (s.hdr d p).evStatus ||| b ≠ 0
          then w32 (0x80000000 + lowBit ((s.hdr d p).evStatus ||| b)) else (s.hdr d p).evFirst } := by
  unfold State.raiseBits
  dsimp only
  generalize hv : ({ s.hdr d p with
        evStatus := (s.hdr d p).evStatus ||| b
        evFirst := if (s.hdr d p).evStatus = 0 ∧ (s.hdr d p).evStatus ||| b ≠ 0
          then w32 (0x80000000 + lowBit ((s.hdr d p).evStatus ||| b)) else (s.hdr d p).evFirst } : PageHdr) = v
  have h0 : OtherHeaders s (s.setHdr d p v) d p := fun d' p' h => by simp [State.hdr_setHdr, h]
  split
  · refine ⟨((frame_setHdr s d p v).mono (by simp)).trans (frame_sendIrq _ d p), ?_, by simp⟩
    intro d' p' h
    rw [State.hdr_sendIrq]; exact h0 d' p' h
  · exact ⟨(frame_setHdr s d p v).mono (by simp), h0, by simp⟩

theorem frame_raiseBits (s : State) (d p : Nat) (b : W32) : Frame [.pg, .out] s (s.raiseBits d p b) := (raiseBits_spec s d p b).1
theorem frame_raise (s : State) (d p bit : Nat) : Frame [.pg, .out] s (s.raise d p bit) := frame_raiseBits s d p _
theorem frame_logErr (s : State) (d p : Nat) (e : ErrRec) : Frame [.pg] s (s.logErr d p e) := frame_upd_pg s _
theorem frame_countC (s : State) (d p n : Nat) : Frame [.pg] s (s.countC d p n) := frame_upd_pg s _
theorem frame_setBad (l : List Nat) (s : State) (d : Nat) :
    Frame [.pg] s (l.foldl (fun s p => s.setHdr d p { s.hdr d p with bad := true }) s) := by
  induction l generalizing s with
  | nil => exact Frame.refl s
  | cons a t ih => exact (frame_setHdr s d a _).trans (ih _)
theorem frame_countU (s : State) (d p n : Nat) : Frame [.pg] s (s.countU d p n) := by
  unfold State.countU
  dsimp only
  split
  · exact (frame_setHdr _ _ _ _).trans (frame_setBad _ _ _)
  · exact frame_setHdr _ _ _ _
theorem frame_bump (s : State) (d r n : Nat) : Frame [.pg] s (s.bump d r n) := frame_upd_pg s _
theorem frame_bumpWrap (s : State) (d r n : Nat) : Frame [.pg] s (s.bumpWrap d r n) := frame_upd_pg s _
theorem frame_seqLog (s : State) (x : Src) (c d : Nat) : Frame [.pg] s (s.seqLog x c d) := frame_upd_pg s _
theorem frame_stkLog (s : State) (a b c d e f : Nat) : Frame [.pg] s (s.stkLog a b c d e f) := frame_upd_pg s _
theorem frame_colLog (s : State) (a b c d e f g : Nat) : Frame [.pg] s (s.colLog a b c d e f g) := frame_upd_pg s _
theorem frame_spdLog (s : State) (a b c d e f g : Nat) : Frame [.pg] s (s.spdLog a b c d e f g) := frame_upd_pg s _
theorem frame_hbmLog (s : State) (a b c d e f g h i : Nat) : Frame [.pg] s (s.hbmLog a b c d e f g h i) := frame_upd_pg s _
theorem frame_pltLog (s : State) (a b c : Nat) (v : W32) : Frame [.pg] s (s.pltLog a b c v) := frame_upd_pg s _
theorem frame_kdlLog (s : State) (a b c d e f g : Nat) : Frame [.pg] s (s.kdlLog a b c d e f g) := frame_upd_pg s _
theorem frame_hthLog (s : State) (a b c d e f g h i : Nat) : Frame [.pg, .free] s (s.hthLog a b c d e f g h i) :=
  ((frame_upd_free s _).mono (by simp)).trans ((frame_logErr _ _ _ _).mono (by simp))
theorem frame_setJob (s : State) (b : Nat) (v : Job) : Frame [.sw] s (s.setJob b v) := frame_upd_sw s _
theorem frame_taint (s : State) (b : Nat) : Frame [.sw] s (s.taint b) := frame_upd_sw s _
theorem frame_taintCtx (s : State) (c : Nat) : Frame [.sw] s (s.taintCtx c) := by
  unfold State.taintCtx
  split
  · exact frame_taint _ _
  · exact Frame.refl s
theorem frame_setSeq (s : State) (a b : Nat) (v : Seq) : Frame [.sq] s (s.setSeq a b v) := frame_upd_sq s _
theorem frame_setCtx (s : State) (c : Nat) (v : Ctx) : Frame [.cx] s (s.setCtx c v) := frame_upd_cx s _
theorem frame_taintSeq (s : State) (a b c : Nat) : Frame [.sw, .sq] s (s.taintSeq a b c) := by
  unfold State.taintSeq
  split
  · exact (frame_taint _ _).mono (by simp)
  · split
    · exact (frame_setSeq _ _ _ _).mono (by simp)
    · exact Frame.refl s

theorem frame_setStk (s : State) (a : Nat) (v : Stoker) : Frame [.cx] s (s.setStk a v) := frame_upd_cx s _
/-- Waking a stove touches nothing but its stoker (R255). -/
theorem frame_wakeStove (s : State) (st : Nat) : Frame [.cx] s (s.wakeStove st) := by
  unfold State.wakeStove
  split
  · exact Frame.refl s
  · exact frame_setStk s _ _
/-- What a semaphore post can touch (R86). -/
theorem frame_semPost (s : State) (x : Src) (k n : Nat) : Frame [.pg, .out, .cx, .sw, .sq] s (s.semPost x k n) := by
  unfold State.semPost
  dsimp only
  split
  · exact (((((frame_wakeStove s _).trans (frame_setCtx _ _ _)).mono (by simp)).trans
      ((frame_seqLog _ _ _ _).mono (by simp))).trans
      ((frame_raise _ _ _ _).mono (by simp))).trans ((frame_taintSeq _ _ _ _).mono (by simp))
  · exact ((frame_wakeStove s _).trans (frame_setCtx _ _ _)).mono (by simp)
theorem frame_postOpt (s : State) (x : Src) (o : Option Nat) : Frame [.pg, .out, .cx, .sw, .sq] s (s.postOpt x o) := by
  cases o with
  | none => exact Frame.refl s
  | some k => exact frame_semPost s x k 1

-- Parts by number

theorem State.ctx_setCtx (s : State) (c d : Nat) (v : Ctx) : (s.setCtx c v).ctx d = if d = c then v else s.ctx d := by
  unfold State.ctx State.setCtx
  exact tabGet_tabSet _ _ _ _ _
@[simp] theorem State.ctx_setCtx_same (s : State) (c : Nat) (v : Ctx) : (s.setCtx c v).ctx c = v := by simp [State.ctx_setCtx]
theorem State.seq_setSeq (s : State) (a b c d : Nat) (v : Seq) :
    (s.setSeq a b v).seq c d = if 64 * c + d = 64 * a + b then v else s.seq c d := by
  unfold State.seq State.setSeq
  exact tabGet_tabSet _ _ _ _ _
@[simp] theorem State.seq_setSeq_same (s : State) (a b : Nat) (v : Seq) : (s.setSeq a b v).seq a b = v := by
  simp [State.seq_setSeq]
theorem State.slot_setSlot (s : State) (a b c d : Nat) (v : PSlot) :
    (s.setSlot a b v).slot c d = if 32 * c + d = 32 * a + b then v else s.slot c d := by
  unfold State.slot State.setSlot
  exact tabGet_tabSet _ _ _ _ _
@[simp] theorem State.slot_setSlot_same (s : State) (a b : Nat) (v : PSlot) : (s.setSlot a b v).slot a b = v := by
  simp [State.slot_setSlot]
@[simp] theorem State.gate_setGate_same (s : State) (a : Nat) (v : Gate) : (s.setGate a v).gate a = v := by
  unfold State.gate State.setGate
  exact tabGet_tabSet_same _ _ _ _
@[simp] theorem State.lift_setLift_same (s : State) (a b : Nat) (v : Lift) : (s.setLift a b v).lift a b = v := by
  unfold State.lift State.setLift
  exact tabGet_tabSet_same _ _ _ _
@[simp] theorem State.arr_setArr_same (s : State) (a b : Nat) (v : Arr) : (s.setArr a b v).arr a b = v := by
  unfold State.arr State.setArr
  exact tabGet_tabSet_same _ _ _ _
@[simp] theorem State.handle_setHandle_same (s : State) (a b : Nat) (v : Handle) : (s.setHandle a b v).handle a b = v := by
  unfold State.handle State.setHandle
  exact tabGet_tabSet_same _ _ _ _
@[simp] theorem State.rb_setRb_same (s : State) (b : Nat) (v : Rb) : (s.setRb b v).rb b = v := by
  unfold State.rb State.setRb
  exact tabGet_tabSet_same _ _ _ _
@[simp] theorem State.hop_setHop_same (s : State) (a b : Nat) (v : Hop) : (s.setHop a b v).hop a b = v := by
  unfold State.hop State.setHop
  exact tabGet_tabSet_same _ _ _ _
@[simp] theorem State.job_setJob_same (s : State) (b : Nat) (v : Job) : (s.setJob b v).job b = v := by
  unfold State.job State.setJob
  exact tabGet_tabSet_same _ _ _ _
@[simp] theorem State.ring_setRing_same (s : State) (c : Nat) (v : Ring) : (s.setRing c v).ring c = v := by
  unfold State.ring State.setRing
  exact tabGet_tabSet_same _ _ _ _
@[simp] theorem State.port_setPort_same (s : State) (p : Nat) (v : Port) : (s.setPort p v).port p = v := by
  unfold State.port State.setPort
  exact tabGet_tabSet_same _ _ _ _
@[simp] theorem State.cjob_setCjob_same (s : State) (b : Nat) (v : ColJob) : (s.setCjob b v).cjob b = v := by
  unfold State.cjob State.setCjob
  exact tabGet_tabSet_same _ _ _ _
@[simp] theorem State.stk_setStk_same (s : State) (a : Nat) (v : Stoker) : (s.setStk a v).stk a = v := by
  unfold State.stk State.setStk
  exact tabGet_tabSet_same _ _ _ _
@[simp] theorem State.damper_setDamper_same (s : State) (a b : Nat) (v : Damper) : (s.setDamper a b v).damper a b = v := by
  unfold State.damper State.setDamper
  exact tabGet_tabSet_same _ _ _ _
@[simp] theorem State.suspect_setSuspect_same (s : State) (a b : Nat) (v : Option Suspect) :
    (s.setSuspect a b v).suspect a b = v := by
  unfold State.suspect State.setSuspect
  exact tabGet_tabSet_same _ _ _ _
@[simp] theorem State.pte_setPte_same (s : State) (a b : Nat) (v : Pte) : (s.setPte a b v).pte a b = v := by
  unfold State.pte State.setPte
  exact tabGet_tabSet_same _ _ _ _

-- The guards of register writes

/-- A page that takes a write lets it go on; a write to an STK page has brought the module out of Cold (R256). -/
theorem pageGuard_true {s : State} {ag : Agent} {die page : Nat} {v : W32} (h : s.takes ag die page v) :
    s.pageGuard ag die page v = (if pageType die page = 0x0B then s.leaveCold else s, true) := by
  unfold State.takes at h
  unfold State.pageGuard at *
  dsimp only at *
  generalize (if pageType die page = 0x0B then s.leaveCold else s) = t at *
  split at h
  · simp at h
  · split at h
    · simp at h
    · split at h
      · simp at h
      · split at h
        · simp at h
        · split at h
          · simp at h
          · simp_all
/-- A register that accepts a write lets it go on. -/
theorem regGuard_true {s : State} {ag : Agent} {die page : Nat} {v : W32} (h : s.accepts ag die page v) :
    s.regGuard ag die page v = (if pageType die page = 0x0B then s.leaveCold else s, true) := by
  unfold State.accepts at h
  unfold State.regGuard at *
  split at h
  · simp at h
  · rename_i t hg
    have ht : s.takes ag die page v := by unfold State.takes; rw [hg]
    rw [pageGuard_true ht] at hg
    generalize (if pageType die page = 0x0B then s.leaveCold else s) = w at *
    obtain ⟨rfl⟩ : w = t := (Prod.mk.inj hg).1
    split at h
    · simp at h
    · rename_i h1
      simp [h1]

-- Memory (R225)

theorem mrd_mwr (s : State) (a b : Nat) (v : Byte) :
    (s.mwr a v).mrd b = if s.writable a ∧ b = a then v else s.mrd b := by
  unfold State.mwr
  split
  · rename_i h
    have m : s.inMem a = true := by
      unfold State.writable at h
      simp only [Bool.and_eq_true] at h
      exact h.1
    have e : ∀ x, ({ s with mem := tabSet (memDef s.seeds) s.mem a v } : State).inMem x = s.inMem x := fun _ => rfl
    unfold State.mrd
    rw [e]
    show (if s.inMem b = true then tabGet (memDef s.seeds) (tabSet (memDef s.seeds) s.mem a v) b else 0) = _
    rw [tabGet_tabSet]
    by_cases hb : b = a
    · subst hb; simp [h, m]
    · simp [hb]
  · rename_i h
    simp [h]
theorem frame_mwr (s : State) (a : Nat) (v : Byte) : Frame [.mem] s (s.mwr a v) := by
  unfold State.mwr
  split
  · exact frame_upd_mem s _
  · exact Frame.refl s
theorem frame_mwrN (s : State) (a : Nat) (l : List Byte) : Frame [.mem] s (s.mwrN a l) := by
  induction l generalizing s a with
  | nil => exact Frame.refl s
  | cons b t ih => exact (frame_mwr s a b).trans (ih _ _)
/-- A write at a virtual address touches memory, or the writes that wait for the end of a page's move (R235). -/
theorem frame_vwr (s : State) (c va : Nat) (v : Byte) : Frame [.mem, .tr] s (s.vwr c va v) := by
  unfold State.vwr
  split
  · split
    · exact Frame.refl s
    · split
      · exact (frame_upd_tr s _).mono (by simp)
      · exact (frame_mwr _ _ _).mono (by simp)
  · exact Frame.refl s
theorem frame_vwrN (s : State) (c va : Nat) (l : List Byte) : Frame [.mem, .tr] s (s.vwrN c va l) := by
  induction l generalizing s va with
  | nil => exact Frame.refl s
  | cons b t ih => exact (frame_vwr s c va b).trans (ih _ _)
theorem frame_putBytes (s : State) (c : Nat) (v : View) (off : Nat) (l : List Byte) :
    Frame [.mem, .tr] s (s.putBytes c v off l) := by
  induction l generalizing s off with
  | nil => exact Frame.refl s
  | cons b t ih =>
    refine Frame.trans (b := if v.place = .virt then s.vwr c (v.addr + off) b else s.mwr (s.byteAddr c v off) b) ?_ (ih _ _)
    split
    · exact frame_vwr s _ _ b
    · exact (frame_mwr s _ b).mono (by simp)

/-- Every memory operation keeps the canonical form. -/
theorem memWf_mwr {s : State} (h : MemWf s) (a : Nat) (v : Byte) : MemWf (s.mwr a v) := by
  unfold State.mwr
  split
  · exact tabWf_tabSet (memDef s.seeds) s.mem a v h
  · exact h
theorem memWf_mwrN {s : State} (h : MemWf s) (a : Nat) (l : List Byte) : MemWf (s.mwrN a l) := by
  induction l generalizing s a with
  | nil => exact h
  | cons b t ih => exact ih (memWf_mwr h a b) _
theorem memWf_vwr {s : State} (h : MemWf s) (c va : Nat) (v : Byte) : MemWf (s.vwr c va v) := by
  unfold State.vwr
  split
  · split
    · exact h
    · split
      · exact h
      · exact memWf_mwr h _ _
  · exact h
theorem memWf_vwrN {s : State} (h : MemWf s) (c va : Nat) (l : List Byte) : MemWf (s.vwrN c va l) := by
  induction l generalizing s va with
  | nil => exact h
  | cons b t ih => exact ih (memWf_vwr h c va b) _
theorem memWf_putBytes {s : State} (h : MemWf s) (c : Nat) (v : View) (off : Nat) (l : List Byte) :
    MemWf (s.putBytes c v off l) := by
  induction l generalizing s off with
  | nil => exact h
  | cons b t ih =>
    refine ih (s := if v.place = .virt then s.vwr c (v.addr + off) b else s.mwr (s.byteAddr c v off) b) ?_ _
    split
    · exact memWf_vwr h _ _ b
    · exact memWf_mwr h _ b
/-- What leaves memory and the seeds of its undefined contents alone keeps the canonical form. -/
theorem Frame.memWf {l : List Part} {s t : State} (f : Frame l s t) (h : MemWf s) (n : .mem ∉ l) (m : t.seeds = s.seeds) :
    MemWf t := by
  unfold MemWf
  rw [f.mem n, m]
  exact h

end Sys2Proof.Machine
end

