-- ==== Sys2Proof/Laws/Issue.lean ====
section
/-! SUPPORT. The issue of an instruction: where nothing stands in its way, what it leaves. -/

namespace Sys2Proof.Machine

/-- Fetching leaves everything but a count of the group page alone. -/
theorem frame_fetched (s : State) (i : Iss) : Frame [.pg] s (s.fetched i) := by
  unfold State.fetched
  split
  · exact frame_countC _ _ _ _
  · exact Frame.refl s
@[simp] theorem State.rd_fetched (s : State) (i : Iss) (d r : Nat) : (s.fetched i).rd d r = s.rd d r := by
  unfold State.fetched
  split <;> rfl
@[simp] theorem State.seq_fetched (s : State) (i : Iss) (a b : Nat) : (s.fetched i).seq a b = s.seq a b := by
  unfold State.seq; rw [(frame_fetched s i).sq (by simp)]
@[simp] theorem State.ctx_fetched (s : State) (i : Iss) (c : Nat) : (s.fetched i).ctx c = s.ctx c := by
  unfold State.ctx; rw [(frame_fetched s i).cx (by simp)]
@[simp] theorem State.lift_fetched (s : State) (i : Iss) (a b : Nat) : (s.fetched i).lift a b = s.lift a b := by
  unfold State.lift; rw [(frame_fetched s i).sp (by simp)]
@[simp] theorem State.chairWaits_fetched (s : State) (i : Iss) (c : Nat) (o : Opd) :
    (s.fetched i).chairWaits c o = s.chairWaits c o := by
  unfold State.chairWaits State.chairOf State.findLift State.liftCfg
  simp

/-- What issuing can touch: the context's semaphores and the sequencer. -/
theorem frame_issued (s : State) (i : Iss) (x : Src) : Frame [.cx, .sq] s (s.issued i x) := by
  unfold State.issued
  dsimp only
  refine Frame.trans (b := if i.waitEn = true then _ else _) ?_ (Frame.trans (Frame.mono (frame_upd_sq _ _) (by simp))
    (Frame.mono (frame_setSeq _ _ _ _) (by simp)))
  split
  · exact (frame_setCtx _ _ _).mono (by simp)
  · exact Frame.refl s

/-- An instruction that can issue does so. -/
theorem begin_issues {s : State} {i : Iss} {c : Nat} {ops : List Opd} (h : s.canIssue i c ops) (op : Nat) :
    s.begin i op ops = ((s.fetched i).issued i (s.srcOf i op c), some (s.srcOf i op c)) := by
  obtain ⟨h1, h2, h3, h4, h5, h6, hl, h7, h8, h9⟩ := h
  unfold State.begin
  dsimp only
  rw [h1]
  have hw : (i.waitEn && !((s.fetched i).ctx c).semReady i.waitSem i.sq) = false := by
    cases hb : i.waitEn
    · rfl
    · simp [h8 hb]
  have hc : List.findSome? ((s.fetched i).chairWaits c) ops = none := by
    rw [← h9]; congr 1; funext o; simp
  simp only [h2, h3, h4, h5, h6, hl, h7, hw, hc, and_self, decide_true, Bool.not_true, Bool.or_self, Option.isSome_none,
    Bool.false_eq_true, if_false]

/-- The sequencer after an issue (R82, R84). -/
theorem seq_issued (s : State) (i : Iss) (x : Src) :
    (s.issued i x).seq i.st i.sq =
      { s.seq i.st i.sq with
        state := 1, waitKind := 0, waitNum := 0, waited := 0, issued := ((s.seq i.st i.sq).issued + if i.opx then 2 else 1) % 2 ^ 32,
        pc := (loopNext (s.seq i.st i.sq).pc (x.pc + 32) (s.seq i.st i.sq).loops).1,
        loops := (loopNext (s.seq i.st i.sq).pc (x.pc + 32) (s.seq i.st i.sq).loops).2 } := by
  unfold State.issued
  dsimp only
  rw [State.seq_setSeq_same]

end Sys2Proof.Machine
end

