-- ==== Sys2Proof/WellFormed.lean ====
section
/-! DEFINITION. Which commands are well formed: every operand inside the range that its field or its numbering has. A check
on the command alone; what a state allows is the meaning's concern. -/

namespace Sys2Proof

/-- A stove number (R1). -/
def okStove (n : Nat) : Bool := decide (n < 4)
/-- A die number: four stoves, two chimneys, the host die, the kindler (R335). -/
def okDie (n : Nat) : Bool := decide (n < 8)
/-- A sequencer of a stove (R68). -/
def okSeq (n : Nat) : Bool := decide (n < 64)
/-- A semaphore of a context (R86). -/
def okSem (n : Nat) : Bool := decide (n < 32)
/-- A context ID (R5). -/
def okCtx (n : Nat) : Bool := decide (n < 4096)
/-- A job slot (R245). -/
def okJob (n : Nat) : Bool := decide (n < 8)
/-- A logical module ID (R5). -/
def okLid (n : Nat) : Bool := decide (n < 4096)
/-- A 16-bit field. -/
def ok16 (n : Nat) : Bool := decide (n < 65536)
/-- A module address of 48 bits (R225). -/
def okAddr (n : Nat) : Bool := decide (n < 2 ^ 48)
/-- A page number and a word offset within the page (R335). -/
def okReg (page off : Nat) : Bool := decide (page < 4096 ∧ off < 4096 ∧ off % 4 = 0)
/-- A scalar register (R81). -/
def okSreg (n : Nat) : Bool := decide (n < 64)
/-- A program slot of a stove (R68). -/
def okSlot (n : Nat) : Bool := decide (n < 32)
/-- A hardware lift (R108). -/
def okLift (n : Nat) : Bool := decide (n < 128)
/-- An array of a stove (R50). -/
def okArray (n : Nat) : Bool := decide (n < 48)
/-- A module port (R281). -/
def okPort (n : Nat) : Bool := decide (n < 32)
/-- A UCIe link end and its module (R262). -/
def okLink (die link m : Nat) : Bool := decide (die < 8 ∧ link < 16 ∧ m < 16)

/-- The context of an agent (R336). -/
def Agent.ok : Agent → Bool
  | .service c | .other c => okCtx c
  | _ => true

/-- The fields of an operand specifier (R74): addresses and strides are multiples of 16 bytes within their fields. -/
def Opd.ok : Opd → Bool
  | .none => true
  | .direct a s _ _ z _ => decide (a % 16 = 0 ∧ a < 2 ^ 29 ∧ s % 16 = 0 ∧ s < 2 ^ 24 ∧ z < 16)
  | .indirect r s _ _ z _ => decide (r < 64 ∧ s % 16 = 0 ∧ s < 2 ^ 24 ∧ z < 16)
  | .chair l _ _ _ z _ => decide (l < 32 ∧ z < 16)
  | .pool i => decide (i < 2 ^ 21)
  | .mem r => decide (r < 63)

/-- The header fields of an instruction (R72). -/
def Iss.ok (i : Iss) : Bool :=
  okStove i.st && okSeq i.sq && decide (i.offset < 4096) && okSem i.waitSem && okSem i.postSem

/-- The fields of a product (R80). -/
def ProdOps.ok (p : ProdOps) : Bool :=
  p.a.ok && p.b.ok && p.c.ok && p.d.ok && p.e.ok && p.f.ok && decide (p.red < 2 ^ 17 ∧ p.func < 8) &&
    decide (p.gs = 32 ∨ p.gs = 64 ∨ p.gs = 128)

/-- The fields of a ROWOP (R130). -/
def RowOps.ok (r : RowOps) : Bool :=
  r.a.ok && r.b.ok && r.c.ok && r.d.ok && r.e.ok && decide (r.handle < 4096 ∧ r.rowOff < 65536 ∧ r.e0reg < 64)

/-- The fields of a VOP (R126). -/
def VopOps.ok (v : VopOps) : Bool :=
  v.a.ok && v.b.ok && v.c.ok && v.d.ok && v.e.ok && v.f.ok &&
    decide (v.breg < 64 ∧ v.rbreg < 64 ∧ v.cbreg < 64 ∧ v.engine < 12)

/-- The fields of a HATOM (R152). -/
def HatomOps.ok (h : HatomOps) : Bool := h.a.ok && h.b.ok && decide (h.ra < 64 ∧ h.rb < 64 ∧ h.rc < 64)

/-- The fields of a COLL (R295). -/
def CollOps.ok (c : CollOps) : Bool := c.a.ok && c.b.ok && decide (c.piste < 16 ∧ c.reg < 64)

/-- The header of a fabric message (R288). -/
def MsgHdr.ok (m : MsgHdr) : Bool :=
  okLid m.dst && okLid m.src && okCtx m.ctx && decide (m.srcRink < 256 ∧ m.srcSeat < 16 ∧ m.jtag < 65536 ∧ m.step < 2 ^ 48 ∧ m.cseq < 2 ^ 32 ∧
    m.via < 2 ^ 14 ∧ m.len < 2 ^ 24 ∧ m.arg < 2 ^ 56)

/-- The header of a link flit (R285). -/
def FlitHdr.ok (h : FlitHdr) : Bool :=
  decide (h.kind < 4 ∧ h.vc < 16 ∧ h.seq < 4096 ∧ h.ack < 4096 ∧ h.cvc < 16 ∧ h.credits < 2048 ∧ h.len ≤ 304)

/-- A key: a 12-bit table number, a row below 2^40 (R5). -/
def Key.ok (k : Key) : Bool := decide (k.table < 4096 ∧ k.row < 2 ^ 40)

/-- A stoker record's fields within their bits (R258). -/
def StkRec.ok (r : StkRec) : Bool :=
  okCtx r.ctx && decide (r.kind < 4 ∧ r.slot < 8 ∧ r.prio < 8 ∧ r.groups < 16 ∧ r.granules < 512 ∧ r.seqs < 128) &&
    decide (r.weightWays < 16 ∧ r.atomicWays < 16 ∧ r.redWays < 32 ∧ r.mergeWays < 32 ∧ r.fabShare < 256) &&
    decide (r.hbmQuota < 2 ^ 19 ∧ r.coldQuota < 2 ^ 21 ∧ r.va < 2 ^ 48 ∧ r.pages < 2 ^ 19 ∧ r.hint < 4 ∧ r.stove < 4) &&
    decide (r.seq < 64 ∧ r.pslot < 32 ∧ r.entry < 8 ∧ r.hintUs < 2 ^ 24) && okCtx r.aspace && okSem r.lendSem && okSem r.sem

/-- The stove of a controller, or its chimney (R239, R240). -/
def Tier.ok : Tier → Bool
  | .hbm d => okStove d
  | .cold d => decide (d < 2)

/-- Well-formed commands. -/
def Instr.wf : Instr → Bool
  | .powerOn | .journalEraseDone | .preMate | .presentNBreak | .standinDone | .ntTimeout => true
  | .modResetN n => decide (n ≤ 100)
  | .pltModReset ag die _ => ag.ok && okDie die
  | .kindlerWatchdog w => decide (w.sub < 256)
  | .pllUnlock die => okDie die
  | .thermalTrip die _ _ => okDie die
  | .tripCooldownRestart _ _ => true
  | .domainRelease _ => true
  | .kindlingStep _ detail straps => decide (detail < 2 ^ 32 ∧ straps < 65536)
  | .railFault rail => decide (rail < 65536)
  | .inputLockout _ => true
  | .mainSwitchClose _ _ => true
  | .softReset ag die page => ag.ok && okDie die && okReg page 0
  | .srstDone die page => okDie die && okReg page 0
  | .firmwareUpdate type _ _ => decide (type < 256)
  | .clearStep ag | .advanceSvn ag | .preferCopy ag | .attest ag | .setRrstKey ag | .jnlAppend ag | .jnlRead ag
  | .setHostpart ag | .haltRelease ag | .revokeKey ag => ag.ok
  | .getVersion _ | .getCapabilities _ | .negotiateAlgorithms _ | .getDigests _ => true
  | .getCertificate slot off len => decide (slot < 8 ∧ off < 65536 ∧ len < 65536)
  | .challenge nonce => decide (nonce.length = 32)
  | .getMeasurements index => decide (index < 256)
  | .resetReq _ _ => true
  | .registerWrite ag die page off _ _ | .loReadLatch ag die page off | .hiReadLatched ag die page off =>
    ag.ok && okDie die && okReg page off
  | .evtStatusClear ag die page _ _ | .evtSet ag die page _ | .evtEnableWrite ag die page _
  | .evtIrqEnWrite ag die page _ | .blockEnableClear ag die page | .blockEnableSet ag die page | .errPop ag die page
  | .errCountClear ag die page _ | .lockCfg ag die page | .lockEvt ag die page => ag.ok && okDie die && okReg page 0
  | .sourceUnmask ag die src _ => ag.ok && okDie die && decide (src < 256)
  | .holeAccess addr _ => okAddr addr
  | .seqLoad ag st _ | .seqCommit ag st _ => ag.ok && okStove st
  | .gateDone st _ => okStove st
  | .slotTableWrite ag st slot _ _ => ag.ok && okStove st && okSlot slot
  | .nop i | .endI i | .stepEnd i => i.ok
  | .marker i _ _ _ => i.ok
  | .markerUnitRecord ctx _ source _ => okCtx ctx && decide (1 ≤ source ∧ source < 8)
  | .endStop st sq => okStove st && okSeq sq
  | .br i cond a b _ => i.ok && decide (cond < 7) && okSreg a && okSreg b
  | .loop i n _ => i.ok && okSreg n
  | .sli i d _ => i.ok && okSreg d
  | .salu i fn d a b => i.ok && decide (fn < 13) && okSreg d && okSreg a && okSreg b
  | .sld i d a => i.ok && okSreg d && a.ok
  | .sst i r a => i.ok && okSreg r && a.ok
  | .semopPost i sem value | .semopSet i sem value => i.ok && okSem sem && ok16 value
  | .matmul i p | .matmulT i p | .matmulWg i p => i.ok && p.ok
  | .reduceToScalar i op d shift _ a => i.ok && decide (op < 7 ∧ -64 ≤ shift ∧ shift < 64) && okSreg d && a.ok
  | .copy i a b | .liftFill i a b => i.ok && a.ok && b.ok
  | .liftRelease i a => i.ok && a.ok
  | .vop i v => i.ok && v.ok
  | .lnFwd i r | .lnBwd i r | .rmsFwd i r | .rmsBwd i r | .smaxFwd i r | .smaxBwd i r | .lsmaxFwd i r | .lsmaxBwd i r
  | .chunk i r | .finish i r | .resetRows i r => i.ok && r.ok
  | .embLookup i features a b c => i.ok && decide (features < 65536) && a.ok && b.ok && c.ok
  | .embGrad i features a c => i.ok && decide (features < 65536) && a.ok && c.ok
  | .embGradFragments _ | .instructionComplete _ => true
  | .addN16 i h | .addB16 i h | .maxN16 i h | .minN16 i h | .cas32 i h | .inc32 i h => i.ok && h.ok
  | .rbClose i sem => i.ok && okSem sem
  | .allReduce i c | .reduceScatter i c | .allGather i c | .allToAll i c | .broadcast i c | .flagOr i c | .maxColl i c
  | .put i c | .get i c | .piste i c => i.ok && c.ok
  | .arrayBeat st arr _ => okStove st && okArray arr
  | .beatReexec st failed sub _ => okStove st && okArray failed && okArray sub
  | .treePass _ _ => true
  | .clearMismatchCnt ag st arr | .markRetest ag st arr => ag.ok && okStove st && okArray arr
  | .scrubRead st slice _ syndrome => okStove st && decide (slice < 48 ∧ syndrome < 256)
  | .hostScratchpadWrite addr _ => okAddr addr
  | .liftEnable ag st k _ | .liftDisable ag st k _ => ag.ok && okStove st && okLift k
  | .liftReset ag st k => ag.ok && okStove st && okLift k
  | .chairFillComplete st k chair _ => okStove st && okLift k && decide (chair < 16)
  | .handleWrite ag st | .handleRead ag st | .handleClear ag st => ag.ok && okStove st
  | .rbAddition _ _ => true
  | .rbCloseCounted slot ctx => okJob slot && okCtx ctx
  | .rbWalk st slot => okStove st && okJob slot
  | .rbEnable ag st slot _ | .rbDisable ag st slot _ => ag.ok && okStove st && okJob slot
  | .atomAddApply st w => okStove st && decide (w < 16)
  | .atomTimeout st w _ => okStove st && decide (w < 16)
  | .atomicWindowBind ag st w | .atomicWindowUnbind ag st w | .atomicWindowReset ag st w =>
    ag.ok && okStove st && decide (w < 16)
  | .hthFlush ag st => ag.ok && okStove st
  | .hopperRingEnable ag st h _ => ag.ok && okStove st && okJob h
  | .hopperDoorbell ag st h tail => ag.ok && okStove st && okJob h && decide (tail < 2 ^ 32)
  | .announcementReread st h | .hopperBlockWrite st h _ => okStove st && okJob h
  | .blockCoverage st | .fragment st => okStove st
  | .lookup st m k _ _ req _ => okStove st && m.ok && k.ok && okStove req
  | .row st m k _ | .redirect st m k _ | .replica st m k _ _ => okStove st && m.ok && k.ok
  | .invalid st m k r => okStove st && m.ok && k.ok && decide (r < 256)
  | .partialI st m p => okStove st && m.ok && p.val.key.ok
  | .emberAdmit st slot k => okStove st && okJob slot && k.ok
  | .embJobEnable ag st slot _ | .embJobDisable ag st slot _ => ag.ok && okStove st && okJob slot
  | .step ctx | .stepWaitResume ctx => okCtx ctx
  | .verdictStart slot | .verdictTimeout slot | .commitVoteJoin slot | .voteResult slot | .voteTimeout slot => okJob slot
  | .verdictDone slot e unit =>
    okJob slot && (e.rows ++ e.merge).all (fun p => okStove p.1 && p.2.ok) && unit.all fun p => okStove p.1
  | .sweepCommit slot e => okJob slot && decide (e.audited.length ≤ 4) && e.audit.all fun p => okStove p.1 && p.2.ok
  | .verdict m _ => m.ok
  | .ship st m s => okStove st && m.ok && decide (s.table < 4096 ∧ s.row < 2 ^ 40)
  | .ack st m _ => okStove st && m.ok
  | .digest st m table number _ _ => okStove st && m.ok && Key.ok ⟨table, number⟩
  | .vote m _ _ => m.ok
  | .swpJobEnable ag st slot _ | .swpJobDisable ag st slot _ | .swpDmpInit ag st slot _ =>
    ag.ok && okStove st && okJob slot
  | .suspectClear ag st n _ => ag.ok && okStove st && decide (n < 16)
  | .suspLostClear ag st _ => ag.ok && okStove st
  | .tmDecay st => okStove st
  | .pageMoveComplete _ _ => true
  | .patrolScrub t unit _ _ => t.ok && decide (unit < 160)
  | .accessLate t ctx cause _ => t.ok && okCtx ctx && decide (cause < 8)
  | .requestTimeout t part ctx addr cls => t.ok && decide (part < 160 ∧ cls < 8) && okCtx ctx && okAddr addr
  | .create ag st r | .lease ag st r | .start ag st r | .stop ag st r | .resume ag st r | .release ag st r
  | .destroy ag st r | .map ag st r | .unmap ag st r | .hint ag st r => ag.ok && okStove st && r.ok
  | .contextBind ctx => okCtx ctx.val
  | .rebindComplete ctx _ => okCtx ctx
  | .loanCut c | .borrowerStopped c => okCtx c
  | .powerExit st | .thermalHold st | .thermalGateEnd st => okStove st
  | .powerStateEnter st p => okStove st && decide (p.state < 4 ∧ p.waited.length ≤ 64)
  | .wake st _ => okStove st
  | .coldEnter ag => ag.ok
  | .coldExit source => decide (source < 34)
  | .throttleLevelChange st temp power => okStove st && decide (temp < 256 ∧ power < 4096)
  | .ucieFlitRetry die link r => okLink die link r.m
  | .linkRetrain die link m _ _ => okLink die link m
  | .retrain ag die link => ag.ok && okLink die link 0
  | .badPacket die link _ => okLink die link 0
  | .ringWrite ag st | .ringRead ag st => ag.ok && okStove st
  | .doorbell ag ctx _ => ag.ok && okCtx ctx
  | .descriptorFetch ctx | .descriptorReread ctx | .run ctx | .inlineI ⟨ctx, _⟩ | .post ctx | .note ctx
  | .completionRecordAck ctx | .stopNowComplete ctx => okCtx ctx
  | .flashMailboxStore ag st _ => ag.ok && okStove st
  | .stopNow st | .lossScaleOverride st | .standinDirective st => okStove st
  | .peerAccess port addr _ _ => okPort port && okAddr addr
  | .portTraining p _ | .portDown p => okPort p
  | .portRetrain ag p => ag.ok && okPort p
  | .flit p h b => okPort p && h.ok && decide (b.payload.length = 304 ∧ b.crc < 2 ^ 64)
  | .getRequest m addr q => m.ok && (q.sweep.toList.all fun x => okStove x.st && x.key.ok) && okAddr addr && decide (q.len < 2 ^ 32)
  | .putRequest m addr _ => m.ok && okAddr addr
  | .data m _ _ => m.ok
  | .unreachable m st _ _ => m.ok && okStove st
  | .cdata m op _ _ _ _ _ => m.ok && decide (op < 16)
  | .collectiveTimeout slot cseq => okJob slot && decide (cseq < 2 ^ 32)
  | .abort m => m.ok
  | .nameUpdate lid rink seat _ oldRink oldSeat _ =>
    okLid lid && decide (rink < 256 ∧ oldRink < 256 ∧ seat < 16 ∧ oldSeat < 16)
  | .nameAck lid rink seat _ _ => okLid lid && decide (rink < 256 ∧ seat < 16)
  | .seatState rink seat state lid => okLid lid && decide (rink < 256 ∧ seat < 16 ∧ state < 8)
  | .linkState rink rink2 _ => decide (rink < 256 ∧ rink2 < 256)
  | .pisteLoad ag _ => ag.ok
  | .pisteSwitch slot => okJob slot
  | .drain ag => ag.ok
  | .colJobEnable ag slot _ | .colJobDisable ag slot _ => ag.ok && okJob slot
  | .tempHigh die temp => okDie die && decide (temp < 256)
  | .berHigh p _ => okPort p

end Sys2Proof
end

