-- ==== Sys2Proof/Tests/Slice0.lean ====
section
/-! SUPPORT. Tests: for every statement, states and operands that meet the hypotheses of each of its clauses; terms that each
check of well-formedness refuses; tables and worked examples of the spec. -/

namespace Sys2Proof.Tests

open Sys2Proof.Machine
set_option Elab.async false

-- States

/-- The machine after reset, but that every domain has been released. -/
def z : State := { State.reset with kd := { KdlSt.reset with vsb := true, state := 2, released := 8, sensed := true, inputGood := true } }
/-- A powered module whose kindler runs and has released every domain. -/
def on : State := { z with kd := { z.kd with inputGood := true, mainSwitch := true, state := 2, released := 8, present := true, pre := true, vsb := true } }
/-- A lease of one array group, one granule and two sequencers. -/
def lease1 : Lease := { groups := 1, granules := 1, seqs := 2, hbmQuota := 16, coldQuota := 16 }
/-- A job context that runs on stove 0 in slot 0. -/
def job1 : Ctx :=
  { valid := true, state := 2, slot := 0, aspace := 1, lease := lease1, isBound := true, bound := lease1, arrays := [0, 1, 2, 3],
    engines := [0], granules := [0], seqs := [0, 1], sems := [(3, 2)] }
/-- Context 1 runs on sequencer 0 of stove 0; sequencer 1 is idle. -/
def run1 : State := (on.setCtx 1 job1).setSeq 0 0 { state := 1, ctx := some 1, pc := 0x400, sregs := [(1, 5)] }
/-- What an instruction of sequencer 0 of stove 0 carries, without a wait or a post. -/
def i0 : Iss := ⟨0, 0, 0, false, 0, false, 0, false, .ok, .ok, 0, 0⟩
/-- Slot 0 of stove 0 belongs to context 1; half A is active with one entry, at 0x400, and half B holds an image with one entry. -/
def prog : State :=
  { run1 with sq := { run1.sq with
      slots := [(0, { map := 0x00010100, owner := 1, stA := 4, stB := 2 })]
      store := [(0x15, 1), (0x19, 4), (0x10015, 1), (0x10019, 5)] } }
/-- A 64-byte descriptor of one plane of a tensor: its place, address, format code, class, grain code, rows, columns and stride. -/
def descOf (place addr fmt cls grain rows cols stride : Nat) : List Byte :=
  leBytes 6 addr ++ leBytes 2 place ++ leBytes 4 (2 ^ 24 * fmt + 2 ^ 28 * cls) ++ leBytes 4 (128 + grain) ++ leBytes 4 1 ++
    leBytes 4 1 ++ leBytes 4 rows ++ leBytes 4 cols ++ leBytes 8 0 ++ leBytes 4 rows ++ leBytes 4 cols ++ leBytes 8 cols ++
    leBytes 4 stride ++ leBytes 4 0
/-- Adds descriptors, by rising index, to the program store of stove 0, where operands name them by index. -/
def withDescs (s : State) (l : List (Nat × List Byte)) : State :=
  { s with sq := { s.sq with
      store := s.sq.store ++ (l.flatMap fun d => d.2.zipIdx.map fun b => (64 * d.1 + b.2, b.1)).filter fun p => p.2 != 0 } }
/-- The window of context 1 as a raw N16 operand. -/
def opd (a : Nat) : Opd := .direct a 512 .n16 .none 0 .act

-- Witnesses: for each statement, states and operands that meet the hypotheses of each of its clauses together

theorem test_witness_PageHeader :
    (z.takes .runtime 0 0x10 1 ∧ hasEvents 0x10 = true) ∧
    (z.takes .kindler 5 0xE0 1 ∧ hasEvents 0xE0 = true ∧ Agent.kindler.priv = true ∧ z.lockedEvt .kindler 5 0xE0 = false) ∧
    (z.takes .runtime 3 0xB0 7 ∧ hasEvents 0xB0 = true ∧ z.lockedEvt .runtime 3 0xB0 = false) ∧
    (z.takes .runtime 0 0x10 (if true then 4 else 0) ∧ z.lockedEvt .runtime 0 0x10 = false) ∧
    (let s := z.logErr 0 0x10 ⟨1, 0, 0, 0⟩
     s.takes .runtime 0 0x10 8 ∧ (s.hdr 0 0x10).errs ≠ []) ∧
    (z.takes .runtime 0 0x10 0 ∧ hasErrLog 0x10 = true) ∧
    (z.takes .runtime 0 0x10 1 ∧ Agent.runtime.trusted = true) ∧ (z.takes .runtime 6 0xF0 2 ∧ Agent.runtime.trusted = true) := by
  decide +kernel

theorem test_witness_BlockControl :
    (z.takes .kindler 0 0x40 0 ∧ Agent.kindler.priv = true ∧ neverIdle 0 0x40 = false ∧ z.blockOn 0 0x40 = true ∧
      z.lockedCfg .kindler 0 0x40 = false ∧ z.idle 0 0x40 = true) ∧
    z.takes .runtime 0 0x40 2 ∧
    (z.takes .runtime 0 0x20 1 ∧ (∀ p ∈ blockPages 0 0x20, (z.hdr 0 p).lockCfg = false) ∧ neverIdle 0 0x20 = false ∧
      z.idle 0 0x20 = true) ∧
    ((z.setHdr 0 0x20 { busy := true }).hdr 0 0x20).busy = true := by
  decide +kernel

theorem test_witness_RegisterAccess :
    (z.accepts .runtime 3 0x10 5) ∧
    (z.takes .runtime 0 0x10 5 ∧ (7 : BitVec 4) ≠ 15) ∧
    (let s := z.setHdr 0 0x60 { lockCfg := true }
     s.takes .runtime 0 0x60 5 ∧ s.lockedCfg .runtime 0 0x60 = true ∧ doorbellAt 0 0x60 0x40 = none) ∧
    (reaches .runtime 0 = true ∧ roPair 0 0x20 0x54 = some (0x54 + 4) ∧ (z.hdr 0 0x10).busy = false) ∧
    (let s := z.wr 2 (Reg.UCI_SRC_p_CTRL + 8 * 255) 3
     s.accepts .runtime 2 0xC9 0x40 ∧ bitOf (s.rd 2 (Reg.UCI_SRC_p_CTRL + 8 * 255)).toNat 1 = true ∧
       bitOf (0x40 : W32).toNat 0 = false) ∧
    (z.accepts .runtime 2 0xC9 1 ∧ bitOf (1 : W32).toNat 0 = true) ∧
    (¬ z.inMem 0x050008000000 = true ∧ regBase + 0x08000000 ≤ 0x050008000000 ∧ (z.hdr 0 0x90).errs.length < 4) := by
  decide +kernel

theorem test_witness_ModuleResets :
    (({ on with kd := { on.kd with inputGood := false } } : State).kd.inputGood = false ∧ on.kd.mainSwitch = true) ∧
    (100 ≤ 100 ∧ on.powered = true) ∧ (on.accepts .runtime 6 0xF0 0x4B525354 ∧ on.powered = true) ∧
    (let s : State := { on with kd := { on.kd with state := 0, method := 1 } }
     s.powered = true ∧ s.kd.hard = false ∧ s.kd.state = 0 ∧ 1 ≤ s.kd.method) ∧
    (on.powered = true ∧ 2 ≤ on.kd.released ∧ 6 ≤ 6) := by
  decide +kernel

theorem test_witness_TripsAndPower :
    (on.powered = true ∧ 110 ≤ 110) ∧
    (let s : State := { on with kd := { on.kd with diesOff := true } }
     s.kd.diesOff = true ∧ s.kd.tripHold = false ∧ 59 < 60 ∧ 10000 ≤ 10000) ∧
    (let s : State := { on with kd := { on.kd with diesOff := true, tripHold := true } }
     s.kd.diesOff = true ∧ s.kd.tripHold = true) ∧
    (on.powered = true ∧ on.kd.state ≠ 4 ∧ (on.kd.state = 0 → 5 < on.kd.step)) := by
  decide +kernel

/-- A kindling that waits for release `r`, at step `step`. -/
def waits (step r : Nat) : State := { on with kd := { on.kd with state := 0, step := step, released := r - 1 } }
/-- A kindling with method `m` of instance 0 of a step in progress. -/
def trying (step m : Nat) : State := { on with kd := { on.kd with state := 0, step := step, method := m } }

theorem test_witness_Kindling :
    ((waits 1 1).powered = true ∧ (waits 1 1).kd.state = 0 ∧ (waits 1 1).kd.released = 0) ∧
    (let s := waits 15 8
     s.powered = true ∧ s.kd.state = 0 ∧ s.kd.released = 7 ∧ s.kd.method = 0 ∧ stepRelease s.kd.step = s.kd.released + 1 ∧
       (s.kd.step = 15 → s.kd.noPosition = false) ∧ (s.startMethod s.kd.step 0).2 = some 1) ∧
    (let s : State := { waits 15 8 with kd := { (waits 15 8).kd with noPosition := true } }
     s.powered = true ∧ s.kd.released = 7 ∧ s.kd.noPosition = true ∧ (s.startMethod 16 0).2 = some 1) ∧
    (let s := waits 5 2
     s.powered = true ∧ s.kd.state = 0 ∧ s.kd.released = 1 ∧ s.kd.method = 0 ∧ s.kd.step = 5) ∧
    (let s := waits 9 5
     s.powered = true ∧ s.kd.state = 0 ∧ s.kd.released = 4 ∧ s.kd.method = 0 ∧ s.kd.step = 9) ∧
    (let s := trying 13 1
     s.powered = true ∧ s.kd.method ≠ 0 ∧ 1 ≤ s.kd.step ∧ s.kd.step ≤ 17 ∧ s.kd.inst < stepCount 13 ∧ s.kd.erasing = false ∧
       (s.tryAttempt true).2 = true) ∧
    (let s := trying 3 1
     s.kd.state = 0 ∧ s.kd.method ≠ 0 ∧ s.kd.method < stepMethods s.kd.step ∧ s.kd.inst < stepCount s.kd.step) ∧
    (let s := trying 5 1
     s.powered = true ∧ s.kd.state = 0 ∧ s.kd.method ≠ 0 ∧ stepMethods s.kd.step ≤ s.kd.method ∧ stepHalts s.kd.step = true) ∧
    (let s := trying 17 1
     s.powered = true ∧ stepMethods s.kd.step ≤ s.kd.method ∧ stepHalts s.kd.step = false ∧ s.kd.step ≤ 17 ∧
       s.kd.inst < stepCount s.kd.step) ∧
    (let s : State := { on with kd := { on.kd with erasing := true } }
     s.kd.erasing = true ∧ s.kd.jr.used + (s.kd.buffered.map JRec.size).sum ≤ halfSize) := by
  decide +kernel

/-- The kindler's window holds an argument word. -/
def arg (n : Nat) : State := on.wr 7 Reg.KDL_WIN (w32 n)

theorem test_witness_FirmwareCommands :
    (on.answers = true ∧ has [1, 2, 3, 4, 5] 3 = true ∧ ([1] : List Byte).length ≤ 1024 * maxImage 3 ∧
      (List.replicate 4096 (0 : Byte)).length = 4096) ∧
    on.hasRoom 6 [3, 0, 1, 0] [] = true ∧
    (on.inRecovery = false ∧ bundleImages [1] ≤ 1024 * maxImage 15) ∧
    (let s := arg (14 + 256 * 1535)
     s.kdlTakes .runtime ∧ 14 ≤ 17 ∧ 1535 < stepCount 14 ∧ s.kdlArg = 14 + 256 * 1535) ∧
    (let s := arg (17 + 256 * 0xFFFFFF)
     s.kdlTakes .runtime ∧ s.kdlArg = 17 + 256 * 0xFFFFFF) ∧
    (let s := arg 5
     s.kdlTakes .runtime ∧ has [1, 2, 3, 4, 5] s.kdlArg = true ∧ s.kd.state ≠ 0 ∧ s.inRecovery = false) ∧
    (let s := arg (5 + 256 * 1)
     s.kdlTakes .runtime ∧ s.kdlArg = 5 + 256 * 1 ∧ s.hasRoom 6 [5, 1, 1, 0] [] = true) := by
  decide +kernel

theorem test_witness_KindlerCommands :
    (on.kdlTakes .runtime ∧ on.hasRoom 7 [1] (on.winBytes 0 64) = true) ∧
    (let s := arg 256
     s.kdlTakes .runtime ∧ 1 ≤ s.kdlArg ∧ s.kdlArg ≤ 256 ∧ s.kd.erasing = false ∧
       s.kd.jr.used + alignUp (16 + s.kdlArg) 16 ≤ halfSize) ∧
    (let s : State := { arg 7 with kd := { on.kd with buffered := [⟨7, 9, [], [1]⟩] } }
     s.kdlTakes .runtime ∧ (s.kd.jr.journal ++ s.kd.buffered).find? (fun r => r.seq == s.kdlArg) = some ⟨7, 9, [], [1]⟩) ∧
    (let s := arg 32
     s.kdlTakes .runtime ∧ 4 ≤ s.kdlArg ∧ s.kdlArg ≤ 32 ∧ s.hasRoom 5 [0, s.kdlArg] [] = true) ∧
    (let s : State := { on with kd := { on.kd with state := 4 } }
     s.kdlTakes .mgmt ∧ s.kd.state = 4) ∧
    (let s := arg 3
     let s := { s with kd := { s.kd with images := [1, 2, 3, 4, 5].map fun t => (t, ⟨List.replicate 4096 0, [1], 0⟩) } }
     s.kdlTakes .mgmt ∧ s.kdlArg ≤ 3 ∧ ([1, 2, 3, 4, 5].any fun t => leAt (s.runManifest t) 7 1 == s.kdlArg) = false) := by
  decide +kernel

theorem test_witness_IdentityMessages :
    (let s : State := { on with kd := { on.kd with measured := [(1, [])] } }
     s.answers = true ∧ s.hasIdentity = true ∧ s.kdlTakes .runtime) ∧
    (on.powered = true ∧ on.kd.released = 8 ∧ 10 ≤ 10 ∧ on.hasRoom 7 [0, 1] [] = true ∧ on.kd.older = none) := by
  decide +kernel

theorem test_witness_ScalarInstructions :
    run1.canIssue i0 1 [] ∧ brCond 1 ((run1.seq 0 0).sreg 1) ((run1.seq 0 0).sreg 0) = false ∧
    (brCond 6 ((run1.seq 0 0).sreg 1) ((run1.seq 0 0).sreg 0) = true ∧ run1.entryAt 0 (run1.seq 0 0) 0x440 = none) := by
  decide +kernel

theorem test_witness_BranchBoundary :
    (prog.canIssue i0 1 [] ∧ brCond 0 0 0 = true ∧ prog.entryAt 0 (prog.seq 0 0) 0x400 = some 0 ∧
      (prog.slot 0 0).pending = false ∧ (prog.slot 0 0).active = (prog.seq 0 0).half) ∧
    (let s : State := (prog.setSlot 0 0 { prog.slot 0 0 with pending := true }).setFlights [⟨0, 0, 0, 1, 8, 0, 0, none, [], [], .plain, []⟩]
     s.canIssue i0 1 [] ∧ s.entryAt 0 (s.seq 0 0) 0x400 = some 0 ∧ (s.slot 0 0).pending = true ∧ s.owes 0 0 = true) ∧
    (let s : State := prog.setSlot 0 0 { prog.slot 0 0 with pending := true }
     s.canIssue i0 1 [] ∧ s.entryAt 0 (s.seq 0 0) 0x400 = some 0 ∧ (s.slot 0 0).pending = true ∧ s.owes 0 0 = false ∧
       0 < s.imgHdr 0 0 (1 - (s.slot 0 0).active) 0x15 1) := by
  decide +kernel

theorem test_witness_SemaphoresAndMarkers :
    run1.canIssue i0 1 [] ∧
    (let s := run1.setSeq 0 0 { run1.seq 0 0 with atEnd := true }
     (s.seq 0 0).ctx = some 1 ∧ (s.seq 0 0).atEnd = true ∧ (s.seq 0 0).switchTo = none ∧ s.owes 0 0 = false ∧
       (s.ctx 1).borrowing = none) ∧
    (let s : State := { run1 with sq := { run1.sq with markers := [(1, 9, 7, 0)] } }
     s.sq.markers.find? (fun m => m.1 == 1 && m.2.1 == 9 && m.2.2.1 == 7) = some (1, 9, 7, 0)) ∧
    (let s := (run1.wr 0 Reg.SEQ_TRACE_SIZE 4).wr 0 Reg.SEQ_TRACE_HEAD 3
     s.canIssue i0 1 [] ∧ s.rdN 0 Reg.SEQ_TRACE_SIZE ≠ 0 ∧ (3 + 1) % 4 = s.rdN 0 Reg.SEQ_TRACE_TAIL) ∧
    (let s := (run1.wr 0 Reg.SEQ_TRACE_SIZE 4).wr 0 Reg.SEQ_TRACE_TAIL 3
     s.canIssue i0 1 [] ∧ s.rdN 0 Reg.SEQ_TRACE_SIZE ≠ 0 ∧
       (s.rdN 0 Reg.SEQ_TRACE_HEAD + 1) % 4 ≠ s.rdN 0 Reg.SEQ_TRACE_TAIL) := by
  decide +kernel

theorem test_witness_LoadsAndStores :
    (run1.canIssue i0 1 [] ∧ run1.wordOpd (run1.srcOf i0 8 1) (opd 0xFFFF0) = some 0xFFFF0 ∧
      run1.spdBad 1 [wordView 0xFFFF0] false = none ∧ run1.spdBad 1 [wordView 0xFFFF0] true = none ∧
      (∀ l ∈ run1.viewLines 1 (wordView 0xFFFF0), (run1.tag 0 l).pending = false)) ∧
    (run1.wordOpd (run1.srcOf i0 9 1) (opd 0) = some 0) ∧
    (run1.wordOpd (run1.srcOf i0 8 1) (opd 0x100000) = none) ∧ (run1.wordOpd (run1.srcOf i0 9 1) (opd 0x100000) = none) ∧
    (let u := run1.atIssue i0 0x18 1
     let v := u.view 0 0 1 (.direct 0 0 .n16 .none 0 .act) 0 0
     run1.canIssue i0 1 [] ∧ u.descFails 0 0 1 (.direct 0 0 .n16 .none 0 .act) v false = false ∧ v.place = .spd ∧
       u.extentFails 1 (.direct 0 0 .n16 .none 0 .act) v = false ∧ v.size = 0) := by
  decide +kernel

/-- A job image of one END instruction that names a latency-table level by its two bytes, written out from R69 and R72. -/
def endImage (lo hi : Byte) : List Byte :=
  [0x52, 0x4D, 0x4B, 0x53, 1, 0, lo, hi, 1, 0, 0, 0, 0, 0, 0, 0, 1, 0, 0, 0, 0, 1, 0, 0] ++ List.replicate 40 0 ++ [3] ++
    List.replicate 31 0
/-- `prog` where the gate of stove 0 reads 96 bytes for half B of slot 0; the job's first page lies in frame 2. -/
def gated (img : List Byte) : State :=
  let s : State := (prog.setPte 1 0 { valid := true, write := true, frame := 2 }).setGate 0
    { busy := true, slot := 0, half := 1, ctx := 1, src := 0, len := 96 }
  { s with mem := img.zipIdx.map fun p => (2 ^ 22 + p.2, p.1) }

/-- The bytes of the module's own latency-table level. -/
def lvl (k : Nat) : Byte := BitVec.ofNat 8 (Config.latLevel.toNat / 256 ^ k)

theorem endImage_passes : (imgOf (endImage (lvl 0) (lvl 1))).verdict (some 0) 1 none = none := by
  have e : leAt (imgOf (endImage (lvl 0) (lvl 1))).hdr 6 2 = Config.latLevel.toNat := by
    have h : leAt (imgOf (endImage (lvl 0) (lvl 1))).hdr 6 2 = (lvl 0).toNat + 256 * (lvl 1).toNat := rfl
    have := Config.latLevel.isLt
    rw [h]
    simp only [lvl, BitVec.toNat_ofNat]
    omega
  unfold Img.verdict
  rw [if_pos e]
  decide +kernel

set_option maxRecDepth 20000 in
theorem test_witness_ProgramStore :
    (let s := prog.wr 0 Reg.SEQ_LOAD_LEN 96
     let v : W32 := pack [(0, 0), (1, 8), (1, 16), (1, 31)]
     s.accepts .runtime 0 0x10 v ∧ bitOf v.toNat 31 = true ∧ s.blockOn 0 0x10 = true ∧ 1 ≠ (s.slot 0 0).active ∧ (s.slot 0 0).st 1 ≠ 5 ∧ s.users 0 0 1 = 0 ∧
       (s.gate 0).busy = false ∧ s.rdN 0 Reg.SEQ_LOAD_LEN ≤ (s.slot 0 0).size ∧ s.rdN 0 Reg.SEQ_LOAD_LEN = 96) ∧
    (let s := gated (endImage (lvl 0) (lvl 1))
     (s.gate 0).busy = true ∧ s.imgBytes (s.gate 0) = endImage (lvl 0) (lvl 1) ∧ s.ownerKind 0 0 = some 0 ∧ s.ownerGroups 0 0 = 1) ∧
    (imgOf (endImage (lvl 0) (lvl 1))).verdict (some 0) 1 none = none ∧
    (let s := gated (List.replicate 96 0)
     (s.gate 0).busy = true ∧ (imgOf (s.imgBytes (s.gate 0))).verdict (s.ownerKind 0 0) 1 none = some (1, 0) ∧
       s.mapped (s.gate 0).ctx (s.gate 0).src (s.gate 0).len false = true ∧ s.memBad 0 1 [(0, 96)] false = none ∧
       (s.setPte 1 0 {}).mapped 1 0 96 false = false) ∧
    (prog.accepts .runtime 0 0x10 0x80000000 ∧ bitOf (0x80000000 : W32).toNat 31 = true ∧ fld (0x80000000 : W32) 4 0 = 0 ∧
      (prog.slot 0 0).st (1 - (prog.slot 0 0).active) = 2) ∧
    (prog.accepts .runtime 0 0x11 0x00010500 ∧ prog.users 0 1 0 = 0 ∧ prog.users 0 1 1 = 0 ∧ (prog.slot 0 1).stA ≠ 1 ∧
      (prog.slot 0 1).stB ≠ 1 ∧ prog.mapFits 0 1 ((0x00010203 : W32) &&& 0x00FFFFFF) = true) := by
  refine ⟨by decide +kernel, ?_, endImage_passes, by decide +kernel, by decide +kernel, by decide +kernel⟩
  exact ⟨by rfl, by with_unfolding_all rfl, by rfl, by rfl⟩

/-- Context 1 with two descriptors of 1 by 2 N16 tensors. -/
def pools : State := withDescs run1 [(1, descOf 0 0x3000 9 0 0 1 2 16), (2, descOf 0 0x4000 9 0 0 1 2 16)]
/-- Context 1 with a descriptor of a square I4S tensor of r rows and one column. -/
def tiles (r : Nat) : State := withDescs run1 [(0, descOf 0 0x2000 1 0 5 r 1 16)]
/-- A product of I4S operands into descriptor 0. -/
def prod (red : Nat) : ProdOps :=
  ⟨.direct 0 16 .i4s .square 0 .act, .direct 0x1000 16 .i4s .square 0 .wt, .pool 0, .none, .none, .none, red, false, 0, 32, false,
    false, 0⟩

theorem test_witness_ProductsIssue :
    (∀ op ∈ [prodN, prodT, prodWg], let p := prod 1
      let x := (tiles 1).srcOf i0 op 1
      let u := (tiles 1).atIssue i0 op 1
      let v := u.prodViews x op p
      (tiles 1).canIssue i0 1 (prodChairs op p) ∧ v.m ≠ 0 ∧ v.n ≠ 0 ∧ v.k ≠ 0 ∧ u.lendsNow 1 = false ∧
        u.prodCheck x op p v = none ∧ prodUses p op = false ∧ v.c.place ≠ .rb ∧ (v.ins p).any (fun o => u.mergeView 1 o.2) = false ∧
        u.clearTo x (v.a :: v.z.toList) [] [v.b] [p.a, p.b, p.c, p.d, p.e]) := by
  decide +kernel

theorem test_witness_ProductsTurnedAway :
    (∀ op ∈ [prodN, prodT, prodWg], let p := prod 1
      let x := (tiles 0).srcOf i0 op 1
      let v := ((tiles 0).atIssue i0 op 1).prodViews x op p
      (tiles 0).canIssue i0 1 (prodChairs op p) ∧ (v.m = 0 ∨ v.n = 0) ∧ ((tiles 0).atIssue i0 op 1).prodDesc x p v = none) ∧
    (∀ op ∈ [prodN, prodT, prodWg], let p : ProdOps := { prod 65537 with a := .pool 0, b := .pool 0 }
      let x := (tiles 1).srcOf i0 op 1
      let u := (tiles 1).atIssue i0 op 1
      let v := u.prodViews x op p
      (tiles 1).canIssue i0 1 (prodChairs op p) ∧ v.m ≠ 0 ∧ v.n ≠ 0 ∧ v.k ≠ 0 ∧ u.lendsNow 1 = false ∧
        u.prodDesc x p v = none ∧ u.prodCheck x op p v = some (2, v.k)) := by
  decide +kernel

/-- The product of `prod` in flight on context 1, with its only beat on array 0. -/
def running (p : Product) : State :=
  (run1.setFlights [⟨7, 0, 0, 1, 0x10, 0x400, 0, none, [], [], .product p, []⟩]).setArr 0 0 { run := some ⟨7, 0, 0⟩ }
/-- An 8 by 8 square I4S view. -/
def tile8 (a : Nat) : View := { addr := a, fmt := .i4s, grain := .square, rows := 8, cols := 8, lstep := 8, stride := 16 }
/-- The product of `prod`. -/
def prod8 : Product :=
  ⟨prodN, tile8 0, tile8 0x1000, tile8 0x2000, none, none, none, 8, 8, 8, 32, 0, false, 0, [], [], [], [], false⟩
/-- A product with two segments and its tree area. -/
def prodTwo : Product :=
  { prod8 with k := 4097, tree := some { addr := 0x8000, rows := 1, cols := 128 }, beats := [(0, 16), (1, 1)] }
/-- The flight of `running`. -/
def fl (b : Body) : Flight := ⟨7, 0, 0, 1, 0x10, 0x400, 0, none, [], [], b, []⟩
/-- A failed beat of `running`. -/
def failed : FailedBeat := ⟨0, ⟨7, 0, 0⟩, [0], ({} : Arr).tile, {}, 0, 0, [], 0, 0⟩

theorem test_witness_Beats :
    (let s := running prod8
     (s.arr 0 0).run = some ⟨7, 0, 0⟩ ∧ s.flight 7 = some (fl (.product prod8)) ∧ prod8.ended = false ∧
       (prod8.c.rows, prod8.c.cols) = prod8.outAt prod8.m prod8.n ∧ prod8.d = none ∧ prod8.tree = none ∧ prod8.unitBeats 0 = 1 ∧
       s.lit 0 = true) ∧
    (∀ res ∈ [BeatRes.mismatch 7 7 0 0 3 2, .station 7 7 0 3 2], let s := (running prod8).wr 0 Reg.ARR_RES_CTRL 0x210
     let u := s.setArr 0 0 { s.arr 0 0 with run := none }
     (s.ctx 1).stopping = none ∧ 1 < fld (s.rd 0 Reg.ARR_RES_CTRL) 10 8 ∧ s.lit 0 = true ∧
      (prod8.checkBeat (s.arr 0 0).stream (s.arr 0 0).tile (u.draw 1) ⟨7, 0, 0⟩ res).1 ≠ .pass ∧ (u.mismatch 0 0).bestRank 0 1 [0] ≠ none) ∧
    (let s : State := { (running prod8).setArr 0 0 {} with ar := { arrays := [], failed := [failed] } }
     s.ar.failed.find? (fun b => b.st == 0 && b.arrays.getLast? == some 0) = some failed ∧
       s.flight 7 = some (fl (.product prod8)) ∧ s.subRank 0 1 [0] 4 ≠ none ∧ s.subRank 0 1 [0] 4 = s.bestRank 0 1 [0] ∧
       (s.arr 0 4).run = none) := by
  decide +kernel

theorem test_witness_TreesAndCompletions :
    (let s := running prodTwo
     s.flight 7 = some (fl (.product prodTwo)) ∧ prodTwo.tree = some { addr := 0x8000, rows := 1, cols := 128 } ∧ 1 < prodTwo.segs ∧
       0 < prodTwo.tiles ∧ has prodTwo.trees 0 = false ∧
       ((List.range prodTwo.segs).all fun k => prodTwo.unitDone (0 * prodTwo.segs + k)) = true ∧
       prodTwo.arrayDone (0 * prodTwo.segs) (s.poolOf 1).length = true ∧ 128 = prodTwo.segs * prodTwo.m * prodTwo.n ∧ (prodTwo.c.rows, prodTwo.c.cols) = prodTwo.outAt prodTwo.m prodTwo.n) ∧
    (let s := run1.setFlights [fl .plain]
     s.flight 7 = some (fl .plain) ∧ (s.ht.adds.any fun a => a.fid == 7) = false ∧ (s.em.fragQueue.any fun g => g.fid == 7) = false ∧
       (s.ctx 1).loanWait = false ∧ (s.ctx 1).state ≠ 3 ∧ (s.tr.waiting.any fun w => w.fid == 7) = false ∧
       (run1.setFlights [fl (.vec 0)]).flight 7 = some (fl (.vec 0))) ∧
    (let f := fl (.row 2 (some 5) [(0, 9)] true)
     let s := run1.setFlights [f]
     s.flight 7 = some f ∧ s.lit 0 = true ∧ run1.tr.bad.any inSpd = false ∧ (s.tr.waiting.any fun w => w.fid == 7) = false ∧
       (s.sq.flights.find? fun g => match g.body with | .row d .. => g.st == 0 && d == 2 | _ => false).map (·.id) = some 7) ∧
    (z.accepts .kindler 0 0x21 (w32 (47 + 0x100)) ∧ z.accepts .kindler 3 0x21 (w32 (47 + 0x200)) ∧
      z.hasRoom 4 [3, 47] [] = true) := by
  decide +kernel

theorem test_witness_ReduceToScalar :
    (let u := pools.atIssue i0 0x18 1
     let v := u.view 0 0 1 (.pool 1) 0 0
     pools.canIssue i0 1 [] ∧ u.descFails 0 0 1 (.pool 1) v false = false ∧ v.place = .spd ∧
       u.extentFails 1 (.pool 1) v = false ∧ v.size ≠ 0 ∧ u.clearTo (pools.srcOf i0 0x18 1) [v] [] [] [.pool 1]) := by
  decide +kernel

theorem test_witness_Copies :
    (let x := pools.srcOf i0 0x20 1
     let u := pools.atIssue i0 0x20 1
     let v := (u.copyViews x (.pool 1) (.pool 2)).1
     let w := (u.copyViews x (.pool 1) (.pool 2)).2
     pools.canIssue i0 1 [.pool 1] ∧ u.copyCheck x (.pool 1) (.pool 2) v w = none ∧ v.size ≠ 0 ∧ w.place ≠ .rb ∧ v.place ≠ .rb ∧
       u.guardedView 1 w = false ∧ u.mergeView 1 v = false ∧ u.mergeView 1 w = false ∧
       u.clearTo x [v] [w] [] [.pool 1, .pool 2] ∧ u.inRegs 1 v = false ∧ u.inRegs 1 w = false) := by
  decide +kernel

/-- Context 1 with hardware lift 0 enabled as its lift 3: four chairs of 4 KiB from 0x80000. -/
def lifted : State :=
  (((pools.wr 0 Reg.SPD_LIFT_k_BASE 0x800).wr 0 Reg.SPD_LIFT_k_CHAIR 16).wr 0 Reg.SPD_LIFT_k_CFG
    (pack [(1, 0), (3, 3), (1, 8), (3, 20)]))
/-- Its chair 3, by head or tail, of N16. -/
def ch (tail : Bool) : Opd := .chair 3 tail .n16 .none 0 .act

theorem test_witness_LiftFills :
    (let u := lifted.atIssue i0 0x21 1
     let v := u.view 0 0 1 (.pool 1) 0 0
     let w := u.view 0 0 1 (ch true) v.rows v.cols
     lifted.canIssue i0 1 [ch true] ∧ u.descFails 0 0 1 (.pool 1) v false = false ∧ u.extentFails 1 (.pool 1) v = false ∧
       v.place ≠ .rb ∧ u.chairOf 1 (ch true) = some (0, 0, true) ∧ (u.liftCfg 0 0).producer = 0 ∧
       w.extent - w.addr ≤ (u.liftCfg 0 0).size ∧ v.fmt = .n16 ∧ v.grain = .none ∧ v.zp = 0 ∧ v.cls = .act ∧
       v.size ≠ 0 ∧ u.mergeView 1 v = false) ∧
    (let f := fl (.fill 0 3 (tile8 0) (tile8 0x80000))
     let s := run1.setFlights [f]
     s.sq.flights.find? (fun f => match f.body with | .fill a b .. => f.st == 0 && a == 0 && b == 3 | _ => false) = some f ∧
       s.memBad 0 1 (tile8 0).vranges false = none ∧ s.spdBad 1 [tile8 0] false = none ∧ s.spdBad 1 [tile8 0x80000] true = none ∧
       (tile8 0).place ≠ .rb ∧ (s.ctx 1).state ≠ 4 ∧ (s.ctx 1).isBound = true) := by
  decide +kernel

theorem test_witness_LiftRelease :
    (lifted.findLift 1 3 = some 0 ∧ (lifted.lift 0 0).chair (lifted.lift 0 0).head ≠ 2 ∧ lifted.canIssue i0 1 []) ∧
    (let s := lifted.setLift 0 0 { head := 3, chairs := [0, 0, 0, 2], readers := [0, 0, 0, 1] }
     s.findLift 1 3 = some 0 ∧ s.canIssue i0 1 [ch false]) := by
  decide +kernel

theorem test_witness_CopiesFromRegisters :
    (let s := withDescs (pools.setCtx 1 { job1 with kind := 2 }) [(4, descOf 1 0xFF0000000000 9 0 0 1 2 16)]
     let x := s.srcOf i0 0x20 1
     let u := s.atIssue i0 0x20 1
     let v := (u.copyViews x (.pool 4) (.pool 2)).1
     let w := (u.copyViews x (.pool 4) (.pool 2)).2
     s.canIssue i0 1 [.pool 4] ∧ u.copyCheck x (.pool 4) (.pool 2) v w = none ∧ v.size ≠ 0 ∧ w.place ≠ .rb ∧ v.place ≠ .rb ∧
       u.guardedView 1 w = false ∧ u.mergeView 1 v = false ∧ u.mergeView 1 w = false ∧
       u.clearTo x [v] [w] [] [.pool 4, .pool 2] ∧ u.inRegs 1 v = true ∧ u.inRegs 1 w = false) := by
  decide +kernel

/-- Context 1 with a descriptor of a 1 by 16 N16 tensor, and a kernel of one NOP at 0x6000. -/
def rows : State := (withDescs run1 [(10, descOf 0 0x10000 9 0 0 1 16 32)]).mwr (spdBase + 0x6000) 1
/-- A raw N16 operand with rows of 32 bytes. -/
def row (a : Nat) : Opd := .direct a 32 .n16 .none 0 .act
/-- A VOP of one input and one output, with its kernel at `f`. -/
def vop1 (f : Nat) : VopOps := ⟨8, 0, 0, 0, 0, .pool 10, .none, row 0x12000, .none, .none, opd f⟩

theorem test_witness_VectorOps :
    (∀ f ∈ [0x6000, 0x7000], let v := vop1 f
      let x := rows.srcOf i0 0x28 1
      let u := rows.atIssue i0 0x28 1
      let w := u.vopViews x v
      rows.canIssue i0 1 [v.a, v.b, v.e] ∧ w.c.size ≠ 0 ∧ u.lendsNow 1 = false ∧ u.vopCheck x v w = none ∧
        (u.ctx 1).engines[v.engine]? = some 0 ∧ w.shaped v = true ∧ u.clearTo x ((w.ins v).map (·.2) ++ [u.kernelView x v]) ((w.outs v).map (·.2)) [] [v.a, v.b, v.c, v.d, v.e] ∧
        (u.vopKernel x v).reject v.cycles (!v.c.desc) = if f = 0x6000 then none else some (0, 1)) := by
  decide +kernel

/-- The ROWOP of a function: its operands as R130 places them, handle 5, 6 or 7 by the kind it uses. -/
def rowOps (f : RowFn) : RowOps :=
  let h := 5 + f.kind.getD 0
  match f with
  | .lnFwd | .rmsFwd => ⟨h, 0, 0, 2, .pool 10, row 0x13000, row 0x12000, .none, .none⟩
  | .lnBwd | .rmsBwd => ⟨h, 0, 0, 2, .pool 10, row 0x11000, row 0x12000, row 0x13000, row 0x15000⟩
  | .smaxBwd | .lsmaxBwd => ⟨h, 0, 0, 2, .pool 10, row 0x11000, row 0x12000, .none, .none⟩
  | .chunk => ⟨h, 0, 0, 2, .pool 10, .none, row 0x12000, row 0x14000, .none⟩
  | .finish => ⟨h, 0, 0, 2, .none, .none, .pool 14, row 0x16000, .none⟩
  | _ => ⟨h, 0, 0, 2, .pool 10, .none, row 0x12000, .none, .none⟩
/-- Context 1 with a row and a column by descriptor, and a handle of one record of each kind. -/
def rowState : State :=
  ((withDescs run1 [(10, descOf 0 0x10000 9 0 0 1 16 32), (14, descOf 0 0x14000 9 0 0 1 1 16)]).setHandle 0 5
    { valid := true, kind := 0, ctx := 1, rows := 1 }).setHandle 0 6 { valid := true, kind := 1, ctx := 1, base := 1, rows := 1 }
    |>.setHandle 0 7 { valid := true, kind := 2, ctx := 1, base := 2, rows := 1 }

theorem test_witness_RowOperations :
    (∀ f ∈ [RowFn.lnFwd, .lnBwd, .rmsFwd, .rmsBwd, .smaxFwd, .smaxBwd, .lsmaxFwd, .lsmaxBwd, .chunk, .finish, .reset],
      let r := rowOps f
      let s := rowState
      let x := s.srcOf i0 0x30 1
      let u := s.atIssue i0 0x30 1
      let n := u.rowShape x f r
      s.canIssue i0 1 ((f.role r).rowsIn ++ [(f.role r).gamma]) ∧ (f = .reset ∨ (n.1 ≠ 0 ∧ n.2 ≠ 0)) ∧
        u.rowOpdCheck x (u.rowViews x f r n) n = none ∧ u.rowCheck x f r n = none ∧
        (let v := u.rowViews x f r n
         u.clearTo x (v.ins.map (·.2)) (v.outs.map (·.2)) [] ((v.ins ++ v.outs).map (·.1)))) ∧
    (let s := (z.wr 0 Reg.ROW_HTAB_IDX 4095).wr 0 Reg.ROW_HTAB_W0 1
     s.accepts .runtime 0 0x50 1 ∧ Agent.runtime.trusted = true ∧ s.accepts .runtime 0 0x50 2 ∧ s.accepts .runtime 0 0x50 4 ∧ s.blockOn 0 0x50 = true ∧
       s.handleReason 0 4095 (handleOf 1 0) = none ∧ s.handleBusy 0 4095 = false ∧ s.handleReason 0 4095 (handleOf 7 0) = some 6) ∧
    (let s := z.setFlights [fl (.row 0 (some 0) [] false)]
     s.accepts .runtime 0 0x50 4 ∧ s.handleBusy 0 0 = true) := by
  decide +kernel

theorem test_witness_RowsComplete : ∀ f : RowFn, RowReady rowState f i0 (rowOps f) 1 := fun f => by
  obtain ⟨a, b, c, d, e⟩ := test_witness_RowOperations.1 f (by cases f <;> decide)
  exact ⟨rfl, a, b, ⟨c, d⟩, e⟩

theorem test_witness_Scratchpad :
    (fld ((z.wr 0 Reg.SPD_SCRUB_CTRL 1).rd 0 Reg.SPD_SCRUB_CTRL) 11 0 ≠ 0 ∧ z.tr.bad.any inSpd = false ∧
      z.unreached 6 (z.dieOf spdBase) = false) ∧
    (inSpd (spdBase + 0x17FFFFFF) = true ∧ (spdBase + 0x17FFFFFF) % 256 + ([1] : List Byte).length ≤ 256 ∧
      (z.tag 0 0x17FFFF).pending = false ∧ ((z.setTag 0 0x17FFFF { pending := true }).tag 0 0x17FFFF).pending = true) ∧
    (let s := (run1.wr 0 (liftReg 127 Reg.SPD_LIFT_k_BASE) 0x800).wr 0 (liftReg 127 Reg.SPD_LIFT_k_CHAIR) 16
     let v : W32 := pack [(1, 0), (3, 3), (1, 8), (2, 20)]
     let u := s.wr 0 (liftReg 127 Reg.SPD_LIFT_k_CFG) (v &&& 0x00FFFFFF)
     s.accepts .runtime 0 0x34 v ∧ bitOf v.toNat 0 = true ∧ bitOf (s.rd 0 (liftReg 127 Reg.SPD_LIFT_k_CFG)).toNat 0 = false ∧
       s.blockOn 0 0x30 = true ∧ u.liftFits 0 127 (u.liftCfg 0 127) = true ∧
       u.accepts .runtime 0 0x34 (v &&& 0x00FFFFFE) ∧ bitOf (u.rd 0 (liftReg 127 Reg.SPD_LIFT_k_CFG)).toNat 0 = true ∧
       (v &&& 0x00FFFFFE) &&& 0x00FFFFFF = u.rd 0 (liftReg 127 Reg.SPD_LIFT_k_CFG) &&& 0xFFFFFFFE ∧
       (u.lift 0 127).moving = false ∧ u.accepts .runtime 0 0x34 1) := by
  decide +kernel

/-- Context 1 of job slot 0, which the collective engine runs under JTAG 5; the module is logical module 3. -/
def joined : State :=
  let s := (run1.wr 4 Reg.COL_JOB_b_CTRL 1).wr 4 Reg.COL_JOB_b_JTAG 5
  { s with fb := { s.fb with lid := some 3 } }
/-- A message that a context of the module's own sends. -/
def own : MsgHdr := ⟨3, 3, 0, 0, 1, 5, 0, 0, 0, 0, 0⟩
/-- `joined` with four pages of the job's memory, a table directory at 0 and table 0: F4 rows of 16, 8 of them, directory at 1 MiB. -/
def tabled : State :=
  let s := (joined.wr 0 Reg.EMB_JOB_b_TDIR_HI 0x10000)
  let s := [0, 1, 2, 3].foldl (fun s k => s.setPte 1 k { valid := true, write := true, frame := 100 + k }) s
  [(0, 1), (1, 2), (4, 16), (8, 8), (0x12, 0x10)].foldl (fun s (p : Nat × Byte) => s.vwr 1 p.1 p.2) s
/-- The key of row 7 of table 0. -/
def key7 : Key := ⟨0, 7⟩
/-- `tabled` where this stove owns the shard of `key7`. -/
def owned : State := tabled.vwr 1 (0x100000 + 16 * shardOf key7 + 15) 0x80
/-- `owned` where `key7` has been relayed to module 9. -/
def relayed : State :=
  [(0, 7), (6, 0x10), (8, 9)].foldl (fun s (p : Nat × Byte) => s.vwr 1 (s.ovAt 0 0 key7 0 + p.1) p.2) owned
/-- Context 1 with an image whose pool has one descriptor, an output of 1 by 16 N16, and a descriptor of a 128-byte record. -/
def embs : State :=
  withDescs joined [(0, [0, 0, 0, 0, 0, 0, 0, 0, 0, 0, 0, 0, 1]), (1, descOf 0 0x10000 9 0 0 1 16 32), (2, descOf 0 0x20000 9 3 0 1 64 128)]

theorem test_witness_EmbeddingInstructions :
    (let x := embs.srcOf i0 0x38 1
     let u := embs.atIssue i0 0x38 1
     let v := u.lookViews x 1 (opd 0) (.pool 2) (opd 0x1000)
     let y := (u.readLines x (u.viewLines 1 v.blk ++ u.viewLines 1 v.feat)).lookAccess x i0 (.pool 2) v
     embs.canIssue i0 1 [opd 0] ∧ u.lookupEarly 1 v.step = false ∧ u.lookCheck x 1 (opd 0) (.pool 2) (opd 0x1000) v = none ∧
       u.guardedView 1 v.recv = false ∧ (v.outs.any fun w => u.guardedView 1 w.2.1) = false ∧
       y.2 = true ∧ (y.1.lookMaps x v).2 = true ∧ FlightsNumbered embs) ∧
    (let x := embs.srcOf i0 0x39 1
     let u := embs.atIssue i0 0x39 1
     let v := u.gradViews x 1 (.pool 2) (opd 0x1000)
     embs.canIssue i0 1 [] ∧ u.gradCheck x 1 (.pool 2) (opd 0x1000) v = none ∧ (v.recv :: v.ins.map fun w => w.2.1).find? (u.mergeView 1) = none ∧
       u.clearTo x ([v.recv, v.feat] ++ v.ins.map fun w => w.2.1) [] [] [.pool 2]) := by
  decide +kernel

/-- A state once stove 0 has read what names the holders of `key7`. -/
def looked (s : State) : State := (s.ownReads 0 0 (s.heldReads 0 0 key7) 0).1

set_option synthInstance.maxSize 512 in
theorem test_witness_LookupRequests :
    (∀ s ∈ [tabled, owned, relayed], s.fenced own = false ∧ s.slotOf 5 = some 0 ∧ s.epoch 0 0 = 0 ∧
      (s.ownReads 0 0 (s.heldReads 0 0 key7) 0).2 = none) ∧
    (let u := looked tabled
     (u.tdesc 0 0 0).valid = true ∧ key7.row < (u.tdesc 0 0 0).rows ∧ ¬ 8 < (u.tdesc 0 0 0).rows ∧ u.isSuspect 0 0 key7 = false ∧
       (u.tdesc 0 0 1).valid = false ∧ u.heldAt 0 0 key7 = none ∧ u.ovOwn 0 0 key7 = none) ∧
    (let u := looked owned
     (u.tdesc 0 0 0).valid = true ∧ u.heldAt 0 0 key7 = some (0, 0, true) ∧ u.primary 0 0 key7 = none ∧
       (u.ownRead 0 0 0 (u.tdesc 0 0 0).wrec .ok 0).2 = none) ∧
    (let u := looked relayed
     u.heldAt 0 0 key7 = none ∧ (u.ovOwn 0 0 key7).isSome = true ∧ u.ownsShard 0 0 key7 = true) := by
  decide +kernel

/-- A key entry that waits for its row. -/
def ent (r : Bool) : KeyEnt := ⟨key7, 0, 1, 9, 0, false, 0, 0, 4, 32, false, r⟩
/-- A lookup that waits for `n` rows of `key7`. -/
def wants (n : Nat) (r : Bool) : LookupF := ⟨rawView .spd 0x20000 128, [], 0, 0, 0, 0, 0, 1, List.replicate n (ent r), []⟩

theorem test_witness_LookupAnswers :
    (∀ n ∈ [1, 2], ∀ r ∈ [true, false], let f := fl (.lookup (wants n r))
      let s := joined.setFlights [f]
      s.fenced own = false ∧ s.waiting 0 1 key7 = some (f, wants n r, 0, ent r) ∧ s.flight 7 = some f ∧ (s.ctx 1).valid = true ∧
        (s.ctx 1).state ≠ 4 ∧ s.toRedirect 0 1 key7 = some (f, wants n r, 0, ent r) ∧ (((wants n r).keys.set 0 { ent r with got := true }).all (·.got)) = decide (n = 1)) := by
  decide +kernel

/-- The coverage of a block of one key. -/
def cover1 : Cover := ⟨0, 0, 0, 0, 0, 1, 1, 1, rawView .spd 0x20000 128, [(key7, 1, 0)], false⟩
/-- A fragment of a key's run. -/
def frag1 : Frag := ⟨0, 0, 0, key7, 0, 0, 3, 0, [0], 7⟩

/- What the entries of a key area take is free, so that which of the two cases of the room there holds is too. -/
theorem test_witness_GradientMerge :
    (let f := fl (.grad ⟨rawView .spd 0x20000 128, []⟩)
     let s := (joined.setFlights [f]).mwr (spdBase + 0x20028) 0x0F
     s.flight 7 = some f ∧ leNat (s.bytesOf 1 (rawView .spd 0x20000 128) 0x28 1) % 16 = 15) ∧
    (let s : State := { joined with em := { joined.em with covQueue := [cover1], fragQueue := [frag1] } }
     s.em.covQueue.find? (fun d => d.st == 0) = some cover1 ∧ s.em.fragQueue.find? (fun g => g.st == 0) = some frag1) ∧
    (joined.fenced own = false ∧ joined.slotOf 5 = some 0 ∧ joined.mergeSize 0 0 < (⟨0, 0, key7, 0, 0, 0, [0], 0, 0⟩ : MRec).size) ∧
    (let s := joined.wr 0 Reg.EMB_JOB_b_MRG_SIZE 1
     s.fenced own = false ∧ s.slotOf 5 = some 0 ∧ (⟨0, 0, key7, 0, 0, 0, [0], 0, 0⟩ : MRec).size ≤ s.mergeSize 0 0) ∧
    (let s : State := { joined with ht := { joined.ht with ways := [(0, (3, 0))] } }
     s.fenced own = false ∧ s.slotOf 5 = some 0 ∧ (⟨0, 0, key7, 0, 0, 0, [0], 0, 0⟩ : MRec).size ≤ s.mergeWayBytes 0 0) := by
  decide +kernel

/-- `owned` with way 0 of the hearth of stove 0 given to the ember cache, and a missed row. -/
def embered (embers : List Ember) : State :=
  let s := owned.wr 0 Reg.EMB_EC_CTRL 1
  { s with ht := { s.ht with ways := [(0, (4, 0))] }, em := { s.em with missed := [(0, 0, key7)], embers := embers } }

theorem test_witness_EmberCache :
    (let s := embered []
     s.em.missed.contains (0, 0, key7) = true ∧ s.heldAt 0 0 key7 = some (0, 0, true) ∧ s.primary 0 0 key7 = none ∧
       s.emberUsed 0 + recLines (s.jrdN 0 0 0 (s.tdesc 0 0 0).wrec) ≤ s.emberLines 0 ∧ s.fenced own = false ∧ s.slotOf 5 = some 0) ∧
    (let v : Ember := ⟨0, 0, ⟨0, 1⟩, 0, 0, [1]⟩
     let s : State := { embered [v] with ht := { joined.ht with ways := [] } }
     s.em.missed.contains (0, 0, key7) = true ∧ s.heldAt 0 0 key7 = some (0, 0, true) ∧
       s.emberLines 0 < s.emberUsed 0 + recLines (s.jrdN 0 0 0 (s.tdesc 0 0 0).wrec) ∧ s.emberVictim 0 = some v) ∧
    (let s : State := { joined with em := { joined.em with missed := [(0, 0, key7)] } }
     s.em.missed.contains (0, 0, key7) = true ∧ s.heldAt 0 0 key7 = none) := by
  decide +kernel

/-- Stove 0 with hopper ring 7 of two entries at 0 of the memory of context 1, into lift 2 of the hopper. -/
def hopping : State :=
  let k := 32 * 7
  ((((((tabled.wr 0 (Reg.EMB_HOP_h_BASE_HI + k) 0x10000).wr 0 (Reg.EMB_HOP_h_SIZE + k) 2).wr 0 (Reg.EMB_HOP_h_CTRL + k) 5).wr 0
    (liftReg 2 Reg.SPD_LIFT_k_BASE) 0x800).wr 0 (liftReg 2 Reg.SPD_LIFT_k_CHAIR) 16).wr 0 (liftReg 2 Reg.SPD_LIFT_k_CFG)
      (pack [(1, 0), (1, 1), (3, 3), (1, 8), (3, 20)])).setHop 0 7 { gen := 1 }

theorem test_witness_HopperAndSlots :
    (let s := z.wr 0 (Reg.EMB_HOP_h_SIZE + 32 * 7) 65536
     s.accepts .runtime 0 0x71 1 ∧ bitOf (s.rdN 0 (Reg.EMB_HOP_h_CTRL + 32 * 7)) 0 = false ∧ s.blockOn 0 0x71 = true ∧
       (s.hopCfg 0 7).size = 2 ^ 16) ∧
    (let s := hopping
     s.accepts .runtime 0 0x71 (w32 1) ∧ (s.hopCfg 0 7).on = true ∧ (s.hopCfg 0 7).size = 2 ∧ (s.hop 0 7).head = 0 ∧
       (s.hop 0 7).doing = none ∧ (s.hop 0 7).fetching = false ∧ s.memBad 0 (s.hopCfg 0 7).ctx [((s.hopCfg 0 7).base + 64 * (s.hop 0 7).head, 64)] false = none) ∧
    (let s := hopping.vwr 1 0x3C 1
     let e := s.vrdN 1 0 64
     leAt e 0x3E 2 = (s.hop 0 7).tag ∧ leAt e 0x3C 1 % 2 = (s.hop 0 7).gen) ∧
    (let s := hopping.setHop 0 7 { fetching := true, tries := 7, gen := 1 }
     (s.hop 0 7).fetching = true ∧ s.memBad 0 (s.hopCfg 0 7).ctx [((s.hopCfg 0 7).base + 64 * (s.hop 0 7).head, 64)] false = none ∧ 8 ≤ (s.hop 0 7).tries + 1) ∧
    (let e : List Byte := List.replicate 64 0
     let s := hopping.setHop 0 7 { doing := some (e, 0) }
     let g := s.hopCfg 0 7
     (s.hop 0 7).doing = some (e, 0) ∧ (s.liftCfg 0 g.lift).enable = true ∧ (s.liftCfg 0 g.lift).producer = 1 ∧
       (s.lift 0 g.lift).chair (s.lift 0 g.lift).tail = 0 ∧ (annOf e).ok = true ∧
       (s.nextBlock g.ctx (annOf e) 0 (s.liftCfg 0 g.lift).size).isSome = true ∧
       ∀ n ∈ [1, 2, 4, 8, 512], s.memBad 0 g.ctx [((annOf e).occ + 8 * 0, 8 * n), ((annOf e).wgt + 2 * 0, 0)] false = none) ∧
    (z.accepts .runtime 3 0x70 1 ∧ bitOf (z.rdN 3 (Reg.EMB_JOB_b_CTRL + 16 * 7)) 0 = false ∧ z.blockOn 3 0x70 = true ∧
      z.kd.serviceOnly = false ∧ z.rdN 3 (Reg.EMB_JOB_b_MRG_SIZE + 32 * 7) = 0) ∧
    (let s := z.wr 3 (Reg.EMB_JOB_b_CTRL + 16 * 7) 1
     s.accepts .runtime 3 0x70 0 ∧ bitOf (s.rdN 3 (Reg.EMB_JOB_b_CTRL + 16 * 7)) 0 = true ∧ (s.job 7).inStep = false ∧
       ∀ q ∈ List.range 4, bitOf (s.rdN q (Reg.SWP_JOB_b_CTRL + 64 * 7)) 0 = false) := by
  decide +kernel

/-- An addition to element 1,048,575 of buffer 7 from context 1, with buffer 7 enabled and open on every stove. -/
def adding : State :=
  let s := [0, 1, 2, 3].foldl (fun s d => s.wr d (rbReg 7 Reg.HTH_RB_b_CFG) 3) (run1.setCtx 1 { job1 with slot := 7 })
  let s := s.wr 0 (rbReg 7 Reg.HTH_RB_b_SIZE) 4
  { s with ht := { s.ht with adds := [⟨7, 1048575, 0, 0, 0, 1, 0, 7⟩] } }
/-- A close of context 1 that waits. -/
def close1 (pass : Nat) : RbClose := ⟨1, pass, 3, 0⟩
/-- `adding` with a close waiting, of a buffer with `n` contributors. -/
def closing (n : W32) (r : Rb) : State :=
  let s := adding.wr 0 (rbReg 7 Reg.HTH_RB_b_CFG) (1 + 2 * n)
  { s.setRb 7 r with ht := { (s.setRb 7 r).ht with adds := [] } }

theorem test_witness_ReductionBuffers :
    (let a : RbAdd := ⟨7, 1048575, 0, 0, 0, 1, 0, 7⟩
     adding.ht.adds[0]? = some a ∧ a.slot < 8 ∧ adding.addRefused a = none ∧
       (adding.setRb 7 { pass := 1 }).addRefused a = some 5 ∧ a.elem < 2 ^ 30 ∧ ¬adding.residentElem a.slot a.elem) ∧
    (let s := [0, 1, 2, 3].foldl (fun s d => s.wr d (rbReg 7 Reg.HTH_RB_b_SIZE) 4) (tabled.setCtx 1 { job1 with slot := 7 })
     let s := [0, 1, 2, 3].foldl (fun s d => s.wr d (rbReg 7 Reg.HTH_RB_b_SPILL_HI) 0x10000) s
     ¬s.residentElem 7 0 ∧ (s.spillReach 1 7 true (rbHome 0) (rbLocal 0 / 64)).2 = true) ∧
    (let e := 1048575
     let s : State := { adding with ht := { adding.ht with ways := [(48, (2, 7))] } }
     s.residentElem 7 e ∧ (s.ht.adds[0]?).isSome = true ∧ (s.ht.tags.map (·.1)).Nodup) ∧
    (let s := adding.setRb 7 { walking := [2] }
     has (s.rb 7).walking 2 = true ∧ has (s.rb 7).walking 1 = false) ∧
    (let s := closing 1 { waitClose := [close1 0] }
     (s.rb 7).waitClose.find? (fun c => c.ctx == 1) = some (close1 0) ∧
       (s.ht.adds.any fun a => a.slot == 7 && a.ctx == 1 && a.pass == 0) = false ∧ (s.rb 7).allClosed = false ∧
       fld (s.rbCfg 0 7) 5 1 = 1 ∧ (((s.rb 7).closed ++ [close1 0]).filter fun d => d.pass == (s.rb 7).pass + 1) = []) ∧
    (let s := closing 2 { waitClose := [close1 0] }
     (s.rb 7).waitClose.find? (fun c => c.ctx == 1) = some (close1 0) ∧
       (((s.rb 7).closed ++ [close1 0]).filter fun d => d.pass == (s.rb 7).pass).length < fld (s.rbCfg 0 7) 5 1) ∧
    (let s := closing 1 { pass := 255, waitClose := [close1 255] }
     (s.rb 7).waitClose.find? (fun c => c.ctx == 1) = some (close1 255) ∧ (s.rb 7).allClosed = false ∧ (s.rb 7).pass ≤ 255) ∧
    (let s := z.wr 3 (rbReg 7 Reg.HTH_RB_b_SIZE) 1
     let s := s.wr 3 (rbReg 7 Reg.HTH_RB_b_RESIDENT) 0x1FFFFF
     s.accepts .runtime 3 0x61 0x21 ∧ bitOf (s.rd 3 (rbReg 7 Reg.HTH_RB_b_CFG)).toNat 0 = false ∧ s.blockOn 3 0x61 = true ∧
       s.pinFits (s.spillRegion 3 7).1 (s.spillRegion 3 7).2.1 (s.spillRegion 3 7).2.2 = true ∧
       fld ((0x21 : W32) &&& 0x3F) 5 1 = 16 ∧ fld (s.rd 3 (rbReg 7 Reg.HTH_RB_b_SIZE)) 12 0 = 1) ∧
    (adding.accepts .runtime 0 0x61 2 ∧ bitOf (adding.rd 0 (rbReg 7 Reg.HTH_RB_b_CFG)).toNat 0 = true ∧
      (2 : W32) &&& 0x3F = adding.rd 0 (rbReg 7 Reg.HTH_RB_b_CFG) &&& 0x3E ∧ (adding.job 7).inStep = false) ∧
    (adding.canIssue i0 1 [] ∧ (adding.ctx 1).isEval = false ∧ adding.closeRefused 7 1 = false ∧ run1.closeRefused 0 1 = true) := by
  decide +kernel

/-- Stove 0 with an atomic way of context 1 and the registers of window 15 set up over one line at 0 of its memory. -/
def windowed : State :=
  let s := (tabled.wr 0 (Reg.HTH_AW_w_BASE_HI + 240) 0x10000).wr 0 (Reg.HTH_AW_w_SIZE + 240) 1
  { s with ht := { s.ht with ways := [(0, (5, 1))] } }

theorem test_witness_AtomicWindows :
    (windowed.accepts .runtime 0 0x61 1 ∧ windowed.bindOk 0 15 = true ∧ windowed.accepts .runtime 0 0x61 2 ∧
      windowed.accepts .runtime 0 0x61 4 ∧ windowed.accepts .runtime 0 0x60 1) ∧
    ((windowed.setAwin 0 15 { bound := true }).awin 0 15).bound = true := by
  decide +kernel

/-- Window 15 bound over one line at 0, with targets of N16 (20) and B16 (21) in it and two N16 elements of the window (22). -/
def atoms (cold : Bool) (count : Nat) : State :=
  let s := ((withDescs tabled [(20, descOf 1 0 9 0 0 1 2 16), (21, descOf 1 0 8 3 0 1 2 16), (22, descOf 0 0x3000 9 0 0 1 2 16)]).setPte
    1 0 { valid := true, write := true, frame := 100, cold := cold }).wr 0 Reg.HBM_TM_CTRL 1
  s.setAwin 0 15 { bound := true, count := count, ctx := 1, va := 0, len := 128 }
/-- Operands of an atomic operation; the word forms take their address from S2 and S3. -/
def hops (t : Nat) (b : Opd) : HatomOps := ⟨2, 0, 0, .pool t, b⟩

set_option synthInstance.maxSize 512 in
theorem test_witness_AtomicsIssue :
    (∀ t ∈ [20, 21], ∀ q ∈ [(false, 0), (false, 1), (true, 0)], let h := hops t (.pool 22)
      let fmt : Fmt := if t = 20 then .n16 else .b16
      let s := atoms q.1 q.2
      let x := s.srcOf i0 0x3C 1
      let u := s.atIssue i0 0x3C 1
      let v := u.view 0 0 1 h.a 0 0
      let w := u.view 0 0 1 h.b v.rows v.cols
      let a := u.atomOf x 0 15 h v w
      (s.canIssue i0 1 [h.b] ∧ u.atomCheck x fmt h v w = none ∧ v.size ≠ 0 ∧ v.place = .virt ∧ w.place ≠ .rb) ∧
        (u.guardedView 1 v = false ∧ u.mergeView 1 v = false ∧ u.mergeView 1 w = false) ∧ (u.windowOf 0 1 v.addr (v.extent - v.addr) = some 15) ∧
        ((u.askPages 1 a.pages).2 = none ∧ (u.askPages 1 a.pages).1.clearTo x [w, v] [] [] [h.a, h.b] ∧ u.pagesReady 1 a.pages = !q.1 ∧ u.aheadOf 0 a = if q.2 = 0 then 0 else 65535)) ∧
    (∀ cold ∈ [false, true], ∀ b ∈ [Opd.none, opd 0x100], let h := hops 20 b
      let s := atoms cold 0
      let x := s.srcOf i0 0x3C 1
      let u := s.atIssue i0 0x3C 1
      let tv : View := { place := .virt, addr := 0, fmt := .n16, rows := 1, cols := 2, stride := 16 }
      ((s.seq 0 0).addr48 h.ra = 0 ∧ s.canIssue i0 1 [] ∧ u.mapped 1 0 4 true = true) ∧ (b.absent = true ∨ u.wordOpd x b ≠ none) ∧
        (u.guarded 1 0 4 = false ∧ u.mergeView 1 tv = false) ∧ ((u.askPages 1 (pageRange 0 4)).2 = none ∧
        (u.askPages 1 (pageRange 0 4)).1.clearTo x [tv] ((u.wordOpd x b).toList.map wordView) [] [] ∧
        u.pagesReady 1 (pageRange 0 4) = !cold)) := by
  decide +kernel

/-- An addition that waits in window 15. -/
def atom15 : AtomF := ⟨0, 15, 65535, { place := .virt, fmt := .n16, rows := 1, cols := 1, stride := 16 }, 0, [0], none, 0, 0⟩

theorem test_witness_OrderedAdditions :
    (let f := fl (.atom atom15)
     let s := (atoms false 65535).setFlights [f]
     s.waitingAdd 0 15 ((s.awin 0 15).count % 65536) = some (f, atom15) ∧ (s.awin 0 15).bound = true ∧
       s.pagesReady 1 atom15.pages = true ∧ s.flight 7 = some f ∧ atom15.target.place = .virt ∧
       atom15.vals.length = atom15.target.size ∧ s.memBad 0 1 atom15.target.vranges false = none ∧ ∀ e ∈ s.sq.flights, e.id = 7 → e = f) := by
  decide +kernel

/-- `tabled` with a member list of one, module 3, at 0x2000 of the job's memory, 2 MiB of staging, and descriptors: 30 and 31 gradient
rows of two N16 elements, 32 and 33 flags of 16 bytes. S2 names module 3. -/
def teamed : State :=
  let s := withDescs tabled [(30, descOf 0 0x3000 9 2 0 1 2 16), (31, descOf 0 0x4000 9 2 0 1 2 16), (32, descOf 0 0x5000 9 2 0 1 8 16),
    (33, descOf 0 0x6000 9 2 0 1 8 16)]
  let s := s.setSeq 0 0 { s.seq 0 0 with sregs := [(2, 3)] }
  (((s.wr 4 Reg.COL_JOB_b_MEM_LO 0x2000).wr 4 Reg.COL_JOB_b_MEM_HI 0x10000).wr 4 Reg.COL_JOB_b_STAGE_HI 0x10000).vwr 1 0x2000 3
/-- The operands of a collective: FLAG_OR takes the flags. -/
def coll (op : Nat) : CollOps := if op = 5 then ⟨0, 2, false, .pool 32, .pool 33, true⟩ else ⟨0, 2, false, .pool 30, .pool 31, true⟩

theorem test_witness_CollectivesIssue :
    (∀ op ∈ List.range 9, let o := coll op
      let x := teamed.srcOf i0 0x40 1
      let u := teamed.atIssue i0 0x40 1
      let v := u.collViews x op o
      teamed.canIssue i0 1 [] ∧ u.collFails x op o v = none ∧ u.collCheck x 0 op v o.far = none ∧ u.mergeView 1 v.a = false ∧ u.mergeView 1 v.b = false ∧
        u.clearTo x [v.a] [v.b] [] [o.a, o.b] ∧ v.b.place ≠ .rb) ∧
    (FlightsNumbered teamed ∧ teamed.sq.flights = [] ∧ (teamed.ctx 1).slot = 0 ∧ (teamed.job 0).abortSeen = false ∧
      (teamed.ctx 1).isEval = false) ∧
    (∀ op ∈ List.range 9, let o : CollOps := { coll op with a := opd 0, b := opd 0 }
      let x := teamed.srcOf i0 0x40 1
      let u := teamed.atIssue i0 0x40 1
      u.collFails x op o (u.collViews x op o) = some (4, 0)) := by
  decide +kernel

theorem test_witness_CollectivesComplete : ∀ op ∈ List.range 9, CollReady teamed op i0 (coll op) 1 := fun op h => by
  obtain ⟨a, b, c, d, d2, e, _⟩ := test_witness_CollectivesIssue.1 op h
  have q := test_witness_CollectivesIssue.2.1
  refine ⟨rfl, a, q.1, ⟨b, c⟩, ⟨d, d2, e⟩, q.2.2.2.1, fun f hf => ?_, .inl q.2.2.2.2⟩
  rw [q.2.1] at hf
  cases hf

theorem test_witness_PisteAndStepEnd :
    run1.canIssue i0 1 [] ∧ (run1.ctx 1).slot = 0 ∧ (run1.cjob 0).image 15 = none ∧
      ((run1.setCjob 0 { pistes := [(15, List.replicate 8 0)] }).cjob 0).image 15 ≠ none ∧
      (run1.setCjob 0 { pistes := [(15, [])] }).canIssue i0 1 [] := by
  decide +kernel

/-- A collective in flight on slot 0. -/
def collF (op : Nat) : CollF := ⟨op, 0, 0, 0, { rows := 1, cols := 2 }, { addr := 0x4000, rows := 1, cols := 2 }, 3, 0, 2, [], []⟩

theorem test_witness_PeerMessages :
    (teamed.fenced own = false ∧ teamed.slotOf 5 = some 0 ∧ teamed.mapped (teamed.dirCtx 0) 0x7FFF00 256 true = true ∧
      teamed.mapped (teamed.dirCtx 0) 0x7FFF00 256 false = true ∧ teamed.memBad 0 (teamed.dirCtx 0) [(0x7FFF00, 256)] false = none ∧
      teamed.memBad (stoveOf (teamed.dirCtx 0)) (teamed.dirCtx 0) [(0x7FFF00, 256)] true = none ∧
      (teamed.ownRead 0 0 0x7FFF00 256 .ue 1).2 ≠ none ∧ (teamed.fixAnswer 0 ⟨0, 3, key7, 0, 0, [], 9⟩).isSome = true ∧
      teamed.mapped (teamed.dirCtx 0) 0x800000 1 false = false ∧
      teamed.mapped (teamed.dirCtx 0) 0x800000 1 true = false) ∧
    (let s : State := { teamed with ht := { teamed.ht with lost := [(teamed.vaAddr (teamed.dirCtx 0) 0x3000).getD 0 / 128] } }
     s.mapped (s.dirCtx 0) 0x3000 4 true = true ∧ s.memBad (stoveOf (s.dirCtx 0)) (s.dirCtx 0) [(0x3000, 4)] true ≠ none) ∧
    (let f := fl (.coll (collF 8))
     let s := teamed.setFlights [f]
     s.fenced own = false ∧ s.flight 7 = some f ∧ (collF 8).peer = own.src ∧ (s.ctx 1).valid = true ∧ (s.ctx 1).state ≠ 4) ∧
    (let f := fl (.lookup (wants 1 false))
     (joined.setFlights [f]).waiting 0 1 key7 = some (f, wants 1 false, 0, ent false)) := by
  decide +kernel

theorem test_witness_CollectiveMessages :
    (teamed.fenced own = false ∧ teamed.slotOf 5 = some 0 ∧ has (teamed.members 0) own.src = true) ∧
    (own.step < ((teamed.setJob 0 { step := 1 }).job 0).step ∧ (teamed.job 0).step < 1 ∧ teamed.collOf 0 1 0 = none) ∧
    (let f := fl (.coll (collF 0))
     let s := teamed.setFlights [f]
     s.collOf 0 0 0 = some (f, collF 0) ∧ (collF 0).op ≠ 6 ∧ (s.ctx 1).isJob = true ∧ (s.ctx 1).loanWait = false ∧
       (s.sq.flights.find? fun f => match f.body with | .coll p => p.slot == 0 && p.cseq == 0 | _ => false) = some f) ∧
    (let s := (teamed.setJob 0 { inStep := true }).setCjob 0 { cseq := 1 }
     s.collOf 0 0 0 = none ∧ own.step = (s.job 0).step ∧ (s.job 0).inStep = true ∧ own.cseq < (s.cjob 0).cseq ∧
       (s.job 0).abortSeen = false ∧ ((teamed.setJob 0 { inStep := true, abortSeen := true }).job 0).abortSeen = true) ∧
    (let f := fl (.coll (collF 4))
     let s := teamed.setFlights [f]
     s.collOf 0 0 0 = some (f, collF 4) ∧
       (s.collData (s.collAt f (collF 4)) (collF 4) 3 ⟨0, 3, 0, 0, 4, 2, 0, 0, 0, [1, 0, 0, 2, 0, 0]⟩).2 = true) := by
  decide +kernel

/-- `teamed` with its job slot in the step numbered 0. -/
def stepping (j : Job) : State := teamed.setJob 0 { j with inStep := true }
/-- A module's contribution. -/
def contrib (overflow taint : Bool) : Contribution := ⟨overflow, taint, true, 0, 0, 0, 0, 0, 0, 0, []⟩

theorem test_witness_Verdict :
    (let s := stepping { stepEnd := true }
     (s.job 0).inStep = true ∧ (s.job 0).sent = false ∧ (s.job 0).stepEnd = true ∧ s.partialsDone 0 = true ∧
       (s.job 0).phase = 0 ∧ s.fenced own = false ∧ s.slotOf 5 = some 0 ∧ has (s.members 0) 3 = true) ∧
    (∀ o ∈ [true, false], ∀ t ∈ [true, false], let s := stepping { sent := true, contrib := [(3, 0, contrib o t)] }
      s.verdictOf 0 = some [(3, contrib o t)] ∧ (s.job 0).inStep = true ∧ (s.job 0).phase = 0 ∧ (s.job 0).sent = true ∧
        (s.job 0).begun = false ∧ s.sw.queue = [] ∧
        ((List.range 8).any fun b => (s.job b).phase == 1 && (s.job b).begun && !(s.job b).applied) = false ∧
        ([(3, contrib o t)].any fun c => c.2.overflow) = o ∧ ([(3, contrib o t)].any fun c => c.2.taint) = t) ∧
    (let s := (stepping { sent := true, contrib := [(3, 0, contrib false false)] }).setJob 1 { phase := 1, begun := true }
     s.verdictOf 0 = some [(3, contrib false false)] ∧ (s.job 0).inStep = true ∧ (s.job 0).phase = 0 ∧ (s.job 0).sent = true ∧
       (s.job 0).begun = false ∧
       ((List.range 8).any fun b => (s.job b).phase == 1 && (s.job b).begun && !(s.job b).applied) = true) := by
  decide +kernel

theorem test_witness_SweepMessages :
    (let s := stepping {}
     s.fenced own = false ∧ s.slotOf 5 = some 0 ∧ (s.job 0).inStep = true ∧ own.step = (s.job 0).step ∧ (s.job 0).applied = false) ∧
    (let order : List Byte := ovBytes key7 false false ⟨3, 0, []⟩ (List.replicate 48 0)
     let relay : List Byte := order.take 6 ++ [0x20] ++ order.drop 7
     let s := (stepping { orders := [relay] })
     (((s.job 0).orders.map orderOf).findSome? (s.prepared 0 0 key7)).isSome = true) ∧
    (let f := fl (.coll (collF 7))
     (teamed.setFlights [f]).sq.flights.find?
       (fun f => match f.body with | .coll p => p.slot == 0 && p.op == 7 && p.cseq == own.cseq | _ => false) = some f) := by
  decide +kernel

/-- `stepping` with its sweep over; `d` is the digest of its list as the contribution had it. -/
def swept (d : Nat) : State := stepping { phase := 1, applied := true, shipped := true, listDigest := d }

/- The contribution's digest may be any number: that of the empty list that the job's memory holds, and another. -/
theorem test_witness_VoteAndInstall :
    (∀ d ∈ [0, 1], let s := swept d
      (s.job 0).inStep = true ∧ (s.job 0).phase = 1 ∧ (s.job 0).shipped = true ∧ (s.job 0).shipOut = 0 ∧
        (s.sw.repairs.any fun r => r.slot == 0 && r.sweep) = false ∧ (s.sw.fixes.any fun f => f.slot == 0 && f.kind != 5) = false ∧
        ((s.job 0).cmps.any fun c => !c.done) = false ∧ s.readList 0 0 = (0, [])) ∧
    (∀ d, ((swept d).job 0).listDigest = d) ∧
    (∀ v ∈ [(false, false), (false, true), (true, false)], let s := stepping { phase := 2, votes := [(3, v)] }
      (s.job 0).phase = 2 ∧ ((s.members 0).all fun l => (s.job 0).votes.any fun v => v.1 == l) = true ∧
        ((s.job 0).votes.any fun v => v.2.2) = v.2 ∧ ((s.job 0).votes.any fun v => v.2.1) = v.1) ∧
    ((stepping { phase := 2 }).sw.queue = [] ∧ ((stepping { phase := 3 }).job 0).phase = 3 ∧ z.tr.broken = [] ∧ z.tr.pcFail = [] ∧ z.tr.pkgFail = [] ∧ z.tr.bad = [] ∧
      z.ht.lost = [] ∧ z.uc.mods = []) := by
  refine ⟨by decide +kernel, fun d => ?_, by decide +kernel, by decide +kernel⟩
  unfold swept stepping State.job State.setJob
  simp only [tabGet_tabSet]
  rfl

theorem test_witness_SweepSetup :
    (let s := ((((tabled.wr 0 (Reg.SWP_JOB_b_LOG_SIZE) 1).wr 0 Reg.EMB_JOB_b_CTRL 1).wr 0 Reg.SWP_JOB_b_STEP_LO 0xFFFFFFFE).wr 0
      Reg.SWP_JOB_b_STEP_HI 0xFFFF).setDamper 0 0 { initDone := true }
     s.accepts .runtime 0 0x81 7 ∧ bitOf (s.rd 0 Reg.SWP_JOB_b_CTRL).toNat 0 = false ∧
       bitOf (s.rdN 4 (colReg 0 Reg.COL_JOB_b_CTRL)) 0 = true ∧ s.blockOn 0 0x81 = true ∧ s.kd.serviceOnly = false ∧
       (s.damper 0 0).initDone = true ∧ s.nextStep 0 0 = 2 ^ 48 - 2 ∧ (s.logRegion 0 0).2 ≠ 0 ∧
       s.mapped (s.tdir 0 0).1 (s.plan 0 0).1 (0x4000 + 64 * (s.plan 0 0).2) false = true ∧
       s.jmapped 0 0 (s.logRegion 0 0).1 (s.logRegion 0 0).2 = true ∧ s.jmapped 0 0 (s.srecAt 0 0) 64 = true) ∧
    (let s := tabled.wr 0 Reg.SWP_JOB_b_CTRL 1
     s.accepts .runtime 0 0x81 6 ∧ bitOf (s.rd 0 Reg.SWP_JOB_b_CTRL).toNat 0 = true ∧ (s.job 0).inStep = false) ∧
    (tabled.accepts .runtime 3 0x81 0x800000FF ∧ bitOf (tabled.swpCtrl 3 7).toNat 0 = false) ∧
    (z.accepts .runtime 3 0x80 0 ∧ bitOf (0 : W32).toNat 31 = false) := by
  decide +kernel

/-- The first byte of the host partition at reset. -/
def hostAt : Nat := coldBase + 2 ^ 30 * (64 * 32 - 128)
/-- The ring window of stove 0 names context 1 and a ring of `n` entries at the start of the host partition. -/
def ringSet (n : Nat) (base : Nat) : State :=
  [(Reg.UCI_RING_IDX, w32 1), (Reg.UCI_RING_W0, w32 (1 + 2 * n)), (Reg.UCI_RING_W1, w32 base), (Reg.UCI_RING_W2, pack [(base / 2 ^ 32, 0), (base / 2 ^ 32, 16)]),
    (Reg.UCI_RING_W3, w32 (base + 0x400000))].foldl (fun s (p : Nat × W32) => s.wr 0 p.1 p.2) run1
/-- A 64-byte descriptor with its TYPE, ARG and ARG2. -/
def desc (type arg arg2 : Nat) : List Byte :=
  leBytes 4 type ++ leBytes 4 arg ++ List.replicate 48 0 ++ leBytes 4 arg2 ++ List.replicate 4 0
/-- Context 1 with an enabled ring of two entries at the start of the host partition. -/
def ringed (r : Ring) : State :=
  run1.setRing 1 { r with enable := true, size := 2, base := hostAt, cplBase := hostAt + 128 }

theorem test_witness_RingsAndDoorbells :
    (let s := ringSet 65536 hostAt
     let w2 := s.rd 0 Reg.UCI_RING_W2
     let base := s.rdN 0 Reg.UCI_RING_W1 + 2 ^ 32 * fld w2 15 0
     let cpl := s.rdN 0 Reg.UCI_RING_W3 + 2 ^ 32 * fld w2 31 16
     s.accepts .runtime 0 0xC8 1 ∧ s.ringCtx 0 = 1 ∧ (s.ring 1).enable = false ∧ bitOf (s.rd 0 Reg.UCI_RING_W0).toNat 0 = true ∧
       base % 64 = 0 ∧ cpl % 64 = 0 ∧ fld (s.rd 0 Reg.UCI_RING_W0) 17 1 = 2 ^ 16 ∧
       s.ringRange base (64 * 65536) = true ∧ s.ringRange cpl (16 * 65536) = true ∧ (s.ctx 1).valid = true ∧
       s.accepts .runtime 0 0xC8 2) ∧
    (let s := ringSet 2 (hostAt - 64)
     let w2 := s.rd 0 Reg.UCI_RING_W2
     (s.ring 1).enable = false ∧ s.ringRange (s.rdN 0 Reg.UCI_RING_W1 + 2 ^ 32 * fld w2 15 0) 128 = false) ∧
    (let s := (ringSet 0 0).setRing 1 { enable := true }
     let t := s.wr 0 Reg.UCI_RING_W0 0
     (s.ring 1).enable = true ∧ bitOf (s.rd 0 Reg.UCI_RING_W0).toNat 0 = true ∧ (t.ring 1).enable = true ∧
       bitOf (t.rd 0 Reg.UCI_RING_W0).toNat 0 = false ∧ (t.ring 1).cur = none ∧ (t.ring 1).cplIrq = none) ∧
    (let s := ringed {}
     s.accepts .runtime 0 0xCC 1 ∧ (s.ring 1).enable = true ∧ 1 < (s.ring 1).size ∧ 1 ≠ (s.ring 1).head ∧ ¬ 2 < (s.ring 1).size) ∧
    (∀ n ∈ [0, 8], let s := ringed { fetching := true, tail := 1, tries := n, gen := 1 }
      let d := s.mrdN hostAt 64
      s.ringReady 1 = true ∧ (s.addrRead 0 hostAt 64 0).2 = none ∧ leAt d 0x3C 1 % 2 ≠ (s.ring 1).gen) ∧
    (let s := (ringed { fetching := true, tail := 1, gen := 1 }).mwrN hostAt ((desc 5 0 0).take 0x3C ++ [1])
     let d := s.mrdN hostAt 64
     s.ringReady 1 = true ∧ (s.addrRead 0 hostAt 64 0).2 = none ∧ (s.ring 1).tries = 0 ∧ leAt d 0x3E 2 = (s.ring 1).tag ∧ leAt d 0x3C 1 % 2 = (s.ring 1).gen ∧ descType d = 5) ∧
    ((ringed { cplIrq := some true }).ring 1).cplIrq = some true := by
  decide +kernel

/-- Context 1 with a descriptor to run. -/
def doing (s : State) (d : List Byte) : State := s.setRing 1 { enable := true, size := 2, base := hostAt, cplBase := hostAt + 128, cur := some d }

/-- Nothing keeps the completion record of a descriptor of `doing` from the memory, whatever that asks for. -/
theorem recordGoes_of (s : State) (d : List Byte) (_ : (s.ring 1).cur = some d)
    (w : ((s.addrWrite 0 ((s.ring 1).cplBase + 16 * (s.ring 1).curIndex) (List.replicate 16 0)).2) = none) : s.recordGoes 1 :=
  fun _ _ _ => w

theorem test_witness_DescriptorRecords :
    (∀ d ∈ [desc 1 (2 ^ 14 * 12 + 1) 0, desc 4 (31 + 2 ^ 16 * 65535) 0, desc (5 + 2 ^ 8) 0 0],
      (((doing prog d).addrWrite 0 (((doing prog d).ring 1).cplBase + 16 * ((doing prog d).ring 1).curIndex) (List.replicate 16 0)).2) = none) ∧
    (let d := desc 3 (46 + 64) 0x1FFFD2
     let s := doing tabled d
     let u := (s.vwrN 1 0x1FFFD2 ((d.drop 8).take 46)).reachW 1 [(0x1FFFD2, 46)]
     (u.addrWrite 0 ((u.ring 1).cplBase + 16 * (u.ring 1).curIndex) (List.replicate 16 0)).2 = none) := by
  decide +kernel

theorem test_witness_Descriptors :
    (let d := desc 1 (2 ^ 14 * 12 + 1) 0
     let s := doing prog d
     s.curDesc 1 1 = some d ∧ descStatic d = none ∧ (s.ctx 1).isBound = true ∧ (s.ctx 1).rebind = false ∧
       bits (descArg d) 5 0 < (s.ctx 1).bound.seqs ∧ (s.slot 0 0).pending = false ∧ s.startReason 0 1 0 0 1 = none ∧
       (s.seq 0 (nth 0 (s.ctx 1).seqs 1)).state = 0) ∧
    (let d := desc 3 (46 + 64) 0x1FFFD2
     let s := doing tabled d
     s.curDesc 1 3 = some d ∧ descStatic d = none ∧ bitOf (descArg d) 6 = true ∧ s.mapped 1 0x1FFFD2 46 true = true ∧
       s.guarded 1 0x1FFFD2 46 = false ∧ s.memBad (stoveOf 1) 1 [(0x1FFFD2, 46)] true = none) ∧
    (let d := desc 3 48 (2 ^ 20 - 48)
     let s := doing run1 d
     s.curDesc 1 3 = some d ∧ descStatic d = none ∧ bitOf (descArg d) 6 = false ∧ 2 ^ 20 - 48 + 48 ≤ s.window 1 ∧
       s.tr.bad = [] ∧ s.hitsLift 1 (2 ^ 20 - 48) 48 = false ∧ ((s.linesOf 1 [(2 ^ 20 - 48, 48)]).any fun l => (s.tag 0 l).pending) = false) ∧
    (let d := desc 4 (31 + 2 ^ 16 * 65535) 0
     (doing run1 d).curDesc 1 4 = some d ∧ descStatic d = none) ∧
    (let d := desc 5 0 0
     (doing run1 d).curDesc 1 5 = some d ∧ descStatic d = none) ∧
    ((z.ctx 1).isBound = false ∧ ((run1.setCtx 1 { job1 with rebind := true }).ctx 1).rebind = true ∧ (run1.ctx 1).isBound = true ∧
      (run1.ctx 1).rebind = false) ∧
    (∀ d ∈ [desc 1 0 1, desc 3 49 0, desc 4 32 0, desc 5 1 0], (doing run1 d).curDesc 1 (descType d) = some d ∧ (descStatic d).isSome = true) := by
  decide +kernel

/-- Context 1 with a STEP descriptor of `n` passes for step 0; SWP is enabled on every stove and slot 0 is as `j` says. -/
def stepDue (n : Nat) (j : Job) : State :=
  (([0, 1, 2, 3].foldl (fun s t => s.wr t Reg.SWP_JOB_b_CTRL 1) run1).setJob 0 j).setRing 1 { enable := true, cur := some (desc 2 n 0) }

theorem test_witness_DescriptorsOfSteps :
    (let s := stepDue 256 {}
     s.curDesc 1 2 = some (desc 2 256 0) ∧ descStatic (desc 2 256 0) = none ∧ (s.ctx 1).isJob = true ∧ (s.ctx 1).slot = 0 ∧
       ((List.range 4).all fun t => bitOf (s.swpCtrl t 0).toNat 0) = true ∧ (s.job 0).inStep = false ∧ s.nextStep 0 0 = 0) ∧
    bits (descArg (desc 2 256 0)) 8 0 = 256 ∧ leAt (desc 2 256 0) 8 4 + 2 ^ 32 * (descArg2 (desc 2 256 0) % 65536) = 0 ∧
    (descStatic (desc 2 0 0) = none ∧ bits (descArg (desc 2 0 0)) 8 0 = 0) ∧
    ((stepDue 1 {}).wr 0 Reg.SWP_JOB_b_STEP_LO 1).nextStep 0 0 = 1 ∧
    ((stepDue 256 { inStep := true, passes := 256 }).job 0).inStep = true ∧
    ((stepDue 256 { inStep := true, passes := 1 }).job 0).passes = 1 ∧
    ((stepDue 256 { inStep := true, step := 9 }).job 0).step = 9 := by
  decide +kernel

theorem test_witness_FlashCommands :
    (z.takes .runtime 3 0xC8 0 ∧ z.takes .kindler 3 0xC8 0 ∧ (List.replicate 64 0 : List Byte).length = 64 ∧ (z.flash 3).length < 4 ∧
      4 ≤ ((z.setFlash 3 (List.replicate 4 ⟨[]⟩)).flash 3).length) ∧
    (let b : List Byte := leBytes 4 (1 + 2 ^ 8 * 1) ++ List.replicate 60 0
     let s := run1.setFlash 0 [⟨b⟩]
     s.flash 0 = [⟨b⟩] ∧ flashCmd b = 1 ∧ flashReserved b = false ∧ s.rebinding 0 = false ∧ s.lit 0 = true ∧ bits (leAt b 0 4) 19 8 = 1 ∧ stoveOf 1 = 0 ∧ (s.job 0).inStep = false ∧
       ((s.setJob 0 { inStep := true }).job 0).inStep = true ∧ ((s.setJob 0 { inStep := true }).job 0).sent = false ∧ (s.ctx 1).valid = true ∧
       (s.ctx 1).state = 2 ∧ s.ar.failed = [] ∧ (s.ctx 1).stopping = none ∧ (s.ctx 1).isJob = true) ∧
    (let s := run1.setCtx 1 { job1 with stopping := some 1 }
     (s.ctx 1).stopping = some 1 ∧ s.unitsStill 1 = true ∧ (s.ctx 1).borrowing = none ∧ (s.ctx 1).loanWait = false) ∧
    (run1.setCtx 1 { job1 with rebind := true }).rebinding 0 = true ∧ (z.setStk 0 { power := 1 }).lit 0 = false ∧
    (let b : List Byte := leBytes 4 (2 + 2 ^ 20 * 7 + 2 ^ 24 * 255) ++ List.replicate 60 0
     let s := (z.setFlash 3 [⟨b⟩]).wr 3 (Reg.SWP_JOB_b_CTRL + 64 * 7) 1
     s.flash 3 = [⟨b⟩] ∧ flashCmd b = 2 ∧ flashReserved b = false ∧ s.rebinding 3 = false ∧ s.lit 3 = true ∧ bits (leAt b 0 4) 22 20 = 7 ∧
       bitOf (s.swpCtrl 3 7).toNat 0 = true) := by
  decide +kernel

theorem test_witness_HostLinks :
    (let s : State := { z with uc := { z.uc with tries := [(umodKey 6 5 3, 15)] } }
     tabGet (fun _ => 0) s.uc.tries (umodKey 6 5 3) = 15 ∧ tabGet (fun _ => 0) z.uc.tries (umodKey 6 5 3) < 15) ∧
    (fld (0 : W32) 3 0 < 7 ∧ fld (0 : W32) 30 22 ≤ 256 ∧ 7 ≤ fld (15 : W32) 3 0 ∧ 256 < fld (0x40400000 : W32) 30 22) ∧
    ((z.setUmod 0 1 1 2).setUmod 0 1 0 0).endDown 0 1 = false ∧ z.accepts .runtime 6 0xC5 1 ∧ z.inHost hostAt = true ∧ z.inHost (hostAt - 1) = false ∧
      (∀ w ∈ [true, false], ((z.hostUnits hostAt 1).findSome? fun u => z.hostBad hostAt 1 u w) = none) ∧
      (let s := z.markBad hostAt
       ∀ w ∈ [true, false], ((s.hostUnits hostAt 1).findSome? fun u => s.hostBad hostAt 1 u w) = some (.word hostAt)) ∧
      z.inHost (coldBase + z.coldCap - 1) = true ∧ z.inHost (coldBase + z.coldCap) = false := by
  decide +kernel

theorem test_witness_MemoryTiers :
    (bitOf ((z.wr 3 Reg.HBM_TM_CTRL 0).rdN 3 Reg.HBM_TM_CTRL) 0 = false) ∧
    (let s := ((tabled.wr 0 Reg.HBM_TM_CTRL 1).wr 0 Reg.HBM_TM_PERIOD 65535)
     bitOf (s.rdN 0 Reg.HBM_TM_CTRL) 0 = true ∧ fld (s.rd 0 Reg.HBM_TM_PERIOD) 15 0 ≠ 0 ∧ tabSorted 0 s.tr.ptes = true ∧
       fld ((s.wr 0 Reg.HBM_TM_PERIOD 0).rd 0 Reg.HBM_TM_PERIOD) 15 0 = 0) ∧
    (let m : Move := ⟨2 ^ 27 + 3, true, coldBase / 2 ^ 21, 0⟩
     let s : State := { tabled with tr := { tabled.tr with moves := [m] } }
     s.tr.moves[0]? = some m ∧ s.frameDown (s.pte 1 3).frame = false ∧ s.frameDown m.frame = false ∧
       (s.tr.bad.any fun u => u / 2 ^ 21 == (s.pte 1 3).frame) = false ∧ s.sq.flights = [] ∧ s.tr.waiting = [] ∧ s.ca.tlb = [] ∧
       (let w : HeldWrite := ⟨m.page, 2 ^ 21 - 1, 7, 7⟩
        let u : State := { s with tr := { s.tr with waiting := [w] } }
        (u.tr.waiting.filter fun v => v.page == m.page) = [w] ∧ u.writable (2 ^ 21 * m.frame + w.off) = true) ∧ (s.ht.lost.any fun l => 128 * l / 2 ^ 21 == (s.pte 1 3).frame) = false ∧ MemWf s ∧
       2 ^ 21 * ((s.pte 1 3).frame + 1) ≤ spdBase ∧ 2 ^ 21 * (m.frame + 1) ≤ spdBase) ∧
    (let s := z.wr 3 (Reg.HBM_c_SCRUB_CTRL + 4096 * 4) 1
     has s.tr.pcOut (160 * 3 + 159) = false ∧ fld (s.rd 3 (Reg.HBM_c_SCRUB_CTRL + 4096 * (159 / 32))) 7 0 ≠ 0) ∧
    (let s := z.wr 5 Reg.CLD_SCRUB_CTRL 1
     has s.tr.pkgOut (16 * 1 + 15) = false ∧ fld (s.rd (4 + 1) Reg.CLD_SCRUB_CTRL) 7 0 ≠ 0) ∧
    (let s : State := { run1 with tr := { run1.tr with pcTmo := [(0, 2)], pcFail := [1] } }
     has s.tr.pcFail (160 * 0 + 0) = false ∧ tabGet (fun _ => 0) s.tr.pcTmo 0 = 2 ∧ has s.tr.pcFail (160 * 0 + 1) = true ∧
       (s.ctx 1).valid = true ∧ (s.ctx 1).state ≠ 4 ∧ s.inHost 0 = false ∧ s.inMem 0 = true ∧ s.dataKind 0 = .other) ∧
    (let s : State := { run1 with tr := { run1.tr with tables := [(2 ^ 21 + 1, 0)] } }
     s.inMem 0 = true ∧ s.dataKind 0 = .walk 1) := by
  decide +kernel

/-- A command record with every field zero but the context. -/
def recOf (c : Nat) : StkRec :=
  ⟨c, 0, 0, 0, 0, 0, false, 0, 0, 0, 0, 0, 0, 0, 0, 0, 0, 0, 0, 0, false, false, 0, 0, 0, 0, 0, false, 0, false⟩
/-- The largest lease that a stove has the parts for. -/
def recMax (c : Nat) : StkRec := { recOf c with groups := 12, granules := 384, seqs := 64, weightWays := 15, hbmQuota := 16, coldQuota := 16 }
/-- Does the stove of a context take its command record? -/
def takes (s : State) (r : StkRec) : Prop :=
  s.leaveCold.accepts .runtime (stoveOf r.ctx) 0xB0 1 ∧ s.leaveCold.stkBusy (stoveOf r.ctx) = false ∧ r.junk = false

set_option synthInstance.maxSize 1024 in
theorem test_witness_StokerCommands :
    (let r : StkRec := { recOf 4095 with kind := 2, aspace := 4095 }
     takes z r ∧ z.blockOn 3 0xB0 = true ∧ (z.ctx 4095).valid = false ∧ r.kind ≤ 2 ∧ r.aspace = r.ctx) ∧
    (let r := recMax 2
     let s := z.setCtx 2 { valid := true, aspace := 2 }
     takes s r ∧ (s.ctx 2).valid = true ∧ (s.ctx 2).state ≠ 4 ∧ (s.ctx 2).isBound = false ∧ (leaseOf r).inRange = true ∧
       s.leaveCold.leaseFits 0 (leaseOf r) = true ∧
       s.leaveCold.quotaFails 2 (leaseOf r) = false ∧ s.leaveCold.waysAgree 2 (leaseOf r) = true ∧
       s.leaveCold.sumLeases 2 Lease.fabShare + r.fabShare ≤ 256) ∧
    (let r := recMax 1
     takes run1 r ∧ (run1.ctx 1).isBound = true ∧ (leaseOf r).inRange = true ∧ run1.leaveCold.leaseFits 0 (leaseOf r) = true ∧
       run1.leaveCold.canRebind 1 (leaseOf r) = true ∧ run1.leaveCold.quotaFails 1 (leaseOf r) = false ∧
       run1.leaveCold.waysAgree 1 (leaseOf r) = true ∧ run1.leaveCold.sumLeases 1 Lease.fabShare + r.fabShare ≤ 256) := by
  unfold takes; decide +kernel

set_option synthInstance.maxSize 1024 in
theorem test_witness_StartsAndStops :
    (let r : StkRec := { recOf 1 with seq := 1 }
     takes prog r ∧ (prog.ctx 1).valid = true ∧ (prog.ctx 1).state ≠ 4 ∧ (prog.ctx 1).rebind = false ∧ (prog.ctx 1).isBound = true ∧
       r.seq < (prog.ctx 1).bound.seqs ∧ (prog.slot 0 0).pending = false ∧ prog.startReason 0 1 0 0 (prog.ctx 1).bound.granules = none ∧
       (prog.seq 0 (nth 0 (prog.ctx 1).seqs 1)).state = 0) ∧
    (∀ other ∈ [true, false], let r := recOf 1
      let s := (prog.setCtx 1 { valid := true, aspace := 1, lease := { lease1 with groups := 12 } }).setCtx 2
        (if other then { valid := true, aspace := 2, prio := 7, state := 1, lease := lease1 } else {})
      let l := s.leaveCold
      let u := l.setCtx 1 { s.ctx 1 with state := 1, pendingStart := [(0, 0, 0)] }
      takes s r ∧ (s.ctx 1).rebind = false ∧ (s.ctx 1).isBound = false ∧ r.seq < (s.ctx 1).lease.seqs ∧
        s.startReason 0 1 0 0 (s.ctx 1).lease.granules = none ∧ (s.ctx 1).pendingStart = [] ∧ l.leaseFits 0 (s.ctx 1).lease = true ∧
        l.waysAgree 1 (s.ctx 1).lease = true ∧ u.nextBind 0 = some (if other then 2 else 1) ∧ u.rebinding 0 = false) ∧
    ((run1.ctx 1).state = 2 ∧ (run1.ctx 1).stopping = none ∧ run1.ar.failed = [] ∧ takes run1 (recOf 1)) ∧
    (∀ st ∈ [0, 3, 4], let s := run1.setCtx 1 { job1 with state := st }
      takes s (recOf 1) ∧ (s.ctx 1).state = st ∧ (s.ctx 1).rebind = false ∧ (s.ctx 1).lentTo = none ∧ (s.ctx 1).borrowing = none) ∧
    (let s := z.setCtx 1 { valid := true, aspace := 1 }
     takes s (recOf 1) ∧ (s.ctx 1).valid = true ∧ (s.ctx 1).state = 0 ∧ (s.ctx 1).isBound = false ∧ (s.ctx 1).aspace = 1 ∧
       (s.cx.ctxs.any fun p => p.1 != 1 && p.2.valid && p.2.aspace == 1) = false) ∧
    (let r : StkRec := { recOf 1 with va := 2 ^ 48 - 2 ^ 21, pages := 1, write := true }
     takes run1 r ∧ pagesBad r = false ∧ (run1.leaveCold.mapPages 1 0 0 true false (r.va / 2 ^ 21) 1).isSome = true ∧
       (∀ k ∈ List.range 1, (run1.pte 1 (r.va / 2 ^ 21 + k)).pins = 0)) := by
  unfold takes; decide +kernel

theorem test_witness_BindingAndLoans :
    (let s := z.setCtx 1 { valid := true, aspace := 1, state := 1, lease := lease1 }
     s.nextBind (stoveOf 1) = some 1 ∧ s.rebinding (stoveOf 1) = false ∧ (s.ctx 1).pendingStart = []) ∧
    (z.nextBind (stoveOf 1) ≠ some 1 ∧ z.lenderOf 1 = none ∧ (run1.ctx 1).valid = true ∧ (run1.ctx 1).state ≠ 4) ∧
    (let s := (run1.setCtx 1 { job1 with loanWait := true }).setCtx 2 { valid := true, state := 1, kind := 1, aspace := 2, lease := {} }
     s.rebinding (stoveOf 2) = false ∧ s.lenderOf 2 = some 1 ∧ (s.ctx 1).loanWait = true ∧ s.arrayWork 1 = false ∧ s.nextBind (stoveOf 2) ≠ some 2) ∧
    (let s := run1.setCtx 1 { job1 with rebind := true }
     (s.ctx 1).rebind = true ∧ s.settled 1 = true ∧ (run1.ctx 1).rebind = false) ∧
    (let s := (run1.setCtx 1 { job1 with rebind := true }).setArr 0 0 { run := some ⟨7, 0, 0⟩ }
     (s.setFlights [fl .plain]).settled 1 = false) ∧
    (let s := (run1.setCtx 1 { job1 with lending := true, lentTo := some 2 }).setCtx 2 { valid := true, state := 2, kind := 1, borrowing := some 1 }
     (s.ctx 1).lentTo = some 2 ∧ (s.ctx 2).loanCut = false ∧ (s.ctx 2).loanWait = false ∧ s.unitsStill 2 = true) ∧
    (((run1.setCtx 1 { job1 with lentTo := some 2 }).setCtx 2 { loanCut := true }).ctx 2).loanCut = true := by
  decide +kernel

theorem test_witness_PowerAndHeat :
    (let s := z.wr 3 Reg.STK_PWR_CTRL 7
     let u := s.noteWaits 3 []
     (s.stk 3).power < 3 ∧ (s.stk 3).waking = false ∧ bitOf (s.rdN 3 Reg.STK_PWR_CTRL) 2 = true ∧ s.cx.cold = false ∧ u.stoveHint 3 = none ∧
       (s.cx.ctxs.any fun p => p.1 / 1024 == 3 && p.2.valid && p.2.state == 1) = false) ∧
    (let s := z.wr 3 Reg.STK_PWR_CTRL 3
     bitOf (s.rdN 3 Reg.STK_PWR_CTRL) 1 = true ∧ bitOf (s.rdN 3 Reg.STK_PWR_CTRL) 2 = false ∧ bitOf (z.rdN 3 Reg.STK_PWR_CTRL) 2 = false) ∧
    (let s := ((run1.setCtx 1 { job1 with semHint := [(5, 400)] }).setSeq 0 0 { state := 2, waitKind := 1, waitNum := 5, ctx := some 1 }).wr 0
      Reg.STK_PWR_CTRL 7
     let u := s.noteWaits 0 [100]
     (s.stk 0).power < 2 ∧ bitOf (s.rdN 0 Reg.STK_PWR_CTRL) 1 = true ∧ u.stoveHint 0 = some 300 ∧ breakEven 2 ≤ 300 ∧ 300 < breakEven 3) ∧
    (let s := run1.setStk 0 { power := 1 }
     let n := s.setSeq 0 0 { state := 2, waitKind := 1, waitNum := 5, ctx := some 1 }
     s.lit 0 = false ∧ (s.stk 0).waking = false ∧ run1.lit 0 = true ∧ tabSorted 0 s.cx.ctxs = true ∧ (s.ctx 1).valid = true ∧
       (s.ctx 1).isBound = true ∧ (List.range 64).any (s.wantsLit 1) = true ∧ (List.range 64).any (n.wantsLit 1) = false ∧
       (s.ctx 2).isBound = false ∧ ((s.setStk 0 { power := 1, waking := true }).stk 0).waking = true ∧
       (s.setStk 0 { power := 1, waking := true }).lit 0 = false) ∧
    (let s := [0, 1, 2, 3].foldl (fun (s : State) st => s.setStk st { power := 3 }) z
     s.leaveCold.accepts .runtime 0 0xB0 8 ∧ ((List.range 4).all fun st => (s.stk st).power == 3) = true ∧ s.leaveCold.anyJobOn = false ∧
       (z.stk 0).power ≠ 3 ∧ s.leaveCold.accepts (.service 1) 0 0xB0 8 ∧ Agent.service 1 ≠ .runtime) ∧
    (let c := z.rd 0 Reg.STK_THERM_CTRL
     fld c 7 0 < 255 ∧ 0 < fld c 15 8 ∧ 0 < fld c 27 16 ∧ ¬ (fld c 7 0 < fld c 15 8) ∧ ¬ (fld c 27 16 < fld c 27 16)) ∧
    (let s := run1.setStk 0 { throttle := 15 }
     (s.stk 0).throttle ≠ 0 ∧ (s.stk 0).gating = false ∧ s.boundOn 0 ≠ []) ∧
    (let s := run1.setStk 0 { throttle := 1, gating := true }
     (s.stk 0).gating = true ∧ ∀ a ∈ List.range 48, (s.arr 0 a).run = none) := by
  decide +kernel

/-- `on` with port 31 and port 0 enabled by FAB_CTRL. -/
def ported : State := (on.wr (fabDie 31) (fabReg 31 Reg.FAB_CTRL) 1).wr (fabDie 0) (fabReg 0 Reg.FAB_CTRL) 1
/-- A data flit of channel 8 that acknowledges up to `ack`. -/
def flit (ack : Nat) (nak : Bool) : FlitHdr := ⟨0, 8, true, true, 0, ack, nak, 0, 0, 64⟩
/-- Port 0 up with one flit unacknowledged, sent again `n` times. -/
def up0 (n : Nat) : State := ported.setPort 0 { state := 2, txSeq := 1, retry := [⟨flit 0 false, [], none, none, []⟩], resends := n }

theorem test_witness_LinkPorts :
    (let s := ported
     8 ≤ s.kd.released ∧ s.kd.noPosition = false ∧ has s.kd.portsDown 0 = false ∧ s.portOn 0 = true ∧ s.portOn 31 = true ∧ (s.port 0).state ≠ 2 ∧
       (s.port 0).state ≠ 3 ∧ (s.port 0).state ≠ 4 ∧ s.cableOk 0 ⟨0, 1, 22⟩ = true ∧ s.cableOk 0 ⟨0, 2, 22⟩ = false ∧ s.fb.lid = none ∧
       portRole 0 ≠ 2 ∧ s.portTakes .runtime 31 ∧
       (let u : State := { s with kd := { s.kd with noPosition := true } }
        u.portTakes .runtime 31)) ∧
    (((ported.setPort 0 { state := 3 }).port 0).state = 3 ∧ (ported.port 31).state = 0) ∧
    (∀ n ∈ [7, 8], let s := up0 n
      (s.port 0).state = 2 ∧ (flit 4095 true).kind ≤ 1 ∧ (flit 4095 true).vc < 9 ∧ (flit 4095 true).seq = (s.port 0).rxSeq ∧
        afterAck 4095 (s.port 0).retry = (s.port 0).retry ∧ (s.port 0).retry ≠ [] ∧ afterAck 0 (s.port 0).retry = [] ∧
        (s.port 0).queue = [] ∧ (flit 4095 true).cvc < 9) ∧
    (3 ≤ ({ flit 0 false with kind := 3 } : FlitHdr).kind ∧ ({ flit 0 false with kind := 2 } : FlitHdr).kind ≤ 2) ∧
    (∀ p ∈ [(0x30, 9, 9), (0x16, on.kd.rink, on.kd.seat)], let w := readWire (((wireBytes p.1 p.2.1 p.2.2 own) ++ List.replicate 32 0).take 64)
      (flit 0 false).len = 64 ∧ (0x30 ≤ w.type ∨ (w.rink = on.kd.rink ∧ w.seat = on.kd.seat))) ∧
    ∃ crc, crc ≠ flitCrc (flit 0 false) [] := by
  refine ⟨?_, ?_, ?_, ?_, ?_, ⟨_, Nat.succ_ne_self _⟩⟩
  all_goals decide +kernel

theorem test_witness_NamesAndStandIns :
    (z.fb.ntVersion < 1 ∧ seatIdx 0 1 ≠ seatIdx 0 0) ∧
    (let s := z.setName 4095 ⟨true, 255, 15⟩
     0 = s.fb.ntVersion ∧ s.name 4095 = ⟨true, 255, 15⟩ ∧ s.name 1 ≠ ⟨true, 0, 0⟩) ∧
    (let s : State := { joined with fb := { joined.fb with standin := 1, waiting := [seatIdx 0 1] } }
     s.fb.standin = 1 ∧ s.fb.lid = some 3 ∧ s.fb.ntVersion = 0 ∧ s.fb.waiting ≠ [] ∧ s.accepts .runtime 4 0xE0 1 ∧ s.fb.lid ≠ none) ∧
    (let s : State := { z with fb := { z.fb with standin := 1 } }
     s.fb.standin = 1 ∧ s.fb.waiting = [] ∧ s.accepts .runtime 4 0xE0 1 ∧ s.fb.lid = none) ∧
    (let b : List Byte := leBytes 16 3 ++ leBytes 4 4095 ++ leBytes 4 1 ++ List.replicate 40 0
     let s := joined.setFlash 3 [⟨b⟩]
     let r : State := run1.setCtx 1 { job1 with rebind := true }
     s.flash 3 = [⟨b⟩] ∧ flashCmd b = 3 ∧ flashReserved b = false ∧ s.rebinding 3 = false ∧ s.lit 3 = true ∧ r.rebinding 0 = true ∧ leAt b 0x10 4 % 4096 = 4095 ∧ s.fb.ntVersion < leAt b 0x14 4 ∧
       z.fb.lid = none ∧ s.fb.lid ≠ none) ∧
    (let s := z.setPort 31 { state := 2, partner := some ⟨7, 0, 31⟩ }
     s.fb.lid = none ∧ portRole 31 = 1 ∧ (s.port 31).state = 2 ∧ (s.port 31).partner = some ⟨7, 0, 31⟩ ∧ s.accepts .runtime 4 0xE0 1) := by
  decide +kernel

/-- The load registers of the collective engines name `n` bytes at 0x3000 of the memory of context 1. -/
def pisteAt : State := (teamed.wr 4 Reg.COL_PISTE_LOAD_LO 0x3000).wr 4 Reg.COL_PISTE_LOAD_HI 0x10000

theorem test_witness_PistesAndJobSlots :
    (let v : W32 := pack [(0, 0), (15, 3), (8, 7), (1, 31)]
     let img := pisteAt.vrdN 1 0x3000 64
     pisteAt.accepts .runtime 4 0xE0 v ∧ bitOf v.toNat 31 = true ∧ (pisteAt.cjob 0).active ≠ some 15 ∧
       pisteAt.mapped 1 0x3000 64 false = true ∧ pisteAt.memBad 0 1 [(0x3000, 64)] false = none ∧ pisteAt.pisteReason 0 img ≠ 0 ∧
       ((pisteAt.setCjob 0 { active := some 15 }).cjob 0).active = some 15) ∧
    (let s := [(0x3000, 0x50), (0x3001, 0x53), (0x3002, 0x54), (0x3003, 0x45), (0x3004, 1), (0x3008, 7), (0x3010, 1)].foldl
       (fun s (p : Nat × Byte) => s.vwr 1 p.1 p.2) pisteAt
     s.pisteReason 0 (s.vrdN 1 0x3000 64) = 0) ∧
    (let f := fl (.piste 7 15)
     ((run1.setFlights [f]).sq.flights.find? fun f => match f.body with | .piste b _ => b == 7 | _ => false) = some f ∧ (run1.setFlights [f]).unacked 7 = false ∧ (run1.ctx 1).state ≠ 4 ∧
       (run1.ctx 1).isBound = true ∧ ((run1.setCtx 1 { job1 with state := 4 }).ctx 1).state = 4) ∧
    (let s := run1.setPort 0 { state := 2, retry := [⟨flit 0 false, [], some 7, none, []⟩] }
     s.unacked 7 = true) ∧
    (let s := teamed.wr 4 Reg.COL_JOB_b_CTRL 0
     s.accepts .runtime 4 0xE1 1 ∧ bitOf (s.rdN 4 Reg.COL_JOB_b_CTRL) 0 = false ∧ s.blockOn 4 0xE1 = true ∧ s.kd.serviceOnly = false ∧
       s.memberCount 0 = 1 ∧ s.mapped 1 0x2000 2 false = true ∧ s.mapped 1 0 0x200000 true = true ∧ s.mapped 1 0 112 true = true) ∧
    (teamed.accepts .runtime 4 0xE1 0 ∧ bitOf (teamed.rdN 4 Reg.COL_JOB_b_CTRL) 0 = true ∧ (teamed.job 0).inStep = false ∧
      (∀ st ∈ List.range 4, bitOf (teamed.swpCtrl st 0).toNat 0 = false)) ∧
    (let s := teamed.wr 3 Reg.SWP_JOB_b_CTRL 1
     bitOf (s.rdN 4 Reg.COL_JOB_b_CTRL) 0 = true ∧ bitOf (s.swpCtrl 3 0).toNat 0 = true) := by
  decide +kernel

theorem test_witness_FencedMessages :
    (let m : MsgHdr := { own with src := 9, srcSeat := 1 }
     joined.fb.lid ≠ some m.src ∧ (joined.name 9).valid = false) ∧
    (let m : MsgHdr := { own with src := 9, srcSeat := 1 }
     let s := joined.setName 9 ⟨true, 0, 2⟩
     (s.name m.src).rink = m.srcRink ∧ (s.name m.src).seat ≠ m.srcSeat) ∧
    (let m : MsgHdr := { own with srcSeat := 1 }
     joined.fb.lid = some m.src ∧ (joined.name m.src).valid = false ∧ m.srcSeat ≠ joined.kd.seat) := by
  decide +kernel

theorem test_witness_StepRunsFront :
    (let s : State := { z with pending := [.powerOn, .preMate] }
     s.pending = .powerOn :: [.preMate]) ∧ z.pending = [] := by
  decide +kernel

theorem test_witness_StepKeepsInvariant :
    (let s : State := { run1 with pending := [.nop i0] }
     MemWf s ∧ FlightsNumbered s ∧ (match step s with | .next _ => true | _ => false) = true) := by
  decide +kernel

-- Well-formedness: terms that each check refuses, beside terms at the limit that pass

/-- A context number, a job slot and a page that are out of range, and a message header of an LID that is. -/
def badMsg : MsgHdr := { own with dst := 4096 }
/-- A stoker record of all zeros. -/
def rec0 : StkRec :=
  ⟨0, 0, 0, 0, 0, 0, false, 0, 0, 0, 0, 0, 0, 0, 0, 0, 0, 0, 0, 0, 0, false, 0, 0, 0, 0, 0, 0, 0, false⟩

theorem test_wf_operands :
    [Opd.direct 8 512 .n16 .none 0 .act, .direct 0 8 .n16 .none 0 .act, .direct (2 ^ 29) 0 .n16 .none 0 .act,
      .direct 0 (2 ^ 24) .n16 .none 0 .act, .direct 0 0 .i4u .lin32 16 .act, .indirect 64 0 .n16 .none 0 .act,
      .chair 32 false .n16 .none 0 .act, .pool (2 ^ 21), .mem 63].all (fun o => !o.ok) = true ∧
    [Opd.direct (2 ^ 29 - 16) (2 ^ 24 - 16) .i4u .lin32 15 .act, .indirect 63 16 .n16 .none 0 .act,
      .chair 31 true .n16 .none 0 .act, .pool (2 ^ 21 - 1), .mem 62].all Opd.ok = true := by
  decide +kernel

theorem test_wf_instructions :
    [Instr.nop { i0 with st := 4 }, .nop { i0 with sq := 64 }, .nop { i0 with offset := 4096 }, .endI { i0 with waitSem := 32 },
      .stepEnd { i0 with postSem := 32 }, .br i0 7 0 0 0, .br i0 0 64 0 0, .loop i0 64 0, .sli i0 64 0, .salu i0 13 0 0 0, .salu i0 0 0 64 0,
      .sld i0 64 .none, .sst i0 0 (.pool (2 ^ 21)), .semopPost i0 32 0, .semopSet i0 0 65536,
      .reduceToScalar i0 7 0 0 0 .none, .reduceToScalar i0 0 0 64 0 .none, .reduceToScalar i0 0 0 (-65) 0 .none].all
      (fun c => !c.wf) = true ∧
    [Instr.matmul i0 ⟨.none, .none, .none, .none, .none, .none, 2 ^ 17, false, 0, 32, false, false, 0⟩,
      .matmulT i0 ⟨.none, .none, .none, .none, .none, .none, 0, false, 8, 32, false, false, 0⟩,
      .matmulWg i0 ⟨.none, .none, .none, .none, .none, .none, 0, false, 0, 16, false, false, 0⟩,
      .vop i0 ⟨1, 64, 0, 0, 0, .none, .none, .none, .none, .none, .none⟩, .vop i0 ⟨1, 0, 0, 0, 12, .none, .none, .none, .none, .none, .none⟩,
      .lnFwd i0 ⟨4096, 0, 0, 0, .none, .none, .none, .none, .none⟩, .chunk i0 ⟨0, 65536, 0, 0, .none, .none, .none, .none, .none⟩,
      .finish i0 ⟨0, 0, 0, 64, .none, .none, .none, .none, .none⟩, .embLookup i0 65536 .none .none .none,
      .cas32 i0 ⟨64, 0, 0, .none, .none⟩, .rbClose i0 32, .allReduce i0 ⟨16, 0, false, .none, .none, false⟩, .put i0 ⟨0, 64, false, .none, .none, false⟩].all
      (fun c => !c.wf) = true ∧
    [Instr.nop i0, .salu i0 12 63 63 63, .reduceToScalar i0 6 63 (-64) 0 .none, .rbClose i0 31,
      .matmul i0 ⟨.none, .none, .none, .none, .none, .none, 2 ^ 17 - 1, false, 7, 128, false, false, 0⟩].all Instr.wf = true := by
  decide +kernel

theorem test_wf_events :
    [Instr.modResetN 101, .pltModReset .runtime 8 0, .kindlerWatchdog ⟨256, 0⟩, .pllUnlock 8, .thermalTrip 8 0 0, .kindlingStep true (2 ^ 32) 0,
      .railFault 65536, .softReset (.other 4096) 0 0, .softReset .runtime 0 4096, .srstDone 8 0, .firmwareUpdate 256 [] [],
      .clearStep (.service 4096), .getCertificate 8 0 0, .challenge [], .getMeasurements 256, .registerWrite .runtime 0 0 2 0 15,
      .registerWrite .runtime 0 0 4096 0 15, .errPop .runtime 8 0, .sourceUnmask .runtime 2 256 0, .holeAccess (2 ^ 48) ⟨false, [], 0, .ok⟩,
      .seqLoad .runtime 4 0, .slotTableWrite .runtime 0 32 false 0, .markerUnitRecord 1 0 8 0, .endStop 0 64].all (fun c => !c.wf) = true ∧
    [Instr.arrayBeat 0 48 .pass, .scrubRead 0 48 .ok 0, .liftEnable .runtime 0 128 0, .chairFillComplete 0 0 16 .ok, .handleRead .runtime 4,
      .rbCloseCounted 8 0, .atomAddApply 0 16, .hopperDoorbell .runtime 0 0 (2 ^ 32), .lookup 0 badMsg key7 0 false 0 ⟨.ok, .ok⟩,
      .row 0 own ⟨65536, 0⟩ [], .redirect 0 own ⟨0, 2 ^ 40⟩ ⟨0, 0, []⟩, .invalid 0 own key7 256, .step 4096, .verdictStart 8,
      .verdictDone 0 ⟨[(4, key7)], [], [], []⟩ [], .suspectClear .runtime 0 16 0, .patrolScrub (.cold 2) 0 .ok 0, .accessLate (.hbm 0) 0 8 0,
      .requestTimeout (.hbm 0) 160 0 0 0].all (fun c => !c.wf) = true ∧
    [Instr.create .runtime 0 { rec0 with kind := 4 }, .lease .runtime 0 { rec0 with atomicWays := 16 }, .map .runtime 0 { rec0 with pages := 2 ^ 19 },
      .start .runtime 0 { rec0 with seq := 64 }, .hint .runtime 0 { rec0 with aspace := 4096 }, .powerStateEnter 0 ⟨4, []⟩, .coldExit 34,
      .throttleLevelChange 0 256 0, .ucieFlitRetry 0 16 ⟨0, true⟩, .doorbell .runtime 4096 0, .peerAccess 32 0 false ⟨[], false⟩,
      .getRequest own 0 ⟨2 ^ 32, none, .ok⟩, .cdata own 16 0 0 0 0 [], .collectiveTimeout 0 (2 ^ 32), .nameUpdate 4096 0 0 0 0 0 0,
      .seatState 0 16 0 0, .linkState 256 0 true, .pisteSwitch 8, .tempHigh 8 0, .berHigh 32 0].all (fun c => !c.wf) = true ∧
    [Instr.modResetN 100, .registerWrite .kindler 7 4095 4092 0 15, .create .runtime 3 rec0, .berHigh 31 0, .lookup 3 own key7 0 true 3 ⟨.ok, .ok⟩].all
      Instr.wf = true := by
  decide +kernel

-- Worked examples and tables of the spec

/-- The F4 table of R21. -/
theorem test_f4_table :
    (List.range 16).map decF4 = [0, 1/2, 1, 3/2, 2, 3, 4, 6, 0, -1/2, -1, -3/2, -2, -3, -4, -6] := by
  decide +kernel

/-- The group sum of the first worked example: 2,056 less 140 is 1,916, without a draw; and −140 alone. -/
theorem test_group_sum :
    (List.zipWith (fun a b => mulOperand .f4 8 a * mulOperand .i4u 8 b) [3, 15, 1, 6, 10, 5, 4, 9] [12, 15, 0, 9, 3, 8, 14, 5]).sum = -35 ∧
    decN16 0x4A01 = 2056 ∧ encN16 (roundN16 (2056 - 140) (some 0)).val = 0x49DF ∧ rneN16 (-140) = 0xC618 := by
  decide +kernel

/-- The second worked example: 272.75 rounds up where the draw is below 49,152. -/
theorem test_stochastic_rounding :
    encN16 (roundN16 (1091 / 4) (some 0x2C26)).val = 0x4711 ∧ encN16 (roundN16 (1091 / 4) (some 49152)).val = 0x4710 := by
  decide +kernel

/-- The worked example of six members: where the tree's nodes stand for chunks 5 and 2. -/
theorem test_tree_positions :
    [(1, 0), (1, 1), (1, 2), (2, 0), (2, 1), (3, 0)].map (fun p => (treePos 6 5 p.1 p.2, treePos 6 2 p.1 p.2)) =
      [(1, 0), (3, 2), (5, 4), (1, 2), (5, 4), (5, 2)] := by
  decide +kernel

/-- The worked example of two pages: the PG_ID of the sweep engine's job page on stove 3 and of module port 27. -/
theorem test_page_ids : z.readReg 3 0x81 0 = 0x01010308 ∧ z.readReg 5 0xDB 0 = 0x01001B0D := by
  decide +kernel

/-- The state that a command leaves. -/
def after (s : State) (c : Instr) : State :=
  match exec c s with
  | .next t => t
  | _ => s
/-- The worked example of serving events on stove 2's SEQ group page, up to cycle 900. -/
def served (n : Nat) : State :=
  let s := after (after (after z (.sourceUnmask .runtime 2 0x10 0)) (.evtEnableWrite .runtime 2 0x10 0x60)) (.evtIrqEnWrite .runtime 2 0x10 true)
  let s := (s.raise 2 0x10 5).logErr 2 0x10 ⟨1, 0, 0, 0⟩
  let s := if n = 0 then s else ((after s (.errPop .runtime 2 0x10)).raise 2 0x10 6).logErr 2 0x10 ⟨5, 0, 0, 0⟩
  if n < 2 then s else (after s (.evtStatusClear .runtime 2 0x10 0x60 0x20)).logErr 2 0x10 ⟨1, 0, 0, 0⟩
theorem test_serving_events :
    (served 0).readReg 2 0x10 0x10 = 0x20 ∧ (served 1).readReg 2 0x10 0x10 = 0x60 ∧ (served 2).readReg 2 0x10 0x10 = 0x20 ∧
      ((served 2).hdr 2 0x10).errs = [⟨5, 0, 0, 0⟩, ⟨1, 0, 0, 0⟩] ∧ (served 0).out.length = 1 ∧ (served 1).out.length = 1 ∧
      (served 2).out.length = 2 := by
  decide +kernel

/-- The boundaries of the F4 rounding: 5 lies midway between 4 and 6 and goes to the even code, 0.2 to the nearer 0 (R28, R29). -/
theorem test_f4_rounding : (roundF4 5 none).val = 4 ∧ (roundF4 (1/5) none).val = 0 ∧ (roundF4 7 none).sat = true := by
  decide +kernel

/-- R231: a second-level entry as the host reads it: VALID, WRITE, HINT 1, frame 9, and a host write leaves it. -/
theorem test_table_bytes :
    let s : State := { on with tr := { on.tr with tables := [(512, 7)] } }.setPte 1 1 { valid := true, write := true, hint := 1, frame := 9 }
    (after s (.holeAccess (7 * 2 ^ 21 + 8) ⟨false, [], 8, .ok⟩)).out.head? = some (.host true [0x13, 0, 0x20, 1, 0, 0, 0, 0]) ∧
      (after s (.holeAccess (7 * 2 ^ 21 + 8) ⟨true, [0, 0], 0, .ok⟩)).hostByte (7 * 2 ^ 21 + 8) = 0x13 := by
  decide +kernel

end Sys2Proof.Tests
end

/-! The kindler's own page and state: what its registers, events and journal leave alone, and what the journal keeps. -/

namespace Sys2Proof.Machine

-- Places of die 7

@[simp] theorem canonDie_seven (p : Nat) : canonDie 7 p = 7 := by simp [canonDie]
theorem canonDie_lt_seven {d : Nat} (h : d < 7) (p : Nat) : canonDie d p < 7 := by
  unfold canonDie
  split <;> omega
@[simp] theorem regKey_seven (r : Nat) : regKey 7 r = 0x7000000 + r := by simp [regKey]
theorem regKey_lt_seven {d r : Nat} (hd : d < 7) (hr : r < 0x1000000) : regKey d r < 0x7000000 := by
  have := canonDie_lt_seven hd (r / 4096)
  unfold regKey
  omega

-- Events of the kindler's page

/-- Die 7 drives a level input, so an event of its page sends no message: only the page's header changes (R343). -/
theorem raise_seven (s : State) (p bit : Nat) : ∃ h, s.raise 7 p bit = s.setHdr 7 p h := by
  have quiet : ∀ t : State, t.sendIrq 7 p = t := fun _ => rfl
  unfold State.raise State.raiseBits
  dsimp only
  rw [quiet, ite_self]
  exact ⟨_, rfl⟩
@[simp] theorem State.rd_raise_seven (s : State) (p bit d r : Nat) : (s.raise 7 p bit).rd d r = s.rd d r := by
  obtain ⟨h, e⟩ := raise_seven s p bit
  rw [e, State.rd_setHdr]
@[simp] theorem State.kd_raise_seven (s : State) (p bit : Nat) : (s.raise 7 p bit).kd = s.kd := by
  obtain ⟨h, e⟩ := raise_seven s p bit
  rw [e, State.setHdr_kd]
theorem frame_raise_seven (s : State) (p bit : Nat) : Frame [.pg] s (s.raise 7 p bit) := by
  obtain ⟨h, e⟩ := raise_seven s p bit
  rw [e]
  exact frame_setHdr s 7 p h

-- What stays inside the kindler

/-- The part of the kindler's state that says which reset it came from and what it holds in reset. -/
def KdlSt.standing (k : KdlSt) : Nat × Nat × Bool × Bool := (k.cause, k.released, k.tripHold, k.diesOff)

/-- Nothing changes outside the kindler's page and state, and its standing is as before. -/
structure KindlerOnly (s t : State) : Prop where
  frame : Frame [.pg, .kd] s t
  hdrs : OtherHeaders s t 7 0x100
  regs : ∀ d r, d < 7 → r < 0x1000000 → t.rd d r = s.rd d r
  standing : t.kd.standing = s.kd.standing

theorem KindlerOnly.refl (s : State) : KindlerOnly s s := ⟨Frame.refl s, fun _ _ _ => rfl, fun _ _ _ _ => rfl, rfl⟩
theorem KindlerOnly.trans {a b c : State} (h : KindlerOnly a b) (g : KindlerOnly b c) : KindlerOnly a c where
  frame := h.frame.trans g.frame
  hdrs d p n := (g.hdrs d p n).trans (h.hdrs d p n)
  regs d r hd hr := (g.regs d r hd hr).trans (h.regs d r hd hr)
  standing := g.standing.trans h.standing

theorem kindlerOnly_setKd (s : State) (k : KdlSt) (h : k.standing = s.kd.standing := by rfl) : KindlerOnly s { s with kd := k } :=
  ⟨(frame_upd_kd s k).mono (by simp), fun _ _ _ => rfl, fun _ _ _ _ => rfl, h⟩
theorem kindlerOnly_setHdr (s : State) (h : PageHdr) : KindlerOnly s (s.setHdr 7 0x100 h) where
  frame := (frame_setHdr s 7 0x100 h).mono (by simp)
  hdrs d p n := by rw [State.hdr_setHdr, if_neg n]
  regs _ _ _ _ := rfl
  standing := rfl
theorem kindlerOnly_wr (s : State) (r : Nat) (v : W32) : KindlerOnly s (s.wr 7 r v) where
  frame := (frame_wr s 7 r v).mono (by simp)
  hdrs _ _ _ := rfl
  regs d q hd hq := by
    have := regKey_lt_seven hd hq
    rw [State.rd_wr, if_neg (by rw [regKey_seven]; omega)]
  standing := rfl
theorem kindlerOnly_raise (s : State) (bit : Nat) : KindlerOnly s (s.raise 7 0x100 bit) := by
  obtain ⟨h, e⟩ := raise_seven s 0x100 bit
  rw [e]
  exact kindlerOnly_setHdr s h
theorem kindlerOnly_kdlLog (s : State) (code step inst type method detail seq : Nat) :
    KindlerOnly s (s.kdlLog code step inst type method detail seq) := kindlerOnly_setHdr s _
theorem kindlerOnly_modJr (s : State) (f : Keep → Keep) : KindlerOnly s (s.modJr f) := kindlerOnly_setKd s _

-- The journal (R330)

theorem kindlerOnly_jnlPut (s : State) (r : JRec) : KindlerOnly s (s.jnlPut r) := by
  unfold State.jnlPut
  dsimp only
  split
  · exact (kindlerOnly_modJr s _).trans (kindlerOnly_setKd _ _)
  · refine KindlerOnly.trans ?_ (kindlerOnly_raise _ 4)
    exact (kindlerOnly_modJr s _).trans (kindlerOnly_setKd _ _)
/-- A record changes the kindler's page and state alone, whether it is written, buffered or dropped. -/
theorem kindlerOnly_jnl (s : State) (type : Nat) (fields : List Nat) (text : List Byte) :
    KindlerOnly s (s.jnl type fields text) := by
  unfold State.jnl
  dsimp only
  split
  · exact ((kindlerOnly_wr s _ _).trans (kindlerOnly_kdlLog _ _ _ _ _ _ _ _)).trans (kindlerOnly_raise _ 5)
  · split
    · exact (kindlerOnly_setKd s _).trans (kindlerOnly_setKd _ _)
    · refine KindlerOnly.trans ?_ (kindlerOnly_jnlPut _ _)
      exact kindlerOnly_setKd s _

/-- What the journal holds for the configuration: host partition, key and counter of the remote reset. -/
def Keep.config (k : Keep) : Nat × List Byte × Nat := (k.hostUnits, k.rrstKey, k.rrstCounter)

/-- Writing a record, even with a compaction, moves no configuration. -/
theorem config_jnlPut (s : State) (r : JRec) : (s.jnlPut r).kd.jr.config = s.kd.jr.config := by
  unfold State.jnlPut
  dsimp only
  split
  · rfl
  · rw [State.kd_raise_seven]
    rfl
/-- A record for which there is room has its say in the configuration. -/
theorem config_jnl {s : State} {type : Nat} {fields : List Nat} {text : List Byte} (h : s.hasRoom type fields text = true) :
    (s.jnl type fields text).kd.jr.config = (s.kd.jr.apply ⟨s.kd.jnlSeq, type, fields, text⟩).config := by
  have room : s.jnlRoom ⟨s.kd.jnlSeq, type, fields, text⟩ = true := h
  unfold State.jnl
  dsimp only
  rw [room]
  split
  · contradiction
  · split
    · rfl
    · exact config_jnlPut _ _

/-- Where no half erases and the active half has room, a record that tells a kindling nothing is appended to it. -/
theorem kd_jnl_operator {s : State} {text : List Byte} (he : s.kd.erasing = false)
    (hu : s.kd.jr.used + alignUp (16 + text.length) 16 ≤ halfSize) :
    (s.jnl 9 [] text).kd.jr.journal = s.kd.jr.journal ++ [⟨s.kd.jnlSeq, 9, [], text⟩] ∧
      (s.jnl 9 [] text).kd.jnlSeq = (s.kd.jnlSeq + 1) % 2 ^ 32 := by
  have size : (⟨s.kd.jnlSeq, 9, [], text⟩ : JRec).size = alignUp (16 + text.length) 16 := by simp [JRec.size, JRec.len]
  have apply : s.kd.jr.apply ⟨s.kd.jnlSeq, 9, [], text⟩ = s.kd.jr := rfl
  simp [State.jnl, State.jnlRoom, State.jnlPut, State.modJr, he, size, apply, hu]

end Sys2Proof.Machine

/-! A module reset that does not reach the kindler: everything outside it stands at its reset value, and the kindling that
begins goes no further than to the first release of another domain (R307, R308, R310, R314). -/

namespace Sys2Proof.Machine

/-- A table without the entries of a key reads that key's default. -/
theorem tabGet_filter_out {α : Type} (d : Nat → α) (p : Nat × α → Bool) (k : Nat) (h : ∀ v, p (k, v) = false) (t : Tab α) :
    tabGet d (t.filter p) k = d k := by
  induction t with
  | nil => rfl
  | cons e t ih =>
    obtain ⟨j, v⟩ := e
    rw [List.filter_cons]
    split
    next hp =>
      have hk : k ≠ j := by
        rintro rfl
        simp [h] at hp
      simpa [tabGet, hk] using ih
    next => exact ih

/-- A module reset leaves everything outside the kindler and its page at its reset value. -/
theorem diesReset_spec (s : State) : DiesReset s.diesReset s.kd.cause where
  cause := rfl
  mem := rfl
  cx := rfl
  sq := rfl
  sp := ⟨_, rfl⟩
  ar := rfl
  rw := rfl
  ht := rfl
  ca := rfl
  em := rfl
  sw := rfl
  tr := ⟨_, rfl⟩
  uc := rfl
  fb := rfl
  regs d r hd hr := by
    have := regKey_lt_seven hd hr
    refine tabGet_filter_out _ _ _ (fun v => ?_) _
    simp only [beq_eq_false_iff_ne]
    omega
  hdrs d p hd hp := by
    have := canonDie_lt_seven hd p
    refine tabGet_filter_out _ _ _ (fun v => ?_) _
    simp only [beq_eq_false_iff_ne]
    omega

/-- The module holds nothing but its kindler out of reset: every other domain stands at its reset value. -/
structure KindlerAlone (t : State) (cause : Nat) : Prop where
  dies : DiesReset t cause
  released : t.kd.released ≤ 1
  tripHold : t.kd.tripHold = false
  diesOff : t.kd.diesOff = false

/-- What stays inside the kindler keeps every other domain in reset. -/
theorem KindlerAlone.kindlerOnly {s t : State} {c : Nat} (h : KindlerAlone s c) (k : KindlerOnly s t) : KindlerAlone t c := by
  obtain ⟨frame, hdrs, regs, standing⟩ := k
  obtain ⟨cause, released, tripHold, diesOff⟩ :
      t.kd.cause = s.kd.cause ∧ t.kd.released = s.kd.released ∧ t.kd.tripHold = s.kd.tripHold ∧ t.kd.diesOff = s.kd.diesOff := by
    simpa [KdlSt.standing] using standing
  exact {
    dies := {
      cause := cause.trans h.dies.cause
      mem := (frame.mem (by simp)).trans h.dies.mem
      cx := (frame.cx (by simp)).trans h.dies.cx
      sq := (frame.sq (by simp)).trans h.dies.sq
      sp := h.dies.sp.imp fun _ => (frame.sp (by simp)).trans
      ar := (frame.ar (by simp)).trans h.dies.ar
      rw := (frame.rw (by simp)).trans h.dies.rw
      ht := (frame.ht (by simp)).trans h.dies.ht
      ca := (frame.ca (by simp)).trans h.dies.ca
      em := (frame.em (by simp)).trans h.dies.em
      sw := (frame.sw (by simp)).trans h.dies.sw
      tr := h.dies.tr.imp fun _ => (frame.tr (by simp)).trans
      uc := (frame.uc (by simp)).trans h.dies.uc
      fb := (frame.fb (by simp)).trans h.dies.fb
      regs := fun d r hd hr => (regs d r hd hr).trans (h.dies.regs d r hd hr)
      hdrs := fun d p hd hp => by
        have := canonDie_lt_seven hd p
        refine (hdrs d p ?_).trans (h.dies.hdrs d p hd hp)
        rw [canonDie_seven]
        omega }
    released := released ▸ h.released
    tripHold := tripHold.trans h.tripHold
    diesOff := diesOff.trans h.diesOff }

-- The kindling that follows

theorem kindlerOnly_startMethod (s : State) (step inst : Nat) : KindlerOnly s (s.startMethod step inst).1 := by
  unfold State.startMethod
  dsimp only
  split
  · exact KindlerOnly.refl s
  · exact KindlerOnly.refl s
  · exact KindlerOnly.refl s
  · split
    · exact kindlerOnly_jnl s _ _ _
    · exact kindlerOnly_setKd s _
theorem kindlerOnly_attempt (s : State) (step inst m : Nat) : KindlerOnly s (s.attempt step inst m) :=
  (kindlerOnly_jnl s _ _ _).trans (kindlerOnly_setKd _ _)
/-- The failure actions of the first five steps stay inside the kindler (R314). -/
theorem kindlerOnly_failAction (s : State) {step : Nat} (h : step ≤ 5) (inst : Nat) (fresh : Bool) :
    KindlerOnly s (s.failAction step inst fresh) := by
  match step, h with
  | 4, _ => exact kindlerOnly_setKd s _
  | 0, _ | 1, _ | 2, _ | 3, _ | 5, _ => exact KindlerOnly.refl s
  | n + 6, h => omega

/-- The kindler's state matters to the reset of the dies by its cause alone. -/
theorem DiesReset.setKd {s : State} {c : Nat} (h : DiesReset s c) {k : KdlSt} (hk : k.cause = s.kd.cause) :
    DiesReset { s with kd := k } c :=
  { h with cause := hk.trans h.cause }
theorem KindlerAlone.haltKdl {s : State} {c : Nat} (h : KindlerAlone s c) (hard : Bool) : KindlerAlone (s.haltKdl hard) c := by
  have reset : KindlerAlone s.diesReset c :=
    ⟨h.dies.cause ▸ diesReset_spec s, h.released, h.tripHold, h.diesOff⟩
  have logged : KindlerAlone ((s.diesReset.countU 7 0x100 1).jnl 11 [4, s.kd.step] []) c :=
    (reset.kindlerOnly (kindlerOnly_setHdr _ _)).kindlerOnly (kindlerOnly_jnl _ _ _ _)
  unfold State.haltKdl
  generalize (s.diesReset.countU 7 0x100 1).jnl 11 [4, s.kd.step] [] = w at logged ⊢
  have counted : KindlerAlone (if w.kd.state = 0 then w.modJr fun k => { k with fails := min 15 (k.fails + 1) } else w) c := by
    split
    · exact logged.kindlerOnly (kindlerOnly_modJr _ _)
    · exact logged
  exact ⟨counted.dies.setKd rfl, Nat.min_le_left _ _, counted.tripHold, counted.diesOff⟩

/-- A kindling with one domain released gets to step 5 at most, which waits for the second release (R310). -/
theorem KindlerAlone.enter {c : Nat} (u : Nat) : ∀ {s : State} {step : Nat}, KindlerAlone s c → 1 ≤ step → step ≤ 5 →
    KindlerAlone (State.enter u step 0 s) c := by
  induction u with
  | zero => exact fun h _ _ => h
  | succ u ih =>
    intro s step h h1 h5
    have here : KindlerAlone { s with kd := { s.kd with step := step, inst := 0, method := 0 } } c :=
      h.kindlerOnly (kindlerOnly_setKd s _)
    have started := here.kindlerOnly (kindlerOnly_startMethod _ step 0)
    unfold State.enter
    dsimp only
    rw [if_neg (by omega : ¬ step > 17)]
    split
    next => exact here
    next waits =>
      have hs : step ≠ 5 := by
        rintro rfl
        exact waits ⟨rfl, Nat.lt_succ_of_le here.released⟩
      rw [if_neg (by omega)]
      split
      next m _ => exact started.kindlerOnly (kindlerOnly_attempt _ step 0 m)
      next =>
        split
        next => exact started.haltKdl _
        next =>
          have next_step : nextInst step 0 = (step + 1, 0) := by
            interval_cases step <;> rfl
          rw [next_step]
          exact ih (started.kindlerOnly (kindlerOnly_failAction _ h5 0 _)) (by omega) (by omega)

theorem standing_mount (k : KdlSt) : k.mount.standing = k.standing := by
  unfold KdlSt.mount
  split
  · split <;> rfl
  · rfl
/-- The pending images become active in the journal alone (R324). -/
theorem kindlerOnly_activatePending (l : List Nat) (s : State) : KindlerOnly s (l.foldl
    (fun s t => if t = 15 then s else (s.activate t (1 - s.activeCopy t)).clearSteps (typeSteps t)) s) := by
  induction l generalizing s with
  | nil => exact KindlerOnly.refl s
  | cons t l ih =>
    refine KindlerOnly.trans ?_ (ih _)
    dsimp only
    split
    · exact KindlerOnly.refl s
    · exact (kindlerOnly_jnl s _ _ _).trans (kindlerOnly_modJr _ _)
theorem KindlerAlone.startKindling {s : State} {c : Nat} (h : KindlerAlone s c) : KindlerAlone s.startKindling c := by
  have mounted : KindlerOnly s (({ s with kd := { s.kd.mount with measured := [] } } : State).modJr Keep.mounted) :=
    (kindlerOnly_setKd s { s.kd.mount with measured := [] } (standing_mount s.kd)).trans (kindlerOnly_modJr _ _)
  refine KindlerAlone.enter kindleFuel (KindlerAlone.kindlerOnly ?_ (kindlerOnly_activatePending _ _)) (Nat.le_refl 1)
    (Nat.le_add_left 1 4)
  exact (h.kindlerOnly mounted).kindlerOnly (kindlerOnly_jnl _ _ _ _)

/-- A module reset with a cause that does not reach the kindler, and that is not refused a kindling, ends with the kindler alone out of
reset. -/
theorem kindlerAlone_moduleReset {s : State} {cause : Nat} (hc : 2 < cause) (hh : s.kd.tripHold = false) (sub expired : Nat) :
    KindlerAlone (s.moduleReset cause sub expired true) cause := by
  have warm : KindlerAlone ({ s with kd := { s.kd.warm with
      cause := cause, sub := sub, expired := expired, sensed := cause ≠ 1 && s.kd.sensed } } : State).diesReset cause :=
    ⟨diesReset_spec _, Nat.le_refl 1, hh, rfl⟩
  have kindles : ∀ t : State, t.kindle true = t.startKindling := fun t => by simp [State.kindle]
  have unreached : decide (cause ≤ 2) = false := by simpa using hc
  unfold State.moduleReset
  simp only [unreached, Bool.false_eq_true, if_false, kindles]
  exact warm.startKindling

end Sys2Proof.Machine

/-! KDL commands: one that the kindler takes is carried out whole, its result stands in the command window, and its
completion touches the kindler's page alone (R334). -/

namespace Sys2Proof.Machine

-- Completion

@[simp] theorem State.kd_kdlDone (s : State) : s.kdlDone.kd = s.kd := by simp [State.kdlDone]
@[simp] theorem State.rd_kdlDone_status (s : State) : s.kdlDone.rd 7 Reg.KDL_CMD_STATUS = 2 := by simp [State.kdlDone]
theorem State.rd_kdlDone_other (s : State) {r : Nat} (h : r ≠ Reg.KDL_CMD_STATUS) : s.kdlDone.rd 7 r = s.rd 7 r := by
  simp [State.kdlDone, State.rd_wr, h]
theorem frame_kdlDone (s : State) : Frame [.pg] s s.kdlDone := (frame_wr s _ _ _).trans (frame_raise_seven _ _ _)

/-- A command that the kindler takes and its rules do not refuse is carried out. -/
theorem kdlCmd_done {s t : State} {ag : Agent} {f : State → State ⊕ Nat} (h : s.kdlTakes ag) (hf : f s = .inl t) :
    s.kdlCmd ag f = t := by
  obtain ⟨answers, accepts⟩ := h
  have go : s.regGuard ag 7 0x100 0x80000000 = (s, true) := regGuard_true accepts
  unfold State.kdlCmd
  rw [go]
  simp [answers, hf]

-- The command window

theorem frame_putWin (s : State) (b : List Byte) : Frame [.pg] s (s.putWin b) := by
  unfold State.putWin
  generalize List.range _ = l
  induction l generalizing s with
  | nil => exact Frame.refl s
  | cons k l ih => exact (frame_wr s _ _ _).trans (ih _)
@[simp] theorem State.kd_putWin (s : State) (b : List Byte) : (s.putWin b).kd = s.kd := (frame_putWin s b).kd (by simp)
/-- The window holds a result from its start, as far as it reaches. -/
theorem winHolds_putWin (s : State) (b : List Byte) : (s.putWin b).winHolds b := by
  intro k hk
  have hk' : k < cdiv (min b.length 1024) 4 := by
    unfold cdiv
    omega
  unfold State.putWin
  generalize cdiv (min b.length 1024) 4 = n at hk'
  induction n with
  | zero => exact absurd hk' (Nat.not_lt_zero k)
  | succ n ih =>
    rw [List.range_succ, List.foldl_append, List.foldl_cons, List.foldl_nil]
    by_cases e : k = n
    · rw [e, State.rd_wr_same]
    · rw [State.rd_wr, if_neg (by simp only [regKey_seven]; omega)]
      exact ih (by omega)
theorem winHolds_kdlDone {s : State} {b : List Byte} (h : s.winHolds b) : s.kdlDone.winHolds b := by
  intro k hk
  rw [State.rd_kdlDone_other s (by unfold Reg.KDL_WIN Reg.KDL_CMD_STATUS; omega)]
  exact h k hk

-- What each command does where it is not refused

theorem runs_attest {ag : Agent} {s : State} (h : s.kdlTakes ag) (hi : s.hasIdentity = true) :
    let p := s.putWin (s.report (s.winBytes 0 32) ++
      fitBytes 114 (Config.ed448Sign identityKey (shake256 (s.report (s.winBytes 0 32)) 64)))
    Runs (.attest ag) s ({ p with kd := { p.kd with tripSeen := false } } : State).kdlDone :=
  congrArg Host.Outcome.next (kdlCmd_done h (by rw [hi]; rfl))
theorem runs_setRrstKey {ag : Agent} {s : State} (h : s.kdlTakes ag) (hr : s.hasRoom 7 [1] (s.winBytes 0 64) = true) :
    Runs (.setRrstKey ag) s (s.jnl 7 [1] (s.winBytes 0 64)).kdlDone :=
  congrArg Host.Outcome.next (kdlCmd_done h (by simp only; rw [hr]; rfl))
theorem runs_jnlAppend {ag : Agent} {s : State} (h : s.kdlTakes ag) (h1 : 1 ≤ s.kdlArg) (h2 : s.kdlArg ≤ 256)
    (hr : s.hasRoom 9 [] (s.winBytes 0x10 s.kdlArg) = true) :
    Runs (.jnlAppend ag) s (s.jnl 9 [] (s.winBytes 0x10 s.kdlArg)).kdlDone :=
  congrArg Host.Outcome.next (kdlCmd_done h (by simp only; rw [if_neg (by omega), if_pos hr]))
theorem runs_jnlRead {ag : Agent} {s : State} {r : JRec} (h : s.kdlTakes ag)
    (hf : (s.kd.jr.journal ++ s.kd.buffered).find? (fun r => r.seq == s.kdlArg) = some r) :
    Runs (.jnlRead ag) s (s.putWin r.bytes).kdlDone :=
  congrArg Host.Outcome.next (kdlCmd_done h (by rw [hf]))
theorem runs_setHostpart {ag : Agent} {s : State} (h : s.kdlTakes ag) (h1 : 4 ≤ s.kdlArg) (h2 : s.kdlArg ≤ 32)
    (hr : s.hasRoom 5 [0, s.kdlArg] [] = true) : Runs (.setHostpart ag) s (s.jnl 5 [0, s.kdlArg] []).kdlDone :=
  congrArg Host.Outcome.next (kdlCmd_done h (by simp only; rw [if_neg (by omega), hr]; rfl))
theorem runs_haltRelease {s : State} (h : s.kdlTakes .mgmt) (hh : s.kd.state = 4 ∨ s.kd.tripHold = true) :
    Runs (.haltRelease .mgmt) s
      (({ s with kd := { s.kd with tripHold := false, diesOff := false } } : State).kdlDone.moduleReset 3 0 0 true) :=
  congrArg Host.Outcome.next (kdlCmd_done h (by
    have held : ¬ (s.kd.state ≠ 4 ∧ (!s.kd.tripHold) = true) := by
      rintro ⟨running, free⟩
      simp [running] at hh
      simp [hh] at free
    simp only [ne_eq, not_true_eq_false, if_false]
    rw [if_neg held]))
theorem runs_revokeKey {s : State} (h : s.kdlTakes .mgmt) (hk : s.kdlArg ≤ 3)
    (hu : ([1, 2, 3, 4, 5].any fun t => leAt (s.runManifest t) 7 1 == s.kdlArg) = false) :
    Runs (.revokeKey .mgmt) s ({ s with kd := { s.kd with revoked := addOnce s.kd.revoked s.kdlArg } } : State).kdlDone :=
  congrArg Host.Outcome.next (kdlCmd_done h (by
    simp only [ne_eq, not_true_eq_false, if_false]
    rw [if_neg (by omega), hu]
    rfl))

/-- A record and the completion that follows it leave all but the kindler's page and state alone. -/
theorem frame_jnl_kdlDone (s : State) (type : Nat) (fields : List Nat) (text : List Byte) :
    Frame [.pg, .kd] s (s.jnl type fields text).kdlDone :=
  (kindlerOnly_jnl s type fields text).frame.trans ((frame_kdlDone _).mono (by simp))
theorem frame_setKd_kdlDone (s : State) (k : KdlSt) : Frame [.pg, .kd] s ({ s with kd := k } : State).kdlDone :=
  ((frame_upd_kd s k).mono (by simp)).trans ((frame_kdlDone _).mono (by simp))
@[simp] theorem State.length_winBytes (s : State) (off n : Nat) : (s.winBytes off n).length = n := by simp [State.winBytes]

/-- Settles O8: HALT_RELEASE apart, each command stays inside the kindler and completes with DONE; HALT_RELEASE is a module reset that
leaves the kindler alone out of reset. -/
theorem kindlerCommands : Obligations.KindlerCommands := by
  refine ⟨?attest, ?setRrstKey, ?jnlAppend, ?jnlRead, ?setHostpart, ?haltRelease, ?revokeKey⟩
  case attest =>
    intro ag s h hi
    refine ⟨_, runs_attest h hi, by simp, winHolds_kdlDone (winHolds_putWin s _), by simp, ?_⟩
    exact ((frame_putWin s _).mono (by simp)).trans (frame_setKd_kdlDone _ _)
  case setRrstKey =>
    intro ag s h hr
    have config := config_jnl hr
    simp only [Keep.config, Prod.mk.injEq] at config
    obtain ⟨-, key, counter⟩ := config
    exact ⟨_, runs_setRrstKey h hr, by rw [State.kd_kdlDone]; exact key, by rw [State.kd_kdlDone]; exact counter,
      by simp, frame_jnl_kdlDone s _ _ _⟩
  case jnlAppend =>
    intro ag s h h1 h2 he hu
    have room : s.hasRoom 9 [] (s.winBytes 0x10 s.kdlArg) = true := by simp [State.hasRoom, State.jnlRoom, he]
    obtain ⟨journal, seq⟩ := kd_jnl_operator (text := s.winBytes 0x10 s.kdlArg) he (by simpa using hu)
    exact ⟨_, runs_jnlAppend h h1 h2 room, by simpa using journal, by simpa using seq, by simp, frame_jnl_kdlDone s _ _ _⟩
  case jnlRead =>
    intro ag r s h hf
    exact ⟨_, runs_jnlRead h hf, winHolds_kdlDone (winHolds_putWin s _), by simp, (frame_putWin s _).trans (frame_kdlDone _)⟩
  case setHostpart =>
    intro ag s h h1 h2 hr
    have config := config_jnl hr
    simp only [Keep.config, Prod.mk.injEq] at config
    obtain ⟨units, -⟩ := config
    exact ⟨_, runs_setHostpart h h1 h2 hr, by rw [State.kd_kdlDone]; exact units, by simp, frame_jnl_kdlDone s _ _ _⟩
  case haltRelease =>
    intro s h hh
    obtain ⟨dies, -, tripHold, diesOff⟩ := kindlerAlone_moduleReset (cause := 3) (by decide)
      (s := ({ s with kd := { s.kd with tripHold := false, diesOff := false } } : State).kdlDone) (by simp) 0 0
    exact ⟨_, runs_haltRelease h hh, dies, tripHold, diesOff⟩
  case revokeKey =>
    intro s h hk hu
    exact ⟨_, runs_revokeKey h hk hu, by simp, by simp, frame_setKd_kdlDone s _⟩

end Sys2Proof.Machine

/-! Accesses to memory (R142, R228, R231, R232, R255): an access goes through the caches and the tables of the tiers, and changes no
context. -/

namespace Sys2Proof.Machine

-- Frames of several updates

/-- One more update, within the parts that the frame allows. -/
theorem Frame.step {l m : List Part} {a b c : State} (h : Frame l a b) (g : Frame m b c) (hm : ∀ p ∈ m, p ∈ l := by simp) :
    Frame l a c :=
  h.trans (g.mono hm)
theorem frame_foldl {α : Type} {l : List Part} {f : State → α → State} (h : ∀ s a, Frame l s (f s a)) (xs : List α) (s : State) :
    Frame l s (xs.foldl f s) := by
  induction xs generalizing s with
  | nil => exact Frame.refl s
  | cons x xs ih => exact (h s x).trans (ih _)
theorem frame_ite {l : List Part} {p : Prop} [Decidable p] {s a b : State} (ha : Frame l s a) (hb : Frame l s b) :
    Frame l s (if p then a else b) := by
  split
  · exact ha
  · exact hb
theorem frame_setPte (s : State) (o k : Nat) (v : Pte) : Frame [.tr] s (s.setPte o k v) := frame_upd_tr s _

-- Numbered parts that a frame keeps

theorem Frame.seq {l : List Part} {s t : State} (f : Frame l s t) (h : .sq ∉ l) (m e : Nat) : t.seq m e = s.seq m e := by
  unfold State.seq
  rw [f.sq h]
theorem Frame.slot {l : List Part} {s t : State} (f : Frame l s t) (h : .sq ∉ l) (st k : Nat) : t.slot st k = s.slot st k := by
  unfold State.slot
  rw [f.sq h]
theorem Frame.ring {l : List Part} {s t : State} (f : Frame l s t) (h : .uc ∉ l) (c : Nat) : t.ring c = s.ring c := by
  unfold State.ring
  rw [f.uc h]
theorem Frame.job {l : List Part} {s t : State} (f : Frame l s t) (h : .sw ∉ l) (b : Nat) : t.job b = s.job b := by
  unfold State.job
  rw [f.sw h]
theorem Frame.damper {l : List Part} {s t : State} (f : Frame l s t) (h : .sw ∉ l) (st b : Nat) :
    t.damper st b = s.damper st b := by
  unfold State.damper
  rw [f.sw h]
theorem Frame.cjob {l : List Part} {s t : State} (f : Frame l s t) (h : .fb ∉ l) (b : Nat) : t.cjob b = s.cjob b := by
  unfold State.cjob
  rw [f.fb h]

-- What an access changes

/-- The state has changed within some parts, and every context is as it was. -/
structure Reached (l : List Part) (s t : State) : Prop where
  frame : Frame l s t
  ctxs : t.cx.ctxs = s.cx.ctxs

theorem Reached.refl {l : List Part} (s : State) : Reached l s s := ⟨Frame.refl s, rfl⟩
theorem Reached.step {l m : List Part} {a b c : State} (h : Reached l a b) (g : Reached m b c)
    (hm : ∀ p ∈ m, p ∈ l := by simp) : Reached l a c :=
  ⟨h.frame.step g.frame hm, g.ctxs.trans h.ctxs⟩
theorem Frame.reached {l : List Part} {s t : State} (h : Frame l s t) (hc : .cx ∉ l := by simp) : Reached l s t :=
  ⟨h, by rw [h.cx hc]⟩
theorem reached_foldl {α : Type} {l : List Part} {f : State → α → State} (h : ∀ s a, Reached l s (f s a)) (xs : List α)
    (s : State) : Reached l s (xs.foldl f s) := by
  induction xs generalizing s with
  | nil => exact Reached.refl s
  | cons x xs ih => exact (h s x).step (ih _) fun _ => id
theorem reached_ite {l : List Part} {p : Prop} [Decidable p] {s a b : State} (ha : Reached l s a) (hb : Reached l s b) :
    Reached l s (if p then a else b) := by
  split
  · exact ha
  · exact hb
theorem Reached.ctx {l : List Part} {s t : State} (h : Reached l s t) (c : Nat) : t.ctx c = s.ctx c := by
  unfold State.ctx
  rw [h.ctxs]

theorem reached_wakeStove (s : State) (st : Nat) : Reached [.cx] s (s.wakeStove st) := by
  refine ⟨frame_wakeStove s st, ?_⟩
  unfold State.wakeStove
  split <;> rfl
theorem frame_hthBump (s : State) (st k n : Nat) : Frame [.ca] s (s.hthBump st k n) := frame_upd_ca s _
theorem frame_serve (s : State) (a cls : Nat) : Frame [.ca] s (s.serve a cls) := by
  unfold State.serve
  split
  · exact frame_upd_ca s _
  · exact Frame.refl s
theorem frame_evictLine (s : State) (h : HLine) : Frame [.ca] s (s.evictLine h) := by
  unfold State.evictLine
  exact frame_ite (((frame_upd_ca s _).step (frame_hthBump _ _ _ _)).step (frame_serve _ _ _)) (frame_upd_ca s _)
theorem frame_makeRoom (s : State) (kind owner l ways : Nat) : Frame [.ca] s (s.makeRoom kind owner l ways) := by
  unfold State.makeRoom
  refine frame_ite (Frame.refl s) ?_
  split
  · exact frame_ite ((frame_evictLine s _).step (frame_upd_ca _ _)) (frame_evictLine s _)
  · exact Frame.refl s
theorem reached_wakeHbm (s : State) (a : Nat) : Reached [.cx] s (s.wakeHbm a) :=
  reached_ite (reached_wakeStove s _) (Reached.refl s)
/-- A line fetched, written or counted wakes its stove at most, and changes the caches (R142, R228, R255). -/
theorem reached_hearthLine (s : State) (kind owner a cls : Nat) (write full busy : Bool) :
    Reached [.cx, .ca] s (s.hearthLine kind owner a cls write full busy) := by
  unfold State.hearthLine
  dsimp only
  refine Reached.step (b := s.wakeHbm a) (Reached.step (Reached.refl s) (reached_wakeHbm s a)) (Frame.reached (l := [.ca]) ?_)
  generalize s.wakeHbm a = u
  split
  next h _ =>
    have moved := frame_upd_ca u { u.ca with lines := u.ca.lines.erase h ++ [{ h with dirty := h.dirty || write }] }
    exact frame_ite (moved.step (frame_hthBump _ _ _ _)) (frame_ite (moved.step (frame_hthBump _ _ _ _))
      (frame_ite moved (moved.step (frame_hthBump _ _ _ _))))
  next =>
    refine frame_ite (frame_hthBump _ _ _ _) ?_
    have missed : Frame [.ca] u (if write = true then u else u.hthBump (a / hbmRegion) 1 1) :=
      frame_ite (Frame.refl u) (frame_hthBump _ _ _ _)
    generalize (if write = true then u else u.hthBump (a / hbmRegion) 1 1) = v at missed ⊢
    have again : Frame [.ca] u (if (kind == 1) = true ∧ v.ca.evicted.contains (owner, a / 128) = true then
        v.hthBump (a / hbmRegion) 4 1 else v) := frame_ite (missed.step (frame_hthBump _ _ _ _)) missed
    generalize (if (kind == 1) = true ∧ v.ca.evicted.contains (owner, a / 128) = true then
        v.hthBump (a / hbmRegion) 4 1 else v) = w at again ⊢
    have served : Frame [.ca] u (if (write && full) = true then w else w.serve a cls) :=
      frame_ite again (again.step (frame_serve _ _ _))
    generalize (if (write && full) = true then w else w.serve a cls) = x at served ⊢
    exact frame_ite (frame_ite (served.step (frame_serve _ _ _)) served)
      ((served.step (frame_makeRoom _ _ _ _ _)).step (frame_upd_ca _ _))

-- Page tables and ranges

theorem reached_walkRead (s : State) (o : Option Nat) : Reached [.cx, .ca] s (s.walkRead o) := by
  cases o with
  | none => exact Reached.refl s
  | some a => exact reached_hearthLine s _ _ _ _ _ _ _
theorem reached_walk (s : State) (st space page : Nat) : Reached [.cx, .ca] s (s.walk st space page) := by
  unfold State.walk
  dsimp only
  refine Reached.step ?_ (reached_walkRead _ _)
  refine Reached.step ?_ (frame_upd_ca _ _).reached
  exact reached_ite (Reached.refl s) (reached_walkRead s _)
theorem frame_addCount (s : State) (space page n : Nat) : Frame [.tr] s (s.addCount space page n) :=
  frame_ite (frame_setPte s _ _ _) (Frame.refl s)
theorem reached_touchPage (s : State) (st space page n : Nat) : Reached reachParts s (s.touchPage st space page n) := by
  unfold State.touchPage
  split
  · exact (Reached.refl s).step (frame_upd_ca s _).reached (by simp [reachParts])
  · dsimp only
    refine Reached.step ?_ (frame_upd_ca _ _).reached (by simp [reachParts])
    have walked := (Reached.refl (l := reachParts) s).step (reached_walk s st space page) (by simp [reachParts])
    split
    · exact reached_ite walked ((walked.step (frame_upd_ca _ _).reached (by simp [reachParts])).step
        (frame_addCount _ _ _ _).reached (by simp [reachParts]))
    · exact walked
/-- Reaching ranges at virtual addresses (R231, R232). -/
theorem reached_reachAs (s : State) (st c : Nat) (rs : List (Nat × Nat)) (write chain : Bool) (cls : Nat) (busy : List Nat) :
    Reached reachParts s (s.reachAs st c rs write chain cls busy) := by
  refine reached_foldl (fun u l => ?_) _ s
  dsimp only
  split
  · exact Reached.refl u
  · exact reached_ite ((reached_touchPage u _ _ _ _).step (reached_hearthLine _ _ _ _ _ _ _ _) (by simp [reachParts]))
      (reached_touchPage u _ _ _ _)
/-- Reaching a range at a physical address. -/
theorem reached_addrLines (s : State) (a n cls : Nat) (write : Bool) : Reached [.cx, .ca] s (s.addrLines a n cls write) :=
  reached_foldl (fun u _ => reached_ite (reached_hearthLine u _ _ _ _ _ _ _) (Reached.refl u)) _ s
/-- What is written whole is renewed (R143, R241). -/
theorem frame_renew (s : State) (c : Nat) (rs : List (Nat × Nat)) : Frame [.tr, .ht] s (s.renew c rs) := by
  unfold State.renew
  extract_lets whole _ u
  have words : Frame [.tr, .ht] s u := frame_ite (Frame.refl s) ((Frame.refl s).step (frame_upd_tr s _))
  refine frame_ite words (words.trans (frame_foldl (fun u l => ?_) _ _))
  split
  · exact frame_ite ((Frame.refl u).step (frame_upd_ht u _)) (Frame.refl u)
  · exact Frame.refl u
theorem reached_reachW (s : State) (c : Nat) (rs : List (Nat × Nat)) : Reached (reaching [.ht]) s (s.reachW c rs) :=
  (Reached.refl s).step (reached_reachAs s _ _ _ _ _ _ _) (by simp [reachParts])
    |>.step (frame_renew _ c rs).reached (by simp [reachParts])
theorem reached_ownWrite (s : State) (st b va : Nat) (d : List Byte) : Reached (reaching [.mem, .ht]) s (s.ownWrite st b va d) := by
  unfold State.ownWrite
  dsimp only
  refine reached_ite ?_ (Reached.refl s)
  refine Reached.step ?_ (frame_renew _ _ _).reached (by simp [reachParts])
  refine Reached.step ?_ (reached_reachAs _ _ _ _ _ _ _ _) (by simp [reachParts])
  exact (Reached.refl s).step (frame_vwrN s _ _ _).reached (by simp [reachParts])

end Sys2Proof.Machine

/-! The end of a step (R16, R208, R294): what a resolution leaves of jobs, the sweep queue and dampers, and what the queue does next. -/

namespace Sys2Proof.Machine

-- Numbered parts after an update

theorem State.job_setJob (s : State) (b c : Nat) (v : Job) : (s.setJob b v).job c = if c = b then v else s.job c := by
  unfold State.job State.setJob
  exact tabGet_tabSet _ _ _ _ _
theorem State.damper_setDamper (s : State) (a b c d : Nat) (v : Damper) :
    (s.setDamper a b v).damper c d = if 8 * c + d = 8 * a + b then v else s.damper c d := by
  unfold State.damper State.setDamper
  exact tabGet_tabSet _ _ _ _ _

-- Dampers (R208)

/-- An outcome other than an abandoned step uses up the override of its damper. -/
theorem override_dampStove (s : State) (st b : Nat) {o : Nat} (h : o ≠ 3) : ((s.dampStove st b o).damper st b).override = none := by
  unfold State.dampStove
  dsimp only
  rw [if_neg h, State.damper_setDamper_same]
  cases hov : (s.damper st b).override with
  | some e => rfl
  | none =>
    dsimp only
    split
    · split <;> rfl
    · rfl
    · rfl
theorem damper_dampStove_other (s : State) {st b c d : Nat} (o : Nat) (h : 8 * c + d ≠ 8 * st + b) :
    (s.dampStove st b o).damper c d = s.damper c d := by
  unfold State.dampStove
  dsimp only
  split
  · rfl
  · rw [State.damper_setDamper, if_neg h]
theorem jobs_queue_dampStove (s : State) (st b o : Nat) :
    (s.dampStove st b o).sw.jobs = s.sw.jobs ∧ (s.dampStove st b o).sw.queue = s.sw.queue := by
  unfold State.dampStove
  dsimp only
  split <;> exact ⟨rfl, rfl⟩

-- Resolution

/-- What a resolution does on one stove: its damper, its record and its event. -/
def State.resolveOn (j : Job) (b outcome next : Nat) (s : State) (st : Nat) : State :=
  let e := if outcome = 0 then (j.step + 1) % 2 ^ 48 else s.epoch st b
  ((s.dampStove st b outcome).writeRecord st b next outcome e j.faultCode).raise st 0x80
    (if outcome = 0 then 0 else if outcome = 3 then 2 else 1)

/-- The stoves as a resolution leaves them: dampers, records and events. -/
def State.resolveStoves (s : State) (j : Job) (b outcome : Nat) : State :=
  (List.range 4).foldl (State.resolveOn j b outcome (if outcome = 3 then j.step else (j.step + 1) % 2 ^ 48)) s

/-- What a resolution does last: nothing waits for the step any longer, and the job is over. -/
def State.dropStep (s : State) (j : Job) (b outcome : Nat) : State :=
  let next := if outcome = 3 then j.step else (j.step + 1) % 2 ^ 48
  let s := { s with
    em := { s.em with
      covQueue := s.em.covQueue.filter fun c => c.slot != b
      covers := s.em.covers.filter fun c => c.slot != b
      fragQueue := s.em.fragQueue.filter fun f => f.slot != b
      frags := s.em.frags.filter fun f => f.slot != b
      partOut := tabSet (fun _ => 0) s.em.partOut (partKey b (s.job b).step) 0 }
    sw := { s.sw with
      repairs := s.sw.repairs.filter fun r => !(r.slot == b && r.sweep)
      fixes := s.sw.fixes.filter fun f => f.slot != b || f.kind == 5
      queue := s.sw.queue.filter fun w => w.slot != b } }
  let s := s.setCjob b { s.cjob b with cseq := 0x80000000 }
  let s := { s with fb := { s.fb with early := s.fb.early.filter fun e => e.slot != b || decide (e.step > j.step) } }
  s.setJob b { step := next, vstate := j.vstate, outcome := outcome, contrib := j.contrib.filter fun c => c.2.1 != j.step }

theorem resolve_eq (s : State) (b o : Nat) :
    s.resolve b o = (((s.resolveStoves (s.job b) b o).advanceGen b).clearPending 0 b).dropStep (s.job b) b o := by
  delta State.resolve State.dropStep State.resolveStoves State.resolveOn
  with_reducible rfl

theorem frame_writeRecord (s : State) (st b step outcome epoch code : Nat) :
    Frame (reaching [.mem, .ht, .pg]) s (s.writeRecord st b step outcome epoch code) := by
  unfold State.writeRecord
  dsimp only
  refine Frame.step ?_ (frame_wr _ _ _ _) (by simp [reachParts])
  refine Frame.step ?_ (frame_wr _ _ _ _) (by simp [reachParts])
  refine Frame.step ?_ (frame_wr _ _ _ _) (by simp [reachParts])
  exact (reached_ownWrite s _ _ _ _).frame.mono (by simp [reachParts])
theorem frame_upd_ht_em (s : State) (x : HthSt) (y : EmbSt) : Frame [.ht, .em] s { s with ht := x, em := y } :=
  ((frame_upd_ht s x).mono (by simp)).trans ((frame_upd_em _ y).mono (by simp))
theorem frame_advanceGen (s : State) (b : Nat) : Frame [.ht, .em, .pg] s (s.advanceGen b) := by
  unfold State.advanceGen
  dsimp only
  refine Frame.step ?_ (frame_foldl (l := [.pg]) (fun u _ => frame_wr u _ _ _) _ _)
  exact (frame_upd_ht_em s _ _).mono (by simp)
theorem frame_clearPending (s : State) (st b : Nat) : Frame (reaching [.mem, .ht]) s (s.clearPending st b) :=
  frame_foldl (fun u _ => frame_foldl (fun v _ => frame_ite (reached_ownWrite v _ _ _ _).frame (Frame.refl v)) _ u) _ s

/-- Of the sweep's state a resolution changes only the damper on a stove. -/
theorem sw_resolveOn (j : Job) (b o next : Nat) (s : State) (st : Nat) :
    (s.resolveOn j b o next st).sw = (s.dampStove st b o).sw := by
  unfold State.resolveOn
  dsimp only
  rw [(frame_raise _ _ _ _).sw (by simp), (frame_writeRecord _ _ _ _ _ _ _).sw (by simp [reachParts])]
theorem damper_resolveOn (j : Job) (b o next : Nat) (s : State) (st c d : Nat) :
    (s.resolveOn j b o next st).damper c d = (s.dampStove st b o).damper c d := by
  unfold State.damper
  rw [sw_resolveOn]
theorem jobs_queue_resolveOn (j : Job) (b o next : Nat) (l : List Nat) (s : State) :
    (l.foldl (State.resolveOn j b o next) s).sw.jobs = s.sw.jobs ∧
      (l.foldl (State.resolveOn j b o next) s).sw.queue = s.sw.queue := by
  induction l generalizing s with
  | nil => exact ⟨rfl, rfl⟩
  | cons x l ih =>
    obtain ⟨jobs, queue⟩ := ih (s.resolveOn j b o next x)
    obtain ⟨jobs', queue'⟩ := jobs_queue_dampStove s x b o
    rw [← sw_resolveOn j b o next] at jobs' queue'
    rw [List.foldl_cons]
    exact ⟨jobs.trans jobs', queue.trans queue'⟩
theorem override_resolveOn (j : Job) (b : Nat) {o : Nat} (next : Nat) (h : o ≠ 3) (l : List Nat) (s : State) {st : Nat}
    (hl : st ∈ l) :
    ((l.foldl (State.resolveOn j b o next) s).damper st b).override = none := by
  induction l using List.reverseRecOn with
  | nil => simp at hl
  | append_singleton l x ih =>
    rw [List.foldl_append, List.foldl_cons, List.foldl_nil, damper_resolveOn]
    by_cases hx : st = x
    · rw [hx]
      exact override_dampStove _ _ _ h
    · rw [damper_dampStove_other _ _ (by omega)]
      exact ih (by simpa [hx] using hl)

/-- Beginning a generation and clearing what is pending leaves the sweep's state alone. -/
theorem frame_clearPending_advanceGen (s : State) (b : Nat) :
    Frame (reaching [.mem, .ht, .em, .pg]) s ((s.advanceGen b).clearPending 0 b) :=
  ((frame_advanceGen s b).mono (by simp [reachParts])).step (frame_clearPending _ 0 b) (by simp [reachParts])

theorem jobs_queue_resolveStoves (s : State) (j : Job) (b o : Nat) :
    (s.resolveStoves j b o).sw.jobs = s.sw.jobs ∧ (s.resolveStoves j b o).sw.queue = s.sw.queue := by
  unfold State.resolveStoves
  exact jobs_queue_resolveOn j b o _ _ s
theorem override_resolveStoves (s : State) (j : Job) (b : Nat) {o st : Nat} (h : o ≠ 3) (hst : st < 4) :
    ((s.resolveStoves j b o).damper st b).override = none := by
  unfold State.resolveStoves
  exact override_resolveOn j b _ h _ s (List.mem_range.2 hst)

/-- What a resolution leaves of the sweep: the job is over, no other has changed, nothing of it waits, its overrides are used up. -/
structure Ends (s t : State) (b outcome : Nat) : Prop where
  phase : (t.job b).phase = 0
  jobs : ∀ c, c ≠ b → t.job c = s.job c
  queue : t.sw.queue = s.sw.queue.filter fun w => w.slot != b
  override : outcome ≠ 3 → ∀ st, st < 4 → (t.damper st b).override = none

theorem dropStep_ends {s w : State} {b o : Nat} (j : Job) (jobs : w.sw.jobs = s.sw.jobs) (queue : w.sw.queue = s.sw.queue)
    (used : o ≠ 3 → ∀ st, st < 4 → (w.damper st b).override = none) : Ends s (w.dropStep j b o) b o where
  phase := by simp [State.dropStep]
  jobs c hc := by
    unfold State.dropStep
    rw [State.job_setJob, if_neg hc]
    exact congrArg (tabGet _ · c) jobs
  queue := congrArg (List.filter fun w : SwpWait => w.slot != b) queue
  override := used

theorem resolve_ends (s : State) (b o : Nat) : Ends s (s.resolve b o) b o := by
  obtain ⟨jobs, queue⟩ := jobs_queue_resolveStoves s (s.job b) b o
  have cleared := frame_clearPending_advanceGen (s.resolveStoves (s.job b) b o) b
  rw [resolve_eq]
  generalize ((s.resolveStoves (s.job b) b o).advanceGen b).clearPending 0 b = w at cleared ⊢
  have kept := cleared.sw (by simp [reachParts])
  refine dropStep_ends _ (by rw [kept]; exact jobs) (by rw [kept]; exact queue) fun ho st hst => ?_
  rw [cleared.damper (by simp [reachParts])]
  exact override_resolveStoves s _ b ho hst

/-- A slot that waits alone behind no sweep, to be skipped, is resolved at once (R18). -/
theorem startQueue_skips {s : State} {w : SwpWait} {o : Nat} (hq : s.sw.queue = [w]) (hs : w.skip = some o)
    (hb : ∀ b, b < 8 → (s.job b).phase ≠ 1) :
    s.startQueue = ({ s with sw := { s.sw with queue := [] } } : State).resolve w.slot o := by
  have idle : ((List.range 8).any fun b => (s.job b).phase == 1 && (s.job b).begun && !(s.job b).applied) = false := by
    simp only [List.any_eq_false, List.mem_range]
    intro b hlt
    simp [hb b hlt]
  unfold State.startQueue
  rw [hq, List.foldl_cons, List.foldl_nil]
  dsimp only
  rw [idle, hs, hq, List.erase_cons_head]
  rfl

-- Slots beyond the eight: the number of the damper of slot 8 on a stove is that of slot 0 on the next

/-- The state that a command ends in is the only one. -/
theorem Runs.unique {c : Instr} {s t u : State} (h : Runs c s t) (g : Runs c s u) : t = u :=
  Host.Outcome.next.inj (h.symm.trans g)

/-- Slot 0 is in a step, its damper on stove 1 has an override, and a slot 8, which the module does not have, waits to be resolved. -/
def strayState (j : Job) : State :=
  { State.reset with sw := { State.reset.sw with
      jobs := [(0, j)], dampers := [(8, { override := some 5 })], queue := [⟨8, some 0, ⟨[], [], [], []⟩, []⟩] } }

theorem damper_stray (s : State) : s.damper 1 0 = s.damper 0 8 := rfl

/-- Abandoning the step of slot 0 lets the stray slot use up the override of slot 0's damper on stove 1. -/
theorem stray_uses_override {j : Job} {u : State} (h : Frame [.pg, .out] (strayState j) u) :
    ((u.resolve 0 3).startQueue.damper 1 0).override = none := by
  obtain ⟨phase, jobs, queue, -⟩ := resolve_ends u 0 3
  have sw : u.sw = (strayState j).sw := h.sw (by simp)
  generalize u.resolve 0 3 = t at *
  have waits : t.sw.queue = [⟨8, some 0, ⟨[], [], [], []⟩, []⟩] := by
    rw [queue, sw]
    rfl
  rw [damper_stray, startQueue_skips waits rfl fun b _ => ?_]
  · exact (resolve_ends _ 8 0).override (by decide) 0 (by decide)
  · by_cases hb : b = 0
    · rw [hb, phase]
      decide
    · rw [jobs b hb, h.job (by simp)]
      simp [State.job, strayState, tabGet, hb]

/-- A time limit that has passed is logged and raised, and the step is as it was (R16, R298). -/
theorem frame_timeLimit (s : State) (step : Nat) : Frame [.pg, .out] s ((s.colLog 6 0 0 0 0 0 step).raise 4 0xE0 3) :=
  ((frame_colLog s _ _ _ _ _ _ _).mono (by simp)).step (frame_raise _ _ _ _)

/-- A step is not resolved as abandoned where an override has gone: abandoning moves no damper (R208). -/
theorem not_resolved_of_override {j : Job} {t : State} (h : (t.damper 1 0).override = none) : ¬ Resolved (strayState j) t 0 3 := by
  intro resolved
  rw [resolved.damper 1 (by decide)] at h
  cases h

/-- Refutes O39: the time limit of slot 0's verdict abandons its step and starts the queue; an entry of the queue for a slot 8, against
which the statement has no hypothesis, resolves that slot and changes slot 0's damper on stove 1. -/
theorem not_verdict : ¬ Obligations.Verdict := by
  intro h
  obtain ⟨-, -, -, timeout⟩ := h
  obtain ⟨t, runs, resolved⟩ := timeout 0 (strayState { inStep := true, stepEnd := true }) (by decide) rfl rfl (.inl rfl)
  rw [runs.unique rfl] at resolved
  exact not_resolved_of_override (stray_uses_override (frame_timeLimit _ _)) resolved

/-- Refutes O41: as for the verdict, with the time limit of the commit vote. -/
theorem not_voteAndInstall : ¬ Obligations.VoteAndInstall := by
  intro h
  obtain ⟨-, -, -, timeout, -⟩ := h
  obtain ⟨t, runs, resolved⟩ := timeout 0 (strayState { inStep := true, phase := 1 }) (by decide) rfl (.inl rfl) rfl
  rw [runs.unique rfl] at resolved
  exact not_resolved_of_override (stray_uses_override (frame_timeLimit _ _)) resolved

end Sys2Proof.Machine

/-! Two more states that the statements do not exclude: a walker with no stove, and a context table with two entries of one number. -/

namespace Sys2Proof.Machine

/-- A walker of slot 0 is under way on a stove 4, which the module does not have; slot 1 has the value 7 in its element 0, on stove 0. -/
def strayWalker : State :=
  { State.reset with ht := { State.reset.ht with
      rbs := [(0, { walking := [4] }), (1, { gen := 1 })], tags := [(rbKey 1 0 0, { gen := 1 })], elems := [(2 ^ 30, 7)]
      ways := [(0, (2, 1))] } }

/-- The walk takes element 0 of slot 1 away: its line has the tag number of slot 0's on stove 4, and not slot 0's generation. -/
theorem rbWalk_strayWalker : ∃ t, Runs (.rbWalk 4 0) strayWalker t ∧ t.elem 1 0 = 0 := by
  refine ⟨_, rfl, ?_⟩
  decide +kernel

/-- Refutes O31: the walker keeps every element's value where its stove is one of the four, and the statement has no hypothesis that it
is; a walker of slot 0 on a stove 4 drops the tags of slot 1 on stove 0. -/
theorem not_reductionBuffers : ¬ Obligations.ReductionBuffers := by
  intro h
  obtain ⟨-, -, walk, -⟩ := h
  obtain ⟨t, runs, -, -, keeps, -⟩ := walk 4 0 strayWalker (by decide)
  have kept : t.elem 1 0 = 7 := (keeps (by decide) 1 0 (by decide) (by decide) (by decide +kernel)).trans (by decide +kernel)
  obtain ⟨u, runs', cleared⟩ := rbWalk_strayWalker
  rw [runs.unique runs', cleared] at kept
  exact absurd kept (by decide)

/-- Context 0 has been stopped while its arrays wait to be lent, and a second entry of the table gives its number to an evaluation
context that waits for arrays. -/
def twiceListed : State :=
  { State.reset with cx := { State.reset.cx with
      ctxs := [(0, { state := 2, loanWait := true, stopping := some 1 }), (0, { valid := true, state := 1, kind := 1 })] } }

/-- The stop lends the arrays to the context that lends them, which runs again. -/
theorem stopNowComplete_twiceListed : ∃ t, Runs (.stopNowComplete 0) twiceListed t ∧ (t.ctx 0).state = 2 := by
  refine ⟨_, rfl, ?_⟩
  decide +kernel

/-- Refutes O45: a stop-now ends with its context stopped where the table of contexts has each number once, and the statement has no
hypothesis that it has; a context listed twice borrows its own arrays as it stops. -/
theorem not_flashCommands : ¬ Obligations.FlashCommands := by
  intro h
  obtain ⟨-, -, -, -, complete, -⟩ := h
  obtain ⟨t, runs, -, stopped, -⟩ := complete 0 1 twiceListed rfl rfl rfl fun _ => rfl
  obtain ⟨u, runs', running⟩ := stopNowComplete_twiceListed
  rw [runs.unique runs'] at stopped
  exact stopped running

end Sys2Proof.Machine

/-! Completion records (R241, R263, R271): where memory takes the record of a descriptor, its completion writes those bytes and
leaves the ring free. -/

namespace Sys2Proof.Machine

@[simp] theorem length_leBytes (n v : Nat) : (leBytes n v).length = n := by
  induction n generalizing v with
  | zero => rfl
  | succ n ih => simp [leBytes, ih]

-- What keeps an access to an address from its data

/-- The tiers, the hearth's lost lines and the links say whether an address is reached. -/
theorem hostBad_congr {s t : State} (tr : t.tr = s.tr) (ht : t.ht = s.ht) (uc : t.uc = s.uc) (a n u : Nat) (write : Bool) (st : Nat) :
    t.hostBad a n u write st = s.hostBad a n u write st := by
  cases s
  cases t
  subst tr ht uc
  rfl
theorem hostUnits_congr {s t : State} (tr : t.tr = s.tr) (a n : Nat) : t.hostUnits a n = s.hostUnits a n := by
  cases s
  cases t
  subst tr
  rfl
theorem mrd_congr {s t : State} (mem : t.mem = s.mem) (tr : t.tr = s.tr) (sp : t.sp = s.sp) (a : Nat) : t.mrd a = s.mrd a := by
  cases s
  cases t
  subst mem tr sp
  rfl

-- Records (R271)

theorem addrWrite_goes {s : State} {st a : Nat} {l m : List Byte} (h : (s.addrWrite st a l).2 = none) (hl : m.length = l.length) :
    s.addrWrite st a m = ((s.addrLines a m.length 2 true).mwrN a m, none) := by
  unfold State.addrWrite at h ⊢
  rw [hl]
  split at h
  · cases h
  · rfl
theorem recordGoes_congr {s t : State} {c : Nat} (tr : t.tr = s.tr) (ht : t.ht = s.ht) (uc : t.uc = s.uc) (h : s.recordGoes c) :
    t.recordGoes c := by
  have ring : t.ring c = s.ring c := congrArg (fun u : UciSt => tabGet (fun _ => ({} : Ring)) u.rings c) uc
  intro d hd irq
  rw [ring] at hd ⊢
  have goes := h d hd irq
  unfold State.addrWrite at goes ⊢
  simp only [hostUnits_congr tr, hostBad_congr tr ht uc]
  split at goes
  · cases goes
  · rfl
theorem Frame.recordGoes {l : List Part} {s t : State} {c : Nat} (f : Frame l s t) (h : s.recordGoes c)
    (hl : .tr ∉ l ∧ .ht ∉ l ∧ .uc ∉ l := by simp) : t.recordGoes c :=
  recordGoes_congr (f.tr hl.1) (f.ht hl.2.1) (f.uc hl.2.2) h

theorem mrd_mwrN_outside (s : State) (a b : Nat) (l : List Byte) (h : b < a ∨ a + l.length ≤ b) : (s.mwrN a l).mrd b = s.mrd b := by
  induction l generalizing s a with
  | nil => rfl
  | cons x l ih =>
    rw [List.length_cons] at h
    refine (ih _ _ (by omega)).trans ?_
    rw [mrd_mwr, if_neg (by omega)]

/-- A descriptor of a ring has completed: the ring is free, no context has changed, and of memory at most its record has. -/
structure Completes (s t : State) (c : Nat) (d : List Byte) : Prop where
  reached : Reached [.mem, .cx, .ca, .uc] s t
  cur : (t.ring c).cur = none
  outside : ∀ a, a < (s.ring c).cplBase + 16 * (s.ring c).curIndex ∨ (s.ring c).cplBase + 16 * (s.ring c).curIndex + 16 ≤ a →
    t.mrd a = s.mrd a
  quiet : bitOf (leAt d 1 1) 0 = false → t.mem = s.mem

theorem frame_setRing (s : State) (c : Nat) (v : Ring) : Frame [.uc] s (s.setRing c v) := frame_upd_uc s _

theorem descDone_completes {s : State} {c : Nat} {d : List Byte} (hd : (s.ring c).cur = some d) (goes : s.recordGoes c)
    (status detail : Nat) : Completes s (s.descDone c status detail) c d := by
  unfold State.descDone
  dsimp only
  rw [hd]
  dsimp only
  split
  next irq =>
    rw [addrWrite_goes (goes d hd irq) (by simp)]
    dsimp only
    have lines := reached_addrLines s ((s.ring c).cplBase + 16 * (s.ring c).curIndex) 16 2 true
    refine ⟨?_, by simp, ?_, by simp [irq]⟩
    · refine Reached.step ?_ (frame_setRing _ _ _).reached
      refine Reached.step ?_ (frame_mwrN _ _ _).reached
      exact (Reached.refl s).step lines
    · intro a ha
      exact (mrd_mwrN_outside _ _ _ _ (by simpa using ha)).trans
        (mrd_congr (lines.frame.mem (by simp)) (lines.frame.tr (by simp)) (lines.frame.sp (by simp)) a)
  next =>
    refine ⟨(Reached.refl s).step (frame_setRing s _ _).reached, ?_, fun a _ => rfl, fun _ => rfl⟩
    rw [State.ring_setRing_same]
    split <;> rfl

end Sys2Proof.Machine

/-! What descriptors do (R45, R86, R268 to R271). -/

namespace Sys2Proof.Machine

theorem curDesc_cur {s : State} {c type : Nat} {d : List Byte} (h : s.curDesc c type = some d) : (s.ring c).cur = some d := by
  unfold State.curDesc at h
  split at h
  next e =>
    split at h
    · rw [e, h]
    · cases h
  next => cases h

-- Posts (R86)

theorem sem_setSem (x : Ctx) (k n j : Nat) : (x.setSem k n).sem j = if j = k then n else x.sem j := tabGet_tabSet _ _ _ _ _
/-- A post adds to its semaphore, up to the greatest count. -/
theorem sem_semPost (s : State) (x : Src) (k n j : Nat) :
    ((s.semPost x k n).ctx x.ctx).sem j = if j = k then satAdd 65535 ((s.ctx x.ctx).sem k) n else (s.ctx x.ctx).sem j := by
  have posted : ∀ u : State, ((u.setCtx x.ctx ((s.ctx x.ctx).setSem k (satAdd 65535 ((s.ctx x.ctx).sem k) n))).ctx x.ctx).sem j =
      if j = k then satAdd 65535 ((s.ctx x.ctx).sem k) n else (s.ctx x.ctx).sem j := fun u => by
    rw [State.ctx_setCtx_same, sem_setSem]
  unfold State.semPost
  dsimp only
  split
  · rw [← posted (s.wakeStove (stoveOf x.ctx))]
    unfold State.ctx
    rw [(frame_taintSeq _ _ _ _).cx (by simp), (frame_raise _ _ _ _).cx (by simp), (frame_seqLog _ _ _ _).cx (by simp)]
  · exact posted _

-- Starting a sequencer (R45)

theorem sreg_setSreg (q : Seq) (n k : Nat) (v : W32) : (q.setSreg (n + 1) v).sreg k = if k = n + 1 then v else q.sreg k := by
  unfold Seq.setSreg Seq.sreg
  by_cases hk : k = 0
  · simp [hk]
  · simp [hk, tabGet_tabSet]
theorem sreg_loaded (f : Nat → W32) (q : Seq) {m k : Nat} (h1 : 1 ≤ k) (hm : k ≤ m) :
    ((List.range m).foldl (fun q j => q.setSreg (j + 1) (f j)) q).sreg k = f (k - 1) := by
  induction m with
  | zero => omega
  | succ m ih =>
    rw [List.range_succ, List.foldl_append, List.foldl_cons, List.foldl_nil, sreg_setSreg]
    split
    next e => rw [e, Nat.add_sub_cancel]
    next => exact ih (by omega)

theorem imgHdr_congr {s t : State} (sq : t.sq = s.sq) (sp : t.sp = s.sp) (st k h off n : Nat) :
    t.imgHdr st k h off n = s.imgHdr st k h off n := by
  unfold State.imgHdr State.psN State.slot
  rw [sq, sp]
theorem map_setSt (p : PSlot) (h v : Nat) : (p.setSt h v).map = p.map := by
  unfold PSlot.setSt
  split <;> rfl
/-- A slot's half that drains moves no image. -/
theorem imgHdr_setSt (s : State) (a b h v st k g off n : Nat) :
    (s.setSlot a b ((s.slot a b).setSt h v)).imgHdr st k g off n = s.imgHdr st k g off n := by
  have base : ((s.setSlot a b ((s.slot a b).setSt h v)).slot st k).base g = (s.slot st k).base g := by
    rw [State.slot_setSlot]
    split
    next e =>
      have same : s.slot a b = s.slot st k := by unfold State.slot; rw [e]
      unfold PSlot.base
      rw [map_setSt, same]
    next => rfl
  unfold State.imgHdr
  rw [base]
  rfl

/-- What draining a half leaves of the streams: every sequencer and every image. -/
structure Drains (s t : State) : Prop where
  frame : Frame [.pg, .sq, .out] s t
  seq : ∀ a b, t.seq a b = s.seq a b
  imgHdr : ∀ st k h off n, t.imgHdr st k h off n = s.imgHdr st k h off n

theorem Drains.trans {a b c : State} (h : Drains a b) (g : Drains b c) : Drains a c where
  frame := h.frame.trans g.frame
  seq m e := (g.seq m e).trans (h.seq m e)
  imgHdr st k x off n := (g.imgHdr st k x off n).trans (h.imgHdr st k x off n)

theorem drainHalf_drains (s : State) (st k h : Nat) : Drains s (s.drainHalf st k h) := by
  unfold State.drainHalf
  dsimp only
  split
  · have kept := frame_raise (s.setSlot st k ((s.slot st k).setSt h 0)) st 0x10 4
    refine ⟨Frame.step ?_ kept, fun a b => ?_, fun a b g off n => ?_⟩
    · exact (frame_upd_sq s _).mono (by simp)
    · exact kept.seq (by simp) a b
    · exact (imgHdr_congr (kept.sq (by simp)) (kept.sp (by simp)) _ _ _ _ _).trans (imgHdr_setSt s st k h 0 a b g off n)
  · exact ⟨Frame.refl s, fun _ _ => rfl, fun _ _ _ _ _ => rfl⟩

/-- A sequencer runs for a context from an entry point, with the scalar registers that it had; no other sequencer changes. -/
structure Starts (s t : State) (st n c : Nat) : Prop where
  frame : Frame [.pg, .cx, .sq, .out] s t
  ctx : (t.seq st n).ctx = some c
  state : (t.seq st n).state = 1
  sreg : ∀ k, (t.seq st n).sreg k = (s.seq st n).sreg k
  seqs : ∀ m e, 64 * m + e ≠ 64 * st + n → t.seq m e = s.seq m e

theorem startSeq_starts {s : State} {st n c k e : Nat} (hp : (s.slot st k).pending = false)
    (he : e < s.imgHdr st k (s.slot st k).active 0x15 1) : Starts s (s.startSeq st n c k e) st n c := by
  obtain ⟨w, hw⟩ : ∃ w, s.wakeStove st = w := ⟨_, rfl⟩
  have woken : Frame [.cx] s w := hw ▸ frame_wakeStove s st
  have sq : w.sq = s.sq := woken.sq (by simp)
  have slot := woken.slot (by simp) st k
  have settled : w.switchSlot st k = w := by
    unfold State.switchSlot
    dsimp only
    rw [slot, hp]
    rfl
  unfold State.startSeq
  dsimp only
  rw [hw, settled, slot]
  generalize hv : w.setSeq st n _ = v
  have drains := (drainHalf_drains v (st := st) (k := (s.seq st n).slot) (h := (s.seq st n).half)).trans
    (drainHalf_drains _ st k (1 - (s.slot st k).active))
  generalize (v.drainHalf st (s.seq st n).slot (s.seq st n).half).drainHalf st k (1 - (s.slot st k).active) = t at drains ⊢
  have entry : t.imgHdr st k (s.slot st k).active 0x15 1 = s.imgHdr st k (s.slot st k).active 0x15 1 := by
    rw [drains.imgHdr, ← hv]
    exact imgHdr_congr sq (woken.sp (by simp)) _ _ _ _ _
  have others := woken.seq (by simp)
  rw [entry, if_pos he]
  refine ⟨?_, ?_, ?_, fun j => ?_, fun m x hx => ?_⟩
  · refine Frame.step ?_ drains.frame
    rw [← hv]
    exact (woken.mono (by simp)).step (frame_setSeq _ _ _ _)
  · rw [drains.seq, ← hv, State.seq_setSeq_same]
  · rw [drains.seq, ← hv, State.seq_setSeq_same]
  · rw [drains.seq, ← hv, State.seq_setSeq_same, ← others]
    rfl
  · rw [drains.seq, ← hv, State.seq_setSeq, if_neg hx, others]

-- Runs of the descriptor commands

/-- What a static reject does before it completes: a record, a count and an event. -/
theorem descReject_eq_descDone (s : State) (c status code detail : Nat) : ∃ u, Frame [.pg, .out] s u ∧
    s.descReject c status code detail = u.descDone c status detail := by
  refine ⟨_, ?_, rfl⟩
  refine Frame.step ?_ (frame_raise _ _ _ _)
  refine Frame.step ?_ (frame_bump _ _ _ _)
  exact (frame_logErr s _ _ _).mono (by simp)

theorem runs_note {c : Nat} {d : List Byte} {s : State} (h : s.curDesc c 5 = some d) (hs : descStatic d = none) :
    Runs (.note c) s (s.descDone c 0 0) := by
  show execNote c s = _
  unfold execNote
  simp only [h, hs]
theorem runs_post {c : Nat} {d : List Byte} {s : State} (h : s.curDesc c 4 = some d) (hs : descStatic d = none) :
    Runs (.post c) s ((s.semPost ⟨stoveOf c, 0, 0, c, 0⟩ (bits (descArg d) 4 0) (bits (descArg d) 31 16)).descDone c 0 0) := by
  show execPost c s = _
  unfold execPost
  simp only [h, hs]
/-- The state in which a RUN starts sequencer `n`: the descriptor's scalars are in its registers, and the context runs (R269). -/
def State.runLoaded (s : State) (c n : Nat) (d : List Byte) : State :=
  (s.modSeq (stoveOf c) n fun q =>
    (List.range (bits (descArg d) 17 14)).foldl (fun q k => q.setSreg (k + 1) (w32 (leAt d (8 + 4 * k) 4))) q).modCtx c
      fun x => { x with state := 2 }

theorem frame_runLoaded (s : State) (c n : Nat) (d : List Byte) : Frame [.pg, .cx, .sq, .out] s (s.runLoaded c n d) :=
  ((Frame.refl s).step (frame_setSeq _ _ _ _)).step (frame_setCtx _ _ _)
theorem seq_runLoaded_same (s : State) (c n : Nat) (d : List Byte) : (s.runLoaded c n d).seq (stoveOf c) n =
    (List.range (bits (descArg d) 17 14)).foldl (fun q k => q.setSreg (k + 1) (w32 (leAt d (8 + 4 * k) 4)))
      (s.seq (stoveOf c) n) :=
  State.seq_setSeq_same s _ _ _
theorem seq_runLoaded_other (s : State) {c n m e : Nat} (d : List Byte) (h : 64 * m + e ≠ 64 * stoveOf c + n) :
    (s.runLoaded c n d).seq m e = s.seq m e :=
  (State.seq_setSeq s _ _ _ _ _).trans (if_neg h)

theorem runs_run {c n : Nat} {d : List Byte} {s : State} (h : s.curDesc c 1 = some d) (hs : descStatic d = none)
    (bound : (s.ctx c).isBound = true) (settled : (s.ctx c).rebind = false) (held : bits (descArg d) 5 0 < (s.ctx c).bound.seqs)
    (reason : s.startReason (stoveOf c) c (bits (descArg d) 10 6) (bits (descArg d) 13 11) (s.ctx c).bound.granules = none)
    (hn : nth 0 (s.ctx c).seqs (bits (descArg d) 5 0) = n) (idle : (s.seq (stoveOf c) n).state = 0 ∨ (s.seq (stoveOf c) n).state = 5) :
    Runs (.run c) s (((s.runLoaded c n d).startSeq (stoveOf c) n c (bits (descArg d) 10 6) (bits (descArg d) 13 11)).descDone c 0 0) := by
  have still : ¬ (1 ≤ (s.seq (stoveOf c) n).state ∧ (s.seq (stoveOf c) n).state ≤ 4) := by omega
  show execRun c s = _
  unfold execRun
  simp [h, hs, bound, settled, reason, hn, still, Nat.not_le.2 held, State.runLoaded]

/-- An entry point that RUN accepts is one of its image's. -/
theorem entry_of_startReason {s : State} {st c k e g : Nat} (hp : (s.slot st k).pending = false)
    (h : s.startReason st c k e g = none) : e < s.imgHdr st k (s.slot st k).active 0x15 1 := by
  unfold State.startReason at h
  simp only [hp, Bool.false_eq_true, if_false] at h
  split at h
  · cases h
  next =>
    split at h
    · cases h
    next e => simpa using e

/-- Bytes put into scratchpad touch memory alone. -/
theorem frame_putBytes_spd (s : State) (c : Nat) {v : View} (h : v.place = .spd) (off : Nat) (l : List Byte) :
    Frame [.mem] s (s.putBytes c v off l) := by
  induction l generalizing s off with
  | nil => exact Frame.refl s
  | cons b l ih =>
    unfold State.putBytes
    rw [if_neg (by simp [h])]
    exact (frame_mwr s _ b).trans (ih _ _)
theorem inlineMeets_ok (s : State) (x : Src) (v : View) (n : Nat) : s.inlineMeets x v n .ok = (s, true) := by
  unfold State.inlineMeets
  split <;> rfl

theorem runs_inline_virt {c va : Nat} {d : List Byte} {s : State} (h : s.curDesc c 3 = some d) (hs : descStatic d = none)
    (bound : (s.ctx c).isBound = true) (settled : (s.ctx c).rebind = false) (virt : bitOf (descArg d) 6 = true)
    (hva : descArg2 d + 2 ^ 32 * leAt d (8 + 46) 2 = va) (mapped : s.mapped c va (bits (descArg d) 5 0) true = true)
    (unguarded : s.guarded c va (bits (descArg d) 5 0) = false)
    (clear : s.memBad (stoveOf c) c [(va, bits (descArg d) 5 0)] true = none) :
    Runs (.inlineI ⟨c, .ok⟩) s (((s.vwrN c va ((d.drop 8).take (bits (descArg d) 5 0))).reachW c
      [(va, bits (descArg d) 5 0)]).descDone c 0 0) := by
  have address : descArg2 d + 4294967296 * leAt d 54 2 = va := hva
  show execInlineI ⟨c, .ok⟩ s = _
  unfold execInlineI
  simp [h, hs, bound, settled, virt, address, mapped, unguarded, clear, inlineMeets_ok]

/-- The words of the window that an INLINE into scratchpad writes whole are good again (R143). -/
def State.wordsRenewed (s : State) (c o n : Nat) : State :=
  let phys := fun (l : List Nat) => l.filterMap (s.winAddr c)
  let parts := phys (partWords o n)
  let whole := (phys ((List.range ((o + n + 7) / 8 - o / 8)).map fun k => 8 * (o / 8 + k))).filter fun w => !has parts w
  { s with tr := { s.tr with bad := s.tr.bad.filter fun w => !has whole w } }

theorem runs_inline_spd {c : Nat} {d : List Byte} {s : State} (h : s.curDesc c 3 = some d) (hs : descStatic d = none)
    (bound : (s.ctx c).isBound = true) (settled : (s.ctx c).rebind = false) (spd : bitOf (descArg d) 6 = false)
    (inside : descArg2 d + bits (descArg d) 5 0 ≤ s.window c) (apart : s.hitsLift c (descArg2 d) (bits (descArg d) 5 0) = false)
    (ready : ((s.linesOf c [(descArg2 d, bits (descArg d) 5 0)]).any fun l => (s.tag (stoveOf c) l).pending) = false)
    (good : ∀ w ∈ (partWords (descArg2 d) (bits (descArg d) 5 0)).filterMap (s.winAddr c), has s.tr.bad w = false) :
    Runs (.inlineI ⟨c, .ok⟩) s (((s.wordsRenewed c (descArg2 d) (bits (descArg d) 5 0)).putBytes c
      { place := .spd, addr := descArg2 d } 0 ((d.drop 8).take (bits (descArg d) 5 0))).descDone c 0 0) := by
  have none_bad : ((partWords (descArg2 d) (bits (descArg d) 5 0)).filterMap (s.winAddr c)).find? (has s.tr.bad ·) = none :=
    List.find?_eq_none.2 fun w hw => by simp [good w hw]
  show execInlineI ⟨c, .ok⟩ s = _
  unfold execInlineI
  simp only [h, hs, bound, settled, spd, apart, ready, none_bad, inlineMeets_ok, Nat.not_lt.2 inside]
  rfl

-- STEP (R270)

theorem frame_beginStep (s : State) (b step passes : Nat) : Frame [.sw, .fb] s (s.beginStep b step passes) := by
  unfold State.beginStep
  dsimp only
  refine Frame.step ?_ (frame_setJob _ _ _)
  exact ((Frame.refl s).step (frame_upd_sw s _)).step (frame_upd_fb _ _)
/-- The step in progress as STEP opens it: taint held since the last one, or an early ABORT, is its own (R18, R270). -/
theorem job_beginStep (s : State) (b step passes : Nat) :
    let abort := s.fb.early.any fun e => e.op == 16 && e.slot == b && e.step == step
    (s.beginStep b step passes).job b =
      { inStep := true, step := step, passes := passes, taint := (s.job b).heldTaint || abort, abortSeen := abort,
        contrib := (s.job b).contrib, outcome := (s.job b).outcome } :=
  State.job_setJob_same _ _ _
theorem cseq_beginStep (s : State) (b step passes : Nat) : ((s.beginStep b step passes).cjob b).cseq = 0 :=
  congrArg ColJob.cseq (State.cjob_setCjob_same (s.rotateBanks b) b _)

theorem runs_tryStep {c : Nat} {cmd : Instr} (h : cmd = .step c ∨ cmd = .stepWaitResume c) (s : State) : Runs cmd s (s.tryStep c) := by
  obtain rfl | rfl := h <;> rfl

/-- The step that a STEP descriptor names. -/
def descStep (d : List Byte) : Nat := leAt d 8 4 + 2 ^ 32 * (descArg2 d % 65536)

theorem tryStep_eq {s : State} {c : Nat} {d : List Byte} (h : s.curDesc c 2 = some d) (hs : descStatic d = none)
    (job : (s.ctx c).isJob = true) (all : ∀ t, t < 4 → bitOf (s.swpCtrl t (s.ctx c).slot).toNat 0 = true)
    (own : bitOf (s.swpCtrl (stoveOf c) (s.ctx c).slot).toNat 0 = true) :
    s.tryStep c = 
      if (s.job (s.ctx c).slot).inStep then
        if descStep d = (s.job (s.ctx c).slot).step then
          (if bits (descArg d) 8 0 = (s.job (s.ctx c).slot).passes ∨ bits (descArg d) 8 0 = 0 then s.descDone c 0 0
            else s.descReject c 3 6 (descStep d))
        else s
      else if descStep d ≠ s.nextStep (stoveOf c) (s.ctx c).slot then s.descReject c 3 6 (descStep d)
      else if bits (descArg d) 8 0 = 0 then s.descDone c 0 0
      else (s.beginStep (s.ctx c).slot (descStep d) (bits (descArg d) 8 0)).descDone c 0 0 := by
  have on : ((List.range 4).any fun t => !bitOf (s.swpCtrl t (s.ctx c).slot).toNat 0) = false := by
    simp only [List.any_eq_false, List.mem_range]
    intro t ht
    simp [all t ht]
  unfold State.tryStep
  simp only [h, hs, job, own, on]
  rfl

-- Turned away

theorem runs_static {c : Nat} {d : List Byte} {status code v : Nat} {e : Ecc} {s : State} {cmd : Instr}
    (h : ((cmd = .run c ∧ s.curDesc c 1 = some d ∨ cmd = .inlineI ⟨c, e⟩ ∧ s.curDesc c 3 = some d) ∧
      (s.ctx c).isBound = true ∧ (s.ctx c).rebind = false) ∨ (cmd = .post c ∧ s.curDesc c 4 = some d) ∨
      (cmd = .note c ∧ s.curDesc c 5 = some d))
    (hs : descStatic d = some (status, code, v)) : Runs cmd s (s.descReject c status code v) := by
  rcases h with ⟨⟨rfl, cur⟩ | ⟨rfl, cur⟩, bound, settled⟩ | ⟨rfl, cur⟩ | ⟨rfl, cur⟩
  · show execRun c s = _
    unfold execRun
    simp [cur, bound, settled, hs]
  · show execInlineI ⟨c, e⟩ s = _
    unfold execInlineI
    simp [cur, bound, settled, hs]
  · show execPost c s = _
    unfold execPost
    simp only [cur, hs]
  · show execNote c s = _
    unfold execNote
    simp only [cur, hs]
theorem runs_unbound {c : Nat} {e : Ecc} {s : State} {cmd : Instr} (hc : cmd = .run c ∨ cmd = .inlineI ⟨c, e⟩)
    (h : (s.ctx c).isBound = false ∨ (s.ctx c).rebind = true) : Runs cmd s s := by
  have waits : (!(s.ctx c).isBound) = true ∨ (s.ctx c).rebind = true := by simpa using h
  obtain rfl | rfl := hc
  · show execRun c s = _
    unfold execRun
    split
    · rfl
    · simp only [if_pos waits]
  · show execInlineI ⟨c, e⟩ s = _
    unfold execInlineI
    dsimp only
    split
    · rfl
    · simp only [if_pos waits]

-- The statement

/-- A completion after changes elsewhere is a completion of the ring that there was. -/
theorem Completes.after {s u t : State} {c : Nat} {d : List Byte} {l : List Part} (f : Frame l s u) (h : Completes u t c d)
    (hl : .uc ∉ l ∧ .mem ∉ l ∧ .tr ∉ l ∧ .sp ∉ l := by simp) :
    (∀ a, a < (s.ring c).cplBase + 16 * (s.ring c).curIndex ∨ (s.ring c).cplBase + 16 * (s.ring c).curIndex + 16 ≤ a →
      t.mrd a = s.mrd a) ∧ (bitOf (leAt d 1 1) 0 = false → t.mem = s.mem) := by
  have mem := f.mem hl.2.1
  refine ⟨fun a ha => ?_, fun q => (h.quiet q).trans mem⟩
  rw [← f.ring hl.1] at ha
  exact (h.outside a ha).trans (mrd_congr mem (f.tr hl.2.2.1) (f.sp hl.2.2.2) a)

/-- Where other parts than the rings have changed, a descriptor that memory takes the record of completes. -/
theorem descDone_completes_after {s u : State} {c : Nat} {d : List Byte} {l : List Part} (f : Frame l s u)
    (hd : (s.ring c).cur = some d) (goes : s.recordGoes c) (status detail : Nat)
    (hl : .tr ∉ l ∧ .ht ∉ l ∧ .uc ∉ l := by simp) : Completes u (u.descDone c status detail) c d :=
  descDone_completes ((f.ring hl.2.2 c).symm ▸ hd) (f.recordGoes goes hl) status detail

/-- The step that a STEP opens, once its descriptor has completed (R270). -/
theorem beginStep_completes {s : State} {c : Nat} {d : List Byte} (hd : (s.ring c).cur = some d) (goes : s.recordGoes c)
    (b step n : Nat) :
    let t := (s.beginStep b step n).descDone c 0 0
    (t.job b).inStep = true ∧ (t.job b).step = step ∧ (t.job b).passes = n ∧ (t.job b).sent = false ∧
      ((s.job b).heldTaint = true → (t.job b).taint = true) ∧ (t.cjob b).cseq = 0 ∧ (t.ring c).cur = none := by
  have done := descDone_completes_after (frame_beginStep s b step n) hd goes 0 0
  have job : ((s.beginStep b step n).descDone c 0 0).job b = (s.beginStep b step n).job b :=
    done.reached.frame.job (by simp) b
  have col : ((s.beginStep b step n).descDone c 0 0).cjob b = (s.beginStep b step n).cjob b :=
    done.reached.frame.cjob (by simp) b
  dsimp only
  rw [job, col, job_beginStep, cseq_beginStep]
  exact ⟨rfl, rfl, rfl, rfl, fun held => by simp [held], rfl, done.cur⟩

/-- Settles O44: each descriptor's effect, then its completion, which touches nothing but the ring and its record. -/
theorem descriptors : Obligations.Descriptors := by
  refine ⟨?run, ?inline, ?post, ?note, ?step, ?unbound, ?static⟩
  case run =>
    intro c d s cur hs goes bound settled st a n held pending reason idle
    have starts : Starts (s.runLoaded c n d) _ st n c := startSeq_starts pending (entry_of_startReason pending reason)
    have frame := (frame_runLoaded s c n d).trans starts.frame
    have done := descDone_completes_after frame (curDesc_cur cur) goes 0 0
    have seq := done.reached.frame.seq (by simp)
    refine ⟨_, runs_run cur hs bound settled held reason rfl idle, ?_, ?_, fun k h1 hk _ => ?_, done.cur, fun m e hne => ?_, ?_⟩
    · rw [seq, starts.ctx]
    · rw [seq, starts.state]
    · rw [seq, starts.sreg, seq_runLoaded_same, sreg_loaded (fun k => w32 (leAt d (8 + 4 * k) 4)) _ h1 hk,
        show 8 + 4 * (k - 1) = 4 + 4 * k by omega]
    · rw [seq, starts.seqs m e hne, seq_runLoaded_other s d hne]
    · exact (frame.mono (by simp)).step done.reached.frame
  case inline =>
    intro c d s cur hs bound settled n o va
    refine ⟨fun virt mapped unguarded clear => ?_, fun spd inside apart ready => ?_⟩
    · refine ⟨_, runs_inline_virt cur hs bound settled virt rfl mapped unguarded clear, rfl, fun goes => ?_⟩
      have written : Frame (reaching [.mem, .ht]) s ((s.vwrN c va ((d.drop 8).take n)).reachW c [(va, n)]) :=
        ((frame_vwrN s _ _ _).mono (by simp [reachParts])).step (reached_reachW _ _ _).frame (by simp [reachParts])
      have done := descDone_completes ((written.ring (by simp [reachParts]) c).symm ▸ curDesc_cur cur) goes 0 0
      exact (written.mono (by simp [reachParts])).step done.reached.frame (by simp [reachParts])
    · intro phys parts whole good
      refine ⟨_, runs_inline_spd cur hs bound settled spd inside apart ready good, rfl, fun goes => ?_⟩
      have renewed : Frame [.mem, .tr] s (s.wordsRenewed c o n) := (Frame.refl s).step (frame_upd_tr s _)
      have put := frame_putBytes_spd (s.wordsRenewed c o n) c (v := { place := .spd, addr := o }) rfl 0 ((d.drop 8).take n)
      have written := renewed.step put
      have done := descDone_completes_after put ((renewed.ring (by simp) c).symm ▸ curDesc_cur cur) goes 0 0
      exact (written.mono (by simp [reachParts])).step done.reached.frame (by simp [reachParts])
  case post =>
    intro c d s cur hs goes
    have frame := frame_semPost s ⟨stoveOf c, 0, 0, c, 0⟩ (bits (descArg d) 4 0) (bits (descArg d) 31 16)
    have done := descDone_completes_after frame (curDesc_cur cur) goes 0 0
    refine ⟨_, runs_post cur hs, fun k => ?_, done.cur, (frame.mono (by simp)).step done.reached.frame⟩
    rw [done.reached.ctx, sem_semPost]
    by_cases hk : k = bits (descArg d) 4 0
    · rw [if_pos hk, if_pos hk, hk]
    · rw [if_neg hk, if_neg hk]
  case note =>
    intro c d s cur hs goes
    have done := descDone_completes (curDesc_cur cur) goes 0 0
    exact ⟨_, runs_note cur hs, rfl, done.cur, done.reached.frame⟩
  case step =>
    intro c d s cmd hc cur hs job all own
    have runs := runs_tryStep hc s
    rw [tryStep_eq cur hs job all own] at runs
    dsimp only
    refine ⟨fun out (named : descStep d = _) counts goes => ?_, fun out (named : descStep d = _) empty => ?_,
      fun out (other : descStep d ≠ _) => ?_, fun within (named : descStep d = _) same => ?_,
      fun within (named : descStep d = _) differs counts => ?_, fun within (other : descStep d ≠ _) => ?_⟩
    · have opened := beginStep_completes (curDesc_cur cur) goes (s.ctx c).slot (descStep d) (bits (descArg d) 8 0)
      rw [if_neg (by simp [out]), if_neg (not_not.2 named), if_neg counts] at runs
      exact ⟨_, runs, opened⟩
    · rw [if_neg (by simp [out]), if_neg (not_not.2 named), if_pos empty] at runs
      exact runs
    · rw [if_neg (by simp [out]), if_pos other] at runs
      exact runs
    · rw [if_pos within, if_pos named, if_pos same] at runs
      exact runs
    · rw [if_pos within, if_pos named, if_neg (by simp [differs, counts])] at runs
      exact runs
    · rw [if_pos within, if_neg other] at runs
      exact runs
  case unbound => exact fun c e s cmd hc h => runs_unbound hc h
  case static =>
    intro c d status code v e s cmd hc hs goes
    obtain ⟨u, frame, eq⟩ := descReject_eq_descDone s c status code v
    have cur : (s.ring c).cur = some d := by
      rcases hc with ⟨⟨-, cur⟩ | ⟨-, cur⟩, -⟩ | ⟨-, cur⟩ | ⟨-, cur⟩ <;> exact curDesc_cur cur
    have done := descDone_completes_after frame cur goes status v
    rw [← eq] at done
    exact ⟨_, runs_static hc hs, done.cur, (frame.mono (by simp)).step done.reached.frame, done.after frame⟩

end Sys2Proof.Machine

/-! A product that the statements do not exclude: its second output, which R61 keeps in scratchpad, lies in a reduction buffer. -/

namespace Sys2Proof.Machine

/-- A product of two segments and one element with its outputs, also the second one, in the reduction buffer. -/
def bufferedSecond : Product :=
  { kind := prodN, a := { fmt := .i4s, grain := .square, rows := 1, cols := 4097 }
    b := { fmt := .i4s, grain := .square, rows := 4097, cols := 1 }, c := { place := .rb, cls := .grad, rows := 1, cols := 1 }
    d := some { place := .rb, rows := 1, cols := 1 }
    tree := some { rows := 1, cols := 2 }, z := none, m := 1, n := 1, k := 4097, gs := 32, func := 0, deriv := false, alpha := 0
    table := [], beats := [(0, 16), (1, 1)], acc := [], trees := [], ended := false }

/-- The flight of that product. -/
def bufferedFlight : Flight := ⟨7, 0, 0, 0, prodN, 0x400, 0, none, [], [], .product bufferedSecond, []⟩

/-- It is in flight, and its slot's buffer has no ways: every line is spilled to virtual address 0 on, at the start of the cold tier. -/
def spilledState : State :=
  { State.reset with
    sq := { State.reset.sq with flights := [bufferedFlight] }
    tr := { State.reset.tr with ptes := [(0, { valid := true, write := true, frame := 2 ^ 20 })] } }

/-- The state in which a command that completes ends. -/
theorem Runs.after {c : Instr} {s t : State} (h : Runs c s t) : Res.after (exec c s) s = t := by
  rw [h]
  rfl

/-- The tree pass writes the second output into the buffer, and with it the line's tag record into the spill region (R144). -/
theorem mrd_treePass_spilledState :
    (Res.after (exec (.treePass 7 ⟨0, .ok⟩) spilledState) spilledState).mrd (coldBase + 3) = 1 := by
  decide +kernel

theorem fits_bufferedSecond : bufferedSecond.Fits := by
  refine ⟨rfl, fun v hv => ?_, fun v hv => ?_⟩
  · cases hv
    rfl
  · cases hv
    exact ⟨rfl, rfl, rfl, rfl⟩

theorem place_outputs_bufferedSecond : ∀ v ∈ bufferedSecond.c :: bufferedSecond.d.toList, v.place = .rb := by decide

/-- No byte of a view in the reduction buffer is a byte of memory. -/
theorem byteAddr_rb {s : State} {c : Nat} {v : View} (h : v.place = .rb) (off : Nat) : s.byteAddr c v off = 2 ^ 48 := by
  unfold State.byteAddr
  rw [h]

/-- Refutes O18: a tree pass writes memory only in the views of its outputs where the second output lies in scratchpad, as R61 has it,
and the statement has no hypothesis that it does; a second output in a spilled reduction buffer changes the bytes of the spill region. -/
theorem not_treesAndCompletions : ¬ Obligations.TreesAndCompletions := by
  intro h
  obtain ⟨pass, -⟩ := h
  obtain ⟨t, -, runs, -, -, outside, -⟩ := pass 7 0 bufferedFlight bufferedSecond _ spilledState rfl rfl rfl rfl fits_bufferedSecond
    (by decide) (by decide) rfl (by decide) (by decide +kernel)
  have kept : t.mrd (coldBase + 3) = 0 := by
    refine (outside _ fun v hv r _ j _ => ?_).trans (by decide +kernel)
    rw [byteAddr_rb (place_outputs_bufferedSecond v hv)]
    decide
  rw [← runs.after, mrd_treePass_spilledState] at kept
  exact absurd kept (by decide)

end Sys2Proof.Machine

/-! Operands of the multipliers (R24). -/

namespace Sys2Proof.Machine

theorem rfloor_intCast (n : Int) : rfloor n = n := by simp [rfloor]

/-- A field of w bits in two's complement. -/
theorem sx_bounds (n : Nat) {w : Nat} (hw : 0 < w) : -2 ^ (w - 1) ≤ sx n w ∧ sx n w < 2 ^ (w - 1) := by
  have double : (2 : Int) ^ w = 2 * 2 ^ (w - 1) := by rw [← pow_succ', Nat.sub_add_cancel hw]
  have nonneg : 0 ≤ (n : Int) % 2 ^ w := Int.emod_nonneg _ (by positivity)
  have below : (n : Int) % 2 ^ w < 2 ^ w := Int.emod_lt_of_pos _ (by positivity)
  have half : n % 2 ^ w < 2 ^ (w - 1) ↔ (n : Int) % 2 ^ w < 2 ^ (w - 1) := by norm_cast
  unfold sx
  rw [if_congr half rfl rfl]
  split <;> omega

/-- Twice an F4 value is an integer of at most 12 (R21). -/
theorem two_mul_decF4 (c : Nat) : ∃ n : Int, 2 * decF4 c = n ∧ -12 ≤ n ∧ n ≤ 12 := by
  have digits : ∀ k : Fin 16, ∃ n ∈ Finset.Icc (-12 : Int) 12, 2 * decF4 k = n := by decide +kernel
  have reduced : decF4 c = decF4 (c % 16) := by
    unfold decF4
    rw [Nat.mod_mod, Nat.mod_mod_of_dvd c (by decide)]
  obtain ⟨n, hn, eq⟩ := digits ⟨c % 16, Nat.mod_lt c (by decide)⟩
  rw [Finset.mem_Icc] at hn
  exact ⟨n, reduced ▸ eq, hn⟩

-- The operand of each format

section Formats
variable (z c : Nat)

theorem mulOperand_f4 : (mulOperand .f4 z c : ℚ) = 2 * decF4 c := by
  obtain ⟨n, eq, -⟩ := two_mul_decF4 c
  unfold mulOperand
  dsimp only
  rw [eq, rfloor_intCast]
theorem mulOperand_i4u : mulOperand .i4u z c = (c % 16 : Int) - z := by
  simpa [mulOperand, codeVal] using rfloor_intCast ((c % 16 : Int) - z)
theorem mulOperand_i3u : mulOperand .i3u z c = (c % 8 : Int) - z := by
  simpa [mulOperand, codeVal] using rfloor_intCast ((c % 8 : Int) - z)
theorem mulOperand_i4s : mulOperand .i4s z c = sx c 4 := rfloor_intCast _
theorem mulOperand_i3s : mulOperand .i3s z c = sx c 3 := rfloor_intCast _
theorem mulOperand_i2s : mulOperand .i2s z c = sx c 2 := rfloor_intCast _
theorem mulOperand_t2 : mulOperand .t2 z c = if c % 4 = 1 then 1 else if c % 4 = 3 then -1 else 0 := by
  rw [← rfloor_intCast (if c % 4 = 1 then 1 else if c % 4 = 3 then -1 else 0)]
  push_cast
  rfl

end Formats

/-- The formats that a multiplier takes (R24). -/
def Multiplied (f : Fmt) : Prop := f = .f4 ∨ f = .i4s ∨ f = .i4u ∨ f = .i3s ∨ f = .i3u ∨ f = .i2s ∨ f = .t2

/-- Every operand is a 5-bit signed integer, and none is −16. -/
theorem abs_mulOperand_le {f : Fmt} (h : Multiplied f) {z : Nat} (hz : z ≤ 15) (c : Nat) : |mulOperand f z c| ≤ 15 := by
  rw [abs_le]
  rcases h with rfl | rfl | rfl | rfl | rfl | rfl | rfl
  · obtain ⟨n, eq, bounds⟩ := two_mul_decF4 c
    have value : mulOperand .f4 z c = n := by exact_mod_cast (mulOperand_f4 z c).trans eq
    omega
  · have := sx_bounds c (w := 4) (by decide)
    rw [mulOperand_i4s]
    omega
  · rw [mulOperand_i4u]
    omega
  · have := sx_bounds c (w := 3) (by decide)
    rw [mulOperand_i3s]
    omega
  · rw [mulOperand_i3u]
    omega
  · have := sx_bounds c (w := 2) (by decide)
    rw [mulOperand_i2s]
    omega
  · rw [mulOperand_t2]
    split
    · decide
    · split <;> decide

theorem abs_mul_mulOperand_le {f g : Fmt} (hf : Multiplied f) (hg : Multiplied g) {y z : Nat} (hy : y ≤ 15) (hz : z ≤ 15)
    (c d : Nat) : |mulOperand f y c * mulOperand g z d| ≤ 225 := by
  rw [abs_mul]
  exact mul_le_mul (abs_mulOperand_le hf hy c) (abs_mulOperand_le hg hz d) (abs_nonneg _) (by decide)

/-- At most 128 numbers that are products of operands in size have a sum that 16 bits hold. -/
theorem toInt_ofInt_sum {l : List Int} (hl : l.length ≤ 128) (h : ∀ x ∈ l, |x| ≤ 225) : (BitVec.ofInt 16 l.sum).toInt = l.sum := by
  have lower := l.card_nsmul_le_sum (-225) fun x hx => (abs_le.1 (h x hx)).1
  have upper := l.sum_le_card_nsmul 225 fun x hx => (abs_le.1 (h x hx)).2
  rw [nsmul_eq_mul] at lower upper
  rw [BitVec.toInt_ofInt]
  exact Int.bmod_eq_of_le (by omega) (by omega)

theorem f4Flags_eq (v w : View) : f4Flags v w = (if v.fmt = .f4 then 1 else 0) + (if w.fmt = .f4 then 1 else 0) := by
  simp [f4Flags, b2n]

/-- Settles O56: format by format, then from the bound of an operand those of a product and of a sum. -/
theorem multiplierOperands : Obligations.MultiplierOperands := by
  unfold Obligations.MultiplierOperands
  intro takes
  refine ⟨fun z c => ?_, fun f z c hf hz => ?_, fun f g y z c d hf hg hy hz => ?_, fun f g y z l hf hg hy hz hl => ?_, f4Flags_eq⟩
  · exact ⟨mulOperand_f4 z c, mulOperand_i4u z c, mulOperand_i3u z c, mulOperand_i4s z c, mulOperand_i3s z c, mulOperand_i2s z c,
      mulOperand_t2 z c⟩
  · exact abs_le.1 (abs_mulOperand_le hf hz c)
  · exact abs_le.1 (abs_mul_mulOperand_le hf hg hy hz c d)
  · refine toInt_ofInt_sum (by rwa [List.length_map]) fun x hx => ?_
    obtain ⟨p, -, rfl⟩ := List.mem_map.1 hx
    exact abs_mul_mulOperand_le hf hg hy hz p.1 p.2

end Sys2Proof.Machine

/-! Products that the array pool turns away (R56, R94): what a post and a skip leave of the flights, of the counters and of the
context's semaphores. -/

namespace Sys2Proof.Machine

-- Counters beside events (R342)

/-- Registers of different places within a die have different keys. -/
theorem regKey_ne {d e r q : Nat} (hr : r < 0x1000000) (hq : q < 0x1000000) (h : r ≠ q) : regKey d r ≠ regKey e q := by
  unfold regKey
  omega

/-- The interrupt of a page changes no register but those of its source entries (R277). -/
theorem State.rd_sendSource_other (s : State) (d e : Nat) {p r : Nat} (hp : p < 4096) (hr : r < 0x1000000)
    (h : r ≠ Reg.UCI_SRC_p_CTRL + 8 * p) : (s.sendSource d p).rd e r = s.rd e r := by
  have source : Reg.UCI_SRC_p_CTRL + 8 * p < 0x1000000 := by
    show 0x0C9804 + 8 * p < 0x1000000
    omega
  unfold State.sendSource
  dsimp only
  split
  · rw [State.rd_wr, if_neg (regKey_ne hr source h)]
  · rfl
theorem State.rd_sendIrq_other (s : State) (d e : Nat) {p r : Nat} (hp : p < 4096) (hr : r < 0x1000000)
    (h : r ≠ Reg.UCI_SRC_p_CTRL + 8 * p) : (s.sendIrq d p).rd e r = s.rd e r := by
  have sent := fun (u : State) (d : Nat) => State.rd_sendSource_other u d e hp hr h
  unfold State.sendIrq
  split
  · rfl
  · split
    · rw [sent, sent]
    · exact sent s d
/-- An event changes its page's header, and may send the interrupt (R342). -/
theorem raise_eq (s : State) (d p b : Nat) :
    ∃ h, s.raise d p b = s.setHdr d p h ∨ s.raise d p b = (s.setHdr d p h).sendIrq d p :=
  ⟨_, (ite_eq_or_eq _ _ _).symm⟩
/-- An event changes no register but those of its page's source entries (R277, R342). -/
theorem State.rd_raise_other (s : State) (d b e : Nat) {p r : Nat} (hp : p < 4096) (hr : r < 0x1000000)
    (h : r ≠ Reg.UCI_SRC_p_CTRL + 8 * p) : (s.raise d p b).rd e r = s.rd e r := by
  obtain ⟨v, eq | eq⟩ := raise_eq s d p b
  · rw [eq, State.rd_setHdr]
  · rw [eq, State.rd_sendIrq_other _ _ _ hp hr h, State.rd_setHdr]

/-- A counter after an addition to it. -/
theorem State.rdN_bump_same (s : State) (d r n : Nat) : (s.bump d r n).rdN d r = satAdd 0xFFFFFFFF (s.rdN d r) n := by
  have bound : satAdd 0xFFFFFFFF (s.rdN d r) n ≤ 0xFFFFFFFF := Nat.min_le_left _ _
  show (State.rd _ d r).toNat = _
  unfold State.bump
  rw [State.rd_wr_same]
  exact Nat.mod_eq_of_lt (by omega)

-- Posts and skips

/-- The state has changed within some parts, and what is in flight is as it was. -/
structure SameFlights (l : List Part) (s t : State) : Prop where
  frame : Frame l s t
  flights : t.sq.flights = s.sq.flights

theorem SameFlights.step {l m : List Part} {a b c : State} (h : SameFlights l a b) (g : SameFlights m b c)
    (hm : ∀ p ∈ m, p ∈ l := by simp) : SameFlights l a c :=
  ⟨h.frame.step g.frame hm, g.flights.trans h.flights⟩
theorem Frame.sameFlights {l : List Part} {s t : State} (h : Frame l s t) (hq : .sq ∉ l := by simp) : SameFlights l s t :=
  ⟨h, by rw [h.sq hq]⟩
theorem SameFlights.refl {l : List Part} (s : State) : SameFlights l s s := ⟨Frame.refl s, rfl⟩

theorem sameFlights_setSeq (s : State) (a b : Nat) (q : Seq) : SameFlights [.sq] s (s.setSeq a b q) := ⟨frame_setSeq s a b q, rfl⟩
theorem sameFlights_taintSeq (s : State) (a b c : Nat) : SameFlights [.sw, .sq] s (s.taintSeq a b c) := by
  refine ⟨frame_taintSeq s a b c, ?_⟩
  unfold State.taintSeq
  split
  · rfl
  · split <;> rfl
/-- What issuing changes: no flight (R82, R86). -/
theorem sameFlights_atIssue (s : State) (i : Iss) (op c : Nat) : SameFlights [.pg, .cx, .sq] s (s.atIssue i op c) := by
  have fetched := (SameFlights.refl (l := [.pg, .cx, .sq]) s).step (frame_fetched s i).sameFlights
  refine fetched.step ⟨frame_issued _ i _, ?_⟩
  unfold State.atIssue State.issued
  dsimp only
  split <;> rfl

/-- The parts that a post and a skip may touch. -/
abbrev postParts : List Part := [.pg, .cx, .sq, .sw, .out]

theorem sameFlights_postOpt (s : State) (x : Src) (o : Option Nat) : SameFlights postParts s (s.postOpt x o) := by
  cases o with
  | none => exact SameFlights.refl s
  | some k =>
    unfold State.postOpt State.semPost
    have posted : ∀ y : Ctx, SameFlights postParts s ((s.wakeStove (stoveOf x.ctx)).setCtx x.ctx y) := fun y =>
      ((SameFlights.refl s).step (frame_wakeStove s _).sameFlights).step (frame_setCtx _ _ _).sameFlights
    dsimp only
    split
    · exact (((posted _).step (frame_seqLog _ _ _ _).sameFlights).step (frame_raise _ _ _ _).sameFlights).step
        (sameFlights_taintSeq _ _ _ _)
    · exact posted _
/-- A skipped instruction enters no queue (R94). -/
theorem sameFlights_skip (s : State) (i : Iss) (x : Src) (code detail : Nat) :
    SameFlights postParts s (s.skip i x code detail) := by
  unfold State.skip State.skipAs
  dsimp only
  refine SameFlights.step ?_ (sameFlights_taintSeq _ _ _ _)
  refine SameFlights.step ?_ (sameFlights_setSeq _ _ _ _)
  refine SameFlights.step ?_ (frame_raise _ _ _ _).sameFlights
  refine SameFlights.step ?_ (frame_bump _ _ _ _).sameFlights
  exact (sameFlights_postOpt s x i.post).step (frame_seqLog _ _ _ _).sameFlights

/-- A part that pages do not share keeps every register word. -/
theorem Frame.rd {l : List Part} {s t : State} (f : Frame l s t) (h : .pg ∉ l) (d r : Nat) : t.rd d r = s.rd d r := by
  unfold State.rd
  rw [f.pg h]

/-- A post changes no register but those of source entries. -/
theorem State.rd_postOpt_other (s : State) (x : Src) (o : Option Nat) (d : Nat) {r : Nat} (hr : r < 0x1000000)
    (h : r ≠ Reg.UCI_SRC_p_CTRL + 8 * 0x10) : (s.postOpt x o).rd d r = s.rd d r := by
  cases o with
  | none => rfl
  | some k =>
    unfold State.postOpt State.semPost
    have posted : ∀ y : Ctx, ((s.wakeStove (stoveOf x.ctx)).setCtx x.ctx y).rd d r = s.rd d r := fun y =>
      (Frame.step (frame_wakeStove s _) (frame_setCtx _ _ _)).rd (by simp) d r
    dsimp only
    split
    · rw [(frame_taintSeq _ _ _ _).rd (by simp), State.rd_raise_other _ _ _ _ (by decide) hr h]
      exact posted _
    · exact posted _
/-- A skip is counted once (R94, R100). -/
theorem State.rdN_skip (s : State) (i : Iss) (x : Src) (code detail : Nat) :
    (s.skip i x code detail).rdN x.st Reg.SEQ_SKIP_TOTAL = satAdd 0xFFFFFFFF (s.rdN x.st Reg.SEQ_SKIP_TOTAL) 1 := by
  have logged : ((s.postOpt x i.post).seqLog x code detail).rdN x.st Reg.SEQ_SKIP_TOTAL = s.rdN x.st Reg.SEQ_SKIP_TOTAL :=
    congrArg BitVec.toNat (State.rd_postOpt_other s x i.post x.st (by decide) (by decide))
  rw [← logged, ← State.rdN_bump_same]
  refine congrArg BitVec.toNat ?_
  unfold State.skip State.skipAs State.modSeq
  rw [(frame_taintSeq _ _ _ _).rd (by simp), (frame_setSeq _ _ _ _).rd (by simp),
    State.rd_raise_other _ _ _ _ (by decide) (by decide) (by decide)]

/-- Issuing changes no register. -/
theorem rdN_atIssue (s : State) (i : Iss) (op c d r : Nat) : (s.atIssue i op c).rdN d r = s.rdN d r := by
  unfold State.rdN State.atIssue
  rw [(frame_issued _ i _).rd (by simp), State.rd_fetched]
/-- The semaphores of the context at the issue of its instruction (R86). -/
theorem sem_atIssue (s : State) (i : Iss) (op c k : Nat) : ((s.atIssue i op c).ctx c).sem k = s.semTaken i c k := by
  unfold State.semTaken
  by_cases hw : i.waitEn = true
  · have taken : (s.atIssue i op c).ctx c =
        { s.ctx c with waiters := (s.ctx c).waiters.filter fun p => p.2 != i.sq }.setSem i.waitSem ((s.ctx c).sem i.waitSem - 1) := by
      unfold State.atIssue State.issued
      dsimp only
      rw [if_pos hw, State.ctx_fetched]
      exact State.ctx_setCtx_same _ _ _
    rw [taken, sem_setSem]
    by_cases hk : k = i.waitSem
    · rw [if_pos hk, if_pos ⟨hw, hk⟩, hk]
    · rw [if_neg hk, if_neg fun h => hk h.2]
      rfl
  · have kept : (s.atIssue i op c).ctx c = s.ctx c := by
      unfold State.atIssue State.issued
      dsimp only
      rw [if_neg hw]
      exact State.ctx_fetched s i c
    rw [kept, if_neg fun h => hw h.1]
/-- The semaphores after an instruction's post (R86). -/
theorem sem_postOpt (s : State) (i : Iss) (x : Src) (k : Nat) :
    ((s.postOpt x i.post).ctx x.ctx).sem k = semPosted i k ((s.ctx x.ctx).sem k) := by
  unfold Iss.post semPosted
  by_cases hp : i.postEn = true
  · rw [if_pos hp]
    refine (sem_semPost s x i.postSem 1 k).trans ?_
    by_cases hk : k = i.postSem
    · simp [hp, hk]
    · simp [hk]
  · rw [if_neg hp, if_neg fun h => hp h.1]
    rfl

-- Products

/-- A product without work posts at its issue (R56). -/
theorem issueProduct_empty {s : State} {i : Iss} {p : ProdOps} {op c : Nat} (issue : s.canIssue i c (prodChairs op p))
    (desc : (s.atIssue i op c).prodDesc (s.srcOf i op c) p ((s.atIssue i op c).prodViews (s.srcOf i op c) op p) = none)
    (empty : let v := (s.atIssue i op c).prodViews (s.srcOf i op c) op p
      v.m = 0 ∨ v.n = 0 ∨ v.k = 0) :
    s.issueProduct op i p = (s.atIssue i op c).postOpt (s.srcOf i op c) i.post := by
  unfold State.issueProduct
  rw [begin_issues issue op]
  exact if_pos ⟨Option.isNone_iff_eq_none.2 desc, empty⟩
/-- A product that fails a check other than of its places and formats is skipped with the check's code (R94). -/
theorem issueProduct_fails {s : State} {i : Iss} {p : ProdOps} {op c : Nat} {r : Nat × Nat} (issue : s.canIssue i c (prodChairs op p))
    (work : let v := (s.atIssue i op c).prodViews (s.srcOf i op c) op p
      (s.atIssue i op c).prodDesc (s.srcOf i op c) p v = none → v.m ≠ 0 ∧ v.n ≠ 0 ∧ v.k ≠ 0)
    (check : (s.atIssue i op c).prodCheck (s.srcOf i op c) op p ((s.atIssue i op c).prodViews (s.srcOf i op c) op p) = some r)
    (code : r.1 ≠ 4) :
    s.issueProduct op i p = (s.atIssue i op c).skip i (s.srcOf i op c) r.1 r.2 := by
  have begun : s.begin i op (prodChairs op p) = (s.atIssue i op c, some (s.srcOf i op c)) := begin_issues issue op
  have busy : ¬(((s.atIssue i op c).prodDesc (s.srcOf i op c) p ((s.atIssue i op c).prodViews (s.srcOf i op c) op p)).isNone = true ∧
      (let v := (s.atIssue i op c).prodViews (s.srcOf i op c) op p
       v.m = 0 ∨ v.n = 0 ∨ v.k = 0)) := fun ⟨desc, empty⟩ => by
    obtain ⟨hm, hn, hk⟩ := work (Option.isNone_iff_eq_none.1 desc)
    rcases empty with h | h | h
    · exact hm h
    · exact hn h
    · exact hk h
  unfold State.issueProduct
  rw [begun]
  dsimp only
  rw [if_neg busy, check]
  exact if_pos code

/-- Settles O16: with `begin_issues`, the two branches of a product's issue before the pool, once for the three opcodes. -/
theorem productsTurnedAway : Obligations.ProductsTurnedAway := by
  intro i p c s go
  have turned : ∀ op cmd, Runs cmd s (s.issueProduct op i p) → go op cmd := by
    intro op cmd runs issue x u v
    have issued := (SameFlights.refl (l := postParts) s).step (sameFlights_atIssue s i op c)
    refine ⟨fun empty desc => ?_, fun r work check code => ?_⟩
    · rw [issueProduct_empty issue desc empty] at runs
      have posted := issued.step (sameFlights_postOpt u x i.post) fun _ => id
      refine ⟨_, runs, posted.flights, fun k => ?_, posted.frame⟩
      rw [← sem_atIssue s i op c k]
      exact sem_postOpt u i x k
    · rw [issueProduct_fails issue work check code] at runs
      have skipped := issued.step (sameFlights_skip u i x r.1 r.2) fun _ => id
      refine ⟨_, runs, skipped.flights, ?_, skipped.frame⟩
      rw [← rdN_atIssue s i op c i.st Reg.SEQ_SKIP_TOTAL]
      exact State.rdN_skip u i x r.1 r.2
  exact ⟨turned _ _ rfl, turned _ _ rfl, turned _ _ rfl⟩

end Sys2Proof.Machine

/-! A product whose output lies in a spilled line of a reduction buffer that holds an uncorrectable word. -/

namespace Sys2Proof.Machine

/-- An issue of sequencer 0 of stove 0, without a wait or a post. -/
def plainIssue : Iss := ⟨0, 0, 0, false, 0, false, 0, false, .ok, .ok, 0, 0⟩

/-- A product of two I4S elements into the tensor of descriptor 0. -/
def intoPool : ProdOps :=
  { a := .direct 0 16 .i4s .square 0 .act, b := .direct 0x1000 16 .i4s .square 0 .wt, c := .pool 0, d := .none, e := .none, f := .none
    red := 1, redReg := false, func := 0, gs := 32, deriv := false, second := false, alpha := 0 }

/-- Context 1 runs on sequencer 0; descriptor 0 names element 0 of its slot's reduction buffer (place 2, N16, class GRAD), of 2^18 elements
and no ways: line 0 of it is spilled to virtual address 0, at the start of the cold tier, where the first unit is uncorrectable. -/
def badSpill : State :=
  let s := (State.reset.setCtx 1
    { valid := true, state := 2, aspace := 1, isBound := true, arrays := [0], granules := [0], seqs := [0] }).setSeq 0 0
    { state := 1, ctx := some 1, pc := 0x400 }
  let u : State := { s with
    sq := { s.sq with store := [(6, 2), (11, 0x29), (12, 0x80), (16, 1), (20, 1), (24, 1), (28, 1), (40, 1), (44, 1), (48, 1), (56, 16)] }
    tr := { s.tr with ptes := [(0, { valid := true, write := true, frame := 2 ^ 20 })], bad := [coldBase] } }
  u.wr 0 (rbReg 0 Reg.HTH_RB_b_SIZE) 1

/-- The product's reach into the spilled line meets the uncorrectable word, and its record draws a free value (R143, R241). -/
theorem free_matmul_badSpill :
    badSpill.free = 0 ∧ (Res.after (exec (.matmul plainIssue intoPool) badSpill) badSpill).free = 1 := by
  decide +kernel

/-- Refutes O15: a product into a spilled line of a reduction buffer (R143, R144) whose region holds an uncorrectable word issues, and the
record of that word names a free syndrome; the statement's frame leaves no free value to be drawn. -/
theorem not_productsIssue : ¬ Obligations.ProductsIssue := by
  intro h
  obtain ⟨matmul, -, -⟩ := h plainIssue intoPool 1 badSpill rfl
  obtain ⟨t, f, runs, -, -, -, -, -, -, -, frame⟩ := matmul (by decide +kernel) (by decide +kernel) (by decide +kernel)
    (by decide +kernel) (by decide +kernel) (by decide +kernel) (by decide +kernel) (by decide +kernel) (by decide +kernel)
    (by decide +kernel)
  obtain ⟨before, after⟩ := free_matmul_badSpill
  have kept := frame.free (by decide)
  rw [← runs.after, after, before] at kept
  exact absurd kept (by decide)

end Sys2Proof.Machine

/-! A product that the statements do not exclude: one beat long, its second output in a reduction buffer. -/

namespace Sys2Proof.Machine

/-- The product `bufferedSecond` with one reduction position: its one beat is its last. -/
def bufferedBeat : Product :=
  { bufferedSecond with
    a := { fmt := .i4s, grain := .square, rows := 1, cols := 1 }, b := { fmt := .i4s, grain := .square, rows := 1, cols := 1 }
    tree := none, k := 1, beats := [] }

/-- The flight of that product. -/
def beatFlight : Flight := { bufferedFlight with body := .product bufferedBeat }

/-- It is in flight in `spilledState`, and array 0 of stove 0 runs its beat. -/
def spilledBeat : State := (spilledState.setFlights [beatFlight]).setArr 0 0 { run := some ⟨7, 0, 0⟩ }

/-- The beat drains its unit, and with the second output the line's tag record goes into the spill region (R144). -/
theorem mrd_arrayBeat_spilledBeat :
    spilledBeat.mrd (coldBase + 3) = 0 ∧ (Res.after (exec (.arrayBeat 0 0 .pass) spilledBeat) spilledBeat).mrd (coldBase + 3) = 1 := by
  decide +kernel

theorem fits_bufferedBeat : bufferedBeat.Fits := by
  refine ⟨rfl, fun v hv => ?_, fun v hv => nomatch hv⟩
  cases hv
  rfl

theorem place_outputs_bufferedBeat :
    ∀ v ∈ bufferedBeat.c :: (bufferedBeat.d.toList ++ bufferedBeat.tree.toList), v.place = .rb := by decide

/-- Refutes O17: a last beat writes memory only in the product's own views where its second output lies in scratchpad, as R61 has it, and
the statement has no hypothesis that it does; a second output in a spilled reduction buffer changes the bytes of the spill region. -/
theorem not_beats : ¬ Obligations.Beats := by
  intro h
  obtain ⟨pass, -⟩ := h
  obtain ⟨t, runs, -, -, -, outside, -⟩ := pass 0 0 ⟨7, 0, 0⟩ beatFlight bufferedBeat spilledBeat rfl rfl rfl rfl fits_bufferedBeat rfl
  obtain ⟨before, after⟩ := mrd_arrayBeat_spilledBeat
  have kept : t.mrd (coldBase + 3) = spilledBeat.mrd (coldBase + 3) := by
    refine outside _ fun v hv r _ j _ => ?_
    rw [byteAddr_rb (place_outputs_bufferedBeat v hv)]
    decide
  rw [← runs.after, after, before] at kept
  exact absurd kept (by decide)

end Sys2Proof.Machine

/-! ENABLE and the reset of a block (R312, R313, R339): its pages, its registers, what it holds elsewhere and the cause that it
leaves. -/

namespace Sys2Proof.Machine

-- The pages of a block (R349)

/-- A page of a block stands in a row of the directory of the same type. -/
theorem exists_block_of_mem_blockPages {die page p : Nat} (h : p ∈ blockPages die page) :
    ∃ b ∈ directory, pageType die page = b.type ∧ die ≤ b.dieHi ∧ page ≤ b.pageHi ∧ ∃ c ∈ directory, p ≤ c.pageHi := by
  unfold blockPages at h
  unfold pageType
  split at h
  next => simp at h
  next b found =>
    have here := List.mem_of_find?_eq_some found
    have fits : b.dieLo ≤ die ∧ die ≤ b.dieHi ∧ b.pageLo ≤ page ∧ page ≤ b.pageHi := by
      simpa using List.find?_some found
    obtain ⟨-, hdie, -, hpage⟩ := fits
    refine ⟨b, here, by rw [found]; rfl, hdie, hpage, ?_⟩
    split at h
    · obtain rfl : p = page := by simpa using h
      exact ⟨b, here, hpage⟩
    · simp only [List.mem_flatMap, List.mem_filter, List.mem_map, List.mem_range] at h
      obtain ⟨c, ⟨hc, -⟩, k, hk, rfl⟩ := h
      exact ⟨c, hc, by omega⟩

theorem lt_of_mem_blockPages {die page p : Nat} (h : p ∈ blockPages die page) : p < 4096 := by
  obtain ⟨-, -, -, -, -, c, hc, hp⟩ := exists_block_of_mem_blockPages h
  have bound : ∀ c ∈ directory, c.pageHi < 4096 := by decide
  have := bound c hc
  omega
/-- No block of the kindler's die is ever idle (R313). -/
theorem die_lt_of_mem_blockPages {die page p : Nat} (h : p ∈ blockPages die page) (idle : neverIdle die page = false) : die < 7 := by
  obtain ⟨b, hb, type, hdie, -⟩ := exists_block_of_mem_blockPages h
  have dies : ∀ b ∈ directory, b.dieHi < 7 ∨ has [0x09, 0x0A, 0x0C, 0x0F, 0x10] b.type = true := by decide
  unfold neverIdle at idle
  rw [type] at idle
  rcases dies b hb with lt | never
  · omega
  · rw [never] at idle
    cases idle
/-- The pages of a block are held under one die (R306). -/
theorem canonDie_of_mem_blockPages {die page p : Nat} (h : p ∈ blockPages die page) : canonDie die p = canonDie die page := by
  by_cases five : die = 5
  · subst five
    have pages : ∀ page < 0x101, ∀ p ∈ blockPages 5 page, canonDie 5 p = canonDie 5 page := by decide +kernel
    obtain ⟨b, hb, -, -, hpage, -⟩ := exists_block_of_mem_blockPages h
    have bound : ∀ b ∈ directory, b.pageHi < 0x101 := by decide
    exact pages page (by have := bound b hb; omega) p h
  · unfold canonDie
    rw [if_neg fun e => five e.2, if_neg fun e => five e.2]

-- Headers of a block

/-- Pages of a die have headers of their own. -/
theorem hdr_setHdr_page (s : State) (die : Nat) {p q : Nat} (hp : p < 4096) (hq : q < 4096) (v : PageHdr) :
    (s.setHdr die q v).hdr die p = if p = q then v else s.hdr die p := by
  rw [State.hdr_setHdr]
  refine if_congr ⟨fun e => by omega, fun e => by rw [e]⟩ rfl rfl
/-- A change of the headers of some pages that does nothing when made again. -/
theorem hdr_foldl_setHdr {f : PageHdr → PageHdr} (hf : ∀ h, f (f h) = f h) (die : Nat) {p : Nat} (hp : p < 4096) (l : List Nat)
    (hl : ∀ q ∈ l, q < 4096) (s : State) :
    (l.foldl (fun s q => s.setHdr die q (f (s.hdr die q))) s).hdr die p = if p ∈ l then f (s.hdr die p) else s.hdr die p := by
  induction l generalizing s with
  | nil => rfl
  | cons q l ih =>
    rw [List.foldl_cons, ih fun r hr => hl r (List.mem_cons_of_mem q hr), hdr_setHdr_page _ _ hp (hl q List.mem_cons_self)]
    by_cases e : p = q
    · simp [e, hf]
    · simp [e]
/-- The header of a page of a block after a change of the block's headers. -/
theorem hdr_modBlock {die page p : Nat} (h : p ∈ blockPages die page) (s : State) (f : PageHdr → PageHdr)
    (hf : ∀ h, f (f h) = f h) : (s.modBlock die page f).hdr die p = f (s.hdr die p) :=
  (hdr_foldl_setHdr hf die (lt_of_mem_blockPages h) _ (fun _ => lt_of_mem_blockPages) s).trans (if_pos h)
theorem hdr_modBlock_enable {die page p : Nat} (h : p ∈ blockPages die page) (s : State) (on : Bool) :
    (s.modBlock die page fun h => { h with enable := on }).hdr die p = { s.hdr die p with enable := on } :=
  hdr_modBlock h s _ fun _ => rfl
theorem hdr_modBlock_busy {die page p : Nat} (h : p ∈ blockPages die page) (s : State) (on : Bool) :
    (s.modBlock die page fun h => { h with busy := on }).hdr die p = { s.hdr die p with busy := on } :=
  hdr_modBlock h s _ fun _ => rfl
theorem frame_modBlock (s : State) (die page : Nat) (f : PageHdr → PageHdr) : Frame [.pg] s (s.modBlock die page f) :=
  frame_foldl (fun u p => frame_setHdr u die p _) _ s
theorem rd_modBlock (s : State) (die page : Nat) (f : PageHdr → PageHdr) (d r : Nat) : (s.modBlock die page f).rd d r = s.rd d r := by
  unfold State.modBlock
  induction blockPages die page generalizing s with
  | nil => rfl
  | cons q l ih => exact (ih _).trans (State.rd_setHdr s _ _ _ _ _)

/-- An event leaves RESET_BUSY of every page alone. -/
theorem busy_raise (s : State) (d p b e q : Nat) : ((s.raise d p b).hdr e q).busy = (s.hdr e q).busy := by
  obtain ⟨-, others, own⟩ := raiseBits_spec s d p (w32 (2 ^ b))
  by_cases key : 4096 * canonDie e q + q = 4096 * canonDie d p + p
  · have same : ∀ u : State, u.hdr e q = u.hdr d p := fun u => by unfold State.hdr; rw [key]
    rw [same, same]
    exact (congrArg PageHdr.busy own).trans rfl
  · exact congrArg PageHdr.busy (others e q key)

-- A page that takes a write

@[simp] theorem hdr_warmed (s : State) (die page d p : Nat) : (s.warmed die page).hdr d p = s.hdr d p := by
  unfold State.warmed
  split <;> rfl
@[simp] theorem idle_warmed (s : State) (die page d p : Nat) : (s.warmed die page).idle d p = s.idle d p := by
  unfold State.warmed
  split <;> rfl
theorem frame_warmed (s : State) (die page : Nat) : Frame [.cx] s (s.warmed die page) :=
  frame_ite (frame_upd_cx s _) (Frame.refl s)
theorem pageGuard_takes {s : State} {ag : Agent} {die page : Nat} {v : W32} (h : s.takes ag die page v) :
    s.pageGuard ag die page v = (s.warmed die page, true) := pageGuard_true h

/-- A clear of ENABLE that nothing stands against (R339). -/
theorem enableClear_idle {s : State} {ag : Agent} {die page : Nat} {v : W32} (takes : s.takes ag die page v) (priv : ag.priv = true)
    (never : neverIdle die page = false) (on : s.blockOn die page = true) (lock : s.lockedCfg ag die page = false)
    (idle : s.idle die page = true) :
    s.enableClear ag die page v = (s.warmed die page).modBlock die page fun h => { h with enable := false } := by
  have on' : (s.warmed die page).blockOn die page = true := (congrArg PageHdr.enable (hdr_warmed s _ _ _ _)).trans on
  have lock' : (s.warmed die page).lockedCfg ag die page = false := by
    unfold State.lockedCfg
    rw [hdr_warmed]
    exact lock
  unfold State.enableClear
  rw [pageGuard_takes takes]
  simp [never, on', priv, lock', idle]
/-- A soft reset that nothing stands against (R312, R346). -/
theorem softReset_idle {s : State} {ag : Agent} {die page : Nat} {v : W32} (takes : s.takes ag die page v)
    (allowed : ag = .kindler ∨ ∀ p ∈ blockPages die page, (s.hdr die p).lockCfg = false) (never : neverIdle die page = false)
    (idle : s.idle die page = true) : s.softReset ag die page v = (s.warmed die page).blockReset die page := by
  have unlocked : ¬(ag ≠ .kindler ∧ ((blockPages die page).any fun p => ((s.warmed die page).hdr die p).lockCfg) = true) := by
    rintro ⟨other, locked⟩
    obtain ⟨p, hp, lock⟩ := List.any_eq_true.1 locked
    rw [hdr_warmed] at lock
    rcases allowed with rfl | all
    · exact other rfl
    · rw [all p hp] at lock
      cases lock
  unfold State.softReset
  rw [pageGuard_takes takes]
  dsimp only
  rw [if_neg unlocked]
  simp [never, idle]

-- What a block reset leaves

theorem frame_upd_ht_ca_em (s : State) (x : HthSt) (y : CacheSt) (z : EmbSt) :
    Frame [.ht, .ca, .em] s { s with ht := x, ca := y, em := z } :=
  (((frame_upd_ht s x).mono (by simp)).step (frame_upd_ca _ y)).step (frame_upd_em _ z)
/-- A block's reset empties what it holds outside its registers (R313). -/
theorem frame_blockEmpty (s : State) (die page : Nat) :
    Frame [.cx, .sq, .sp, .rw, .ht, .ca, .em, .sw, .fb] s (s.blockEmpty die page) := by
  unfold State.blockEmpty
  have start : Frame [.cx, .sq, .sp, .rw, .ht, .ca, .em, .sw, .fb] s s := Frame.refl s
  dsimp only
  split
  · exact start.step (frame_upd_sq s _)
  · exact start.step (frame_upd_sp s _)
  · exact start.step (frame_upd_rw s _)
  · exact start.step (frame_upd_ht_ca_em s _ _ _)
  · exact start.step (frame_upd_em s _)
  · exact start.step (frame_upd_sw s _)
  · exact (start.step (frame_upd_sw s _)).step (frame_setStk _ _ _)
  · exact start.step (frame_upd_fb s _)
  · exact start.step (frame_upd_fb s _)
  · exact start

theorem mem_addOnce {l : List Nat} {d k : Nat} : d ∈ addOnce l k ↔ d ∈ l ∨ d = k := by
  unfold addOnce
  split
  next h =>
    refine ⟨.inl, fun m => m.elim id ?_⟩
    rintro rfl
    simpa using h
  next => simp
theorem mem_foldl_addOnce {d : Nat} (l m : List Nat) : d ∈ l.foldl addOnce m ↔ d ∈ m ∨ d ∈ l := by
  induction l generalizing m with
  | nil => simp
  | cons k l ih => rw [List.foldl_cons, ih, mem_addOnce, List.mem_cons, or_assoc]

theorem late_jnlPut (s : State) (r : JRec) : (s.jnlPut r).kd.late = s.kd.late := by
  unfold State.jnlPut
  dsimp only
  split
  · rfl
  · rw [State.kd_raise_seven]
    rfl
/-- A record of the journal changes no reset cause. -/
theorem late_jnl (s : State) (type : Nat) (fields : List Nat) (text : List Byte) : (s.jnl type fields text).kd.late = s.kd.late := by
  unfold State.jnl
  dsimp only
  split
  · rw [State.kd_raise_seven]
    rfl
  · split
    · rfl
    · exact late_jnlPut _ _

/-- A register of a block is one that its reset returns to its Reset value (R67, R312). -/
def resetKey (die page k : Nat) : Bool :=
  decide (k / 0x1000000 = canonDie die page) && has (blockPages die page) (k % 0x1000000 / 4096) &&
    !(decide (die < 4) && keptReg (k % 0x1000000 / 4096) (k % 4096))

theorem resetKey_regKey {die page p off : Nat} (h : p ∈ blockPages die page) (hoff : off < 4096)
    (kept : ¬(die < 4 ∧ keptReg p off = true)) : resetKey die page (regKey die (4096 * p + off)) = true := by
  have hp := lt_of_mem_blockPages h
  have hdie : regKey die (4096 * p + off) / 0x1000000 = canonDie die page := by
    rw [← canonDie_of_mem_blockPages h]
    unfold regKey
    rw [show (4096 * p + off) / 4096 = p by omega]
    omega
  have place : regKey die (4096 * p + off) % 0x1000000 = 4096 * p + off := by
    unfold regKey
    omega
  have low : regKey die (4096 * p + off) % 4096 = off := by omega
  unfold resetKey
  rw [hdie, place, low, show (4096 * p + off) / 4096 = p by omega]
  have listed : has (blockPages die page) p = true := by simpa [has] using h
  simp only [listed, decide_true, Bool.true_and, Bool.not_eq_true', Bool.and_eq_false_iff, decide_eq_false_iff_not]
  exact (not_and_or.1 kept).imp id Bool.eq_false_of_not_eq_true

/-- The header of a page while its block is reset: `base` is what FAULTED counts from. -/
def resetHdr (base : Nat) (h : PageHdr) : PageHdr := { lockCfg := h.lockCfg, lockEvt := h.lockEvt, busy := true, base := base }

/-- The state with the pages of a block reset: their registers, latches and headers (R312). -/
def State.pagesReset (s : State) (die page : Nat) : State :=
  let u : State := { s with pg := { s.pg with
    regs := s.pg.regs.filter fun e => !resetKey die page e.1
    latch := s.pg.latch.filter fun e => !resetKey die page (e.1 % 2 ^ 28) } }
  u.modBlock die page (resetHdr (u.retiredParts die page))
/-- The state in which a block reset is journalled: its pages are reset, the block is empty, its cause stands (R307, R312). -/
def State.blockCleared (s : State) (die page : Nat) : State :=
  let w := (s.pagesReset die page).blockEmpty die page
  { w with kd := { w.kd with late := (blockDies die page ++ [7]).foldl addOnce w.kd.late } }
theorem blockReset_eq (s : State) (die page : Nat) :
    s.blockReset die page = (s.blockCleared die page).jnl 1 [(s.blockCleared die page).kd.jr.bootCount, 5, 0] [] := rfl

theorem frame_pagesReset (s : State) (die page : Nat) : Frame [.pg] s (s.pagesReset die page) :=
  (frame_upd_pg s _).trans (frame_modBlock _ die page _)
theorem hdr_pagesReset (s : State) {die page p : Nat} (h : p ∈ blockPages die page) :
    ∃ base, (s.pagesReset die page).hdr die p = resetHdr base (s.hdr die p) :=
  ⟨_, hdr_modBlock h _ (resetHdr _) fun _ => rfl⟩
theorem rd_pagesReset (s : State) {die page p off : Nat} (h : p ∈ blockPages die page) (hoff : off < 4096)
    (kept : ¬(die < 4 ∧ keptReg p off = true)) :
    (s.pagesReset die page).rd die (4096 * p + off) = regReset (regKey die (4096 * p + off)) :=
  (rd_modBlock _ die page _ _ _).trans (tabGet_filter_out _ _ _ (fun _ => by rw [resetKey_regKey h hoff kept]; rfl) _)
/-- Emptying the block and recording the cause leave the pages alone. -/
theorem pg_blockCleared (s : State) (die page : Nat) : (s.blockCleared die page).pg = (s.pagesReset die page).pg :=
  (frame_blockEmpty _ die page).pg (by simp)

/-- What a block reset touches (R312, R313, R330). -/
theorem frame_blockReset (s : State) (die page : Nat) :
    Frame [.pg, .cx, .sq, .sp, .rw, .ht, .ca, .em, .sw, .fb, .kd] s (s.blockReset die page) := by
  rw [blockReset_eq]
  refine Frame.step ?_ (kindlerOnly_jnl _ _ _ _).frame
  refine Frame.step ?_ (frame_upd_kd ((s.pagesReset die page).blockEmpty die page) _)
  exact ((frame_pagesReset s die page).mono (by simp)).step (frame_blockEmpty _ die page)
/-- The dies that show the cause of a block reset (R307). -/
theorem late_blockReset (s : State) {die page d : Nat} (h : d ∈ blockDies die page ++ [7]) : d ∈ (s.blockReset die page).kd.late := by
  rw [blockReset_eq, late_jnl]
  exact (mem_foldl_addOnce _ _).2 (.inr h)
/-- The headers of a block's pages after its reset (R312). -/
theorem hdr_blockReset (s : State) {die page p : Nat} (h : p ∈ blockPages die page) (never : neverIdle die page = false) :
    ∃ base, (s.blockReset die page).hdr die p = resetHdr base (s.hdr die p) := by
  have hdie := canonDie_lt_seven (die_lt_of_mem_blockPages h never) p
  have hp := lt_of_mem_blockPages h
  rw [blockReset_eq, (kindlerOnly_jnl _ _ _ _).hdrs die p (by rw [canonDie_seven]; omega)]
  unfold State.hdr
  rw [pg_blockCleared]
  exact hdr_pagesReset s h
/-- The registers of a block after its reset (R67, R312). -/
theorem rd_blockReset (s : State) {die page p off : Nat} (h : p ∈ blockPages die page) (never : neverIdle die page = false) (hoff : off < 4096)
    (kept : ¬(die < 4 ∧ keptReg p off = true)) :
    (s.blockReset die page).rd die (4096 * p + off) = regReset (regKey die (4096 * p + off)) := by
  have hp := lt_of_mem_blockPages h
  rw [blockReset_eq, (kindlerOnly_jnl _ _ _ _).regs die _ (die_lt_of_mem_blockPages h never) (by omega), ← rd_pagesReset s h hoff kept]
  unfold State.rd
  rw [pg_blockCleared]

-- What each command does

theorem runs_blockEnableClear {ag : Agent} {die page : Nat} {s u : State}
    (h : s.enableClear ag die page (s.ctrlWord die page (some false) none) = u) : Runs (.blockEnableClear ag die page) s u :=
  congrArg Host.Outcome.next h
theorem runs_blockEnableSet {ag : Agent} {die page : Nat} {s : State} (takes : s.takes ag die page 2) :
    Runs (.blockEnableSet ag die page) s ((s.warmed die page).modBlock die page fun h => { h with enable := true }) := by
  show execBlockEnableSet ag die page s = _
  unfold execBlockEnableSet
  rw [pageGuard_takes takes]
theorem runs_softReset {ag : Agent} {die page : Nat} {s u : State}
    (h : s.softReset ag die page (s.ctrlWord die page none none ||| 1) = u) : Runs (.softReset ag die page) s u :=
  congrArg Host.Outcome.next h
theorem runs_srstDone {die page : Nat} {s : State} (busy : (s.hdr die page).busy = true) :
    Runs (.srstDone die page) s
      (((s.modBlock die page fun h => { h with busy := false }).bump die Reg.PLT_SRST_DONE 1).raise die 0xF0 1) := by
  show execSrstDone die page s = _
  unfold execSrstDone
  rw [busy]
  rfl

/-- The count of block resets that are done (R332). -/
theorem rdN_srstDone (s : State) (die page : Nat) (f : PageHdr → PageHdr) :
    (((s.modBlock die page f).bump die Reg.PLT_SRST_DONE 1).raise die 0xF0 1).rdN die Reg.PLT_SRST_DONE =
      satAdd 0xFFFFFFFF (s.rdN die Reg.PLT_SRST_DONE) 1 := by
  have before : (s.modBlock die page f).rdN die Reg.PLT_SRST_DONE = s.rdN die Reg.PLT_SRST_DONE :=
    congrArg BitVec.toNat (rd_modBlock s die page f _ _)
  rw [← before, ← State.rdN_bump_same]
  exact congrArg BitVec.toNat (State.rd_raise_other _ die 1 die (by decide) (by decide) (by decide))

/-- Settles O2: ENABLE and RESET_BUSY are changes of the headers of a block's pages (`hdr_modBlock`); a reset clears the block first and
journals it then, which stays inside the kindler (`kindlerOnly_jnl`). -/
theorem blockControl : Obligations.BlockControl := by
  refine ⟨fun ag die page s takes priv never on lock idle => ?_, fun ag die page s takes => ?_,
    fun ag die page s takes unlocked never idle => ?_, fun die page s busy => ?_⟩
  · refine ⟨_, runs_blockEnableClear (enableClear_idle takes priv never on lock idle), fun p hp => ?_, frame_modBlock _ _ _ _⟩
    rw [hdr_modBlock_enable hp, hdr_warmed]
  · refine ⟨_, runs_blockEnableSet takes, fun p hp => ?_, frame_modBlock _ _ _ _⟩
    rw [hdr_modBlock_enable hp, hdr_warmed]
  · refine ⟨_, runs_softReset (softReset_idle takes unlocked never idle), fun p hp => ?_,
      fun p hp off hoff kept => rd_blockReset _ hp never hoff kept, fun d => late_blockReset _,
      ((Frame.refl s).step (frame_warmed s die page)).trans (frame_blockReset _ die page)⟩
    obtain ⟨base, hdr⟩ := hdr_blockReset (s.warmed die page) hp never
    rw [hdr, hdr_warmed]
    exact ⟨rfl, rfl, rfl, rfl, rfl⟩
  · refine ⟨_, runs_srstDone busy, fun p hp => ?_, rdN_srstDone s die page _, ?_⟩
    · rw [busy_raise, State.bump, State.hdr_wr, hdr_modBlock_busy hp]
    · exact (((frame_modBlock s _ _ _).mono (by simp)).step (frame_bump _ _ _ _)).step (frame_raise _ _ _ _)

end Sys2Proof.Machine

/-! Scalar instructions (R80 to R86): what an issue leaves of the streams, and what an instruction's effect and its post add to that. -/

namespace Sys2Proof.Machine

-- An issue (R82, R86)

theorem rd_atIssue (s : State) (i : Iss) (op c d r : Nat) : (s.atIssue i op c).rd d r = s.rd d r := by
  unfold State.atIssue
  rw [(frame_issued _ i _).rd (by simp), State.rd_fetched]
/-- What issuing touches. -/
theorem frame_atIssue (s : State) (i : Iss) (op c : Nat) : Frame [.pg, .cx, .sq] s (s.atIssue i op c) :=
  (sameFlights_atIssue s i op c).frame

/-- The state of an issue with its semaphore taken, before its sequencer goes on. -/
def State.semTook (s : State) (i : Iss) (c : Nat) : State :=
  if i.waitEn then
    s.setCtx c ({ s.ctx c with waiters := (s.ctx c).waiters.filter fun p => p.2 != i.sq }.setSem i.waitSem
      ((s.ctx c).sem i.waitSem - 1))
  else s

theorem sq_semTook (s : State) (i : Iss) (c : Nat) : (s.semTook i c).sq = s.sq := by
  unfold State.semTook
  split <;> rfl
theorem ctx_semTook_same (s : State) (i : Iss) (c : Nat) :
    (s.semTook i c).ctx c =
      { s.ctx c with sems := ((s.semTook i c).ctx c).sems, waiters := ((s.semTook i c).ctx c).waiters } := by
  unfold State.semTook
  split
  · rw [State.ctx_setCtx_same]
    rfl
  · rfl
theorem ctx_semTook_other (s : State) (i : Iss) {c d : Nat} (h : d ≠ c) : (s.semTook i c).ctx d = s.ctx d := by
  unfold State.semTook
  split
  · rw [State.ctx_setCtx, if_neg h]
  · rfl
/-- An issue takes its semaphore, counts at its stove, and moves its sequencer on. -/
theorem atIssue_eq (s : State) (i : Iss) (op c : Nat) : ∃ n, s.atIssue i op c =
    ({ (s.fetched i).semTook i c with sq := { s.sq with issueNo := n } } : State).setSeq i.st i.sq
      ((s.seq i.st i.sq).advance i) := by
  have took : ((s.fetched i).semTook i c).sq = s.sq := (sq_semTook _ i c).trans ((frame_fetched s i).sq (by simp))
  refine ⟨tabSet (fun _ => 0) s.sq.issueNo i.st (tabGet (fun _ => 0) s.sq.issueNo i.st + 1), ?_⟩
  rw [← took, ← State.seq_fetched s i]
  unfold State.atIssue State.issued State.semTook Seq.advance State.srcOf
  dsimp only
  rw [State.seq_fetched]

theorem seq_atIssue (s : State) (i : Iss) (op c : Nat) :
    (s.atIssue i op c).seq i.st i.sq = (s.seq i.st i.sq).advance i := by
  obtain ⟨n, eq⟩ := atIssue_eq s i op c
  rw [eq, State.seq_setSeq_same]
theorem seq_atIssue_other (s : State) (i : Iss) (op c : Nat) {st n : Nat} (h : 64 * st + n ≠ 64 * i.st + i.sq) :
    (s.atIssue i op c).seq st n = s.seq st n := by
  obtain ⟨k, eq⟩ := atIssue_eq s i op c
  rw [eq, State.seq_setSeq, if_neg h]
  rfl
theorem ctx_atIssue_same (s : State) (i : Iss) (op c : Nat) :
    (s.atIssue i op c).ctx c =
      { s.ctx c with sems := ((s.atIssue i op c).ctx c).sems, waiters := ((s.atIssue i op c).ctx c).waiters } := by
  obtain ⟨n, eq⟩ := atIssue_eq s i op c
  have took := ctx_semTook_same (s.fetched i) i c
  rw [State.ctx_fetched] at took
  rw [eq]
  exact took
theorem ctx_atIssue_other (s : State) (i : Iss) (op : Nat) {c d : Nat} (h : d ≠ c) : (s.atIssue i op c).ctx d = s.ctx d := by
  obtain ⟨n, eq⟩ := atIssue_eq s i op c
  rw [eq]
  exact (ctx_semTook_other (s.fetched i) i h).trans (State.ctx_fetched s i d)
/-- Of the streams' parts, an issue changes its sequencer and the issue numbers. -/
theorem sq_atIssue (s : State) (i : Iss) (op c : Nat) :
    (s.atIssue i op c).sq = { s.sq with seqs := (s.atIssue i op c).sq.seqs, issueNo := (s.atIssue i op c).sq.issueNo } := by
  obtain ⟨n, eq⟩ := atIssue_eq s i op c
  rw [eq]
  rfl

theorem issues_atIssue (s : State) (i : Iss) (op c : Nat) :
    Issues s (s.atIssue i op c) i c ((s.seq i.st i.sq).advance i) (s.semTaken i c) where
  seq := by rw [seq_atIssue]
  seqs st n h := seq_atIssue_other s i op c h
  slots := by rw [sq_atIssue]
  gates := by rw [sq_atIssue]
  store := by rw [sq_atIssue]
  ctx := ctx_atIssue_same s i op c
  sem := sem_atIssue s i op c
  ctxs d h := ctx_atIssue_other s i op h

theorem Issues.refl (s : State) (i : Iss) (c : Nat) : Issues s s i c (s.seq i.st i.sq) (s.ctx c).sem :=
  ⟨rfl, fun _ _ _ => rfl, rfl, rfl, rfl, rfl, fun _ => rfl, fun _ _ => rfl⟩

-- An effect on the sequencer, and posts (R86)

section Effects
variable {s u : State} {i : Iss} {c : Nat} {q : Seq} {sem : Nat → Nat}

theorem Issues.setSeq (h : Issues s u i c q sem) (v : Seq) : Issues s (u.setSeq i.st i.sq v) i c v sem where
  seq := by rw [State.seq_setSeq_same]
  seqs st n other := by rw [State.seq_setSeq, if_neg other, h.seqs st n other]
  slots := h.slots
  gates := h.gates
  store := h.store
  ctx := h.ctx
  sem := h.sem
  ctxs := h.ctxs
/-- What changes no context and, of the streams, nothing but the markers leaves an issue as it was. -/
theorem Issues.keep {t : State} (h : Issues s u i c q sem) (ctxs : t.cx.ctxs = u.cx.ctxs)
    (sq : t.sq = { u.sq with markers := t.sq.markers, nextId := t.sq.nextId, flights := t.sq.flights }) : Issues s t i c q sem := by
  have ctx : ∀ d, t.ctx d = u.ctx d := fun d => congrArg (tabGet (fun _ => ({} : Ctx)) · d) ctxs
  have seq : ∀ st n, t.seq st n = u.seq st n := fun st n => by
    unfold State.seq
    rw [sq]
  refine ⟨?_, fun st n other => ?_, ?_, ?_, ?_, ?_, fun k => ?_, fun d other => ?_⟩
  · rw [seq]
    exact h.seq
  · rw [seq]
    exact h.seqs st n other
  · rw [sq]
    exact h.slots
  · rw [sq]
    exact h.gates
  · rw [sq]
    exact h.store
  · rw [ctx]
    exact h.ctx
  · rw [ctx]
    exact h.sem k
  · rw [ctx]
    exact h.ctxs d other
theorem Issues.taintSeq (h : Issues s u i c q sem) (d : Nat) : Issues s (u.taintSeq i.st i.sq d) i c q sem := by
  unfold State.taintSeq
  split
  · exact h.keep rfl rfl
  · split
    · refine { h.setSeq _ with seq := ?_ }
      unfold State.modSeq
      rw [State.seq_setSeq_same, h.seq]
    · exact h
/-- A context whose semaphores change. -/
theorem Issues.setSem (h : Issues s u i c q sem) (w : Tab Nat) :
    Issues s (u.setCtx c { u.ctx c with sems := w }) i c q fun k => tabGet (fun _ => 0) w k where
  seq := h.seq
  seqs := h.seqs
  slots := h.slots
  gates := h.gates
  store := h.store
  ctx := by
    rw [State.ctx_setCtx_same, h.ctx]
  sem k := by
    rw [State.ctx_setCtx_same]
    rfl
  ctxs d other := by rw [State.ctx_setCtx, if_neg other, h.ctxs d other]
theorem Issues.wakeStove (h : Issues s u i c q sem) (st : Nat) : Issues s (u.wakeStove st) i c q sem := by
  have woken := reached_wakeStove u st
  exact h.keep woken.ctxs (by rw [woken.frame.sq (by simp)])
theorem Issues.semPost (h : Issues s u i c q sem) (op pc k n : Nat) :
    Issues s (u.semPost ⟨i.st, i.sq, op, c, pc⟩ k n) i c q fun j => if j = k then satAdd 65535 (sem j) n else sem j := by
  have posted : Issues s ((u.wakeStove (stoveOf c)).setCtx c ((u.ctx c).setSem k (satAdd 65535 ((u.ctx c).sem k) n))) i c q
      fun j => if j = k then satAdd 65535 (sem j) n else sem j := by
    have woken := h.wakeStove (stoveOf c)
    have same : (u.wakeStove (stoveOf c)).ctx c = u.ctx c := (reached_wakeStove u _).ctx c
    have set := woken.setSem ((u.ctx c).setSem k (satAdd 65535 ((u.ctx c).sem k) n)).sems
    rw [same] at set
    refine { set with sem := fun j => (set.sem j).trans ?_ }
    rw [← h.sem j]
    refine (sem_setSem (u.ctx c) k _ j).trans ?_
    split
    next e => rw [e]
    next => rfl
  unfold State.semPost
  dsimp only
  split
  · refine Issues.taintSeq (posted.keep ?_ ?_) c
    · rw [(frame_raise _ _ _ _).cx (by simp), (frame_seqLog _ _ _ _).cx (by simp)]
    · rw [(frame_raise _ _ _ _).sq (by simp), (frame_seqLog _ _ _ _).sq (by simp)]
  · exact posted
theorem Issues.postOpt (h : Issues s u i c q sem) (op pc : Nat) :
    Issues s (u.postOpt ⟨i.st, i.sq, op, c, pc⟩ i.post) i c q fun k => semPosted i k (sem k) := by
  unfold Iss.post semPosted
  by_cases post : i.postEn = true
  · rw [if_pos post]
    refine { h.semPost op pc i.postSem 1 with sem := fun k => ((h.semPost op pc i.postSem 1).sem k).trans ?_ }
    by_cases hk : k = i.postSem
    · simp [post, hk]
    · simp [hk]
  · rw [if_neg post]
    refine { h with sem := fun k => (h.sem k).trans ?_ }
    simp [post]

end Effects

-- Scalar instructions

/-- A scalar instruction that issues runs its effect, then posts (R80, R86). -/
theorem scalar_eq {s : State} {i : Iss} {c : Nat} (issue : s.canIssue i c []) (op : Nat) (f : State → Src → State) :
    s.scalar i op f = .next ((f (s.atIssue i op c) (s.srcOf i op c)).postOpt (s.srcOf i op c) i.post) := by
  unfold State.scalar
  rw [begin_issues issue op]
  rfl
/-- A scalar instruction has executed: its sequencer is `q`, its context's semaphores are `sem`, it is not in flight, and memory, units and
other sequencers are as they were (R80 to R86). -/
structure Scalar (s t : State) (i : Iss) (c : Nat) (q : Seq) (sem : Nat → Nat) : Prop where
  issues : Issues s t i c q sem
  same : SameFlights postParts s t

theorem scalar_atIssue (s : State) (i : Iss) (op c : Nat) :
    Scalar s (s.atIssue i op c) i c ((s.seq i.st i.sq).advance i) (s.semTaken i c) :=
  ⟨issues_atIssue s i op c, (SameFlights.refl s).step (sameFlights_atIssue s i op c)⟩

section Effects
variable {s u : State} {i : Iss} {c : Nat} {q : Seq} {sem : Nat → Nat}

theorem Scalar.setSeq (h : Scalar s u i c q sem) (v : Seq) : Scalar s (u.setSeq i.st i.sq v) i c v sem :=
  ⟨h.issues.setSeq v, h.same.step (sameFlights_setSeq u _ _ v)⟩
theorem Scalar.postOpt (h : Scalar s u i c q sem) (op : Nat) :
    Scalar s (u.postOpt (s.srcOf i op c) i.post) i c q fun k => semPosted i k (sem k) :=
  ⟨h.issues.postOpt op _, h.same.step (sameFlights_postOpt u _ _) fun _ => id⟩
/-- What a statement says of a scalar instruction that has run. -/
theorem Scalar.runs {cmd : Instr} {t : State} (h : Scalar s t i c q sem) (runs : Runs cmd s t) :
    ∃ t, Runs cmd s t ∧ Issues s t i c q sem ∧ t.sq.flights = s.sq.flights ∧ Frame [.pg, .cx, .sq, .sw, .out] s t :=
  ⟨t, runs, h.issues, h.same.flights, h.same.frame⟩

end Effects

/-- A scalar instruction whose effect is known runs it and posts. -/
theorem Scalar.executes {s : State} {i : Iss} {c op : Nat} {cmd : Instr} {q : Seq} {sem : Nat → Nat} {f : State → Src → State}
    (h : Scalar s (f (s.atIssue i op c) (s.srcOf i op c)) i c q sem) (issue : s.canIssue i c [])
    (run : exec cmd s = s.scalar i op f) :
    ∃ t, Runs cmd s t ∧ Issues s t i c q (fun k => semPosted i k (sem k)) ∧ t.sq.flights = s.sq.flights ∧
      Frame [.pg, .cx, .sq, .sw, .out] s t :=
  (h.postOpt op).runs (run.trans (scalar_eq issue op f))
/-- An instruction whose effect is a change of its sequencer, to `q`. -/
theorem scalar_modSeq {s : State} {i : Iss} {c op : Nat} {cmd : Instr} {q : Seq} (issue : s.canIssue i c [])
    (f : State → Src → Seq → Seq) (run : exec cmd s = s.scalar i op fun s x => s.modSeq x.st x.sq (f s x))
    (becomes : f (s.atIssue i op c) (s.srcOf i op c) ((s.seq i.st i.sq).advance i) = q) :
    ∃ t, Runs cmd s t ∧ Issues s t i c q (fun k => semPosted i k (s.semTaken i c k)) ∧ t.sq.flights = s.sq.flights ∧
      Frame [.pg, .cx, .sq, .sw, .out] s t := by
  have set := (scalar_atIssue s i op c).setSeq q
  rw [← becomes, ← seq_atIssue s i op c] at set ⊢
  exact set.executes issue run
/-- An issue changes no instruction of the program store. -/
theorem insnLen_atIssue (s : State) (i : Iss) (op c st a : Nat) : (s.atIssue i op c).insnLen st a = s.insnLen st a := by
  unfold State.insnLen State.psN
  rw [sq_atIssue, (frame_atIssue s i op c).sp (by simp)]

/-- The sequencer after a LOOP over the instructions from `start` through `target`, or past the one at `target`, of `len` bytes, where
the count is zero (R84). -/
def Seq.loopTo (q : Seq) (n start target len : Nat) : Seq :=
  if q.sreg n = 0 then
    { q with pc := (loopNext target (target + len) q.loops).1, loops := (loopNext target (target + len) q.loops).2 }
  else { q with loops := (start, target, (q.sreg n).toNat) :: q.loops }

theorem execLoop_eq (i : Iss) (n target : Nat) (s : State) :
    execLoop i n target s = s.scalar i 5 fun s x =>
      s.modSeq x.st x.sq fun q => q.loopTo n (x.pc + 32) target (s.insnLen x.st target) := by
  unfold execLoop Seq.loopTo
  simp only [← BitVec.toNat_inj]
  rfl

-- Branches (R71, R82)

theorem sreg_advance (q : Seq) (i : Iss) (n : Nat) : (q.advance i).sreg n = q.sreg n := rfl

theorem imgHdr_atIssue (s : State) (i : Iss) (op c st k h off n : Nat) :
    (s.atIssue i op c).imgHdr st k h off n = s.imgHdr st k h off n := by
  unfold State.imgHdr State.psN State.slot
  rw [sq_atIssue, (frame_atIssue s i op c).sp (by simp)]
/-- The sequencer that goes to a branch target, whose loops around the branch are those of `l` that hold it (R82, R84). -/
def Seq.goto (q : Seq) (target : Nat) (l : List (Nat × Nat × Nat)) : Seq :=
  { q with pc := target, loops := l.dropWhile fun b => decide (target < b.1 ∨ b.2.1 < target) }

theorem entryAt_goto (s : State) (i : Iss) (c target : Nat) (l : List (Nat × Nat × Nat)) (v : Seq) :
    ((s.atIssue i 4 c).setSeq i.st i.sq v).entryAt i.st (((s.seq i.st i.sq).advance i).goto target l) target =
      s.entryAt i.st (s.seq i.st i.sq) target := by
  have img : ∀ k h off n, ((s.atIssue i 4 c).setSeq i.st i.sq v).imgHdr i.st k h off n = s.imgHdr i.st k h off n :=
    imgHdr_atIssue s i 4 c i.st
  unfold State.entryAt
  simp only [img]
  rfl

/-- A branch whose condition fails issues and posts. -/
theorem runs_br_not_taken {s : State} {i : Iss} {c cond a b target : Nat} (issue : s.canIssue i c [])
    (fails : brCond cond ((s.seq i.st i.sq).sreg a) ((s.seq i.st i.sq).sreg b) = false) :
    Runs (.br i cond a b target) s ((s.atIssue i 4 c).postOpt (s.srcOf i 4 c) i.post) := by
  refine (scalar_eq issue 4 _).trans ?_
  have seq : (s.atIssue i 4 c).seq (s.srcOf i 4 c).st (s.srcOf i 4 c).sq = (s.seq i.st i.sq).advance i := seq_atIssue s i 4 c
  dsimp only
  rw [seq, sreg_advance, sreg_advance, fails]
  rfl
/-- A branch that is taken goes to its target. -/
theorem runs_br_taken {s : State} {i : Iss} {c cond a b target : Nat} (issue : s.canIssue i c [])
    (holds : brCond cond ((s.seq i.st i.sq).sreg a) ((s.seq i.st i.sq).sreg b) = true) :
    Runs (.br i cond a b target) s
      (((s.atIssue i 4 c).branchTo i.st i.sq target (s.seq i.st i.sq).loops).postOpt (s.srcOf i 4 c) i.post) := by
  refine (scalar_eq issue 4 _).trans ?_
  have seq : (s.atIssue i 4 c).seq (s.srcOf i 4 c).st (s.srcOf i 4 c).sq = (s.seq i.st i.sq).advance i := seq_atIssue s i 4 c
  dsimp only
  rw [seq, sreg_advance, sreg_advance, holds]
  rfl
/-- What a branch does at its target: at an entry of its image the boundary's rules hold (R71). -/
theorem branchTo_atIssue (s : State) (i : Iss) (c target : Nat) :
    let q := ((s.seq i.st i.sq).advance i).goto target (s.seq i.st i.sq).loops
    let u := (s.atIssue i 4 c).setSeq i.st i.sq q
    let p := s.slot i.st (s.seq i.st i.sq).slot
    (s.atIssue i 4 c).branchTo i.st i.sq target (s.seq i.st i.sq).loops =
      match s.entryAt i.st (s.seq i.st i.sq) target with
      | some e =>
        if p.pending = true ∨ p.active ≠ (s.seq i.st i.sq).half then
          (if s.owes i.st i.sq = true then u.setSeq i.st i.sq { q with switchTo := some (e, target) } else u.switchAt i.st i.sq e)
        else u.setSeq i.st i.sq { q with entry := e }
      | none => u := by
  intro q u p
  have moved : (s.atIssue i 4 c).modSeq i.st i.sq (fun r => { r with
      pc := target, loops := (s.seq i.st i.sq).loops.dropWhile fun b => decide (target < b.1 ∨ b.2.1 < target) }) = u := by
    unfold State.modSeq
    rw [seq_atIssue]
    rfl
  have slot : u.slot i.st q.slot = p := by
    show tabGet _ (s.atIssue i 4 c).sq.slots _ = _
    rw [sq_atIssue]
    rfl
  have owes : u.owes i.st i.sq = s.owes i.st i.sq := by
    show (s.atIssue i 4 c).sq.flights.any _ = _
    rw [sq_atIssue]
    rfl
  unfold State.branchTo
  dsimp only
  rw [moved, State.seq_setSeq_same, slot, entryAt_goto, owes]
  rfl

/-- Settles O10: each instruction is an issue, a change of its sequencer and a post (`scalar_modSeq`); a branch that is taken within a
program goes to its target. -/
theorem scalarInstructions : Obligations.ScalarInstructions := by
  intro i c s issue q sem
  have missed : Scalar s ((s.atIssue i 4 c).postOpt (s.srcOf i 4 c) i.post) i c q sem := (scalar_atIssue s i 4 c).postOpt 4
  refine ⟨(scalar_atIssue s i 0 c).executes issue rfl, fun d imm => ?_, fun fn d a b => ?_, fun n target => ?_,
    fun cond a b target fails => missed.runs (runs_br_not_taken issue fails), fun cond a b target holds inside => ?_⟩
  · exact scalar_modSeq issue (fun _ _ q => q.setSreg d imm) rfl rfl
  · exact scalar_modSeq issue (fun _ _ q => q.setSreg d (saluFn fn (q.sreg a) (q.sreg b))) rfl rfl
  · refine scalar_modSeq issue (fun u x q => q.loopTo n (x.pc + 32) target (u.insnLen x.st target)) (execLoop_eq i n target s) ?_
    rw [insnLen_atIssue]
    rfl
  · have moved := ((scalar_atIssue s i 4 c).setSeq (q.goto target (s.seq i.st i.sq).loops)).postOpt 4
    refine moved.runs ?_
    have taken := runs_br_taken (target := target) issue holds
    rw [branchTo_atIssue, inside] at taken
    exact taken

-- A program boundary (R71)

theorem imgHdr_setSlot (s : State) {a b : Nat} {v : PSlot} (h : v.map = (s.slot a b).map) (st k g off n : Nat) :
    (s.setSlot a b v).imgHdr st k g off n = s.imgHdr st k g off n := by
  have base : ((s.setSlot a b v).slot st k).base g = (s.slot st k).base g := by
    rw [State.slot_setSlot]
    split
    next e =>
      have same : s.slot a b = s.slot st k := by unfold State.slot; rw [e]
      unfold PSlot.base
      rw [h, same]
    next => rfl
  unfold State.imgHdr
  rw [base]
  rfl
/-- What switching a slot to its pending half leaves: every sequencer and every image. -/
theorem switchSlot_pending {s : State} {st k : Nat} (h : (s.slot st k).pending = true) :
    Drains s (s.switchSlot st k) ∧ ((s.switchSlot st k).slot st k).active = 1 - (s.slot st k).active := by
  unfold State.switchSlot
  dsimp only
  rw [if_pos h]
  refine ⟨⟨(frame_upd_sq s _).mono (by simp), fun _ _ => rfl, fun a b g off n => imgHdr_setSlot s ?_ a b g off n⟩, ?_⟩
  · exact (map_setSt _ _ _).trans (map_setSt _ _ _)
  · rw [State.slot_setSlot_same]
theorem active_setSt (p : PSlot) (h v : Nat) : (p.setSt h v).active = p.active := by
  unfold PSlot.setSt
  split <;> rfl
theorem active_drainHalf (s : State) (st k h : Nat) : ((s.drainHalf st k h).slot st k).active = (s.slot st k).active := by
  unfold State.drainHalf
  dsimp only
  split
  · have kept := frame_raise (s.setSlot st k ((s.slot st k).setSt h 0)) st 0x10 4
    rw [kept.slot (by simp), State.slot_setSlot_same, active_setSt]
  · rfl

/-- A sequencer has gone on at an entry of half `h` of its slot (R71). -/
structure Switches (s t : State) (st n h e : Nat) : Prop where
  frame : Frame [.pg, .sq, .out] s t
  seq : t.seq st n = { s.seq st n with
    half := h, entry := e, loops := [], switchTo := none, pc := s.imgHdr st (s.seq st n).slot h (0x18 + 4 * e) 4 }
  active : (t.slot st (s.seq st n).slot).active = h

theorem switchAt_switches {s : State} {st n e : Nat} (pending : (s.slot st (s.seq st n).slot).pending = true)
    (entry : e < s.imgHdr st (s.seq st n).slot (1 - (s.slot st (s.seq st n).slot).active) 0x15 1) :
    Switches s (s.switchAt st n e) st n (1 - (s.slot st (s.seq st n).slot).active) e := by
  obtain ⟨switched, active⟩ := switchSlot_pending pending
  generalize 1 - (s.slot st (s.seq st n).slot).active = h at entry active ⊢
  unfold State.switchAt
  dsimp only
  rw [active, switched.imgHdr]
  generalize s.switchSlot st (s.seq st n).slot = w at switched active
  generalize hv : ({ s.seq st n with
    half := h, entry := e, loops := [], switchTo := none, pc := s.imgHdr st (s.seq st n).slot h (0x18 + 4 * e) 4 } : Seq) = v
  have drained := drainHalf_drains (w.setSeq st n v) st (s.seq st n).slot (1 - h)
  have kept := active_drainHalf (w.setSeq st n v) st (s.seq st n).slot (1 - h)
  generalize (w.setSeq st n v).drainHalf st (s.seq st n).slot (1 - h) = t at drained kept ⊢
  have there : t.imgHdr st (s.seq st n).slot h 0x15 1 = s.imgHdr st (s.seq st n).slot h 0x15 1 :=
    (drained.imgHdr _ _ _ _ _).trans (switched.imgHdr _ _ _ _ _)
  rw [there, if_pos entry]
  refine ⟨(switched.frame.step (frame_setSeq w st n v)).trans drained.frame, ?_, kept.trans active⟩
  rw [drained.seq, State.seq_setSeq_same, hv]

/-- A taken branch to an entry leaves a sequencer that still has its slot; the switch there is to the image that the slot had. -/
theorem switchAt_atIssue {s : State} {i : Iss} {c target e : Nat} {l : List (Nat × Nat × Nat)} {q : Seq} (op : Nat)
    (hq : ((s.seq i.st i.sq).advance i).goto target l = q) (pending : (s.slot i.st (s.seq i.st i.sq).slot).pending = true)
    (inside : e < s.imgHdr i.st (s.seq i.st i.sq).slot (1 - (s.slot i.st (s.seq i.st i.sq).slot).active) 0x15 1) :
    let u := ((s.atIssue i op c).setSeq i.st i.sq q).switchAt i.st i.sq e
    let h := 1 - (s.slot i.st (s.seq i.st i.sq).slot).active
    Frame [.pg, .sq, .out] ((s.atIssue i op c).setSeq i.st i.sq q) u ∧
      u.seq i.st i.sq = { q with
        half := h, entry := e, loops := [], switchTo := none, pc := s.imgHdr i.st (s.seq i.st i.sq).slot h (0x18 + 4 * e) 4 } ∧
      (u.slot i.st (s.seq i.st i.sq).slot).active = h := by
  have seq : ((s.atIssue i op c).setSeq i.st i.sq q).seq i.st i.sq = q := State.seq_setSeq_same _ _ _ _
  have place : q.slot = (s.seq i.st i.sq).slot := hq ▸ rfl
  have slot : ((s.atIssue i op c).setSeq i.st i.sq q).slot i.st q.slot = s.slot i.st (s.seq i.st i.sq).slot := by
    rw [place]
    exact congrArg (tabGet _ · _) ((scalar_atIssue s i op c).setSeq q).issues.slots
  have img : ∀ k h off n, ((s.atIssue i op c).setSeq i.st i.sq q).imgHdr i.st k h off n = s.imgHdr i.st k h off n :=
    imgHdr_atIssue s i op c i.st
  have switched := switchAt_switches (s := (s.atIssue i op c).setSeq i.st i.sq q) (st := i.st) (n := i.sq) (e := e)
    (by rw [seq, slot]; exact pending) (by rw [seq, slot, img, place]; exact inside)
  rw [seq, slot] at switched
  obtain ⟨frame, there, active⟩ := switched
  rw [seq, img, place] at there
  rw [seq, place] at active
  exact ⟨frame, there, active⟩

/-- Settles O11: `branchTo_atIssue` gives the three cases of a boundary; a switch at once is `switchAt_atIssue`. -/
theorem branchBoundary : Obligations.BranchBoundary := by
  intro i c cond a b target e s issue holds entry p
  obtain ⟨-, -, -, -, -, keeps, -⟩ := id issue
  have run := runs_br_taken (target := target) issue holds
  rw [branchTo_atIssue, entry] at run
  dsimp only at run
  generalize hq : ((s.seq i.st i.sq).advance i).goto target (s.seq i.st i.sq).loops = q at run
  have went := (scalar_atIssue s i 4 c).setSeq q
  have stays : ∀ v : Seq, Scalar s ((((s.atIssue i 4 c).setSeq i.st i.sq q).setSeq i.st i.sq v).postOpt (s.srcOf i 4 c) i.post) i c v _ :=
    fun v => (went.setSeq v).postOpt 4
  refine ⟨fun settled same => ?_, fun other owes => ?_, fun pending idle inside => ?_⟩
  · have stay : ¬(p.pending = true ∨ p.active ≠ (s.seq i.st i.sq).half) := by simp [settled, same]
    rw [if_neg stay] at run
    have there := stays { q with entry := e }
    refine ⟨_, run, ?_, ?_, ?_, ?_, there.same.frame⟩
    · rw [there.issues.seq, ← hq]
      rfl
    · rw [there.issues.seq]
    · rw [there.issues.seq, ← hq]
      exact keeps
    · exact congrArg (tabGet _ · _) there.issues.slots
  · rw [if_pos other, if_pos owes] at run
    have there := stays { q with switchTo := some (e, target) }
    refine ⟨_, run, ?_, ?_, ?_, ?_, there.same.frame⟩
    · rw [there.issues.seq, ← hq]
      rfl
    · rw [there.issues.seq]
    · rw [there.issues.seq, ← hq]
      rfl
    · exact congrArg (tabGet _ · _) there.issues.slots
  · rw [if_pos (.inl pending), if_neg (by simp [idle])] at run
    obtain ⟨frame, there, active⟩ := switchAt_atIssue 4 hq pending inside
    generalize ((s.atIssue i 4 c).setSeq i.st i.sq q).switchAt i.st i.sq e = u at run frame there active
    have posted := (Issues.refl u i c).postOpt 4 (s.srcOf i 4 c).pc
    have now := posted.seq
    rw [there] at now
    refine ⟨_, run, ?_, ?_, ?_, ?_, ?_, ?_⟩
    · exact congrArg Seq.half now
    · exact congrArg Seq.entry now
    · exact congrArg Seq.pc now
    · exact congrArg Seq.loops now
    · exact (congrArg (fun l => (tabGet (fun _ => ({} : PSlot)) l _).active) posted.slots).trans active
    · exact ((went.same.frame.step frame).step (frame_postOpt u _ _))

end Sys2Proof.Machine

/-! SEMOP, END and MARKER (R86, R89, R99): posts and sets, the end of a sequencer, and trace records. -/

namespace Sys2Proof.Machine

-- SEMOP (R86)

/-- Of the streams, a post changes a sequencer at most. -/
theorem sq_semPost (s : State) (x : Src) (k n : Nat) :
    (s.semPost x k n).sq = { s.sq with seqs := (s.semPost x k n).sq.seqs } := by
  have tainted : ∀ u : State, (u.taintSeq x.st x.sq x.ctx).sq = { u.sq with seqs := (u.taintSeq x.st x.sq x.ctx).sq.seqs } := fun u => by
    unfold State.taintSeq
    split
    · rfl
    · split <;> rfl
  have posted : ∀ y : Ctx, ((s.wakeStove (stoveOf x.ctx)).setCtx x.ctx y).sq = s.sq := fun y =>
    (frame_wakeStove s _).sq (by simp)
  unfold State.semPost
  dsimp only
  split
  · rw [tainted, (frame_raise _ _ _ _).sq (by simp), (frame_seqLog _ _ _ _).sq (by simp), posted]
  · rw [posted]
theorem sq_postOpt (s : State) (x : Src) (o : Option Nat) : (s.postOpt x o).sq = { s.sq with seqs := (s.postOpt x o).sq.seqs } := by
  cases o with
  | none => rfl
  | some k => exact sq_semPost s x k 1
theorem sameFlights_semPost (s : State) (x : Src) (k n : Nat) : SameFlights postParts s (s.semPost x k n) :=
  ⟨(frame_semPost s x k n).mono (by simp), by rw [sq_semPost]⟩

section Effects
variable {s u : State} {i : Iss} {c : Nat} {q : Seq} {sem : Nat → Nat}

theorem Scalar.semPost (h : Scalar s u i c q sem) (op pc k n : Nat) :
    Scalar s (u.semPost ⟨i.st, i.sq, op, c, pc⟩ k n) i c q fun j => if j = k then satAdd 65535 (sem j) n else sem j :=
  ⟨h.issues.semPost op pc k n, h.same.step (sameFlights_semPost u _ k n) fun _ => id⟩
theorem Scalar.semSet (h : Scalar s u i c q sem) (k n : Nat) :
    Scalar s (u.modCtx c fun y => y.setSem k n) i c q fun j => if j = k then n else sem j := by
  refine ⟨{ h.issues.setSem ((u.ctx c).setSem k n).sems with sem := fun j => ?_ }, h.same.step (frame_setCtx _ _ _).sameFlights⟩
  rw [← h.issues.sem j, ← sem_setSem]
  exact congrArg (Ctx.sem · j) (State.ctx_setCtx_same _ _ _)

end Effects

-- END (R89)

theorem sameFlights_drainHalf (s : State) (st k h : Nat) : SameFlights [.pg, .sq, .out] s (s.drainHalf st k h) := by
  refine ⟨(drainHalf_drains s st k h).frame, ?_⟩
  unfold State.drainHalf
  dsimp only
  split
  · rw [(frame_raise _ _ _ _).sq (by simp)]
    rfl
  · rfl
theorem sameFlights_switchSlot (s : State) (st k : Nat) : SameFlights [.sq] s (s.switchSlot st k) := by
  unfold State.switchSlot
  dsimp only
  split
  · exact ⟨frame_upd_sq s _, rfl⟩
  · exact SameFlights.refl s
theorem seq_switchSlot (s : State) (st k a b : Nat) : (s.switchSlot st k).seq a b = s.seq a b := by
  unfold State.switchSlot
  dsimp only
  split <;> rfl
/-- A sequencer that stops for good. -/
theorem stopSeq_stops (s : State) (st n : Nat) :
    SameFlights [.pg, .sq, .out] s (s.stopSeq st n false) ∧ (s.stopSeq st n false).seq st n =
      { s.seq st n with state := 5, waitKind := 0, atEnd := false, switchTo := none, resumable := false } := by
  unfold State.stopSeq
  simp only [Bool.false_eq_true, if_false]
  generalize hv : ({ s.seq st n with
    state := 5, waitKind := 0, atEnd := false, switchTo := none, resumable := false } : Seq) = v
  refine ⟨?_, ?_⟩
  · have stopped := (SameFlights.refl (l := [.pg, .sq, .out]) s).step (sameFlights_setSeq s st n v)
    exact (stopped.step (sameFlights_switchSlot _ _ _)).step (sameFlights_drainHalf _ _ _ _)
  · rw [(drainHalf_drains _ _ _ _).seq, seq_switchSlot, State.seq_setSeq_same]
/-- Settling a context changes nothing but its state. -/
theorem settleCtx_settles (s : State) (c : Nat) :
    SameFlights [.cx] s (s.settleCtx c) ∧ ((s.settleCtx c).ctx c).borrowing = (s.ctx c).borrowing := by
  unfold State.settleCtx
  dsimp only
  split
  · exact ⟨SameFlights.refl s, rfl⟩
  · exact ⟨(frame_setCtx s c _).sameFlights, by rw [State.ctx_setCtx_same]⟩
theorem runs_endStop {st sq c : Nat} {s : State} (ctx : (s.seq st sq).ctx = some c) (atEnd : (s.seq st sq).atEnd = true)
    (stays : (s.seq st sq).switchTo = none) (idle : s.owes st sq = false) (own : (s.ctx c).borrowing = none) :
    Runs (.endStop st sq) s ((s.stopSeq st sq false).settleCtx c) := by
  have alone : (((s.stopSeq st sq false).settleCtx c).ctx c).borrowing = none := by
    rw [(settleCtx_settles _ c).2]
    unfold State.ctx
    rw [(stopSeq_stops s st sq).1.frame.cx (by simp)]
    exact own
  show execEndStop st sq s = _
  unfold execEndStop
  simp only [idle, ctx, stays, atEnd, if_true, Bool.false_eq_true, if_false]
  unfold State.passLoan
  dsimp only
  rw [alone]

-- Trace records (R99)

/-- What a trace record may touch: its bytes, its ring's registers, and the caches that its line goes through. -/
theorem reached_trace (s : State) (st : Nat) (v : W32) (c sq source cycle : Nat) :
    Reached [.pg, .mem, .cx, .ca, .out] s (s.trace st v c sq source cycle) := by
  unfold State.trace
  dsimp only
  refine reached_ite (Reached.refl s) (reached_ite ?_ ?_)
  · exact ((Reached.refl s).step (frame_bump _ _ _ _).reached).step (frame_raise _ _ _ _).reached
  · refine Reached.step (Reached.step ?_ (frame_mwrN _ _ _).reached) (frame_wr _ _ _ _).reached
    exact reached_ite ((Reached.refl s).step (reached_hearthLine _ _ _ _ _ _ _ _)) (Reached.refl s)
theorem trace_off {s : State} {st : Nat} (h : s.rdN st Reg.SEQ_TRACE_SIZE = 0) (v : W32) (c sq source cycle : Nat) :
    s.trace st v c sq source cycle = s := if_pos h
/-- A record of 16 bytes (R99). -/
def traceRec (v : W32) (c sq source cycle : Nat) : List Byte :=
  leBytes 4 v.toNat ++ leBytes 2 c ++ leBytes 1 sq ++ leBytes 1 source ++ leBytes 6 (cycle % 2 ^ 48) ++ leBytes 2 0

theorem length_traceRec (v : W32) (c sq source cycle : Nat) : (traceRec v c sq source cycle).length = 16 := by
  simp [traceRec]
/-- A full ring drops the record and counts it. -/
theorem trace_full {s : State} {st : Nat} (size : s.rdN st Reg.SEQ_TRACE_SIZE ≠ 0)
    (full : (s.rdN st Reg.SEQ_TRACE_HEAD + 1) % s.rdN st Reg.SEQ_TRACE_SIZE = s.rdN st Reg.SEQ_TRACE_TAIL)
    (v : W32) (c sq source cycle : Nat) :
    s.trace st v c sq source cycle = (s.bump st Reg.SEQ_TRACE_DROPS 1).raise st 0x10 10 := by
  unfold State.trace
  dsimp only
  rw [if_neg size, if_pos full]
/-- A ring with room takes the record at its head, through the hearth where it lies in HBM. -/
theorem trace_room {s : State} {st : Nat} (size : s.rdN st Reg.SEQ_TRACE_SIZE ≠ 0)
    (room : (s.rdN st Reg.SEQ_TRACE_HEAD + 1) % s.rdN st Reg.SEQ_TRACE_SIZE ≠ s.rdN st Reg.SEQ_TRACE_TAIL)
    (v : W32) (c sq source cycle : Nat) : ∃ w, Frame [.cx, .ca] s w ∧ s.trace st v c sq source cycle =
      (w.mwrN (s.rdAddr st Reg.SEQ_TRACE_BASE_LO Reg.SEQ_TRACE_BASE_HI + 16 * s.rdN st Reg.SEQ_TRACE_HEAD)
        (traceRec v c sq source cycle)).wr st Reg.SEQ_TRACE_HEAD
          (w32 ((s.rdN st Reg.SEQ_TRACE_HEAD + 1) % s.rdN st Reg.SEQ_TRACE_SIZE)) := by
  unfold State.trace
  dsimp only
  rw [if_neg size, if_neg room]
  exact ⟨_, frame_ite (reached_hearthLine s _ _ _ _ _ _ _).frame (Frame.refl s), rfl⟩

theorem writable_congr {s t : State} (tr : t.tr = s.tr) (kd : t.kd = s.kd) (a : Nat) : t.writable a = s.writable a := by
  cases s
  cases t
  subst tr kd
  rfl
/-- Bytes written stand where they may be written. -/
theorem mrd_mwrN_inside {l : List Byte} (s : State) (a : Nat) {j : Nat} (hj : j < l.length) (h : s.writable (a + j) = true) :
    (s.mwrN a l).mrd (a + j) = l.getD j 0 := by
  induction l generalizing s a j with
  | nil => cases hj
  | cons x l ih =>
    cases j with
    | zero =>
      refine (mrd_mwrN_outside (s.mwr a x) (a + 1) a l (.inl (by omega))).trans ?_
      rw [mrd_mwr, if_pos ⟨h, rfl⟩]
      rfl
    | succ j =>
      have next : a + (j + 1) = a + 1 + j := by omega
      have kept := frame_mwr s a x
      rw [next] at h ⊢
      exact ih _ _ (Nat.lt_of_succ_lt_succ hj) ((writable_congr (kept.tr (by simp)) (kept.kd (by simp)) _).trans h)

-- MARKER (R99)

/-- A marker issues, writes its record, enters the units' queues where it propagates, and posts. -/
def State.marked (s : State) (i : Iss) (c : Nat) (v : W32) (prop : Bool) (cycle : Nat) : State :=
  let u := (s.atIssue i 2 c).trace i.st v c i.sq 0 cycle
  if prop then { u with sq := { u.sq with markers := u.sq.markers ++ (List.range 7).map fun k => (c, v, k + 1, i.sq) } } else u

theorem runs_marker {s : State} {i : Iss} {c : Nat} (issue : s.canIssue i c []) (v : W32) (prop : Bool) (cycle : Nat) :
    Runs (.marker i v prop cycle) s ((s.marked i c v prop cycle).postOpt (s.srcOf i 2 c) i.post) :=
  scalar_eq issue 2 _

theorem reached_marked (s : State) (i : Iss) (c : Nat) (v : W32) (prop : Bool) (cycle : Nat) :
    Reached [.pg, .mem, .cx, .ca, .sq, .out] (s.atIssue i 2 c) (s.marked i c v prop cycle) := by
  have traced := (Reached.refl (l := [.pg, .mem, .cx, .ca, .sq, .out]) (s.atIssue i 2 c)).step
    (reached_trace _ i.st v c i.sq 0 cycle)
  exact reached_ite (traced.step (frame_upd_sq _ _).reached) traced
theorem mem_marked (s : State) (i : Iss) (c : Nat) (v : W32) (prop : Bool) (cycle : Nat) :
    (s.marked i c v prop cycle).mem = ((s.atIssue i 2 c).trace i.st v c i.sq 0 cycle).mem := by
  cases prop <;> rfl
/-- Of the streams, a marker changes the markers in the units' queues. -/
theorem sq_marked (s : State) (i : Iss) (c : Nat) (v : W32) (prop : Bool) (cycle : Nat) :
    (s.marked i c v prop cycle).sq = { (s.atIssue i 2 c).sq with
      markers := if prop then s.sq.markers ++ (List.range 7).map fun k => (c, v, k + 1, i.sq) else s.sq.markers } := by
  have traced := (reached_trace (s.atIssue i 2 c) i.st v c i.sq 0 cycle).frame.sq (by simp)
  have before : (s.atIssue i 2 c).sq.markers = s.sq.markers := by rw [sq_atIssue]
  unfold State.marked
  rw [← before]
  cases prop
  · exact traced
  · simp only [if_true]
    rw [traced]

/-- A marker has executed (R99). -/
theorem marker_scalar (s : State) (i : Iss) (c : Nat) (v : W32) (prop : Bool) (cycle : Nat) :
    let t := (s.marked i c v prop cycle).postOpt (s.srcOf i 2 c) i.post
    Issues s t i c ((s.seq i.st i.sq).advance i) (fun k => semPosted i k (s.semTaken i c k)) ∧
      t.sq.flights = s.sq.flights ∧
      t.sq.markers = (if prop then s.sq.markers ++ (List.range 7).map fun k => (c, v, k + 1, i.sq) else s.sq.markers) ∧
      Frame (reaching [.pg, .mem, .sq, .sw, .out]) s t := by
  intro t
  have marked := reached_marked s i c v prop cycle
  have sq := sq_marked s i c v prop cycle
  have posted := sameFlights_postOpt (s.marked i c v prop cycle) (s.srcOf i 2 c) i.post
  refine ⟨((issues_atIssue s i 2 c).keep marked.ctxs (by rw [sq])).postOpt 2 _, ?_, ?_, ?_⟩
  · rw [posted.flights, sq, sq_atIssue]
  · rw [sq_postOpt, sq]
  · exact (((Frame.refl s).step (frame_atIssue s i 2 c) (by simp [reachParts])).step marked.frame (by simp [reachParts])).step
      posted.frame (by simp [reachParts])

/-- What leaves memory's bytes and places alone leaves what is read. -/
theorem Frame.mrd {l : List Part} {s t : State} (f : Frame l s t) (hm : .mem ∉ l) (ht : .tr ∉ l) (hs : .sp ∉ l) (a : Nat) :
    t.mrd a = s.mrd a := mrd_congr (f.mem hm) (f.tr ht) (f.sp hs) a
/-- The registers of a trace ring are not those of an interrupt's source entry. -/
theorem trace_other {r : Nat} (h : r ∈ [Reg.SEQ_TRACE_HEAD, Reg.SEQ_TRACE_DROPS]) :
    r < 0x1000000 ∧ r ≠ Reg.UCI_SRC_p_CTRL + 8 * 0x10 := by
  simp only [List.mem_cons, List.not_mem_nil, or_false] at h
  rcases h with rfl | rfl <;> decide
theorem rdN_postOpt_trace (s : State) (x : Src) (o : Option Nat) (d : Nat) {r : Nat}
    (h : r ∈ [Reg.SEQ_TRACE_HEAD, Reg.SEQ_TRACE_DROPS]) : (s.postOpt x o).rdN d r = s.rdN d r :=
  congrArg BitVec.toNat (State.rd_postOpt_other s x o d (trace_other h).1 (trace_other h).2)
theorem rdN_raise_trace (s : State) (st b d : Nat) {r : Nat}
    (h : r ∈ [Reg.SEQ_TRACE_HEAD, Reg.SEQ_TRACE_DROPS]) : (s.raise st 0x10 b).rdN d r = s.rdN d r :=
  congrArg BitVec.toNat (State.rd_raise_other s st b d (by decide) (trace_other h).1 (trace_other h).2)

theorem rdN_wr_same (s : State) (d r : Nat) (v : W32) : (s.wr d r v).rdN d r = v.toNat :=
  congrArg BitVec.toNat (State.rd_wr_same s d r v)
theorem toNat_w32 (n : Nat) : (w32 n).toNat = n % 2 ^ 32 := BitVec.toNat_ofNat n 32

/-- The record of a marker whose ring has room (R99). -/
theorem marker_record {s : State} {i : Iss} {c : Nat} (size : s.rdN i.st Reg.SEQ_TRACE_SIZE ≠ 0)
    (room : (s.rdN i.st Reg.SEQ_TRACE_HEAD + 1) % s.rdN i.st Reg.SEQ_TRACE_SIZE ≠ s.rdN i.st Reg.SEQ_TRACE_TAIL)
    (v : W32) (cycle : Nat) :
    let t := (s.marked i c v false cycle).postOpt (s.srcOf i 2 c) i.post
    let a := s.rdAddr i.st Reg.SEQ_TRACE_BASE_LO Reg.SEQ_TRACE_BASE_HI + 16 * s.rdN i.st Reg.SEQ_TRACE_HEAD
    t.rdN i.st Reg.SEQ_TRACE_HEAD = (s.rdN i.st Reg.SEQ_TRACE_HEAD + 1) % s.rdN i.st Reg.SEQ_TRACE_SIZE ∧
      (∀ j, j < 16 → s.writable (a + j) = true → t.mrd (a + j) = (traceRec v c i.sq 0 cycle).getD j 0) ∧
      ∀ x, x < a ∨ a + 16 ≤ x → t.mrd x = s.mrd x := by
  intro t a
  have issued := frame_atIssue s i 2 c
  have addr : (s.atIssue i 2 c).rdAddr i.st Reg.SEQ_TRACE_BASE_LO Reg.SEQ_TRACE_BASE_HI =
      s.rdAddr i.st Reg.SEQ_TRACE_BASE_LO Reg.SEQ_TRACE_BASE_HI := by
    unfold State.rdAddr
    rw [rdN_atIssue, rd_atIssue]
  obtain ⟨w, reached, eq⟩ := trace_room (s := s.atIssue i 2 c) (st := i.st) (by rwa [rdN_atIssue])
    (by rwa [rdN_atIssue, rdN_atIssue, rdN_atIssue]) v c i.sq 0 cycle
  rw [addr, rdN_atIssue, rdN_atIssue] at eq
  have marked : s.marked i c v false cycle = (w.mwrN a (traceRec v c i.sq 0 cycle)).wr i.st Reg.SEQ_TRACE_HEAD
      (w32 ((s.rdN i.st Reg.SEQ_TRACE_HEAD + 1) % s.rdN i.st Reg.SEQ_TRACE_SIZE)) := eq
  have before : Frame [.pg, .cx, .sq, .ca] s w := ((Frame.refl s).step issued).step reached
  have read : ∀ x, t.mrd x = (w.mwrN a (traceRec v c i.sq 0 cycle)).mrd x := fun x => by
    refine ((frame_postOpt _ _ _).mrd (by simp) (by simp) (by simp) x).trans ?_
    rw [marked]
    exact (frame_wr _ _ _ _).mrd (by simp) (by simp) (by simp) x
  refine ⟨?_, fun j hj write => ?_, fun x hx => ?_⟩
  · refine (rdN_postOpt_trace _ _ _ _ (by simp)).trans ?_
    rw [marked, rdN_wr_same, toNat_w32]
    have small := Nat.mod_lt (s.rdN i.st Reg.SEQ_TRACE_HEAD + 1) (Nat.pos_of_ne_zero size)
    exact Nat.mod_eq_of_lt (small.trans (BitVec.isLt _))
  · rw [read]
    exact mrd_mwrN_inside w a (by rwa [length_traceRec])
      ((writable_congr (before.tr (by simp)) (before.kd (by simp)) _).trans write)
  · rw [read, mrd_mwrN_outside w a x _ (by rwa [length_traceRec])]
    exact before.mrd (by simp) (by simp) (by simp) x
/-- A marker whose ring is full is dropped and counted (R99). -/
theorem marker_dropped {s : State} {i : Iss} {c : Nat} (size : s.rdN i.st Reg.SEQ_TRACE_SIZE ≠ 0)
    (full : (s.rdN i.st Reg.SEQ_TRACE_HEAD + 1) % s.rdN i.st Reg.SEQ_TRACE_SIZE = s.rdN i.st Reg.SEQ_TRACE_TAIL)
    (v : W32) (cycle : Nat) :
    let t := (s.marked i c v false cycle).postOpt (s.srcOf i 2 c) i.post
    t.rdN i.st Reg.SEQ_TRACE_DROPS = satAdd 0xFFFFFFFF (s.rdN i.st Reg.SEQ_TRACE_DROPS) 1 ∧
      t.rdN i.st Reg.SEQ_TRACE_HEAD = s.rdN i.st Reg.SEQ_TRACE_HEAD ∧ Frame [.pg, .cx, .sq, .sw, .out] s t := by
  intro t
  have marked : s.marked i c v false cycle = ((s.atIssue i 2 c).bump i.st Reg.SEQ_TRACE_DROPS 1).raise i.st 0x10 10 :=
    trace_full (by rwa [rdN_atIssue]) (by rwa [rdN_atIssue, rdN_atIssue, rdN_atIssue]) v c i.sq 0 cycle
  have raised : ∀ r ∈ [Reg.SEQ_TRACE_HEAD, Reg.SEQ_TRACE_DROPS],
      t.rdN i.st r = ((s.atIssue i 2 c).bump i.st Reg.SEQ_TRACE_DROPS 1).rdN i.st r := fun r h => by
    rw [rdN_postOpt_trace _ _ _ _ h, marked, rdN_raise_trace _ _ _ _ h]
  refine ⟨?_, ?_, ?_⟩
  · rw [raised _ (by simp), State.rdN_bump_same, rdN_atIssue]
  · rw [raised _ (by simp), ← rdN_atIssue s i 2 c]
    exact congrArg BitVec.toNat ((State.rd_wr _ _ _ _ _ _).trans (if_neg (regKey_ne (by decide) (by decide) (by decide))))
  · refine Frame.step ?_ (frame_postOpt _ _ _)
    rw [marked]
    exact (((Frame.refl s).step (frame_atIssue s i 2 c)).step (frame_bump _ _ _ _)).step (frame_raise _ _ _ _)

-- A unit reaches a marker (R99)

/-- A marker has left its unit's queue. -/
def State.dropMarker (s : State) (m : Nat × W32 × Nat × Nat) : State :=
  { s with sq := { s.sq with markers := s.sq.markers.erase m } }

/-- A unit that reaches a marker takes it from its queue and writes a record. -/
theorem runs_markerUnitRecord {ctx source sq cycle : Nat} {v : W32} {s : State}
    (h : s.sq.markers.find? (fun m => m.1 == ctx && m.2.1 == v && m.2.2.1 == source) = some (ctx, v, source, sq)) :
    Runs (.markerUnitRecord ctx v source cycle) s
      ((s.dropMarker (ctx, v, source, sq)).trace (stoveOf ctx) v ctx sq source cycle) := by
  show execMarkerUnitRecord ctx v source cycle s = _
  unfold execMarkerUnitRecord
  rw [h]
  rfl

/-- Settles O12: SEMOP and END are effects of a scalar instruction; a marker's record is `marker_record` or `marker_dropped`, by the room
in its ring. -/
theorem semaphoresAndMarkers : Obligations.SemaphoresAndMarkers := by
  refine ⟨fun i c sem value s issue => ⟨?_, ?_, ?_, fun v prop cycle => ?_⟩, fun st sq c s ctx atEnd stays idle own => ?_,
    fun ctx v source cycle sq s found => ?_, fun i c v cycle s issue size => ⟨fun room => ?_, fun full => ?_⟩⟩
  · exact ((scalar_atIssue s i 0x0A c).semPost 0x0A (s.srcOf i 0x0A c).pc sem value).executes issue rfl
  · exact ((scalar_atIssue s i 0x0A c).semSet sem value).executes issue rfl
  · exact scalar_modSeq issue (fun _ _ q => { q with atEnd := true }) rfl rfl
  · obtain ⟨issues, flights, markers, frame⟩ := marker_scalar s i c v prop cycle
    refine ⟨_, runs_marker issue v prop cycle, issues, flights, markers, fun off => ?_, frame⟩
    rw [(frame_postOpt _ _ _).mem (by simp), mem_marked, trace_off (by rwa [rdN_atIssue])]
    exact (frame_atIssue s i 2 c).mem (by simp)
  · obtain ⟨stopped, seq⟩ := stopSeq_stops s st sq
    have settled := (settleCtx_settles (s.stopSeq st sq false) c).1
    have now := (settled.frame.seq (by simp) st sq).trans seq
    refine ⟨_, runs_endStop ctx atEnd stays idle own, ?_, ?_, ?_, settled.flights.trans stopped.flights⟩
    · rw [now]
    · rw [now]
    · rw [now]
  · have dropped : Frame [.sq] s (s.dropMarker (ctx, v, source, sq)) := frame_upd_sq s _
    have traced := (reached_trace (s.dropMarker (ctx, v, source, sq)) (stoveOf ctx) v ctx sq source cycle).frame
    refine ⟨_, runs_markerUnitRecord found, ?_, ?_, ?_⟩
    · rw [traced.sq (by simp)]
      rfl
    · rw [traced.sq (by simp)]
      rfl
    · exact ((Frame.refl s).step dropped (by simp [reachParts])).step traced (by simp [reachParts])
  · obtain ⟨-, -, -, frame⟩ := marker_scalar s i c v false cycle
    obtain ⟨head, inside, outside⟩ := marker_record (c := c) size room v cycle
    exact ⟨_, runs_marker issue v false cycle, head, inside, outside, frame⟩
  · obtain ⟨drops, head, frame⟩ := marker_dropped (c := c) size full v cycle
    exact ⟨_, runs_marker issue v false cycle, drops, head, frame⟩

end Sys2Proof.Machine

/-! Program slots, loads and the gate (R70, R71, R90, R92, R100): a taken write of a SEQ page changes slots and gates alone, and the gate
writes the relocated image, or nothing, into the half's bytes. -/

namespace Sys2Proof.Machine

-- Writes of the SEQ pages (R256, R346)

/-- A page that a write brings the module out of Cold for stands at 0xB0 or above. -/
theorem le_of_pageType_stk {die page : Nat} (h : pageType die page = 0x0B) : 0xB0 ≤ page := by
  unfold pageType at h
  cases found : findBlock die page with
  | none =>
    rw [found] at h
    cases h
  | some b =>
    rw [found] at h
    have stokers : ∀ b ∈ directory, b.type = 0x0B → 0xB0 ≤ b.pageLo := by decide
    have fits : b.dieLo ≤ die ∧ die ≤ b.dieHi ∧ b.pageLo ≤ page ∧ page ≤ b.pageHi := by
      simpa using List.find?_some found
    exact (stokers b (List.mem_of_find?_eq_some found) h).trans fits.2.2.1
theorem regGuard_seq {s : State} {ag : Agent} {st page : Nat} {v : W32} (h : s.accepts ag st page v) (low : page < 0xB0) :
    s.regGuard ag st page v = (s, true) := by
  rw [regGuard_true h, if_neg fun stk => absurd (le_of_pageType_stk stk) (Nat.not_le.2 low)]

-- Slots and gates

theorem Frame.gate {l : List Part} {s t : State} (f : Frame l s t) (h : .sq ∉ l) (st : Nat) : t.gate st = s.gate st := by
  unfold State.gate
  rw [f.sq h]
theorem frame_setSlot (s : State) (st k : Nat) (p : PSlot) : Frame [.sq] s (s.setSlot st k p) := frame_upd_sq s _
theorem frame_setGate (s : State) (st : Nat) (g : Gate) : Frame [.sq] s (s.setGate st g) := frame_upd_sq s _
theorem st_setSt (p : PSlot) (h v : Nat) : (p.setSt h v).st h = v := by
  unfold PSlot.setSt PSlot.st
  split <;> rfl
theorem base_setSt (p : PSlot) (h v g : Nat) : (p.setSt h v).base g = p.base g := by
  unfold PSlot.base
  rw [map_setSt]

-- Commands of the SEQ pages

theorem runs_seqLoad {ag : Agent} {st : Nat} {v : W32} {s : State} (takes : s.accepts ag st 0x10 v) (go : bitOf v.toNat 31 = true)
    (on : s.blockOn st 0x10 = true) (idle : fld v 8 8 ≠ (s.slot st (fld v 4 0)).active)
    (drained : (s.slot st (fld v 4 0)).st (fld v 8 8) ≠ 5) (unused : s.users st (fld v 4 0) (fld v 8 8) = 0)
    (free : (s.gate st).busy = false) (fits : s.rdN st Reg.SEQ_LOAD_LEN ≤ (s.slot st (fld v 4 0)).size)
    (some_ : s.rdN st Reg.SEQ_LOAD_LEN ≠ 0) (whole : s.rdN st Reg.SEQ_LOAD_LEN % 32 = 0) :
    Runs (.seqLoad ag st v) s
      ((s.setSlot st (fld v 4 0) { (s.slot st (fld v 4 0)).setSt (fld v 8 8) 1 with pending := false }).setGate st
        { busy := true, slot := fld v 4 0, half := fld v 8 8, ctx := fld v 27 16,
          src := s.rdAddr st Reg.SEQ_LOAD_SRC_LO Reg.SEQ_LOAD_SRC_HI, len := s.rdN st Reg.SEQ_LOAD_LEN }) := by
  show execSeqLoad ag st v s = _
  unfold execSeqLoad
  rw [regGuard_seq takes (by decide)]
  simp [go, on, idle, drained, unused, free, some_, whole, Nat.not_lt.2 fits]
theorem runs_seqCommit {ag : Agent} {st : Nat} {v : W32} {s : State} (takes : s.accepts ag st 0x10 v) (go : bitOf v.toNat 31 = true)
    (checked : (s.slot st (fld v 4 0)).st (1 - (s.slot st (fld v 4 0)).active) = 2) :
    Runs (.seqCommit ag st v) s (s.setSlot st (fld v 4 0) { s.slot st (fld v 4 0) with
      pending := true, gen := ((s.slot st (fld v 4 0)).gen + 1) % 65536 }) := by
  show execSeqCommit ag st v s = _
  unfold execSeqCommit
  rw [regGuard_seq takes (by decide)]
  simp [go, checked]
theorem runs_slotTableWrite {ag : Agent} {st k : Nat} {owner : Bool} {v : W32} {s : State} (takes : s.accepts ag st 0x11 v)
    (unusedA : s.users st k 0 = 0) (unusedB : s.users st k 1 = 0) (idleA : (s.slot st k).stA ≠ 1) (idleB : (s.slot st k).stB ≠ 1)
    (fits : owner = true ∨ s.mapFits st k (v &&& 0x00FFFFFF) = true) :
    Runs (.slotTableWrite ag st k owner v) s
      (s.setSlot st k (if owner = true then { s.slot st k with owner := fld v 11 0 } else { s.slot st k with map := v &&& 0x00FFFFFF })) := by
  show execSlotTableWrite ag st k owner v s = _
  unfold execSlotTableWrite
  rw [regGuard_seq takes (by decide)]
  dsimp only
  rw [if_neg]
  rintro (used | used | idle | idle | ⟨map, full⟩)
  · exact used unusedA
  · exact used unusedB
  · exact idleA idle
  · exact idleB idle
  · rcases fits with rfl | room
    · cases map
    · rw [room] at full
      cases full

-- The program store (R68, R92)

/-- Writing the store changes nothing else. -/
theorem psWrite_eq (s : State) (st a : Nat) (l : List Byte) :
    s.psWrite st a l = { s with sq := { s.sq with store := (s.psWrite st a l).sq.store } } := by
  induction l generalizing s a with
  | nil => rfl
  | cons b l ih => exact ih _ _
theorem store_psWrite_outside (s : State) (st a k : Nat) (l : List Byte) (h : k < 2 ^ 24 * st + a ∨ 2 ^ 24 * st + a + l.length ≤ k) :
    tabGet (storeDef s.sp.seed) (s.psWrite st a l).sq.store k = tabGet (storeDef s.sp.seed) s.sq.store k := by
  induction l generalizing s a with
  | nil => rfl
  | cons b l ih =>
    rw [List.length_cons] at h
    refine (ih { s with sq := { s.sq with store := tabSet (storeDef s.sp.seed) s.sq.store (2 ^ 24 * st + a) b } } (a + 1)
      (by omega)).trans ?_
    exact tabGet_tabSet_other _ _ _ _ _ (by omega)
theorem store_psWrite_inside (s : State) (st a : Nat) {j : Nat} (l : List Byte) (h : j < l.length) :
    tabGet (storeDef s.sp.seed) (s.psWrite st a l).sq.store (2 ^ 24 * st + a + j) = l[j] := by
  induction l generalizing s a j with
  | nil => cases h
  | cons b l ih =>
    cases j with
    | zero =>
      refine (store_psWrite_outside { s with sq := { s.sq with store := tabSet (storeDef s.sp.seed) s.sq.store (2 ^ 24 * st + a) b } } st
        (a + 1) (2 ^ 24 * st + a) l (.inl (by omega))).trans ?_
      exact tabGet_tabSet_same _ _ _ _
    | succ j =>
      rw [show 2 ^ 24 * st + a + (j + 1) = 2 ^ 24 * st + (a + 1) + j by omega]
      exact ih { s with sq := { s.sq with store := tabSet (storeDef s.sp.seed) s.sq.store (2 ^ 24 * st + a) b } } (a + 1)
        (Nat.lt_of_succ_lt_succ h)
theorem psN_psWrite_same (s : State) (st a : Nat) (l : List Byte) : (s.psWrite st a l).psN st a l.length = l := by
  unfold State.psN
  refine List.ext_getElem (by simp) fun j hj _ => ?_
  rw [List.getElem_map, List.getElem_range, psWrite_eq]
  exact store_psWrite_inside s st a l (by simpa using hj)
theorem psN_psWrite_other (s : State) (st a b : Nat) (l : List Byte) (h : b < a ∨ a + l.length ≤ b) :
    (s.psWrite st a l).psN st b 1 = s.psN st b 1 := by
  unfold State.psN
  rw [psWrite_eq]
  simp only [List.range_one, List.map_cons, List.map_nil, Nat.add_zero]
  rw [store_psWrite_outside s st a _ l (by omega)]

-- The gate's outcome (R90, R93)

/-- A half that the gate rejects: the store's bytes stay. -/
theorem gateReject_spec (s : State) (st : Nat) (r : Nat × Nat) :
    (s.gateReject st r).slot st (s.gate st).slot = (s.slot st (s.gate st).slot).setSt (s.gate st).half 3 ∧
      (s.gateReject st r).gate st = { s.gate st with busy := false, passed := false, reason := r.1, failAt := r.2 } ∧
      (s.gateReject st r).sq.store = s.sq.store ∧ Frame [.pg, .sq, .out] s (s.gateReject st r) := by
  unfold State.gateReject
  dsimp only
  generalize hu : (s.setSlot st (s.gate st).slot ((s.slot st (s.gate st).slot).setSt (s.gate st).half 3)).setGate st
    { s.gate st with busy := false, passed := false, reason := r.1, failAt := r.2 } = u
  generalize hw : u.logErr st 0x10 ⟨w32 0x0D, pack [((s.gate st).slot, 12), ((s.gate st).half, 17)], 0, 0⟩ = w
  have logged : Frame [.pg] u w := hw ▸ frame_logErr u _ _ _
  have reported : Frame [.pg, .out] u (w.raise st 0x10 1) := ((Frame.refl u).step logged).step (frame_raise w _ _ _)
  refine ⟨?_, ?_, ?_, ?_⟩
  · rw [reported.slot (by simp), ← hu]
    exact State.slot_setSlot_same _ _ _ _
  · rw [reported.gate (by simp), ← hu, State.gate_setGate_same]
  · rw [reported.sq (by simp), ← hu]
    rfl
  · refine Frame.step ?_ reported
    rw [← hu]
    exact ((Frame.refl s).step (frame_setSlot _ _ _ _)).step (frame_setGate _ _ _)

/-- The state in which an image has passed the gate into the half whose slot was `p`. -/
def State.gatePass (s : State) (st : Nat) (g : Gate) (p : PSlot) (image : List Byte) : State :=
  (((s.psWrite st (p.base g.half) image).setSlot st g.slot (p.setSt g.half 2)).setGate st
    { g with busy := false, passed := true, reason := 0, failAt := 0 }).raise st 0x10 0

theorem gatePass_spec (s : State) (st : Nat) (g : Gate) (p : PSlot) (image : List Byte) :
    let t := s.gatePass st g p image
    t.slot st g.slot = p.setSt g.half 2 ∧ t.gate st = { g with busy := false, passed := true, reason := 0, failAt := 0 } ∧
      t.psN st (p.base g.half) image.length = image ∧
      (∀ a, a < p.base g.half ∨ p.base g.half + image.length ≤ a → t.psN st a 1 = s.psN st a 1) ∧ Frame [.pg, .sq, .out] s t := by
  intro t
  obtain ⟨w, hw⟩ : ∃ w, s.psWrite st (p.base g.half) image = w := ⟨_, rfl⟩
  obtain ⟨u, hu⟩ : ∃ u, (w.setSlot st g.slot (p.setSt g.half 2)).setGate st
    { g with busy := false, passed := true, reason := 0, failAt := 0 } = u := ⟨_, rfl⟩
  have raised : Frame [.pg, .out] u t := by
    have same : t = u.raise st 0x10 0 := by rw [← hu, ← hw]; rfl
    rw [same]
    exact frame_raise u _ _ _
  have bytes : ∀ a n, t.psN st a n = w.psN st a n := fun a n => by
    unfold State.psN
    rw [raised.sq (by simp), raised.sp (by simp), ← hu]
    rfl
  refine ⟨?_, ?_, ?_, fun a ha => ?_, ?_⟩
  · rw [raised.slot (by simp), ← hu]
    exact State.slot_setSlot_same _ _ _ _
  · rw [raised.gate (by simp), ← hu, State.gate_setGate_same]
  · rw [bytes, ← hw, psN_psWrite_same]
  · rw [bytes, ← hw, psN_psWrite_other _ _ _ _ _ ha]
  · have written : Frame [.sq] s w := by
      rw [← hw, psWrite_eq]
      exact frame_upd_sq s _
    refine Frame.step (((Frame.refl s).step written).step (m := [.sq]) ?_) raised
    rw [← hu]
    exact (frame_setSlot w _ _ _).trans (frame_setGate _ _ _)

/-- The state in which the gate has read its image (R231, R232). -/
abbrev State.gateRead (s : State) (st : Nat) : State :=
  s.reachAs st (s.gate st).ctx [((s.gate st).src, (s.gate st).len)] false false 1 []

theorem runs_gateDone_unmapped {st : Nat} {timing : Option (Nat × Nat)} {s : State} (busy : (s.gate st).busy = true)
    (unmapped : s.mapped (s.gate st).ctx (s.gate st).src (s.gate st).len false = false) :
    Runs (.gateDone st timing) s (s.gateReject st (1, 0)) := by
  show execGateDone st timing s = _
  unfold execGateDone
  simp [busy, unmapped]
/-- The end of the gate by what its checks find. -/
def State.gateEnds (s : State) (st : Nat) : Option (Nat × Nat) → State
  | none => (s.gateRead st).gatePass st (s.gate st) (s.slot st (s.gate st).slot)
      ((imgOf (s.imgBytes (s.gate st))).reloc ((s.slot st (s.gate st).slot).base (s.gate st).half))
  | some r => (s.gateRead st).gateReject st r

/-- The gate's outcome for an image that it can read: by what its checks find. -/
theorem runs_gateDone_read {st : Nat} {timing o : Option (Nat × Nat)} {s : State} (busy : (s.gate st).busy = true)
    (mapped : s.mapped (s.gate st).ctx (s.gate st).src (s.gate st).len false = true)
    (clear : s.memBad st (s.gate st).ctx [((s.gate st).src, (s.gate st).len)] false = none)
    (verdict : (imgOf (s.imgBytes (s.gate st))).verdict (s.ownerKind st (s.gate st).slot) (s.ownerGroups st (s.gate st).slot) timing =
      o) :
    Runs (.gateDone st timing) s (s.gateEnds st o) := by
  have reached := reached_reachAs s st (s.gate st).ctx [((s.gate st).src, (s.gate st).len)] false false 1 []
  have kind : (s.gateRead st).ownerKind st (s.gate st).slot = s.ownerKind st (s.gate st).slot := by
    unfold State.ownerKind
    rw [reached.frame.slot (by simp [reachParts]), reached.ctx]
  have groups : (s.gateRead st).ownerGroups st (s.gate st).slot = s.ownerGroups st (s.gate st).slot := by
    unfold State.ownerGroups
    rw [reached.frame.slot (by simp [reachParts]), reached.ctx]
  show execGateDone st timing s = _
  unfold execGateDone
  simp only [busy, mapped, clear, Bool.not_true, Bool.false_eq_true, if_false]
  rw [kind, groups, verdict]
  cases o <;> rfl

/-- Settles O14: what a taken write does, and the gate's two outcomes (`gatePass_spec`, `gateReject_spec`) after it has read its image. -/
theorem programStore : Obligations.ProgramStore := by
  refine ⟨fun ag st v s takes go => ?_, fun st timing s busy => ⟨fun unmapped => ?_, fun mapped clear pass => ?_,
    fun reason off mapped clear fail => ?_⟩, fun ag st v s takes go checked => ?_,
    fun ag st k owner v s takes unusedA unusedB idleA idleB fits => ?_⟩
  · intro k h p len on idle drained unused free fits some_ whole
    refine ⟨_, runs_seqLoad takes go on idle drained unused free fits some_ whole, ?_, ?_, ?_, ?_, ?_, ?_, ?_, ?_, rfl, ?_⟩
    · exact (congrArg (PSlot.st · h) (State.slot_setSlot_same s st k _)).trans (st_setSt p h 1)
    · exact congrArg PSlot.pending (State.slot_setSlot_same s st k _)
    · rw [State.gate_setGate_same]
    · rw [State.gate_setGate_same]
    · rw [State.gate_setGate_same]
    · rw [State.gate_setGate_same]
    · rw [State.gate_setGate_same]
    · rw [State.gate_setGate_same]
    · exact (frame_setSlot s _ _ _).trans (frame_setGate _ _ _)
  · obtain ⟨slot, gate, store, frame⟩ := gateReject_spec s st (1, 0)
    exact ⟨_, runs_gateDone_unmapped busy unmapped, slot, gate, store, frame⟩
  · have run := runs_gateDone_read busy mapped clear pass
    rw [State.gateEnds] at run
    have read := (reached_reachAs s st (s.gate st).ctx [((s.gate st).src, (s.gate st).len)] false false 1 []).frame
    obtain ⟨slot, gate, image, outside, frame⟩ := gatePass_spec (s.gateRead st) st (s.gate st) (s.slot st (s.gate st).slot)
      ((imgOf (s.imgBytes (s.gate st))).reloc ((s.slot st (s.gate st).slot).base (s.gate st).half))
    refine ⟨_, run, slot, gate, image, fun a ha => (outside a ha).trans ?_, ?_⟩
    · unfold State.psN
      rw [read.sq (by simp [reachParts]), read.sp (by simp [reachParts])]
    · exact ((Frame.refl s).step read (by simp [reachParts])).step frame (by simp [reachParts])
  · have run := runs_gateDone_read busy mapped clear fail
    rw [State.gateEnds] at run
    have read := (reached_reachAs s st (s.gate st).ctx [((s.gate st).src, (s.gate st).len)] false false 1 []).frame
    obtain ⟨slot, gate, store, frame⟩ := gateReject_spec (s.gateRead st) st (reason, off)
    rw [read.gate (by simp [reachParts])] at slot gate
    rw [read.slot (by simp [reachParts])] at slot
    rw [read.sq (by simp [reachParts])] at store
    exact ⟨_, run, slot, gate, store, ((Frame.refl s).step read (by simp [reachParts])).step frame (by simp [reachParts])⟩
  · refine ⟨_, runs_seqCommit takes go checked, State.slot_setSlot_same _ _ _ _, fun d k h => ?_, rfl, frame_setSlot _ _ _ _⟩
    rw [State.slot_setSlot, if_neg h]
  · refine ⟨_, runs_slotTableWrite takes unusedA unusedB idleA idleB fits, State.slot_setSlot_same _ _ _ _, fun d j h => ?_,
      frame_setSlot _ _ _ _⟩
    rw [State.slot_setSlot, if_neg h]

end Sys2Proof.Machine

/-! What an instruction may meet on its way to its unit (R74, R94 to R96, R105, R106): the accesses that nothing keeps from their data,
slips and skips, and places of memory that both leave where they are. -/

namespace Sys2Proof.Machine

-- Places of memory (R103, R225, R231)

/-- Every window and virtual address stands for the same module address in both states, and the same bytes exist. -/
structure Places (s t : State) : Prop where
  tr : t.tr = { s.tr with ptes := t.tr.ptes, waiting := t.tr.waiting, bad := t.tr.bad }
  pte : ∀ o k, t.pte o k = { s.pte o k with count := (t.pte o k).count }
  granules : ∀ c, (t.ctx c).granules = (s.ctx c).granules
  aspace : ∀ c, (t.ctx c).aspace = (s.ctx c).aspace
  seed : t.sp.seed = s.sp.seed
  kd : t.kd = s.kd

theorem Places.refl (s : State) : Places s s := ⟨rfl, fun _ _ => rfl, fun _ => rfl, fun _ => rfl, rfl, rfl⟩
theorem Places.trans {a b c : State} (h : Places a b) (g : Places b c) : Places a c where
  tr := by
    rw [g.tr, h.tr]
  pte o k := by
    rw [g.pte, h.pte]
  granules d := (g.granules d).trans (h.granules d)
  aspace d := (g.aspace d).trans (h.aspace d)
  seed := g.seed.trans h.seed
  kd := g.kd.trans h.kd
/-- What leaves contexts, tiers and scratchpad alone leaves every place. -/
theorem Reached.places {l : List Part} {s t : State} (h : Reached l s t) (ht : .tr ∉ l := by simp) (hs : .sp ∉ l := by simp)
    (hk : .kd ∉ l := by simp) : Places s t where
  tr := by rw [h.frame.tr ht]
  pte o k := by
    unfold State.pte
    rw [h.frame.tr ht]
  granules d := by rw [h.ctx]
  aspace d := by rw [h.ctx]
  seed := by rw [h.frame.sp hs]
  kd := h.frame.kd hk
theorem places_foldl {α : Type} {f : State → α → State} (h : ∀ s a, Places s (f s a)) (xs : List α) (s : State) :
    Places s (xs.foldl f s) := by
  induction xs generalizing s with
  | nil => exact Places.refl s
  | cons x xs ih => exact (h s x).trans (ih _)
theorem places_ite {p : Prop} [Decidable p] {s a b : State} (ha : Places s a) (hb : Places s b) : Places s (if p then a else b) := by
  split
  · exact ha
  · exact hb
/-- Words that become good, or bad, stay where they are. -/
theorem places_upd_bad (s : State) (l : List Nat) : Places s { s with tr := { s.tr with bad := l } } :=
  ⟨rfl, fun _ _ => rfl, fun _ => rfl, fun _ => rfl, rfl, rfl⟩

section Places
variable {s t : State} (h : Places s t)
include h

theorem Places.inMem (a : Nat) : t.inMem a = s.inMem a := by
  unfold State.inMem State.inHbm State.inCold State.hbmBytes State.pcsIn State.coldCap State.pkgsIn
  rw [h.tr]
theorem Places.writable (a : Nat) : t.writable a = s.writable a := by
  unfold State.writable
  rw [h.inMem, h.kd]
  unfold State.inHbm State.hbmBytes State.pcsIn
  rw [h.tr]
theorem Places.mrd (mem : t.mem = s.mem) (a : Nat) : t.mrd a = s.mrd a := by
  unfold State.mrd State.seeds
  rw [h.inMem, h.seed, h.tr, mem]
theorem Places.winPhys (c off : Nat) : t.winPhys c off = s.winPhys c off := by
  unfold State.winPhys
  rw [h.granules]
theorem Places.winAddr (c off : Nat) : t.winAddr c off = s.winAddr c off := by
  unfold State.winAddr
  rw [h.winPhys]
theorem Places.vaAddr (c va : Nat) : t.vaAddr c va = s.vaAddr c va := by
  unfold State.vaAddr State.vpte
  rw [h.pte, h.aspace]
theorem Places.byteAddr (c : Nat) (v : View) (off : Nat) : t.byteAddr c v off = s.byteAddr c v off := by
  unfold State.byteAddr
  rw [h.winAddr, h.vaAddr]
theorem Places.viewLines (c : Nat) (v : View) : t.viewLines c v = s.viewLines c v := by
  unfold State.viewLines State.linesOf
  simp only [h.winPhys]
theorem Places.byteOf (mem : t.mem = s.mem) (c : Nat) (v : View) (off : Nat) : t.byteOf c v off = s.byteOf c v off := by
  unfold State.byteOf
  rw [h.byteAddr, h.mrd mem]
theorem Places.bytesOf (mem : t.mem = s.mem) (c : Nat) (v : View) (off n : Nat) : t.bytesOf c v off n = s.bytesOf c v off n := by
  unfold State.bytesOf
  simp only [h.byteOf mem]
/-- An element of a view in memory keeps its code. -/
theorem Places.codeAt (mem : t.mem = s.mem) (c : Nat) {v : View} (hv : v.place ≠ .rb) (r k : Nat) :
    t.codeAt c v r k = s.codeAt c v r k := by
  unfold State.codeAt
  simp only [h.byteOf mem]
theorem Places.valAt (mem : t.mem = s.mem) (c : Nat) {v : View} (hv : v.place ≠ .rb) (r k : Nat) :
    t.valAt c v r k = s.valAt c v r k := by
  unfold State.valAt State.scaleAt
  rw [h.codeAt mem c hv, h.byteOf mem]

end Places

theorem places_atIssue (s : State) (i : Iss) (op c : Nat) : Places s (s.atIssue i op c) := by
  have issued := frame_atIssue s i op c
  have ctx : ∀ d, (s.atIssue i op c).ctx d =
      { s.ctx d with sems := ((s.atIssue i op c).ctx d).sems, waiters := ((s.atIssue i op c).ctx d).waiters } := fun d => by
    by_cases hd : d = c
    · rw [hd]
      exact ctx_atIssue_same s i op c
    · rw [ctx_atIssue_other s i op hd]
  refine ⟨by rw [issued.tr (by simp)], fun o k => ?_, fun d => ?_, fun d => ?_, by rw [issued.sp (by simp)], issued.kd (by simp)⟩
  · unfold State.pte
    rw [issued.tr (by simp)]
  · rw [ctx]
  · rw [ctx]

-- Accesses leave places (R231, R232)

theorem places_addCount (s : State) (space page n : Nat) : Places s (s.addCount space page n) := by
  unfold State.addCount
  dsimp only
  split
  · refine ⟨rfl, fun o k => ?_, fun _ => rfl, fun _ => rfl, rfl, rfl⟩
    unfold State.setPte State.pte
    dsimp only
    rw [tabGet_tabSet]
    split
    next e => rw [e]
    next => rfl
  · exact Places.refl s
theorem places_touchPage (s : State) (st space page n : Nat) : Places s (s.touchPage st space page n) := by
  unfold State.touchPage
  split
  · exact (frame_upd_ca s _).reached.places
  · dsimp only
    refine Places.trans ?_ (frame_upd_ca _ _).reached.places
    have walked := (reached_walk s st space page).places
    split
    · exact places_ite walked ((walked.trans (frame_upd_ca _ _).reached.places).trans (places_addCount _ _ _ _))
    · exact walked
theorem places_reachAs (s : State) (st c : Nat) (rs : List (Nat × Nat)) (write chain : Bool) (cls : Nat) (busy : List Nat) :
    Places s (s.reachAs st c rs write chain cls busy) := by
  refine places_foldl (fun u l => ?_) _ s
  dsimp only
  split
  · exact Places.refl u
  · exact places_ite ((places_touchPage u _ _ _ _).trans (reached_hearthLine _ _ _ _ _ _ _ _).places) (places_touchPage u _ _ _ _)
theorem places_renew (s : State) (c : Nat) (rs : List (Nat × Nat)) : Places s (s.renew c rs) := by
  unfold State.renew
  extract_lets whole _ u
  have words : Places s u := places_ite (Places.refl s) (places_upd_bad s _)
  refine places_ite words (words.trans (places_foldl (fun u l => ?_) _ _))
  split
  · exact places_ite (frame_upd_ht u _).reached.places (Places.refl u)
  · exact Places.refl u
theorem places_renewSpd (s : State) (c : Nat) (vs : List View) : Places s (s.renewSpd c vs) :=
  places_ite (places_upd_bad s _) (Places.refl s)
theorem places_spillReach (s : State) (ctx b : Nat) (write : Bool) (st l : Nat) : Places s (s.spillReach ctx b write st l).1 := by
  unfold State.spillReach
  dsimp only
  split
  · exact Places.refl s
  · have counted : Places s (s.spillAcc st b 1) := (frame_bump s _ _ _).reached.places
    split
    · refine Places.trans (counted.trans ?_) (places_renew _ _ _)
      refine Reached.places (l := [.pg, .out, .sw, .free]) ?_
      exact ((((Reached.refl _).step (frame_bump _ _ _ _).reached).step (frame_countU _ _ _ _).reached).step
        (frame_hthLog _ _ _ _ _ _ _ _ _ _).reached).step (frame_raise _ _ _ _).reached |>.step (frame_taint _ _).reached
    · exact counted.trans (places_reachAs _ _ _ _ _ _ _ _)

-- Accesses that nothing keeps from their data

theorem rangeLines_nil : rangeLines [] = [] := rfl
theorem reachAs_nil (s : State) (st c : Nat) (write chain : Bool) (cls : Nat) (busy : List Nat) :
    s.reachAs st c [] write chain cls busy = s := rfl
theorem reach_nil (s : State) (c : Nat) : s.reach c [] = s := rfl
theorem renew_nil (s : State) (c : Nat) : s.renew c [] = s := by
  unfold State.renew
  simp [rangeLines_nil]
theorem reachW_nil (s : State) (c : Nat) : s.reachW c [] = s := renew_nil s c
theorem memBad_nil (s : State) (st c : Nat) (write : Bool) : s.memBad st c [] write = none := by
  unfold State.memBad
  simp [rangeLines_nil]
theorem spdBad_nil (s : State) (c : Nat) (write : Bool) : s.spdBad c [] write = none := ite_self _
/-- A write that covers no word whole renews none. -/
theorem renewSpd_partial {s : State} {c : Nat} {vs : List View}
    (h : ∀ v ∈ vs, ∀ w ∈ s.viewWords c v, coversAll v.ranges w.1 8 = false) : s.renewSpd c vs = s := by
  have none : vs.flatMap (fun v => ((s.viewWords c v).filter fun w => coversAll v.ranges w.1 8).map (·.2)) = [] := by
    refine List.flatMap_eq_nil_iff.2 fun v hv => ?_
    rw [List.filter_eq_nil_iff.2 fun w hw => by rw [h v hv w hw]; decide]
    rfl
  unfold State.renewSpd
  dsimp only
  rw [none]
  split
  · simp [has]
  · rfl
theorem rbLines_of_not_rb {v : View} (h : v.place ≠ .rb) : v.rbLines = [] := if_neg h
theorem spillViews_of_not_rb {s : State} {x : Src} {ins outs : List View} (hi : ∀ v ∈ ins, v.place ≠ .rb)
    (ho : ∀ v ∈ outs, v.place ≠ .rb) : s.spillViews x ins outs = s := by
  unfold State.spillViews
  rw [List.flatMap_eq_nil_iff.2 fun v hv => rbLines_of_not_rb (hi v hv),
    List.flatMap_eq_nil_iff.2 fun v hv => rbLines_of_not_rb (ho v hv)]
  rfl
theorem vranges_of_spd {v : View} (h : v.place = .spd) : v.vranges = [] := if_neg (by rw [h]; decide)

theorem metEcc_ok {i : Iss} (h : i.rd = .ok) (s : State) (x : Src) (ins outs chain : List View) (k : Consumer) (unit : Nat) :
    s.metEcc x i ins outs chain k unit = (s, true) := by
  unfold State.metEcc
  rw [h]
  split
  · rfl
  · exact ite_self _
/-- The state in which an instruction has made its accesses. -/
def State.accessed (s : State) (x : Src) (ins outs : List View) (descs : List Opd) : State :=
  (((s.reach x.ctx (s.descRanges x descs ++ ins.flatMap View.vranges)).reachW x.ctx (outs.flatMap View.vranges)).renewSpd x.ctx
    outs).spillViews x ins outs
theorem access_clear {s : State} {x : Src} {i : Iss} {ins outs chain : List View} {descs : List Opd} (ok : i.rd = .ok)
    (clear : s.clearTo x ins outs chain descs) (k : Consumer) (unit : Nat) :
    s.access x i ins outs k unit chain descs = (s.accessed x ins outs descs, true) := by
  obtain ⟨read, write, spdIn, spdOut⟩ := clear
  unfold State.access
  rw [metEcc_ok ok]
  dsimp only
  rw [spdIn, spdOut, read, write]
  rfl
/-- Reads of scratchpad alone reach descriptors at most. -/
theorem accessed_of_spd {s : State} {x : Src} {v : View} (h : v.place = .spd) (descs : List Opd) :
    s.accessed x [v] [] descs = s.reach x.ctx (s.descRanges x descs) := by
  unfold State.accessed
  rw [spillViews_of_not_rb (by simp [h]) (by simp)]
  simp only [List.flatMap_cons, List.flatMap_nil, vranges_of_spd h, List.append_nil]
  rw [reachW_nil, renewSpd_partial (by simp)]

-- What an instruction may meet at its sequencer (R86, R94, R96)

/-- The sequencer has at most met slips, skips and the mark of an evaluation, and no other has changed. -/
structure Marks (st n : Nat) (s t : State) : Prop where
  own : t.seq st n = { s.seq st n with
    slips := (t.seq st n).slips, skips := (t.seq st n).skips, evalInvalid := (t.seq st n).evalInvalid }
  others : ∀ a b, 64 * a + b ≠ 64 * st + n → t.seq a b = s.seq a b
  sq : t.sq = { s.sq with seqs := t.sq.seqs }

theorem Marks.refl {st n : Nat} (s : State) : Marks st n s s := ⟨rfl, fun _ _ _ => rfl, rfl⟩
theorem Marks.trans {st n : Nat} {a b c : State} (h : Marks st n a b) (g : Marks st n b c) : Marks st n a c where
  own := by rw [g.own, h.own]
  others d e other := (g.others d e other).trans (h.others d e other)
  sq := by rw [g.sq, h.sq]
theorem Frame.marks {st n : Nat} {l : List Part} {s t : State} (f : Frame l s t) (h : .sq ∉ l := by simp) : Marks st n s t where
  own := by rw [f.seq h]
  others a b _ := f.seq h a b
  sq := by rw [f.sq h]
theorem Marks.sreg {st n : Nat} {s t : State} (h : Marks st n s t) (k : Nat) : (t.seq st n).sreg k = (s.seq st n).sreg k := by
  rw [h.own]
  rfl
theorem marks_setSeq {s : State} {st n : Nat} {v : Seq}
    (h : v = { s.seq st n with slips := v.slips, skips := v.skips, evalInvalid := v.evalInvalid }) : Marks st n s (s.setSeq st n v) where
  own := by
    rw [State.seq_setSeq_same]
    exact h
  others a b other := by rw [State.seq_setSeq, if_neg other]
  sq := rfl
theorem marks_ite {st n : Nat} {p : Prop} [Decidable p] {s a b : State} (ha : Marks st n s a) (hb : Marks st n s b) :
    Marks st n s (if p then a else b) := by
  split
  · exact ha
  · exact hb
theorem marks_taintSeq (s : State) (st n c : Nat) : Marks st n s (s.taintSeq st n c) :=
  marks_ite (frame_taint s _).marks (marks_ite (marks_setSeq rfl) (Marks.refl s))
theorem marks_semPost (s : State) (x : Src) (k n : Nat) : Marks x.st x.sq s (s.semPost x k n) := by
  unfold State.semPost
  dsimp only
  have posted : ∀ v, Marks x.st x.sq s ((s.wakeStove (stoveOf x.ctx)).setCtx x.ctx v) := fun v =>
    ((Frame.refl (l := [.cx]) s).step (frame_wakeStove s _) |>.step (frame_setCtx _ _ _)).marks
  refine marks_ite ?_ (posted _)
  exact (((posted _).trans (frame_seqLog _ _ _ _).marks).trans (frame_raise _ _ _ _).marks).trans (marks_taintSeq _ _ _ _)
theorem marks_postOpt (s : State) (x : Src) (o : Option Nat) : Marks x.st x.sq s (s.postOpt x o) := by
  cases o with
  | none => exact Marks.refl s
  | some k => exact marks_semPost s x k 1
theorem marks_skip (s : State) (i : Iss) (x : Src) (code detail : Nat) : Marks x.st x.sq s (s.skip i x code detail) := by
  unfold State.skip State.skipAs
  dsimp only
  refine Marks.trans (Marks.trans ?_ (marks_setSeq rfl)) (marks_taintSeq _ _ _ _)
  exact (((marks_postOpt s x i.post).trans (frame_seqLog _ _ _ _).marks).trans (frame_bump _ _ _ _).marks).trans
    (frame_raise _ _ _ _).marks
theorem marks_slip (s : State) (x : Src) (code epoch line : Nat) : Marks x.st x.sq s (s.slip x code epoch line) := by
  unfold State.slip
  dsimp only
  refine Marks.trans (Marks.trans ?_ (marks_setSeq rfl)) (marks_taintSeq _ _ _ _)
  exact ((frame_seqLog s _ _ _).marks.trans (frame_bump _ _ _ _).marks).trans (frame_raise _ _ _ _).marks

-- Slips (R95, R96)

/-- The parts that a slip may touch. -/
abbrev slipParts : List Part := [.pg, .sq, .sw, .out]

theorem frame_slip (s : State) (x : Src) (code epoch line : Nat) : Frame slipParts s (s.slip x code epoch line) := by
  unfold State.slip
  dsimp only
  refine Frame.step (Frame.step ?_ (frame_setSeq _ _ _ _)) (frame_taintSeq _ _ _ _)
  exact (((Frame.refl s).step (frame_seqLog s _ _ _)).step (frame_bump _ _ _ _)).step (frame_raise _ _ _ _)
theorem frame_readLines (s : State) (x : Src) (ls : List Nat) : Frame slipParts s (s.readLines x ls) :=
  frame_foldl (fun u _ => frame_ite (frame_slip u _ _ _ _) (Frame.refl u)) ls s
theorem marks_readLines (s : State) (x : Src) (ls : List Nat) : Marks x.st x.sq s (s.readLines x ls) := by
  unfold State.readLines
  induction ls generalizing s with
  | nil => exact Marks.refl s
  | cons l ls ih => exact Marks.trans (marks_ite (marks_slip s _ _ _ _) (Marks.refl s)) (ih _)
theorem readLines_ready {s : State} {x : Src} {ls : List Nat} (h : ∀ l ∈ ls, (s.tag x.st l).pending = false) :
    s.readLines x ls = s := by
  unfold State.readLines
  induction ls with
  | nil => rfl
  | cons l ls ih =>
    rw [List.foldl_cons]
    simp only [h l (by simp), Bool.false_eq_true, if_false]
    exact ih fun k hk => h k (by simp [hk])

end Sys2Proof.Machine

/-! SLD, SST and REDUCE_TO_SCALAR (R81, R83, R94 to R96). -/

namespace Sys2Proof.Machine

-- What keeps an access from its data does not change on the way

theorem Places.spdBad {s t : State} (h : Places s t) (bad : t.tr.bad = s.tr.bad) (c : Nat) (vs : List View) (write : Bool) :
    t.spdBad c vs write = s.spdBad c vs write := by
  unfold State.spdBad State.viewWords
  rw [bad]
  simp only [h.winAddr]
theorem memBad_congr {s t : State} (cx : t.cx = s.cx) (tr : t.tr = s.tr) (ht : t.ht = s.ht) (ca : t.ca = s.ca) (uc : t.uc = s.uc)
    (st c : Nat) (rs : List (Nat × Nat)) (write : Bool) : t.memBad st c rs write = s.memBad st c rs write := by
  cases s
  cases t
  subst cx tr ht ca uc
  rfl
theorem Marks.descRanges {x : Src} {s t : State} (h : Marks x.st x.sq s t) (ops : List Opd) : t.descRanges x ops = s.descRanges x ops := by
  have same : ∀ r, (t.seq x.st x.sq).addr48 r = (s.seq x.st x.sq).addr48 r := fun r => by
    unfold Seq.addr48
    rw [h.sreg, h.sreg]
  unfold State.descRanges
  simp only [same]
theorem descRanges_nil (s : State) (x : Src) : s.descRanges x [] = [] := rfl
/-- Slips keep no instruction from its data. -/
theorem clearTo_readLines {s : State} {x : Src} {ins outs chain : List View} {descs : List Opd}
    (h : s.clearTo x ins outs chain descs) (ls : List Nat) : (s.readLines x ls).clearTo x ins outs chain descs := by
  have met := frame_readLines s x ls
  have places : Places s (s.readLines x ls) := met.reached.places
  have bad : (s.readLines x ls).tr.bad = s.tr.bad := by rw [met.tr (by simp)]
  have mem : ∀ rs w, (s.readLines x ls).memBad x.st x.ctx rs w = s.memBad x.st x.ctx rs w :=
    memBad_congr (met.cx (by simp)) (met.tr (by simp)) (met.ht (by simp)) (met.ca (by simp)) (met.uc (by simp)) x.st x.ctx
  obtain ⟨read, write, spdIn, spdOut⟩ := h
  refine ⟨?_, ?_, ?_, ?_⟩
  · rw [mem, (marks_readLines s x ls).descRanges]
    exact read
  · rw [mem]
    exact write
  · rw [places.spdBad bad]
    exact spdIn
  · rw [places.spdBad bad]
    exact spdOut

-- A word of the window (R81)

theorem wordOpd_atIssue (s : State) (i : Iss) (op c : Nat) (x : Src) (hx : x = s.srcOf i op c) (a : Opd) :
    (s.atIssue i op c).wordOpd x a = s.wordOpd x a := by
  have sreg : ∀ r, ((s.atIssue i op c).seq x.st x.sq).sreg r = (s.seq x.st x.sq).sreg r := fun r => by
    rw [hx]
    show ((s.atIssue i op c).seq i.st i.sq).sreg r = _
    rw [seq_atIssue]
    rfl
  have window : (s.atIssue i op c).window x.ctx = s.window x.ctx := by
    unfold State.window
    rw [(places_atIssue s i op c).granules]
  have lifts : ∀ o n, (s.atIssue i op c).hitsLift x.ctx o n = s.hitsLift x.ctx o n := fun o n => by
    unfold State.hitsLift State.liftCfg
    simp only [rd_atIssue]
  unfold State.wordOpd
  simp only [sreg, window, lifts]

theorem place_wordView (o : Nat) : (wordView o).place = .spd := rfl
theorem ranges_wordView (o : Nat) : (wordView o).ranges = [(o, 4)] := by
  have bytes : rowBytes .n16 2 = 4 := by decide
  have plain : scaled .n16 = false := by decide
  simp [View.ranges, View.size, wordView, bytes, plain]
/-- A word fills no ECC word. -/
theorem renewSpd_wordView (s : State) (c o : Nat) : s.renewSpd c [wordView o] = s := by
  refine renewSpd_partial fun v hv w _ => ?_
  rw [List.mem_singleton.1 hv]
  unfold coversAll
  rw [ranges_wordView]
  simp
  omega
/-- A word that starts on a 4-byte boundary lies in at most one line. -/
theorem viewLines_wordView (s : State) (c : Nat) {o : Nat} (h : o % 4 = 0) :
    s.viewLines c (wordView o) = ((s.winPhys c (256 * (o / 256))).map (· / 256)).toList := by
  have one : (o + 4 - 1) / 256 + 1 - o / 256 = 1 := by omega
  unfold State.viewLines State.linesOf
  rw [ranges_wordView]
  simp only [show (wordView o).place = .spd from rfl, if_true, List.flatMap_cons, List.flatMap_nil, List.append_nil]
  rw [if_neg (by decide), one]
  simp only [List.range_one, List.filterMap_cons, List.filterMap_nil, Nat.add_zero]
  cases s.winPhys c (256 * (o / 256)) <;> simp [List.eraseDups_cons]

-- Entering a queue (R86)

theorem srcOf_st (s : State) (i : Iss) (op c : Nat) : (s.srcOf i op c).st = i.st := rfl
theorem srcOf_sq (s : State) (i : Iss) (op c : Nat) : (s.srcOf i op c).sq = i.sq := rfl
theorem srcOf_ctx (s : State) (i : Iss) (op c : Nat) : (s.srcOf i op c).ctx = c := rfl
theorem begin_atIssue {s : State} {i : Iss} {c : Nat} {ops : List Opd} (h : s.canIssue i c ops) (op : Nat) :
    s.begin i op ops = (s.atIssue i op c, some (s.srcOf i op c)) := begin_issues h op

/-- The flight as which an instruction without chairs enters its queue. -/
def State.newFlight (s : State) (i : Iss) (x : Src) (lines : List Nat) (b : Body) (writes : List (Nat × Byte)) : Flight :=
  { id := s.sq.nextId, st := x.st, sq := x.sq, ctx := x.ctx, opcode := x.op, pc := x.pc,
    epoch := tabGet (fun _ => 0) s.sq.issueNo x.st, post := i.post, chairs := [], lines := lines, body := b, writes := writes }

theorem launch_eq (s : State) (i : Iss) (x : Src) (lines : List Nat) (b : Body) (writes : List (Nat × Byte)) :
    s.launch i x [] lines b writes =
      { s with sq := { s.sq with nextId := s.sq.nextId + 1, flights := s.sq.flights ++ [s.newFlight i x lines b writes] } } := rfl
theorem frame_launch (s : State) (i : Iss) (x : Src) (lines : List Nat) (b : Body) (writes : List (Nat × Byte)) :
    Frame [.sq] s (s.launch i x [] lines b writes) := frame_upd_sq s _
theorem Issues.launch {s u : State} {i : Iss} {c : Nat} {q : Seq} {sem : Nat → Nat} (h : Issues s u i c q sem) (x : Src)
    (lines : List Nat) (b : Body) (writes : List (Nat × Byte)) : Issues s (u.launch i x [] lines b writes) i c q sem := h.keep rfl rfl

-- SLD

theorem runs_sld {s : State} {i : Iss} {c d o : Nat} {a : Opd} (issue : s.canIssue i c []) (ok : i.rd = .ok)
    (word : s.wordOpd (s.srcOf i 8 c) a = some o) (good : s.spdBad c [wordView o] false = none)
    (ready : ∀ l ∈ s.viewLines c (wordView o), (s.tag i.st l).pending = false) :
    Runs (.sld i d a) s (((s.atIssue i 8 c).setSeq i.st i.sq
      (((s.seq i.st i.sq).advance i).setSreg d (w32 (leNat (s.bytesOf c (wordView o) 0 4))))).launch i (s.srcOf i 8 c) [] [] .plain) := by
  have places := places_atIssue s i 8 c
  have issued := frame_atIssue s i 8 c
  have tags : ∀ l, (s.atIssue i 8 c).tag i.st l = s.tag i.st l := fun l => by
    unfold State.tag
    rw [issued.sp (by simp)]
  rw [← wordOpd_atIssue s i 8 c _ rfl] at word
  rw [← places.spdBad (by rw [issued.tr (by simp)])] at good
  simp only [← places.viewLines, ← tags] at ready
  have clear : (s.atIssue i 8 c).clearTo (s.srcOf i 8 c) [wordView o] [] [] [] :=
    ⟨memBad_nil _ _ _ _, memBad_nil _ _ _ _, good, spdBad_nil _ _ _⟩
  have access := access_clear ok clear 4 0
  rw [accessed_of_spd rfl, descRanges_nil, reach_nil] at access
  have still := readLines_ready (x := s.srcOf i 8 c) ready
  show execSld i d a s = _
  unfold execSld
  rw [begin_atIssue issue 8]
  dsimp only
  rw [word]
  dsimp only
  simp only [srcOf_ctx] at access still ⊢
  rw [still, access]
  dsimp only
  rw [places.bytesOf (issued.mem (by simp))]
  unfold State.modSeq
  rw [srcOf_st, srcOf_sq, seq_atIssue]

-- Bytes that land at completion (R95)

theorem coldCap_le (s : State) : s.coldCap ≤ 2 ^ 41 := by
  have pkgs : s.pkgsIn ≤ 32 := Nat.sub_le _ _
  unfold State.coldCap
  omega
/-- What translates to nothing stands for no byte of memory. -/
theorem not_writable_none (s : State) : s.writable (2 ^ 48) = false := by
  have cold : s.inCold (2 ^ 48) = false := by
    have cap := coldCap_le s
    unfold State.inCold coldBase
    exact decide_eq_false (by omega)
  have hbm : s.inHbm (2 ^ 48) = false := by
    unfold State.inHbm
    exact decide_eq_false fun h => absurd h.1 (by decide)
  have spd : inSpd (2 ^ 48) = false := by decide
  unfold State.writable State.inMem
  rw [cold, hbm, spd]
  rfl
theorem byteAddr_spd {v : View} (h : v.place = .spd) (s : State) (c off : Nat) :
    s.byteAddr c v off = (s.winAddr c (v.addr + off)).getD (2 ^ 48) := by
  unfold State.byteAddr
  rw [h]
/-- Bytes written to scratchpad change no other byte. -/
theorem mrd_putBytes_outside {s : State} {c : Nat} {v : View} (hv : v.place = .spd) {b off : Nat} {l : List Byte}
    (h : ∀ j, j < l.length → s.writable (s.byteAddr c v (off + j)) = true → b ≠ s.byteAddr c v (off + j)) :
    (s.putBytes c v off l).mrd b = s.mrd b := by
  induction l generalizing s off with
  | nil => rfl
  | cons y l ih =>
    unfold State.putBytes
    rw [if_neg (by rw [hv]; decide)]
    have places : Places s (s.mwr (s.byteAddr c v off) y) := (frame_mwr s _ y).reached.places
    rw [ih fun j hj => ?_, mrd_mwr, if_neg]
    · rintro ⟨writable, rfl⟩
      exact h 0 (by simp) writable rfl
    · rw [places.byteAddr, places.writable, Nat.add_assoc, Nat.add_comm 1 j]
      exact h (j + 1) (by simpa using hj)
/-- Bytes restored at some addresses. -/
theorem mrd_foldl_mwr (f : Nat → Byte) (l : List Nat) (s : State) (b : Nat) :
    (l.foldl (fun u a => u.mwr a (f a)) s).mrd b = if s.writable b ∧ b ∈ l then f b else s.mrd b := by
  induction l generalizing s with
  | nil => simp
  | cons a l ih =>
    have places : Places s (s.mwr a (f a)) := (frame_mwr s a (f a)).reached.places
    rw [List.foldl_cons, ih, places.writable, mrd_mwr]
    by_cases hb : b = a
    · subst hb
      by_cases hw : s.writable b = true <;> simp [hw]
    · simp [hb]
/-- The window addresses of a word's bytes. -/
def State.wordAddrs (s : State) (c o : Nat) : List Nat := (List.range 4).filterMap fun k => s.winAddr c (o + k)

theorem defer_wordView (s t : State) (c o : Nat) : s.defer t c [wordView o] =
    ((s.wordAddrs c o).foldl (fun u a => u.mwr a (s.mrd a)) t, (s.wordAddrs c o).map fun a => (a, t.mrd a)) := by
  unfold State.defer State.wordAddrs
  simp only [List.flatMap_cons, List.flatMap_nil, List.append_nil, ranges_wordView]
  rfl
/-- No byte of memory changes before a store completes (R95). -/
theorem mrd_defer_word (s : State) (c o b : Nat) {l : List Byte} (hl : l.length = 4) :
    (s.defer (s.putBytes c (wordView o) 0 l) c [wordView o]).1.mrd b = s.mrd b := by
  have places : Places s (s.putBytes c (wordView o) 0 l) := (frame_putBytes_spd s c rfl 0 l).reached.places
  rw [defer_wordView, mrd_foldl_mwr]
  split
  · rfl
  next outside =>
    refine mrd_putBytes_outside rfl fun j hj writable at_ => outside ⟨?_, ?_⟩
    · rw [places.writable, at_]
      exact writable
    · rw [byteAddr_spd rfl] at writable at_
      cases addr : s.winAddr c ((wordView o).addr + (0 + j)) with
      | none =>
        rw [addr] at writable
        exact absurd writable (by rw [Option.getD_none, not_writable_none]; decide)
      | some a =>
        rw [addr] at at_
        obtain rfl : b = a := at_
        rw [Nat.zero_add] at addr
        exact List.mem_filterMap.2 ⟨j, List.mem_range.2 (hl ▸ hj), addr⟩

/-- The bytes of a word stand behind one another. -/
theorem winAddr_word (s : State) (c : Nat) {o j : Nat} (h : o % 4 = 0) (hj : j < 4) :
    s.winAddr c (o + j) = (s.winAddr c o).map (· + j) := by
  have granule : (o + j) / 2 ^ 20 = o / 2 ^ 20 := by omega
  have inside : (o + j) % 2 ^ 20 = o % 2 ^ 20 + j := by omega
  unfold State.winAddr State.winPhys
  rw [granule, inside]
  cases (s.ctx c).granules[o / 2 ^ 20]? with
  | none => rfl
  | some g => exact congrArg some (by dsimp only; omega)
theorem putBytes_eq_mwrN {s : State} {c a : Nat} {v : View} (hv : v.place = .spd) {off : Nat} {l : List Byte}
    (h : ∀ j, j < l.length → s.byteAddr c v (off + j) = a + j) : s.putBytes c v off l = s.mwrN a l := by
  induction l generalizing s off a with
  | nil => rfl
  | cons y l ih =>
    unfold State.putBytes State.mwrN
    rw [if_neg (by rw [hv]; decide), ← Nat.add_zero off, h 0 (by simp)]
    have places : Places s (s.mwr (a + 0) y) := (frame_mwr s _ y).reached.places
    refine ih fun j hj => ?_
    rw [places.byteAddr, Nat.add_zero, Nat.add_assoc, Nat.add_comm 1 j, h (j + 1) (by simpa using hj)]
    omega
/-- What a store of a word has waiting until it completes (R95). -/
theorem writes_defer_word {s : State} {c o : Nat} (aligned : o % 4 = 0) {l : List Byte} (hl : l.length = 4)
    (writable : ∀ j, j < 4 → s.writable (s.byteAddr c (wordView o) j) = true) :
    (s.defer (s.putBytes c (wordView o) 0 l) c [wordView o]).2 =
      (List.range 4).map fun j => (s.byteAddr c (wordView o) j, l.getD j 0) := by
  cases addr : s.winAddr c o with
  | none =>
    have hole := writable 0 (by decide)
    rw [byteAddr_spd rfl] at hole
    change s.writable ((s.winAddr c o).getD (2 ^ 48)) = true at hole
    rw [addr, Option.getD_none, not_writable_none] at hole
    cases hole
  | some a =>
    have at_ : ∀ j, j < 4 → s.byteAddr c (wordView o) j = a + j := fun j hj => by
      rw [byteAddr_spd rfl]
      show (s.winAddr c (o + j)).getD _ = _
      rw [winAddr_word s c aligned hj, addr]
      rfl
    have addrs : s.wordAddrs c o = (List.range 4).map (a + ·) := by
      unfold State.wordAddrs
      rw [← List.filterMap_eq_map]
      refine List.filterMap_congr fun j hj => ?_
      rw [winAddr_word s c aligned (List.mem_range.1 hj), addr]
      rfl
    rw [defer_wordView, addrs, List.map_map,
      putBytes_eq_mwrN (a := a) rfl fun j hj => by rw [Nat.zero_add]; exact at_ j (hl ▸ hj)]
    refine List.map_congr_left fun j hj => ?_
    have small := List.mem_range.1 hj
    have there := writable j small
    rw [at_ j small] at there ⊢
    exact congrArg (Prod.mk _) (mrd_mwrN_inside s a (hl ▸ small) there)

-- SST

theorem places_setTag (s : State) (st l : Nat) (v : Tag) : Places s (s.setTag st l v) :=
  ⟨rfl, fun _ _ => rfl, fun _ => rfl, fun _ => rfl, rfl, rfl⟩
theorem frame_setTag (s : State) (st l : Nat) (v : Tag) : Frame [.sp] s (s.setTag st l v) := frame_upd_sp s _
/-- The claim of a line that nothing claims. -/
theorem claimLines_word {s : State} {x : Src} {o : Option Nat} (ready : ∀ l ∈ o.toList, (s.tag x.st l).pending = false) :
    Frame [.sp] s (s.claimLines x o.toList) ∧ Places s (s.claimLines x o.toList) ∧
      ∀ l ∈ o.toList, ((s.claimLines x o.toList).tag x.st l).pending = true := by
  cases o with
  | none => exact ⟨Frame.refl s, Places.refl s, fun l hl => absurd hl (by simp)⟩
  | some k =>
    have free := ready k (by simp)
    have claim : s.claimLines x (some k).toList = s.setTag x.st k ⟨true, tabGet (fun _ => 0) s.sq.issueNo x.st % 65536⟩ := by
      unfold State.claimLines
      simp only [Option.toList_some, List.foldl_cons, List.foldl_nil, free, Bool.false_eq_true, if_false]
    rw [claim]
    refine ⟨frame_setTag _ _ _ _, places_setTag _ _ _ _, fun l hl => ?_⟩
    have same : l = k := by simpa using hl
    rw [same]
    unfold State.tag State.setTag
    rw [tabGet_tabSet_same]

/-- The state in which a store of a word has claimed its line and left its bytes to wait. -/
def State.stored (s : State) (x : Src) (o : Nat) (l : List Byte) : State × List (Nat × Byte) :=
  let u := s.claimLines x (s.viewLines x.ctx (wordView o))
  u.defer (u.putBytes x.ctx (wordView o) 0 l) x.ctx [wordView o]

theorem frame_defer (s t : State) (c : Nat) (vs : List View) : Frame [.mem] t (s.defer t c vs).1 :=
  frame_foldl (fun u a => frame_mwr u a _) _ t

theorem runs_sst {s : State} {i : Iss} {c r o : Nat} {a : Opd} (issue : s.canIssue i c []) (ok : i.rd = .ok)
    (word : s.wordOpd (s.srcOf i 9 c) a = some o) (good : s.spdBad c [wordView o] true = none)
    (ready : ∀ l ∈ s.viewLines c (wordView o), (s.tag i.st l).pending = false) (aligned : o % 4 = 0) :
    let w := (s.atIssue i 9 c).stored (s.srcOf i 9 c) o (leBytes 4 ((s.seq i.st i.sq).sreg r).toNat)
    Runs (.sst i r a) s (w.1.launch i (s.srcOf i 9 c) [] (s.viewLines c (wordView o)) .plain w.2) := by
  have places := places_atIssue s i 9 c
  have issued := frame_atIssue s i 9 c
  have tags : ∀ l, (s.atIssue i 9 c).tag i.st l = s.tag i.st l := fun l => by
    unfold State.tag
    rw [issued.sp (by simp)]
  rw [← wordOpd_atIssue s i 9 c _ rfl] at word
  rw [← places.spdBad (by rw [issued.tr (by simp)])] at good
  have clear : (s.atIssue i 9 c).clearTo (s.srcOf i 9 c) [] [wordView o] [] [] :=
    ⟨memBad_nil _ _ _ _, memBad_nil _ _ _ _, spdBad_nil _ _ _, good⟩
  have access := access_clear ok clear 4 0
  have whole : (s.atIssue i 9 c).accessed (s.srcOf i 9 c) [] [wordView o] [] = s.atIssue i 9 c := by
    unfold State.accessed
    rw [spillViews_of_not_rb (by simp) (by simp [place_wordView])]
    simp only [List.flatMap_cons, List.flatMap_nil, vranges_of_spd (v := wordView o) rfl, List.append_nil]
    rw [descRanges_nil, reach_nil, reachW_nil, renewSpd_wordView]
  rw [whole] at access
  simp only [← places.viewLines, ← tags] at ready
  rw [viewLines_wordView _ _ aligned] at ready
  obtain ⟨claimed, -, -⟩ := claimLines_word (x := s.srcOf i 9 c) ready
  rw [← viewLines_wordView _ _ aligned] at claimed
  intro w
  show execSst i r a s = _
  unfold execSst
  rw [begin_atIssue issue 9]
  dsimp only
  rw [word]
  dsimp only
  rw [access]
  dsimp only
  rw [srcOf_ctx, claimed.seq (by simp), srcOf_st, srcOf_sq, seq_atIssue, ← places.viewLines]
  rfl

-- Words that are not there (R94)

theorem sreg_skipped {s : State} {i : Iss} {op c code detail n : Nat} :
    (((s.atIssue i op c).skip i (s.srcOf i op c) code detail).seq i.st i.sq).sreg n = (s.seq i.st i.sq).sreg n := by
  have met := (marks_skip (s.atIssue i op c) i (s.srcOf i op c) code detail).sreg n
  rw [srcOf_st, srcOf_sq, seq_atIssue, sreg_advance] at met
  exact met
theorem sameFlights_skipped (s : State) (i : Iss) (op c code detail : Nat) :
    SameFlights postParts s ((s.atIssue i op c).skip i (s.srcOf i op c) code detail) :=
  ((SameFlights.refl s).step (sameFlights_atIssue s i op c)).step (sameFlights_skip _ i _ code detail) fun _ => id
theorem runs_sld_skipped {s : State} {i : Iss} {c d : Nat} {a : Opd} (issue : s.canIssue i c [])
    (missing : s.wordOpd (s.srcOf i 8 c) a = none) :
    Runs (.sld i d a) s ((s.atIssue i 8 c).skip i (s.srcOf i 8 c) 1 ((s.atIssue i 8 c).wordAddr (s.srcOf i 8 c) a)) := by
  rw [← wordOpd_atIssue s i 8 c _ rfl] at missing
  show execSld i d a s = _
  unfold execSld
  rw [begin_atIssue issue 8]
  dsimp only
  rw [missing]
theorem runs_sst_skipped {s : State} {i : Iss} {c r : Nat} {a : Opd} (issue : s.canIssue i c [])
    (missing : s.wordOpd (s.srcOf i 9 c) a = none) :
    Runs (.sst i r a) s ((s.atIssue i 9 c).skip i (s.srcOf i 9 c) 1 ((s.atIssue i 9 c).wordAddr (s.srcOf i 9 c) a)) := by
  rw [← wordOpd_atIssue s i 9 c _ rfl] at missing
  show execSst i r a s = _
  unfold execSst
  rw [begin_atIssue issue 9]
  dsimp only
  rw [missing]

-- REDUCE_TO_SCALAR (R83)

theorem frame_foldl_fst {α β : Type} {l : List Part} {f : State × β → α → State × β} (h : ∀ w a, Frame l w.1 (f w a).1)
    (xs : List α) (w : State × β) : Frame l w.1 (xs.foldl f w).1 := by
  induction xs generalizing w with
  | nil => exact Frame.refl w.1
  | cons x xs ih => exact (h w x).trans (ih _)
theorem frame_tallyCtx (s : State) (c : Nat) (f : Fmt) (k : Cls) (t : Tally) : Frame [.sw] s (s.tallyCtx c f k t) := by
  unfold State.tallyCtx State.tallyAt
  refine frame_ite ?_ (Frame.refl s)
  unfold State.tally State.rcAdd
  exact ((frame_upd_sw s _).trans (frame_upd_sw _ _)).trans (frame_upd_sw _ _)
theorem frame_tallyT2 (s : State) (c : Nat) (l : List (View × List (Nat × Nat))) : Frame [.sw] s (s.tallyT2 c l) :=
  frame_foldl_fst (fun w p => frame_tallyCtx w.1 c .t2 p.1.cls _) l (s, [])

theorem mergeView_of_spd {v : View} (h : v.place = .spd) (s : State) (c : Nat) : s.mergeView c v = false := by
  unfold State.mergeView
  rw [h]
  rfl
/-- The word that a reduction of a view gives. -/
def State.reduced (s : State) (c op : Nat) (shift : Int) (thresh : W16) (v : View) : W32 :=
  reduceResult op shift (decN16 thresh) (v.cells.filter fun p => atLimit v.fmt v.zp (s.codeAt c v p.1 p.2)).length
    (v.cells.map fun p => s.valAt c v p.1 p.2)
/-- What a reduction gives depends on memory and its places alone. -/
theorem Places.reduced {s t : State} (h : Places s t) (mem : t.mem = s.mem) {v : View} (hv : v.place = .spd) (c op : Nat)
    (shift : Int) (thresh : W16) : t.reduced c op shift thresh v = s.reduced c op shift thresh v := by
  have not_rb : v.place ≠ .rb := by
    rw [hv]
    decide
  unfold State.reduced
  simp only [h.codeAt mem c not_rb, h.valAt mem c not_rb]
/-- The state in which a reduction has read its view. -/
def State.reducing (s : State) (x : Src) (v : View) (a : Opd) : State :=
  let u := s.readLines x (s.viewLines x.ctx v)
  u.reach x.ctx (u.descRanges x [a])

theorem reached_reducing (s : State) (x : Src) (v : View) (a : Opd) :
    Reached (reaching slipParts) s (s.reducing x v a) := by
  unfold State.reducing
  dsimp only
  refine Reached.step ?_ (reached_reachAs _ _ _ _ _ _ _ _) (by simp [reachParts])
  exact (Reached.refl s).step (frame_readLines s x _).reached (by simp [reachParts])
theorem marks_reducing (s : State) (x : Src) (v : View) (a : Opd) : Marks x.st x.sq s (s.reducing x v a) :=
  (marks_readLines s x _).trans ((reached_reachAs _ _ _ _ _ _ _ _).frame.marks (by simp [reachParts]))
theorem places_reducing (s : State) (x : Src) (v : View) (a : Opd) : Places s (s.reducing x v a) :=
  (frame_readLines s x _).reached.places.trans (places_reachAs _ _ _ _ _ _ _ _)

section Reduce
variable {s : State} {i : Iss} {op d : Nat} {shift : Int} {thresh : W16} {a : Opd} {c : Nat} {v : View}
  (issue : s.canIssue i c []) (view : (s.atIssue i 0x18 c).view i.st i.sq c a 0 0 = v)
  (desc : (s.atIssue i 0x18 c).descFails i.st i.sq c a v false = false) (spd : v.place = .spd)
  (extent : (s.atIssue i 0x18 c).extentFails c a v = false)
include issue view desc spd extent

theorem runs_reduce_empty (empty : v.size = 0) : Runs (.reduceToScalar i op d shift thresh a) s
    ((s.atIssue i 0x18 c).postOpt (s.srcOf i 0x18 c) i.post) := by
  have merge := mergeView_of_spd spd (s.atIssue i 0x18 c) c
  show execReduceToScalar i op d shift thresh a s = _
  unfold execReduceToScalar
  rw [begin_atIssue issue 0x18]
  simp only [srcOf_st, srcOf_sq, srcOf_ctx, view, desc, spd, merge, extent, empty]
  rfl
theorem runs_reduce {w : W32} (some_ : v.size ≠ 0) (ok : i.rd = .ok)
    (clear : (s.atIssue i 0x18 c).clearTo (s.srcOf i 0x18 c) [v] [] [] [a])
    (word : (s.atIssue i 0x18 c).reduced c op shift thresh v = w) :
    Runs (.reduceToScalar i op d shift thresh a) s
      (((((s.atIssue i 0x18 c).reducing (s.srcOf i 0x18 c) v a).tallyT2 c [(v, v.cells)]).modSeq i.st i.sq fun q =>
        q.setSreg d w).launch i (s.srcOf i 0x18 c) [] [] .plain) := by
  have same := (places_reducing (s.atIssue i 0x18 c) (s.srcOf i 0x18 c) v a).reduced
    ((reached_reducing _ _ v a).frame.mem (by simp [reachParts])) spd c op shift thresh
  have merge := mergeView_of_spd spd (s.atIssue i 0x18 c) c
  have access := access_clear ok (clearTo_readLines clear ((s.atIssue i 0x18 c).viewLines c v)) 2 0
  rw [accessed_of_spd spd] at access
  rw [← word, ← same]
  show execReduceToScalar i op d shift thresh a s = _
  unfold execReduceToScalar
  rw [begin_atIssue issue 0x18]
  simp only [srcOf_st, srcOf_sq, srcOf_ctx, view, desc, spd, merge, extent, some_, access, if_false, Bool.false_eq_true, or_self,
    reduceCtorEq, ne_eq, not_true_eq_false]
  rfl

end Reduce

theorem setSreg_eq (q : Seq) (d : Nat) (w : W32) : q.setSreg d w = { q with sregs := (q.setSreg d w).sregs } := by
  cases d <;> rfl
theorem sreg_setSreg_congr {p q : Seq} (h : ∀ n, q.sreg n = p.sreg n) (d : Nat) (w : W32) (n : Nat) :
    (q.setSreg d w).sreg n = (p.setSreg d w).sreg n := by
  cases d with
  | zero => exact h n
  | succ d => rw [sreg_setSreg, sreg_setSreg, h]

/-- A reduction that has read its view writes its register and enters its queue (R83). -/
theorem reduce_launches {s : State} {i : Iss} {a : Opd} {c d : Nat} {v : View} (w : W32) :
    let u := (s.atIssue i 0x18 c).reducing (s.srcOf i 0x18 c) v a
    let t := ((u.tallyT2 c [(v, v.cells)]).modSeq i.st i.sq fun q => q.setSreg d w).launch i (s.srcOf i 0x18 c) [] [] .plain
    ∃ f, Launches s t i c f ∧ f.body = .plain ∧ f.lines = [] ∧
      (∀ n, (t.seq i.st i.sq).sreg n = ((s.seq i.st i.sq).setSreg d w).sreg n) ∧ Frame (reaching slipParts) s t := by
  intro u t
  have tallied : Frame [.sw] u (u.tallyT2 c [(v, v.cells)]) := frame_tallyT2 u c _
  have marks : Marks i.st i.sq (s.atIssue i 0x18 c) (u.tallyT2 c [(v, v.cells)]) :=
    (marks_reducing (s.atIssue i 0x18 c) (s.srcOf i 0x18 c) v a).trans tallied.marks
  have own : t.seq i.st i.sq = ((u.tallyT2 c [(v, v.cells)]).seq i.st i.sq).setSreg d w := State.seq_setSeq_same _ _ _ _
  have sq : (u.tallyT2 c [(v, v.cells)]).sq = { (s.atIssue i 0x18 c).sq with seqs := (u.tallyT2 c [(v, v.cells)]).sq.seqs } := marks.sq
  have flights : t.sq.flights = s.sq.flights ++
      [((u.tallyT2 c [(v, v.cells)]).modSeq i.st i.sq fun q => q.setSreg d w).newFlight i (s.srcOf i 0x18 c) [] .plain []] := by
    show (u.tallyT2 c [(v, v.cells)]).sq.flights ++ _ = _
    rw [sq, sq_atIssue]
    rfl
  refine ⟨_, ⟨⟨?_, ?_, ?_, flights, ?_, ⟨rfl, rfl, rfl⟩, rfl⟩, fun st n other => ?_⟩, rfl, rfl, fun n => ?_, ?_⟩
  · rw [own, setSreg_eq, marks.own, seq_atIssue]
  · rw [own, setSreg_eq, marks.own, seq_atIssue]
  · rw [own, setSreg_eq, marks.own, seq_atIssue]
  · show (u.tallyT2 c [(v, v.cells)]).sq.nextId = _
    rw [sq, sq_atIssue]
  · have set : t.seq st n = (u.tallyT2 c [(v, v.cells)]).seq st n := (State.seq_setSeq _ _ _ _ _ _).trans (if_neg other)
    rw [set, marks.others st n other, seq_atIssue_other s i _ c other]
  · rw [own]
    refine sreg_setSreg_congr (fun k => ?_) d w n
    rw [marks.sreg, seq_atIssue, sreg_advance]
  · have issued : Frame (reaching slipParts) s (s.atIssue i 0x18 c) := (frame_atIssue s i 0x18 c).mono (by simp [reachParts])
    refine (((issued.trans (reached_reducing _ _ v a).frame).step tallied (by simp)).step (frame_setSeq _ _ _ _) (by simp)).step
      (frame_launch _ _ _ _ _ _) (by simp)

/-- A store of a word has claimed its line, and left its bytes to wait (R95). -/
theorem sst_stores {s : State} {i : Iss} {c o : Nat} (aligned : o % 4 = 0)
    (ready : ∀ l ∈ s.viewLines c (wordView o), (s.tag i.st l).pending = false) {l : List Byte} (hl : l.length = 4) :
    let w := (s.atIssue i 9 c).stored (s.srcOf i 9 c) o l
    Frame [.sp, .mem] (s.atIssue i 9 c) w.1 ∧ (∀ x, w.1.mrd x = s.mrd x) ∧
      (∀ k ∈ s.viewLines c (wordView o), (w.1.tag i.st k).pending = true) ∧
      ((∀ j, j < 4 → s.writable (s.byteAddr c (wordView o) j) = true) →
        w.2 = (List.range 4).map fun j => (s.byteAddr c (wordView o) j, l.getD j 0)) := by
  have issued := frame_atIssue s i 9 c
  have places := places_atIssue s i 9 c
  have lines := viewLines_wordView s c aligned
  rw [← places.viewLines, places.viewLines] at lines
  have unclaimed : ∀ k ∈ ((s.winPhys c (256 * (o / 256))).map (· / 256)).toList,
      ((s.atIssue i 9 c).tag (s.srcOf i 9 c).st k).pending = false := fun k hk => by
    unfold State.tag
    rw [issued.sp (by simp)]
    exact ready k (lines ▸ hk)
  obtain ⟨claimed, kept, tags⟩ := claimLines_word unclaimed
  rw [← lines, ← places.viewLines] at claimed kept tags
  have same := kept.mrd (claimed.mem (by simp))
  have put := frame_putBytes_spd ((s.atIssue i 9 c).claimLines (s.srcOf i 9 c) ((s.atIssue i 9 c).viewLines c (wordView o))) c
    (place_wordView o) 0 l
  intro w
  refine ⟨?_, fun x => ?_, fun k hk => ?_, fun writable => ?_⟩
  · exact ((claimed.mono (by simp)).step put).step (frame_defer _ _ _ _)
  · exact (mrd_defer_word _ c o x hl).trans ((same x).trans (places.mrd (issued.mem (by simp)) x))
  · rw [← tags k (by rwa [places.viewLines])]
    unfold State.tag
    have kept := put.trans (frame_defer ((s.atIssue i 9 c).claimLines (s.srcOf i 9 c) ((s.atIssue i 9 c).viewLines c (wordView o))) _ c
      [wordView o])
    exact congrArg (fun p : SpdSt => (tabGet _ p.tags _).pending) (kept.sp (by simp))
  · have both := places.trans kept
    refine (writes_defer_word aligned hl fun j hj => ?_).trans ?_
    · rw [srcOf_ctx, both.writable, both.byteAddr]
      exact writable j hj
    · simp only [srcOf_ctx, both.byteAddr]

theorem wordOpd_aligned {s : State} {x : Src} {a : Opd} {o : Nat} (h : s.wordOpd x a = some o) : o % 4 = 0 := by
  unfold State.wordOpd at h
  obtain ⟨fits, same⟩ := Option.ite_none_right_eq_some.1 h
  exact Option.some.inj same ▸ fits.1

/-- Settles O13: a load or store issues and enters its queue (`runs_sld`, `runs_sst`; `mrd_defer_word` is why no byte changes until then),
a word that is not there is skipped, and a reduction writes what `State.reduced` gives of the view as issue finds it. -/
theorem loadsAndStores : Obligations.LoadsAndStores := by
  refine ⟨fun i c d o a s issue ok word good ready => ?_, fun i c r o a s issue ok word good ready => ?_,
    fun i c d r a s issue => ⟨fun missing => ?_, fun missing => ?_⟩, fun i op d shift thresh a c s issue => ?_⟩
  · have flights : (s.atIssue i 8 c).sq.flights = s.sq.flights := by rw [sq_atIssue]
    refine ⟨_, runs_sld issue ok word good ready, ((issues_atIssue s i 8 c).setSeq _).launch _ _ _ _,
      ⟨_, congrArg (· ++ _) flights, rfl, rfl, rfl, rfl⟩, ?_⟩
    exact ((frame_atIssue s i 8 c).step (frame_setSeq _ _ _ _)).step (frame_launch _ _ _ _ _ _)
  · intro v
    have flights : (s.atIssue i 9 c).sq.flights = s.sq.flights := by rw [sq_atIssue]
    have aligned := wordOpd_aligned word
    obtain ⟨frame, mem, tags, writes⟩ := sst_stores (s := s) (i := i) (c := c) aligned ready (l := v) rfl
    have run := runs_sst (r := r) issue ok word good ready aligned
    change Runs _ s (((s.atIssue i 9 c).stored (s.srcOf i 9 c) o v).1.launch _ _ _ _ _
      ((s.atIssue i 9 c).stored (s.srcOf i 9 c) o v).2) at run
    generalize (s.atIssue i 9 c).stored (s.srcOf i 9 c) o v = w at frame mem tags writes run
    refine ⟨_, run, ?_, mem, tags, ⟨_, congrArg (· ++ _) ((congrArg SeqSt.flights (frame.sq (by simp))).trans flights), rfl, rfl, rfl,
      rfl, writes⟩, ?_⟩
    · refine Issues.launch ((issues_atIssue s i 9 c).keep ?_ ?_) _ _ _ _
      · rw [frame.cx (by simp)]
      · rw [frame.sq (by simp)]
    · exact (((frame_atIssue s i 9 c).mono (by simp)).step frame).step (frame_launch _ _ _ _ _ _)
  · exact ⟨_, runs_sld_skipped issue missing, fun n => sreg_skipped, (sameFlights_skipped s i 8 c _ _).flights,
      (sameFlights_skipped s i 8 c _ _).frame⟩
  · exact ⟨_, runs_sst_skipped issue missing, (sameFlights_skipped s i 9 c _ _).flights, (sameFlights_skipped s i 9 c _ _).frame⟩
  · intro u v desc spd extent
    refine ⟨fun some_ ok clear => ?_, fun empty => ?_⟩
    · intro cells w
      obtain ⟨f, launches, body, lines, regs, frame⟩ := reduce_launches (s := s) (i := i) (a := a) (c := c) (d := d) (v := v) w
      exact ⟨_, f, runs_reduce issue rfl desc spd extent some_ ok clear rfl, launches, body, lines, regs, frame⟩
    · have posted := (scalar_atIssue s i 0x18 c).postOpt 0x18
      refine ⟨_, runs_reduce_empty issue rfl desc spd extent empty, fun n => ?_, posted.same.flights, posted.issues.sem,
        posted.same.frame⟩
      rw [posted.issues.seq]
      rfl

end Sys2Proof.Machine

/-! Collectives that fail a check at issue (R94, R294, R295): they take their number, and are skipped. -/

namespace Sys2Proof.Machine

theorem frame_setCjob (s : State) (b : Nat) (v : ColJob) : Frame [.fb] s (s.setCjob b v) := frame_upd_fb s _
/-- The state in which a collective of a slot has taken its number (R294). -/
def State.numbered (s : State) (b : Nat) : State := s.setCjob b { s.cjob b with cseq := ((s.cjob b).cseq + 1) % 2 ^ 32 }

/-- The state in which a collective has issued and taken its number. -/
def State.collNumbered (s : State) (i : Iss) (c : Nat) : State := (s.atIssue i 0x40 c).numbered (s.ctx c).slot

theorem frame_collNumbered (s : State) (i : Iss) (c : Nat) : Frame [.pg, .cx, .sq, .fb] s (s.collNumbered i c) :=
  ((frame_atIssue s i 0x40 c).mono (by simp)).step (frame_setCjob _ _ _)
theorem slot_atIssue (s : State) (i : Iss) (op c : Nat) : ((s.atIssue i op c).ctx c).slot = (s.ctx c).slot := by
  rw [ctx_atIssue_same]
theorem cjob_atIssue (s : State) (i : Iss) (op c b : Nat) : (s.atIssue i op c).cjob b = s.cjob b :=
  (frame_atIssue s i op c).cjob (by simp) b
theorem cseq_collNumbered (s : State) (i : Iss) (c : Nat) :
    ((s.collNumbered i c).cjob (s.ctx c).slot).cseq = ((s.cjob (s.ctx c).slot).cseq + 1) % 2 ^ 32 := by
  unfold State.collNumbered State.numbered
  rw [State.cjob_setCjob_same, cjob_atIssue]
theorem flights_collNumbered (s : State) (i : Iss) (c : Nat) : (s.collNumbered i c).sq.flights = s.sq.flights := by
  unfold State.collNumbered State.numbered
  rw [(frame_setCjob _ _ _).sq (by simp), sq_atIssue]
theorem seq_collNumbered (s : State) (i : Iss) (c : Nat) :
    (s.collNumbered i c).seq i.st i.sq = (s.seq i.st i.sq).advance i := by
  unfold State.collNumbered State.numbered
  rw [(frame_setCjob _ _ _).seq (by simp), seq_atIssue]
theorem seq_collNumbered_other (s : State) (i : Iss) (c : Nat) {st n : Nat} (h : 64 * st + n ≠ 64 * i.st + i.sq) :
    (s.collNumbered i c).seq st n = s.seq st n := by
  unfold State.collNumbered State.numbered
  rw [(frame_setCjob _ _ _).seq (by simp), seq_atIssue_other s i 0x40 c h]
theorem rd_collNumbered (s : State) (i : Iss) (c d r : Nat) : (s.collNumbered i c).rd d r = s.rd d r := by
  unfold State.collNumbered State.numbered
  rw [(frame_setCjob _ _ _).rd (by simp), rd_atIssue]

/-- A command that issues a collective of an operation. -/
def Collective (op : Nat) (i : Iss) (o : CollOps) (cmd : Instr) : Prop := ∀ s, exec cmd s = .next (s.issueColl op i o)

section Issue
variable {s : State} {i : Iss} {o : CollOps} {c op : Nat} (issue : s.canIssue i c [])
include issue

theorem issueColl_fails {r : Nat × Nat}
    (fails : (s.atIssue i 0x40 c).collFails (s.srcOf i 0x40 c) op o ((s.atIssue i 0x40 c).collViews (s.srcOf i 0x40 c) op o) = some r) :
    s.issueColl op i o = (s.collNumbered i c).skip i (s.srcOf i 0x40 c) r.1 r.2 := by
  unfold State.issueColl
  rw [begin_atIssue issue 0x40]
  dsimp only
  rw [fails, srcOf_ctx, slot_atIssue]
  rfl
theorem issueColl_refused {r : Nat}
    (passes : (s.atIssue i 0x40 c).collFails (s.srcOf i 0x40 c) op o ((s.atIssue i 0x40 c).collViews (s.srcOf i 0x40 c) op o) = none)
    (fails : (s.atIssue i 0x40 c).collCheck (s.srcOf i 0x40 c) (s.ctx c).slot op
      ((s.atIssue i 0x40 c).collViews (s.srcOf i 0x40 c) op o) o.far = some r) :
    ∃ peer cseq, s.issueColl op i o = (s.collNumbered i c).collSkip i (s.srcOf i 0x40 c) (s.ctx c).slot r peer cseq := by
  unfold State.issueColl
  rw [begin_atIssue issue 0x40]
  dsimp only
  rw [passes, srcOf_ctx, slot_atIssue]
  dsimp only
  rw [fails]
  exact ⟨_, _, rfl⟩

end Issue

-- Skips (R94, R295)

theorem marks_collSkip (s : State) (i : Iss) (x : Src) (b reason peer cseq : Nat) :
    Marks x.st x.sq s (s.collSkip i x b reason peer cseq) := by
  unfold State.collSkip
  dsimp only
  refine Marks.trans (Marks.trans ?_ (marks_setSeq rfl)) (marks_taintSeq _ _ _ _)
  exact ((((marks_postOpt s x i.post).trans (frame_bump _ _ _ _).marks).trans (frame_raise _ _ _ _).marks).trans
    (frame_colLog _ _ _ _ _ _ _ _).marks).trans (frame_raise _ _ _ _).marks
theorem frame_collSkip (s : State) (i : Iss) (x : Src) (b reason peer cseq : Nat) :
    Frame postParts s (s.collSkip i x b reason peer cseq) := by
  unfold State.collSkip
  dsimp only
  refine Frame.step (Frame.step ?_ (frame_setSeq _ _ _ _)) (frame_taintSeq _ _ _ _)
  exact ((((sameFlights_postOpt s x i.post).frame.step (frame_bump _ _ _ _)).step (frame_raise _ _ _ _)).step
    (frame_colLog _ _ _ _ _ _ _ _)).step (frame_raise _ _ _ _)
theorem rdN_collSkip (s : State) (i : Iss) (x : Src) (b reason peer cseq : Nat) :
    (s.collSkip i x b reason peer cseq).rdN x.st Reg.SEQ_SKIP_TOTAL = satAdd 0xFFFFFFFF (s.rdN x.st Reg.SEQ_SKIP_TOTAL) 1 := by
  have posted : (s.postOpt x i.post).rdN x.st Reg.SEQ_SKIP_TOTAL = s.rdN x.st Reg.SEQ_SKIP_TOTAL :=
    congrArg BitVec.toNat (State.rd_postOpt_other s x i.post x.st (by decide) (by decide))
  have logged : ∀ u : State, (u.colLog 3 b reason peer x.ctx cseq (u.job b).step).rd x.st Reg.SEQ_SKIP_TOTAL =
      u.rd x.st Reg.SEQ_SKIP_TOTAL := fun _ => rfl
  rw [← posted, ← State.rdN_bump_same]
  refine congrArg BitVec.toNat ?_
  unfold State.collSkip State.modSeq
  dsimp only
  rw [(frame_taintSeq _ _ _ _).rd (by simp), (frame_setSeq _ _ _ _).rd (by simp),
    State.rd_raise_other _ _ _ _ (by decide) (by decide) (by decide), logged,
    State.rd_raise_other _ _ _ _ (by decide) (by decide) (by decide)]

/-- What a skipped collective leaves: its number is taken, it is counted, and nothing enters a queue (R294, R295). -/
structure CollSkipped (s t : State) (i : Iss) (b : Nat) : Prop where
  flights : t.sq.flights = s.sq.flights
  number : (t.cjob b).cseq = ((s.cjob b).cseq + 1) % 2 ^ 32
  counted : t.rdN i.st Reg.SEQ_SKIP_TOTAL = satAdd 0xFFFFFFFF (s.rdN i.st Reg.SEQ_SKIP_TOTAL) 1
  regs : SameRegs s t i
  frame : Frame [.pg, .cx, .sq, .sw, .fb, .out] s t

theorem CollSkipped.of_marks {s t : State} {i : Iss} {c : Nat} (marks : Marks i.st i.sq (s.collNumbered i c) t)
    (frame : Frame postParts (s.collNumbered i c) t)
    (counted : t.rdN i.st Reg.SEQ_SKIP_TOTAL = satAdd 0xFFFFFFFF ((s.collNumbered i c).rdN i.st Reg.SEQ_SKIP_TOTAL) 1) :
    CollSkipped s t i (s.ctx c).slot where
  flights := by rw [marks.sq, flights_collNumbered]
  number := by rw [frame.cjob (by simp), cseq_collNumbered]
  counted := by
    rw [counted]
    unfold State.rdN
    rw [rd_collNumbered]
  regs n := by rw [marks.sreg, seq_collNumbered, sreg_advance]
  frame := ((frame_collNumbered s i c).mono (by simp)).step frame
/-- A collective that fails a check is skipped. -/
theorem coll_skipped {s : State} {i : Iss} {o : CollOps} {c op : Nat} {cmd : Instr} (issue : s.canIssue i c [])
    (coll : Collective op i o cmd)
    (fails : (s.atIssue i 0x40 c).collFails (s.srcOf i 0x40 c) op o ((s.atIssue i 0x40 c).collViews (s.srcOf i 0x40 c) op o) ≠ none ∨
      (s.atIssue i 0x40 c).collCheck (s.srcOf i 0x40 c) (s.ctx c).slot op
        ((s.atIssue i 0x40 c).collViews (s.srcOf i 0x40 c) op o) o.far ≠ none) :
    ∃ t, Runs cmd s t ∧ CollSkipped s t i (s.ctx c).slot := by
  have skipped : ∀ code detail, CollSkipped s ((s.collNumbered i c).skip i (s.srcOf i 0x40 c) code detail) i (s.ctx c).slot :=
    fun code detail => CollSkipped.of_marks (marks_skip _ i (s.srcOf i 0x40 c) code detail)
      (sameFlights_skip _ i (s.srcOf i 0x40 c) code detail).frame (State.rdN_skip _ i (s.srcOf i 0x40 c) code detail)
  cases first : (s.atIssue i 0x40 c).collFails (s.srcOf i 0x40 c) op o ((s.atIssue i 0x40 c).collViews (s.srcOf i 0x40 c) op o) with
  | some r => exact ⟨_, (coll s).trans (congrArg _ (issueColl_fails issue first)), skipped r.1 r.2⟩
  | none =>
    obtain ⟨r, second⟩ := Option.ne_none_iff_exists'.1 (fails.resolve_left (absurd first))
    obtain ⟨peer, cseq, eq⟩ := issueColl_refused issue first second
    exact ⟨_, (coll s).trans (congrArg _ eq), CollSkipped.of_marks (marks_collSkip _ i (s.srcOf i 0x40 c) _ r peer cseq)
      (frame_collSkip _ i (s.srcOf i 0x40 c) _ r peer cseq) (rdN_collSkip _ i (s.srcOf i 0x40 c) _ r peer cseq)⟩

end Sys2Proof.Machine

/-! What moving a collective's data changes beside its flight (R288, R295, R296): its destination and the fabric. -/

namespace Sys2Proof.Machine

-- The words that name a job's members (R306)

/-- Register words at the places of a COL_JOB_b_MEM_HI are the same, for whatever slot. -/
def SameMembers (s t : State) : Prop := ∀ k, k % 32 = 12 → tabGet regReset t.pg.regs k = tabGet regReset s.pg.regs k

theorem SameMembers.refl (s : State) : SameMembers s s := fun _ _ => rfl
theorem SameMembers.trans {a b c : State} (h : SameMembers a b) (g : SameMembers b c) : SameMembers a c :=
  fun k hk => (g k hk).trans (h k hk)
theorem Frame.sameMembers {l : List Part} {s t : State} (f : Frame l s t) (h : .pg ∉ l := by simp) : SameMembers s t := by
  intro k _
  rw [f.pg h]
theorem sameMembers_foldl {α : Type} {f : State → α → State} (h : ∀ s a, SameMembers s (f s a)) (xs : List α) (s : State) :
    SameMembers s (xs.foldl f s) := by
  induction xs generalizing s with
  | nil => exact SameMembers.refl s
  | cons x xs ih => exact (h s x).trans (ih _)
theorem sameMembers_ite {p : Prop} [Decidable p] {s a b : State} (ha : SameMembers s a) (hb : SameMembers s b) :
    SameMembers s (if p then a else b) := by
  split
  · exact ha
  · exact hb
theorem sameMembers_wr (s : State) (d : Nat) {r : Nat} (v : W32) (h : r % 32 ≠ 12) : SameMembers s (s.wr d r v) := by
  intro k hk
  have other : k ≠ regKey d r := by
    unfold regKey
    omega
  exact tabGet_tabSet_other _ _ _ _ _ other
theorem sameMembers_sendSource (s : State) (d : Nat) {p : Nat} (h : p % 16 = 0) : SameMembers s (s.sendSource d p) :=
  sameMembers_ite (sameMembers_wr s d _ (by unfold Reg.UCI_SRC_p_CTRL; omega)) (frame_emit s _).sameMembers
theorem sameMembers_sendIrq (s : State) (d : Nat) {p : Nat} (h : p % 16 = 0) : SameMembers s (s.sendIrq d p) :=
  sameMembers_ite (SameMembers.refl _) (sameMembers_ite
    ((sameMembers_sendSource _ _ h).trans (sameMembers_sendSource _ _ h)) (sameMembers_sendSource _ _ h))
theorem sameMembers_raise (s : State) (d : Nat) {p : Nat} (b : Nat) (h : p % 16 = 0) : SameMembers s (s.raise d p b) := by
  have header : ∀ v, SameMembers s (s.setHdr d p v) := fun _ _ _ => rfl
  unfold State.raise State.raiseBits
  exact sameMembers_ite ((header _).trans (sameMembers_sendIrq _ _ h)) (header _)
theorem SameMembers.memberCount {s t : State} (h : SameMembers s t) (b : Nat) : t.memberCount b = s.memberCount b := by
  unfold State.memberCount State.rd
  rw [h _ (by unfold regKey colReg Reg.COL_JOB_b_MEM_HI; omega)]

-- Sending (R285 to R289)

/-- Sending a message leaves every job of the fabric, and the words that name members. -/
structure Sends (s t : State) : Prop where
  frame : Frame [.pg, .fb, .out] s t
  members : SameMembers s t
  jobs : t.fb.jobs = s.fb.jobs

theorem Sends.refl (s : State) : Sends s s := ⟨Frame.refl s, SameMembers.refl s, rfl⟩
theorem Sends.trans {a b c : State} (h : Sends a b) (g : Sends b c) : Sends a c :=
  ⟨h.frame.trans g.frame, h.members.trans g.members, g.jobs.trans h.jobs⟩
theorem sends_ite {p : Prop} [Decidable p] {s a b : State} (ha : Sends s a) (hb : Sends s b) : Sends s (if p then a else b) := by
  split
  · exact ha
  · exact hb
theorem sends_emit (s : State) (o : Out) : Sends s (s.emit o) :=
  ⟨(frame_emit s o).mono (by simp), (frame_emit s o).sameMembers, rfl⟩
theorem sends_setPort (s : State) (p : Nat) (q : Port) : Sends s (s.setPort p q) :=
  ⟨(frame_upd_fb s _).mono (by simp), (frame_upd_fb s _).sameMembers, rfl⟩
theorem sends_bumpWrap (s : State) (d n : Nat) {r : Nat} (h : r % 32 ≠ 12) : Sends s (s.bumpWrap d r n) :=
  ⟨(frame_bumpWrap _ _ _ _).mono (by simp), sameMembers_wr _ _ _ h, rfl⟩
theorem sends_sendBare (s : State) (p kind : Nat) (nak : Bool) : Sends s (s.sendBare p kind nak) :=
  (sends_setPort s p _).trans (sends_emit _ _)
theorem sends_returnPlace (s : State) (o : Option (Nat × Nat)) : Sends s (s.returnPlace o) := by
  cases o with
  | none => exact Sends.refl s
  | some p => exact sends_ite ((sends_setPort s p.1 _).trans (sends_sendBare _ _ _ _)) (Sends.refl s)
theorem sends_sendFlit (s : State) (p : Nat) (f : Flit) (k : Nat) : Sends s (s.sendFlit p f k) := by
  unfold State.sendFlit
  dsimp only
  exact (((sends_setPort s p _).trans (sends_bumpWrap _ _ _ (by unfold Reg.FAB_TX_FLITS; omega))).trans (sends_emit _ _)).trans
    (sends_returnPlace _ _)
theorem sends_pump (s : State) (p n : Nat) : Sends s (s.pump p n) := by
  induction n generalizing s with
  | zero => exact Sends.refl s
  | succ n ih =>
    unfold State.pump
    split
    · exact Sends.refl s
    · exact (sends_sendFlit s p _ _).trans (ih _)
theorem sends_transmit (s : State) (m : FabMsg) : Sends s (s.transmit m) := by
  unfold State.transmit
  dsimp only
  refine sends_ite (sends_emit s _) ?_
  split
  · exact (sends_emit s _).trans ((sends_setPort _ _ _).trans (sends_pump _ _ _))
  · exact sends_ite (sends_emit s _) ⟨(frame_upd_fb s _).mono (by simp), (frame_upd_fb s _).sameMembers, rfl⟩
theorem sends_send (s : State) (slot : Option Nat) (type dst : Nat) (args : List Nat) (data : List Byte) (cx : Nat)
    (step : Option Nat) (cseq : Nat) : Sends s (s.send slot type dst args data cx step cseq) :=
  sends_ite ⟨(frame_upd_fb s _).mono (by simp), (frame_upd_fb s _).sameMembers, rfl⟩ (sends_transmit s _)

-- What moves data changes

/-- The byte at an address is none of a view. -/
def State.misses (s : State) (c : Nat) (v : View) (a : Nat) : Prop := ∀ r ∈ v.parts, ∀ j, j < r.2 → a ≠ s.byteAddr c v (r.1 + j)

/-- A collective's data has moved, within some parts: of a context's memory and buffer, the destination `v` alone has changed. -/
structure Carries (l : List Part) (c : Nat) (v : View) (s t : State) : Prop where
  frame : Frame l s t
  places : Places s t
  members : SameMembers s t
  jobs : t.fb.jobs = s.fb.jobs
  elems : v.place ≠ .rb → t.ht.elems = s.ht.elems
  mem : v.place ≠ .rb → ∀ a, s.misses c v a → t.mrd a = s.mrd a

/-- The parts that moving data may touch. -/
abbrev carryParts : List Part := [.pg, .mem, .tr, .ht, .sw, .fb, .out]

section Carry
variable {l : List Part} {c : Nat} {v : View}

theorem Carries.refl (s : State) : Carries l c v s s :=
  ⟨Frame.refl s, Places.refl s, SameMembers.refl s, rfl, fun _ => rfl, fun _ _ _ => rfl⟩
theorem Carries.step {m : List Part} {s t u : State} (h : Carries l c v s t) (g : Carries m c v t u)
    (hm : ∀ p ∈ m, p ∈ l := by simp) : Carries l c v s u where
  frame := h.frame.step g.frame hm
  places := h.places.trans g.places
  members := h.members.trans g.members
  jobs := g.jobs.trans h.jobs
  elems hv := (g.elems hv).trans (h.elems hv)
  mem hv a ha := by
    refine (g.mem hv a fun r hr j hj => ?_).trans (h.mem hv a ha)
    rw [h.places.byteAddr]
    exact ha r hr j hj
theorem Carries.trans {s t u : State} (h : Carries l c v s t) (g : Carries l c v t u) : Carries l c v s u := h.step g fun _ => id
theorem carries_foldl {α : Type} {f : State → α → State} (xs : List α) (h : ∀ a ∈ xs, ∀ s, Carries l c v s (f s a)) (s : State) :
    Carries l c v s (xs.foldl f s) := by
  induction xs generalizing s with
  | nil => exact Carries.refl s
  | cons x xs ih => exact (h x (by simp) s).trans (ih (fun a ha => h a (by simp [ha])) _)
theorem carries_ite {p : Prop} [Decidable p] {s a b : State} (ha : p → Carries l c v s a) (hb : ¬p → Carries l c v s b) :
    Carries l c v s (if p then a else b) := by
  split
  next h => exact ha h
  next h => exact hb h
theorem Sends.carries {s t : State} (h : Sends s t) : Carries carryParts c v s t where
  frame := h.frame.mono (by simp)
  places := h.frame.reached.places
  members := h.members
  jobs := h.jobs
  elems _ := by rw [h.frame.ht (by simp)]
  mem _ a _ := h.frame.reached.places.mrd (h.frame.mem (by simp)) a
theorem Frame.carries {s t : State} (f : Frame [.sw] s t) : Carries carryParts c v s t where
  frame := f.mono (by simp)
  places := f.reached.places
  members := f.sameMembers
  jobs := by rw [f.fb (by simp)]
  elems _ := by rw [f.ht (by simp)]
  mem _ a _ := f.reached.places.mrd (f.mem (by simp)) a

end Carry

-- Writes to a view (R75)

theorem places_vwr (s : State) (c va : Nat) (b : Byte) : Places s (s.vwr c va b) := by
  unfold State.vwr
  split
  · refine places_ite (Places.refl s) (places_ite ?_ (frame_mwr s _ b).reached.places)
    exact ⟨rfl, fun _ _ => rfl, fun _ => rfl, fun _ => rfl, rfl, rfl⟩
  · exact Places.refl s
/-- A write at a virtual address changes no byte but the one that it translates to. -/
theorem mrd_vwr_other (s : State) (c va : Nat) (b : Byte) {a : Nat} (h : a ≠ (s.vaAddr c va).getD (2 ^ 48)) :
    (s.vwr c va b).mrd a = s.mrd a := by
  unfold State.vwr
  split
  next x hx =>
    rw [hx, Option.getD_some] at h
    split
    · rfl
    · split
      · have waits : Places s { s with tr := { s.tr with waiting :=
            s.tr.waiting ++ [⟨2 ^ 27 * (s.ctx c).aspace + va / 2 ^ 21, va % 2 ^ 21, b, s.sq.nextId⟩] } } :=
          ⟨rfl, fun _ _ => rfl, fun _ => rfl, fun _ => rfl, rfl, rfl⟩
        exact waits.mrd rfl a
      · rw [mrd_mwr, if_neg fun at_ => h at_.2]
  next => rfl
/-- One byte of a view's own. -/
def View.covers (v : View) (off n : Nat) : Prop := ∀ j, j < n → ∃ r ∈ v.parts, r.1 ≤ off + j ∧ off + j < r.1 + r.2

theorem carries_putBytes (s : State) (c : Nat) {v : View} {off : Nat} {l : List Byte} (h : v.place ≠ .rb → v.covers off l.length) :
    Carries carryParts c v s (s.putBytes c v off l) := by
  induction l generalizing s off with
  | nil => exact Carries.refl s
  | cons b l ih =>
    have next : v.place ≠ .rb → v.covers (off + 1) l.length := fun hv j hj => by
      obtain ⟨r, hr, inside⟩ := h hv (j + 1) (by simpa using hj)
      exact ⟨r, hr, by omega⟩
    refine Carries.trans ⟨?_, ?_, ?_, ?_, fun _ => ?_, fun hv a ha => ?_⟩ (ih _ next)
    · exact frame_ite ((frame_vwr s _ _ b).mono (by simp)) ((frame_mwr s _ b).mono (by simp))
    · exact places_ite (places_vwr s _ _ b) (frame_mwr s _ b).reached.places
    · exact sameMembers_ite (frame_vwr s _ _ b).sameMembers (frame_mwr s _ b).sameMembers
    · rw [(frame_ite (l := [.mem, .tr]) (frame_vwr s _ _ b) ((frame_mwr s _ b).mono (by simp))).fb (by simp)]
    · rw [(frame_ite (l := [.mem, .tr]) (frame_vwr s _ _ b) ((frame_mwr s _ b).mono (by simp))).ht (by simp)]
    · obtain ⟨r, hr, lo, hi⟩ := h hv 0 (by simp)
      have other := ha r hr (off - r.1) (by omega)
      rw [show r.1 + (off - r.1) = off by omega] at other
      split
      next virt =>
        refine mrd_vwr_other s _ _ b ?_
        unfold State.byteAddr at other
        rw [virt] at other
        exact other
      next => rw [mrd_mwr, if_neg fun at_ => other at_.2]

-- Elements of a view (R75)

theorem div_lt_cdiv {a b k : Nat} (h : a < b) (hk : 0 < k) : a / k < cdiv b k := by
  unfold cdiv
  refine (Nat.lt_iff_add_one_le.2 ?_)
  rw [← Nat.add_div_right a hk]
  exact Nat.div_le_div_right (by omega)
theorem grain_pos (g : Grain) : 0 < g.size := by
  cases g <;> decide
/-- The scale of an element lies among the view's scales. -/
theorem blk_lt {v : View} (hs : scaled v.fmt = true) {r k : Nat} (hr : r < v.rows) (hk : k < v.cols) : v.blk r k < v.scaleLen := by
  have below : ∀ {a b m n : Nat}, a < m → b < n → a * n + b < m * n := fun {a b m n} ha hb =>
    calc a * n + b < a * n + n := Nat.add_lt_add_left hb _
      _ = (a + 1) * n := (Nat.succ_mul a n).symm
      _ ≤ m * n := Nat.mul_le_mul_right n ha
  have col := div_lt_cdiv hk (grain_pos v.grain)
  unfold View.scaleLen View.blk View.blkRows View.blkCols
  rw [if_pos hs]
  by_cases square : v.grain = .square
  · rw [square] at col ⊢
    exact below (div_lt_cdiv hr (by decide)) col
  · rw [if_neg square, if_neg square]
    exact below hr col
theorem covers_scale {v : View} (hs : scaled v.fmt = true) {r k : Nat} (hr : r < v.rows) (hk : k < v.cols) :
    v.covers (v.scaleOff + v.blk r k) 1 := fun j hj => by
  have inside := blk_lt hs hr hk
  exact ⟨(v.scaleOff, v.scaleLen), by simp [View.parts, hs], by omega, by dsimp only; omega⟩
theorem mem_parts_row {v : View} {r : Nat} (hr : r < v.rows) : (r * v.stride, rowBytes v.fmt v.cols) ∈ v.parts :=
  List.mem_append_left _ (List.mem_map.2 ⟨r, List.mem_range.2 hr, rfl⟩)
theorem fmtBits_pos (f : Fmt) : 0 < fmtBits f := by
  cases f <;> decide
/-- The byte, or the two of a code of 16 bits, that hold an element. -/
theorem covers_code {v : View} {r k n : Nat} (hr : r < v.rows) (hk : k < v.cols) (hn : n = 1 ∨ n = 2 ∧ fmtBits v.fmt = 16) :
    v.covers (r * v.stride + k * fmtBits v.fmt / 8) n := fun j hj => by
  refine ⟨_, mem_parts_row hr, by dsimp only; omega, ?_⟩
  have inside : k * fmtBits v.fmt / 8 + j < rowBytes v.fmt v.cols := by
    rcases hn with rfl | ⟨rfl, wide⟩
    · have first := div_lt_cdiv (Nat.mul_lt_mul_of_pos_right hk (fmtBits_pos v.fmt)) (show 0 < 8 by decide)
      unfold rowBytes
      omega
    · unfold rowBytes cdiv
      rw [wide]
      omega
  dsimp only
  omega

theorem carries_putLine (s : State) (c : Nat) {v : View} (hv : v.place = .rb) (b st l : Nat) (t : RbTag) (vs : List W16) :
    Carries carryParts c v s (s.putLine b st l t vs) := by
  have written : ∀ (d va : Nat) (l : List Byte) (u : State), Places u (u.vwrN d va l) := fun d va l => by
    induction l generalizing va with
    | nil => exact fun u => Places.refl u
    | cons y l ih => exact fun u => (places_vwr u d va y).trans (ih _ _)
  have frame : Frame [.mem, .tr, .ht] s (s.putLine b st l t vs) ∧ Places s (s.putLine b st l t vs) := by
    unfold State.putLine
    dsimp only
    split
    · exact ⟨(frame_upd_ht s _).mono (by simp), (frame_upd_ht s _).reached.places⟩
    · exact ⟨((frame_vwrN s _ _ _).mono (by simp)).step (frame_vwrN _ _ _ _), (written _ _ _ s).trans (written _ _ _ _)⟩
  exact ⟨frame.1.mono (by simp), frame.2, frame.1.sameMembers, by rw [frame.1.fb (by simp)], fun not => absurd hv not,
    fun not => absurd hv not⟩
theorem carries_putCode (s : State) (c : Nat) {v : View} {r k : Nat} (h : v.place ≠ .rb → r < v.rows ∧ k < v.cols) (code : Nat) :
    Carries carryParts c v s (s.putCode c v r k code) := by
  by_cases hv : v.place = .rb
  · unfold State.putCode
    rw [hv]
    exact carries_putLine s c hv _ _ _ _ _
  · obtain ⟨hr, hk⟩ := h hv
    have code16 : fmtBits v.fmt = 16 → ∀ l : List Byte, l.length = 2 →
        Carries carryParts c v s (s.putBytes c v (r * v.stride + k * fmtBits v.fmt / 8) l) :=
      fun wide l hl => carries_putBytes s c fun _ => covers_code hr hk (.inr ⟨hl, wide⟩)
    have code8 : ∀ b : Byte, Carries carryParts c v s (s.putBytes c v (r * v.stride + k * fmtBits v.fmt / 8) [b]) :=
      fun b => carries_putBytes s c fun _ => covers_code hr hk (.inl rfl)
    unfold State.putCode
    simp only
    exact carries_ite (fun wide => code16 wide _ rfl) fun _ => code8 _

-- Elements of a collective (R295, R296)

/-- Elements of a view that a collective's data of an operation fills, and where they are bytes its row. -/
def View.takes (v : View) (op hi : Nat) : Prop :=
  if op = 5 then v.place ≠ .rb ∧ 0 < v.rows ∧ hi ≤ rowBytes v.fmt v.cols else hi ≤ v.size

theorem carries_putColl (s : State) (c : Nat) {v : View} {op lo : Nat} {b : List Byte} {n : Nat} (len : b.length ≤ collWidth op * n)
    (h : v.takes op (lo + n)) : Carries carryParts c v s (s.putColl c v op lo b) := by
  unfold State.putColl
  unfold View.takes at h
  by_cases flags : op = 5
  · subst flags
    rw [if_pos rfl] at h ⊢
    have width : collWidth 5 = 1 := by decide
    rw [width] at len
    refine carries_putBytes s c fun _ j hj => ⟨_, mem_parts_row h.2.1, ?_⟩
    dsimp only
    omega
  · rw [if_neg flags] at h ⊢
    have width : 0 < collWidth op := by
      unfold collWidth
      split
      · decide
      · split <;> decide
    refine carries_foldl _ (fun t ht u => ?_) s
    have inside : lo + t < v.rows * v.cols := by
      have few : b.length / collWidth op ≤ n := Nat.div_le_of_le_mul len
      have this := List.mem_range.1 ht
      unfold View.size at h
      omega
    have cols : 0 < v.cols := Nat.pos_of_ne_zero fun none => by simp [none] at inside
    have hr : (lo + t) / v.cols < v.rows := (Nat.div_lt_iff_lt_mul cols).2 inside
    have hk : (lo + t) % v.cols < v.cols := Nat.mod_lt _ cols
    have put := carries_putCode (v := v) u c (fun _ => ⟨hr, hk⟩) (collCode op (leAt b (collWidth op * t) 2))
    exact carries_ite (fun scale => put.trans (carries_putBytes _ c fun _ => covers_scale scale.2.1 hr hk)) fun _ => put

end Sys2Proof.Machine

/-! A collective in flight (R294 to R296): its data goes up and down the tree and into its destination, and its record keeps to what was
issued. -/

namespace Sys2Proof.Machine

-- The record of a collective

/-- A collective's record `q` has gone on from `p`: parts and nodes have come, no node with more bytes than its chunk. -/
structure CollF.Follows (n : Nat) (p q : CollF) : Prop where
  same : q = { p with parts := q.parts, nodes := q.nodes }
  fits : ∀ x ∈ q.nodes, x.2.2.2.length ≤ collWidth p.op * ((p.span n x.1).2 - (p.span n x.1).1)

section Record
variable {n : Nat} {p q : CollF}

theorem CollF.Follows.op (h : p.Follows n q) : q.op = p.op := by rw [h.same]
theorem CollF.Follows.b (h : p.Follows n q) : q.b = p.b := by rw [h.same]
theorem CollF.Follows.a (h : p.Follows n q) : q.a = p.a := by rw [h.same]
theorem CollF.Follows.count (h : p.Follows n q) : q.count = p.count := by rw [h.same]
theorem CollF.Follows.span (h : p.Follows n q) (c : Nat) : q.span n c = p.span n c := by
  unfold CollF.span
  rw [h.op, h.b, h.count]
theorem CollF.Follows.withParts (h : p.Follows n q) (l : List (Nat × List Byte)) : p.Follows n { q with parts := l } :=
  ⟨by rw [h.same], h.fits⟩
theorem CollF.Follows.withNodes (h : p.Follows n q) {l : List (Nat × Nat × Nat × List Byte)}
    (hl : ∀ x ∈ l, x.2.2.2.length ≤ collWidth p.op * ((p.span n x.1).2 - (p.span n x.1).1)) : p.Follows n { q with nodes := l } :=
  ⟨by rw [h.same], hl⟩
/-- A node kept until its sibling comes. -/
theorem CollF.Follows.addNode (h : p.Follows n q) {c l k : Nat} {b : List Byte}
    (hb : b.length ≤ collWidth p.op * ((p.span n c).2 - (p.span n c).1)) : p.Follows n { q with nodes := q.nodes ++ [(c, l, k, b)] } :=
  h.withNodes fun x hx => by
    rcases List.mem_append.1 hx with old | new
    · exact h.fits x old
    · rw [List.mem_singleton.1 new]
      exact hb
theorem span_le (p : CollF) (n c : Nat) : (p.span n c).1 ≤ (p.span n c).2 := by
  have steps : ∀ m, c * m ≤ (c + 1) * m := fun m => Nat.mul_le_mul_right m (Nat.le_succ c)
  unfold CollF.span chunkSpan
  split
  · exact steps _
  · split
    · exact Nat.zero_le _
    · exact Nat.div_le_div_right (steps _)
/-- A combine has no more bytes than its first child. -/
theorem length_collCombine (d : Draw) (p : CollF) (lo cn : Nat) (x y : List Byte) : (collCombine d p lo cn x y).1.length ≤ x.length := by
  unfold collCombine
  split
  · simp
  · simp only [List.length_flatMap, length_leBytes, List.map_const', List.sum_replicate, List.length_map, List.length_range, smul_eq_mul]
    omega

end Record

-- Up and down the tree (R296)

/-- A collective's data has moved, and its record has gone on. -/
structure Goes (n c : Nat) (p : CollF) (s : State) (y : State × CollF) : Prop where
  carries : Carries carryParts c p.b s y.1
  follows : p.Follows n y.2

theorem Goes.after {n c : Nat} {p : CollF} {s u : State} {y : State × CollF} (g : Goes n c p u y) (h : Carries carryParts c p.b s u) :
    Goes n c p s y := ⟨h.trans g.carries, g.follows⟩
theorem goes_foldl {α : Type} {n c : Nat} {p : CollF} {f : State × CollF → α → State × CollF} (xs : List α)
    (h : ∀ a ∈ xs, ∀ y, p.Follows n y.2 → Goes n c p y.1 (f y a)) {s : State} {y : State × CollF} (hy : Goes n c p s y) :
    Goes n c p s (xs.foldl f y) := by
  induction xs generalizing y with
  | nil => exact hy
  | cons x xs ih => exact ih (fun a ha => h a (by simp [ha])) ((h x (by simp) y hy.follows).after hy.carries)

theorem carries_sendNode (s : State) (w : CollAt) (q : CollF) (to_ chunk level node : Nat) (b : List Byte) {c : Nat} {v : View} :
    Carries carryParts c v s (s.sendNode w q to_ chunk level node b) := (sends_send s _ _ _ _ _ _ _ _).carries

section Tree
variable {w : CollAt} {p q : CollF} {c : Nat} {b : List Byte}
  (takes : ∀ k, k < w.n → p.b.takes p.op (p.span w.n k).2) (hc : c < w.n)
include takes hc

/-- A chunk's final value lands in the destination. -/
theorem carries_putColl_chunk (s : State) (h : p.Follows w.n q)
    (hb : b.length ≤ collWidth p.op * ((p.span w.n c).2 - (p.span w.n c).1)) :
    Carries carryParts w.f.ctx p.b s (s.putColl w.f.ctx q.b q.op (q.span w.n c).1 b) := by
  rw [h.b, h.op, h.span]
  refine carries_putColl s w.f.ctx hb ?_
  rw [Nat.add_sub_cancel' (span_le p w.n c)]
  exact takes c hc
theorem goes_spread (l k : Nat) (s : State) (h : p.Follows w.n q)
    (hb : b.length ≤ collWidth p.op * ((p.span w.n c).2 - (p.span w.n c).1)) : Goes w.n w.f.ctx p s (s.spread w q c b l k) := by
  induction l generalizing s q k with
  | zero => exact ⟨carries_putColl_chunk takes hc s h hb, h.withParts _⟩
  | succ l ih =>
    unfold State.spread
    refine goes_foldl _ (fun j _ y hy => ?_) ⟨Carries.refl s, h⟩
    dsimp only
    split
    · exact ih j y.1 hy
    · exact ⟨carries_sendNode _ _ _ _ _ _ _ _, hy⟩
theorem goes_climb (u l k : Nat) (s : State) (h : p.Follows w.n q)
    (hb : b.length ≤ collWidth p.op * ((p.span w.n c).2 - (p.span w.n c).1)) : Goes w.n w.f.ctx p s (s.climb w q c u l k b) := by
  induction u generalizing s q l k b with
  | zero =>
    unfold State.climb
    split
    · exact ⟨carries_putColl_chunk takes hc s h hb, h.withParts _⟩
    · exact goes_spread takes hc l k s h hb
  | succ u ih =>
    unfold State.climb
    dsimp only
    split
    · exact ⟨carries_sendNode _ _ _ _ _ _ _ _, h.addNode (Nat.zero_le _)⟩
    · split
      · exact ih _ _ s h hb
      · split
        · exact ⟨Carries.refl s, h.addNode hb⟩
        next x hx =>
          have there := List.mem_of_find?_eq_some hx
          have chunk : x.1 = c := by
            have found := List.find?_some hx
            simp only [Bool.and_eq_true, beq_iff_eq] at found
            exact found.1.1
          have other := h.fits x there
          rw [chunk] at other
          have first : (if k % 2 = 0 then (b, x.2.2.2) else (x.2.2.2, b)).1.length ≤
              collWidth p.op * ((p.span w.n c).2 - (p.span w.n c).1) := by
            split
            · exact hb
            · exact other
          refine (ih _ _ _ (h.withNodes fun z hz => h.fits z (List.mem_of_mem_erase hz))
            ((length_collCombine _ _ _ _ _ _).trans first)).after ?_
          exact (frame_tallyCtx s _ _ _ _).carries

end Tree

-- In flight

/-- A collective issued as flight `f` stands behind the flights `l`, with a record that has gone on from `p`, or has moved its data. -/
def InFlight (l : List Flight) (f : Flight) (p : CollF) (n : Nat) (s : State) : Prop :=
  ∃ B, s.sq.flights = l ++ [{ f with body := B }] ∧ (B = .plain ∨ ∃ q, B = .coll q ∧ p.Follows n q)

/-- A collective in flight has gone on: its data has moved, and its sequencer has at most met the mark of an evaluation. -/
structure Moves (l : List Flight) (f : Flight) (p : CollF) (n : Nat) (s t : State) : Prop where
  carries : Carries (.sq :: carryParts) f.ctx p.b s t
  own : t.seq f.st f.sq = { s.seq f.st f.sq with evalInvalid := (t.seq f.st f.sq).evalInvalid }
  others : ∀ a b, 64 * a + b ≠ 64 * f.st + f.sq → t.seq a b = s.seq a b
  flight : InFlight l f p n t

section Flight
variable {l : List Flight} {f : Flight} {p : CollF} {n : Nat}

theorem Moves.refl {s : State} (h : InFlight l f p n s) : Moves l f p n s s := ⟨Carries.refl s, rfl, fun _ _ _ => rfl, h⟩
theorem Moves.trans {s t u : State} (h : Moves l f p n s t) (g : Moves l f p n t u) : Moves l f p n s u where
  carries := h.carries.trans g.carries
  own := by rw [g.own, h.own]
  others a b other := (g.others a b other).trans (h.others a b other)
  flight := g.flight
theorem Carries.moves {s t : State} (h : Carries carryParts f.ctx p.b s t) (there : InFlight l f p n s) : Moves l f p n s t where
  carries := (Carries.refl s).step h
  own := by rw [h.frame.seq (by simp)]
  others a b _ := h.frame.seq (by simp) a b
  flight := by
    obtain ⟨B, flights, body⟩ := there
    exact ⟨B, by rw [h.frame.sq (by simp), flights], body⟩
/-- What changes flights or the next number alone. -/
theorem moves_upd_sq {s : State} {x : SeqSt} (seqs : x.seqs = s.sq.seqs) (there : InFlight l f p n { s with sq := x }) :
    Moves l f p n s { s with sq := x } := by
  have seq : ∀ a b, ({ s with sq := x } : State).seq a b = s.seq a b := fun a b => congrArg (tabGet (fun _ => ({} : Seq)) · _) seqs
  have frame := frame_upd_sq s x
  refine ⟨⟨frame.mono (by simp), ⟨rfl, fun _ _ => rfl, fun _ => rfl, fun _ => rfl, rfl, rfl⟩, frame.sameMembers, rfl, fun _ => rfl,
    fun _ _ _ => rfl⟩, ?_, fun a b _ => seq a b, there⟩
  rw [seq]
theorem moves_setNext {s : State} (k : Nat) (there : InFlight l f p n s) : Moves l f p n s (s.setNext k) := moves_upd_sq rfl there
theorem moves_taintSeq {s : State} (there : InFlight l f p n s) : Moves l f p n s (s.taintSeq f.st f.sq f.ctx) := by
  have marks := marks_taintSeq s f.st f.sq f.ctx
  have frame := frame_taintSeq s f.st f.sq f.ctx
  have places : Places s (s.taintSeq f.st f.sq f.ctx) := frame.reached.places
  refine ⟨⟨frame.mono (by simp), places, frame.sameMembers, by rw [frame.fb (by simp)], fun _ => by rw [frame.ht (by simp)],
    fun _ a _ => places.mrd (frame.mem (by simp)) a⟩, ?_, marks.others, ?_⟩
  · unfold State.taintSeq
    split
    · rfl
    · split
      · unfold State.modSeq
        rw [State.seq_setSeq_same]
      · rfl
  · obtain ⟨B, flights, body⟩ := there
    exact ⟨B, by rw [marks.sq, flights], body⟩

theorem map_last {g e : Flight} (ids : ∀ h ∈ l, h.id ≠ g.id) (same : e.id = g.id) :
    (l ++ [e]).map (fun h => if h.id = g.id then g else h) = l ++ [g] := by
  have before : l.map (fun h => if h.id = g.id then g else h) = l :=
    (List.map_congr_left fun h hh => if_neg (ids h hh)).trans (List.map_id' l)
  rw [List.map_append, before, List.map_singleton, if_pos same]
/-- A collective's record is kept in its flight. -/
theorem moves_putFlight {s : State} {B : Body} (ids : ∀ h ∈ l, h.id ≠ f.id) (there : InFlight l f p n s)
    (body : B = .plain ∨ ∃ q, B = .coll q ∧ p.Follows n q) : Moves l f p n s (s.putFlight { f with body := B }) := by
  obtain ⟨B₀, flights, -⟩ := there
  refine moves_upd_sq rfl ⟨B, ?_, body⟩
  show s.sq.flights.map _ = _
  rw [flights]
  exact map_last ids rfl
theorem moves_keepColl {s : State} {w : CollAt} {B : Body} {y : State × CollF} (ids : ∀ h ∈ l, h.id ≠ f.id)
    (there : InFlight l f p n s) (hw : w.f = { f with body := B }) (goes : Goes n f.ctx p s y) :
    Moves l f p n s (State.keepColl w y) := by
  have moved := goes.carries.moves there
  unfold State.keepColl
  rw [hw]
  refine moved.trans (moves_putFlight ids moved.flight ?_)
  split
  · exact .inl rfl
  · exact .inr ⟨_, rfl, goes.follows⟩

end Flight

-- Data that comes (R294, R296)

theorem collData_cases {w : CollAt} {p q : CollF} (takes : ∀ k, k < w.n → p.b.takes p.op (p.span w.n k).2) (s : State)
    (h : p.Follows w.n q) (src : Nat) (m : CMsg) :
    (s.collData w q src m).2 = false ∨ ∃ y, Goes w.n w.f.ctx p s y ∧ s.collData w q src m = (State.keepColl w y, true) := by
  unfold State.collData
  extract_lets from_ sized fresh l
  split
  · exact .inl rfl
  next agrees =>
    obtain ⟨chunk, len⟩ : m.chunk < w.n ∧ m.bytes.length = collWidth q.op * ((q.span w.n m.chunk).2 - (q.span w.n m.chunk).1) := by
      simpa [sized] using fun h => agrees (.inr (.inr h))
    rw [h.op, h.span] at len
    have put := carries_putColl_chunk takes chunk s h len.le
    have down := fun l => goes_spread takes chunk l m.node s h len.le
    have up := goes_climb takes chunk (topLevel w.n - m.level) m.level m.node s h len.le
    split
    · split
      · exact .inl rfl
      · exact .inr ⟨_, ⟨put, h.withParts _⟩, rfl⟩
    · split
      · split
        · exact .inl rfl
        · exact .inr ⟨_, down l, rfl⟩
      · split
        · exact .inl rfl
        · exact .inr ⟨_, up, rfl⟩

theorem findSome?_behind {α β : Type} {g : α → Option β} {l : List α} {e : α} (h : ∀ x ∈ l, g x = none) :
    (l ++ [e]).findSome? g = g e := by
  rw [List.findSome?_append, List.findSome?_eq_none_iff.2 h, Option.none_or, List.findSome?_singleton]
/-- The collective that a number names is the one behind flights that it does not name. -/
theorem collOf_inFlight {l : List Flight} {f : Flight} {p : CollF} {n : Nat} {s : State}
    (fresh : ∀ g ∈ l, ∀ q, g.body = .coll q → ¬(q.slot = p.slot ∧ q.step = p.step ∧ q.cseq = p.cseq)) (there : InFlight l f p n s) :
    s.collOf p.slot p.step p.cseq = none ∨
      ∃ q, s.collOf p.slot p.step p.cseq = some ({ f with body := .coll q }, q) ∧ p.Follows n q := by
  obtain ⟨B, flights, body⟩ := there
  unfold State.collOf
  rw [flights, findSome?_behind fun g hg => by
    split
    next q hq => exact if_neg (fresh g hg q hq)
    next => rfl]
  rcases body with rfl | ⟨q, rfl, hq⟩
  · exact .inl rfl
  · refine .inr ⟨q, if_pos ?_, hq⟩
    rw [hq.same]
    exact ⟨rfl, rfl, rfl⟩
theorem carries_colLog (s : State) (a b d e f g h : Nat) {c : Nat} {v : View} : Carries carryParts c v s (s.colLog a b d e f g h) := by
  have frame := frame_colLog s a b d e f g h
  exact ⟨frame.mono (by simp), frame.reached.places, fun _ _ => rfl, rfl, fun _ => rfl,
    fun _ a _ => frame.reached.places.mrd (frame.mem (by simp)) a⟩

section Take
variable {l : List Flight} {f : Flight} {p : CollF} {n : Nat} {s : State} (ids : ∀ h ∈ l, h.id ≠ f.id)
  (takes : ∀ k, k < n → p.b.takes p.op (p.span n k).2) (members : s.memberCount p.slot = n)
  (fresh : ∀ g ∈ l, ∀ q, g.body = .coll q → ¬(q.slot = p.slot ∧ q.step = p.step ∧ q.cseq = p.cseq)) (there : InFlight l f p n s)
include ids takes members fresh there

/-- A message of the collective's own number goes into it, or taints its step. -/
theorem moves_takeData {m : CMsg} (slot : m.slot = p.slot) (step : m.step = p.step) (cseq : m.cseq = p.cseq) :
    Moves l f p n s (s.takeData m) := by
  unfold State.takeData
  rw [slot, step, cseq]
  rcases collOf_inFlight fresh there with none | ⟨q, found, hq⟩
  · rw [none]
    exact ((carries_colLog s _ _ _ _ _ _ _).step (frame_taint _ _).carries).moves there
  · rw [found]
    dsimp only
    have next := moves_setNext f.id there
    have at_ : (s.collAt { f with body := .coll q } q).n = n := by
      rw [← members, ← show q.slot = p.slot by rw [hq.same]]
      rfl
    have cases_ := collData_cases (w := s.collAt { f with body := .coll q } q) (p := p) (q := q) (by rwa [at_]) (s.setNext f.id)
      (by rwa [at_]) m.src m
    rw [at_] at cases_
    rcases cases_ with refused | ⟨y, goes, eq⟩
    · rw [if_neg (by rw [refused]; decide)]
      have logged := (carries_colLog s 4 p.slot 0 m.src f.ctx p.cseq
        ((s.fb.lid.getD 0) + 4096 * m.src + 2 ^ 24 * (s.kd.rink % 256)) (c := f.ctx) (v := p.b)).moves there
      exact logged.trans (moves_taintSeq logged.flight)
    · rw [eq, if_pos rfl]
      have kept := moves_keepColl (w := s.collAt { f with body := .coll q } q) ids next.flight rfl goes
      exact (next.trans kept).trans (moves_setNext _ kept.flight)

end Take

/-- The messages of the collective's number that came before it. -/
theorem moves_takeAll {l : List Flight} {f : Flight} {p : CollF} {n : Nat} (ids : ∀ h ∈ l, h.id ≠ f.id)
    (takes : ∀ k, k < n → p.b.takes p.op (p.span n k).2)
    (fresh : ∀ g ∈ l, ∀ q, g.body = .coll q → ¬(q.slot = p.slot ∧ q.step = p.step ∧ q.cseq = p.cseq)) (ms : List CMsg)
    (own : ∀ m ∈ ms, m.slot = p.slot ∧ m.step = p.step ∧ m.cseq = p.cseq) {s : State} (members : s.memberCount p.slot = n)
    (there : InFlight l f p n s) : Moves l f p n s (ms.foldl (fun s m => s.takeData m) s) := by
  induction ms generalizing s with
  | nil => exact Moves.refl there
  | cons m ms ih =>
    obtain ⟨slot, step, cseq⟩ := own m (by simp)
    have took := moves_takeData ids takes members fresh there slot step cseq
    refine took.trans (ih (fun k hk => own k (by simp [hk])) ?_ took.flight)
    rw [took.carries.members.memberCount, members]

-- The start (R295, R296)

theorem length_collBytes (s : State) (c : Nat) (v : View) (op lo hi : Nat) : (s.collBytes c v op lo hi).length = collWidth op * (hi - lo) := by
  have one : ∀ t, (s.collElem c v op t).length = collWidth op := fun t => by
    unfold State.collElem collWidth
    split
    · rfl
    · cases collReduces op <;> rfl
  unfold State.collBytes
  simp only [List.length_flatMap, one, List.map_const', List.sum_replicate, List.length_range, smul_eq_mul]
  exact Nat.mul_comm _ _

/-- A collective's views fit one another, as its checks at issue have it (R295). -/
structure CollF.Sound (p : CollF) (n me : Nat) (root : Prop) : Prop where
  takes : ∀ k, k < n → p.b.takes p.op (p.span n k).2
  me : me < n
  rows : p.op = 3 → p.a.cols = p.b.cols
  whole : p.op = 4 → root → p.a.size = p.b.size

theorem startColl_cases {w : CollAt} {p : CollF} {s : State} (sound : p.Sound w.n w.me (some p.peer = s.fb.lid)) (empty : p.nodes = []) :
    (∃ y, Goes w.n w.f.ctx p s y ∧ s.startColl w p none = State.keepColl w y) ∨
      ∃ type args data, s.startColl w p none =
        (s.putFlight { w.f with body := .coll p }).send (some p.slot) type p.peer args data w.f.ctx (some p.step) p.cseq := by
  obtain ⟨takes, me, rows, whole⟩ := sound
  have fits : p.Follows w.n p := ⟨rfl, by rw [empty]; simp⟩
  have start : Goes w.n w.f.ctx p s (s, p) := ⟨Carries.refl s, fits⟩
  unfold State.startColl
  extract_lets c read top sp lo rowsSent b told
  have len : ∀ lo hi, (read lo hi).length = collWidth p.op * (hi - lo) := length_collBytes s c p.a p.op
  split
  next op =>
    refine .inl ⟨_, ?_, rfl⟩
    split
    · refine goes_spread takes me top 0 s fits ?_
      rw [len, Nat.add_sub_cancel_left]
    · exact start
  next op =>
    refine .inl ⟨_, goes_foldl _ (fun q hq y hy => ?_) start, rfl⟩
    dsimp only
    split
    · have row := takes q (List.mem_range.1 hq)
      unfold CollF.span at row
      rw [op, if_pos rfl, Nat.succ_mul] at row
      have put : Carries carryParts c p.b y.1 (y.1.putColl c p.b 3 (q * p.b.cols) (read (q * p.a.cols) ((q + 1) * p.a.cols))) :=
        carries_putColl y.1 c (by rw [len, op, rows op, Nat.succ_mul, Nat.add_sub_cancel_left]) row
      exact ⟨put, hy.withParts _⟩
    · exact ⟨carries_sendNode _ _ _ _ _ _ _ _, hy⟩
  next op =>
    split
    next root =>
      refine .inl ⟨_, ⟨?_, fits.withParts _⟩, rfl⟩
      have sent : Carries carryParts c p.b s told :=
        carries_foldl _ (fun q _ u => carries_ite (fun _ => Carries.refl u) fun _ => carries_sendNode _ _ _ _ _ _ _ _) s
      have room : p.b.takes 4 (0 + p.b.size) := by simp [View.takes]
      have put : Carries carryParts c p.b told (told.putColl c p.b 4 0 b) :=
        carries_putColl told c (by rw [len, op, Nat.sub_zero, whole op root]) room
      exact sent.trans put
    next => exact .inl ⟨_, start, rfl⟩
  next => exact .inr ⟨_, _, _, rfl⟩
  next => exact .inr ⟨_, _, _, rfl⟩
  next =>
    refine .inl ⟨_, goes_foldl _ (fun q hq y hy => ?_) start, rfl⟩
    split
    · exact goes_climb takes (List.mem_range.1 hq) top 0 w.me y.1 hy (len _ _).le
    · exact ⟨Carries.refl y.1, hy⟩

end Sys2Proof.Machine

/-! A collective that enters the engine (R94 to R96, R294, R295): what it meets before it is in flight, and what it leaves. -/

namespace Sys2Proof.Machine

-- Before it is in flight

/-- No step has ended, begun or been aborted. -/
def SameSteps (s t : State) : Prop := ∀ b, (t.job b).step = (s.job b).step ∧ (t.job b).abortSeen = (s.job b).abortSeen

theorem sameSteps_taint (s : State) (b : Nat) : SameSteps s (s.taint b) := fun d => by
  unfold State.taint State.modJob
  rw [State.job_setJob]
  split
  next same =>
    rw [same]
    dsimp only
    split <;> exact ⟨rfl, rfl⟩
  next => exact ⟨rfl, rfl⟩

/-- What an instruction may meet between its issue and its unit's queue: slips, and accesses that nothing keeps from their data. No byte
of memory and no element changes. -/
structure Prepares (x : Src) (s t : State) : Prop where
  frame : Frame (reaching [.pg, .sq, .sp, .ht, .sw, .out, .free]) s t
  marks : Marks x.st x.sq s t
  places : Places s t
  members : SameMembers s t
  elems : t.ht.elems = s.ht.elems
  steps : SameSteps s t

section Prepare
variable {x : Src}

theorem Prepares.refl (s : State) : Prepares x s s :=
  ⟨Frame.refl s, Marks.refl s, Places.refl s, SameMembers.refl s, rfl, fun _ => ⟨rfl, rfl⟩⟩
theorem Prepares.trans {a b c : State} (h : Prepares x a b) (g : Prepares x b c) : Prepares x a c where
  frame := h.frame.trans g.frame
  marks := h.marks.trans g.marks
  places := h.places.trans g.places
  members := h.members.trans g.members
  elems := g.elems.trans h.elems
  steps b := ⟨(g.steps b).1.trans (h.steps b).1, (g.steps b).2.trans (h.steps b).2⟩
theorem prepares_foldl {α : Type} {f : State → α → State} (h : ∀ s a, Prepares x s (f s a)) (xs : List α) (s : State) :
    Prepares x s (xs.foldl f s) := by
  induction xs generalizing s with
  | nil => exact Prepares.refl s
  | cons y ys ih => exact (h s y).trans (ih _)
theorem prepares_ite {p : Prop} [Decidable p] {s a b : State} (ha : Prepares x s a) (hb : Prepares x s b) :
    Prepares x s (if p then a else b) := by
  split
  · exact ha
  · exact hb
/-- What changes pages, but no members' word, and draws free values. -/
theorem Frame.prepares {s t : State} (f : Frame [.pg, .out, .free] s t) (members : SameMembers s t) : Prepares x s t where
  frame := f.mono (by simp)
  marks := f.marks
  places := f.reached.places
  members := members
  elems := by rw [f.ht (by simp)]
  steps b := by
    rw [f.job (by simp)]
    exact ⟨rfl, rfl⟩
theorem prepares_bump (s : State) (d n : Nat) {r : Nat} (h : r % 32 ≠ 12) : Prepares x s (s.bump d r n) :=
  ((frame_bump s d r n).mono (by simp)).prepares (sameMembers_wr s d _ h)
theorem prepares_raise (s : State) (d b : Nat) {p : Nat} (h : p % 16 = 0) : Prepares x s (s.raise d p b) :=
  ((frame_raise s d p b).mono (by simp)).prepares (sameMembers_raise s d b h)
theorem prepares_countU (s : State) (d p n : Nat) : Prepares x s (s.countU d p n) := by
  refine ((frame_countU s d p n).mono (by simp)).prepares ?_
  have header : ∀ (u : State) q v, SameMembers u (u.setHdr d q v) := fun _ _ _ _ _ => rfl
  unfold State.countU
  exact sameMembers_ite ((header s p _).trans (sameMembers_foldl (fun u q => header u q _) _ _)) (header s p _)
theorem prepares_taint (s : State) (b : Nat) : Prepares x s (s.taint b) where
  frame := (frame_taint s b).mono (by simp)
  marks := (frame_taint s b).marks
  places := (frame_taint s b).reached.places
  members := (frame_taint s b).sameMembers
  elems := by rw [(frame_taint s b).ht (by simp)]
  steps := sameSteps_taint s b
theorem prepares_modSeq (s : State) {f : Seq → Seq}
    (h : ∀ q, f q = { q with slips := (f q).slips, skips := (f q).skips, evalInvalid := (f q).evalInvalid }) :
    Prepares x s (s.modSeq x.st x.sq f) where
  frame := (frame_setSeq s _ _ _).mono (by simp)
  marks := marks_setSeq (h _)
  places := (frame_setSeq s _ _ _).reached.places
  members := (frame_setSeq s _ _ _).sameMembers
  elems := rfl
  steps _ := ⟨rfl, rfl⟩
theorem prepares_slip (s : State) (code epoch line : Nat) : Prepares x s (s.slip x code epoch line) := by
  have logged : ∀ d, Prepares x s (s.seqLog x code d) := fun d =>
    ((frame_seqLog s x code d).mono (by simp)).prepares fun _ _ => rfl
  have tainted : ∀ u : State, Prepares x u (u.taintSeq x.st x.sq x.ctx) := fun u =>
    prepares_ite (prepares_taint u _) (prepares_ite (prepares_modSeq u fun _ => rfl) (Prepares.refl u))
  unfold State.slip
  dsimp only
  refine Prepares.trans (Prepares.trans ?_ (prepares_modSeq _ fun _ => rfl)) (tainted _)
  exact ((logged _).trans (prepares_bump _ _ _ (by decide))).trans (prepares_raise _ _ _ (by decide))
theorem prepares_readLines (s : State) (ls : List Nat) : Prepares x s (s.readLines x ls) :=
  prepares_foldl (fun u _ => prepares_ite (prepares_slip u _ _ _) (Prepares.refl u)) ls s
theorem prepares_setTag (s : State) (st l : Nat) (v : Tag) : Prepares x s (s.setTag st l v) where
  frame := (frame_setTag s st l v).mono (by simp)
  marks := (frame_setTag s st l v).marks
  places := places_setTag s st l v
  members := (frame_setTag s st l v).sameMembers
  elems := rfl
  steps _ := ⟨rfl, rfl⟩
theorem prepares_claimLines (s : State) (ls : List Nat) : Prepares x s (s.claimLines x ls) :=
  prepares_foldl (fun u _ => (prepares_ite (prepares_slip u _ _ _) (Prepares.refl u)).trans (prepares_setTag _ _ _ _)) ls s

-- Accesses

theorem prepares_reachAs (s : State) (st c : Nat) (rs : List (Nat × Nat)) (write chain : Bool) (cls : Nat) (busy : List Nat) :
    Prepares x s (s.reachAs st c rs write chain cls busy) where
  frame := (reached_reachAs s st c rs write chain cls busy).frame.mono (by simp [reachParts])
  marks := (reached_reachAs s st c rs write chain cls busy).frame.marks (by simp [reachParts])
  places := places_reachAs s st c rs write chain cls busy
  members := (reached_reachAs s st c rs write chain cls busy).frame.sameMembers (by simp [reachParts])
  elems := by rw [(reached_reachAs s st c rs write chain cls busy).frame.ht (by simp [reachParts])]
  steps b := by
    rw [(reached_reachAs s st c rs write chain cls busy).frame.job (by simp [reachParts])]
    exact ⟨rfl, rfl⟩
theorem foldl_keeps {α β : Type} {f : State → α → State} {g : State → β} (h : ∀ s a, g (f s a) = g s) (xs : List α) (s : State) :
    g (xs.foldl f s) = g s := by
  induction xs generalizing s with
  | nil => rfl
  | cons x xs ih => exact (ih _).trans (h s x)
theorem elems_renew (s : State) (c : Nat) (rs : List (Nat × Nat)) : (s.renew c rs).ht.elems = s.ht.elems := by
  unfold State.renew
  extract_lets whole _ u
  have same : u.ht = s.ht := by
    unfold u
    split <;> rfl
  split
  · rw [same]
  · refine (foldl_keeps (g := fun v : State => v.ht.elems) (fun v l => ?_) _ u).trans (by rw [same])
    dsimp only
    split
    · split <;> rfl
    · rfl
theorem prepares_renew (s : State) (c : Nat) (rs : List (Nat × Nat)) : Prepares x s (s.renew c rs) where
  frame := (frame_renew s c rs).mono (by simp [reachParts])
  marks := (frame_renew s c rs).marks
  places := places_renew s c rs
  members := (frame_renew s c rs).sameMembers
  elems := elems_renew s c rs
  steps b := by
    rw [(frame_renew s c rs).job (by simp)]
    exact ⟨rfl, rfl⟩
theorem prepares_renewSpd (s : State) (c : Nat) (vs : List View) : Prepares x s (s.renewSpd c vs) := by
  have frame : Frame [.tr] s (s.renewSpd c vs) := frame_ite (frame_upd_tr s _) (Frame.refl s)
  exact ⟨frame.mono (by simp [reachParts]), frame.marks, places_renewSpd s c vs, frame.sameMembers, by rw [frame.ht (by simp)], fun b => by
    rw [frame.job (by simp)]
    exact ⟨rfl, rfl⟩⟩
theorem prepares_spillReach (s : State) (ctx b : Nat) (write : Bool) (st l : Nat) :
    Prepares x s (s.spillReach ctx b write st l).1 := by
  have logged : ∀ (u : State) d, Prepares x u (u.hthLog st 4 ctx b 0 0 (64 * l) 0 d) := fun u d =>
    ((frame_hthLog u _ _ _ _ _ _ _ _ _).mono (by simp)).prepares fun _ _ => rfl
  have counted : Prepares x s (s.spillAcc st b 1) := prepares_bump s _ _ (by unfold rbReg Reg.HTH_RB_b_SPILL_ACC; omega)
  unfold State.spillReach
  dsimp only
  split
  · exact Prepares.refl s
  · split
    · refine counted.trans (Prepares.trans ?_ (prepares_renew _ _ _))
      exact ((((prepares_bump _ _ _ (by decide)).trans (prepares_countU _ _ _ _)).trans (logged _ _)).trans
        (prepares_raise _ _ _ (by decide))).trans (prepares_taint _ _)
    · exact counted.trans (prepares_reachAs _ _ _ _ _ _ _ _)
theorem prepares_spillViews (s : State) (ins outs : List View) : Prepares x s (s.spillViews x ins outs) :=
  (prepares_foldl (fun u _ => prepares_spillReach u _ _ _ _ _) _ s).trans
    (prepares_foldl (fun u _ => prepares_spillReach u _ _ _ _ _) _ _)
theorem prepares_accessed (s : State) (ins outs : List View) (descs : List Opd) : Prepares x s (s.accessed x ins outs descs) :=
  ((((prepares_reachAs s _ _ _ _ _ _ _).trans (prepares_reachAs _ _ _ _ _ _ _ _)).trans (prepares_renew _ _ _)).trans
    (prepares_renewSpd _ _ _)).trans (prepares_spillViews _ _ _)
theorem prepares_nextFree (s : State) : Prepares x s s.nextFree :=
  ((frame_upd_free s _).mono (by simp)).prepares fun _ _ => rfl
theorem prepares_setRb (s : State) (b : Nat) (v : Rb) : Prepares x s (s.setRb b v) := by
  have frame := frame_upd_ht s { s.ht with rbs := tabSet (fun _ => {}) s.ht.rbs b v }
  exact ⟨frame.mono (by simp), frame.marks, frame.reached.places, frame.sameMembers, rfl, fun _ => ⟨rfl, rfl⟩⟩

end Prepare

-- From the issue to the unit's queue (R82, R94 to R96)

theorem sq_collNumbered (s : State) (i : Iss) (c : Nat) : (s.collNumbered i c).sq =
    { s.sq with seqs := (s.collNumbered i c).sq.seqs, issueNo := (s.collNumbered i c).sq.issueNo } := sq_atIssue s i 0x40 c
theorem places_collNumbered (s : State) (i : Iss) (c : Nat) : Places s (s.collNumbered i c) :=
  (places_atIssue s i 0x40 c).trans (frame_setCjob _ _ _).reached.places
theorem memberCount_collNumbered (s : State) (i : Iss) (c b : Nat) : (s.collNumbered i c).memberCount b = s.memberCount b := by
  unfold State.memberCount
  rw [rd_collNumbered]
theorem memberCount_atIssue (s : State) (i : Iss) (op c b : Nat) : (s.atIssue i op c).memberCount b = s.memberCount b := by
  unfold State.memberCount
  rw [rd_atIssue]
theorem lid_collNumbered (s : State) (i : Iss) (c : Nat) : (s.collNumbered i c).fb.lid = s.fb.lid := by
  show (s.atIssue i 0x40 c).fb.lid = s.fb.lid
  rw [(frame_atIssue s i 0x40 c).fb (by simp)]

/-- What a collective has changed when it is about to enter its unit's queue: its sequencer has gone on, its number is taken. -/
structure Readied (s t : State) (i : Iss) (c : Nat) : Prop where
  flights : t.sq.flights = s.sq.flights
  nextId : t.sq.nextId = s.sq.nextId
  own : t.seq i.st i.sq = { (s.seq i.st i.sq).advance i with
    slips := (t.seq i.st i.sq).slips, skips := (t.seq i.st i.sq).skips, evalInvalid := (t.seq i.st i.sq).evalInvalid }
  seqs : ∀ st n, 64 * st + n ≠ 64 * i.st + i.sq → t.seq st n = s.seq st n
  number : (t.cjob (s.ctx c).slot).cseq = ((s.cjob (s.ctx c).slot).cseq + 1) % 2 ^ 32
  lid : t.fb.lid = s.fb.lid
  members : ∀ b, t.memberCount b = s.memberCount b
  steps : SameSteps s t
  places : Places s t
  elems : t.ht.elems = s.ht.elems
  frame : Frame (reaching [.pg, .sq, .sp, .ht, .sw, .fb, .out, .free]) s t

theorem Prepares.readied {s t : State} {i : Iss} {c : Nat} (h : Prepares (s.srcOf i 0x40 c) (s.collNumbered i c) t) :
    Readied s t i c where
  flights := by rw [h.marks.sq, sq_collNumbered]
  nextId := by rw [h.marks.sq, sq_collNumbered]
  own := by
    have own := h.marks.own
    rw [srcOf_st, srcOf_sq, seq_collNumbered] at own
    exact own
  seqs st n other := (h.marks.others st n other).trans (seq_collNumbered_other s i c other)
  number := by rw [h.frame.cjob (by simp [reachParts]), cseq_collNumbered]
  lid := by rw [h.frame.fb (by simp [reachParts]), lid_collNumbered]
  members b := by rw [h.members.memberCount, memberCount_collNumbered]
  steps b := by
    rw [(h.steps b).1, (h.steps b).2, (frame_collNumbered s i c).job (by simp)]
    exact ⟨rfl, rfl⟩
  places := (places_collNumbered s i c).trans h.places
  elems := by rw [h.elems, (frame_collNumbered s i c).ht (by simp)]
  frame := ((frame_collNumbered s i c).mono (by simp [reachParts])).step h.frame (by simp [reachParts])
theorem Readied.numbered {s t : State} {i : Iss} {c : Nat} (h : Readied s t i c) (numbered : FlightsNumbered s) : FlightsNumbered t := by
  intro f hf
  rw [h.flights] at hf
  rw [h.nextId]
  exact numbered f hf

end Sys2Proof.Machine

/-! The issue of a collective that passes its checks (R94, R148, R295): it reads, claims its lines, and enters the engine. -/

namespace Sys2Proof.Machine

/-- A collective with a view in a slot's reduction buffer marks it (R148). -/
def State.collMarked (s : State) (b : Nat) (v : CollV) : State :=
  if v.a.place = .rb ∨ v.b.place = .rb then s.setRb b { s.rb b with coll := true } else s
/-- The state in which a collective has read its lines and made its accesses. -/
def State.collRead (s : State) (x : Src) (b : Nat) (v : CollV) (o : CollOps) : State :=
  (((s.readLines x (s.viewLines x.ctx v.a)).accessed x [v.a] [v.b] [o.a, o.b]).nextFree).collMarked b v
/-- The state in which it has claimed its destination. -/
def State.collReady (s : State) (x : Src) (b : Nat) (v : CollV) (o : CollOps) : State :=
  (s.collRead x b v o).claimLines x ((s.collRead x b v o).viewLines x.ctx v.b)
/-- The record with which a collective enters the engine. -/
def CollV.record (v : CollV) (op n b step : Nat) : CollF :=
  { op := op, cseq := n, slot := b, step := step, a := v.a, b := v.b, peer := v.peer, remote := v.remote,
    count := if op = 5 then 16 else v.b.size, parts := [], nodes := [] }
/-- Is a message data of the collective of a record? -/
def CollF.mine (p : CollF) (m : CMsg) : Bool := m.slot == p.slot && m.step == p.step && m.cseq == p.cseq && m.op != 16
/-- A collective in flight begins, and takes the data that has come for it. -/
def State.collStarted (s : State) (f : Flight) (p : CollF) : State :=
  let u := s.asOf f.id fun s => s.startColl (s.collAt f p) p none
  (u.fb.early.filter p.mine).foldl (fun s m => s.takeData m)
    { u with fb := { u.fb with early := u.fb.early.filter fun m => !p.mine m } }

theorem prepares_collRead (s : State) (x : Src) (b : Nat) (v : CollV) (o : CollOps) : Prepares x s (s.collRead x b v o) :=
  (((prepares_readLines s _).trans (prepares_accessed _ _ _ _)).trans (prepares_nextFree _)).trans
    (prepares_ite (prepares_setRb _ _ _) (Prepares.refl _))
theorem prepares_collReady (s : State) (x : Src) (b : Nat) (v : CollV) (o : CollOps) : Prepares x s (s.collReady x b v o) :=
  (prepares_collRead s x b v o).trans (prepares_claimLines _ _)

theorem flight_launch {s : State} (numbered : FlightsNumbered s) (i : Iss) (x : Src) (lines : List Nat) (b : Body) :
    (s.launch i x [] lines b).flight ((s.launch i x [] lines b).sq.nextId - 1) = some (s.newFlight i x lines b []) := by
  have before : s.sq.flights.find? (fun f => f.id == s.sq.nextId) = none :=
    List.find?_eq_none.2 fun f hf => by simpa using (numbered f hf).ne
  rw [launch_eq]
  unfold State.flight
  dsimp only
  rw [Nat.add_sub_cancel, List.find?_append, before, Option.none_or]
  exact List.find?_cons_of_pos (beq_self_eq_true _)

/-- An evaluation's collective that writes nothing guarded goes on (R178). -/
theorem collKept {s : State} {i : Iss} {c op b : Nat} {v : CollV}
    (kept : (s.ctx c).isEval = false ∨ ((v.b.size = 0 ∨ v.b.place ≠ .rb) ∧ (s.atIssue i 0x40 c).guardedView c v.b = false ∧
      (op = 7 → (s.atIssue i 0x40 c).jobHit ((s.atIssue i 0x40 c).dirCtx b) v.remote
        ((s.atIssue i 0x40 c).remoteLen c op v) = false))) :
    ¬(((s.atIssue i 0x40 c).ctx c).isEval ∧ ((v.b.place = .rb ∧ v.b.size ≠ 0) ∨ (s.atIssue i 0x40 c).guardedView c v.b ∨
      (op = 7 ∧ (s.atIssue i 0x40 c).jobHit ((s.atIssue i 0x40 c).dirCtx b) v.remote ((s.atIssue i 0x40 c).remoteLen c op v)))) := by
  have kind : ((s.atIssue i 0x40 c).ctx c).isEval = (s.ctx c).isEval := by
    rw [ctx_atIssue_same]
    rfl
  rw [kind]
  rintro ⟨eval, hits⟩
  rcases kept with job | ⟨size, guard, put⟩
  · rw [job] at eval
    cases eval
  · rcases hits with ⟨rb, some_⟩ | hit | ⟨seven, hit⟩
    · exact size.elim some_ fun no => no rb
    · rw [guard] at hit
      cases hit
    · rw [put seven] at hit
      cases hit

section Issue
variable {s : State} {i : Iss} {o : CollOps} {c op b : Nat} {v : CollV} (issue : s.canIssue i c [])
  (slot : (s.ctx c).slot = b) (views : (s.atIssue i 0x40 c).collViews (s.srcOf i 0x40 c) op o = v)
  (passes : (s.atIssue i 0x40 c).collFails (s.srcOf i 0x40 c) op o v = none)
  (sound : (s.atIssue i 0x40 c).collCheck (s.srcOf i 0x40 c) b op v o.far = none) (ok : i.rd = .ok) (numbered : FlightsNumbered s)
  (goes : (s.job b).abortSeen = false) (mergeA : (s.atIssue i 0x40 c).mergeView c v.a = false)
  (mergeB : (s.atIssue i 0x40 c).mergeView c v.b = false)
  (clear : (s.atIssue i 0x40 c).clearTo (s.srcOf i 0x40 c) [v.a] [v.b] [] [o.a, o.b])
  (kept : (s.ctx c).isEval = false ∨ ((v.b.size = 0 ∨ v.b.place ≠ .rb) ∧ (s.atIssue i 0x40 c).guardedView c v.b = false ∧
    (op = 7 → (s.atIssue i 0x40 c).jobHit ((s.atIssue i 0x40 c).dirCtx b) v.remote
      ((s.atIssue i 0x40 c).remoteLen c op v) = false)))
include issue slot views passes sound ok numbered goes mergeA mergeB clear kept

theorem issueColl_enters :
    let x := s.srcOf i 0x40 c
    let t := (s.collNumbered i c).collReady x b v o
    let p := v.record op (s.cjob b).cseq b (t.job b).step
    let lines := (s.atIssue i 0x40 c).viewLines c v.b
    s.issueColl op i o = (t.launch i x [] lines (.coll p)).collStarted (t.newFlight i x lines (.coll p) []) p := by
  have merge : [v.a, v.b].find? ((s.collNumbered i c).mergeView c) = none := by
    have same : ∀ w, (s.collNumbered i c).mergeView c w = (s.atIssue i 0x40 c).mergeView c w := fun _ => rfl
    simp [same, mergeA, mergeB]
  have clear' : (s.collNumbered i c).clearTo (s.srcOf i 0x40 c) [v.a] [v.b] [] [o.a, o.b] := clear
  have access := access_clear ok (clearTo_readLines clear' ((s.collNumbered i c).viewLines c v.a)) 1 0
  have prepared := prepares_collReady (s.collNumbered i c) (s.srcOf i 0x40 c) b v o
  intro x t p lines
  unfold State.issueColl
  rw [begin_atIssue issue 0x40]
  dsimp only
  rw [srcOf_ctx, slot_atIssue, slot, views, passes]
  dsimp only
  rw [sound]
  dsimp only
  rw [if_neg (collKept kept)]
  have took : (s.atIssue i 0x40 c).setCjob b { (s.atIssue i 0x40 c).cjob b with
      cseq := (((s.atIssue i 0x40 c).cjob b).cseq + 1) % 2 ^ 32 } = s.collNumbered i c := by
    unfold State.collNumbered State.numbered
    rw [slot]
  rw [took, merge]
  dsimp only
  have read : (s.collNumbered i c).collRead x b v o = (((s.collNumbered i c).readLines x
      ((s.collNumbered i c).viewLines c v.a)).accessed x [v.a] [v.b] [o.a, o.b]).nextFree.collMarked b v := rfl
  unfold State.collMarked at read
  rw [access]
  simp only [ok, reduceCtorEq, if_false]
  rw [← read]
  have reads := prepares_collRead (s.collNumbered i c) x b v o
  have whole : ((s.collNumbered i c).collRead x b v o).viewLines c v.b = lines := reads.places.viewLines c v.b
  have ready : ((s.collNumbered i c).collRead x b v o).claimLines (s.srcOf i 0x40 c) lines = t := by
    rw [← whole]
    rfl
  have record : v.record op (s.cjob b).cseq b (t.job b).step = p := rfl
  unfold CollV.record at record
  have readied : Readied s t i c := prepared.readied
  rw [whole, ready, cjob_atIssue, record, flight_launch (readied.numbered numbered)]
  dsimp only
  rw [if_neg (by rw [(frame_launch t i _ _ _ _).job (by simp), (readied.steps b).2, goes]; decide)]
  rfl

end Issue

end Sys2Proof.Machine

/-! What the checks of a collective say of its views (R295, R306): its data fits its destination. -/

namespace Sys2Proof.Machine

theorem chunk_le {k n : Nat} (e : Nat) (h : k < n) : (chunkSpan e n k).2 ≤ e :=
  Nat.div_le_of_le_mul (Nat.mul_le_mul_right e h)
theorem position_lt {s : State} {b : Nat} (h : 1 ≤ s.memberCount b) : (s.position b).getD 0 < s.memberCount b := by
  have count : (s.members b).length = s.memberCount b := by simp [State.members]
  cases found : s.position b with
  | none => exact h
  | some k =>
    obtain ⟨l, -, there⟩ := Option.bind_eq_some_iff.1 found
    exact (List.findIdx?_eq_some_iff_findIdx_eq.1 there).1.trans_eq count

/-- What the checks of its own say of a collective's views. -/
structure CollV.Passes (v : CollV) (op n : Nat) (root : Prop) : Prop where
  members : 1 ≤ n
  flags : op = 5 → v.b.place ≠ .rb ∧ v.b.rows = 1 ∧ rowBytes v.b.fmt v.b.cols = 16
  rows : op = 3 → v.a.rows = n ∧ v.b.rows = n ∧ v.a.size = v.b.size
  whole : op = 4 → root → v.a.size = v.b.size

theorem passes_of_collCheck {s : State} {x : Src} {b op : Nat} {v : CollV} {far : Bool} (h : s.collCheck x b op v far = none) :
    v.Passes op (s.memberCount b) (some v.peer = s.fb.lid) := by
  unfold State.collCheck at h
  extract_lets n pos e root counts same formats members need stage far' at h
  split at h
  · cases h
  next first =>
  split at h
  · cases h
  next second =>
  split at h
  · cases h
  next third =>
  have counted : counts = true := by
    by_contra no
    exact first (by simp [no])
  have formatted : formats = true := by simpa using second
  have listed : members = true := by simpa using third
  refine ⟨?_, fun five => ?_, fun three => ?_, fun four at_ => ?_⟩
  · simp only [members, Bool.and_eq_true, decide_eq_true_eq] at listed
    exact listed.1.1.2
  · subst five
    simp only [counts, Bool.and_eq_true, beq_iff_eq] at counted
    simp only [formats, Bool.and_eq_true, bne_iff_ne] at formatted
    exact ⟨formatted.2, counted.1.1.2, counted.2⟩
  · subst three
    simp only [counts, beq_iff_eq] at counted
    simp only [members, Bool.and_eq_true, Bool.or_eq_true, beq_iff_eq, bne_self_eq_false, Bool.false_eq_true, false_or] at listed
    exact ⟨listed.1.2.1, listed.1.2.2, counted⟩
  · subst four
    simp only [counts, root, at_, beq_self_eq_true, Bool.not_true, Bool.false_or, beq_iff_eq] at counted
    exact counted

theorem span_record (v : CollV) (op num b step n k : Nat) : (v.record op num b step).span n k =
    if op = 3 then (k * v.b.cols, (k + 1) * v.b.cols) else if op = 4 then (0, v.b.size)
    else chunkSpan (if op = 5 then 16 else v.b.size) n k := rfl
theorem CollV.Passes.sound {v : CollV} {op n me : Nat} {root : Prop} (h : v.Passes op n root) (hm : me < n) (num b step : Nat) :
    (v.record op num b step).Sound n me root := by
  refine ⟨fun k hk => ?_, hm, fun three => ?_, h.whole⟩
  · show v.b.takes op _
    rw [span_record]
    unfold View.takes
    by_cases five : op = 5
    · subst five
      obtain ⟨place, rows, bytes⟩ := h.flags rfl
      rw [if_pos rfl, bytes, rows]
      exact ⟨place, Nat.one_pos, chunk_le 16 hk⟩
    · rw [if_neg five, if_neg five]
      by_cases three : op = 3
      · rw [if_pos three, View.size, (h.rows three).2.1]
        exact Nat.mul_le_mul_right _ hk
      · rw [if_neg three]
        by_cases four : op = 4
        · rw [if_pos four]
        · rw [if_neg four]
          exact chunk_le _ hk
  · obtain ⟨rowsA, rowsB, sizes⟩ := h.rows three
    unfold View.size at sizes
    rw [rowsA, rowsB] at sizes
    exact Nat.eq_of_mul_eq_mul_left h.members sizes

end Sys2Proof.Machine

/-! Collectives at issue (R94, R294, R295): what the engine has done when one has entered it, and the nine instructions. -/

namespace Sys2Proof.Machine

-- It begins (R295, R296)

/-- A collective that stands in flight begins and takes what has come for it. -/
theorem moves_collStarted {l : List Flight} {f : Flight} {p : CollF} {n : Nat} {s : State} (ids : ∀ h ∈ l, h.id ≠ f.id)
    (fresh : ∀ g ∈ l, ∀ q, g.body = .coll q → ¬(q.slot = p.slot ∧ q.step = p.step ∧ q.cseq = p.cseq)) (body : f.body = .coll p)
    (empty : p.nodes = []) (members : s.memberCount p.slot = n)
    (sound : p.Sound n ((s.position p.slot).getD 0) (some p.peer = s.fb.lid)) (there : InFlight l f p n s) :
    Moves l f p n s (s.collStarted f p) := by
  have same : f = { f with body := .coll p } := by rw [← body]
  have fits : p.Follows n p := ⟨rfl, by rw [empty]; simp⟩
  have next := moves_setNext f.id there
  have began : Moves l f p n s ((s.setNext f.id).startColl ((s.setNext f.id).collAt f p) p none) := by
    have at_ : ((s.setNext f.id).collAt f p).n = n := members
    rcases startColl_cases (w := (s.setNext f.id).collAt f p) (s := s.setNext f.id) (by rw [at_]; exact sound) empty with
      ⟨y, goes, eq⟩ | ⟨type, args, data, eq⟩
    · rw [at_] at goes
      rw [eq]
      exact next.trans (moves_keepColl (w := (s.setNext f.id).collAt f p) ids next.flight same goes)
    · rw [eq]
      have put := next.trans (moves_putFlight (B := .coll p) ids next.flight (.inr ⟨p, rfl, fits⟩))
      exact put.trans ((sends_send _ _ _ _ _ _ _ _ _).carries.moves put.flight)
  have moved : Moves l f p n s (s.asOf f.id fun s => s.startColl (s.collAt f p) p none) :=
    began.trans (moves_setNext _ began.flight)
  unfold State.collStarted
  extract_lets u
  have sorted : Carries carryParts f.ctx p.b u
      { u with fb := { u.fb with early := u.fb.early.filter fun m => !p.mine m } } := by
    have frame := frame_upd_fb u { u.fb with early := u.fb.early.filter fun m => !p.mine m }
    exact ⟨frame.mono (by simp), frame.reached.places, frame.sameMembers, rfl, fun _ => rfl,
      fun _ a _ => frame.reached.places.mrd rfl a⟩
  have ready := moved.trans (sorted.moves moved.flight)
  refine ready.trans (moves_takeAll ids sound.takes fresh _ (fun m hm => ?_) ?_ ready.flight)
  · have own := (List.mem_filter.1 hm).2
    simp only [CollF.mine, Bool.and_eq_true, beq_iff_eq] at own
    exact ⟨own.1.1.1, own.1.1.2, own.1.2⟩
  · rw [ready.carries.members.memberCount, members]

-- What it leaves (R294, R295)

/-- What a collective that enters the engine leaves (R294, R295). -/
structure CollEntered (s t : State) (i : Iss) (c op : Nat) (v : CollV) (f : Flight) : Prop where
  launches : Launches s t i c f
  body : f.body = .plain ∨ ∃ p : CollF, f.body = .coll p ∧ p.op = op ∧ p.cseq = (s.cjob (s.ctx c).slot).cseq ∧
    p.slot = (s.ctx c).slot ∧ p.a = v.a ∧ p.b = v.b ∧ p.peer = v.peer
  lines : f.lines = (s.atIssue i 0x40 c).viewLines c v.b
  number : (t.cjob (s.ctx c).slot).cseq = ((s.cjob (s.ctx c).slot).cseq + 1) % 2 ^ 32
  outside : v.b.place ≠ .rb → MemOutside s t c [v.b] ∧ t.ht.elems = s.ht.elems
  regs : SameRegs s t i
  frame : Frame (reaching [.pg, .mem, .sq, .sp, .ht, .sw, .fb, .out, .free]) s t

section Enter
variable {s t T : State} {i : Iss} {c op : Nat} {v : CollV} {x : Src} {lines : List Nat} {p : CollF}
  (ready : Readied s t i c)
  (hp : p = v.record op (s.cjob (s.ctx c).slot).cseq (s.ctx c).slot (t.job (s.ctx c).slot).step)
include ready hp

/-- One that has entered its queue begins. -/
theorem moves_of_ready (numbered : FlightsNumbered s)
    (passes : v.Passes op (s.memberCount (s.ctx c).slot) (some v.peer = s.fb.lid))
    (fresh : ∀ f ∈ s.sq.flights, ∀ q, f.body = .coll q →
      ¬(q.slot = (s.ctx c).slot ∧ q.step = (s.job (s.ctx c).slot).step ∧ q.cseq = (s.cjob (s.ctx c).slot).cseq)) :
    Moves s.sq.flights (t.newFlight i x lines (.coll p) []) p (s.memberCount (s.ctx c).slot) (t.launch i x [] lines (.coll p))
      ((t.launch i x [] lines (.coll p)).collStarted (t.newFlight i x lines (.coll p) []) p) := by
  have count : (t.launch i x [] lines (.coll p)).memberCount (s.ctx c).slot = s.memberCount (s.ctx c).slot :=
    ready.members (s.ctx c).slot
  have slot : p.slot = (s.ctx c).slot := by
    rw [hp]
    rfl
  refine moves_collStarted (fun f hf => ?_) (fun f hf q hq => ?_) rfl (by rw [hp]; rfl) (by rw [slot, count]) ?_
    ⟨.coll p, ?_, .inr ⟨p, rfl, rfl, ?_⟩⟩
  · show f.id ≠ t.sq.nextId
    rw [ready.nextId]
    exact (numbered f hf).ne
  · rw [hp]
    show ¬(q.slot = _ ∧ q.step = (t.job (s.ctx c).slot).step ∧ q.cseq = _)
    rw [(ready.steps _).1]
    exact fresh f hf q hq
  · have me := position_lt (s := t.launch i x [] lines (.coll p)) (by rw [count]; exact passes.members)
    rw [count] at me
    have sound := passes.sound me (s.cjob (s.ctx c).slot).cseq (s.ctx c).slot (t.job (s.ctx c).slot).step
    rw [← hp] at sound
    have lid : (t.launch i x [] lines (.coll p)).fb.lid = s.fb.lid := ready.lid
    rw [slot, lid, show p.peer = v.peer by rw [hp]; rfl]
    exact sound
  · show t.sq.flights ++ _ = _
    rw [ready.flights]
    rfl
  · rw [hp]
    intro y hy
    cases hy

theorem entered_of_moves (hx : x = s.srcOf i 0x40 c) (hl : lines = (s.atIssue i 0x40 c).viewLines c v.b) {n : Nat}
    (moves : Moves s.sq.flights (t.newFlight i x lines (.coll p) []) p n (t.launch i x [] lines (.coll p)) T) :
    ∃ f, CollEntered s T i c op v f := by
  obtain ⟨carries, own, others, B, flights, body⟩ := moves
  have inQueue : ∀ st m, (t.launch i x [] lines (.coll p)).seq st m = t.seq st m := fun _ _ => rfl
  have at_ : T.seq i.st i.sq = { (s.seq i.st i.sq).advance i with
      slips := (t.seq i.st i.sq).slips, skips := (t.seq i.st i.sq).skips, evalInvalid := (T.seq i.st i.sq).evalInvalid } := by
    have same : (t.newFlight i x lines (.coll p) []).st = i.st ∧ (t.newFlight i x lines (.coll p) []).sq = i.sq := by
      rw [hx]
      exact ⟨rfl, rfl⟩
    rw [same.1, same.2, inQueue, ready.own] at own
    exact own
  have ctx : (t.newFlight i x lines (.coll p) []).ctx = c := by
    rw [hx]
    rfl
  have view : p.b = v.b := by
    rw [hp]
    rfl
  rw [ctx, view] at carries
  have launched : Places t (t.launch i x [] lines (.coll p)) :=
    ⟨rfl, fun _ _ => rfl, fun _ => rfl, fun _ => rfl, rfl, rfl⟩
  have places := ready.places.trans launched
  refine ⟨{ t.newFlight i x lines (.coll p) [] with body := B }, ⟨⟨?_, ?_, ?_, flights, ready.nextId, ?_, rfl⟩, fun st m other => ?_⟩,
    ?_, hl, ?_, fun hv => ⟨fun a outside => ?_, ?_⟩, fun m => ?_, ?_⟩
  · rw [at_]
  · rw [at_]
  · rw [at_]
  · rw [hx]
    exact ⟨rfl, rfl, rfl⟩
  · rw [hx] at others
    exact (others st m other).trans (ready.seqs st m other)
  · rcases body with plain | ⟨q, coll, follows⟩
    · exact .inl plain
    · refine .inr ⟨q, coll, ?_⟩
      rw [follows.same, hp]
      exact ⟨rfl, rfl, rfl, rfl, rfl, rfl⟩
  · unfold State.cjob
    rw [carries.jobs]
    exact ready.number
  · refine (carries.mem hv a fun r hr j hj => ?_).trans (places.mrd (ready.frame.mem (by simp [reachParts])) a)
    rw [places.byteAddr]
    exact outside v.b (by simp) r hr j hj
  · exact (carries.elems hv).trans ready.elems
  · rw [at_]
    exact sreg_advance _ i m
  · exact ((ready.frame.mono (by simp [reachParts])).step (frame_launch t i x lines (.coll p) []) (by simp [reachParts])).step
      carries.frame (by simp [reachParts])

end Enter

-- The nine instructions (R295)

section Passes
variable {s : State} {i : Iss} {o : CollOps} {c op : Nat} {v : CollV} {cmd : Instr} (issue : s.canIssue i c [])
  (coll : Collective op i o cmd)
  (views : (s.atIssue i 0x40 c).collViews (s.srcOf i 0x40 c) op o = v)
  (passes : (s.atIssue i 0x40 c).collFails (s.srcOf i 0x40 c) op o v = none)
  (sound : (s.atIssue i 0x40 c).collCheck (s.srcOf i 0x40 c) (s.ctx c).slot op v o.far = none) (ok : i.rd = .ok)
  (numbered : FlightsNumbered s) (goes : (s.job (s.ctx c).slot).abortSeen = false)
  (mergeA : (s.atIssue i 0x40 c).mergeView c v.a = false) (mergeB : (s.atIssue i 0x40 c).mergeView c v.b = false)
  (clear : (s.atIssue i 0x40 c).clearTo (s.srcOf i 0x40 c) [v.a] [v.b] [] [o.a, o.b])
  (kept : (s.ctx c).isEval = false ∨ ((v.b.size = 0 ∨ v.b.place ≠ .rb) ∧ (s.atIssue i 0x40 c).guardedView c v.b = false ∧
    (op = 7 → (s.atIssue i 0x40 c).jobHit ((s.atIssue i 0x40 c).dirCtx (s.ctx c).slot) v.remote
      ((s.atIssue i 0x40 c).remoteLen c op v) = false)))
  (fresh : ∀ f ∈ s.sq.flights, ∀ q, f.body = .coll q →
    ¬(q.slot = (s.ctx c).slot ∧ q.step = (s.job (s.ctx c).slot).step ∧ q.cseq = (s.cjob (s.ctx c).slot).cseq))
include issue coll views passes sound ok numbered goes mergeA mergeB clear kept fresh

/-- A collective that passes its checks, and that nothing keeps from its data, enters the engine. -/
theorem coll_enters : ∃ t f, Runs cmd s t ∧ CollEntered s t i c op v f := by
  have ready := (prepares_collReady (x := s.srcOf i 0x40 c) (s.collNumbered i c) (s.ctx c).slot v o).readied
  have held : v.Passes op (s.memberCount (s.ctx c).slot) (some v.peer = s.fb.lid) := by
    have held := passes_of_collCheck sound
    rw [memberCount_atIssue, (frame_atIssue s i 0x40 c).fb (by simp)] at held
    exact held
  obtain ⟨f, entered⟩ := entered_of_moves ready rfl rfl rfl (moves_of_ready ready rfl numbered held fresh)
  have runs := issueColl_enters issue rfl views passes sound ok numbered goes mergeA mergeB clear kept
  exact ⟨_, f, (coll s).trans (congrArg _ runs), entered⟩

end Passes

/-- Settles O35: each of the nine commands issues its operation's collective; one that passes its checks is launched with its number
taken, begins and takes what has come for it, and one that fails a check is skipped. -/
theorem collectivesIssue : Obligations.CollectivesIssue := by
  intro i o c s issue go
  have each : ∀ {op : Nat} {cmd : Instr}, Collective op i o cmd → go op cmd := by
    intro op cmd coll
    unfold go
    intro x u b n v
    refine ⟨?_, fun fails => ?_⟩
    · intro passes sound ok numbered goes mergeA mergeB clear kept fresh
      obtain ⟨t, f, runs, entered⟩ := coll_enters issue coll rfl passes sound ok numbered goes mergeA mergeB clear kept fresh
      exact ⟨t, f, runs, entered.launches, entered.body, entered.lines, entered.number, entered.outside, entered.regs, entered.frame⟩
    · obtain ⟨t, runs, skipped⟩ := coll_skipped issue coll fails
      exact ⟨t, runs, skipped.flights, skipped.number, skipped.counted, skipped.regs, skipped.frame⟩
  exact ⟨each fun _ => rfl, each fun _ => rfl, each fun _ => rfl, each fun _ => rfl, each fun _ => rfl, each fun _ => rfl,
    each fun _ => rfl, each fun _ => rfl, each fun _ => rfl⟩

end Sys2Proof.Machine

/-! A copy from a spilled line of a reduction buffer that holds an uncorrectable word, and a lift's page that is no lift's. -/

namespace Sys2Proof.Machine

/-- A word of the window of context 1 as a raw N16 operand, which takes the counts of what is copied into it. -/
def wordInWindow : Opd := .direct 0x1000 16 .n16 .none 0 .act

/-- The copy's reach into the spilled line of `badSpill` meets the uncorrectable word, and its record draws a free value (R143, R241). -/
theorem free_copy_badSpill :
    (Res.after (exec (.copy plainIssue (.pool 0) wordInWindow) badSpill) badSpill).free = 1 := by
  decide +kernel

/-- Refutes O19: a copy from a spilled line of a reduction buffer (R116, R143, R144) whose region holds an uncorrectable word completes, and
the record of that word names a free syndrome; the statement's frame leaves no free value to be drawn. -/
theorem not_copies : ¬ Obligations.Copies := by
  intro h
  obtain ⟨copy, -⟩ := h plainIssue (.pool 0) wordInWindow 1 badSpill (by decide +kernel) rfl (by decide +kernel) (by decide +kernel)
    (by decide +kernel) (by decide +kernel) (by decide +kernel) (by decide +kernel) (by decide +kernel) (by decide +kernel)
    (by decide +kernel)
  obtain ⟨t, f, runs, -, -, -, -, -, -, -, -, frame⟩ := copy (by decide +kernel)
  have kept := frame.free (by decide)
  rw [← runs.after, free_copy_badSpill, free_matmul_badSpill.1] at kept
  exact absurd kept (by decide)

/-- The module in Cold, with every domain released. -/
def coldModule : State :=
  { State.reset with cx := { CtxSt.reset with cold := true }, kd := { KdlSt.reset with released := 8 } }

/-- The page on which a lift 4064 would stand, 127 pages after the first, is the stoker's, and a write to it takes the module out of Cold
(R256). -/
theorem cold_liftReset_coldModule :
    (Res.after (exec (.liftReset .kindler 0 4064) coldModule) coldModule).cx.cold = false := by
  decide +kernel

/-- Refutes O24: a reset of a lift changes scratchpad alone where the lift is one of the stove's 128, and the statement has no hypothesis
that it is; lift 4064 would have its register in the stoker's page, and a write there changes the state of contexts too. -/
theorem not_scratchpad : ¬ Obligations.Scratchpad := by
  intro h
  obtain ⟨-, -, -, -, -, reset⟩ := h
  obtain ⟨t, runs, -, -, -, frame⟩ := reset .kindler 0 4064 coldModule (by decide +kernel) (by decide +kernel)
  have kept : t.cx.cold = coldModule.cx.cold := by rw [frame.cx (by decide)]
  rw [← runs.after, cold_liftReset_coldModule] at kept
  exact absurd kept (by decide)

end Sys2Proof.Machine

/-! Lifts in streams: the chair that an operand names, and its release (R108 to R112). -/

namespace Sys2Proof.Machine

-- What reads of a lift give (R108 to R110)

theorem State.lift_setLift (s : State) (a b c d : Nat) (v : Lift) :
    (s.setLift a b v).lift c d = if 128 * c + d = 128 * a + b then v else s.lift c d := by
  unfold State.lift State.setLift
  exact tabGet_tabSet _ _ _ _ _
theorem frame_setLift (s : State) (a b : Nat) (v : Lift) : Frame [.sp] s (s.setLift a b v) := frame_upd_sp s _
theorem Frame.lift {l : List Part} {s t : State} (f : Frame l s t) (h : .sp ∉ l) (st k : Nat) : t.lift st k = s.lift st k := by
  unfold State.lift
  rw [f.sp h]
theorem liftCfg_atIssue (s : State) (i : Iss) (op c st k : Nat) : (s.atIssue i op c).liftCfg st k = s.liftCfg st k := by
  unfold State.liftCfg
  simp only [rd_atIssue]
theorem lift_atIssue (s : State) (i : Iss) (op c st k : Nat) : (s.atIssue i op c).lift st k = s.lift st k :=
  (frame_atIssue s i op c).lift (by simp) st k
theorem chairOf_atIssue (s : State) (i : Iss) (op c d : Nat) (o : Opd) : (s.atIssue i op c).chairOf d o = s.chairOf d o := by
  unfold State.chairOf State.findLift
  simp only [liftCfg_atIssue, lift_atIssue]
theorem getD_setNth (l : List Nat) (n v m : Nat) : (setNth l n v).getD m 0 = if m = n then v else l.getD m 0 := by
  unfold setNth
  simp only [List.getD_eq_getElem?_getD, List.getElem?_set, List.getElem?_append, List.getElem?_replicate]
  grind
theorem chair_setNth (l : Lift) (n v m : Nat) :
    ({ l with chairs := setNth l.chairs n v } : Lift).chair m = if m = n then v else l.chair m := getD_setNth _ _ _ _

-- The chair that an operand names (R110, R112)

section Chair
variable {s : State} {c n k : Nat} {tail : Bool} {f : Fmt} {g : Grain} {z : Nat} {cls : Cls} (found : s.findLift c n = some k)
include found

theorem chairOf_chair : s.chairOf c (.chair n tail f g z cls) =
    some (k, if tail then (s.lift (stoveOf c) k).tail else (s.lift (stoveOf c) k).head, tail) := by
  show (s.findLift c n).map _ = _
  rw [found]
  rfl
/-- A reader waits where its chair is not FULL. -/
theorem chairWaits_head : s.chairWaits c (.chair n false f g z cls) =
    if (s.lift (stoveOf c) k).chair (s.lift (stoveOf c) k).head = 2 then none else some (s.liftCfg (stoveOf c) k).lnum := by
  unfold State.chairWaits
  rw [chairOf_chair found]
  simp

end Chair

/-- An instruction whose chair is not as it needs waits at its sequencer (R110, R112). -/
theorem begin_waits {s : State} {i : Iss} {c l : Nat} {o : Opd} (issue : s.canIssue i c []) (waits : s.chairWaits c o = some l) (op : Nat) :
    s.begin i op [o] = ((s.fetched i).setSeq i.st i.sq { s.seq i.st i.sq with
      state := 3, waitKind := 2, waitNum := l, waited := if (s.seq i.st i.sq).state = 3 then (s.seq i.st i.sq).waited else 0 }, none) := by
  obtain ⟨ctx, above, below, free, end_, switch, lit, word, sem, -⟩ := issue
  have ready : (i.waitEn && !((s.fetched i).ctx c).semReady i.waitSem i.sq) = false := by
    cases hb : i.waitEn
    · rfl
    · simp [sem hb]
  have chair : List.findSome? ((s.fetched i).chairWaits c) [o] = some l := by simp [waits]
  unfold State.begin
  dsimp only
  rw [ctx]
  simp only [above, below, free, end_, switch, lit, word, ready, chair, and_self, decide_true, Bool.not_true, Bool.or_self,
    Option.isSome_none, Bool.false_eq_true, if_false]

-- Entering a queue

/-- What has met slips alone since its issue enters its unit's queue. -/
theorem Marks.launches {s u : State} {i : Iss} {op c : Nat} (marks : Marks i.st i.sq (s.atIssue i op c) u) (lines : List Nat) (b : Body)
    (writes : List (Nat × Byte)) : Launches s (u.launch i (s.srcOf i op c) [] lines b writes) i c
      (u.newFlight i (s.srcOf i op c) lines b writes) where
  pc := by
    show (u.seq i.st i.sq).pc = _
    rw [marks.own, seq_atIssue]
  loops := by
    show (u.seq i.st i.sq).loops = _
    rw [marks.own, seq_atIssue]
  issued := by
    show (u.seq i.st i.sq).issued = _
    rw [marks.own, seq_atIssue]
  flights := by
    have same : u.sq.flights = s.sq.flights := by rw [marks.sq, sq_atIssue]
    exact congrArg (· ++ _) same
  id := by
    show u.sq.nextId = _
    rw [marks.sq, sq_atIssue]
  src := ⟨rfl, rfl, rfl⟩
  post := rfl
  seqs st n other := (marks.others st n other).trans (seq_atIssue_other s i op c other)

-- LIFT_RELEASE (R112)

/-- A lift whose head chair is released: the chair is EMPTY, or RELEASING while it has readers. -/
def Lift.release (l : Lift) (chairs : Nat) : Lift :=
  { l with head := (l.head + 1) % chairs, chairs := setNth l.chairs l.head (if nth 0 l.readers l.head = 0 then 0 else 3) }

section Release
variable {s : State} {i : Iss} {c n k : Nat} {f : Fmt} {g : Grain} {z : Nat} {cls : Cls} (found : s.findLift c n = some k)
  (home : stoveOf c = i.st)
include found home

theorem runs_liftRelease (issue : s.canIssue i c [.chair n false f g z cls]) : Runs (.liftRelease i (.chair n false f g z cls)) s
    (((s.atIssue i 0x22 c).setLift i.st k ((s.lift i.st k).release (s.liftCfg i.st k).chairs)).launch i (s.srcOf i 0x22 c) [] [] .plain) := by
  have chair := chairOf_chair (tail := false) (f := f) (g := g) (z := z) (cls := cls) found
  rw [home] at chair
  show execLiftRelease i _ s = _
  unfold execLiftRelease
  rw [begin_atIssue issue 0x22]
  dsimp only
  rw [srcOf_ctx, srcOf_st, chairOf_atIssue, chair]
  simp only [lift_atIssue, liftCfg_atIssue]
  rfl
theorem runs_liftRelease_waits (issue : s.canIssue i c []) (filling : (s.lift i.st k).chair (s.lift i.st k).head ≠ 2) :
    Runs (.liftRelease i (.chair n false f g z cls)) s ((s.fetched i).setSeq i.st i.sq { s.seq i.st i.sq with
      state := 3, waitKind := 2, waitNum := (s.liftCfg i.st k).lnum
      waited := if (s.seq i.st i.sq).state = 3 then (s.seq i.st i.sq).waited else 0 }) := by
  have waits := chairWaits_head (f := f) (g := g) (z := z) (cls := cls) found
  rw [home, if_neg filling] at waits
  show execLiftRelease i _ s = _
  unfold execLiftRelease
  rw [begin_waits issue waits 0x22]

end Release

/-- Settles O21: the release issues and changes its lift as `Lift.release` says; before the chair is FULL its sequencer waits. -/
theorem liftRelease : Obligations.LiftRelease := by
  intro i lift f g z cls c k s a l found home
  have same : l = s.lift i.st k := congrArg (s.lift · k) home
  refine ⟨fun issue => ⟨?_, ?_⟩, fun filling issue => ?_⟩
  · have waits : s.chairWaits c a = none := by
      obtain ⟨-, -, -, -, -, -, -, -, -, waits⟩ := issue
      simpa using waits
    rw [chairWaits_head found] at waits
    by_contra filling
    rw [if_neg filling] at waits
    cases waits
  · have marks : Marks i.st i.sq (s.atIssue i 0x22 c) ((s.atIssue i 0x22 c).setLift i.st k (l.release (s.liftCfg i.st k).chairs)) :=
      (frame_setLift _ _ _ _).marks
    have changed : (((s.atIssue i 0x22 c).setLift i.st k (l.release (s.liftCfg i.st k).chairs)).launch i (s.srcOf i 0x22 c) [] []
        .plain).lift i.st k = l.release (s.liftCfg i.st k).chairs := State.lift_setLift_same _ _ _ _
    refine ⟨_, _, same ▸ runs_liftRelease found home issue, marks.launches _ _ _, ?_, ?_, ?_, fun m other => ?_, ?_⟩
    · rw [changed]
      rfl
    · rw [changed]
      rfl
    · rw [changed]
      exact (chair_setNth _ _ _ _).trans (if_pos rfl)
    · rw [changed]
      exact (chair_setNth _ _ _ _).trans (if_neg other)
    · exact (((frame_atIssue s i 0x22 c).mono (by simp)).step (frame_setLift _ _ _ _)).step (frame_launch _ _ _ _ _ _)
  · rw [same] at filling
    have waiting := fun q => ((SameFlights.refl (l := [.pg, .sq]) s).step (frame_fetched s i).sameFlights).step
      (sameFlights_setSeq (s.fetched i) i.st i.sq q)
    refine ⟨_, runs_liftRelease_waits found home issue filling, ?_, ?_, ?_, (waiting _).flights, (waiting _).frame⟩
    · rw [State.seq_setSeq_same]
    · rw [State.seq_setSeq_same]
    · rw [same]
      exact (waiting _).frame.lift (by simp) _ _
end Sys2Proof.Machine

/-! What faults and the ends of flights leave of lifts (R109, R110, R115). -/

namespace Sys2Proof.Machine

-- What an end of flights and a fault leave of lifts (R109, R110, R115, R246)

/-- A lift has its head, tail and counts; of its chairs a RELEASING one alone may have become EMPTY. -/
structure Lift.Kept (l m : Lift) : Prop where
  record : m = { l with chairs := m.chairs, readers := m.readers }
  chair : ∀ n, l.chair n ≠ 3 → m.chair n = l.chair n

theorem Lift.Kept.refl (l : Lift) : l.Kept l := ⟨rfl, fun _ _ => rfl⟩
theorem Lift.Kept.trans {l m n : Lift} (h : l.Kept m) (g : m.Kept n) : l.Kept n where
  record := by rw [g.record, h.record]
  chair k held := by
    have first := h.chair k held
    exact (g.chair k (first ▸ held)).trans first

/-- Every lift is kept. -/
def LiftsKept (s t : State) : Prop := ∀ st k, (s.lift st k).Kept (t.lift st k)

theorem LiftsKept.trans {a b c : State} (h : LiftsKept a b) (g : LiftsKept b c) : LiftsKept a c := fun st k => (h st k).trans (g st k)
theorem liftsKept_of_lifts {s t : State} (h : t.sp.lifts = s.sp.lifts) : LiftsKept s t := fun st k => by
  unfold State.lift
  rw [h]
  exact Lift.Kept.refl _
theorem LiftsKept.refl (s : State) : LiftsKept s s := liftsKept_of_lifts rfl
theorem Frame.liftsKept {l : List Part} {s t : State} (f : Frame l s t) (h : .sp ∉ l := by simp) : LiftsKept s t :=
  liftsKept_of_lifts (by rw [f.sp h])
theorem liftsKept_foldl {α : Type} {f : State → α → State} (h : ∀ s a, LiftsKept s (f s a)) (xs : List α) (s : State) :
    LiftsKept s (xs.foldl f s) := by
  induction xs generalizing s with
  | nil => exact LiftsKept.refl s
  | cons x xs ih => exact (h s x).trans (ih _)
theorem liftsKept_ite {p : Prop} [Decidable p] {s a b : State} (ha : LiftsKept s a) (hb : LiftsKept s b) :
    LiftsKept s (if p then a else b) := by
  split
  · exact ha
  · exact hb
theorem liftsKept_setLift {s : State} {st k : Nat} {v : Lift} (h : (s.lift st k).Kept v) : LiftsKept s (s.setLift st k v) := fun d j => by
  rw [State.lift_setLift]
  split
  next same =>
    have one : s.lift d j = s.lift st k := congrArg (tabGet _ s.sp.lifts) same
    rw [one]
    exact h
  next => exact Lift.Kept.refl _

theorem liftsKept_dropReader (s : State) (st : Nat) (p : Nat × Nat) : LiftsKept s (s.dropReader st p) := by
  refine liftsKept_setLift ⟨rfl, fun n held => ?_⟩
  show nth 0 (if _ then setNth (s.lift st p.1).chairs p.2 0 else (s.lift st p.1).chairs) n = _
  split
  next last =>
    refine (getD_setNth _ _ _ _).trans (if_neg fun same => held ?_)
    rw [same]
    exact last.2
  next => rfl
theorem lifts_readyLines (s : State) (f : Flight) : (s.readyLines f).sp.lifts = s.sp.lifts :=
  foldl_keeps (g := fun u : State => u.sp.lifts) (fun u l => by dsimp only; split <;> rfl) _ s
theorem frame_setFlights (s : State) (l : List Flight) : Frame [.sq] s (s.setFlights l) := frame_upd_sq s _
theorem liftsKept_endFlight (s : State) (f : Flight) : LiftsKept s (s.endFlight f) :=
  ((liftsKept_of_lifts (lifts_readyLines s f)).trans (liftsKept_foldl (fun u p => liftsKept_dropReader u f.st p) _ _)).trans
    (frame_setFlights _ _).liftsKept
theorem liftsKept_endFlightsOf (s : State) (c : Nat) : LiftsKept s (s.endFlightsOf c) := by
  refine liftsKept_foldl (fun u f => liftsKept_ite (LiftsKept.refl u) ?_) _ s
  split
  · exact LiftsKept.refl u
  · exact (frame_setFlights u _).liftsKept
  · exact (liftsKept_of_lifts (lifts_readyLines u f)).trans (frame_setFlights _ _).liftsKept
  · exact liftsKept_endFlight u f

/-- Undefined bytes go to memory, or to elements of a buffer (R297). -/
theorem frame_fillFree (s : State) (c : Nat) (v : View) : Frame (carryParts ++ [.free]) s (s.fillFree c v) := by
  have drawn : Frame (carryParts ++ [.free]) s s.nextFree := (frame_upd_free s _).mono (by simp)
  unfold State.fillFree
  dsimp only
  split
  next buffer => exact drawn.trans (frame_foldl (fun u i => (carries_putLine u c buffer _ _ _ _ _).frame.mono (by simp)) _ _)
  next => exact drawn.trans (frame_foldl (fun u p => (frame_putBytes u c v _ _).mono (by simp)) _ _)
theorem liftsKept_voidColl (s : State) (f : Flight) : LiftsKept s (s.voidColl f) := by
  unfold State.voidColl
  split
  · exact ((frame_fillFree s _ _).liftsKept.trans (liftsKept_endFlight _ _)).trans (frame_postOpt _ _ _).liftsKept
  · exact LiftsKept.refl s
theorem liftsKept_broadcast (s : State) (b type : Nat) (args : List Nat) (data : List Byte) : LiftsKept s (s.broadcast b type args data) :=
  liftsKept_foldl (fun u _ => liftsKept_ite (LiftsKept.refl u) (sends_send u _ _ _ _ _ _ _ _).frame.liftsKept) _ s
theorem liftsKept_abortJob (s : State) (b : Nat) : LiftsKept s (s.abortJob b) := by
  refine liftsKept_ite ?_ (LiftsKept.refl s)
  have sent := liftsKept_broadcast s b 0x23 [b, (s.job b).step] []
  have logged : ∀ u : State, LiftsKept u (((u.colLog 0x0B b 0 0 0 0 (s.job b).step).raise 4 0xE0 11).taint b) := fun u =>
    ((frame_colLog u _ _ _ _ _ _ _).liftsKept.trans (frame_raise _ _ _ _).liftsKept).trans (frame_taint _ _).liftsKept
  refine ((sent.trans (logged _)).trans (frame_setJob _ _ _).liftsKept).trans (liftsKept_foldl (fun u f => ?_) _ _)
  split
  · exact liftsKept_ite (liftsKept_voidColl u f) (LiftsKept.refl u)
  · exact LiftsKept.refl u
theorem liftsKept_faultCtx (s : State) (c code type : Nat) : LiftsKept s (s.faultCtx c code type) := by
  have stopped : ∀ (u : State) n q, LiftsKept u (((u.setSeq (stoveOf c) n q).switchSlot (stoveOf c) (u.seq (stoveOf c) n).slot).drainHalf
      (stoveOf c) (u.seq (stoveOf c) n).slot (u.seq (stoveOf c) n).half) := fun u n q =>
    ((frame_setSeq u _ _ _).liftsKept.trans (sameFlights_switchSlot _ _ _).frame.liftsKept).trans
      (sameFlights_drainHalf _ _ _ _).frame.liftsKept
  unfold State.faultCtx
  extract_lets x u st v w mine ar y running e
  have ended : LiftsKept s w :=
    (((frame_setCtx s c _).liftsKept.trans (liftsKept_foldl (fun u n => liftsKept_ite (stopped u n _) (LiftsKept.refl u)) _ _)).trans
      (liftsKept_endFlightsOf v c)).trans (frame_raise _ _ _ _).liftsKept
  have left : LiftsKept s e := by
    refine (ended.trans (frame_upd_ar w _).liftsKept).trans (liftsKept_foldl (fun u f => ?_) _ _)
    split
    · exact liftsKept_ite (liftsKept_endFlight u f) (LiftsKept.refl u)
    · exact LiftsKept.refl u
  exact liftsKept_ite (LiftsKept.refl s) (liftsKept_ite (left.trans (liftsKept_abortJob _ _)) left)
/-- A fault of a context ends what its instructions were doing with chairs, and leaves lifts otherwise alone (R115, R246). -/
theorem liftsKept_fail (s : State) (c code type : Nat) : LiftsKept s (s.fail c code type) :=
  (frame_taintCtx s c).liftsKept.trans (liftsKept_faultCtx _ _ _ _)

-- An uncorrectable error at a fill (R105, R106, R241)

theorem liftsKept_retireGran (s : State) (k : Nat) : LiftsKept s (s.retireGran k) := by
  unfold State.retireGran
  extract_lets _ u
  have noted : LiftsKept s u := liftsKept_of_lifts rfl
  exact (noted.trans (kindlerOnly_jnl u 3 [1, k / 384, k % 384, 2] []).frame.liftsKept).trans (frame_upd_kd _ _).liftsKept
theorem liftsKept_granError (s : State) (st c x : Nat) : LiftsKept s (s.granError st c x) := by
  unfold State.granError
  extract_lets k n _ v _ w y
  have logged : LiftsKept s y :=
    (liftsKept_of_lifts (s := s) (t := w) rfl).trans ((frame_spdLog w _ _ _ _ _ _ _).liftsKept.trans (frame_raise _ _ _ _).liftsKept)
  exact liftsKept_ite (liftsKept_ite logged (logged.trans (liftsKept_retireGran _ _))) (liftsKept_of_lifts rfl)
theorem liftsKept_spdUe (s : State) (st c x syndrome : Nat) (k : Consumer) : LiftsKept s (s.spdUe st c x syndrome k) :=
  ((((frame_bump s _ _ _).liftsKept.trans (frame_countU _ _ _ _).liftsKept).trans (frame_spdLog _ _ _ _ _ _ _ _).liftsKept).trans
    (frame_raise _ _ _ _).liftsKept).trans (liftsKept_granError _ _ _ _)
theorem liftsKept_tierUe (s : State) (a ctx code syndrome cls : Nat) : LiftsKept s (s.tierUe a ctx code syndrome cls) := by
  have counted : LiftsKept s (s.tierUeCount a) :=
    liftsKept_ite (((frame_bump s _ _ _).liftsKept.trans (frame_countU _ _ _ _).liftsKept).trans (frame_raise _ _ _ _).liftsKept)
      (((frame_bump s _ _ _).liftsKept.trans (frame_countU _ _ _ _).liftsKept).trans (frame_raise _ _ _ _).liftsKept)
  exact counted.trans (liftsKept_ite (frame_logErr _ _ _ _).liftsKept (frame_hbmLog _ _ _ _ _ _ _ _ _ _).liftsKept)
theorem readEcc_ue_spd {v : View} (h : v.place = .spd) (s : State) (x : Src) (off unit : Nat) (k : Consumer) (write : Bool) :
    s.readEcc x v off .ue k unit write =
      ((s.markBad (s.byteAddr x.ctx v off)).denied x (.spd (s.byteAddr x.ctx v off) k) write, false) := by
  unfold State.readEcc
  rw [h]
theorem readEcc_ue_virt {v : View} (h : v.place = .virt) (s : State) (x : Src) (off unit : Nat) (k : Consumer) (write : Bool) :
    s.readEcc x v off .ue k unit write =
      ((s.markBad (s.byteAddr x.ctx v off)).denied x (.word (s.byteAddr x.ctx v off)) write, false) := by
  unfold State.readEcc
  rw [h]
theorem liftsKept_denied_spd (s : State) (x : Src) (a : Nat) (k : Consumer) (write : Bool) : LiftsKept s (s.denied x (.spd a k) write) :=
  ((frame_upd_free s _).liftsKept.trans (liftsKept_spdUe s.nextFree x.st x.ctx _ _ k)).trans (liftsKept_fail _ x.ctx 2 3)
theorem liftsKept_denied_word (s : State) (x : Src) (a : Nat) (write : Bool) : LiftsKept s (s.denied x (.word a) write) :=
  ((frame_upd_free s _).liftsKept.trans (liftsKept_tierUe s.nextFree a x.ctx _ _ _)).trans (liftsKept_fail _ x.ctx _ _)
/-- An uncorrectable byte of a view in memory stops what reads it, and leaves lifts alone but for chairs that its context held. -/
theorem readEcc_ue {v : View} (h : v.place ≠ .rb) (s : State) (x : Src) (off unit : Nat) (k : Consumer) (write : Bool) :
    (s.readEcc x v off .ue k unit write).2 = false ∧ LiftsKept s (s.readEcc x v off .ue k unit write).1 := by
  have marked : LiftsKept s (s.markBad (s.byteAddr x.ctx v off)) := liftsKept_of_lifts rfl
  cases place : v.place with
  | spd =>
    rw [readEcc_ue_spd place]
    dsimp only
    exact ⟨rfl, marked.trans (liftsKept_denied_spd _ _ _ _ _)⟩
  | virt =>
    rw [readEcc_ue_virt place]
    dsimp only
    exact ⟨rfl, marked.trans (liftsKept_denied_word _ _ _ _)⟩
  | rb => exact absurd place h

end Sys2Proof.Machine

/-! Fills of chairs, and their ends (R109 to R111, R115). -/

namespace Sys2Proof.Machine

-- A lift's set-up on the way of a fill (R96, R108)

theorem findLift_lt {s : State} {c n k : Nat} (h : s.findLift c n = some k) : k < 128 := List.mem_range.1 (List.mem_of_find?_eq_some h)
/-- A slip changes no register but the count of slips and the source entry of its page. -/
theorem rd_slip_other (s : State) (x : Src) (code epoch line d : Nat) {r : Nat} (hr : r < 0x1000000) (count : r ≠ Reg.SEQ_SLIP_TOTAL)
    (source : r ≠ Reg.UCI_SRC_p_CTRL + 8 * 0x10) : (s.slip x code epoch line).rd d r = s.rd d r := by
  unfold State.slip
  dsimp only
  rw [(frame_taintSeq _ _ _ _).rd (by simp)]
  show (State.raise _ _ _ _).rd d r = _
  rw [State.rd_raise_other _ _ _ _ (by decide) hr source]
  exact (State.rd_wr _ _ _ _ _ _).trans (if_neg (regKey_ne hr (by decide) count))
theorem liftCfg_readLines (s : State) (x : Src) (ls : List Nat) (st : Nat) {k : Nat} (hk : k < 128) :
    (s.readLines x ls).liftCfg st k = s.liftCfg st k := by
  have same : ∀ r ∈ [Reg.SPD_LIFT_k_CFG, Reg.SPD_LIFT_k_BASE, Reg.SPD_LIFT_k_CHAIR],
      (s.readLines x ls).rd st (liftReg k r) = s.rd st (liftReg k r) := fun r hr => by
    have place : 0x31000 ≤ liftReg k r ∧ liftReg k r < 0x35000 := by
      simp only [List.mem_cons, List.not_mem_nil, or_false] at hr
      unfold Reg.SPD_LIFT_k_CFG Reg.SPD_LIFT_k_BASE Reg.SPD_LIFT_k_CHAIR at hr
      unfold liftReg
      rcases hr with rfl | rfl | rfl <;> omega
    refine foldl_keeps (g := fun u : State => u.rd st (liftReg k r)) (fun u l => ?_) ls s
    dsimp only
    split
    · exact rd_slip_other u x _ _ _ st (by omega) (by unfold Reg.SEQ_SLIP_TOTAL; omega) (by unfold Reg.UCI_SRC_p_CTRL; omega)
    · rfl
  unfold State.liftCfg
  rw [same _ (by simp), same _ (by simp), same _ (by simp)]

-- Copies into scratchpad (R110, R111)

theorem Frame.symm {l : List Part} {s t : State} (h : Frame l s t) : Frame l t s :=
  ⟨fun p hp => by
    have same := h.keep p hp
    cases p <;> exact Eq.symm same⟩
theorem Places.mwr {s t : State} (h : Places s t) (mem : t.mem = s.mem) (a : Nat) (b : Byte) :
    Places (s.mwr a b) (t.mwr a b) ∧ (t.mwr a b).mem = (s.mwr a b).mem := by
  refine ⟨((frame_mwr s a b).symm.reached.places.trans h).trans (frame_mwr t a b).reached.places, ?_⟩
  have seeds : t.seeds = s.seeds := by
    unfold State.seeds
    rw [h.seed, h.tr]
  unfold State.mwr
  rw [h.writable, seeds, mem]
  split
  · rfl
  · exact mem
/-- What bytes put into scratchpad leave of memory depends on memory and its places alone. -/
theorem Places.putBytes {s t : State} (h : Places s t) (mem : t.mem = s.mem) (c : Nat) {v : View} (spd : v.place = .spd) (off : Nat)
    (l : List Byte) : Places (s.putBytes c v off l) (t.putBytes c v off l) ∧ (t.putBytes c v off l).mem = (s.putBytes c v off l).mem := by
  induction l generalizing s t off with
  | nil => exact ⟨h, mem⟩
  | cons b l ih =>
    have byte := h.mwr mem (s.byteAddr c v off) b
    unfold State.putBytes
    rw [if_neg (by simp [spd]), if_neg (by simp [spd]), h.byteAddr]
    exact ih byte.1 byte.2 (off + 1)
theorem Places.copyView {s t : State} (h : Places s t) (mem : t.mem = s.mem) (c : Nat) (v : View) {w : View} (spd : w.place = .spd) :
    (t.copyView c v w).mem = (s.copyView c v w).mem := by
  have rows : ∀ (l : List (List Byte × Nat)) (a b : State), Places a b → b.mem = a.mem →
      let put := fun (u : State) (r : List Byte × Nat) => u.putBytes c w (r.2 * w.stride) r.1
      Places (l.foldl put a) (l.foldl put b) ∧ (l.foldl put b).mem = (l.foldl put a).mem := fun l => by
    induction l with
    | nil => exact fun a b places same => ⟨places, same⟩
    | cons r l ih =>
      intro a b places same
      have row := places.putBytes same c spd (r.2 * w.stride) r.1
      exact ih _ _ row.1 row.2
  unfold State.copyView State.packedRows
  simp only [h.bytesOf mem]
  have both := rows ((List.range v.rows).map fun r => s.bytesOf c v (r * v.stride) (rowBytes v.fmt v.cols)).zipIdx s t h mem
  split
  · exact (both.1.putBytes both.2 c spd _ _).2
  · exact both.2
theorem frame_copyView (s : State) (c : Nat) (v : View) {w : View} (spd : w.place = .spd) : Frame [.mem] s (s.copyView c v w) := by
  have rows := frame_foldl (fun u (r : List Byte × Nat) => frame_putBytes_spd u c spd (r.2 * w.stride) r.1) (s.packedRows c v).zipIdx s
  exact frame_ite (rows.trans (frame_putBytes_spd _ c spd _ _)) rows
/-- A copy into a view of the same shape and format changes that view alone. -/
theorem carries_copyView (s : State) (c : Nat) {v w : View} (rows : w.rows = v.rows) (cols : w.cols = v.cols) (fmt : w.fmt = v.fmt)
    (scales : w.scaleLen = v.scaleLen) : Carries carryParts c w s (s.copyView c v w) := by
  have packed : Carries carryParts c w s
      ((s.packedRows c v).zipIdx.foldl (fun u r => u.putBytes c w (r.2 * w.stride) r.1) s) := by
    refine carries_foldl _ (fun r hr u => carries_putBytes u c fun _ j hj => ?_) s
    obtain ⟨below, row⟩ := List.mem_zipIdx' hr
    have len : r.1.length = rowBytes w.fmt w.cols := by
      rw [row, cols, fmt]
      simp [State.packedRows, State.bytesOf]
    have inside : r.2 < w.rows := by
      rw [rows]
      simpa [State.packedRows] using below
    exact ⟨_, mem_parts_row inside, by dsimp only; omega, by dsimp only; omega⟩
  refine carries_ite (fun scaled_ => packed.trans (carries_putBytes _ c fun _ j hj => ?_)) fun _ => packed
  have len : j < w.scaleLen := by
    rw [scales]
    simpa [State.bytesOf] using hj
  exact ⟨(w.scaleOff, w.scaleLen), by simp [View.parts, fmt, scaled_], by dsimp only; omega, by dsimp only; omega⟩

-- LIFT_FILL (R109 to R111)

/-- The state in which a fill has read its source. -/
def State.fillRead (s : State) (x : Src) (v : View) (a : Opd) : State :=
  let u := s.readLines x (s.viewLines x.ctx v)
  u.reach x.ctx (u.descRanges x [a] ++ v.vranges)

theorem frame_fillRead (s : State) (x : Src) (v : View) (a : Opd) : Frame (reaching slipParts) s (s.fillRead x v a) :=
  ((frame_readLines s x _).mono (by simp)).step (reached_reachAs _ _ _ _ _ _ _ _).frame (by simp [reachParts])
theorem prepares_fillRead (s : State) (x : Src) (v : View) (a : Opd) : Prepares x s (s.fillRead x v a) :=
  (prepares_readLines s _).trans (prepares_reachAs _ _ _ _ _ _ _ _)
theorem liftCfg_fillRead (s : State) (x : Src) (v : View) (a : Opd) (st : Nat) {k : Nat} (hk : k < 128) :
    (s.fillRead x v a).liftCfg st k = s.liftCfg st k := by
  refine Eq.trans ?_ (liftCfg_readLines s x (s.viewLines x.ctx v) st hk)
  unfold State.fillRead State.liftCfg
  simp only [(reached_reachAs _ _ _ _ _ _ _ _).frame.rd (show Part.pg ∉ reachParts by decide), State.reach]

theorem view_chair (s : State) (st sq c n : Nat) (tail : Bool) (f : Fmt) (g : Grain) (z : Nat) (k : Cls) (rows cols : Nat) :
    ∃ a, s.view st sq c (.chair n tail f g z k) rows cols = chairView a f g z k rows cols := by
  cases found : s.findLift c n with
  | none => exact ⟨0, by simp [State.view, found]⟩
  | some h => exact ⟨_, by simp [State.view, found]; rfl⟩

section Fill
variable {s : State} {i : Iss} {a : Opd} {lift c h n : Nat} {k : Cls} {v w : View}

theorem runs_liftFill (issue : s.canIssue i c [.chair lift true v.fmt v.grain v.zp k])
    (source : (s.atIssue i 0x21 c).view i.st i.sq c a 0 0 = v)
    (chair : (s.atIssue i 0x21 c).view i.st i.sq c (.chair lift true v.fmt v.grain v.zp k) v.rows v.cols = w)
    (desc : (s.atIssue i 0x21 c).descFails i.st i.sq c a v false = false) (extent : (s.atIssue i 0x21 c).extentFails c a v = false)
    (memory : v.place ≠ .rb) (named : a.desc = true) (some_ : v.size ≠ 0) (merge : (s.atIssue i 0x21 c).mergeView c v = false)
    (tail : (s.atIssue i 0x21 c).chairOf c (.chair lift true v.fmt v.grain v.zp k) = some (h, n, true))
    (producer : ((s.atIssue i 0x21 c).liftCfg i.st h).producer = 0)
    (fits : w.extent - w.addr ≤ ((s.atIssue i 0x21 c).liftCfg i.st h).size) :
    Runs (.liftFill i a (.chair lift true v.fmt v.grain v.zp k)) s
      (((((s.atIssue i 0x21 c).fillRead (s.srcOf i 0x21 c) v a).claimTail i.st h).copyView c v w).launch i (s.srcOf i 0x21 c) [] []
        (.fill h n v w)) := by
  show execLiftFill i a _ s = _
  unfold execLiftFill
  rw [begin_atIssue issue 0x21]
  simp only [srcOf_st, srcOf_sq, srcOf_ctx, source, chair, desc, extent, memory, named, some_, merge, tail, producer,
    Nat.not_lt.2 fits, if_false, Bool.false_eq_true, ne_eq, not_true_eq_false, or_self, Bool.not_true]
  rfl

/-- A fill that has read its source claims the tail chair, packs the source into it, and enters its queue (R109, R111). -/
theorem liftFill_launches (rows : w.rows = v.rows) (cols : w.cols = v.cols) (fmt : w.fmt = v.fmt) (scales : w.scaleLen = v.scaleLen)
    (spd : w.place = .spd) (hk : h < 128) :
    let u := s.atIssue i 0x21 c
    let t := (((u.fillRead (s.srcOf i 0x21 c) v a).claimTail i.st h).copyView c v w).launch i (s.srcOf i 0x21 c) [] [] (.fill h n v w)
    ∃ fl, Launches s t i c fl ∧ fl.body = .fill h n v w ∧
      t.lift i.st h = { s.lift i.st h with
        chairs := setNth (s.lift i.st h).chairs (s.lift i.st h).tail 1
        tail := ((s.lift i.st h).tail + 1) % (u.liftCfg i.st h).chairs } ∧
      t.mem = (u.copyView c v w).mem ∧ MemOutside s t c [w] ∧ Frame (reaching [.pg, .mem, .sq, .sp, .sw, .out]) s t := by
  intro u t
  have issued := frame_atIssue s i 0x21 c
  have read := prepares_fillRead u (s.srcOf i 0x21 c) v a
  have kept := frame_fillRead u (s.srcOf i 0x21 c) v a
  have claimed : Frame [.sp] _ ((u.fillRead (s.srcOf i 0x21 c) v a).claimTail i.st h) := frame_setLift _ _ _ _
  have places : Places u ((u.fillRead (s.srcOf i 0x21 c) v a).claimTail i.st h) :=
    read.places.trans ⟨rfl, fun _ _ => rfl, fun _ => rfl, fun _ => rfl, rfl, rfl⟩
  have mem : ((u.fillRead (s.srcOf i 0x21 c) v a).claimTail i.st h).mem = u.mem :=
    (claimed.mem (by simp)).trans (kept.mem (by simp [reachParts]))
  have copied := frame_copyView ((u.fillRead (s.srcOf i 0x21 c) v a).claimTail i.st h) c v spd
  have carried := carries_copyView ((u.fillRead (s.srcOf i 0x21 c) v a).claimTail i.st h) c rows cols fmt scales
  have marks : Marks i.st i.sq u _ := (read.marks.trans claimed.marks).trans copied.marks
  have all := (places_atIssue s i 0x21 c).trans places
  refine ⟨_, marks.launches _ _ _, rfl, ?_, places.copyView mem c v spd, fun b outside => ?_, ?_⟩
  · have before : (u.fillRead (s.srcOf i 0x21 c) v a).lift i.st h = s.lift i.st h :=
      (kept.lift (by simp [reachParts]) _ _).trans (issued.lift (by simp) _ _)
    refine ((copied.lift (by simp) _ _).trans (State.lift_setLift_same _ _ _ _)).trans ?_
    rw [before, liftCfg_fillRead u _ _ _ _ hk]
  · refine (carried.mem (by simp [spd]) b fun r hr j hj => ?_).trans (all.mrd (mem.trans (issued.mem (by simp))) b)
    rw [all.byteAddr]
    exact outside w (by simp) r hr j hj
  · exact (((((issued.mono (by simp [reachParts])).step kept (by simp [reachParts])).step claimed (by simp)).step copied (by simp)).step
      (frame_launch _ _ _ _ _ _) (by simp))

end Fill

-- The end of a fill (R109, R111, R115)

theorem frame_endFlight (s : State) (f : Flight) : Frame [.sp, .sq] s (s.endFlight f) := by
  have ready : Frame [.sp, .sq] s (s.readyLines f) :=
    frame_foldl (fun u _ => frame_ite ((frame_upd_sp u _).mono (by simp)) (Frame.refl u)) _ s
  exact (ready.trans (frame_foldl (fun u _ => (frame_setLift u _ _ _).mono (by simp)) _ _)).step (frame_setFlights _ _)
theorem flight_putFlight {s : State} {f g : Flight} (there : f ∈ s.sq.flights) (same : g.id = f.id) :
    (s.putFlight g).flight f.id = some g := by
  show (s.sq.flights.map fun e => if e.id = g.id then g else e).find? (fun e => e.id == f.id) = some g
  rw [List.find?_map]
  cases found : s.sq.flights.find? ((fun e => e.id == f.id) ∘ fun e => if e.id = g.id then g else e) with
  | none => exact absurd (List.find?_eq_none.1 found f there) (by simp [same])
  | some e =>
    have its := List.find?_some (p := (fun e : Flight => e.id == f.id) ∘ fun e => if e.id = g.id then g else e) found
    dsimp only [Function.comp] at its
    by_cases h : e.id = g.id
    · simp [h]
    · rw [if_neg h] at its
      exact absurd ((beq_iff_eq.1 its).trans same.symm) h
theorem readEcc_ok (s : State) (x : Src) (v : View) (off unit : Nat) (k : Consumer) (write : Bool) :
    s.readEcc x v off .ok k unit write = (s, true) := rfl
theorem place_fillSpot {v w : View} (hv : v.place ≠ .rb) (hw : w.place ≠ .rb) (s : State) (c : Nat) :
    (s.fillSpot c v w).1.place ≠ .rb := by
  unfold State.fillSpot
  dsimp only
  split
  · exact hw
  · exact hv

/-- The state in which a fill has left its chair FULL. -/
def State.fillFull (s : State) (st k n : Nat) (f : Flight) (w : View) : State := (s.renewSpd f.ctx [w]).chairFull st k n
/-- The state in which the flight of a fill that left its chair FULL waits for its completion, or is gone with its context's binding. -/
def State.fillLeft (s : State) (f : Flight) : State :=
  if (s.ctx f.ctx).state = 4 ∨ !(s.ctx f.ctx).isBound then s.endFlight f else s.putFlight { f with body := .plain }
theorem liftsKept_fillLeft (s : State) (f : Flight) : LiftsKept s (s.fillLeft f) :=
  liftsKept_ite (liftsKept_endFlight s f) (frame_setFlights s _).liftsKept
theorem frame_fillLeft (s : State) (f : Flight) : Frame [.sp, .sq] s (s.fillLeft f) :=
  frame_ite (frame_endFlight s f) ((frame_setFlights s _).mono (by simp))
theorem fillLeft_running {s : State} {f : Flight} (running : (s.ctx f.ctx).state ≠ 4) (bound : (s.ctx f.ctx).isBound = true) :
    s.fillLeft f = s.putFlight { f with body := .plain } := if_neg (by simp [running, bound])

section Completion
variable {s : State} {st k n : Nat} {f : Flight} {v w : View}
  (found : s.sq.flights.find? (fun f => match f.body with | .fill a b .. => f.st == st && a == k && b == n | _ => false) = some f)
  (body : f.body = .fill k n v w)
include found body

theorem runs_chairFill_ok (mem : s.memBad f.st f.ctx v.vranges false = none) (source : s.spdBad f.ctx [v] false = none)
    (chair : s.spdBad f.ctx [w] true = none) : Runs (.chairFillComplete st k n .ok) s
      ((s.fillFull st k n f w).fillLeft f) := by
  show execChairFillComplete st k n .ok s = _
  unfold execChairFillComplete
  extract_lets mine
  have here : s.sq.flights.find? mine = some f := found
  rw [here]
  simp only [body, readEcc_ok, source, chair, mem, Option.orElse_eq_orElse, if_true]
  rfl
theorem runs_chairFill_ue (hv : v.place ≠ .rb) (hw : w.place ≠ .rb) :
    ∃ u, LiftsKept s u ∧ Runs (.chairFillComplete st k n .ue) s ((u.chairError st k n).endFlight f) := by
  have stops := readEcc_ue (place_fillSpot hv hw s f.ctx) s f.src (s.fillSpot f.ctx v w).2.1 0 1 (s.fillSpot f.ctx v w).2.2
  refine ⟨_, stops.2, ?_⟩
  show execChairFillComplete st k n .ue s = _
  unfold execChairFillComplete
  extract_lets mine
  have here : s.sq.flights.find? mine = some f := found
  rw [here]
  simp only [body]
  generalize s.readEcc f.src _ _ .ue 1 0 _ = y at stops ⊢
  obtain ⟨u, go⟩ := y
  obtain rfl : go = false := stops.1
  rfl

end Completion

theorem lift_chairFull_same (s : State) (st k n : Nat) : (s.chairFull st k n).lift st k =
    { s.lift st k with chairs := setNth (s.lift st k).chairs n 2, fills := ((s.lift st k).fills + 1) % 2 ^ 24 } :=
  State.lift_setLift_same _ _ _ _
theorem lift_chairError_same (s : State) (st k n : Nat) : (s.chairError st k n).lift st k =
    { s.lift st k with chairs := setNth (s.lift st k).chairs n 0, errFills := satAdd 255 (s.lift st k).errFills 1 } :=
  State.lift_setLift_same _ _ _ _
theorem frame_renewSpd (s : State) (c : Nat) (vs : List View) : Frame [.tr] s (s.renewSpd c vs) :=
  frame_ite (frame_upd_tr s _) (Frame.refl s)
theorem reached_fillFull (s : State) (st k n : Nat) (f : Flight) (w : View) : Reached [.tr, .cx, .sp] s (s.fillFull st k n f w) :=
  (((Reached.refl s).step (frame_renewSpd s f.ctx [w]).reached).step (reached_wakeStove _ st)).step (frame_setLift _ _ _ _).reached
theorem lift_fillFull_same (s : State) (st k n : Nat) (f : Flight) (w : View) : (s.fillFull st k n f w).lift st k =
    { s.lift st k with chairs := setNth (s.lift st k).chairs n 2, fills := ((s.lift st k).fills + 1) % 2 ^ 24 } := by
  refine (lift_chairFull_same _ _ _ _).trans ?_
  rw [(frame_renewSpd s _ _).lift (by simp)]

/-- Settles O20: a fill claims its chair and packs its source as it issues, and its end leaves the chair FULL, or EMPTY after an
uncorrectable error, whatever else the error ends (R115). -/
theorem liftFills : Obligations.LiftFills := by
  refine ⟨?_, ?_, ?_⟩
  · intro i a lift f g z cls c h n s b issue u v w desc extent memory named some_ merge tail producer fits fmt grain zp
    obtain rfl := fmt
    obtain rfl := grain
    obtain rfl := zp
    obtain ⟨a', chair⟩ := view_chair u i.st i.sq c lift true v.fmt v.grain v.zp cls v.rows v.cols
    have packed : w = chairView a' v.fmt v.grain v.zp cls v.rows v.cols := chair
    have hk : h < 128 := by
      obtain ⟨k, found, same⟩ := Option.map_eq_some_iff.1 (show (u.findLift c lift).map _ = some (h, n, true) from tail)
      obtain rfl : k = h := congrArg Prod.fst same
      exact findLift_lt found
    obtain ⟨fl, launches, body, changed, mem, outside, frame⟩ := liftFill_launches (s := s) (i := i) (a := a) (c := c) (n := n) (v := v)
      (w := w) (by rw [packed]; rfl) (by rw [packed]; rfl) (by rw [packed]; rfl) (by rw [packed]; rfl) (by rw [packed]; rfl) hk
    refine ⟨_, fl, runs_liftFill issue rfl rfl desc extent memory named some_ merge tail producer fits, launches, body, ?_, ?_, ?_, mem,
      outside, frame⟩
    · rw [changed]
    · rw [changed]
      exact (chair_setNth _ _ _ _).trans (if_pos rfl)
    · rw [changed]
  · intro st k n f v w s found body mem source chair
    have full := reached_fillFull s st k n f w
    have lifted := lift_fillFull_same s st k n f w
    have filled : ((s.fillFull st k n f w).lift st k).chair n = 2 := by
      rw [lifted]
      exact (chair_setNth _ _ _ _).trans (if_pos rfl)
    refine ⟨_, runs_chairFill_ok found body mem source chair, ?_⟩
    generalize s.fillFull st k n f w = u at full lifted filled ⊢
    have left := liftsKept_fillLeft u f st k
    refine ⟨(left.chair n (by simp [filled])).trans filled, ?_, ?_, ?_,
      ((frame_fillLeft u f).mem (by simp)).trans (full.frame.mem (by simp)), fun running bound => ?_⟩
    · rw [left.record, lifted]
    · rw [left.record, lifted]
    · rw [left.record, lifted]
    · rw [fillLeft_running (by rwa [full.ctx]) (by rwa [full.ctx])]
      refine flight_putFlight ?_ rfl
      rw [full.frame.sq (by simp)]
      exact List.mem_of_find?_eq_some found
  · intro st k n f v w s found body hv hw
    obtain ⟨u, kept, runs⟩ := runs_chairFill_ue found body hv hw
    have error := lift_chairError_same u st k n
    have left := liftsKept_endFlight (u.chairError st k n) f st k
    refine ⟨_, runs, ?_, ?_, ?_⟩
    · have empty : ((u.chairError st k n).lift st k).chair n = 0 := by
        rw [error]
        exact (chair_setNth _ _ _ _).trans (if_pos rfl)
      exact (left.chair n (by simp [empty])).trans empty
    · rw [left.record, error, (kept st k).record]
    · rw [left.record, error, (kept st k).record]

end Sys2Proof.Machine

/-! A row operation that the statements do not exclude: its second output is named by a descriptor in memory that lies in its first. -/

namespace Sys2Proof.Machine

/-- An issue of sequencer 0 of stove 1, without a wait or a post. -/
def stoveOneIssue : Iss := ⟨1, 0, 0, false, 0, false, 0, false, .ok, .ok, 0, 0⟩

/-- A FINISH of two rows of handle 7. Its first output is I4U with zero point 2, so that a zero is stored as code 2, one in the first byte
and one in the seventh from 0x1000 on; its second has its descriptor in memory. -/
def finishRows : RowOps := ⟨7, 0, 0, 2, .none, .none, .direct 0x1000 6 .i4u .lin16 2 .act, .mem 2, .none⟩

/-- Context 1025, which runs on sequencer 0 of stove 1 in slot `b`, has a page whose frame is its own granule of scratchpad. There, at
0x1000, lies the descriptor of a column of two N16 values in scratchpad: once the first output of `finishRows` stands in its first bytes,
it names element 0x8002 of the slot's reduction buffer (R76). The buffer has no ways, and its line 512 is spilled to context 0's virtual
address 0 on, at the start of the cold tier (R144). A claim on the first output's line is pending. -/
def selfDescribed (b : Nat) : State :=
  let s := (State.reset.setCtx 1025
    { valid := true, state := 2, slot := b, aspace := 1, isBound := true, granules := [0], seqs := [0] }).setSeq 1 0
    { state := 1, ctx := some 1025, pc := 0x400, sregs := [(2, 0x1000)] }
  let u := (s.setHandle 1 7 { valid := true, kind := 2, ctx := 1025, rows := 2 }).setTag 1 16 { pending := true }
  { u with
    tr := { u.tr with ptes := [(0, { valid := true, write := true, frame := 2 ^ 20 }), (2 ^ 27, { valid := true, frame := 0x200200 })] }
    mem := [(1, 0x80), (11, 9), (12, 0x80), (16, 1), (20, 1), (24, 2), (28, 1), (40, 2), (44, 1), (48, 1), (56, 16)].map fun p =>
      (spdBase + 0x40001000 + p.1, p.2) }

/-- A slot number, far above the eight slots, under which the SIZE register of stove 0's buffers (R157) has the storage of stove 1's count
of slips (R100). -/
def slipSlot : Nat := (0x1000000 + Reg.SEQ_SLIP_TOTAL - Reg.HTH_RB_b_SIZE) / 32

/-- The FINISH is in order: its descriptor is valid as it issues, and both outputs lie in scratchpad. -/
theorem rowReady_selfDescribed : ∀ b ∈ [0, slipSlot], RowReady (selfDescribed b) .finish stoveOneIssue finishRows 1025 := fun b hb =>
  { word := rfl
    issue := by
      revert b
      decide +kernel
    shape := by
      revert b
      decide +kernel
    checks := by
      revert b
      decide +kernel
    data := by
      revert b
      decide +kernel }

/-- The second output goes into the buffer, and with it the line's tag record into the spill region (R144). -/
theorem mrd_finish_selfDescribed : (selfDescribed 0).mrd (coldBase + 8195) = 0 ∧
    (Res.after (exec (.finish stoveOneIssue finishRows) (selfDescribed 0)) (selfDescribed 0)).mrd (coldBase + 8195) = 1 := by
  decide +kernel

/-- No byte of the spill region lies in an output as issue finds it. -/
theorem outside_outputs_selfDescribed :
    let s := selfDescribed 0
    let x := s.srcOf stoveOneIssue 0x30 1025
    let u := s.atIssue stoveOneIssue 0x30 1025
    ∀ v ∈ (u.rowViews x .finish finishRows (u.rowShape x .finish finishRows)).outs.map (·.2), ∀ r ∈ v.parts, ∀ j, j < r.2 →
      coldBase + 8195 ≠ s.byteAddr 1025 v (r.1 + j) := by
  decide +kernel

/-- Refutes O23: a row operation writes memory only in the outputs that issue finds where none of them covers the descriptor of another,
and the statement has no hypothesis that it does not; in `selfDescribed` the second output of a FINISH ends in a reduction buffer's spill
region. -/
theorem not_rowOperations : ¬ Obligations.RowOperations := by
  intro h
  obtain ⟨rows, -⟩ := h
  obtain ⟨-, -, -, -, -, -, -, -, -, finish, -⟩ := rows stoveOneIssue finishRows 1025 (selfDescribed 0) rfl
  have ready := rowReady_selfDescribed 0 (by decide)
  obtain ⟨t, fl, runs, -, -, -, -, -, outside, -⟩ := finish ready.issue ready.shape ready.checks.1 ready.checks.2 ready.data
  obtain ⟨before, after⟩ := mrd_finish_selfDescribed
  have kept := outside _ outside_outputs_selfDescribed
  rw [← runs.after, after, before] at kept
  exact absurd kept (by decide)

/-- The claim of the first output's line slips before the outputs are stored, and under `slipSlot` the count of that slip is the size by
which the buffer's tag records are placed (R96, R144). -/
theorem mem_finish_slipSlot :
    (Res.after (exec (.finish stoveOneIssue finishRows) (selfDescribed slipSlot)) (selfDescribed slipSlot)).mem ≠
      ((selfDescribed slipSlot).rowOutputs .finish stoveOneIssue finishRows 1025).1.mem := by
  decide +kernel

/-- Refutes O60: a FINISH leaves of memory what its function gives in the state at issue where its outputs depend on no register that a
slip counts in, and the statement bounds neither slots nor what an output may cover; in `selfDescribed slipSlot` the count of the slip
moves the tag record of the buffer that the second output goes into. -/
theorem not_rowsAndCollectivesComplete : ¬ Obligations.RowsAndCollectivesComplete := by
  intro h
  obtain ⟨rows, -⟩ := h
  obtain ⟨-, -, -, -, -, -, -, -, -, finish, -⟩ := rows stoveOneIssue finishRows 1025 (selfDescribed slipSlot)
  obtain ⟨t, runs, done⟩ := finish (rowReady_selfDescribed slipSlot (by decide))
  have after : Res.after (exec (.finish stoveOneIssue finishRows) (selfDescribed slipSlot)) (selfDescribed slipSlot) = t :=
    Runs.after runs
  exact mem_finish_slipSlot (after ▸ done.memory)

end Sys2Proof.Machine


/-! Atomic windows (R154, R157): pinned pages, the windows that HTH_AW_BOUND shows, and the lines that a flush writes back. -/

namespace Sys2Proof.Machine

-- Lines written back and pages that move (R142, R235)

theorem frame_cleanLines (s : State) (p : HLine → Bool) : Frame [.ca] s (s.cleanLines p) :=
  (frame_foldl (fun u _ => (frame_hthBump u _ _ _).trans (frame_serve _ _ _)) _ s).trans (frame_upd_ca _ _)
theorem frame_dropLines (s : State) (p : HLine → Bool) : Frame [.ca] s (s.dropLines p) :=
  (frame_cleanLines s p).trans (frame_upd_ca _ _)
theorem lines_serve (s : State) (a cls : Nat) : (s.serve a cls).ca.lines = s.ca.lines := by
  unfold State.serve
  split <;> rfl
/-- Lines that are written back stay, and are dirty no more. -/
theorem lines_cleanLines (s : State) (p : HLine → Bool) :
    (s.cleanLines p).ca.lines = s.ca.lines.map fun h => if p h then { h with dirty := false } else h :=
  congrArg (List.map _) (foldl_keeps (g := fun u : State => u.ca.lines) (fun u _h => lines_serve (u.hthBump _ 5 1) _ _) _ s)
theorem frame_dropTlb (s : State) (p : Tlb → Bool) : Frame [.ca, .tr] s (s.dropTlb p) :=
  ((Frame.refl s).step (frame_upd_ca s _)).trans (frame_foldl (fun u _ => (frame_addCount u _ _ _).mono (by simp)) _ _)
theorem frame_startMove (s : State) (st owner page : Nat) (toCold : Bool) (frame : Nat) :
    Frame [.ca, .tr] s (s.startMove st owner page toCold frame) :=
  (((frame_dropTlb s _).step (frame_dropLines _ _)).step (frame_setPte _ _ _ _)).step (frame_upd_tr _ _)

-- Pinned pages (R154)

theorem frame_pinRange (s : State) (c va len : Nat) (up : Bool) : Frame [.tr] s (s.pinRange c va len up) :=
  frame_ite (Frame.refl s) (frame_foldl (fun u _ => frame_ite (frame_setPte u _ _ _) (Frame.refl u)) _ s)
theorem frame_pinMove (s : State) (st owner page : Nat) : Frame [.ca, .tr] s (s.pinMove st owner page) := by
  unfold State.pinMove
  refine frame_ite ?_ (Frame.refl s)
  split
  · exact frame_startMove s _ _ _ _ _
  · exact Frame.refl s
theorem frame_pinHbm (s : State) (st c va len : Nat) : Frame [.ca, .tr] s (s.pinHbm st c va len) :=
  ((frame_pinRange s c va len true).mono (by simp)).trans (frame_foldl (fun u _ => frame_pinMove u _ _ _) _ _)

-- Windows (R154)

theorem State.awin_setAwin (s : State) (a b c d : Nat) (v : AWin) :
    (s.setAwin a b v).awin c d = if 16 * c + d = 16 * a + b then v else s.awin c d := by
  unfold State.awin State.setAwin
  exact tabGet_tabSet _ _ _ _ _
@[simp] theorem State.awin_setAwin_same (s : State) (a b : Nat) (v : AWin) : (s.setAwin a b v).awin a b = v := by
  simp [State.awin_setAwin]
theorem State.awin_setAwin_other (s : State) {a b c d : Nat} (v : AWin) (h : 16 * c + d ≠ 16 * a + b) :
    (s.setAwin a b v).awin c d = s.awin c d := by
  rw [State.awin_setAwin, if_neg h]
theorem frame_setAwin (s : State) (a b : Nat) (v : AWin) : Frame [.ht] s (s.setAwin a b v) := frame_upd_ht s _
theorem Frame.awin {l : List Part} {s t : State} (f : Frame l s t) (h : .ht ∉ l) (a b : Nat) : t.awin a b = s.awin a b := by
  unfold State.awin
  rw [f.ht h]

-- What HTH_AW_BOUND shows (R157)

theorem pack_append (l m : List (Nat × Nat)) : pack (l ++ m) = pack l + pack m := by
  induction l with
  | nil => exact (BitVec.zero_add _).symm
  | cons p l ih => rw [List.cons_append, pack, pack, ih, BitVec.add_assoc]
theorem bitOf_eq_testBit (n k : Nat) : bitOf n k = n.testBit k := by
  rw [Nat.testBit_eq_decide_div_mod_eq]
  rfl
/-- A word of flags, each at the place of its number, has them as its bits. -/
theorem pack_flags (p : Nat → Bool) (n : Nat) (hn : n ≤ 32) :
    let v := (pack ((List.range n).map fun k => (b2n (p k), k))).toNat
    v < 2 ^ n ∧ ∀ k, k < n → bitOf v k = p k := by
  induction n with
  | zero => exact ⟨Nat.one_pos, fun k hk => absurd hk (Nat.not_lt_zero k)⟩
  | succ n ih =>
    obtain ⟨below, bits⟩ := ih (by omega)
    have flag : b2n (p n) ≤ 1 := by cases p n <;> decide
    have last : b2n (p n) * 2 ^ n ≤ 2 ^ n := mul_le_of_le_one_left (Nat.zero_le _) flag
    have fits : 2 ^ (n + 1) ≤ 2 ^ 32 := Nat.pow_le_pow_right (by decide) hn
    have double : 2 ^ (n + 1) = 2 ^ n + 2 ^ n := by omega
    rw [List.range_succ, List.map_append, pack_append, List.map_singleton]
    generalize pack ((List.range n).map fun k => (b2n (p k), k)) = w at below bits ⊢
    have sum : (w + pack [(b2n (p n), n)]).toNat = 2 ^ n * b2n (p n) + w.toNat := by
      simp only [pack, w32, BitVec.ofNat_eq_ofNat, BitVec.add_zero, BitVec.toNat_add, BitVec.toNat_ofNat]
      rw [Nat.mod_eq_of_lt (a := b2n (p n) * 2 ^ n) (by omega), Nat.mod_eq_of_lt (by omega)]
      ring
    dsimp only
    rw [sum]
    refine ⟨by rw [Nat.mul_comm]; omega, fun k hk => ?_⟩
    rw [bitOf_eq_testBit, Nat.testBit_two_pow_mul_add _ below]
    split
    next low => rw [← bitOf_eq_testBit, bits k low]
    next =>
      obtain rfl : k = n := by omega
      rw [Nat.sub_self]
      cases p k <;> rfl
theorem frame_showBound (s : State) (st : Nat) : Frame [.pg] s (s.showBound st) := frame_wr s _ _ _
/-- HTH_AW_BOUND shows which of the stove's 16 windows are bound. -/
theorem bitOf_showBound (s : State) (st : Nat) {w : Nat} (hw : w < 16) :
    bitOf ((s.showBound st).rdN st Reg.HTH_AW_BOUND) w = (s.awin st w).bound := by
  unfold State.showBound State.rdN
  rw [State.rd_wr_same]
  exact (pack_flags (fun w => (s.awin st w).bound) 16 (by decide)).2 w hw

-- Window commands and the flush (R154, R157)

/-- A write to a page of the hearth that is taken goes on in the state as it is. -/
theorem regGuard_hth {s : State} {ag : Agent} {st page : Nat} {v : W32} (hst : st < 4) (hp : page = 0x60 ∨ page = 0x61)
    (h : s.accepts ag st page v) : s.regGuard ag st page v = (s, true) := by
  have type : pageType st page ≠ 0x0B := by
    rcases hp with rfl | rfl <;> interval_cases st <;> decide
  rw [regGuard_true h, if_neg type]

/-- The state in which a window has been set up and its pages are pinned. -/
def State.windowPinned (s : State) (st w : Nat) : State :=
  let g := s.awinCfg st w
  ((s.pinHbm st g.ctx g.va g.len).setAwin st w g).showBound st
/-- The state in which a window is bound: its lines have left other ways, and have been read. -/
def State.windowBound (s : State) (st w : Nat) : State :=
  let g := s.awinCfg st w
  ((s.windowPinned st w).dropCached g).reachAs st g.ctx [(g.va, g.len)] false false 1 []
/-- The state in which a window has been given up. -/
def State.windowFree (s : State) (st w : Nat) : State :=
  let g := s.awin st w
  (((s.dropWindow g).pinRange g.ctx g.va g.len false).setAwin st w { g with bound := false }).showBound st

theorem frame_windowPinned (s : State) (st w : Nat) : Frame [.pg, .ht, .ca, .tr] s (s.windowPinned st w) :=
  (((Frame.refl s).step (frame_pinHbm s _ _ _ _)).step (frame_setAwin _ _ _ _)).step (frame_showBound _ _)
theorem frame_windowBound_windowPinned (s : State) (st w : Nat) : Frame reachParts (s.windowPinned st w) (s.windowBound st w) :=
  ((Frame.refl _).step (frame_dropLines _ _) (by simp [reachParts])).trans (reached_reachAs _ _ _ _ _ _ _ _).frame
theorem awin_windowPinned (s : State) (st w d v : Nat) :
    (s.windowPinned st w).awin d v = if 16 * d + v = 16 * st + w then s.awinCfg st w else s.awin d v := by
  unfold State.windowPinned
  rw [(frame_showBound _ _).awin (by simp), State.awin_setAwin, (frame_pinHbm _ _ _ _ _).awin (by simp)]
theorem awin_windowBound (s : State) (st w d v : Nat) :
    (s.windowBound st w).awin d v = if 16 * d + v = 16 * st + w then s.awinCfg st w else s.awin d v := by
  rw [(frame_windowBound_windowPinned s st w).awin (by simp [reachParts]), awin_windowPinned]
theorem bitOf_windowBound (s : State) (st : Nat) {w : Nat} (hw : w < 16) :
    bitOf ((s.windowBound st w).rdN st Reg.HTH_AW_BOUND) w = true := by
  unfold State.rdN
  rw [(frame_windowBound_windowPinned s st w).rd (by simp [reachParts])]
  refine (bitOf_showBound _ st hw).trans ?_
  rw [State.awin_setAwin_same]
  rfl
theorem frame_windowBound (s : State) (st w : Nat) : Frame (reaching [.pg, .ht]) s (s.windowBound st w) :=
  ((frame_windowPinned s st w).mono (by simp [reachParts])).step (frame_windowBound_windowPinned s st w) (by simp [reachParts])
theorem awin_windowFree (s : State) (st w d v : Nat) :
    (s.windowFree st w).awin d v = if 16 * d + v = 16 * st + w then { s.awin st w with bound := false } else s.awin d v := by
  have dropped : Frame [.ca] s (s.dropWindow (s.awin st w)) := frame_dropLines s _
  unfold State.windowFree
  rw [(frame_showBound _ _).awin (by simp), State.awin_setAwin, (frame_pinRange _ _ _ _ _).awin (by simp), dropped.awin (by simp)]
theorem bitOf_windowFree (s : State) (st : Nat) {w : Nat} (hw : w < 16) :
    bitOf ((s.windowFree st w).rdN st Reg.HTH_AW_BOUND) w = false := by
  refine (bitOf_showBound _ st hw).trans ?_
  rw [State.awin_setAwin_same]
theorem frame_windowFree (s : State) (st w : Nat) : Frame [.pg, .ca, .tr, .ht] s (s.windowFree st w) :=
  ((((Frame.refl s).step (frame_dropLines s _)).step (frame_pinRange _ _ _ _ _)).step (frame_setAwin _ _ _ _)).step
    (frame_showBound _ _)

section Commands
variable {s : State} {ag : Agent} {st w : Nat} (hst : st < 4)
include hst

theorem runs_atomicWindowBind (h : s.accepts ag st 0x61 1) (ok : s.bindOk st w = true) :
    Runs (.atomicWindowBind ag st w) s (s.windowBound st w) := by
  show execAtomicWindowBind ag st w s = _
  unfold execAtomicWindowBind
  rw [regGuard_hth hst (.inr rfl) h]
  dsimp only
  rw [if_pos ok]
  rfl
theorem runs_atomicWindowUnbind (h : s.accepts ag st 0x61 2) (bound : (s.awin st w).bound = true) :
    Runs (.atomicWindowUnbind ag st w) s (s.windowFree st w) := by
  show execAtomicWindowUnbind ag st w s = _
  unfold execAtomicWindowUnbind
  rw [regGuard_hth hst (.inr rfl) h]
  dsimp only
  rw [if_pos bound]
  rfl
theorem runs_atomicWindowReset (h : s.accepts ag st 0x61 4) :
    Runs (.atomicWindowReset ag st w) s (s.setAwin st w { s.awin st w with count := 0 }) := by
  show execAtomicWindowReset ag st w s = _
  unfold execAtomicWindowReset
  rw [regGuard_hth hst (.inr rfl) h]
theorem runs_hthFlush (h : s.accepts ag st 0x60 1) :
    Runs (.hthFlush ag st) s (s.cleanLines fun h => h.kind == 0 && 128 * h.line / hbmRegion == st) := by
  show execHthFlush ag st s = _
  unfold execHthFlush
  rw [regGuard_hth hst (.inl rfl) h]

end Commands

/-- Settles O32: each command's state, with the window that it sets and the bit that shows it. -/
theorem atomicWindows : Obligations.AtomicWindows := by
  intro ag st w s hst hw
  refine ⟨fun takes ok => ?bind, fun takes bound => ?unbind, fun takes => ?reset, fun takes => ?flush⟩
  case bind =>
    refine ⟨_, runs_atomicWindowBind hst takes ok, ?_, fun d v other => ?_, bitOf_windowBound s st hw, frame_windowBound s st w⟩
    · rw [awin_windowBound, if_pos rfl]
    · rw [awin_windowBound, if_neg other]
  case unbind =>
    refine ⟨_, runs_atomicWindowUnbind hst takes bound, ?_, fun d v other => ?_, bitOf_windowFree s st hw, frame_windowFree s st w⟩
    · rw [awin_windowFree, if_pos rfl]
    · rw [awin_windowFree, if_neg other]
  case reset =>
    exact ⟨_, runs_atomicWindowReset hst takes, State.awin_setAwin_same _ _ _ _, fun d v other => State.awin_setAwin_other _ _ other,
      frame_setAwin _ _ _ _⟩
  case flush =>
    refine ⟨_, runs_hthFlush hst takes, ?_, fun h hh general home => ?_, frame_cleanLines _ _⟩
    · rw [lines_cleanLines, List.map_map]
      refine List.map_congr_left fun h _ => ?_
      dsimp only [Function.comp]
      split <;> rfl
    · rw [lines_cleanLines] at hh
      obtain ⟨g, -, rfl⟩ := List.mem_map.1 hh
      by_cases mine : g.kind == 0 && 128 * g.line / hbmRegion == st
      · rw [if_pos mine]
      · rw [if_neg mine] at general home
        simp [general, home] at mine

end Sys2Proof.Machine


/-! Ordered additions that wait (R155): an addition in turn changes memory as it would have before what it met on its way, and
additions that are overtaken or late are discarded. -/

namespace Sys2Proof.Machine

-- States that hold the same memory (R225, R231, R235)

theorem Places.symm {s t : State} (h : Places s t) : Places t s where
  tr := by rw [h.tr]
  pte o k := by rw [h.pte]
  granules c := (h.granules c).symm
  aspace c := (h.aspace c).symm
  seed := h.seed.symm
  kd := h.kd.symm

/-- Every place holds the same byte in both states, and the same writes wait for the end of a page's move. -/
structure Alike (s t : State) : Prop where
  places : Places s t
  mem : t.mem = s.mem
  waiting : t.tr.waiting = s.tr.waiting
  next : t.sq.nextId = s.sq.nextId

theorem Alike.refl (s : State) : Alike s s := ⟨Places.refl s, rfl, rfl, rfl⟩
theorem Alike.trans {s t u : State} (h : Alike s t) (g : Alike t u) : Alike s u :=
  ⟨h.places.trans g.places, g.mem.trans h.mem, g.waiting.trans h.waiting, g.next.trans h.next⟩
theorem Alike.symm {s t : State} (h : Alike s t) : Alike t s := ⟨h.places.symm, h.mem.symm, h.waiting.symm, h.next.symm⟩
theorem Frame.alike {l : List Part} {s t : State} (f : Frame l s t) (hm : .mem ∉ l := by simp) (ht : .tr ∉ l := by simp)
    (hs : .sp ∉ l := by simp) (hk : .kd ∉ l := by simp) (hc : .cx ∉ l := by simp) (hq : .sq ∉ l := by simp) : Alike s t :=
  ⟨(f.reached hc).places ht hs hk, f.mem hm, by rw [f.tr ht], by rw [f.sq hq]⟩
/-- The same changes to every state keep two states alike. -/
theorem Alike.foldl {α : Type} {f g : State → α → State} (h : ∀ x u w, Alike u w → Alike (f u x) (g w x)) (xs : List α) {s t : State}
    (alike : Alike s t) : Alike (xs.foldl f s) (xs.foldl g t) := by
  induction xs generalizing s t with
  | nil => exact alike
  | cons x xs ih => exact ih (h x s t alike)
theorem alike_foldl {α : Type} {f : State → α → State} (h : ∀ u x, Alike u (f u x)) (xs : List α) (s : State) :
    Alike s (xs.foldl f s) := by
  induction xs generalizing s with
  | nil => exact Alike.refl s
  | cons x xs ih => exact (h s x).trans (ih _)
theorem alike_ite {p : Prop} [Decidable p] {s a b : State} (ha : Alike s a) (hb : Alike s b) : Alike s (if p then a else b) := by
  split
  · exact ha
  · exact hb

section Writes
variable {s t : State} (h : Alike s t)
include h

theorem Alike.mrd (a : Nat) : t.mrd a = s.mrd a := h.places.mrd h.mem a
theorem Alike.mwr (a : Nat) (b : Byte) : Alike (s.mwr a b) (t.mwr a b) := by
  obtain ⟨places, mem⟩ := h.places.mwr h.mem a b
  refine ⟨places, mem, ?_, ?_⟩
  · rw [(frame_mwr t a b).tr (by simp), (frame_mwr s a b).tr (by simp), h.waiting]
  · rw [(frame_mwr t a b).sq (by simp), (frame_mwr s a b).sq (by simp), h.next]
theorem Alike.vwr (c va : Nat) (b : Byte) : Alike (s.vwr c va b) (t.vwr c va b) := by
  have page : t.vpte c va = { s.vpte c va with count := (t.vpte c va).count } := by
    unfold State.vpte
    rw [h.places.pte, h.places.aspace]
  unfold State.vwr
  rw [h.places.vaAddr]
  split
  · rw [page, h.places.aspace, h.waiting, h.next]
    dsimp only
    split
    · exact h
    · split
      · refine ⟨?_, h.mem, rfl, h.next⟩
        obtain ⟨tr, pte, granules, aspace, seed, kd⟩ := h.places
        exact ⟨by dsimp only; rw [tr], pte, granules, aspace, seed, kd⟩
      · exact h.mwr _ b
  · exact h
theorem Alike.byteLast (c : Nat) (v : View) (off : Nat) : t.byteLast c v off = s.byteLast c v off := by
  have last : ∀ va, t.vlast c va = s.vlast c va := fun va => by
    unfold State.vlast State.vrd
    rw [h.waiting, h.places.aspace, h.places.vaAddr, funext h.mrd]
  unfold State.byteLast
  rw [last, h.places.byteOf h.mem]
theorem Alike.putBytes (c : Nat) (v : View) (off : Nat) (l : List Byte) : Alike (s.putBytes c v off l) (t.putBytes c v off l) := by
  induction l generalizing s t off with
  | nil => exact h
  | cons b l ih =>
    unfold State.putBytes
    refine ih ?_ (off + 1)
    rw [h.places.byteAddr]
    split
    · exact h.vwr _ _ b
    · exact h.mwr _ b
theorem Alike.putCode (c : Nat) {v : View} (hv : v.place ≠ .rb) (r k code : Nat) : Alike (s.putCode c v r k code) (t.putCode c v r k code) := by
  unfold State.putCode
  simp only [h.byteLast]
  split
  · exact h.putBytes c v _ _
  · exact h.putBytes c v _ _
theorem Alike.valAt (c : Nat) {v : View} (hv : v.place ≠ .rb) (r k : Nat) : t.valAt c v r k = s.valAt c v r k :=
  h.places.valAt h.mem c hv r k
theorem Alike.scaleAt (c : Nat) (v : View) (r k : Nat) : t.scaleAt c v r k = s.scaleAt c v r k := by
  unfold State.scaleAt
  rw [h.places.byteOf h.mem]

end Writes

-- What reads and writes on the way leave (R140, R232, R241)

theorem frame_rcAdd (s : State) (k n : Nat) : Frame [.sw] s (s.rcAdd k n) := frame_upd_sw s _
theorem frame_tallyAt (s : State) (st c : Nat) (f : Fmt) (k : Cls) (t : Tally) : Frame [.sw] s (s.tallyAt st c f k t) :=
  frame_ite (((frame_rcAdd s _ _).trans (frame_rcAdd _ _ _)).trans (frame_rcAdd _ _ _)) (Frame.refl s)
theorem waiting_addCount (s : State) (space page n : Nat) : (s.addCount space page n).tr.waiting = s.tr.waiting := by
  unfold State.addCount
  dsimp only
  split <;> rfl
theorem waiting_touchPage (s : State) (st space page n : Nat) : (s.touchPage st space page n).tr.waiting = s.tr.waiting := by
  have walked : (s.walk st space page).tr.waiting = s.tr.waiting := by rw [(reached_walk s st space page).frame.tr (by simp)]
  unfold State.touchPage
  split
  · rfl
  · dsimp only
    split
    · split
      · exact walked
      · exact (waiting_addCount _ _ _ _).trans walked
    · exact walked
theorem alike_reachAs (s : State) (st c : Nat) (rs : List (Nat × Nat)) (write chain : Bool) (cls : Nat) (busy : List Nat) :
    Alike s (s.reachAs st c rs write chain cls busy) where
  places := places_reachAs s st c rs write chain cls busy
  mem := (reached_reachAs s st c rs write chain cls busy).frame.mem (by simp [reachParts])
  waiting := by
    refine foldl_keeps (g := fun u : State => u.tr.waiting) (fun u l => ?_) _ s
    dsimp only
    split
    · rfl
    · have touched := waiting_touchPage u st (u.ctx c).aspace (128 * l / 2 ^ 21) 1
      split
      · rw [(reached_hearthLine _ _ _ _ _ _ _ _).frame.tr (by simp)]
        exact touched
      · exact touched
  next := by rw [(reached_reachAs s st c rs write chain cls busy).frame.sq (by simp [reachParts])]
theorem alike_upd_bad (s : State) (l : List Nat) : Alike s { s with tr := { s.tr with bad := l } } :=
  ⟨places_upd_bad s l, rfl, rfl, rfl⟩
theorem alike_renew (s : State) (c : Nat) (rs : List (Nat × Nat)) : Alike s (s.renew c rs) := by
  unfold State.renew
  extract_lets whole _ u
  have words : Alike s u := alike_ite (Alike.refl s) (alike_upd_bad s _)
  refine alike_ite words (words.trans (alike_foldl (fun u l => ?_) _ _))
  split
  · exact alike_ite (frame_upd_ht u _).alike (Alike.refl u)
  · exact Alike.refl u
theorem alike_reachW (s : State) (c : Nat) (rs : List (Nat × Nat)) : Alike s (s.reachW c rs) :=
  (alike_reachAs s _ c rs true false 2 []).trans (alike_renew _ c rs)

-- An addition (R45, R153, R155)

/-- Draws depend on the registers, the jobs, the epochs and the contexts. -/
theorem Reached.draw {l : List Part} {s t : State} (h : Reached l s t) (hp : .pg ∉ l) (hs : .sw ∉ l) (he : .em ∉ l) (c : Nat) :
    t.draw c = s.draw c := by
  unfold State.draw State.epoch
  simp only [h.ctx, h.frame.rd hp, h.frame.job hs, h.frame.em he]
/-- What an addition leaves of memory depends on memory, its places and the draws alone. -/
theorem Alike.atomAdd {s t : State} (h : Alike s t) {c : Nat} (draw : t.draw c = s.draw c) {a : AtomF} (virt : a.target.place = .virt)
    (count : Nat) : Alike (s.atomAdd c a count) (t.atomAdd c a count) := by
  have mem : a.target.place ≠ .rb := by rw [virt]; decide
  have near : ∀ (l : List (Nat × Nat)) (u : State), Alike u (l.foldl (fun u p =>
      u.tallyAt (u.homeOf c a.target p.1 p.2) c a.target.fmt a.target.cls ⟨0, 0, 1⟩) u) := fun l u =>
    alike_foldl (fun u p => (frame_tallyAt u _ c _ _ _).alike) l u
  have blocks : ∀ u : State, Alike u (if scaled a.target.fmt then (u.nearBlocks c a.target).foldl (fun u p =>
      u.tallyAt (u.homeOf c a.target p.1 p.2) c a.target.fmt a.target.cls ⟨0, 0, 1⟩) u else u) := fun u =>
    alike_ite (near _ u) (Alike.refl u)
  unfold State.atomAdd
  rw [draw]
  refine ((blocks _).symm.trans (Alike.foldl (fun p u w alike => ?_) _ h)).trans (blocks _)
  dsimp only
  refine ((frame_tallyAt _ _ _ _ _ _).alike.symm.trans ?_).trans (frame_tallyAt _ _ _ _ _ _).alike
  rw [alike.scaleAt, alike.valAt c mem]
  exact alike.putCode c mem _ _ _
/-- Element n of a list as long as a view is one of the view's. -/
theorem cell_inside {v : View} {n : Nat} (h : n < v.size) : n / v.cols < v.rows ∧ n % v.cols < v.cols :=
  have pos : 0 < v.cols := by
    rcases Nat.eq_zero_or_pos v.cols with zero | pos
    · exact absurd h (by simp [View.size, zero])
    · exact pos
  ⟨(Nat.div_lt_iff_lt_mul pos).2 h, Nat.mod_lt _ pos⟩
theorem carries_atomAdd (s : State) (c : Nat) {a : AtomF} (fits : a.vals.length = a.target.size) (count : Nat) :
    Carries carryParts c a.target s (s.atomAdd c a count) := by
  unfold State.atomAdd
  refine (carries_foldl _ (fun p hp u => ?_) s).trans
    (carries_ite (fun _ => carries_foldl _ (fun p _ u => (frame_tallyAt u _ c _ _ _).carries) _) fun _ => Carries.refl _)
  have inside := cell_inside (fits ▸ (List.mem_zipIdx' hp).1)
  exact (carries_putCode u c (fun _ => inside) _).trans (frame_tallyAt _ _ c _ _ _).carries

-- Additions that are discarded (R155)

/-- Memory, the windows and what is placed in both are as they were. -/
structure Standing (s t : State) : Prop where
  mem : t.mem = s.mem
  tr : t.tr = s.tr
  ht : t.ht = s.ht
  seed : t.sp.seed = s.sp.seed

theorem Standing.refl (s : State) : Standing s s := ⟨rfl, rfl, rfl, rfl⟩
theorem Standing.trans {s t u : State} (h : Standing s t) (g : Standing t u) : Standing s u :=
  ⟨g.mem.trans h.mem, g.tr.trans h.tr, g.ht.trans h.ht, g.seed.trans h.seed⟩
theorem Standing.mrd {s t : State} (h : Standing s t) (a : Nat) : t.mrd a = s.mrd a := by
  unfold State.mrd State.inMem State.inHbm State.inCold State.hbmBytes State.pcsIn State.coldCap State.pkgsIn State.seeds
  rw [h.mem, h.tr, h.seed]
theorem Standing.awin {s t : State} (h : Standing s t) (st w : Nat) : t.awin st w = s.awin st w := by
  unfold State.awin
  rw [h.ht]
theorem Frame.standing {l : List Part} {s t : State} (f : Frame l s t) (hm : .mem ∉ l := by simp) (ht : .tr ∉ l := by simp)
    (hh : .ht ∉ l := by simp) (hs : .sp ∉ l := by simp) : Standing s t :=
  ⟨f.mem hm, f.tr ht, f.ht hh, by rw [f.sp hs]⟩
theorem standing_endFlight (s : State) (f : Flight) : Standing s (s.endFlight f) := by
  have ended := frame_endFlight s f
  refine ⟨ended.mem (by simp), ended.tr (by simp), ended.ht (by simp), ?_⟩
  have lines : (s.readyLines f).sp.seed = s.sp.seed :=
    foldl_keeps (g := fun u : State => u.sp.seed) (fun u l => by dsimp only; split <;> rfl) _ s
  exact (foldl_keeps (f := fun u p => u.dropReader f.st p) (g := fun u : State => u.sp.seed) (fun _ _ => rfl) f.chairs _).trans lines
theorem flights_endFlight (s : State) (f : Flight) : (s.endFlight f).sq.flights = s.sq.flights.filter fun g => g.id != f.id := by
  have lines : (s.readyLines f).sq.flights = s.sq.flights :=
    foldl_keeps (g := fun u : State => u.sq.flights) (fun u l => by dsimp only; split <;> rfl) _ s
  have readers : (f.chairs.foldl (fun u p => u.dropReader f.st p) (s.readyLines f)).sq.flights = (s.readyLines f).sq.flights :=
    foldl_keeps (f := fun u p => u.dropReader f.st p) (g := fun u : State => u.sq.flights) (fun _ _ => rfl) f.chairs _
  show (f.chairs.foldl (fun u p => u.dropReader f.st p) (s.readyLines f)).sq.flights.filter _ = _
  rw [readers, lines]
/-- A discarded addition is logged, makes its post and taints; what else is in flight stays. -/
theorem sameFlights_addLost (s : State) (x : Src) (post : Option Nat) (code event win ordinal : Nat) :
    SameFlights [.pg, .cx, .sq, .sw, .out, .free] s (s.addLost x post code event win ordinal) := by
  have logged := ((Frame.refl (l := [.pg, .out, .free]) s).step (frame_hthLog s x.st code x.ctx (s.ctx x.ctx).slot win 0 0 ordinal 0)).step
    (frame_raise _ x.st 0x60 event)
  exact (((SameFlights.refl s).step logged.sameFlights).step (sameFlights_postOpt _ x post)).step (sameFlights_taintSeq _ _ _ _)
theorem sem_addLost (s : State) (x : Src) (post : Option Nat) (code event win ordinal k : Nat) :
    ((s.addLost x post code event win ordinal).ctx x.ctx).sem k = ((s.postOpt x post).ctx x.ctx).sem k := by
  have posted : ∀ u : State, u.ctx x.ctx = s.ctx x.ctx → ((u.postOpt x post).ctx x.ctx).sem k = ((s.postOpt x post).ctx x.ctx).sem k :=
    fun u same => by
      cases post with
      | none => exact congrArg (fun y : Ctx => y.sem k) same
      | some p =>
        unfold State.postOpt
        rw [sem_semPost, sem_semPost, same]
  unfold State.addLost
  unfold State.ctx
  rw [(frame_taintSeq _ _ _ _).cx (by simp)]
  refine posted _ ?_
  unfold State.ctx
  rw [(frame_raise _ _ _ _).cx (by simp), (frame_hthLog _ _ _ _ _ _ _ _ _ _).cx (by simp)]
theorem standing_discard (s : State) (f : Flight) (code event win ordinal : Nat) :
    Standing s ((s.endFlight f).addLost f.src f.post code event win ordinal) :=
  (standing_endFlight s f).trans (sameFlights_addLost _ _ _ _ _ _ _).frame.standing
theorem flights_discard (s : State) (f : Flight) (code event win ordinal : Nat) :
    ((s.endFlight f).addLost f.src f.post code event win ordinal).sq.flights = s.sq.flights.filter fun g => g.id != f.id :=
  (sameFlights_addLost _ _ _ _ _ _ _).flights.trans (flights_endFlight s f)
theorem flight_discard (s : State) {f : Flight} {k : Nat} (other : f.id ≠ k) (code event win ordinal : Nat) :
    ((s.endFlight f).addLost f.src f.post code event win ordinal).flight k = s.flight k := by
  unfold State.flight
  rw [flights_discard, List.find?_filter]
  refine congrArg (fun p => List.find? p s.sq.flights) (funext fun g => ?_)
  by_cases h : g.id = k
  · simp [h, Ne.symm other]
  · simp [h]
/-- What a window's count, once it is n, makes of an instruction in flight: an addition that it has overtaken is refused. -/
def State.refuseOne (st w n : Nat) (s : State) (f : Flight) : State :=
  match f.body with
  | .atom a =>
    if f.st = st ∧ a.op < 2 ∧ a.win = w ∧ (a.ordinal + 65536 - n % 65536) % 65536 ≥ 32768 then
      (s.endFlight f).addLost f.src f.post 8 5 w a.ordinal
    else s
  | _ => s
theorem refuseBehind_eq (s : State) (st w : Nat) :
    s.refuseBehind st w = s.sq.flights.foldl (State.refuseOne st w (s.awin st w).count) s := rfl
theorem standing_refuseOne (st w n : Nat) (s : State) (f : Flight) : Standing s (State.refuseOne st w n s f) := by
  unfold State.refuseOne
  split
  · split
    · exact standing_discard s _ _ _ _ _
    · exact Standing.refl s
  · exact Standing.refl s
/-- Only additions that wait are refused. -/
theorem flight_refuseOne (st w n : Nat) (s : State) {f : Flight} {k : Nat} (other : ∀ a, f.body = .atom a → f.id ≠ k) :
    (State.refuseOne st w n s f).flight k = s.flight k := by
  unfold State.refuseOne
  split
  next a body =>
    split
    · exact flight_discard s (other a body) _ _ _ _
    · rfl
  next => rfl
theorem standing_refuseBehind (s : State) (st w : Nat) : Standing s (s.refuseBehind st w) := by
  rw [refuseBehind_eq]
  generalize (s.awin st w).count = n
  generalize s.sq.flights = l
  induction l generalizing s with
  | nil => exact Standing.refl s
  | cons f l ih => exact (standing_refuseOne st w n s f).trans (ih _)
theorem flight_refuseBehind {s : State} {k : Nat} (others : ∀ f ∈ s.sq.flights, ∀ a, f.body = .atom a → f.id ≠ k) (st w : Nat) :
    (s.refuseBehind st w).flight k = s.flight k := by
  rw [refuseBehind_eq]
  generalize (s.awin st w).count = n
  generalize s.sq.flights = l at others
  induction l generalizing s with
  | nil => rfl
  | cons f l ih =>
    exact (ih fun g hg => others g (List.mem_cons_of_mem f hg)).trans (flight_refuseOne st w n s (others f List.mem_cons_self))

-- The addition in turn (R155)

theorem waitingAdd_mem {s : State} {st w n : Nat} {f : Flight} {a : AtomF} (h : s.waitingAdd st w n = some (f, a)) : f ∈ s.sq.flights := by
  obtain ⟨g, there, found⟩ := List.exists_of_findSome?_eq_some h
  split at found
  · split at found
    · obtain ⟨rfl, -⟩ := Prod.mk.inj (Option.some.inj found)
      exact there
    · exact absurd found (by simp)
  · exact absurd found (by simp)
/-- The state in which an addition has reached its target. -/
def State.addReached (s : State) (f : Flight) (a : AtomF) : State := (s.reach f.ctx a.target.vranges).reachW f.ctx a.target.vranges
/-- The state in which an addition has been applied, before the count advances. -/
def State.addApplied (s : State) (f : Flight) (a : AtomF) (count : Nat) : State :=
  ((s.addReached f a).atomAdd f.ctx a count).putFlight { f with body := .plain }
theorem alike_addReached (s : State) (f : Flight) (a : AtomF) : Alike s (s.addReached f a) :=
  (alike_reachAs s _ _ _ false false 1 []).trans (alike_reachW _ _ _)
theorem reached_addReached (s : State) (f : Flight) (a : AtomF) : Reached (reaching [.ht]) s (s.addReached f a) :=
  ((Reached.refl s).step (reached_reachAs s _ _ _ false false 1 []) (by simp [reachParts])).step (reached_reachW _ _ _)
theorem runs_atomAddApply {st w : Nat} {f : Flight} {a : AtomF} {s : State}
    (turn : s.waitingAdd st w ((s.awin st w).count % 65536) = some (f, a)) (bound : (s.awin st w).bound = true)
    (ready : s.pagesReady f.ctx a.pages = true) (clear : s.memBad f.st f.ctx a.target.vranges false = none) :
    Runs (.atomAddApply st w) s (((s.addApplied f a (s.awin st w).count).setAwin st w
      { s.awin st w with count := (s.awin st w).count + 1 }).refuseBehind st w) := by
  show execAtomAddApply st w s = _
  unfold execAtomAddApply
  dsimp only
  rw [turn]
  dsimp only
  rw [if_neg (by simp [bound, ready]), clear]
  rfl
/-- Once an addition has been applied, its flight alone bears its number and waits no more. -/
theorem applied_id (s : State) (f : Flight) : ∀ g ∈ (s.putFlight { f with body := .plain }).sq.flights, ∀ a, g.body = .atom a → g.id ≠ f.id := by
  intro g hg a body
  obtain ⟨e, -, rfl⟩ := List.mem_map.1 hg
  by_cases h : e.id = f.id
  · rw [if_pos h] at body
    cases body
  · rw [if_neg h]
    exact h

theorem addition_in_turn {st w : Nat} {f : Flight} {a : AtomF} {s : State}
    (turn : s.waitingAdd st w ((s.awin st w).count % 65536) = some (f, a)) (virt : a.target.place = .virt)
    (fits : a.vals.length = a.target.size) :
    let n := (s.awin st w).count
    let t := ((s.addApplied f a n).setAwin st w { s.awin st w with count := n + 1 }).refuseBehind st w
    (t.awin st w).count = n + 1 ∧ t.flight f.id = some { f with body := .plain } ∧ t.mem = (s.atomAdd f.ctx a n).mem ∧
      MemOutside s t f.ctx [a.target] := by
  intro n t
  have alike := alike_addReached s f a
  have added := carries_atomAdd (s.addReached f a) f.ctx fits n
  have same : ((s.addReached f a).atomAdd f.ctx a n).sq = s.sq := by
    rw [added.frame.sq (by simp), (reached_addReached s f a).frame.sq (by simp [reachParts])]
  have there : f ∈ ((s.addReached f a).atomAdd f.ctx a n).sq.flights := by
    rw [same]
    exact waitingAdd_mem turn
  have refused : Standing ((s.addApplied f a n).setAwin st w { s.awin st w with count := n + 1 }) t := standing_refuseBehind _ st w
  have mem : t.mem = ((s.addReached f a).atomAdd f.ctx a n).mem := refused.mem
  refine ⟨?_, ?_, ?_, fun b outside => ?_⟩
  · rw [refused.awin, State.awin_setAwin_same]
  · exact (flight_refuseBehind (s := (s.addApplied f a n).setAwin st w _)
      (applied_id ((s.addReached f a).atomAdd f.ctx a n) f) st w).trans (flight_putFlight there rfl)
  · rw [mem]
    exact (alike.atomAdd ((reached_addReached s f a).draw (by simp [reachParts]) (by simp [reachParts]) (by simp [reachParts]) _)
      virt n).mem
  · have misses : (s.addReached f a).misses f.ctx a.target b := fun r hr j hj => by
      rw [alike.places.byteAddr]
      exact outside a.target (by simp) r hr j hj
    have kept : t.mrd b = ((s.addReached f a).atomAdd f.ctx a n).mrd b := refused.mrd b
    rw [kept, added.mem (by rw [virt]; decide) b misses, alike.mrd]

/-- Settles O34: the flight in turn is applied and waits no more, and the window's later refusals leave it and memory alone; a late one
leaves the list with its post made. -/
theorem orderedAdditions : Obligations.OrderedAdditions := by
  refine ⟨?inTurn, fun st w n f a s waits => ?late⟩
  case inTurn =>
    intro st w f a s g turn bound ready _ _ virt fits clear
    exact ⟨_, runs_atomAddApply turn bound ready clear, addition_in_turn turn virt fits⟩
  case late =>
    have discarded := sameFlights_addLost (s.endFlight f) f.src f.post 9 6 w n
    refine ⟨(s.endFlight f).addLost f.src f.post 9 6 w n, ?_, flights_discard s f _ _ _ _, fun p post => ?_,
      (standing_discard s f _ _ _ _).awin st w, ?_⟩
    · show execAtomTimeout st w n s = _
      unfold execAtomTimeout
      rw [waits]
    · rw [show f.ctx = f.src.ctx from rfl, sem_addLost, post]
      unfold State.postOpt
      rw [sem_semPost, if_pos rfl]
      unfold satAdd
      omega
    · exact ((Frame.refl s).step (frame_endFlight s f)).step discarded.frame

end Sys2Proof.Machine

/-! Hearth atomics at issue (R152, R153, R155, R234): what an atomic meets before it is launched, maxima and minima, and the two
operations on a word. -/

namespace Sys2Proof.Machine

-- What an atomic meets on its way (R94 to R96, R234)

/-- The chairs that operands name depend on the lifts and their set-up. -/
theorem readersOf_congr {s t : State} (lifts : t.sp.lifts = s.sp.lifts) (cfg : ∀ st k, k < 128 → t.liftCfg st k = s.liftCfg st k)
    (c : Nat) (ops : List Opd) : t.readersOf c ops = s.readersOf c ops := by
  have found : ∀ n, t.findLift c n = s.findLift c n := fun n => by
    unfold State.findLift
    exact List.find?_congr fun k hk => by rw [cfg _ k (List.mem_range.1 hk)]
  have chair : ∀ o, t.chairOf c o = s.chairOf c o := fun o => by
    unfold State.chairOf State.lift
    simp only [found, lifts]
  unfold State.readersOf
  simp only [chair]
/-- The state has changed within what an instruction meets before it enters its unit's queue, and no page has come to rest. -/
structure Meets (x : Src) (s t : State) : Prop where
  reached : Reached (reaching [.pg, .sq, .sp, .ht, .sw, .out]) s t
  marks : Marks x.st x.sq s t
  ready : ∀ c l, t.pagesReady c l = true → s.pagesReady c l = true
/-- The same, while chairs and windows stand. -/
structure Leads (x : Src) (s t : State) : Prop extends Meets x s t where
  readers : ∀ c ops, t.readersOf c ops = s.readersOf c ops
  windows : t.ht.windows = s.ht.windows

theorem Meets.trans {x : Src} {s t u : State} (h : Meets x s t) (g : Meets x t u) : Meets x s u :=
  ⟨h.reached.step g.reached fun _ => id, h.marks.trans g.marks, fun c l r => h.ready c l (g.ready c l r)⟩
theorem Leads.refl {x : Src} (s : State) : Leads x s s := ⟨⟨Reached.refl s, Marks.refl s, fun _ _ => id⟩, fun _ _ => rfl, rfl⟩
theorem Leads.trans {x : Src} {s t u : State} (h : Leads x s t) (g : Leads x t u) : Leads x s u where
  toMeets := h.toMeets.trans g.toMeets
  readers c ops := (g.readers c ops).trans (h.readers c ops)
  windows := g.windows.trans h.windows
/-- Is a page in HBM and at rest (R153)? -/
def Pte.ready (p : Pte) : Bool := p.valid && !p.cold && !p.moving
theorem pagesReady_eq (s : State) (c : Nat) (l : List Nat) : s.pagesReady c l = l.all fun k => (s.pte (s.ctx c).aspace k).ready := rfl
theorem Places.pagesReady {s t : State} (h : Places s t) (c : Nat) (l : List Nat) : t.pagesReady c l = s.pagesReady c l := by
  have page : ∀ o k, (t.pte o k).ready = (s.pte o k).ready := fun o k => by
    rw [h.pte]
    rfl
  rw [pagesReady_eq, pagesReady_eq, h.aspace]
  simp only [page]
theorem Frame.readers {l : List Part} {s t : State} (f : Frame l s t) (hp : .pg ∉ l) (hs : .sp ∉ l) (c : Nat) (ops : List Opd) :
    t.readersOf c ops = s.readersOf c ops := by
  refine readersOf_congr (by rw [f.sp hs]) (fun st k _ => ?_) c ops
  unfold State.liftCfg
  simp only [f.rd hp]
theorem Reached.leads {x : Src} {l : List Part} {s t : State} (h : Reached l s t) (places : Places s t)
    (hm : ∀ p ∈ l, p ∈ reaching [.pg, .sq, .sp, .ht, .sw, .out] := by simp [reachParts]) (hq : .sq ∉ l := by simp [reachParts])
    (hp : .pg ∉ l := by simp [reachParts]) (hs : .sp ∉ l := by simp [reachParts]) (hh : .ht ∉ l := by simp [reachParts]) :
    Leads x s t where
  reached := (Reached.refl s).step h hm
  marks := h.frame.marks hq
  ready c k r := (places.pagesReady c k).symm.trans r
  readers := h.frame.readers hp hs
  windows := by rw [h.frame.ht hh]
/-- A page that a write leaves moving, or as it was but for counts, comes to no rest. -/
theorem pagesReady_of_pte {s t : State} (aspace : ∀ c, (t.ctx c).aspace = (s.ctx c).aspace)
    (pte : ∀ o k, (t.pte o k).ready = true → (s.pte o k).ready = true) (c : Nat) (l : List Nat) (h : t.pagesReady c l = true) :
    s.pagesReady c l = true := by
  rw [pagesReady_eq, List.all_eq_true] at h ⊢
  rw [aspace] at h
  exact fun k hk => pte _ k (h k hk)

-- Pages asked for (R234, R235)

theorem places_dropTlb (s : State) (p : Tlb → Bool) : Places s (s.dropTlb p) :=
  (frame_upd_ca s _).reached.places.trans (places_foldl (fun u e => places_addCount u _ _ _) _ _)
theorem leads_startMove (x : Src) (s : State) (st owner page : Nat) (toCold : Bool) (frame : Nat) :
    Leads x s (s.startMove st owner page toCold frame) := by
  have moved := frame_startMove s st owner page toCold frame
  refine ⟨⟨(Reached.refl s).step moved.reached (by simp [reachParts]), moved.marks,
    pagesReady_of_pte (fun c => ?_) fun o k ready => ?_⟩, moved.readers (by simp) (by simp), by rw [moved.ht (by simp)]⟩
  · rw [moved.reached.ctx]
  · unfold State.startMove at ready
    extract_lets u src w old y at ready
    have places : Places s w := (places_dropTlb s _).trans (frame_dropLines u _).reached.places
    change (y.pte o k).ready = true at ready
    have set : y.pte o k = if 2 ^ 27 * o + k = 2 ^ 27 * owner + page then { w.pte owner page with moving := true } else w.pte o k :=
      tabGet_tabSet _ _ _ _ _
    rw [set] at ready
    split at ready
    · simp [Pte.ready] at ready
    · rw [places.pte] at ready
      exact ready
/-- A promotion that is not denied starts moves at most. -/
theorem leads_promote (x : Src) (s : State) (st owner page : Nat) (granted : (s.promote st owner page).2 ≠ .denied) :
    Leads x s (s.promote st owner page).1 := by
  revert granted
  unfold State.promote
  dsimp only
  split
  · split
    · exact fun _ => leads_startMove x s _ _ _ _ _
    · exact fun _ => Leads.refl s
  · split
    · exact fun h => absurd rfl h
    · split
      · exact fun h => absurd rfl h
      · split
        · split
          · split
            · exact fun _ => (leads_startMove x s _ _ _ _ _).trans (leads_startMove x _ _ _ _ _ _)
            · exact fun _ => leads_startMove x s _ _ _ _ _
          · exact fun _ => Leads.refl s
        · exact fun h => absurd rfl h
/-- Asking for one page: nothing once a page has been denied. -/
def askPage (o : Nat) (y : State × Option Nat) (k : Nat) : State × Option Nat :=
  if y.2.isSome then y
  else if !y.1.canPromote o k then (y.1, some k)
  else
    match y.1.promote (y.1.pte o k).stove o k with
    | (t, .denied) => (t, some k)
    | (t, _) => (t, none)
theorem askPages_eq (s : State) (c : Nat) (l : List Nat) :
    s.askPages c l = (s.coldPages c l).foldl (askPage (s.ctx c).aspace) (s, none) := rfl
theorem leads_askPage (x : Src) (o k : Nat) (y : State × Option Nat) (granted : (askPage o y k).2 = none) :
    y.2 = none ∧ Leads x y.1 (askPage o y k).1 := by
  unfold askPage at granted ⊢
  split at granted
  next denied =>
    rw [granted] at denied
    cases denied
  next clear =>
    rw [if_neg clear]
    refine ⟨Option.not_isSome_iff_eq_none.1 clear, ?_⟩
    split at granted
    · cases granted
    next may =>
      rw [if_neg may]
      split at granted
      next => cases granted
      next t r other asked =>
        have promoted := leads_promote x y.1 (y.1.pte o k).stove o k (by rw [asked]; exact other)
        rw [asked] at promoted
        exact promoted
/-- Pages that are asked for and not denied are on their way, or wait for it. -/
theorem leads_askPages (x : Src) (s : State) (c : Nat) (l : List Nat) (granted : (s.askPages c l).2 = none) :
    Leads x s (s.askPages c l).1 := by
  have asked : ∀ (ks : List Nat) (y : State × Option Nat), (ks.foldl (askPage (s.ctx c).aspace) y).2 = none →
      y.2 = none ∧ Leads x y.1 (ks.foldl (askPage (s.ctx c).aspace) y).1 := fun ks => by
    induction ks with
    | nil => exact fun y h => ⟨h, Leads.refl _⟩
    | cons k ks ih =>
      intro y h
      obtain ⟨rest, later⟩ := ih _ h
      obtain ⟨first, now⟩ := leads_askPage x _ k y rest
      exact ⟨first, now.trans later⟩
  rw [askPages_eq] at granted ⊢
  exact (asked _ _ granted).2
/-- Nothing is asked for where every page is ready. -/
theorem askPages_ready {s : State} {c : Nat} {l : List Nat} (h : s.pagesReady c l = true) : s.askPages c l = (s, none) := by
  have none : s.coldPages c l = [] := by
    unfold State.coldPages
    refine List.filter_eq_nil_iff.2 fun k hk => ?_
    have ready := List.all_eq_true.1 ((pagesReady_eq s c l).symm.trans h) k hk
    unfold Pte.ready at ready
    simp only [Bool.and_eq_true, Bool.not_eq_true'] at ready
    simp [ready]
  rw [askPages_eq, none]
  rfl

-- Reads, writes and claims

theorem leads_readLines (x : Src) (s : State) (ls : List Nat) : Leads x s (s.readLines x ls) where
  reached := (Reached.refl s).step (frame_readLines s x ls).reached
  marks := marks_readLines s x ls
  ready c k r := ((frame_readLines s x ls).reached.places.pagesReady c k).symm.trans r
  readers := readersOf_congr (by rw [(frame_readLines s x ls).sp (by simp)]) fun st _ hk => liftCfg_readLines s x ls st hk
  windows := by rw [(frame_readLines s x ls).ht (by simp)]
theorem leads_reachAs (x : Src) (s : State) (st c : Nat) (rs : List (Nat × Nat)) (write chain : Bool) (cls : Nat) (busy : List Nat) :
    Leads x s (s.reachAs st c rs write chain cls busy) :=
  (reached_reachAs s st c rs write chain cls busy).leads (places_reachAs s st c rs write chain cls busy)
theorem windows_renew (s : State) (c : Nat) (rs : List (Nat × Nat)) : (s.renew c rs).ht.windows = s.ht.windows := by
  unfold State.renew
  extract_lets whole _ u
  have words : u.ht.windows = s.ht.windows := by
    rw [(frame_ite (Frame.refl s) (frame_upd_tr s _) : Frame [.tr] s u).ht (by simp)]
  split
  · exact words
  · refine Eq.trans (foldl_keeps (g := fun w : State => w.ht.windows) (fun w l => ?_) _ u) words
    dsimp only
    split
    · split <;> rfl
    · rfl
theorem leads_renew (x : Src) (s : State) (c : Nat) (rs : List (Nat × Nat)) : Leads x s (s.renew c rs) where
  reached := (Reached.refl s).step (frame_renew s c rs).reached (by simp [reachParts])
  marks := (frame_renew s c rs).marks
  ready d k r := ((places_renew s c rs).pagesReady d k).symm.trans r
  readers := (frame_renew s c rs).readers (by simp) (by simp)
  windows := windows_renew s c rs
theorem leads_reachW (x : Src) (s : State) (c : Nat) (rs : List (Nat × Nat)) : Leads x s (s.reachW c rs) :=
  (leads_reachAs x s _ c rs true false 2 []).trans (leads_renew x _ c rs)
theorem leads_accessed (x : Src) (s : State) {ins outs : List View} (hi : ∀ v ∈ ins, v.place ≠ .rb) (ho : ∀ v ∈ outs, v.place ≠ .rb)
    (descs : List Opd) : Leads x s (s.accessed x ins outs descs) := by
  unfold State.accessed
  rw [spillViews_of_not_rb hi ho]
  exact ((leads_reachAs x s _ _ _ false false 1 []).trans (leads_reachW x _ _ _)).trans
    ((frame_renewSpd _ _ _).reached.leads (places_renewSpd _ _ _))
theorem leads_tallyT2 (x : Src) (s : State) (c : Nat) (l : List (View × List (Nat × Nat))) : Leads x s (s.tallyT2 c l) :=
  (frame_tallyT2 s c l).reached.leads (frame_tallyT2 s c l).reached.places
/-- Claims of lines meet slips at most. -/
theorem meets_claimLines (x : Src) (s : State) (ls : List Nat) : Meets x s (s.claimLines x ls) where
  reached := by
    have claimed : Frame [.pg, .sq, .sp, .sw, .out] s (s.claimLines x ls) :=
      frame_foldl (fun u _ => (frame_ite ((frame_slip u _ _ _ _).mono (by simp)) (Frame.refl u)).step (frame_setTag _ _ _ _)) ls s
    exact (Reached.refl s).step claimed.reached
  marks := (prepares_claimLines s ls).marks
  ready c k r := ((prepares_claimLines s ls).places.pagesReady c k).symm.trans r

-- The same memory on the way

theorem alike_atIssue (s : State) (i : Iss) (op c : Nat) : Alike s (s.atIssue i op c) :=
  ⟨places_atIssue s i op c, (frame_atIssue s i op c).mem (by simp), by rw [(frame_atIssue s i op c).tr (by simp)], by rw [sq_atIssue]⟩
theorem alike_slip (s : State) (x : Src) (code epoch line : Nat) : Alike s (s.slip x code epoch line) :=
  have met := frame_slip s x code epoch line
  ⟨met.reached.places, met.mem (by simp), by rw [met.tr (by simp)], by rw [(marks_slip s x code epoch line).sq]⟩
theorem alike_readLines (s : State) (x : Src) (ls : List Nat) : Alike s (s.readLines x ls) :=
  alike_foldl (fun u _ => alike_ite (alike_slip u _ _ _ _) (Alike.refl u)) ls s
theorem alike_claimLines (s : State) (x : Src) (ls : List Nat) : Alike s (s.claimLines x ls) :=
  alike_foldl (fun u _ => (alike_ite (alike_slip u _ _ _ _) (Alike.refl u)).trans ⟨places_setTag _ _ _ _, rfl, rfl, rfl⟩) ls s
theorem alike_accessed (x : Src) (s : State) {ins outs : List View} (hi : ∀ v ∈ ins, v.place ≠ .rb) (ho : ∀ v ∈ outs, v.place ≠ .rb)
    (descs : List Opd) : Alike s (s.accessed x ins outs descs) := by
  unfold State.accessed
  rw [spillViews_of_not_rb hi ho]
  exact ((alike_reachAs s _ _ _ false false 1 []).trans (alike_reachW _ _ _)).trans (alike_ite (alike_upd_bad _ _) (Alike.refl _))

-- What an atomic on views has met, and one on a word

/-- The state in which an atomic on views has made its accesses. -/
def State.atomMet (s : State) (x : Src) (a : AtomF) (h : HatomOps) (w : View) : State :=
  let y := (s.askPages x.ctx a.pages).1
  let z := (y.readLines x (if h.b.isChair then [] else y.viewLines x.ctx w)).accessed x [w, a.target] [] [h.a, h.b]
  (z.reachW x.ctx a.target.vranges).tallyT2 x.ctx [(w, w.cells)]
/-- The state in which an atomic on a word has read it and met its window word. -/
def State.wordRead (s : State) (x : Src) (t : View) (pages : List Nat) (o : Option Nat) : State :=
  (s.askPages x.ctx pages).1.accessed x [t] (o.toList.map wordView) []
/-- The lines of a window word that receives an old value, if there is one. -/
def State.destLines (s : State) (c : Nat) (o : Option Nat) : List Nat :=
  match o with
  | some o => s.viewLines c (wordView o)
  | none => []
/-- The state in which an atomic on a word has made its accesses, and claimed the lines of its window word. -/
def State.wordMet (s : State) (x : Src) (t : View) (pages : List Nat) (o : Option Nat) : State :=
  ((s.wordRead x t pages o).reachW x.ctx t.vranges).claimLines x ((s.wordRead x t pages o).destLines x.ctx o)

section Views
variable {s : State} {x : Src} {a : AtomF} {h : HatomOps} {w : View} (virt : a.target.place = .virt) (source : w.place ≠ .rb)
include virt source

theorem leads_atomMet (granted : (s.askPages x.ctx a.pages).2 = none) : Leads x s (s.atomMet x a h w) := by
  have views : ∀ v ∈ [w, a.target], v.place ≠ .rb := by simp [virt, source]
  exact ((((leads_askPages x s _ _ granted).trans (leads_readLines x _ _)).trans (leads_accessed x _ views (by simp) _)).trans
    (leads_reachW x _ _ _)).trans (leads_tallyT2 x _ _ _)
theorem alike_atomMet (ready : s.pagesReady x.ctx a.pages = true) : Alike s (s.atomMet x a h w) := by
  have views : ∀ v ∈ [w, a.target], v.place ≠ .rb := by simp [virt, source]
  unfold State.atomMet
  rw [askPages_ready ready]
  exact (((alike_readLines s x _).trans (alike_accessed x _ views (by simp) _)).trans (alike_reachW _ _ _)).trans
    (frame_tallyT2 _ _ _).alike

end Views

section Words
variable {s : State} {x : Src} {t : View} {pages : List Nat} (virt : t.place = .virt)
include virt

theorem alike_wordMet (o : Option Nat) (ready : s.pagesReady x.ctx pages = true) : Alike s (s.wordMet x t pages o) := by
  unfold State.wordMet State.wordRead
  rw [askPages_ready ready]
  exact ((alike_accessed x s (by simp [virt]) (by simp [wordView]) []).trans (alike_reachW _ _ _)).trans (alike_claimLines _ _ _)
theorem meets_wordMet (o : Option Nat) (granted : (s.askPages x.ctx pages).2 = none) : Meets x s (s.wordMet x t pages o) :=
  (((leads_askPages x s _ _ granted).trans (leads_accessed x _ (by simp [virt]) (by simp [wordView]) [])).trans
    (leads_reachW x _ _ _)).toMeets.trans (meets_claimLines x _ _)

end Words

-- Entering a queue with chair readers (R86, R110)

/-- The flight as which an instruction that reads chairs enters its queue. -/
def State.readingFlight (s : State) (i : Iss) (x : Src) (readers : List (Nat × Nat)) (lines : List Nat) (b : Body)
    (writes : List (Nat × Byte)) : Flight := { s.newFlight i x lines b writes with chairs := readers }

section Launch
variable (s : State) (i : Iss) (x : Src) (readers : List (Nat × Nat)) (lines : List Nat) (b : Body) (writes : List (Nat × Byte))

theorem sq_launch : (s.launch i x readers lines b writes).sq =
    { s.sq with nextId := s.sq.nextId + 1, flights := s.sq.flights ++ [s.readingFlight i x readers lines b writes] } := by
  have kept : (readers.foldl (fun s p =>
      let l := s.lift x.st p.1
      s.setLift x.st p.1 { l with readers := setNth l.readers p.2 (nth 0 l.readers p.2 + 1) }) s).sq = s.sq :=
    foldl_keeps (f := fun s p =>
      let l := s.lift x.st p.1
      s.setLift x.st p.1 { l with readers := setNth l.readers p.2 (nth 0 l.readers p.2 + 1) }) (g := fun u : State => u.sq)
      (fun _ _ => rfl) readers s
  unfold State.launch
  dsimp only
  rw [kept]
  rfl
theorem frame_launch_readers : Frame [.sp, .sq] s (s.launch i x readers lines b writes) :=
  (frame_foldl (fun u _ => (frame_setLift u _ _ _).mono (by simp)) readers s).step (frame_upd_sq _ _)
theorem standing_launch : Standing s (s.launch i x readers lines b writes) := by
  have frame := frame_launch_readers s i x readers lines b writes
  refine ⟨frame.mem (by simp), frame.tr (by simp), frame.ht (by simp), ?_⟩
  exact foldl_keeps (f := fun s p =>
    let l := s.lift x.st p.1
    s.setLift x.st p.1 { l with readers := setNth l.readers p.2 (nth 0 l.readers p.2 + 1) }) (g := fun u : State => u.sp.seed)
    (fun _ _ => rfl) readers s
theorem seq_launch (st n : Nat) : (s.launch i x readers lines b writes).seq st n = s.seq st n := by
  unfold State.seq
  rw [sq_launch]

end Launch

section Launches
variable {s u : State} {i : Iss} {op c : Nat} (marks : Marks i.st i.sq (s.atIssue i op c) u) (readers : List (Nat × Nat))
  (lines : List Nat) (b : Body) (writes : List (Nat × Byte))
include marks

/-- What has met slips alone since its issue enters its unit's queue, with the chairs that it reads. -/
theorem Marks.launches_readers : Launches s (u.launch i (s.srcOf i op c) readers lines b writes) i c
    (u.readingFlight i (s.srcOf i op c) readers lines b writes) := by
  have plain := marks.launches lines b writes
  have seq := seq_launch u i (s.srcOf i op c) readers lines b writes
  exact {
    pc := by rw [seq]; exact plain.pc
    loops := by rw [seq]; exact plain.loops
    issued := by rw [seq]; exact plain.issued
    flights := by rw [sq_launch, marks.sq, sq_atIssue]
    id := plain.id
    src := plain.src
    post := rfl
    seqs := fun st n other => by rw [seq]; exact plain.seqs st n other }
theorem Marks.sameRegs : SameRegs s (u.launch i (s.srcOf i op c) readers lines b writes) i := fun n => by
  rw [seq_launch, marks.sreg, seq_atIssue, sreg_advance]

end Launches

-- Atomics on views at issue (R152, R153, R155)

/-- At the issue of an atomic on views every check passes, its pages are ready or asked for, and nothing keeps it from its data. -/
structure AtomGoes (u : State) (x : Src) (h : HatomOps) (fmt : Fmt) (v w : View) (a : AtomF) : Prop where
  target : v = u.view x.st x.sq x.ctx h.a 0 0
  source : w = u.view x.st x.sq x.ctx h.b v.rows v.cols
  check : u.atomCheck x fmt h v w = none
  size : v.size ≠ 0
  virt : v.place = .virt
  memory : w.place ≠ .rb
  unguarded : u.guardedView x.ctx v = false
  noMergeTarget : u.mergeView x.ctx v = false
  noMergeSource : u.mergeView x.ctx w = false
  granted : (u.askPages x.ctx a.pages).2 = none
  clear : (u.askPages x.ctx a.pages).1.clearTo x [w, v] [] [] [h.a, h.b]

section Views
variable {s u : State} {i : Iss} {x : Src} {h : HatomOps} {fmt : Fmt} {v w : View} {a : AtomF}

theorem AtomGoes.atomView (goes : AtomGoes u x h fmt v w a) (begins : s.begin i 0x3C [h.b] = (u, some x)) (ok : i.rd = .ok)
    {op win : Nat}
    (window : (u.windowOf x.st x.ctx v.addr (v.extent - v.addr)).getD 0 = win)
    (bound : op < 2 → (u.windowOf x.st x.ctx v.addr (v.extent - v.addr)).isNone = false) (ha : a = u.atomOf x op win h v w) :
    let z := u.atomMet x a h w
    s.atomView op fmt i h = if op < 2 ∧ z.aheadOf x.st a ≥ 32768 then z.addLost x i.post 8 5 a.win a.ordinal
      else z.atomLaunch i x a (z.readersOf x.ctx [h.b]) [] := by
  obtain ⟨rfl, rfl, check, size, virt, memory, unguarded, noMergeTarget, noMergeSource, granted, clear⟩ := goes
  have notBuffer : (u.view x.st x.sq x.ctx h.a 0 0).place ≠ .rb := by rw [virt]; decide
  have notSpd : (u.view x.st x.sq x.ctx h.a 0 0).place ≠ .spd := by rw [virt]; decide
  have noWindow := fun no : op < 2 ∧ _ => Bool.false_ne_true ((bound no.1).symm.trans no.2)
  have ask : u.askPages x.ctx a.pages = ((u.askPages x.ctx a.pages).1, none) := Prod.ext rfl granted
  have access := fun ls => access_clear ok (clearTo_readLines clear ls) 1 0
  unfold State.atomView
  rw [begins]
  dsimp only
  rw [check]
  dsimp only
  rw [if_neg size, if_neg (fun no => notBuffer no.1), if_neg notBuffer]
  simp only [if_pos virt]
  rw [if_neg noWindow, if_neg notSpd, unguarded, if_neg Bool.false_ne_true, if_neg memory, noMergeTarget, if_neg Bool.false_ne_true,
    noMergeSource, if_neg Bool.false_ne_true, window, ← ha, ask]
  dsimp only
  rw [access]
  subst ha
  rfl

/-- The operands of an atomic that passes its checks have one shape. -/
theorem shape_of_atomCheck (check : u.atomCheck x fmt h v w = none) : v.rows = w.rows ∧ v.cols = w.cols := by
  unfold State.atomCheck at check
  dsimp only at check
  split at check
  · cases check
  split at check
  · cases check
  split at check
  · cases check
  split at check
  · cases check
  next same => exact ⟨not_not.1 fun no => same (.inl no), not_not.1 fun no => same (.inr no)⟩
theorem length_vals (s : State) (c : Nat) (v : View) : (s.vals c v).flatten.length = v.size := by
  simp [State.vals, View.size, List.length_flatten, Function.comp_def]

end Views

-- Maxima and minima (R153)

theorem frame_putCode (s : State) (c : Nat) {v : View} (hv : v.place ≠ .rb) (r k code : Nat) :
    Frame [.mem, .tr] s (s.putCode c v r k code) := by
  unfold State.putCode
  split
  next rb => exact absurd rb hv
  next => exact frame_ite (frame_putBytes _ _ _ _ _) (frame_putBytes _ _ _ _ _)
theorem frame_atomMax (s : State) (c : Nat) {a : AtomF} (mem : a.target.place ≠ .rb) : Frame [.mem, .tr, .sw] s (s.atomMax c a) :=
  frame_foldl (fun u _ => ((frame_putCode u c mem _ _ _).mono (by simp)).step (frame_tallyAt _ _ c _ _ _)) _ s
theorem Alike.atomMax {s t : State} (h : Alike s t) (c : Nat) {a : AtomF} (mem : a.target.place ≠ .rb) :
    Alike (s.atomMax c a) (t.atomMax c a) := by
  refine Alike.foldl (fun p u w alike => ?_) _ h
  dsimp only
  refine ((frame_tallyAt _ _ _ _ _ _).alike.symm.trans ?_).trans (frame_tallyAt _ _ _ _ _ _).alike
  rw [alike.valAt c mem]
  exact alike.putCode c mem _ _ _
theorem carries_atomMax (s : State) (c : Nat) {a : AtomF} (fits : a.vals.length = a.target.size) :
    Carries carryParts c a.target s (s.atomMax c a) := by
  refine carries_foldl _ (fun p hp u => ?_) s
  have inside := cell_inside (fits ▸ (List.mem_zipIdx' hp).1)
  exact (carries_putCode u c (fun _ => inside) _).trans (frame_tallyAt _ _ c _ _ _).carries

-- What is launched at once, and what waits (R153, R155)

theorem atomLaunch_waits {s : State} {i : Iss} {x : Src} {a : AtomF} (h : a.op < 2 ∨ s.pagesReady x.ctx a.pages = false)
    (readers : List (Nat × Nat)) (lines : List Nat) : s.atomLaunch i x a readers lines = s.launch i x readers lines (.atom a) :=
  if_pos (h.imp id fun no => by rw [no]; rfl)
theorem atomLaunch_now {s : State} {i : Iss} {x : Src} {a : AtomF} (late : 2 ≤ a.op) (ready : s.pagesReady x.ctx a.pages = true)
    (readers : List (Nat × Nat)) (lines : List Nat) : s.atomLaunch i x a readers lines =
      (s.atomNow x.ctx a).1.launch i x readers lines .plain (s.atomNow x.ctx a).2 :=
  if_neg (not_or.2 ⟨by omega, by rw [ready]; decide⟩)
theorem atomNow_view {s : State} {c : Nat} {a : AtomF} (view : a.op ≤ 3) : s.atomNow c a = (s.atomMax c a, []) := if_pos view
theorem atomNow_word {s : State} {c : Nat} {a : AtomF} (word : 4 ≤ a.op) :
    s.atomNow c a = s.defer (s.atomWord c a) c (a.dest.toList.map wordView) := if_neg (by omega)

section Meets
variable {s z : State} {i : Iss} {op c : Nat} (meets : Meets (s.srcOf i op c) (s.atIssue i op c) z)
include meets

theorem Meets.frame_launch (readers : List (Nat × Nat)) (lines : List Nat) (b : Body) (writes : List (Nat × Byte)) :
    Frame (reaching [.pg, .sq, .sp, .ht, .sw, .out]) s (z.launch i (s.srcOf i op c) readers lines b writes) :=
  (((frame_atIssue s i op c).mono (by simp [reachParts])).trans meets.reached.frame).step (frame_launch_readers _ _ _ _ _ _ _)
/-- An operation that is applied at its issue enters its queue. -/
theorem Meets.launch_applied {t : State} (applied : Frame [.mem, .tr, .sw] z t) (readers : List (Nat × Nat)) (lines : List Nat) (b : Body)
    (writes : List (Nat × Byte)) :
    let r := t.launch i (s.srcOf i op c) readers lines b writes
    Launches s r i c (t.readingFlight i (s.srcOf i op c) readers lines b writes) ∧ SameRegs s r i ∧
      Frame (reaching [.pg, .mem, .sq, .sp, .ht, .sw, .out]) s r := by
  have marks : Marks i.st i.sq (s.atIssue i op c) t := meets.marks.trans applied.marks
  refine ⟨marks.launches_readers readers lines b writes, marks.sameRegs readers lines b writes, ?_⟩
  exact ((((frame_atIssue s i op c).mono (by simp [reachParts])).step meets.reached.frame (by simp [reachParts])).step applied
    (by simp [reachParts])).step (frame_launch_readers _ _ _ _ _ _ _)

/-- A maximum or minimum that is applied at its issue changes memory as it would have then, and no byte outside its target. -/
theorem Meets.launch_best {a : AtomF} (met : Alike (s.atIssue i op c) z) (mem : a.target.place ≠ .rb)
    (fits : a.vals.length = a.target.size) (readers : List (Nat × Nat)) :
    let t := (z.atomMax c a).launch i (s.srcOf i op c) readers [] .plain []
    Launches s t i c ((z.atomMax c a).readingFlight i (s.srcOf i op c) readers [] .plain []) ∧
      t.mem = ((s.atIssue i op c).atomMax c a).mem ∧ MemOutside s t c [a.target] ∧ SameRegs s t i ∧
      Frame (reaching [.pg, .mem, .sq, .sp, .ht, .sw, .out]) s t := by
  obtain ⟨launches, regs, frame⟩ := meets.launch_applied (frame_atomMax _ c mem) readers [] .plain []
  have standing := standing_launch (z.atomMax c a) i (s.srcOf i op c) readers [] .plain []
  refine ⟨launches, standing.mem.trans (met.atomMax c mem).mem, fun b outside => ?_, regs, frame⟩
  calc _ = (z.atomMax c a).mrd b := standing.mrd b
    _ = (s.atomMax c a).mrd b := (((alike_atIssue s i op c).trans met).atomMax c mem).mrd b
    _ = s.mrd b := (carries_atomMax s c fits).mem mem b (outside a.target (by simp))

end Meets

section Issue
variable {s : State} {i : Iss} {c : Nat} {h : HatomOps} {fmt : Fmt} {v w : View} {a : AtomF}
  (goes : AtomGoes (s.atIssue i 0x3C c) (s.srcOf i 0x3C c) h fmt v w a) (issue : s.canIssue i c [h.b]) (ok : i.rd = .ok)
  {op win : Nat} (ha : a = (s.atIssue i 0x3C c).atomOf (s.srcOf i 0x3C c) op win h v w)
include goes ha

theorem AtomGoes.leads : Leads (s.srcOf i 0x3C c) (s.atIssue i 0x3C c) ((s.atIssue i 0x3C c).atomMet (s.srcOf i 0x3C c) a h w) := by
  have virt := goes.virt
  subst ha
  exact leads_atomMet virt goes.memory goes.granted

include issue ok

/-- An addition that its window's count has not overtaken waits for its turn; one that it has is discarded (R155). -/
theorem AtomGoes.addition (window : (s.atIssue i 0x3C c).windowOf i.st c v.addr (v.extent - v.addr) = some win) (add : op < 2) :
    ((s.atIssue i 0x3C c).aheadOf i.st a < 32768 →
      ∃ t f, s.atomView op fmt i h = t ∧ Launches s t i c f ∧ f.body = .atom a ∧ f.lines = [] ∧
        f.chairs = (s.atIssue i 0x3C c).readersOf c [h.b] ∧ t.mem = s.mem ∧ SameRegs s t i ∧
        Frame (reaching [.pg, .sq, .sp, .ht, .sw, .out]) s t) ∧
    (32768 ≤ (s.atIssue i 0x3C c).aheadOf i.st a →
      ∃ t, s.atomView op fmt i h = t ∧ t.sq.flights = s.sq.flights ∧ (∀ k, (t.ctx c).sem k = semPosted i k (s.semTaken i c k)) ∧
        Frame (reaching [.pg, .sq, .sp, .ht, .sw, .out, .free]) s t) := by
  have leads := goes.leads ha
  have run := goes.atomView (begin_atIssue issue _) ok (by rw [srcOf_st, srcOf_ctx, window]; rfl)
    (fun _ => by rw [srcOf_st, srcOf_ctx, window]; rfl) ha
  have isAdd : a.op < 2 := by rw [ha]; exact add
  dsimp only at run
  have ahead : ((s.atIssue i 0x3C c).atomMet (s.srcOf i 0x3C c) a h w).aheadOf (s.srcOf i 0x3C c).st a =
      (s.atIssue i 0x3C c).aheadOf i.st a := by
    unfold State.aheadOf State.awin
    rw [leads.windows]
    rfl
  rw [ahead] at run
  constructor
  · intro early
    rw [if_neg (by omega), atomLaunch_waits (.inl isAdd)] at run
    have frame := leads.frame_launch (((s.atIssue i 0x3C c).atomMet (s.srcOf i 0x3C c) a h w).readersOf c [h.b]) [] (.atom a) []
    exact ⟨_, _, run, leads.marks.launches_readers _ _ _ _, rfl, rfl, leads.readers c [h.b], frame.mem (by simp [reachParts]),
      leads.marks.sameRegs _ _ _ _, frame⟩
  · intro late
    rw [if_pos ⟨add, late⟩] at run
    have lost := sameFlights_addLost ((s.atIssue i 0x3C c).atomMet (s.srcOf i 0x3C c) a h w)
      (s.srcOf i 0x3C c) i.post 8 5 a.win a.ordinal
    refine ⟨_, run, ?_, fun k => ?_, ?_⟩
    · rw [lost.flights, leads.marks.sq, sq_atIssue]
    · refine (sem_addLost _ (s.srcOf i 0x3C c) _ _ _ _ _ _).trans ?_
      rw [sem_postOpt, leads.reached.ctx]
      exact congrArg _ (sem_atIssue s i 0x3C c k)
    · exact (((frame_atIssue s i 0x3C c).mono (by simp [reachParts])).step leads.reached.frame (by simp [reachParts])).step lost.frame
        (by simp [reachParts])
/-- A maximum or minimum is applied to its target alone at once where its pages are ready; else it waits for them (R153, R234). -/
theorem AtomGoes.best (window : ((s.atIssue i 0x3C c).windowOf i.st c v.addr (v.extent - v.addr)).getD 0 = win)
    (hop : op = 2 ∨ op = 3) :
    ((s.atIssue i 0x3C c).pagesReady c a.pages = true →
      ∃ t f, s.atomView op fmt i h = t ∧ Launches s t i c f ∧ f.body = .plain ∧ f.lines = [] ∧
        t.mem = ((s.atIssue i 0x3C c).atomMax c a).mem ∧ MemOutside s t c [v] ∧ SameRegs s t i ∧
        Frame (reaching [.pg, .mem, .sq, .sp, .ht, .sw, .out]) s t) ∧
    ((s.atIssue i 0x3C c).pagesReady c a.pages = false →
      ∃ t f, s.atomView op fmt i h = t ∧ Launches s t i c f ∧ f.body = .atom a ∧ SameRegs s t i ∧
        Frame (reaching [.pg, .sq, .sp, .ht, .sw, .out]) s t) := by
  have leads := goes.leads ha
  have run := goes.atomView (begin_atIssue issue _) ok window (fun add => by omega) ha
  have isOp : a.op = op := by rw [ha]; rfl
  have late : 2 ≤ a.op := by omega
  have view : a.op ≤ 3 := by omega
  have target : a.target = v := by rw [ha]; rfl
  have virt : a.target.place = .virt := by rw [target]; exact goes.virt
  have mem : a.target.place ≠ .rb := by rw [virt]; decide
  have met : (s.atIssue i 0x3C c).pagesReady c a.pages = true →
      Alike (s.atIssue i 0x3C c) ((s.atIssue i 0x3C c).atomMet (s.srcOf i 0x3C c) a h w) :=
    alike_atomMet (x := s.srcOf i 0x3C c) virt goes.memory
  dsimp only at run
  rw [if_neg (by omega)] at run
  generalize (s.atIssue i 0x3C c).atomMet (s.srcOf i 0x3C c) a h w = z at leads run met
  constructor
  · intro ready
    have there : z.pagesReady c a.pages = true := ((met ready).places.pagesReady c a.pages).trans ready
    rw [atomLaunch_now (x := s.srcOf i 0x3C c) late there, atomNow_view view] at run
    have fits : a.vals.length = a.target.size := by
      obtain ⟨rows, cols⟩ := shape_of_atomCheck goes.check
      rw [target, View.size, rows, cols, ha]
      exact length_vals _ _ w
    obtain ⟨launches, memory, outside, regs, frame⟩ := leads.launch_best (met ready) mem fits (z.readersOf c [h.b])
    rw [target] at outside
    exact ⟨_, _, run, launches, rfl, rfl, memory, outside, regs, frame⟩
  · intro waits
    have later : z.pagesReady c a.pages = false := Bool.eq_false_iff.2 fun ready => by
      rw [leads.ready c _ ready] at waits
      cases waits
    rw [atomLaunch_waits (x := s.srcOf i 0x3C c) (.inr later)] at run
    exact ⟨_, _, run, leads.marks.launches_readers _ _ _ _, rfl, leads.marks.sameRegs _ _ _ _, leads.frame_launch _ _ _ _⟩

end Issue

-- The word operations' words (R153)

/-- The view of a word of virtual memory. -/
def wordTarget (va : Nat) : View := { place := .virt, addr := va, fmt := .n16, rows := 1, cols := 2, stride := 16 }

theorem parts_wordTarget (va : Nat) : (wordTarget va).parts = [(0, 4)] := by
  have bytes : rowBytes .n16 2 = 4 := by decide
  have plain : scaled .n16 = false := by decide
  simp [View.parts, wordTarget, bytes, plain]
theorem parts_wordView (o : Nat) : (wordView o).parts = [(0, 4)] := by
  have bytes : rowBytes .n16 2 = 4 := by decide
  have plain : scaled .n16 = false := by decide
  simp [View.parts, wordView, bytes, plain]
theorem byteAddr_wordTarget (s : State) (c va j : Nat) : s.byteAddr c (wordTarget va) j = (s.vaAddr c (va + j)).getD (2 ^ 48) := rfl
/-- An aligned word that is mapped for writing, in a page at rest, stands in four bytes behind one another. -/
theorem word_page {s : State} {c va : Nat} (aligned : va % 4 = 0) (mapped : s.mapped c va 4 true = true)
    (ready : s.pagesReady c (pageRange va 4) = true) :
    ∃ A, ∀ j, j < 4 → s.vaAddr c (va + j) = some (A + j) ∧
      (s.vpte c (va + j)).write = true ∧ (s.vpte c (va + j)).moving = false := by
  have one : (va + 4 - 1) / 2 ^ 21 + 1 - va / 2 ^ 21 = 1 := by omega
  have page : ∀ j, j < 4 → (va + j) / 2 ^ 21 = va / 2 ^ 21 := fun j hj => by omega
  unfold State.mapped at mapped
  rw [one] at mapped
  simp only [List.range_one, List.all_cons, List.all_nil, Nat.add_zero, Bool.and_true, Bool.not_true, Bool.false_or, Bool.or_eq_true,
    Bool.and_eq_true, decide_eq_true_eq, beq_iff_eq, Nat.reduceEqDiff, false_or] at mapped
  obtain ⟨below, valid, write⟩ := mapped
  have rest : (s.pte (s.ctx c).aspace (va / 2 ^ 21)).moving = false := by
    rw [pagesReady_eq, pageRange, if_neg (by decide), one] at ready
    simp [Pte.ready] at ready
    exact ready.2
  refine ⟨2 ^ 21 * (s.pte (s.ctx c).aspace (va / 2 ^ 21)).frame + va % 2 ^ 21, fun j hj => ?_⟩
  unfold State.vaAddr State.vpte
  rw [page j hj]
  refine ⟨?_, write, rest⟩
  dsimp only
  rw [if_pos ⟨valid, by omega⟩]
  exact congrArg some (by omega)
theorem vwrN_eq_mwrN {s : State} {c va A : Nat} {l : List Byte}
    (h : ∀ j, j < l.length → s.vaAddr c (va + j) = some (A + j) ∧
      (s.vpte c (va + j)).write = true ∧ (s.vpte c (va + j)).moving = false) :
    s.vwrN c va l = s.mwrN A l := by
  induction l generalizing s va A with
  | nil => rfl
  | cons b l ih =>
    obtain ⟨addr, write, rest⟩ := h 0 (by simp)
    have first : s.vwr c va b = s.mwr A b := by
      unfold State.vwr
      rw [Nat.add_zero] at addr write rest
      rw [addr, Nat.add_zero]
      dsimp only
      rw [write, rest]
      rfl
    unfold State.vwrN State.mwrN
    rw [first]
    refine ih fun j hj => ?_
    have same := (frame_mwr s A b).reached
    have later := h (j + 1) (by simpa using hj)
    rw [Nat.add_assoc va, Nat.add_assoc A, Nat.add_comm 1 j, same.places.vaAddr]
    refine ⟨later.1, ?_⟩
    unfold State.vpte State.pte
    rw [same.ctx, (frame_mwr s A b).tr (by simp)]
    exact later.2

-- The same word operation in states that hold the same memory

section Alike
variable {s t : State} (h : Alike s t)
include h

theorem Alike.vwrN (c va : Nat) (l : List Byte) : Alike (s.vwrN c va l) (t.vwrN c va l) := by
  induction l generalizing s t va with
  | nil => exact h
  | cons b l ih => exact ih (h.vwr c va b) (va + 1)
theorem Alike.vrdN (c va n : Nat) : t.vrdN c va n = s.vrdN c va n := by
  unfold State.vrdN State.vrd
  simp only [h.places.vaAddr, funext h.mrd]
theorem Alike.atomWord (c : Nat) (a : AtomF) : Alike (s.atomWord c a) (t.atomWord c a) := by
  unfold State.atomWord
  rw [h.vrdN]
  dsimp only
  split
  · exact (h.vwrN _ _ _).putBytes _ _ _ _
  · exact h.vwrN _ _ _
theorem Alike.defer {u w : State} (g : Alike u w) (c : Nat) (outs : List View) :
    Alike (s.defer u c outs).1 (t.defer w c outs).1 ∧ (t.defer w c outs).2 = (s.defer u c outs).2 := by
  unfold State.defer
  simp only [h.places.winAddr, h.mrd, g.mrd, and_true]
  exact Alike.foldl (f := fun u b => u.mwr b (s.mrd b)) (g := fun u b => u.mwr b (s.mrd b)) (fun b _ _ alike => alike.mwr b _) _ g

end Alike

-- The effect of a word operation (R95, R153)

/-- The word that CAS32 or INC32 leaves. -/
def State.wordNew (s : State) (c : Nat) (a : AtomF) : W32 :=
  let old := w32 (leNat (s.vrdN c a.va 4))
  if a.op = 4 then (if old = a.cmp then a.swap else old) else w32 (satAdd 0xFFFFFFFF old.toNat 1)
/-- Bytes put into a window word that waits for completion: only what is none of the word's has changed. -/
theorem mrd_defer_wordView {s t : State} (places : Places s t) (c o b : Nat) {l : List Byte} (hl : l.length = 4) :
    (s.defer (t.putBytes c (wordView o) 0 l) c [wordView o]).1.mrd b =
      if s.writable b = true ∧ b ∈ s.wordAddrs c o then s.mrd b else t.mrd b := by
  have put : Places s (t.putBytes c (wordView o) 0 l) := places.trans (frame_putBytes_spd t c rfl 0 l).reached.places
  rw [defer_wordView, mrd_foldl_mwr, put.writable]
  split
  · rfl
  next outside =>
    refine mrd_putBytes_outside rfl fun j hj writable at_ => outside ?_
    rw [places.writable, places.byteAddr] at writable
    rw [places.byteAddr] at at_
    subst at_
    refine ⟨writable, ?_⟩
    rw [byteAddr_spd rfl] at writable ⊢
    cases addr : s.winAddr c ((wordView o).addr + (0 + j)) with
    | none =>
      rw [addr, Option.getD_none, not_writable_none] at writable
      cases writable
    | some a =>
      rw [Nat.zero_add] at addr
      exact List.mem_filterMap.2 ⟨j, List.mem_range.2 (hl ▸ hj), addr⟩
/-- A byte of a window word that waits for completion is among the writes. -/
theorem mem_writes_defer_wordView {s t : State} (places : Places s t) {c o j : Nat} (aligned : o % 4 = 0) {l : List Byte}
    (hl : l.length = 4) (hj : j < 4) (writable : s.writable (s.byteAddr c (wordView o) j) = true) :
    (s.byteAddr c (wordView o) j, l.getD j 0) ∈ (s.defer (t.putBytes c (wordView o) 0 l) c [wordView o]).2 := by
  have addrs : ∀ k, k < 4 → s.byteAddr c (wordView o) k = ((s.winAddr c o).map (· + k)).getD (2 ^ 48) := fun k hk => by
    rw [byteAddr_spd rfl]
    exact congrArg (Option.getD · _) (winAddr_word s c aligned hk)
  cases base : s.winAddr c o with
  | none =>
    rw [addrs j hj, base, Option.map_none, Option.getD_none, not_writable_none] at writable
    cases writable
  | some a =>
    have at_ : ∀ k, k < 4 → s.byteAddr c (wordView o) k = a + k := fun k hk => by
      rw [addrs k hk, base]
      rfl
    rw [at_ j hj] at writable ⊢
    have put : t.putBytes c (wordView o) 0 l = t.mwrN a l := putBytes_eq_mwrN rfl fun k hk => by
      rw [places.byteAddr, Nat.zero_add]
      exact at_ k (hl ▸ hk)
    rw [defer_wordView, put]
    refine List.mem_map.2 ⟨a + j, List.mem_filterMap.2 ⟨j, List.mem_range.2 hj, ?_⟩, ?_⟩
    · rw [winAddr_word s c aligned hj, base]
      rfl
    · rw [mrd_mwrN_inside t a (hl ▸ hj) (by rw [places.writable]; exact writable)]
theorem mem_wordAddrs {s : State} {c o b : Nat} (h : b ∈ s.wordAddrs c o) : ∃ k, k < 4 ∧ b = s.byteAddr c (wordView o) k := by
  obtain ⟨k, small, addr⟩ := List.mem_filterMap.1 h
  refine ⟨k, List.mem_range.1 small, ?_⟩
  rw [byteAddr_spd rfl]
  exact (congrArg (Option.getD · (2 ^ 48)) addr).symm

/-- A word operation that is applied: its word holds the new value, the old one waits to land in the window word, and no other byte
changes. -/
structure WordDone (s : State) (c : Nat) (a : AtomF) (r : State × List (Nat × Byte)) : Prop where
  new : (∀ d ∈ a.dest.toList, s.apart c (wordTarget a.va) (wordView d)) → ∀ j, j < 4 →
    s.writable (s.byteAddr c (wordTarget a.va) j) = true → r.1.mrd (s.byteAddr c (wordTarget a.va) j) =
      (leBytes 4 (s.wordNew c a).toNat).getD j 0
  none : a.dest = none → r.2 = []
  old : ∀ d, a.dest = some d → ∀ j, j < 4 → s.writable (s.byteAddr c (wordView d) j) = true →
    (s.byteAddr c (wordView d) j, (leBytes 4 (w32 (leNat (s.vrdN c a.va 4))).toNat).getD j 0) ∈ r.2
  outside : ∀ b, s.misses c (wordTarget a.va) b → r.1.mrd b = s.mrd b

theorem wordDone_atomNow {s : State} {c : Nat} {a : AtomF} (word : 4 ≤ a.op) (aligned : a.va % 4 = 0)
    (mapped : s.mapped c a.va 4 true = true) (ready : s.pagesReady c (pageRange a.va 4) = true)
    (window : ∀ d, a.dest = some d → d % 4 = 0) : WordDone s c a (s.atomNow c a) := by
  obtain ⟨A, page⟩ := word_page aligned mapped ready
  have at_ : ∀ j, j < 4 → s.byteAddr c (wordTarget a.va) j = A + j := fun j hj => by
    rw [byteAddr_wordTarget, (page j hj).1]
    rfl
  obtain ⟨W, hW⟩ : ∃ W, W = s.vwrN c a.va (leBytes 4 (s.wordNew c a).toNat) := ⟨_, rfl⟩
  have wrote : W = s.mwrN A (leBytes 4 (s.wordNew c a).toNat) := hW.trans (vwrN_eq_mwrN (by rw [length_leBytes]; exact page))
  have places : Places s W := by
    rw [wrote]
    exact (frame_mwrN s A _).reached.places
  have inside : ∀ j, j < 4 → s.writable (s.byteAddr c (wordTarget a.va) j) = true →
      W.mrd (s.byteAddr c (wordTarget a.va) j) = (leBytes 4 (s.wordNew c a).toNat).getD j 0 := fun j hj writable => by
    rw [at_ j hj] at writable ⊢
    rw [wrote]
    exact mrd_mwrN_inside s A (by rw [length_leBytes]; exact hj) writable
  have outside : ∀ b, s.misses c (wordTarget a.va) b → W.mrd b = s.mrd b := fun b misses => by
    rw [wrote]
    refine mrd_mwrN_outside s A b _ ?_
    rw [length_leBytes]
    by_contra within
    refine misses (0, 4) (by simp [parts_wordTarget]) (b - A) (by dsimp only; omega) ?_
    rw [Nat.zero_add, at_ _ (by omega)]
    omega
  rw [atomNow_word word]
  cases dest : a.dest with
  | none =>
    have run : s.atomWord c a = W := by
      rw [hW]
      unfold State.atomWord
      rw [dest]
      rfl
    rw [run]
    exact ⟨fun _ => inside, fun _ => rfl, fun d hd => (by rw [dest] at hd; cases hd), outside⟩
  | some d =>
    have run : s.atomWord c a = W.putBytes c (wordView d) 0 (leBytes 4 (w32 (leNat (s.vrdN c a.va 4))).toNat) := by
      rw [hW]
      unfold State.atomWord
      rw [dest]
      rfl
    rw [run]
    have after := fun b => mrd_defer_wordView places c d b
      (length_leBytes 4 (w32 (leNat (s.vrdN c a.va 4))).toNat)
    refine ⟨fun apart j hj writable => ?_, fun no => (by rw [dest] at no; cases no), fun e he j hj writable => ?_, fun b misses => ?_⟩
    · refine (after _).trans ?_
      rw [if_neg, inside j hj writable]
      rintro ⟨-, shared⟩
      obtain ⟨k, hk, same⟩ := mem_wordAddrs shared
      have differ := apart d (by simp [dest]) (0, 4) (by simp [parts_wordTarget]) (0, 4) (by simp [parts_wordView]) j k hj hk
      rw [Nat.zero_add, Nat.zero_add] at differ
      exact differ same
    · obtain rfl : d = e := Option.some.inj (dest.symm.trans he)
      exact mem_writes_defer_wordView places (window d dest) (length_leBytes _ _) hj writable
    · refine (after b).trans ?_
      rw [outside b misses, ite_self]

-- Word operations at issue (R152, R153)

/-- The operation that CAS32 or INC32 asks for, with the window word that receives the old value. -/
def State.wordAtom (u : State) (x : Src) (op : Nat) (h : HatomOps) (va : Nat) (o : Option Nat) : AtomF :=
  { op := op, win := 0, ordinal := 0, target := wordTarget va, va := va, vals := [], dest := o,
    cmp := (u.seq x.st x.sq).sreg h.rb, swap := (u.seq x.st x.sq).sreg h.rc }
/-- At the issue of a word operation every check passes, its page is ready or asked for, and nothing keeps it from its data. -/
structure WordGoes (u : State) (x : Src) (h : HatomOps) (va : Nat) (o : Option Nat) : Prop where
  address : va = (u.seq x.st x.sq).addr48 h.ra
  dest : o = if h.b.absent then none else u.wordOpd x h.b
  aligned : va % 4 = 0
  mapped : u.mapped x.ctx va 4 true = true
  window : h.b.absent = true ∨ o ≠ none
  unguarded : u.guarded x.ctx va 4 = false
  noMerge : u.mergeView x.ctx (wordTarget va) = false
  granted : (u.askPages x.ctx (pageRange va 4)).2 = none
  clear : (u.askPages x.ctx (pageRange va 4)).1.clearTo x [wordTarget va] (o.toList.map wordView) [] []

theorem WordGoes.atomWordOp {s u : State} {i : Iss} {x : Src} {h : HatomOps} {va : Nat} {o : Option Nat} (goes : WordGoes u x h va o)
    (begins : s.begin i 0x3C [] = (u, some x)) (ok : i.rd = .ok) {op : Nat} (word : 4 ≤ op) :
    s.atomWordOp op i h = (u.wordMet x (wordTarget va) (pageRange va 4) o).atomLaunch i x (u.wordAtom x op h va o) []
      ((u.wordRead x (wordTarget va) (pageRange va 4) o).destLines x.ctx o) := by
  obtain ⟨rfl, rfl, aligned, mapped, window, unguarded, noMerge, granted, clear⟩ := goes
  have noWindow : ¬((!h.b.absent) = true ∧ (if h.b.absent then none else u.wordOpd x h.b).isNone = true) := fun no => by
    rcases window with absent | some
    · rw [absent] at no
      exact absurd no.1 (by decide)
    · exact some (Option.isNone_iff_eq_none.1 no.2)
  have ask : u.askPages x.ctx (pageRange ((u.seq x.st x.sq).addr48 h.ra) 4) =
      ((u.askPages x.ctx (pageRange ((u.seq x.st x.sq).addr48 h.ra) 4)).1, none) := Prod.ext rfl granted
  have access := access_clear ok clear 1 0
  have isWord : ¬op ≤ 3 := by omega
  unfold State.atomWordOp
  rw [begins]
  dsimp only
  rw [if_neg (by rw [mapped]; simp [aligned]), if_neg noWindow, unguarded, if_neg Bool.false_ne_true]
  change (if u.mergeView x.ctx (wordTarget _) = true then _ else _) = _
  rw [noMerge, if_neg Bool.false_ne_true]
  unfold AtomF.pages
  dsimp only
  rw [if_neg isWord, ask]
  dsimp only
  change (match State.access _ x i [wordTarget _] _ 1 with | (s, false) => s | (s, true) => _) = _
  rw [access]
  rfl

theorem Places.mapped {s t : State} (h : Places s t) (c va len : Nat) (write : Bool) :
    t.mapped c va len write = s.mapped c va len write := by
  have valid : ∀ o k, (t.pte o k).valid = (s.pte o k).valid := fun o k => by rw [h.pte]
  have writes : ∀ o k, (t.pte o k).write = (s.pte o k).write := fun o k => by rw [h.pte]
  unfold State.mapped
  simp only [valid, writes, h.aspace]
theorem frame_atomWord (s : State) (c : Nat) (a : AtomF) : Frame [.mem, .tr] s (s.atomWord c a) := by
  unfold State.atomWord
  dsimp only
  split
  · exact (frame_vwrN s _ _ _).trans (frame_putBytes _ _ _ _ _)
  · exact frame_vwrN s _ _ _

theorem WordGoes.dest_aligned {u : State} {x : Src} {h : HatomOps} {va : Nat} {o : Option Nat} (goes : WordGoes u x h va o) {d : Nat}
    (hd : o = some d) : d % 4 = 0 := by
  have dest := goes.dest
  rw [hd] at dest
  split at dest
  · cases dest
  · exact wordOpd_aligned dest.symm

section Issue
variable {s : State} {i : Iss} {c : Nat} {h : HatomOps} {va : Nat} {o : Option Nat}
  (goes : WordGoes (s.atIssue i 0x3C c) (s.srcOf i 0x3C c) h va o) (issue : s.canIssue i c []) (ok : i.rd = .ok)
  {op : Nat} (word : 4 ≤ op)
include goes issue ok word

/-- CAS32 or INC32 is applied at once where its page is ready, and its old word lands when it completes; else it waits (R95, R153). -/
theorem WordGoes.launches (a : AtomF) (ha : a = (s.atIssue i 0x3C c).wordAtom (s.srcOf i 0x3C c) op h va o) :
    ((s.atIssue i 0x3C c).pagesReady c (pageRange va 4) = true →
      ∃ t f r, s.atomWordOp op i h = t ∧ Launches s t i c f ∧ f.body = .plain ∧ SameRegs s t i ∧ WordDone s c a r ∧
        f.writes = r.2 ∧ (∀ b, t.mrd b = r.1.mrd b) ∧ Frame (reaching [.pg, .mem, .sq, .sp, .ht, .sw, .out]) s t) ∧
    ((s.atIssue i 0x3C c).pagesReady c (pageRange va 4) = false →
      ∃ t f, s.atomWordOp op i h = t ∧ Launches s t i c f ∧ f.body = .atom a ∧ SameRegs s t i ∧
        Frame (reaching [.pg, .sq, .sp, .ht, .sw, .out]) s t) := by
  have issued := alike_atIssue s i 0x3C c
  have run := goes.atomWordOp (begin_atIssue issue _) ok word
  have meets := meets_wordMet (x := s.srcOf i 0x3C c) (t := wordTarget va) rfl o goes.granted
  have met : (s.atIssue i 0x3C c).pagesReady c (pageRange va 4) = true → Alike (s.atIssue i 0x3C c)
      ((s.atIssue i 0x3C c).wordMet (s.srcOf i 0x3C c) (wordTarget va) (pageRange va 4) o) :=
    alike_wordMet (x := s.srcOf i 0x3C c) rfl o
  have isOp : a.op = op := by rw [ha]; rfl
  have isWord : 4 ≤ a.op := isOp ▸ word
  have address : a.va = va := by rw [ha]; rfl
  have dest : a.dest = o := by rw [ha]; rfl
  have pages : a.pages = pageRange va 4 := by
    rw [← address]
    exact if_neg (by omega)
  rw [← ha] at run
  generalize (s.atIssue i 0x3C c).wordMet (s.srcOf i 0x3C c) (wordTarget va) (pageRange va 4) o = z at run meets met
  generalize (s.atIssue i 0x3C c).wordRead (s.srcOf i 0x3C c) (wordTarget va) (pageRange va 4) o = y at run
  rw [← pages]
  rw [← pages] at met
  constructor
  · intro ready
    have same : Alike s z := issued.trans (met ready)
    have there : z.pagesReady c a.pages = true := ((met ready).places.pagesReady c a.pages).trans ready
    rw [atomLaunch_now (x := s.srcOf i 0x3C c) (by omega) there] at run
    have applied : Frame [.mem, .tr, .sw] z (z.atomNow c a).1 := by
      rw [atomNow_word isWord]
      exact ((frame_atomWord z c a).mono (by simp)).step (frame_defer _ _ _ _)
    obtain ⟨launches, regs, frame⟩ := meets.launch_applied applied [] (y.destLines c o) .plain (z.atomNow c a).2
    have now : Alike (s.atomNow c a).1 (z.atomNow c a).1 ∧ (z.atomNow c a).2 = (s.atomNow c a).2 := by
      rw [atomNow_word isWord, atomNow_word isWord]
      exact same.defer (same.atomWord c a) c _
    have done : WordDone s c a (s.atomNow c a) := by
      refine wordDone_atomNow isWord (address ▸ goes.aligned) ?_ ?_ fun d hd => goes.dest_aligned (dest.symm.trans hd)
      · rw [address, ← issued.places.mapped]
        exact goes.mapped
      · rw [address, ← pages, ← issued.places.pagesReady]
        exact ready
    exact ⟨_, _, s.atomNow c a, run, launches, rfl, regs, done, now.2,
      fun b => ((standing_launch _ _ _ _ _ _ _).mrd b).trans (now.1.mrd b), frame⟩
  · intro waits
    have later : z.pagesReady c a.pages = false := Bool.eq_false_iff.2 fun ready => by
      rw [meets.ready c _ ready] at waits
      cases waits
    rw [atomLaunch_waits (x := s.srcOf i 0x3C c) (.inr later)] at run
    exact ⟨_, _, run, meets.marks.launches_readers _ _ _ _, rfl, meets.marks.sameRegs _ _ _ _, meets.frame_launch _ _ _ _⟩

end Issue

/-- Settles O33: an addition waits or is refused, a maximum or minimum is applied or waits, and a word operation replaces its word or
waits, each by the state that it reaches before it is launched. -/
theorem atomicsIssue : Obligations.AtomicsIssue := by
  intro i h c s ok x u v w ready add best va o tv old word
  have adds : ∀ op fmt cmd, op < 2 → (∀ t, s.atomView op fmt i h = t → Runs cmd s t) → add op fmt cmd := by
    intro op fmt cmd isAdd runs win window a ⟨issue, check, size, virt, memory, unguarded, noMergeV, noMergeW, granted, clear⟩
    obtain ⟨waits, lost⟩ := AtomGoes.addition (s := s) (i := i) (c := c) (fmt := fmt) (op := op) (win := win)
      ⟨rfl, rfl, check, size, virt, memory, unguarded, noMergeV, noMergeW, granted, clear⟩ issue ok rfl window isAdd
    refine ⟨fun early => ?_, fun late => ?_⟩
    · obtain ⟨t, f, run, rest⟩ := waits early
      exact ⟨t, f, runs t run, rest⟩
    · obtain ⟨t, run, rest⟩ := lost late
      exact ⟨t, runs t run, rest⟩
  have bests : ∀ op cmd, op = 2 ∨ op = 3 → (∀ t, s.atomView op .n16 i h = t → Runs cmd s t) → best op cmd := by
    intro op cmd isBest runs ⟨issue, check, size, virt, memory, unguarded, noMergeV, noMergeW, granted, clear⟩
    obtain ⟨now, later⟩ := AtomGoes.best (s := s) (i := i) (c := c) (fmt := .n16) (op := op)
      ⟨rfl, rfl, check, size, virt, memory, unguarded, noMergeV, noMergeW, granted, clear⟩ issue ok rfl rfl isBest
    refine ⟨fun there => ?_, fun away => ?_⟩
    · obtain ⟨t, f, run, rest⟩ := now there
      exact ⟨t, f, runs t run, rest⟩
    · obtain ⟨t, f, run, rest⟩ := later away
      exact ⟨t, f, runs t run, rest⟩
  have words : ∀ op new cmd, 4 ≤ op → new = s.wordNew c (u.wordAtom x op h va o) → (∀ t, s.atomWordOp op i h = t → Runs cmd s t) →
      word op new cmd := by
    intro op new cmd isWord hnew runs issue aligned mapped window unguarded noMerge granted clear
    have address : va = (u.seq i.st i.sq).addr48 h.ra := by
      rw [show u.seq i.st i.sq = _ from seq_atIssue s i 0x3C c]
      rfl
    obtain ⟨now, later⟩ := WordGoes.launches (s := s) (i := i) (c := c) (op := op)
      ⟨address, rfl, aligned, mapped, window, unguarded, noMerge, granted, clear⟩ issue ok isWord _ rfl
    refine ⟨fun there => ?_, fun away => ?_⟩
    · obtain ⟨t, f, r, run, launches, body, regs, done, writes, mem, frame⟩ := now there
      refine ⟨t, f, runs t run, launches, body, regs, fun apart j hj writable => ?_, fun none => ?_, fun d hd j hj writable => ?_,
        fun b outside => ?_, frame⟩
      · rw [mem, hnew]
        exact done.new apart j hj writable
      · rw [writes]
        exact done.none none
      · rw [writes]
        exact done.old d hd j hj writable
      · rw [mem]
        exact done.outside b (outside tv (by simp))
    · obtain ⟨t, f, run, launches, body, regs, frame⟩ := later away
      exact ⟨t, f, runs t run, launches, ⟨_, body, rfl, rfl, rfl⟩, regs, frame⟩
  have regs : ∀ n, (u.seq i.st i.sq).sreg n = (s.seq i.st i.sq).sreg n := fun n => by
    rw [show u.seq i.st i.sq = _ from seq_atIssue s i 0x3C c, sreg_advance]
  refine ⟨adds 0 _ _ (by decide) fun t run => congrArg _ run, adds 1 _ _ (by decide) fun t run => congrArg _ run,
    bests 2 _ (.inl rfl) fun t run => congrArg _ run, bests 3 _ (.inr rfl) fun t run => congrArg _ run,
    words 4 _ _ (by decide) ?_ fun t run => congrArg _ run, words 5 _ _ (by decide) rfl fun t run => congrArg _ run⟩
  rw [← regs, ← regs]
  rfl

end Sys2Proof.Machine

/-! The ember cache (R174 to R176): making room, the admission of a missed row, and replicas. -/

namespace Sys2Proof.Machine

-- Room for a row (R175)

theorem frame_emberRoom {st need est n : Nat} {s t : State} (h : s.emberRoom st need est n = some t) : Frame [.pg, .em] s t := by
  induction n generalizing s with
  | zero => contradiction
  | succ n ih =>
    unfold State.emberRoom at h
    split at h
    · exact Option.some.inj h ▸ Frame.refl s
    · split at h
      · split at h
        · exact ((Frame.refl s).step (frame_upd_em s _)).step (frame_bump _ _ _ _) |>.trans (ih h)
        · contradiction
      · contradiction
theorem emberRoom_fits {s : State} {st need : Nat} (fits : s.emberUsed st + need ≤ s.emberLines st) (est n : Nat) :
    s.emberRoom st need est (n + 1) = some s := if_pos fits
/-- A row whose estimate does not exceed the smallest F replaces no entry. -/
theorem emberRoom_refused {s : State} {st need est : Nat} {v : Ember} (full : s.emberLines st < s.emberUsed st + need)
    (victim : s.emberVictim st = some v) (colder : est ≤ v.freq) (n : Nat) : s.emberRoom st need est (n + 1) = none := by
  unfold State.emberRoom
  rw [if_neg (Nat.not_le.2 full), victim]
  exact if_neg (Nat.not_lt.2 colder)

-- Admission (R174, R175)

/-- A row has been looked at for admission: it is not missed any longer. -/
abbrev State.unmissed (s : State) (st slot : Nat) (k : Key) : State :=
  { s with em := { s.em with missed := s.em.missed.erase (st, slot, k) } }
/-- A row enters the ember cache with an F and a copy of its record. -/
def State.emberEnter (s : State) (st slot : Nat) (k : Key) (est : Nat) (d : List Byte) : State :=
  ({ s with em := { s.em with
    embers := s.em.embers ++ [⟨st, slot, k, est, s.em.emberOrder, d⟩], emberOrder := s.em.emberOrder + 1 } } : State).bump st
    Reg.EMB_EC_ADMITS 1
/-- The admission of a row that the stove owns, where there is room for its record. -/
def State.admitRow (s : State) (st slot : Nat) (k : Key) (d : List Byte) : State :=
  if (s.primary st slot k).isSome then s
  else
    match s.emberRoom st (recLines d) (s.sketchMin st k) (s.em.embers.length + 1) with
    | none => s
    | some u => u.emberEnter st slot k (s.sketchMin st k) d

theorem frame_emberEnter (s : State) (st slot : Nat) (k : Key) (est : Nat) (d : List Byte) :
    Frame [.pg, .em] s (s.emberEnter st slot k est d) :=
  ((Frame.refl s).step (frame_upd_em s _)).step (frame_bump _ _ _ _)
theorem frame_admitRow (s : State) (st slot : Nat) (k : Key) (d : List Byte) : Frame [.pg, .em] s (s.admitRow st slot k d) := by
  unfold State.admitRow
  refine frame_ite (Frame.refl s) ?_
  split
  · exact Frame.refl s
  next room => exact (frame_emberRoom room).trans (frame_emberEnter _ _ _ _ _ _)
theorem admitRow_fits {s : State} {st slot : Nat} {k : Key} {d : List Byte} (absent : s.primary st slot k = none)
    (fits : s.emberUsed st + recLines d ≤ s.emberLines st) :
    s.admitRow st slot k d = s.emberEnter st slot k (s.sketchMin st k) d := by
  unfold State.admitRow
  rw [absent, emberRoom_fits fits]
  rfl
theorem admitRow_refused {s : State} {st slot : Nat} {k : Key} {d : List Byte} {v : Ember}
    (full : s.emberLines st < s.emberUsed st + recLines d) (victim : s.emberVictim st = some v) (colder : s.sketchMin st k ≤ v.freq) :
    s.admitRow st slot k d = s := by
  unfold State.admitRow
  rw [emberRoom_refused full victim colder]
  exact ite_self s

theorem next_room (room : Option State) (s : State) (f : State → State) :
    (match room with
      | none => .next s
      | some u => .next (f u) : Res) = .next (match room with
      | none => s
      | some u => f u) := by
  cases room <;> rfl

section Admit
variable {s : State} {st slot : Nat} {k : Key} (missed : s.em.missed.contains (st, slot, k) = true)
include missed

theorem runs_emberAdmit_owned {w ma : Nat} (held : s.heldAt st slot k = some (w, ma, true)) :
    Runs (.emberAdmit st slot k) s
      ((s.unmissed st slot k).admitRow st slot k (s.jrdN st slot w (s.tdesc st slot k.table).wrec)) := by
  have held' : (s.unmissed st slot k).heldAt st slot k = some (w, ma, true) := held
  show execEmberAdmit st slot k s = _
  unfold execEmberAdmit State.admitRow
  dsimp only
  rw [missed, if_neg (by decide), held']
  refine Eq.trans (congrArg (ite _ _) ?_) (apply_ite Host.Outcome.next _ _ _).symm
  exact next_room _ (s.unmissed st slot k) fun u => u.emberEnter st slot k ((s.unmissed st slot k).sketchMin st k) _
theorem runs_emberAdmit_elsewhere (held : s.heldAt st slot k = none) : Runs (.emberAdmit st slot k) s (s.unmissed st slot k) := by
  have held' : (s.unmissed st slot k).heldAt st slot k = none := held
  show execEmberAdmit st slot k s = _
  unfold execEmberAdmit
  dsimp only
  rw [missed, held']
  rfl

end Admit

-- Replicas (R176)

/-- The state without the replica of a row. -/
def State.unreplicated (s : State) (st b : Nat) (k : Key) : State :=
  { s with em := { s.em with replicas := s.em.replicas.filter fun r => !(r.st == st && r.slot == b && r.key == k) } }

section Replica
variable {s : State} {st : Nat} {m : MsgHdr} {b : Nat} (here : s.fenced m = false) (slot : s.slotOf m.jtag = some b) {k : Key}
  {d : List Byte}
include here slot

theorem runs_replica_fits (fits : (s.unreplicated st b k).emberUsed st + recLines d ≤ s.emberLines st) (epoch : Nat) :
    Runs (.replica st m k epoch d) s
      { s with em := { s.em with replicas := (s.unreplicated st b k).em.replicas ++ [⟨st, b, k, epoch, d⟩] } } := by
  show execReplica st m k epoch d s = _
  unfold execReplica
  rw [here, slot]
  exact if_pos fits
theorem runs_replica_full (full : s.emberLines st < (s.unreplicated st b k).emberUsed st + recLines d) (epoch : Nat) :
    Runs (.replica st m k epoch d) s ((s.unreplicated st b k).bump st Reg.EMB_EC_REPL_DROP 1) := by
  show execReplica st m k epoch d s = _
  unfold execReplica
  rw [here, slot]
  exact if_neg (Nat.not_le.2 full)

end Replica

/-- Settles O29: an admission forgets that the row was missed and is then `admitRow`, which asks `emberRoom` for lines; a replica
takes the lines that are left once the older one of its row is gone. -/
theorem emberCache : Obligations.EmberCache := by
  unfold Obligations.EmberCache
  refine ⟨?_, ?_, ?_⟩
  · intro st slot k w ma s missed held d
    have runs := runs_emberAdmit_owned missed held
    refine ⟨fun absent fits => ?_, fun v full victim => ?_⟩
    · have entered : (s.unmissed st slot k).admitRow st slot k d = _ := admitRow_fits absent fits
      refine ⟨_, runs, ?_, ?_, ?_, ((Frame.refl s).step (frame_upd_em s _)).trans (frame_admitRow _ _ _ _ _)⟩
      · rw [entered]
        rfl
      · rw [entered]
        rfl
      · rw [entered]
        exact State.rdN_bump_same _ _ _ _
    · refine ⟨_, runs, fun colder => ?_, ((Frame.refl s).step (frame_upd_em s _)).trans (frame_admitRow _ _ _ _ _)⟩
      have refused : (s.unmissed st slot k).admitRow st slot k d = _ := admitRow_refused full victim colder
      rw [refused]
  · intro st slot k s missed held
    exact runs_emberAdmit_elsewhere missed held
  · intro st m k epoch d b s here slot rest u
    refine ⟨fun fits => ⟨_, runs_replica_fits here slot fits epoch, rfl, frame_upd_em s _⟩,
      fun full => ⟨_, runs_replica_full here slot full epoch, rfl, State.rdN_bump_same _ _ _ _, ?_⟩⟩
    exact ((Frame.refl s).step (frame_upd_em s _)).step (frame_bump _ _ _ _)

end Sys2Proof.Machine

/-! Messages of a sweep (R173, R193, R216, R294): shipments, acknowledgements, digests. -/

namespace Sys2Proof.Machine

section Taken
variable {s : State} {m : MsgHdr} {b : Nat} (here : s.fenced m = false) (slot : s.slotOf m.jtag = some b)
include here slot

section Step
variable (going : (s.job b).inStep = true) (step : m.step = (s.job b).step)
include going step

/-- A shipment of the step in progress without a master record waits for its row. -/
theorem runs_ship_waits (st : Nat) {x : Shipment} (bare : x.master = []) : Runs (.ship st m x) s
    ((s.setJob b { s.job b with ships := (s.job b).ships ++ [(st, x)] }).send (some b) 0x13 m.src [keyArg ⟨x.table, x.row⟩ 1] []
      m.ctx (some m.step)) := by
  show execShip st m x s = _
  unfold execShip
  rw [here, slot]
  have live : ¬ ((!(s.job b).inStep) = true ∨ m.step ≠ (s.job b).step) := by simp [going, step]
  have short : x.master.isEmpty = true := by simp [bare]
  dsimp only
  rw [if_neg live, if_pos short]
  rfl

/-- One with a master record is written where the orders of the step prepared its row. -/
theorem runs_ship_lands {st : Nat} {x : Shipment} {a : Nat × Nat} (whole : x.master ≠ [])
    (place : ((s.job b).orders.map orderOf).findSome? (s.prepared b st ⟨x.table, x.row⟩) = some a) : Runs (.ship st m x) s
    (((s.ownWrite st b a.1 x.working).ownWrite st b a.2 x.master).send (some b) 0x13 m.src [keyArg ⟨x.table, x.row⟩ 1] [] m.ctx
      (some m.step)) := by
  have full : x.master.isEmpty = false := by simpa using whole
  show execShip st m x s = _
  unfold execShip
  rw [here, slot]
  simp only [going, step, full, place, Bool.false_eq_true, Bool.not_true, ne_eq, not_true_eq_false, or_self, if_false]
/-- A digest that comes before the sweep is applied is kept. -/
theorem runs_digest_early (early : (s.job b).applied = false) (st table number : Nat) (shard : Bool) (d : List Byte) :
    Runs (.digest st m table number shard d) s
      (s.setJob b { s.job b with digests := (s.job b).digests ++ [⟨st, ⟨table, number⟩, shard, m.src, leNat d⟩] }) := by
  show execDigest st m table number shard d s = _
  unfold execDigest
  rw [here, slot]
  simp only [going, step, early, Bool.false_eq_true, Bool.not_true, ne_eq, not_true_eq_false, or_self, if_false]

end Step

theorem runs_ack_partial (st : Nat) : Runs (.ack st m 0) s (s.setPartOut b m.step (s.partsOut b m.step - 1)) := by
  show execAck st m 0 s = _
  unfold execAck
  rw [here, slot]
  rfl
theorem runs_ack_shipment (st : Nat) : Runs (.ack st m 1) s (s.setJob b { s.job b with shipOut := (s.job b).shipOut - 1 }) := by
  show execAck st m 1 s = _
  unfold execAck
  rw [here, slot]
  rfl
theorem runs_ack_put (st : Nat) {f : Flight} (there : s.sq.flights.find? (fun f => match f.body with
    | .coll p => p.slot == b && p.op == 7 && p.cseq == m.cseq | _ => false) = some f) :
    Runs (.ack st m 2) s (s.putFlight { f with body := .plain }) := by
  show execAck st m 2 s = _
  unfold execAck
  rw [here, slot]
  show Host.Outcome.next (match s.sq.flights.find? _ with | some f => _ | none => _) = _
  erw [there]

end Taken

theorem partsOut_setPartOut (s : State) (b step n c k : Nat) :
    (s.setPartOut b step n).partsOut c k = if partKey c k = partKey b step then n else s.partsOut c k :=
  tabGet_tabSet _ _ _ _ _

/-- Settles O40: a shipment of the step in progress waits, or is written where the orders prepared its row, and is acknowledged; an
acknowledgement counts down what is outstanding, or ends the PUT that bears its number; an early digest is kept. -/
theorem sweepMessages : Obligations.SweepMessages := by
  unfold Obligations.SweepMessages
  refine ⟨?_, ?_, ?_⟩
  · intro st m x b s here slot going step k ack
    refine ⟨fun bare => ⟨_, runs_ship_waits here slot going step st bare, ?_, ?_⟩, fun a whole place =>
      runs_ship_lands here slot going step whole place⟩
    · exact ((sends_send _ _ _ _ _ _ _ _ _).frame.job (by simp) b).trans (State.job_setJob_same _ _ _)
    · exact ((Frame.refl s).step (frame_setJob s b _)).step (sends_send _ _ _ _ _ _ _ _ _).frame
  · intro st m b s here slot
    refine ⟨⟨_, runs_ack_partial here slot st, ?_, fun c n other => ?_, frame_upd_em s _⟩,
      ⟨_, runs_ack_shipment here slot st, State.job_setJob_same _ _ _, frame_setJob s b _⟩, fun f p there _ =>
      ⟨_, runs_ack_put here slot st there, rfl, frame_setFlights s _⟩⟩
    · rw [partsOut_setPartOut, if_pos rfl]
    · exact (partsOut_setPartOut _ _ _ _ _ _).trans (if_neg other)
  · intro st m table number shard d b s here slot going step early
    exact ⟨_, runs_digest_early here slot going step early st table number shard d, State.job_setJob_same _ _ _, frame_setJob s b _⟩

end Sys2Proof.Machine

/-! An acknowledged partial (R172, R286): the flit of the acknowledgement is counted in a register of the port it goes out on. -/

namespace Sys2Proof.Machine

/-- Slot 0 runs a job of tag 0, with a merge area of one page on stove 0. Logical ID 5 stands at the seat after the module's own, and the
port to it is up. -/
def mergeOwner : State :=
  let s := (State.reset.wr 4 (colReg 0 Reg.COL_JOB_b_CTRL) 1).wr 0 Reg.EMB_JOB_b_MRG_SIZE 1
  (s.setName 5 { valid := true, seat := 1 }).setPort (localPort 0 1) { state := 2 }
/-- A message of the module at seat 1, for the job of tag 0. -/
def fromSeatOne : MsgHdr := ⟨0, 5, 0, 1, 0, 0, 0, 0, 0, 0, 0⟩
/-- A partial of no elements, for row 0 of table 0. -/
def emptyPartial : Partial := ⟨⟨0, 0⟩, 5, 0, 0, []⟩
/-- The count of flits sent on the port to seat 1. -/
abbrev State.flitsToSeatOne (s : State) : W32 := s.rd 4 (Reg.FAB_TX_FLITS + 4096 * localPort 0 1)

theorem flitsToSeatOne_partial : mergeOwner.flitsToSeatOne = 0 ∧
    (Res.after (exec (.partialI 0 fromSeatOne ⟨emptyPartial, .ok⟩) mergeOwner) mergeOwner).flitsToSeatOne = 1 := by
  decide +kernel
/-- Refutes O28: a partial that fits is acknowledged, and the acknowledgement may go out at once, in a flit that the port's TX_FLITS
counts; the statement's frame for one without an error leaves no register to change. -/
theorem not_gradientMerge : ¬ Obligations.GradientMerge := by
  intro h
  obtain ⟨-, -, -, partials⟩ := h
  obtain ⟨fits, -⟩ := partials 0 fromSeatOne emptyPartial 0 .ok mergeOwner (by decide +kernel) (by decide +kernel)
  obtain ⟨t, runs, -, frame, -⟩ := fits (by decide +kernel)
  have kept : t.flitsToSeatOne = mergeOwner.flitsToSeatOne := (frame rfl).rd (by simp [reachParts]) _ _
  rw [← runs.after, flitsToSeatOne_partial.1, flitsToSeatOne_partial.2] at kept
  exact absurd kept (by decide)

end Sys2Proof.Machine

/-! The hopper and the slots of the embedding complex (R163, R164, R179). -/

namespace Sys2Proof.Machine

-- Rings (R163)

theorem frame_setHop (s : State) (st h : Nat) (v : Hop) : Frame [.em] s (s.setHop st h v) := frame_upd_em s _
theorem Frame.hop {l : List Part} {s t : State} (f : Frame l s t) (n : .em ∉ l) (st h : Nat) : t.hop st h = s.hop st h := by
  unfold State.hop
  rw [f.em n]

/-- The range of virtual memory that holds the announcement at HEAD. -/
abbrev HopCfg.atHead (g : HopCfg) (p : Hop) : List (Nat × Nat) := [(g.base + 64 * p.head, 64)]
/-- The announcement of a ring that stands at HEAD. -/
abbrev State.announced (s : State) (st h : Nat) : List Byte :=
  s.vrdN (s.hopCfg st h).ctx ((s.hopCfg st h).base + 64 * (s.hop st h).head) 64
/-- The announcement at HEAD has the expected TAG and GEN. -/
abbrev State.annFresh (s : State) (st h : Nat) : Prop :=
  leAt (s.announced st h) 0x3E 2 = (s.hop st h).tag ∧ leAt (s.announced st h) 0x3C 1 % 2 = (s.hop st h).gen
/-- The stove has read the announcement at HEAD. -/
abbrev State.annRead (s : State) (st h : Nat) : State :=
  s.reachAs st (s.hopCfg st h).ctx ((s.hopCfg st h).atHead (s.hop st h)) false false 1 []
/-- A ring that has taken the announcement e at its HEAD, of the `n` entries. -/
def Hop.taken (p : Hop) (n : Nat) (e : List Byte) : Hop :=
  { p with
    head := (p.head + 1) % n, tag := (p.tag + 1) % 65536, gen := if (p.head + 1) % n = 0 then 1 - p.gen else p.gen, tries := 0,
    fetching := false, doing := some (e, 0) }

section Take
variable {s : State} {st h : Nat}
  (sound : s.memBad st (s.hopCfg st h).ctx ((s.hopCfg st h).atHead (s.hop st h)) false = none)
include sound

theorem hopTake_fresh (fresh : s.annFresh st h) : s.hopTake st h =
    ((s.annRead st h).setHop st h ((s.hop st h).taken (s.hopCfg st h).size (s.announced st h)), true) := by
  unfold State.hopTake
  dsimp only
  rw [sound]
  exact if_pos fresh
theorem hopTake_stale (stale : ¬ s.annFresh st h) : s.hopTake st h = (s.annRead st h, false) := by
  unfold State.hopTake
  dsimp only
  rw [sound]
  exact if_neg stale

end Take

section Fetch
variable {s : State} {st h : Nat} (on : (s.hopCfg st h).on = true) (idle : (s.hop st h).doing = none)
  (still : (s.hop st h).fetching = false) (more : (s.hop st h).head ≠ (s.hop st h).tail)
  (sound : s.memBad st (s.hopCfg st h).ctx ((s.hopCfg st h).atHead (s.hop st h)) false = none)
include on idle still more sound

theorem hopFetch_fresh (fresh : s.annFresh st h) : s.hopFetch st h =
    (s.annRead st h).setHop st h ((s.hop st h).taken (s.hopCfg st h).size (s.announced st h)) := by
  unfold State.hopFetch
  rw [hopTake_fresh sound fresh]
  simp [on, idle, still, more]
theorem hopFetch_stale (stale : ¬ s.annFresh st h) : s.hopFetch st h =
    (s.annRead st h).setHop st h { s.hop st h with fetching := true, tries := 0 } := by
  unfold State.hopFetch
  rw [hopTake_stale sound stale]
  simp [on, idle, still, more]

end Fetch

/-- A ring that has no announcement up to its tail stays as it is. -/
theorem hopFetch_empty {s : State} {st h : Nat} (empty : (s.hop st h).head = (s.hop st h).tail) : s.hopFetch st h = s := by
  unfold State.hopFetch
  simp [empty]

theorem runs_ringEnable {ag : Agent} {st h : Nat} {v : W32} {s : State} (accepted : s.accepts ag st 0x71 v)
    (off : bitOf (s.rdN st (Reg.EMB_HOP_h_CTRL + 32 * h)) 0 = false) (enable : bitOf v.toNat 0 = true) (on : s.blockOn st 0x71 = true)
    {n : Nat} (some_ : 1 ≤ n) (few : n ≤ 16) (size : (s.hopCfg st h).size = 2 ^ n) : Runs (.hopperRingEnable ag st h v) s
      ((s.wr st (Reg.EMB_HOP_h_CTRL + 32 * h) (v &&& 0xFF)).setHop st h { gen := 1 }) := by
  have kept : bitOf (v &&& 0xFF).toNat 0 = true := by
    rw [bitOf_eq_testBit] at enable ⊢
    rw [BitVec.toNat_and, Nat.testBit_and, enable]
    rfl
  have power : ((List.range 17).any fun n => n != 0 && (s.hopCfg st h).size == 2 ^ n) = true :=
    List.any_eq_true.2 ⟨n, List.mem_range.2 (by omega), by simp [size]; omega⟩
  show Host.Outcome.next (s.hopCtrlWrite ag st h v) = _
  unfold State.hopCtrlWrite
  rw [regGuard_seq accepted (by decide)]
  simp only [off, kept, on, power, Bool.false_eq_true, if_false, Bool.not_true, Bool.and_self, if_true]

section Doorbell
variable {ag : Agent} {st h tail : Nat} {s : State} (accepted : s.accepts ag st 0x71 (w32 tail))
include accepted

/-- A doorbell of a ring that is disabled, outside its entries, or at HEAD is ignored. -/
theorem runs_doorbell_ignored (nothing : (s.hopCfg st h).on = false ∨ (s.hopCfg st h).size ≤ tail % 2 ^ 17 ∨
    tail % 2 ^ 17 = (s.hop st h).head) : Runs (.hopperDoorbell ag st h tail) s s := by
  show execHopperDoorbell ag st h tail s = _
  unfold execHopperDoorbell
  rw [regGuard_seq accepted (by decide)]
  exact if_pos (by simpa using nothing)
/-- Any other sets the ring's tail, up to which announcements are fetched. -/
theorem runs_doorbell_fetches (on : (s.hopCfg st h).on = true) (within : tail % 2 ^ 17 < (s.hopCfg st h).size)
    (more : tail % 2 ^ 17 ≠ (s.hop st h).head) : Runs (.hopperDoorbell ag st h tail) s
      ((s.setHop st h { s.hop st h with tail := tail % 2 ^ 17 }).hopFetch st h) := by
  show execHopperDoorbell ag st h tail s = _
  unfold execHopperDoorbell
  rw [regGuard_seq accepted (by decide)]
  exact if_neg (by simp only [on, more, Bool.not_true, Bool.false_eq_true, false_or, or_false]; omega)

end Doorbell

/-- An announcement that stays stale is logged, raised and counted. -/
def State.annMissed (s : State) (st h : Nat) : State :=
  ((s.embLog st 0x0B h 0 (s.hopCfg st h).ctx noKey 0 0).raise st 0x70 7).bump st (Reg.EMB_HOP_h_STALE + 32 * h) 1
theorem frame_annMissed (s : State) (st h : Nat) : Frame [.pg, .out] s (s.annMissed st h) :=
  (((Frame.refl s).step (frame_logErr _ _ _ _)).step (frame_raise _ _ _ _)).step (frame_bump _ _ _ _)

section Reread
variable {st h : Nat} {s : State} (fetching : (s.hop st h).fetching = true)
  (sound : s.memBad st (s.hopCfg st h).ctx ((s.hopCfg st h).atHead (s.hop st h)) false = none)
include fetching sound

theorem runs_reread_fresh (fresh : s.annFresh st h) : Runs (.announcementReread st h) s
    ((s.annRead st h).setHop st h ((s.hop st h).taken (s.hopCfg st h).size (s.announced st h))) := by
  show execAnnouncementReread st h s = _
  unfold execAnnouncementReread
  rw [hopTake_fresh sound fresh]
  simp [fetching]
theorem runs_reread_stale (stale : ¬ s.annFresh st h) (few : (s.hop st h).tries + 1 < 8) : Runs (.announcementReread st h) s
    ((s.annRead st h).setHop st h { s.hop st h with tries := (s.hop st h).tries + 1 }) := by
  show execAnnouncementReread st h s = _
  unfold execAnnouncementReread
  rw [hopTake_stale sound stale]
  simp [fetching, few]
theorem runs_reread_last (stale : ¬ s.annFresh st h) (eighth : 8 ≤ (s.hop st h).tries + 1) : Runs (.announcementReread st h) s
    (((s.annRead st h).setHop st h { s.hop st h with fetching := false, tries := 0, tail := (s.hop st h).head }).annMissed st h) := by
  show execAnnouncementReread st h s = _
  unfold execAnnouncementReread
  rw [hopTake_stale sound stale]
  simp only [fetching, Bool.not_true, Bool.false_eq_true, if_false, if_neg (Nat.not_lt.2 eighth)]
  rfl

end Reread

-- Blocks (R164)

/-- The block's bytes are in the tail chair, which is claimed and not yet FULL. -/
def State.chairWritten (s : State) (st k : Nat) (data : List Byte) : State :=
  let l := s.liftCfg st k
  let v : View := { place := .spd, addr := l.chairAt (s.lift st k).tail }
  ((s.claimTail st k).putBytes l.ctx v 0 data).renewSpd l.ctx [{ v with rows := 1, cols := data.length / 2 }]
theorem frame_chairWritten (s : State) (st k : Nat) (data : List Byte) :
    Frame [.mem, .tr] (s.claimTail st k) (s.chairWritten st k data) :=
  ((Frame.refl _).step (frame_putBytes _ _ _ _ _)).step (frame_renewSpd _ _ _)
theorem frame_chairFull (s : State) (st k n : Nat) : Frame [.cx, .sp] s (s.chairFull st k n) :=
  ((Frame.refl s).step (frame_wakeStove s st)).step (frame_setLift _ _ _ _)
theorem putBlock_eq (s : State) (st k : Nat) (data : List Byte) :
    s.putBlock st k data = (s.chairWritten st k data).chairFull st k (s.lift st k).tail := rfl
theorem lift_putBlock (s : State) (st k : Nat) (data : List Byte) :
    ((s.putBlock st k data).lift st k).chair (s.lift st k).tail = 2 ∧
      ((s.putBlock st k data).lift st k).tail = ((s.lift st k).tail + 1) % (s.liftCfg st k).chairs := by
  rw [putBlock_eq, lift_chairFull_same, (frame_chairWritten s st k data).lift (by simp)]
  refine ⟨(chair_setNth _ _ _ _).trans (if_pos rfl), ?_⟩
  unfold State.claimTail
  rw [State.lift_setLift_same]
theorem frame_putBlock (s : State) (st k : Nat) (data : List Byte) :
    Frame [.mem, .sp, .tr, .cx] s (s.putBlock st k data) := by
  rw [putBlock_eq]
  refine Frame.step ?_ (frame_chairFull _ _ _ _)
  exact ((Frame.refl s).step (frame_setLift s st k _)).step (frame_chairWritten s st k data)

section Block
variable {st h d n : Nat} {s : State} {e b : List Byte} {last : Bool}

/-- The ranges of virtual memory that `n` occurrences of an announcement, from occurrence d on, are read from. -/
abbrev Ann.ranges (a : Ann) (d n : Nat) : List (Nat × Nat) :=
  [(a.occ + 8 * d, 8 * n), (a.wgt + 2 * d, if a.wgt = 0 then 0 else 2 * n)]
/-- A block of `n` occurrences stands in the tail chair of the ring's lift. -/
def State.blockPut (s : State) (st h : Nat) (e : List Byte) (d n : Nat) (b : List Byte) : State :=
  (s.reachAs st (s.hopCfg st h).ctx ((annOf e).ranges d n) false false 1 []).putBlock st (s.hopCfg st h).lift b
theorem frame_blockPut (s : State) (st h : Nat) (e : List Byte) (d n : Nat) (b : List Byte) :
    Frame (reaching [.mem, .sp]) s (s.blockPut st h e d n b) :=
  ((Frame.refl s).step (reached_reachAs s st _ _ _ _ _ _).frame (by simp [reachParts])).step
    (frame_putBlock _ _ _ _) (by simp [reachParts])
theorem lift_blockPut (s : State) (st h : Nat) (e : List Byte) (d n : Nat) (b : List Byte) :
    let k := (s.hopCfg st h).lift
    ((s.blockPut st h e d n b).lift st k).chair (s.lift st k).tail = 2 ∧
      ((s.blockPut st h e d n b).lift st k).tail = ((s.lift st k).tail + 1) % (s.liftCfg st k).chairs := by
  intro k
  unfold State.blockPut
  have reached := (reached_reachAs s st (s.hopCfg st h).ctx ((annOf e).ranges d n) false false 1 []).frame
  have put := lift_putBlock (s.reachAs st (s.hopCfg st h).ctx ((annOf e).ranges d n) false false 1 []) st k b
  rw [reached.lift (by simp [reachParts])] at put
  unfold State.liftCfg at put ⊢
  simp only [reached.rd (by simp [reachParts])] at put
  exact put

theorem runs_blockWrite (doing : (s.hop st h).doing = some (e, d))
    (enabled : (s.liftCfg st (s.hopCfg st h).lift).enable = true) (hopper : (s.liftCfg st (s.hopCfg st h).lift).producer = 1)
    (empty : (s.lift st (s.hopCfg st h).lift).chair (s.lift st (s.hopCfg st h).lift).tail = 0) (ok : (annOf e).ok = true)
    (block : s.nextBlock (s.hopCfg st h).ctx (annOf e) d (s.liftCfg st (s.hopCfg st h).lift).size = some (b, n, last))
    (sound : s.memBad st (s.hopCfg st h).ctx ((annOf e).ranges d n) false = none) : Runs (.hopperBlockWrite st h .ok) s
      (let t := s.blockPut st h e d n b
      if last then t.hopDone st h else t.setHop st h { t.hop st h with doing := some (e, d + n) }) := by
  show execHopperBlockWrite st h .ok s = _
  unfold execHopperBlockWrite
  dsimp only
  rw [doing]
  dsimp only
  rw [enabled, hopper, if_neg (by decide), if_neg (by simp [empty]), ok, if_neg (by decide), block]
  dsimp only
  rw [sound]
  rfl
/-- The ring after the last block of its announcement, where no other has been posted. -/
theorem hopDone_of_empty {t : State} (empty : (t.hop st h).head = (t.hop st h).tail) :
    t.hopDone st h = t.setHop st h { t.hop st h with doing := none } :=
  hopFetch_empty (by rw [State.hop_setHop_same]; exact empty)

end Block

-- Slots (R179, R210)

/-- The state in which a stove keeps nothing in the ember cache for a slot. -/
def State.emberClear (s : State) (st b : Nat) : State :=
  { s with em := { s.em with
    embers := s.em.embers.filter fun e => !(e.st == st && e.slot == b)
    replicas := s.em.replicas.filter fun e => !(e.st == st && e.slot == b)
    missed := s.em.missed.filter fun e => !(e.1 == st && e.2.1 == b) } }

section Slot
variable {ag : Agent} {st b : Nat} {v : W32} {s : State} (accepted : s.accepts ag st 0x70 v)
include accepted

theorem runs_slotEnable (off : bitOf (s.rdN st (Reg.EMB_JOB_b_CTRL + 16 * b)) 0 = false) (enable : v &&& 1 ≠ 0)
    (on : s.blockOn st 0x70 = true) (serves : s.kd.serviceOnly = false)
    (merge : s.mapped (s.tdir st b).1 (s.rdN st (Reg.EMB_JOB_b_MRG_LO + 32 * b) + 2 ^ 32 * fld (s.rd st (Reg.EMB_JOB_b_MRG_HI + 32 * b)) 15 0)
      (4096 * s.rdN st (Reg.EMB_JOB_b_MRG_SIZE + 32 * b)) true = true)
    (keys : s.mapped (s.tdir st b).1 (s.rdN st (Reg.EMB_JOB_b_KEY_LO + 32 * b) + 2 ^ 32 * fld (s.rd st (Reg.EMB_JOB_b_KEY_HI + 32 * b)) 15 0)
      (4096 * s.rdN st (Reg.EMB_JOB_b_KEY_SIZE + 32 * b)) true = true) :
    Runs (.embJobEnable ag st b v) s (s.wr st (Reg.EMB_JOB_b_CTRL + 16 * b) 1) := by
  show Host.Outcome.next (s.embJobWrite ag st b v) = _
  unfold State.embJobWrite
  rw [regGuard_seq accepted (by decide)]
  dsimp only
  rw [off, if_neg (by decide), if_neg enable, on, serves, merge, keys]
  rfl
theorem runs_slotDisable (on : bitOf (s.rdN st (Reg.EMB_JOB_b_CTRL + 16 * b)) 0 = true) (disable : v &&& 1 = 0)
    (still : (s.job b).inStep = false) (apart : ∀ q, q < 4 → bitOf (s.rdN q (Reg.SWP_JOB_b_CTRL + 64 * b)) 0 = false) :
    Runs (.embJobDisable ag st b v) s ((s.emberClear st b).wr st (Reg.EMB_JOB_b_CTRL + 16 * b) 0) := by
  have none_ : ((List.range 4).any fun q => bitOf (s.rdN q (Reg.SWP_JOB_b_CTRL + 64 * b)) 0) = false :=
    List.any_eq_false.2 fun q hq => by simp [apart q (List.mem_range.1 hq)]
  show Host.Outcome.next (s.embJobWrite ag st b v) = _
  unfold State.embJobWrite
  rw [regGuard_seq accepted (by decide)]
  dsimp only
  rw [on, if_pos rfl, none_, still, if_neg (by simpa using disable)]
  rfl

end Slot

/-- The ring with the tail that a doorbell gives. -/
abbrev State.rung (s : State) (st h x : Nat) : State := s.setHop st h { s.hop st h with tail := x }
theorem hop_rung (s : State) (st h x : Nat) : (s.rung st h x).hop st h = { s.hop st h with tail := x } :=
  State.hop_setHop_same _ _ _ _
theorem announced_rung (s : State) (st h x : Nat) : (s.rung st h x).announced st h = s.announced st h := by
  unfold State.announced
  rw [hop_rung]
  rfl
theorem annFresh_rung (s : State) (st h x : Nat) : (s.rung st h x).annFresh st h ↔ s.annFresh st h := by
  unfold State.annFresh
  rw [announced_rung, hop_rung]
theorem frame_annRead (s : State) (st h : Nat) : Frame reachParts s (s.annRead st h) := (reached_reachAs s st _ _ _ _ _ _).frame
theorem frame_rung_annRead (s : State) (st h x : Nat) : Frame (reaching [.em]) s ((s.rung st h x).annRead st h) :=
  ((Frame.refl s).step (frame_setHop s st h _)).step (frame_annRead _ st h) (by simp [reachParts])

section Rung
variable {st h x : Nat} {s : State} (on : (s.hopCfg st h).on = true) (more : x ≠ (s.hop st h).head)
  (idle : (s.hop st h).doing = none) (still : (s.hop st h).fetching = false)
  (sound : s.memBad st (s.hopCfg st h).ctx ((s.hopCfg st h).atHead (s.hop st h)) false = none)
include on more idle still sound

theorem hopFetch_rung_fresh (fresh : s.annFresh st h) : (s.rung st h x).hopFetch st h = ((s.rung st h x).annRead st h).setHop st h
    ({ s.hop st h with tail := x : Hop }.taken (s.hopCfg st h).size (s.announced st h)) := by
  have fetched := hopFetch_fresh (s := s.rung st h x) (h := h) on (by rw [hop_rung]; exact idle) (by rw [hop_rung]; exact still)
    (by rw [hop_rung]; exact more.symm) (by rw [hop_rung]; exact sound) ((annFresh_rung s st h x).2 fresh)
  rw [fetched, announced_rung, hop_rung]
  rfl
theorem hopFetch_rung_stale (stale : ¬ s.annFresh st h) : (s.rung st h x).hopFetch st h = ((s.rung st h x).annRead st h).setHop st h
    { s.hop st h with tail := x, fetching := true, tries := 0 } := by
  have fetched := hopFetch_stale (s := s.rung st h x) (h := h) on (by rw [hop_rung]; exact idle) (by rw [hop_rung]; exact still)
    (by rw [hop_rung]; exact more.symm) (by rw [hop_rung]; exact sound) (mt (annFresh_rung s st h x).1 stale)
  rw [fetched, hop_rung]

end Rung

/-- Settles O30: each write of a ring or a slot that is in order changes what `setHop` or `wr` says; an announcement is taken by
`hopTake`, from a doorbell and from a re-read alike; and a block stands in the tail chair as `putBlock` leaves it. -/
theorem hopperAndSlots : Obligations.HopperAndSlots := by
  unfold Obligations.HopperAndSlots
  refine ⟨?_, ?_, ?_, ?_, ?_⟩
  · intro ag st h v s accepted _ _ k off enable on ⟨n, some_, few, size⟩
    refine ⟨_, runs_ringEnable accepted off enable on some_ few size, State.rd_wr_same _ _ _ _, ?_, ?_, ?_,
      ((Frame.refl s).step (frame_wr _ _ _ _)).step (frame_setHop _ _ _ _)⟩ <;> rw [State.hop_setHop_same]
  · intro ag st h tail s accepted g p e x fresh
    refine ⟨runs_doorbell_ignored accepted, fun on within more idle still sound =>
      ⟨_, runs_doorbell_fetches accepted on within more, ?_⟩⟩
    by_cases f : fresh
    · rw [hopFetch_rung_fresh on more idle still sound f, State.hop_setHop_same]
      exact ⟨rfl, fun _ => ⟨rfl, rfl, rfl⟩, fun stale => absurd f stale,
        (frame_rung_annRead s st h x).step (frame_setHop _ _ _ _)⟩
    · rw [hopFetch_rung_stale on more idle still sound f, State.hop_setHop_same]
      exact ⟨rfl, fun fresh => absurd fresh f, fun _ => ⟨rfl, rfl, idle, rfl⟩,
        (frame_rung_annRead s st h x).step (frame_setHop _ _ _ _)⟩
  · intro st h s g p e fresh fetching sound
    have read : ∀ v, Frame (reaching [.em]) s ((s.annRead st h).setHop st h v) := fun v =>
      ((Frame.refl s).step (frame_annRead s st h) (by simp [reachParts])).step (frame_setHop _ _ _ _)
    by_cases f : fresh
    · refine ⟨_, runs_reread_fresh fetching sound f, fun _ => ?_, fun stale => absurd f stale⟩
      rw [State.hop_setHop_same]
      exact ⟨rfl, rfl, rfl, rfl, read _⟩
    · by_cases few : p.tries + 1 < 8
      · refine ⟨_, runs_reread_stale fetching sound f few, fun fresh => absurd fresh f, fun _ => ?_⟩
        rw [State.hop_setHop_same]
        exact ⟨rfl, rfl, fun _ => ⟨rfl, read _⟩, fun eighth => absurd few (Nat.not_lt.2 eighth)⟩
      · refine ⟨_, runs_reread_last fetching sound f (Nat.not_lt.1 few), fun fresh => absurd fresh f, fun _ => ?_⟩
        rw [(frame_annMissed _ st h).hop (by simp), State.hop_setHop_same]
        exact ⟨rfl, rfl, fun h => absurd h few, fun _ => ⟨rfl,
          ((read _).mono (by simp [reachParts])).step (frame_annMissed _ st h)⟩⟩
  · intro st h e d y n last s g doing enabled hopper empty ok block sound done
    have runs := runs_blockWrite doing enabled hopper empty ok block sound
    obtain ⟨full, tail⟩ := lift_blockPut s st h e d n y
    have frame := frame_blockPut s st h e d n y
    have same : (s.blockPut st h e d n y).hop st h = s.hop st h := frame.hop (by simp [reachParts]) st h
    have put : ∀ v, Frame (reaching [.mem, .sp, .em]) s ((s.blockPut st h e d n y).setHop st h v) := fun v =>
      (frame.mono (by simp [reachParts])).step (frame_setHop _ _ _ _)
    refine ⟨_, runs, ?_⟩
    dsimp only
    split
    next l =>
      rw [hopDone_of_empty (by rw [same]; exact done l), (frame_setHop _ _ _ _).lift (by simp), State.hop_setHop_same]
      exact ⟨full, tail, rfl, put _⟩
    next =>
      rw [(frame_setHop _ _ _ _).lift (by simp), State.hop_setHop_same]
      exact ⟨full, tail, rfl, put _⟩
  · intro ag st b v s accepted _ _ k at_
    refine ⟨fun off enable on serves merge keys => ⟨_, runs_slotEnable accepted off enable on serves merge keys,
      State.rd_wr_same _ _ _ _, frame_wr _ _ _ _⟩, fun on disable still apart =>
      ⟨_, runs_slotDisable accepted on disable still apart, State.rd_wr_same _ _ _ _, fun x hx => ?_, fun x hx => ?_, rfl,
        ((Frame.refl s).step (frame_upd_em s _)).step (frame_wr _ _ _ _)⟩⟩
    · simpa [imp_iff_not_or] using (List.mem_filter.1 hx).2
    · simpa [imp_iff_not_or] using (List.mem_filter.1 hx).2

end Sys2Proof.Machine

/-! The owner's side of lookups (R167, R182, R187, R188). -/

namespace Sys2Proof.Machine

-- A register word that does not change

/-- The register word at an offset is the same on every die. -/
def KeepsWord (r : Nat) (s t : State) : Prop := ∀ d, t.rd d r = s.rd d r

section Word
variable {r : Nat}

theorem KeepsWord.refl (s : State) : KeepsWord r s s := fun _ => rfl
theorem KeepsWord.trans {a b c : State} (h : KeepsWord r a b) (g : KeepsWord r b c) : KeepsWord r a c := fun d => (g d).trans (h d)
theorem keepsWord_ite {p : Prop} [Decidable p] {s a b : State} (ha : KeepsWord r s a) (hb : KeepsWord r s b) :
    KeepsWord r s (if p then a else b) := by
  split
  · exact ha
  · exact hb
theorem Frame.keepsWord {l : List Part} {s t : State} (f : Frame l s t) (h : .pg ∉ l := by simp) : KeepsWord r s t :=
  fun d => f.rd h d r
theorem KeepsWord.rdN {s t : State} (h : KeepsWord r s t) (d : Nat) : t.rdN d r = s.rdN d r := congrArg BitVec.toNat (h d)

variable (low : r < 0x1000000)
include low

theorem keepsWord_wr (s : State) (d : Nat) {q : Nat} (v : W32) (hq : q < 0x1000000) (other : r ≠ q) : KeepsWord r s (s.wr d q v) :=
  fun _ => (State.rd_wr _ _ _ _ _ _).trans (if_neg (regKey_ne low hq other))

end Word

/-- An offset outside the counts of flits sent (R286). -/
def NoFlitCount (r : Nat) : Prop := r < 0x1000000 ∧ ∀ p, r ≠ Reg.FAB_TX_FLITS + 4096 * (p % 16)

section Sending
variable {r : Nat} (apart : NoFlitCount r)
include apart

theorem keepsWord_sendFlit (s : State) (p : Nat) (f : Flit) (k : Nat) : KeepsWord r s (s.sendFlit p f k) := by
  have returned : ∀ (u : State) (o : Option (Nat × Nat)), KeepsWord r u (u.returnPlace o) := fun u o => by
    cases o with
    | none => exact KeepsWord.refl u
    | some x => exact keepsWord_ite (fun _ => rfl) (KeepsWord.refl u)
  unfold State.sendFlit
  dsimp only
  refine KeepsWord.trans ?_ (returned _ _)
  have placed : ∀ q, KeepsWord r s (s.setPort p q) := fun q => (frame_upd_fb s _).keepsWord
  have counted := fun u : State => keepsWord_wr apart.1 u (4 + p / 16)
    (w32 (u.rdN (4 + p / 16) (Reg.FAB_TX_FLITS + 4096 * (p % 16)) + 1)) (by unfold Reg.FAB_TX_FLITS; omega) (apart.2 p)
  exact ((placed _).trans (counted _)).trans (frame_emit _ _).keepsWord
theorem keepsWord_pump (s : State) (p n : Nat) : KeepsWord r s (s.pump p n) := by
  induction n generalizing s with
  | zero => exact KeepsWord.refl s
  | succ n ih =>
    unfold State.pump
    split
    · exact KeepsWord.refl s
    · exact (keepsWord_sendFlit apart s p _ _).trans (ih _)
theorem keepsWord_transmit (s : State) (m : FabMsg) : KeepsWord r s (s.transmit m) := by
  unfold State.transmit
  dsimp only
  refine keepsWord_ite (frame_emit s _).keepsWord ?_
  split
  · exact ((frame_emit s _).keepsWord.trans (frame_upd_fb _ _).keepsWord).trans (keepsWord_pump apart _ _ _)
  · exact keepsWord_ite (frame_emit s _).keepsWord (frame_upd_fb s _).keepsWord
theorem keepsWord_send (s : State) (slot : Option Nat) (type dst : Nat) (args : List Nat) (data : List Byte) (cx : Nat)
    (step : Option Nat) (cseq : Nat) : KeepsWord r s (s.send slot type dst args data cx step cseq) :=
  keepsWord_ite (frame_upd_fb s _).keepsWord (keepsWord_transmit apart s _)

end Sending

theorem noFlitCount_served : NoFlitCount Reg.EMB_REQ_SERVED := by
  constructor
  · decide
  · unfold Reg.EMB_REQ_SERVED Reg.FAB_TX_FLITS
    omega

-- Reads that meet no error (R231, R232)

theorem ownRead_sound {s : State} {st b va n cls : Nat} (sound : (s.ownRead st b va n .ok cls).2 = none) :
    s.ownRead st b va n .ok cls = (s.reachAs st (s.tdir st b).1 [(va, n)] false false cls [], none) := by
  unfold State.ownRead at sound ⊢
  dsimp only at sound ⊢
  cases met : s.memBad st (s.tdir st b).1 [(va, n)] false with
  | none => rfl
  | some m =>
    rw [met] at sound
    cases m <;> cases sound

/-- Accesses have been made: caches, page counts and wakes have changed, and no byte. -/
structure Accessed (s t : State) : Prop where
  frame : Frame reachParts s t
  alike : Alike s t

theorem Accessed.refl (s : State) : Accessed s s := ⟨Frame.refl s, Alike.refl s⟩
theorem Accessed.trans {a b c : State} (h : Accessed a b) (g : Accessed b c) : Accessed a c :=
  ⟨h.frame.trans g.frame, h.alike.trans g.alike⟩
theorem accessed_reachAs (s : State) (st c : Nat) (rs : List (Nat × Nat)) (write chain : Bool) (cls : Nat) (busy : List Nat) :
    Accessed s (s.reachAs st c rs write chain cls busy) :=
  ⟨(reached_reachAs s st c rs write chain cls busy).frame, alike_reachAs s st c rs write chain cls busy⟩
theorem accessed_ownRead {s : State} {st b va n cls : Nat} (sound : (s.ownRead st b va n .ok cls).2 = none) :
    Accessed s (s.ownRead st b va n .ok cls).1 := by
  rw [ownRead_sound sound]
  exact accessed_reachAs s st _ _ _ _ _ _
theorem ownReads_cons (s : State) (st b : Nat) (r : Nat × Nat) (rs : List (Nat × Nat)) (cls : Nat) :
    s.ownReads st b (r :: rs) cls = if (s.ownRead st b r.1 r.2 .ok cls).2.isSome then s.ownRead st b r.1 r.2 .ok cls
      else (s.ownRead st b r.1 r.2 .ok cls).1.ownReads st b rs cls := by
  have stops : ∀ (w : State × Option MemBad), w.2.isSome = true →
      rs.foldl (fun w r => if w.2.isSome then w else w.1.ownRead st b r.1 r.2 .ok cls) w = w := fun w hw => by
    induction rs with
    | nil => rfl
    | cons x xs ih => rw [List.foldl_cons, if_pos hw, ih]
  unfold State.ownReads
  rw [List.foldl_cons, if_neg (by simp)]
  split
  next found => exact stops _ found
  next none_ =>
    have : s.ownRead st b r.1 r.2 .ok cls = ((s.ownRead st b r.1 r.2 .ok cls).1, none) :=
      Prod.ext rfl (by simpa using none_)
    rw [← this]
theorem accessed_ownReads {s : State} {st b cls : Nat} {rs : List (Nat × Nat)} (sound : (s.ownReads st b rs cls).2 = none) :
    Accessed s (s.ownReads st b rs cls).1 := by
  induction rs generalizing s with
  | nil => exact Accessed.refl s
  | cons r rs ih =>
    rw [ownReads_cons] at sound ⊢
    split at sound
    next found => simp [sound] at found
    next none_ =>
      rw [if_neg none_]
      exact (accessed_ownRead (by simpa using none_)).trans (ih sound)
theorem Accessed.tdesc {s t : State} (h : Accessed s t) (st b k : Nat) : t.tdesc st b k = s.tdesc st b k := by
  have same : t.tdir st b = s.tdir st b := by
    unfold State.tdir State.rdN
    simp only [h.frame.rd (by simp [reachParts])]
  unfold State.tdesc
  dsimp only
  rw [same, h.alike.vrdN]

-- Serving a row (R167, R175, R183)

theorem frame_sketchAdd (s : State) (st : Nat) (k : Key) : Frame [.em] s (s.sketchAdd st k) :=
  frame_foldl (fun u _ => frame_upd_em u _) _ s
theorem frame_emberLook (s : State) (st b : Nat) (k : Key) : Frame [.pg, .em] s (s.emberLook st b k) := by
  unfold State.emberLook
  split
  · exact ((Frame.refl s).step (frame_upd_em s _)).step (frame_bump _ _ _ _)
  · exact ((Frame.refl s).step (frame_bump s _ _ _)).step (frame_sketchAdd _ _ _)
theorem keepsServed_emberLook (s : State) (st b : Nat) (k : Key) : KeepsWord Reg.EMB_REQ_SERVED s (s.emberLook st b k) := by
  unfold State.emberLook
  split
  · exact (frame_upd_em s _).keepsWord.trans (keepsWord_wr (by decide) _ _ _ (by decide) (by decide))
  · exact (keepsWord_wr (by decide) s _ _ (by decide) (by decide)).trans (frame_sketchAdd _ _ _).keepsWord
theorem frame_loadAdd (s : State) (st b : Nat) (k : Key) (part : Bool) : Frame (reaching [.mem, .ht]) s (s.loadAdd st b k part) := by
  unfold State.loadAdd
  exact ((Frame.refl s).step (reached_reachAs s _ _ _ _ _ _ _).frame (by simp [reachParts])).step (reached_ownWrite _ _ _ _ _).frame
    (by simp [reachParts])

/-- The stove notes a row that its ember cache misses, for admission (R174). -/
def State.noteMissed (s : State) (st b : Nat) (k : Key) : State :=
  if (s.primary st b k).isNone ∧ s.emberLines st ≠ 0 ∧ !s.em.missed.contains (st, b, k) then
    { s with em := { s.em with missed := s.em.missed ++ [(st, b, k)] } }
  else s
/-- A served row as it was looked up, counted, and in its shard's load. -/
def State.rowServed (s : State) (st b : Nat) (k : Key) : State :=
  (((s.noteMissed st b k).emberLook st b k).bump st Reg.EMB_REQ_SERVED 1).loadAdd st b k false
theorem sendRow_eq (s : State) (st b : Nat) (m : MsgHdr) (k : Key) (reqStove : Nat) (d : List Byte) :
    s.sendRow st b m k reqStove true d = (s.rowServed st b k).answer m 0x10 reqStove k [] d := rfl
theorem frame_noteMissed (s : State) (st b : Nat) (k : Key) : Frame [.em] s (s.noteMissed st b k) :=
  frame_ite (frame_upd_em s _) (Frame.refl s)
theorem frame_rowServed (s : State) (st b : Nat) (k : Key) :
    Frame (reaching [.pg, .mem, .ht, .em]) s (s.rowServed st b k) := by
  refine Frame.step ?_ (frame_loadAdd _ _ _ _ _) (by simp [reachParts])
  exact (((Frame.refl s).step (frame_noteMissed s st b k)).step (frame_emberLook _ st b k)).step (frame_bump _ _ _ _)
theorem served_rowServed (s : State) (st b : Nat) (k : Key) :
    (s.rowServed st b k).rdN st Reg.EMB_REQ_SERVED = satAdd 0xFFFFFFFF (s.rdN st Reg.EMB_REQ_SERVED) 1 := by
  unfold State.rowServed
  rw [(frame_loadAdd _ _ _ _ _).keepsWord (by simp [reachParts]) |>.rdN, State.rdN_bump_same,
    (keepsServed_emberLook _ st b k).rdN, (frame_noteMissed s st b k).keepsWord.rdN]
theorem frame_answer (s : State) (m : MsgHdr) (type reqStove : Nat) (k : Key) (args : List Nat) (data : List Byte) :
    Frame [.pg, .fb, .out] s (s.answer m type reqStove k args data) := (sends_send _ _ _ _ _ _ _ _ _).frame
theorem keepsServed_answer (s : State) (m : MsgHdr) (type reqStove : Nat) (k : Key) (args : List Nat) (data : List Byte) :
    KeepsWord Reg.EMB_REQ_SERVED s (s.answer m type reqStove k args data) :=
  keepsWord_send noFlitCount_served _ _ _ _ _ _ _ _ _

/-- The record of a row that a stove serves: its ember entry's, else what stands in memory (R167). -/
def State.rowBytes (s : State) (st b : Nat) (k : Key) (w : Nat) : List Byte :=
  ((s.primary st b k).map Ember.bytes).getD (s.jrdN st b w (s.tdesc st b k.table).wrec)
theorem rowBytes_hit {s : State} {st b : Nat} {k : Key} {e : Ember} (hit : s.primary st b k = some e) (w : Nat) :
    s.rowBytes st b k w = e.bytes := by
  unfold State.rowBytes
  rw [hit]
  rfl
theorem rowBytes_miss {s : State} {st b : Nat} {k : Key} (miss : s.primary st b k = none) (w : Nat) :
    s.rowBytes st b k w = s.jrdN st b w (s.tdesc st b k.table).wrec := by
  unfold State.rowBytes
  rw [miss]
  rfl
/-- Where a row's record is read from memory, the read has been made. -/
def State.rowRead (s : State) (st b : Nat) (k : Key) (w : Nat) : State :=
  if (s.primary st b k).isSome then s else (s.ownRead st b w (s.tdesc st b k.table).wrec .ok 0).1

/-- A row that meets no error is served with its record (R167). -/
theorem serveRow_ok {s : State} {st b : Nat} {k : Key} {w : Nat}
    (sound : s.primary st b k = none → (s.ownRead st b w (s.tdesc st b k.table).wrec .ok 0).2 = none)
    (m : MsgHdr) (ma reqStove : Nat) (mecc : Ecc) : s.serveRow st b m k w ma reqStove .ok mecc =
      ((s.rowRead st b k w).rowServed st b k).answer m 0x10 reqStove k [] (s.rowBytes st b k w) := by
  have unserved : ¬ Ecc.ok = Ecc.unitUe := by decide
  have uncounted : ¬ Ecc.ok = Ecc.unitCe := by decide
  have clean : (Ecc.ok == Ecc.hearthUe) = false := by decide
  unfold State.serveRow State.rowRead State.rowBytes
  dsimp only
  rw [if_neg unserved, if_neg uncounted, clean]
  cases hit : s.primary st b k with
  | some e => exact sendRow_eq s st b m k reqStove e.bytes
  | none =>
    simp only [Option.isSome_none, Bool.false_eq_true, if_false, sound hit]
    exact sendRow_eq _ st b m k reqStove _

theorem accessed_rowRead {s : State} {st b : Nat} {k : Key} {w : Nat}
    (sound : s.primary st b k = none → (s.ownRead st b w (s.tdesc st b k.table).wrec .ok 0).2 = none) :
    Accessed s (s.rowRead st b k w) := by
  unfold State.rowRead
  split
  · exact Accessed.refl s
  next miss => exact accessed_ownRead (sound (by simpa using miss))

-- Requests (R187, R188)

section Request
variable {s : State} {st : Nat} {m : MsgHdr} {k : Key} {epoch b : Nat} (here : s.fenced m = false) (slot : s.slotOf m.jtag = some b)
include here slot

theorem runs_lookup_acts (now : epoch = s.epoch st b) (eval : Bool) (reqStove : Nat) (e e' : Ecc) :
    Runs (.lookup st m k epoch eval reqStove ⟨e, e'⟩) s (s.actLookup st b m k eval reqStove e e') := by
  show execLookup st m k epoch eval reqStove ⟨e, e'⟩ s = _
  unfold execLookup
  rw [here, slot]
  exact if_pos now
theorem runs_lookup_held (next_ : epoch = s.epoch st b + 1) (reqStove : Nat) (e e' : Ecc) :
    Runs (.lookup st m k epoch false reqStove ⟨e, e'⟩) s
      { s with em := { s.em with held := s.em.held ++ [⟨st, m, k, epoch, reqStove, e, e'⟩] } } := by
  show execLookup st m k epoch false reqStove ⟨e, e'⟩ s = _
  unfold execLookup
  have past : ¬ epoch = s.epoch st b := by omega
  rw [here, slot]
  dsimp only
  rw [if_neg (by decide), if_neg past, if_neg (by decide), if_pos next_]
theorem runs_lookup_other (past : epoch ≠ s.epoch st b) (far : epoch ≠ s.epoch st b + 1) (reqStove : Nat) (e e' : Ecc) :
    Runs (.lookup st m k epoch false reqStove ⟨e, e'⟩) s (s.answer m 0x12 reqStove k [] []) := by
  show execLookup st m k epoch false reqStove ⟨e, e'⟩ s = _
  unfold execLookup
  rw [here, slot]
  exact (if_neg past).trans (if_neg far)
theorem runs_lookup_refused (past : epoch ≠ s.epoch st b) (reqStove : Nat) (e e' : Ecc) :
    Runs (.lookup st m k epoch true reqStove ⟨e, e'⟩) s
      (((s.embLog st 7 0 b m.ctx k m.src 0).raise st 0x70 4).answer m 0x12 reqStove k [7] []) := by
  show execLookup st m k epoch true reqStove ⟨e, e'⟩ s = _
  unfold execLookup
  rw [here, slot]
  exact if_neg past

end Request

/-- A row of a valid table that no check of the request's kind holds suspect passes the checks of a request. -/
theorem passes_inside {t : TDesc} {u : State} {st b : Nat} {k : Key} {eval : Bool} (valid : t.valid = true) (row : k.row < t.rows)
    (trusted : eval = true ∨ u.isSuspect st b k = false) :
    ¬ (!t.valid ∨ k.row ≥ t.rows ∨ (!eval ∧ u.isSuspect st b k)) := by
  rw [valid]
  obtain rfl | clean := trusted
  · simp [row]
  · simp [row, clean]

section Act
variable {s : State} {st b : Nat} {m : MsgHdr} {k : Key} (sound : (s.ownReads st b (s.heldReads st b k) 0).2 = none)
include sound

/-- The state after the reads that find a row's records. -/
abbrev State.found (s : State) (st b : Nat) (k : Key) : State := (s.ownReads st b (s.heldReads st b k) 0).1

theorem tdesc_found (n : Nat) : (s.found st b k).tdesc st b n = s.tdesc st b n := (accessed_ownReads sound).tdesc st b n
theorem actLookup_outside (outside : (s.tdesc st b k.table).valid = false ∨ (s.tdesc st b k.table).rows ≤ k.row) (eval : Bool)
    (reqStove : Nat) (e e' : Ecc) : s.actLookup st b m k eval reqStove e e' = (s.found st b k).answer m 0x12 reqStove k [] [] := by
  unfold State.actLookup
  dsimp only
  rw [sound, if_neg (by simp)]
  refine if_pos ?_
  obtain bad | far := outside
  · exact .inl (by simp [bad])
  · exact .inr (.inl far)

section Inside
variable (valid : (s.tdesc st b k.table).valid = true) (row : k.row < (s.tdesc st b k.table).rows) {eval : Bool}
  (trusted : eval = true ∨ (s.found st b k).isSuspect st b k = false)
include valid row trusted

theorem actLookup_served {w ma : Nat} (held : (s.found st b k).heldAt st b k = some (w, ma, true)) (reqStove : Nat) (e e' : Ecc) :
    s.actLookup st b m k eval reqStove e e' = (s.found st b k).serveRow st b m k w ma reqStove e e' := by
  unfold State.actLookup
  dsimp only
  rw [sound, if_neg (by simp), if_neg (passes_inside valid row trusted), held]
theorem actLookup_redirects (held : (s.found st b k).heldAt st b k = none) {x : List Byte} (own : (s.found st b k).ovOwn st b k = some x)
    (train : eval = false) (shard : (s.found st b k).ownsShard st b k = true) (reqStove : Nat) (e e' : Ecc) :
    s.actLookup st b m k eval reqStove e e' = (s.found st b k).answer m 0x11 reqStove k [] (leBytes 8 (leAt x 8 6)) := by
  unfold State.actLookup
  dsimp only
  rw [sound, if_neg (by simp), if_neg (passes_inside valid row trusted), held]
  dsimp only
  rw [own]
  exact if_pos ⟨by simp [train], shard⟩
theorem actLookup_elsewhere (held : (s.found st b k).heldAt st b k = none) (own : (s.found st b k).ovOwn st b k = none)
    (reqStove : Nat) (e e' : Ecc) :
    s.actLookup st b m k eval reqStove e e' = (s.found st b k).answer m 0x12 reqStove k [] [] := by
  unfold State.actLookup
  dsimp only
  rw [sound, if_neg (by simp), if_neg (passes_inside valid row trusted), held]
  dsimp only
  rw [own]

end Inside

end Act

/-- Settles O26: with the committed epoch the stove acts on the request from what finding the row's records reads, by the row's holder
and its override entry; a request of another epoch is held, refused, or answered invalid. -/
theorem lookupRequests : Obligations.LookupRequests := by
  unfold Obligations.LookupRequests
  intro st m k epoch eval reqStove b s here slot go u t0
  refine ⟨fun now sound => ?_, fun sound => (accessed_ownReads sound).frame, ?_, ?_, ?_⟩
  · have acts := fun e e' => runs_lookup_acts (k := k) here slot now eval reqStove e e'
    have same : t0 = s.tdesc st b k.table := tdesc_found sound _
    rw [same]
    refine ⟨fun valid row trusted => ?_, fun outside e e' => (acts e e').trans (congrArg _ (actLookup_outside sound outside _ _ _ _))⟩
    refine ⟨fun w ma e' held reads => ?_, fun held e ecc e' train own shard => ?_, fun held ecc e' own => ?_⟩
    · have read : u.primary st b k = none → (u.ownRead st b w (u.tdesc st b k.table).wrec .ok 0).2 = none := by
        rw [tdesc_found sound]
        exact reads
      have served := actLookup_served (m := m) sound valid row trusted held reqStove .ok e'
      rw [serveRow_ok read] at served
      have found := (accessed_ownReads sound).trans (accessed_rowRead read)
      have rows := frame_rowServed (u.rowRead st b k w) st b k
      have frame := ((Frame.refl (l := reaching [.pg, .mem, .ht, .em]) s).step found.frame (by simp [reachParts])).trans rows
      refine ⟨_, (u.rowRead st b k w).rowServed st b k, (acts .ok e').trans (congrArg _ served), ?_, ?_, ?_, ?_⟩
      · cases hit : u.primary st b k with
        | some x => rw [rowBytes_hit hit]
        | none => rw [rowBytes_miss hit, tdesc_found sound]
      · exact frame.out (by simp [reachParts])
      · rw [(keepsServed_answer _ _ _ _ _ _ _).rdN, served_rowServed,
          (found.frame.keepsWord (by simp [reachParts])).rdN]
      · exact (frame.mono (by simp [reachParts])).step (frame_answer _ _ _ _ _ _ _)
    · exact (acts ecc e').trans (congrArg _ (actLookup_redirects sound valid row trusted held own train shard _ _ _))
    · exact (acts ecc e').trans (congrArg _ (actLookup_elsewhere sound valid row trusted held own _ _ _))
  · rintro rfl next_ ecc e'
    exact ⟨_, runs_lookup_held here slot next_ reqStove ecc e', rfl, frame_upd_em s _⟩
  · rintro rfl past far ecc e'
    exact runs_lookup_other here slot past far reqStove ecc e'
  · rintro rfl past ecc e'
    exact ⟨_, _, runs_lookup_refused here slot past reqStove ecc e', rfl,
      ((Frame.refl s).step (frame_logErr _ _ _ _)).step (frame_raise _ _ _ _)⟩

end Sys2Proof.Machine

/-! The requester's side of lookups: rows and what stands in their place (R166 to R169). -/

namespace Sys2Proof.Machine

-- Frames of stored elements (R75, R144)

theorem frame_putLine (s : State) (b st l : Nat) (t : RbTag) (vs : List W16) : Frame [.mem, .tr, .ht] s (s.putLine b st l t vs) := by
  unfold State.putLine
  dsimp only
  split
  · exact (frame_upd_ht s _).mono (by simp)
  · exact ((Frame.refl s).step (frame_vwrN s _ _ _)).step (frame_vwrN _ _ _ _)
theorem frame_putCode_any (s : State) (c : Nat) (v : View) (r k code : Nat) : Frame [.mem, .tr, .ht] s (s.putCode c v r k code) := by
  by_cases hv : v.place = .rb
  · unfold State.putCode
    rw [hv]
    exact frame_putLine s _ _ _ _ _
  · exact (frame_putCode s c hv r k code).mono (by simp)
theorem frame_storeItems (s : State) (c : Nat) (v : View) (u : Nat → Option Nat) (l : List Item) :
    Frame [.mem, .tr, .ht] s (s.storeItems c v u l).1 := by
  have coded : Frame [.mem, .tr, .ht] s (l.foldl (fun (x : State × Tally) p =>
      let e := (tabGet (fun _ => (0, false)) (blockScales v l) (v.blk p.1 p.2.1)).1
      let y := x.1.storeItem c v u e p
      (y.1, x.2.add y.2)) (s, {})).1 := frame_foldl_fst (fun x p => frame_putCode_any x.1 c v _ _ _) l (s, ({} : Tally))
  have scales : ∀ (x : State) (off : Nat) (d : List Byte), Frame [.mem, .tr, .ht] x (x.putBytes c v off d) := fun x off d =>
    (frame_putBytes x c v off d).mono (by simp)
  unfold State.storeItems
  dsimp only
  split
  · exact coded.trans (frame_foldl_fst (fun x k => scales x.1 _ _) _ _)
  · exact coded
theorem frame_reachView (s : State) (c : Nat) (v : View) (rs : List (Nat × Nat)) : Frame (reaching [.ht]) s (s.reachView c v rs) :=
  frame_ite (reached_reachW s c rs).frame (Frame.refl s)

/-- The parts that the pooling of a lookup may touch. -/
abbrev poolParts : List Part := reaching [.mem, .ht, .sw]

theorem frame_poolLookup (s : State) (f : Flight) (l : LookupF) : Frame poolParts s (s.poolLookup f l) := by
  refine frame_foldl (fun u p => ?_) _ s
  dsimp only
  refine Frame.step ?_ (frame_tallyCtx _ _ _ _ _)
  refine Frame.step ?_ (frame_reachView _ _ _ _) (by simp [reachParts])
  exact (frame_storeItems u _ _ _ _).mono (by simp [reachParts])

-- Writes under the number of the flight they belong to (R235)

/-- An effect as a flight's leaves the streams alone where the effect does. -/
theorem frame_asOf {l : List Part} {s : State} {id : Nat} {g : State → State} (h : Frame l (s.setNext id) (g (s.setNext id)))
    (hq : .sq ∉ l) : Frame l s (s.asOf id g) := by
  refine ⟨fun p hp => ?_⟩
  have kept := h.keep p hp
  cases p
  case sq =>
    show ({ (g (s.setNext id)).sq with nextId := s.sq.nextId } : SeqSt) = s.sq
    rw [h.sq hq]
    rfl
  all_goals exact kept

section Writes
variable {s t : State} (h : Places s t) (mem : t.mem = s.mem)
include h mem

/-- A write's place in memory does not depend on the number that it waits under. -/
theorem Places.vwr (c va : Nat) (b : Byte) : Places (s.vwr c va b) (t.vwr c va b) ∧ (t.vwr c va b).mem = (s.vwr c va b).mem := by
  have page : t.vpte c va = { s.vpte c va with count := (t.vpte c va).count } := by
    unfold State.vpte
    rw [h.pte, h.aspace]
  refine ⟨((places_vwr s c va b).symm.trans h).trans (places_vwr t c va b), ?_⟩
  unfold State.vwr
  rw [h.vaAddr]
  split
  · rw [page]
    dsimp only
    split
    · exact mem
    · split
      · exact mem
      · exact (h.mwr mem _ b).2
  · exact mem
theorem Places.putBytes_any (c : Nat) (v : View) (off : Nat) (l : List Byte) :
    Places (s.putBytes c v off l) (t.putBytes c v off l) ∧ (t.putBytes c v off l).mem = (s.putBytes c v off l).mem := by
  induction l generalizing s t off with
  | nil => exact ⟨h, mem⟩
  | cons b l ih =>
    unfold State.putBytes
    rw [h.byteAddr]
    split
    · exact ih (h.vwr mem _ _ b).1 (h.vwr mem _ _ b).2 _
    · exact ih (h.mwr mem _ b).1 (h.mwr mem _ b).2 _

end Writes

theorem places_setNext (s : State) (n : Nat) : Places s (s.setNext n) :=
  ⟨rfl, fun _ _ => rfl, fun _ => rfl, fun _ => rfl, rfl, rfl⟩

-- A row's place in the record (R169)

/-- A row's bytes, and the word of its entry that names them with ROW_VALID, stand in a lookup's record. -/
def State.rowPlaced (s : State) (f : Flight) (l : LookupF) (i : Nat) (e : KeyEnt) (data : List Byte) (valid : Bool) : State :=
  (s.putBytes f.ctx l.recv (32 * e.rowOff) data).putBytes f.ctx l.recv (64 + 32 * i + 24) (leBytes 8 (e.rowOff + 2 ^ 32 * b2n valid))

theorem frame_rowPlaced (s : State) (f : Flight) (l : LookupF) (i : Nat) (e : KeyEnt) (data : List Byte) (valid : Bool) :
    Frame [.mem, .tr] s (s.rowPlaced f l i e data valid) := (frame_putBytes s _ _ _ _).trans (frame_putBytes _ _ _ _ _)
theorem frame_gotRow (s : State) (f : Flight) (l : LookupF) (i : Nat) (e : KeyEnt) (data : List Byte) (valid : Bool) :
    Frame (reaching [.mem, .ht]) s (s.gotRow f l i e data valid).1 := by
  have placed : Frame (reaching [.mem, .ht]) s (s.asOf f.id fun u => u.rowPlaced f l i e data valid) :=
    frame_asOf ((frame_rowPlaced _ f l i e data valid).mono (by simp [reachParts])) (by simp [reachParts])
  exact placed.step (frame_reachView _ _ _ _) (by simp [reachParts])
theorem mem_gotRow (s : State) (f : Flight) (l : LookupF) (i : Nat) (e : KeyEnt) (data : List Byte) (valid : Bool) :
    (s.gotRow f l i e data valid).1.mem = (s.rowPlaced f l i e data valid).mem := by
  obtain ⟨places, mem⟩ := (places_setNext s f.id).putBytes_any rfl f.ctx l.recv (32 * e.rowOff) data
  refine ((frame_reachView _ _ _ _).mem (by simp [reachParts])).trans ?_
  exact (places.putBytes_any mem f.ctx l.recv (64 + 32 * i + 24) (leBytes 8 (e.rowOff + 2 ^ 32 * b2n valid))).2

/-- A lookup's flight, found by its number. -/
theorem mem_flights_of_flight {s : State} {id : Nat} {f : Flight} (h : s.flight id = some f) : f ∈ s.sq.flights :=
  List.mem_of_find?_eq_some h
theorem frame_putFlight (s : State) (g : Flight) : Frame [.sq] s (s.putFlight g) := frame_setFlights s _

section Pool
variable {s : State} {f : Flight} (there : f ∈ s.sq.flights) {l : LookupF}

/-- A lookup that lacks a row waits on. -/
theorem tryPool_waits (lacks : l.keys.all (·.got) = false) : s.tryPool f l = s.putFlight { f with body := .lookup l } := by
  unfold State.tryPool
  rw [lacks]
  rfl
theorem mem_tryPool_waits (lacks : l.keys.all (·.got) = false) : (s.tryPool f l).mem = s.mem := by
  rw [tryPool_waits lacks]
  rfl
/-- A lookup that has every row has pooled. -/
theorem tryPool_pools (whole : l.keys.all (·.got) = true) :
    s.tryPool f l = (s.asOf f.id fun u => u.poolLookup f l).putFlight { f with body := .plain } := by
  unfold State.tryPool
  rw [whole]
  rfl
theorem frame_pooled (s : State) (f : Flight) (l : LookupF) : Frame poolParts s (s.asOf f.id fun u => u.poolLookup f l) :=
  frame_asOf (frame_poolLookup _ f l) (by simp [reachParts])
theorem frame_tryPool (s : State) (f : Flight) (l : LookupF) : Frame (reaching [.mem, .sq, .ht, .sw]) s (s.tryPool f l) :=
  frame_ite (((frame_pooled s f l).mono (by simp [reachParts])).step (frame_putFlight _ _)) ((Frame.refl s).step (frame_putFlight s _))

include there

theorem flight_tryPool_waits (lacks : l.keys.all (·.got) = false) :
    (s.tryPool f l).flight f.id = some { f with body := .lookup l } := by
  rw [tryPool_waits lacks]
  exact flight_putFlight there rfl
theorem flight_tryPool_pools (whole : l.keys.all (·.got) = true) : (s.tryPool f l).flight f.id = some { f with body := .plain } := by
  rw [tryPool_pools whole]
  refine flight_putFlight (f := f) ?_ rfl
  rw [(frame_pooled s f l).sq (by simp [reachParts])]
  exact there

end Pool

-- The fault of a context (R246)

/-- State, fault code and block of a context. -/
def Ctx.verdict (x : Ctx) : Nat × Nat × Nat := (x.state, x.fault, x.faultType)
/-- Every context has the state and the fault that it had. -/
def VerdictsKept (s t : State) : Prop := ∀ c, (t.ctx c).verdict = (s.ctx c).verdict

theorem VerdictsKept.refl (s : State) : VerdictsKept s s := fun _ => rfl
theorem VerdictsKept.trans {s t u : State} (h : VerdictsKept s t) (g : VerdictsKept t u) : VerdictsKept s u :=
  fun c => (g c).trans (h c)
theorem Reached.verdictsKept {l : List Part} {s t : State} (h : Reached l s t) : VerdictsKept s t := fun c => by rw [h.ctx]
theorem Frame.verdictsKept {l : List Part} {s t : State} (f : Frame l s t) (h : .cx ∉ l := by simp) : VerdictsKept s t :=
  (f.reached h).verdictsKept
theorem verdictsKept_ite {p : Prop} [Decidable p] {s a b : State} (ha : VerdictsKept s a) (hb : VerdictsKept s b) :
    VerdictsKept s (if p then a else b) := by
  split
  · exact ha
  · exact hb
theorem verdictsKept_foldl {α : Type} {f : State → α → State} (h : ∀ s a, VerdictsKept s (f s a)) (xs : List α) (s : State) :
    VerdictsKept s (xs.foldl f s) := by
  induction xs generalizing s with
  | nil => exact VerdictsKept.refl s
  | cons x xs ih => exact (h s x).trans (ih _)

/-- A post changes semaphores and their waiters alone of its context (R86). -/
theorem verdictsKept_postOpt (s : State) (x : Src) (o : Option Nat) : VerdictsKept s (s.postOpt x o) := by
  cases o with
  | none => exact VerdictsKept.refl s
  | some k =>
    have posted : VerdictsKept s ((s.wakeStove (stoveOf x.ctx)).setCtx x.ctx
        ((s.ctx x.ctx).setSem k (satAdd 65535 ((s.ctx x.ctx).sem k) 1))) := fun c => by
      rw [State.ctx_setCtx]
      split
      next same =>
        rw [same]
        rfl
      next => rw [(reached_wakeStove s _).ctx]
    unfold State.postOpt State.semPost
    exact verdictsKept_ite (((posted.trans (frame_seqLog _ _ _ _).verdictsKept).trans (frame_raise _ _ _ _).verdictsKept).trans
      (frame_taintSeq _ _ _ _).verdictsKept) posted
theorem verdictsKept_endFlight (s : State) (f : Flight) : VerdictsKept s (s.endFlight f) := (frame_endFlight s f).verdictsKept
theorem verdictsKept_endFlightsOf (s : State) (c : Nat) : VerdictsKept s (s.endFlightsOf c) := by
  have ready : ∀ (u : State) (f : Flight), VerdictsKept u (u.readyLines f) := fun u f =>
    (frame_foldl (l := [.sp]) (fun u _ => frame_ite (frame_upd_sp u _) (Frame.refl u)) _ u).verdictsKept
  refine verdictsKept_foldl (fun u f => verdictsKept_ite (VerdictsKept.refl u) ?_) _ s
  split
  · exact VerdictsKept.refl u
  · exact (frame_putFlight u _).verdictsKept
  · exact (ready u f).trans (frame_putFlight _ _).verdictsKept
  · exact verdictsKept_endFlight u f
theorem verdictsKept_abortJob (s : State) (b : Nat) : VerdictsKept s (s.abortJob b) := by
  have sent : VerdictsKept s (s.broadcast b 0x23 [b, (s.job b).step] []) :=
    verdictsKept_foldl (fun u _ => verdictsKept_ite (VerdictsKept.refl u) (sends_send u _ _ _ _ _ _ _ _).frame.verdictsKept) _ s
  have logged : ∀ u : State, VerdictsKept u (((u.colLog 0x0B b 0 0 0 0 (s.job b).step).raise 4 0xE0 11).taint b) := fun u =>
    ((frame_colLog u _ _ _ _ _ _ _).verdictsKept.trans (frame_raise _ _ _ _).verdictsKept).trans (frame_taint _ _).verdictsKept
  have voided : ∀ (u : State) (f : Flight), VerdictsKept u (u.voidColl f) := fun u f => by
    unfold State.voidColl
    split
    · exact ((frame_fillFree u _ _).verdictsKept.trans (verdictsKept_endFlight _ _)).trans (verdictsKept_postOpt _ _ _)
    · exact VerdictsKept.refl u
  refine verdictsKept_ite ?_ (VerdictsKept.refl s)
  refine ((sent.trans (logged _)).trans (frame_setJob _ _ _).verdictsKept).trans (verdictsKept_foldl (fun u f => ?_) _ _)
  split
  · exact verdictsKept_ite (voided u f) (VerdictsKept.refl u)
  · exact VerdictsKept.refl u
/-- A valid context that has no fault yet takes the one that is reported. -/
theorem verdict_faultCtx {s : State} {c : Nat} (valid : (s.ctx c).valid = true) (sound : (s.ctx c).state ≠ 4) (code type : Nat) :
    ((s.faultCtx c code type).ctx c).verdict = (4, code, type) := by
  have stopped : ∀ (u : State) n q, VerdictsKept u (((u.setSeq (stoveOf c) n q).switchSlot (stoveOf c) (u.seq (stoveOf c) n).slot).drainHalf
      (stoveOf c) (u.seq (stoveOf c) n).slot (u.seq (stoveOf c) n).half) := fun u n q =>
    ((frame_setSeq u _ _ _).verdictsKept.trans (sameFlights_switchSlot _ _ _).frame.verdictsKept).trans
      (sameFlights_drainHalf _ _ _ _).frame.verdictsKept
  unfold State.faultCtx
  extract_lets x u st v w mine ar y running e
  have faulted : (u.ctx c).verdict = (4, code, type) := congrArg Ctx.verdict (State.ctx_setCtx_same _ _ _)
  have ended : VerdictsKept u w :=
    ((verdictsKept_foldl (fun u n => verdictsKept_ite (stopped u n _) (VerdictsKept.refl u)) _ _).trans
      (verdictsKept_endFlightsOf v c)).trans (frame_raise _ _ _ _).verdictsKept
  have left : VerdictsKept u e := by
    refine (ended.trans (frame_upd_ar w _).verdictsKept).trans (verdictsKept_foldl (fun u f => ?_) _ _)
    split
    · exact verdictsKept_ite (verdictsKept_endFlight u f) (VerdictsKept.refl u)
    · exact VerdictsKept.refl u
  rw [if_neg (by simp [x, valid, sound])]
  exact (verdictsKept_ite (left.trans (verdictsKept_abortJob _ _)) left c).trans faulted
theorem verdict_fail {s : State} {c : Nat} (valid : (s.ctx c).valid = true) (sound : (s.ctx c).state ≠ 4) (code type : Nat) :
    ((s.fail c code type).ctx c).verdict = (4, code, type) := by
  have same : (s.taintCtx c).ctx c = s.ctx c := ((frame_taintCtx s c).reached).ctx c
  exact verdict_faultCtx (by rw [same]; exact valid) (by rw [same]; exact sound) code type

-- Responses (R167, R188)

theorem noFlitCount_redirects : NoFlitCount Reg.EMB_REDIRECTS := by
  constructor
  · decide
  · unfold Reg.EMB_REDIRECTS Reg.FAB_TX_FLITS
    omega

section Drop
variable (s : State) (x : Src) (k : Key) (peer pass : Nat)

/-- A row that is dropped is counted and logged, and taints its step (R167). -/
theorem embDrop_one : s.embDrop x k peer pass 1 =
    (((s.bump x.st Reg.EMB_DROPPED 1).embLog x.st 3 0 (s.ctx x.ctx).slot x.ctx k peer pass).raise x.st 0x70 0).taintSeq x.st x.sq x.ctx :=
  rfl
theorem sameFlights_embDrop : SameFlights [.pg, .sq, .sw, .out] s (s.embDrop x k peer pass 1) := by
  rw [embDrop_one]
  refine SameFlights.step ?_ (sameFlights_taintSeq _ _ _ _)
  refine SameFlights.step ?_ (frame_raise _ _ _ _).sameFlights
  exact (((SameFlights.refl s).step (frame_bump _ _ _ _).sameFlights)).step (frame_logErr _ _ _ _).sameFlights
theorem dropped_embDrop : (s.embDrop x k peer pass 1).rdN x.st Reg.EMB_DROPPED =
    satAdd 0xFFFFFFFF (s.rdN x.st Reg.EMB_DROPPED) 1 := by
  rw [embDrop_one, ((frame_taintSeq _ _ _ _).keepsWord (by simp)).rdN, ← State.rdN_bump_same]
  exact congrArg BitVec.toNat (State.rd_raise_other _ _ _ _ (by decide) (by decide) (by decide))

end Drop

/-- A lookup in which a key's row has arrived. -/
abbrev LookupF.got (l : LookupF) (i : Nat) (e : KeyEnt) : LookupF := { l with keys := l.keys.set i { e with got := true } }
/-- The state of a lookup whose row has come as an invalid one: zeros in its place, and the drop counted. -/
def State.rowDropped (s : State) (f : Flight) (l : LookupF) (i : Nat) (e : KeyEnt) (peer : Nat) : State :=
  (s.gotRow f l i e (List.replicate e.wrec 0) false).1.embDrop f.src e.key peer l.pass 1

section Invalid
variable (s : State) (f : Flight) (l : LookupF) (i : Nat) (e : KeyEnt) (peer : Nat)

theorem invalidRow_eq : s.invalidRow f l i e peer = (s.rowDropped f l i e peer).tryPool f (l.got i e) := rfl
theorem sameFlights_rowDropped : SameFlights (reaching [.pg, .mem, .sq, .ht, .sw, .out]) s (s.rowDropped f l i e peer) :=
  ((SameFlights.refl s).step ((frame_gotRow s f l i e _ _).sameFlights (by simp [reachParts])) (by simp [reachParts])).step (sameFlights_embDrop _ _ _ _ _)
theorem mem_rowDropped : (s.rowDropped f l i e peer).mem = (s.rowPlaced f l i e (List.replicate e.wrec 0) false).mem :=
  ((sameFlights_embDrop _ _ _ _ _).frame.mem (by simp)).trans (mem_gotRow s f l i e _ _)
theorem frame_invalidRow : Frame (reaching [.pg, .mem, .sq, .ht, .sw, .out, .free]) s (s.invalidRow f l i e peer) :=
  (((sameFlights_rowDropped s f l i e peer).frame).mono (by simp [reachParts])).step (frame_tryPool _ _ _) (by simp [reachParts])
theorem dropped_invalidRow : (s.invalidRow f l i e peer).rdN f.st Reg.EMB_DROPPED =
    satAdd 0xFFFFFFFF (s.rdN f.st Reg.EMB_DROPPED) 1 := by
  rw [invalidRow_eq, ((frame_tryPool _ f _).keepsWord (by simp [reachParts])).rdN]
  refine (dropped_embDrop _ f.src _ _ _).trans ?_
  rw [((frame_gotRow s f l i e _ _).keepsWord (by simp [reachParts])).rdN]
  rfl

end Invalid

/-- The override entry that names a row's holders is learned (R188). -/
def State.learned (s : State) (st b : Nat) (k : Key) (h : Holders) : State :=
  if (s.ovFind st b k).isSome then s else s.ovInstall st b k (ovBytes k true true h [])
/-- The owner's name in a key's entry of a record is that of a redirect. -/
def State.ownerPlaced (s : State) (f : Flight) (l : LookupF) (i : Nat) (h : Holders) : State :=
  let o := 64 + 32 * i + 16
  let old := leNat (s.bytesLast f.ctx l.recv o 8)
  s.asOf f.id fun s => (s.putBytes f.ctx l.recv o (leBytes 8 (2 ^ 15 * (old / 2 ^ 15) + h.owner + 2 ^ 12 * h.ownerStove + 2 ^ 14))).reachView
    f.ctx l.recv [(l.recv.addr + o, 8)]
/-- The entry of a key whose request a redirect sends to another owner. -/
abbrev KeyEnt.redirect (e : KeyEnt) (h : Holders) : KeyEnt :=
  { e with owner := h.owner, ownerStove := h.ownerStove, relayed := true, redirected := true }
/-- A redirect as it leaves the record, the override table and the fabric. -/
def State.redirected (s : State) (st : Nat) (f : Flight) (l : LookupF) (i : Nat) (e : KeyEnt) (k : Key) (h : Holders) : State :=
  (((s.ownerPlaced f l i h).learned st (s.ctx f.ctx).slot k h).bump st Reg.EMB_REDIRECTS 1).sendLookup st f.ctx
    { l with keys := l.keys.set i (e.redirect h) } (e.redirect h) false

section Redirect
variable (s : State) (st : Nat) (f : Flight) (l : LookupF) (i : Nat) (e : KeyEnt) (k : Key) (h : Holders)

theorem frame_learned (b : Nat) : Frame (reaching [.mem, .ht]) s (s.learned st b k h) := by
  unfold State.learned State.ovInstall
  refine frame_ite (Frame.refl s) ?_
  split
  · exact frame_ite (Frame.refl s) (reached_ownWrite _ _ _ _ _).frame
  · split
    · exact (reached_ownWrite _ _ _ _ _).frame
    · exact Frame.refl s
theorem frame_ownerPlaced : Frame (reaching [.mem, .ht]) s (s.ownerPlaced f l i h) := by
  unfold State.ownerPlaced
  refine frame_asOf ?_ (by simp [reachParts])
  exact ((Frame.refl _).step (frame_putBytes _ _ _ _ _) (by simp [reachParts])).step (frame_reachView _ _ _ _) (by simp [reachParts])
theorem frame_sendLookup (c : Nat) (eval : Bool) : Frame [.pg, .fb, .out] s (s.sendLookup st c l e eval) :=
  ((Frame.refl s).step (frame_bump s _ _ _)).step (sends_send _ _ _ _ _ _ _ _ _).frame
theorem frame_redirected : Frame (reaching [.pg, .mem, .ht, .fb, .out]) s (s.redirected st f l i e k h) := by
  refine Frame.step ?_ (frame_sendLookup _ _ _ _ _ _)
  refine Frame.step ?_ (frame_bump _ _ _ _)
  exact ((Frame.refl s).step (frame_ownerPlaced s f l i h) (by simp [reachParts])).step (frame_learned _ _ _ _ _) (by simp [reachParts])
theorem redirects_redirected : (s.redirected st f l i e k h).rdN st Reg.EMB_REDIRECTS =
    satAdd 0xFFFFFFFF (s.rdN st Reg.EMB_REDIRECTS) 1 := by
  have sent : ∀ (u : State) (m : LookupF) (x : KeyEnt), KeepsWord Reg.EMB_REDIRECTS u (u.sendLookup st f.ctx m x false) := fun u m x =>
    (keepsWord_wr (by decide) u _ _ (by decide) (by decide)).trans (keepsWord_send noFlitCount_redirects _ _ _ _ _ _ _ _ _)
  unfold State.redirected
  rw [(sent _ _ _).rdN, State.rdN_bump_same, ((frame_learned _ _ _ _ _).keepsWord (by simp [reachParts])).rdN,
    ((frame_ownerPlaced s f l i h).keepsWord (by simp [reachParts])).rdN]

end Redirect

section Response
variable {s : State} {st : Nat} {m : MsgHdr} {k : Key} {f : Flight} {l : LookupF} {i : Nat} {e : KeyEnt} (here : s.fenced m = false)
include here

section Waits
variable (waits : s.waiting st m.ctx k = some (f, l, i, e))
include waits

theorem runs_row (d : List Byte) :
    Runs (.row st m k d) s ((s.gotRow f l i e (fitBytes e.wrec d) true).1.tryPool f (l.got i e)) := by
  show execRow st m k d s = _
  unfold execRow
  rw [here, waits]
  rfl
theorem runs_invalid_zero {r : Nat} (fine : has [2, 6, 7, 8] r = false) :
    Runs (.invalid st m k r) s (s.invalidRow f l i e m.src) := by
  show execInvalid st m k r s = _
  unfold execInvalid
  rw [here, waits]
  dsimp only
  rw [fine]
  rfl
theorem runs_invalid_fault {r : Nat} (fatal : has [2, 6, 7, 8] r = true) : Runs (.invalid st m k r) s (s.fail f.ctx r 7) := by
  show execInvalid st m k r s = _
  unfold execInvalid
  rw [here, waits]
  dsimp only
  rw [fatal]
  rfl

end Waits

section Redirects
variable (waits : s.toRedirect st m.ctx k = some (f, l, i, e))
include waits

theorem runs_redirect_once (fresh : e.redirected = false) (h : Holders) : Runs (.redirect st m k h) s
    ((s.redirected st f l i e k h).putFlight { f with body := .lookup { l with keys := l.keys.set i (e.redirect h) } }) := by
  show execRedirect st m k h s = _
  unfold execRedirect
  rw [here, waits]
  dsimp only
  rw [fresh]
  rfl
theorem runs_redirect_again (again : e.redirected = true) (h : Holders) :
    Runs (.redirect st m k h) s (s.invalidRow f l i e m.src) := by
  show execRedirect st m k h s = _
  unfold execRedirect
  rw [here, waits]
  dsimp only
  rw [again]
  rfl

end Redirects

end Response

/-- Settles O27: a row, or the zeros of an invalid one, take their place by `gotRow`, and `tryPool` decides on the flight; a fatal
answer faults the context; a redirect writes the owner's name and sends the request again. -/
theorem lookupAnswers : Obligations.LookupAnswers := by
  unfold Obligations.LookupAnswers
  intro st m k s f l i e here waits flight got place bad
  have there : f ∈ s.sq.flights := mem_flights_of_flight flight
  refine ⟨fun d => ?_, fun r fine => ?_, fun r fatal valid sound => ?_, fun h waits' fresh => ?_, fun h waits' again => ?_⟩
  · have placed := frame_gotRow s f l i e (fitBytes e.wrec d) true
    have there' : f ∈ (s.gotRow f l i e (fitBytes e.wrec d) true).1.sq.flights := by
      rw [placed.sq (by simp [reachParts])]
      exact there
    refine ⟨_, runs_row here waits d, fun lacks => ⟨flight_tryPool_waits there' lacks, ?_, ?_⟩, fun whole =>
      ⟨flight_tryPool_pools there' whole, ?_⟩⟩
    · exact (mem_tryPool_waits lacks).trans (mem_gotRow s f l i e (fitBytes e.wrec d) true)
    · rw [tryPool_waits lacks]
      exact (placed.mono (by simp [reachParts])).step (frame_putFlight _ _)
    · exact (placed.mono (by simp [reachParts])).step (frame_tryPool _ _ _) (by simp [reachParts])
  · have there' : f ∈ (s.rowDropped f l i e m.src).sq.flights := by
      rw [(sameFlights_rowDropped s f l i e m.src).flights]
      exact there
    refine ⟨_, runs_invalid_zero here waits fine, dropped_invalidRow s f l i e m.src, fun lacks => ?_, fun whole => ?_,
      frame_invalidRow s f l i e m.src⟩
    · rw [invalidRow_eq]
      exact ⟨flight_tryPool_waits there' lacks, (mem_tryPool_waits lacks).trans (mem_rowDropped s f l i e m.src)⟩
    · rw [invalidRow_eq]
      exact flight_tryPool_pools there' whole
  · have verdict := verdict_fail valid sound r 7
    unfold Ctx.verdict at verdict
    obtain ⟨state, fault, type⟩ : _ ∧ _ ∧ _ := by simpa only [Prod.mk.injEq] using verdict
    exact ⟨_, runs_invalid_fault here waits fatal, state, fault, type⟩
  · have sent := frame_redirected s st f l i e k h
    have there' : f ∈ (s.redirected st f l i e k h).sq.flights := by
      rw [sent.sq (by simp [reachParts])]
      exact there
    have put := flight_putFlight (g := { f with body := .lookup { l with keys := l.keys.set i (e.redirect h) } }) there' rfl
    refine ⟨_, runs_redirect_once here waits' fresh h, put, ?_, ?_⟩
    · rw [((frame_putFlight _ _).keepsWord (by simp)).rdN]
      exact redirects_redirected s st f l i e k h
    · exact (sent.mono (by simp [reachParts])).step (frame_putFlight _ _)
  · exact ⟨_, runs_redirect_again here waits' again h, dropped_invalidRow s f l i e m.src, frame_invalidRow s f l i e m.src⟩

end Sys2Proof.Machine

/-! EMB_GRAD, and both embedding instructions without features (R86, R94, R165, R170). -/

namespace Sys2Proof.Machine

-- Nothing to do (R94)

section Empty
variable {s : State} {i : Iss} {c : Nat} {a : Opd}

theorem runs_embLookup_empty (issue : s.canIssue i c [a]) (b o : Opd) :
    Runs (.embLookup i 0 a b o) s ((s.atIssue i 0x38 c).postOpt (s.srcOf i 0x38 c) i.post) := by
  show execEmbLookup i 0 a b o s = _
  unfold execEmbLookup
  rw [begin_atIssue issue 0x38]
  rfl
theorem runs_embGrad_empty (issue : s.canIssue i c []) (o : Opd) :
    Runs (.embGrad i 0 a o) s ((s.atIssue i 0x39 c).postOpt (s.srcOf i 0x39 c) i.post) := by
  show execEmbGrad i 0 a o s = _
  unfold execEmbGrad
  rw [begin_atIssue issue 0x39]
  rfl
theorem sameFlights_posted (s : State) (i : Iss) (op c : Nat) :
    SameFlights postParts s ((s.atIssue i op c).postOpt (s.srcOf i op c) i.post) :=
  ((SameFlights.refl s).step (sameFlights_atIssue s i op c)).step (sameFlights_postOpt _ _ _) fun _ => id
theorem sem_posted (s : State) (i : Iss) (op c k : Nat) :
    (((s.atIssue i op c).postOpt (s.srcOf i op c) i.post).ctx c).sem k = semPosted i k (s.semTaken i c k) := by
  rw [← sem_atIssue s i op c k]
  exact sem_postOpt _ i (s.srcOf i op c) k
theorem sameRegs_posted (s : State) (i : Iss) (op c : Nat) :
    SameRegs s ((s.atIssue i op c).postOpt (s.srcOf i op c) i.post) i := fun n => by
  have kept := (marks_postOpt (s.atIssue i op c) (s.srcOf i op c) i.post).sreg n
  rw [srcOf_st, srcOf_sq, seq_atIssue, sreg_advance] at kept
  exact kept

end Empty

-- A gradient pass enters its unit (R165, R170)

/-- The views that a gradient pass reads: its record, the feature table, the gradients. -/
abbrev GradV.reads (v : GradV) : List View := [v.recv, v.feat] ++ v.ins.map fun o => o.2.1
/-- The body of a gradient pass in flight. -/
abbrev GradV.body (v : GradV) : Body :=
  if v.head.refused = true then .plain else .grad ⟨v.recv, v.ins.map fun o => (o.1, o.2.1)⟩
/-- The state in which a gradient pass has read its operands. -/
def State.gradRead (s : State) (x : Src) (a : Opd) (v : GradV) : State :=
  let u := s.readLines x (s.viewLines x.ctx v.recv ++ s.viewLines x.ctx v.feat ++ v.ins.flatMap fun o => s.viewLines x.ctx o.2.1)
  u.accessed x v.reads [] [a]
/-- The state in which a gradient pass has counted the range events of the gradients that it takes. -/
def State.gradMet (s : State) (x : Src) (a : Opd) (v : GradV) : State :=
  let u := s.gradRead x a v
  if v.head.refused then u else u.tallyT2 x.ctx (u.gradCells x.ctx v)

theorem badAddr_none {l : List (Opd × View)} {p : Opd × View → Bool} (h : badAddr l p = none) : ∀ o ∈ l, p o = false := by
  have none_ : l.find? p = none := by simpa [badAddr] using h
  simpa using List.find?_eq_none.1 none_
/-- No view that passes the checks of a gradient pass lies in a reduction buffer. -/
theorem place_of_gradCheck {s : State} {x : Src} {n : Nat} {a o : Opd} (check : s.gradCheck x n a o (s.gradViews x n a o) = none) :
    ∀ w ∈ (s.gradViews x n a o).reads, w.place ≠ .rb := by
  unfold State.gradCheck at check
  extract_lets fits count ins desc extent bad at check
  repeat (split at check; · cases check)
  next recv =>
    have apart := badAddr_none (by simpa using check)
    intro w hw
    simp only [List.cons_append, List.nil_append, List.mem_cons, List.mem_map] at hw
    obtain rfl | rfl | ⟨g, hg, rfl⟩ := hw
    · exact fun rb => recv (.inr rb)
    · exact fun h => Place.noConfusion h
    · simpa using apart (Opd.none, g.2.1) (List.mem_map.2 ⟨g, hg, rfl⟩)

theorem frame_gradRead {s : State} {x : Src} {v : GradV} (views : ∀ w ∈ v.reads, w.place ≠ .rb) (a : Opd) :
    Frame (reaching [.pg, .sq, .sw, .out]) s (s.gradRead x a v) := by
  unfold State.gradRead State.accessed
  dsimp only
  rw [spillViews_of_not_rb views (by simp), List.flatMap_nil, reachW_nil]
  refine Frame.step ?_ (frame_renewSpd _ _ _) (by simp [reachParts])
  exact ((Frame.refl s).step (frame_readLines s x _) (by simp [reachParts])).step (reached_reachAs _ _ _ _ _ _ _ _).frame
    (by simp [reachParts])

theorem frame_gradMet {s : State} {x : Src} {v : GradV} (views : ∀ w ∈ v.reads, w.place ≠ .rb) (a : Opd) :
    Frame (reaching [.pg, .sq, .sw, .out]) s (s.gradMet x a v) :=
  frame_ite (frame_gradRead views a) ((frame_gradRead views a).step (frame_tallyT2 _ _ _))
theorem marks_gradMet {s : State} {x : Src} {v : GradV} (views : ∀ w ∈ v.reads, w.place ≠ .rb) (a : Opd) :
    Marks x.st x.sq s (s.gradMet x a v) := by
  have read : Marks x.st x.sq s (s.gradRead x a v) :=
    ((leads_readLines x s _).trans (leads_accessed x _ views (by simp) [a])).marks
  exact marks_ite read (read.trans (frame_tallyT2 _ _ _).marks)

theorem runs_embGrad {s u : State} {i : Iss} {n : Nat} {a o : Opd} {x : Src} {v : GradV} (begins : s.begin i 0x39 [] = (u, some x))
    (views : u.gradViews x n a o = v) (ok : i.rd = .ok) (some_ : n ≠ 0) (check : u.gradCheck x n a o v = none)
    (apart : (v.recv :: v.ins.map fun w => w.2.1).find? (u.mergeView x.ctx) = none) (clear : u.clearTo x v.reads [] [] [a]) :
    Runs (.embGrad i n a o) s ((u.gradMet x a v).launch i x [] [] v.body) := by
  have access := fun ls => access_clear ok (clearTo_readLines clear ls) 1 0
  show execEmbGrad i n a o s = _
  unfold execEmbGrad
  rw [begins]
  dsimp only
  rw [if_neg some_, views, check]
  dsimp only
  rw [apart, ok]
  dsimp only [State.embUnit]
  rw [access]
  rfl

/-- What a gradient pass leaves as it enters its unit. -/
theorem embGrad_enters {s : State} {i : Iss} {n c : Nat} {a o : Opd} (issue : s.canIssue i c []) (ok : i.rd = .ok) (some_ : n ≠ 0) :
    let x := s.srcOf i 0x39 c
    let u := s.atIssue i 0x39 c
    let v := u.gradViews x n a o
    u.gradCheck x n a o v = none → (v.recv :: v.ins.map fun w => w.2.1).find? (u.mergeView c) = none →
    u.clearTo x v.reads [] [] [a] →
    ∃ t f, Runs (.embGrad i n a o) s t ∧ Launches s t i c f ∧ f.body = v.body ∧ f.lines = [] ∧ SameRegs s t i ∧
      Frame (reaching [.pg, .sq, .sw, .out]) s t := by
  intro x u v check apart clear
  have views : ∀ w ∈ v.reads, w.place ≠ .rb := place_of_gradCheck check
  have marks : Marks i.st i.sq u (u.gradMet x a v) := marks_gradMet (s := u) (x := x) views a
  refine ⟨_, _, runs_embGrad (begin_atIssue issue 0x39) rfl ok some_ check apart clear, marks.launches_readers [] [] v.body [], rfl, rfl,
    marks.sameRegs [] [] v.body [], ?_⟩
  have issued : Frame (reaching [.pg, .sq, .sw, .out]) s u := (frame_atIssue s i 0x39 c).mono (by simp [reachParts])
  exact (issued.trans (frame_gradMet views a)).step (frame_launch _ _ _ _ _ _)

end Sys2Proof.Machine

/-! The record of a lookup: its key entries and what they take of it (R166, R169). -/

namespace Sys2Proof.Machine

-- Occurrences by key (R166)

/-- The occurrences that a table of groups holds. -/
def groupSize {α : Type} (t : Tab (List α)) : Nat := (t.map fun p => p.2.length).sum

theorem tabGet_below {α : Type} (d : Nat → α) {t : Tab α} {lo k : Nat} (sorted : tabSorted lo t = true) (h : k < lo) :
    tabGet d t k = d k := by
  induction t generalizing lo with
  | nil => rfl
  | cons p t ih =>
    obtain ⟨j, w⟩ := p
    simp only [tabSorted, Bool.and_eq_true, decide_eq_true_eq] at sorted
    obtain ⟨low, rest⟩ := sorted
    have other : k ≠ j := by omega
    exact (if_neg other).trans (ih rest (by omega))
theorem mem_tabPut {α : Type} {t : Tab α} {k : Nat} {v : α} {p : Nat × α} (h : p ∈ tabPut t k v) : p = (k, v) ∨ p ∈ t := by
  induction t with
  | nil => exact .inl (List.mem_singleton.1 h)
  | cons q t ih =>
    unfold tabPut at h
    split at h
    · exact (List.mem_cons.1 h).imp_right (List.mem_cons_of_mem _)
    · split at h
      · exact List.mem_cons.1 h
      · obtain rfl | later := List.mem_cons.1 h
        · exact .inr List.mem_cons_self
        · exact (ih later).imp_right (List.mem_cons_of_mem _)
/-- An occurrence joins one group. -/
theorem groupSize_tabPut {α : Type} {t : Tab (List α)} {lo : Nat} (sorted : tabSorted lo t = true) (k : Nat) (o : α) :
    groupSize (tabPut t k (tabGet (fun _ => []) t k ++ [o])) = groupSize t + 1 := by
  induction t generalizing lo with
  | nil => rfl
  | cons p t ih =>
    obtain ⟨j, w⟩ := p
    simp only [tabSorted, Bool.and_eq_true, decide_eq_true_eq] at sorted
    obtain ⟨-, rest⟩ := sorted
    have cons : ∀ (k : Nat) (w : List α) (t : Tab (List α)), groupSize ((k, w) :: t) = w.length + groupSize t := fun _ _ _ => rfl
    unfold tabGet tabPut
    by_cases same : k = j
    · simp only [if_pos same, cons, List.length_append, List.length_singleton]
      omega
    · rw [if_neg same, if_neg same]
      by_cases below : k < j
      · rw [if_pos below, tabGet_below _ rest (by omega)]
        simp only [cons, List.nil_append, List.length_singleton]
        omega
      · rw [if_neg below, cons, ih rest, cons]
        omega

/-- The table of groups that occurrences make. -/
def groupsOf (t : Tab (List Occ)) (l : List Occ) : Tab (List Occ) :=
  l.foldl (fun t o =>
    let k := 2 ^ 40 * o.key.table + o.key.row
    tabPut t k (tabGet (fun _ => []) t k ++ [o])) t
theorem byKey_eq (l : List Occ) : byKey l = (groupsOf [] l).map fun p => (⟨p.1 / 2 ^ 40, p.1 % 2 ^ 40⟩, p.2) := rfl
theorem groupsOf_spec (l : List Occ) {t : Tab (List Occ)} (sorted : tabSorted 0 t = true) (full : ∀ p ∈ t, p.2 ≠ []) :
    groupSize (groupsOf t l) = groupSize t + l.length ∧ ∀ p ∈ groupsOf t l, p.2 ≠ [] := by
  induction l generalizing t with
  | nil => exact ⟨rfl, full⟩
  | cons o l ih =>
    obtain ⟨size, filled⟩ := ih (tabSorted_tabPut (2 ^ 40 * o.key.table + o.key.row)
      (tabGet (fun _ => []) t (2 ^ 40 * o.key.table + o.key.row) ++ [o]) t 0 (Nat.zero_le _) sorted) fun p hp => by
        obtain rfl | old := mem_tabPut hp
        · simp
        · exact full p old
    refine ⟨size.trans ?_, filled⟩
    rw [groupSize_tabPut sorted, List.length_cons]
    omega

/-- Of the groups of a list's occurrences no more are kept than there are occurrences in them, and no more of these than in the list. -/
theorem kept_le {α : Type} (l : List Occ) (g : Key × List Occ → Option α) :
    let kept := (byKey l).filterMap fun p => (g p).map fun a => (p.1, p.2, a)
    kept.length ≤ (kept.flatMap fun p => p.2.1).length ∧ (kept.flatMap fun p => p.2.1).length ≤ l.length := by
  intro kept
  obtain ⟨size, filled⟩ := groupsOf_spec l (t := []) rfl (by simp)
  have total : ((byKey l).map fun p => p.2.length).sum = l.length := by
    rw [byKey_eq, List.map_map]
    exact size.trans (Nat.zero_add _)
  have some_ : ∀ p ∈ byKey l, 1 ≤ p.2.length := fun p hp => by
    rw [byKey_eq] at hp
    obtain ⟨q, hq, rfl⟩ := List.mem_map.1 hp
    exact List.length_pos_iff.2 (filled q hq)
  have each : ∀ m : List (Key × List Occ), (∀ p ∈ m, 1 ≤ p.2.length) →
      let kept := m.filterMap fun p => (g p).map fun a => (p.1, p.2, a)
      kept.length ≤ (kept.flatMap fun p => p.2.1).length ∧ (kept.flatMap fun p => p.2.1).length ≤ (m.map fun p => p.2.length).sum := by
    intro m
    induction m with
    | nil => exact fun _ => ⟨Nat.le_refl _, Nat.le_refl _⟩
    | cons p m ih =>
      intro h
      have one := h p (by simp)
      obtain ⟨few, most⟩ := ih fun q hq => h q (by simp [hq])
      cases found : g p with
      | none =>
        simp only [List.filterMap_cons, found, Option.map_none, List.map_cons, List.sum_cons]
        exact ⟨few, by omega⟩
      | some a =>
        simp only [List.filterMap_cons, found, Option.map_some, List.map_cons, List.sum_cons, List.length_cons, List.flatMap_cons,
          List.length_append]
        omega
  rw [← total]
  exact each _ some_

-- Key entries (R169)

section Ents
variable {wrec : Key → Nat}

theorem length_keyEnts (run off : Nat) (l : List (Key × List Occ × Holders × Bool)) : (keyEnts wrec run off l).length = l.length := by
  induction l generalizing run off with
  | nil => rfl
  | cons g l ih => exact congrArg (· + 1) (ih _ _)
/-- A row's area lies among those of the record. -/
theorem keyEnts_fits {run off : Nat} {l : List (Key × List Occ × Holders × Bool)} {e : KeyEnt} (h : e ∈ keyEnts wrec run off l) :
    32 * e.rowOff + e.wrec ≤ off + (l.map fun g => wrec g.1).sum := by
  induction l generalizing run off with
  | nil => cases h
  | cons g l ih =>
    rw [List.map_cons, List.sum_cons]
    obtain rfl | later := List.mem_cons.1 h
    · dsimp only
      omega
    · have fits := ih later
      omega

end Ents

end Sys2Proof.Machine

/-! What a lookup writes: its record and its outputs, and no other byte of memory (R168, R169). -/

namespace Sys2Proof.Machine

-- Writes to some views

/-- The parts that the writes and requests of a lookup may touch. -/
abbrev fillParts : List Part := reaching [.pg, .mem, .ht, .em, .sw, .fb, .out]

/-- Of memory only bytes of some views of a context have changed, and every place stands. -/
structure Fills (c : Nat) (l : List View) (s t : State) : Prop where
  frame : Frame fillParts s t
  places : Places s t
  outside : MemOutside s t c l

section Fill
variable {c : Nat} {l : List View}

theorem Fills.refl (s : State) : Fills c l s s := ⟨Frame.refl s, Places.refl s, fun _ _ => rfl⟩
theorem MemOutside.trans {s t u : State} (h : MemOutside s t c l) (places : Places s t) (g : MemOutside t u c l) : MemOutside s u c l :=
  fun a away => (g a fun v hv r hr j hj => by
    rw [places.byteAddr]
    exact away v hv r hr j hj).trans (h a away)
theorem Fills.trans {s t u : State} (h : Fills c l s t) (g : Fills c l t u) : Fills c l s u :=
  ⟨h.frame.trans g.frame, h.places.trans g.places, h.outside.trans h.places g.outside⟩
theorem Fills.mono {m : List View} {s t : State} (h : Fills c l s t) (sub : ∀ v ∈ l, v ∈ m) : Fills c m s t :=
  ⟨h.frame, h.places, fun a away => h.outside a fun v hv => away v (sub v hv)⟩
theorem fills_ite {p : Prop} [Decidable p] {s a b : State} (ha : Fills c l s a) (hb : Fills c l s b) : Fills c l s (if p then a else b) := by
  split
  · exact ha
  · exact hb
/-- What leaves memory and its places alone. -/
theorem Frame.fills {m : List Part} {s t : State} (f : Frame m s t) (sub : ∀ p ∈ m, p ∈ fillParts := by simp [reachParts])
    (hm : .mem ∉ m := by simp) (ht : .tr ∉ m := by simp) (hs : .sp ∉ m := by simp) (hc : .cx ∉ m := by simp) (hk : .kd ∉ m := by simp) :
    Fills c l s t :=
  have places := (f.reached hc).places ht hs hk
  ⟨f.mono sub, places, fun a _ => places.mrd (f.mem hm) a⟩
theorem Carries.fills {v : View} {s t : State} (h : Carries carryParts c v s t) (mem : v.place ≠ .rb) (hv : v ∈ l) : Fills c l s t :=
  ⟨h.frame.mono (by simp [reachParts]), h.places, fun a away => h.mem mem a (away v hv)⟩
theorem fills_reachView (s : State) (d : Nat) (v : View) (rs : List (Nat × Nat)) : Fills c l s (s.reachView d v rs) := by
  have places : Places s (s.reachView d v rs) :=
    places_ite ((places_reachAs s _ _ _ _ _ _ _).trans (places_renew _ _ _)) (Places.refl s)
  exact ⟨(frame_reachView s d v rs).mono (by simp [reachParts]), places,
    fun a _ => places.mrd ((frame_reachView s d v rs).mem (by simp [reachParts])) a⟩
/-- Writes under the number of a flight are writes (R235). -/
theorem fills_asOf {s : State} {id : Nat} {g : State → State} (h : Fills c l (s.setNext id) (g (s.setNext id))) :
    Fills c l s (s.asOf id g) := by
  have before := places_setNext s id
  have after := places_setNext (g (s.setNext id)) s.sq.nextId
  refine ⟨frame_asOf h.frame (by simp [reachParts]), (before.trans h.places).trans after, fun a away => ?_⟩
  refine (after.mrd rfl a).trans ((h.outside a fun v hv r hr j hj => ?_).trans (before.mrd rfl a))
  rw [before.byteAddr]
  exact away v hv r hr j hj

end Fill

-- The record's region (R165)

/-- Bytes of a region that lie within its length are its own. -/
def View.whole (v : View) : Prop := ∀ off n, off + n ≤ v.rawLen → v.covers off n
theorem whole_rawView (p : Place) (a n : Nat) : (rawView p a n).whole := fun off k fits j hj => by
  refine ⟨(0 * 0, rowBytes .n16 (n / 2)), by simp [View.parts, rawView], by omega, ?_⟩
  have len : rowBytes .n16 (n / 2) = 2 * (n / 2) := by
    unfold rowBytes cdiv
    have wide : fmtBits .n16 = 16 := rfl
    rw [wide]
    omega
  have fits' : off + k ≤ 2 * (n / 2) := fits
  dsimp only
  omega
theorem length_fitBytes (n : Nat) (d : List Byte) : (fitBytes n d).length = n := by
  simp [fitBytes]
  omega

section Record
variable {c : Nat} {l : List View} {r : View} (whole : r.whole) (mem : r.place ≠ .rb) (hr : r ∈ l)
include whole mem hr

theorem fills_putBytes (s : State) {off : Nat} {d : List Byte} (fits : off + d.length ≤ r.rawLen) : Fills c l s (s.putBytes c r off d) :=
  (carries_putBytes s c fun _ => whole off d.length fits).fills mem hr
/-- A row takes its place in the record (R169). -/
theorem fills_gotRow (s : State) {f : Flight} (ctx : f.ctx = c) {k : LookupF} (recv : k.recv = r) {i : Nat} {e : KeyEnt} {d : List Byte}
    (row : 32 * e.rowOff + d.length ≤ r.rawLen) (entry : 64 + 32 * i + 32 ≤ r.rawLen) (valid : Bool) :
    Fills c l s (s.gotRow f k i e d valid).1 := by
  subst ctx recv
  refine Fills.trans (fills_asOf ?_) (fills_reachView _ _ _ _)
  exact (fills_putBytes whole mem hr _ row).trans (fills_putBytes whole mem hr _ (by rw [length_leBytes]; omega))

end Record

-- Outputs (R168)

theorem blockScales_keys {v : View} {items : List Item} {k : Nat × Nat × Bool} (h : k ∈ blockScales v items) :
    ∃ p ∈ items, k.1 = v.blk p.1 p.2.1 := by
  have each : ∀ (xs : List Item) (t : Tab (Nat × Bool)), (∀ k ∈ t, ∃ p ∈ items, k.1 = v.blk p.1 p.2.1) → (∀ p ∈ xs, p ∈ items) →
      ∀ k ∈ xs.foldl (fun t p =>
        let k := v.blk p.1 p.2.1
        let o := tabGet (fun _ => (0, false)) t k
        tabPut t k (max o.1 (needScale v.fmt v.zp p.2.2), o.2 || decide (p.2.2 ≠ 0))) t, ∃ p ∈ items, k.1 = v.blk p.1 p.2.1 := by
    intro xs
    induction xs with
    | nil => exact fun t ht _ => ht
    | cons x xs ih =>
      refine fun t ht sub => ih _ (fun k hk => ?_) fun p hp => sub p (by simp [hp])
      obtain rfl | old := mem_tabPut hk
      · exact ⟨x, sub x (by simp), rfl⟩
      · exact ht k old
  exact each items [] (by simp) (fun _ => id) k h
theorem carries_foldl_fst {α β : Type} {l : List Part} {c : Nat} {v : View} {f : State × β → α → State × β} (xs : List α)
    (h : ∀ a ∈ xs, ∀ w, Carries l c v w.1 (f w a).1) (w : State × β) : Carries l c v w.1 (xs.foldl f w).1 := by
  induction xs generalizing w with
  | nil => exact Carries.refl w.1
  | cons x xs ih => exact (h x (by simp) w).trans (ih (fun a ha => h a (by simp [ha])) _)
/-- Items within a view are stored in it (R30, R56). -/
theorem carries_storeItems (s : State) (c : Nat) {v : View} (u : Nat → Option Nat) {items : List Item}
    (inside : ∀ p ∈ items, p.1 < v.rows ∧ p.2.1 < v.cols) : Carries carryParts c v s (s.storeItems c v u items).1 := by
  have coded : Carries carryParts c v s (items.foldl (fun (x : State × Tally) p =>
      let e := (tabGet (fun _ => (0, false)) (blockScales v items) (v.blk p.1 p.2.1)).1
      let y := x.1.storeItem c v u e p
      (y.1, x.2.add y.2)) (s, ({} : Tally))).1 :=
    carries_foldl_fst items (fun p hp w => carries_putCode w.1 c (fun _ => inside p hp) _) (s, ({} : Tally))
  unfold State.storeItems
  dsimp only
  split
  next scales =>
    refine coded.trans (carries_foldl_fst _ (fun k hk w => carries_putBytes w.1 c fun _ => ?_) _)
    obtain ⟨p, hp, block⟩ := blockScales_keys hk
    rw [block]
    exact covers_scale scales (inside p hp).1 (inside p hp).2
  next => exact coded
theorem cornerItems_inside {v : View} {rows cols : Nat} {f : Nat → Nat → ℚ} {p : Item} (h : p ∈ cornerItems v rows cols f) :
    p.1 < v.rows ∧ p.2.1 < v.cols := by
  unfold cornerItems at h
  obtain ⟨r, hr, inner⟩ := List.mem_flatMap.1 h
  obtain ⟨k, hk, rfl⟩ := List.mem_map.1 inner
  exact ⟨lt_of_lt_of_le (List.mem_range.1 hr) (Nat.min_le_left _ _), lt_of_lt_of_le (List.mem_range.1 hk) (Nat.min_le_left _ _)⟩
/-- Pooling writes the outputs of a lookup. -/
theorem fills_poolLookup (s : State) {f : Flight} {k : LookupF} {l : List View} (outs : ∀ p ∈ k.outs, p.2.place ≠ .rb ∧ p.2 ∈ l) :
    Fills f.ctx l s (s.poolLookup f k) := by
  unfold State.poolLookup
  dsimp only
  refine List.foldlRecOn (motive := fun u => Fills f.ctx l s u) _ _ (Fills.refl s) fun u filled p hp => filled.trans ?_
  obtain ⟨mem, member⟩ := outs p.1 (List.fst_mem_of_mem_zipIdx hp)
  refine Fills.trans (Fills.trans ((carries_storeItems u f.ctx _ fun _ => cornerItems_inside).fills mem member)
    (fills_reachView _ _ _ _)) (frame_tallyCtx _ _ _ _ _).fills

end Sys2Proof.Machine

/-! EMB_LOOKUP: its record, its requests and what it leaves of memory (R165, R166, R168, R169). -/

namespace Sys2Proof.Machine

-- What a lookup has changed before it enters its queue

/-- The parts that a lookup may touch. -/
abbrev lookParts : List Part := reaching [.pg, .mem, .sq, .sp, .ht, .em, .sw, .fb, .out]

/-- The state has changed within a lookup's parts, its sequencer has met slips and marks at most, and of memory only bytes of some views
have changed. -/
structure Readies (x : Src) (l : List View) (s t : State) : Prop where
  frame : Frame lookParts s t
  places : Places s t
  outside : MemOutside s t x.ctx l
  marks : Marks x.st x.sq s t

section Ready
variable {x : Src} {l : List View} {s t u : State}

theorem Readies.trans (h : Readies x l s t) (g : Readies x l t u) : Readies x l s u :=
  ⟨h.frame.trans g.frame, h.places.trans g.places, h.outside.trans h.places g.outside, h.marks.trans g.marks⟩
theorem Readies.mono {m : List View} (h : Readies x l s t) (sub : ∀ v ∈ l, v ∈ m) : Readies x m s t :=
  ⟨h.frame, h.places, fun a away => h.outside a fun v hv => away v (sub v hv), h.marks⟩
theorem Fills.readies (h : Fills x.ctx l s t) : Readies x l s t :=
  ⟨h.frame.mono (by simp [reachParts]), h.places, h.outside, h.frame.marks (by simp [reachParts])⟩
theorem Meets.readies (h : Meets x s t) (alike : Alike s t) : Readies x l s t :=
  ⟨h.reached.frame.mono (by simp [reachParts]), alike.places, fun a _ => alike.mrd a, h.marks⟩
theorem readies_taintSeq (s : State) : Readies x l s (s.taintSeq x.st x.sq x.ctx) :=
  have frame := frame_taintSeq s x.st x.sq x.ctx
  ⟨frame.mono (by simp), frame.reached.places, fun a _ => frame.reached.places.mrd (frame.mem (by simp)) a, marks_taintSeq s _ _ _⟩
theorem readies_ite {p : Prop} [Decidable p] {a b : State} (ha : Readies x l s a) (hb : Readies x l s b) :
    Readies x l s (if p then a else b) := by
  split
  · exact ha
  · exact hb
theorem Readies.refl (s : State) : Readies x l s s := (Fills.refl s).readies
theorem readies_embDrop (s : State) (k : Key) (peer pass n : Nat) : Readies x l s (s.embDrop x k peer pass n) := by
  refine readies_ite (Readies.refl s) (Readies.trans (Fills.readies ?_) (readies_taintSeq _))
  exact (((frame_bump _ _ _ _).fills).trans (frame_logErr _ _ _ _).fills).trans (frame_raise _ _ _ _).fills

end Ready

-- In flight (R95)

section Enter
variable {s t u : State} {i : Iss} {c : Nat} {f : Flight}

theorem Launches.marked (h : Launches s t i c f) (m : Marks i.st i.sq t u) : Launches s u i c f where
  pc := by
    rw [m.own]
    exact h.pc
  loops := by
    rw [m.own]
    exact h.loops
  issued := by
    rw [m.own]
    exact h.issued
  flights := by
    rw [m.sq]
    exact h.flights
  id := h.id
  src := h.src
  post := h.post
  seqs st n other := (m.others st n other).trans (h.seqs st n other)
/-- The flight's body changes alone. -/
theorem Launches.putBody (h : Launches s t i c f) (numbered : FlightsNumbered s) (b : Body) :
    Launches s (t.putFlight { f with body := b }) i c { f with body := b } where
  pc := h.pc
  loops := h.loops
  issued := h.issued
  flights := by
    have before : s.sq.flights.map (fun g => if g.id = f.id then { f with body := b } else g) = s.sq.flights :=
      (List.map_congr_left (g := fun g => g) fun g hg => if_neg (by rw [h.id]; exact (numbered g hg).ne)).trans (List.map_id' _)
    show t.sq.flights.map _ = _
    rw [h.flights, List.map_append]
    dsimp only
    rw [before, List.map_singleton, if_pos rfl]
  id := h.id
  src := h.src
  post := h.post
  seqs := h.seqs
/-- The new flight is found by its number. -/
theorem flight_launch_readers {s : State} (numbered : FlightsNumbered s) (i : Iss) (x : Src) (readers : List (Nat × Nat)) (lines : List Nat)
    (b : Body) : (s.launch i x readers lines b).flight s.sq.nextId = some (s.readingFlight i x readers lines b []) := by
  have before : s.sq.flights.find? (fun f => f.id == s.sq.nextId) = none :=
    List.find?_eq_none.2 fun f hf => by simpa using (numbered f hf).ne
  unfold State.flight
  rw [sq_launch, List.find?_append, before, Option.none_or]
  exact List.find?_cons_of_pos (beq_self_eq_true _)
theorem places_launch (s : State) (i : Iss) (x : Src) (readers : List (Nat × Nat)) (lines : List Nat) (b : Body) :
    Places s (s.launch i x readers lines b) := by
  have frame := frame_launch_readers s i x readers lines b []
  have same : ∀ d, (s.launch i x readers lines b).ctx d = s.ctx d := frame.reached.ctx
  have tr := frame.tr (by simp)
  refine ⟨by rw [tr], fun o k => ?_, fun d => by rw [same], fun d => by rw [same], (standing_launch s i x readers lines b []).seed,
    frame.kd (by simp)⟩
  unfold State.pte
  rw [tr]

end Enter

-- The body of EMB_LOOKUP (R166)

theorem length_lookOccs (blk : List Byte) (fs : List (Feat × TDesc)) : (lookOccs blk fs).length ≤ leAt blk 0x10 4 % 2 ^ 27 := by
  unfold lookOccs
  dsimp only
  refine (List.length_filterMap_le _ _).trans ?_
  rw [List.length_range]
  split
  · exact Nat.zero_le _
  · exact Nat.le_refl _
theorem length_recHead (step pass : Nat) (weights refused : Bool) (firstP n u firstSample samples epoch dropped : Nat) :
    (recHead step pass weights refused firstP n u firstSample samples epoch dropped).length = 64 := by
  simp [recHead]

theorem length_entries (ents : List KeyEnt) (occs : List Occ) :
    ((ents.flatMap fun e => e.bytes false) ++ occs.flatMap Occ.word).length = 32 * ents.length + 8 * occs.length := by
  simp [List.length_flatMap, KeyEnt.bytes, Occ.word, Nat.mul_comm]
theorem fills_sendLookup {c : Nat} {m : List View} (s : State) (st d : Nat) (l : LookupF) (e : KeyEnt) (eval : Bool) :
    Fills c m s (s.sendLookup st d l e eval) := (frame_sendLookup s st l e d eval).fills

/-- A lookup's requests have gone, and rows from replicas have come: its record's writes, and what stays of its body. -/
structure Asked (c : Nat) (m : List View) (s : State) (l : LookupF) (w : State × LookupF) : Prop where
  filled : Fills c m s w.1
  recv : w.2.recv = l.recv
  step : w.2.step = l.step
  outs : w.2.outs = l.outs

/-- A lookup has entered its queue: from the state w, with a plain body or one that its requests and rows have changed. -/
inductive LookEnds (s : State) (i : Iss) (x : Src) (r : View) (outs : List (Feat × View)) (readers : List (Nat × Nat)) (lines : List Nat)
    (step : Nat) (t : State) : Prop where
  | full (w : State) (ready : Readies x [r] s w) (left : t = w.launch i x readers lines .plain)
  | sent (w z : State) (b b' : Body) (ready : Readies x [r] s w)
      (filled : Fills x.ctx (r :: outs.map (·.2)) (w.launch i x readers lines b) z)
      (body : b' = .plain ∨ ∃ l : LookupF, b' = .lookup l ∧ l.recv = r ∧ l.step = step ∧ l.outs = outs)
      (left : t = z.putFlight { w.readingFlight i x readers lines b [] with body := b' })

theorem runLookup_ends {s : State} {i : Iss} (x : Src) {blk : List Byte} {r : View} {outs : List (Feat × View)}
    (readers : List (Nat × Nat)) (lines : List Nat) (numbered : FlightsNumbered s) (ok : i.rd = .ok) (whole : r.whole) (mem : r.place ≠ .rb)
    (fits : 64 + 40 * (leAt blk 0x10 4 % 2 ^ 27) ≤ r.rawLen) (apart : ∀ p ∈ outs, p.2.place ≠ .rb) :
    LookEnds s i x r outs readers lines (leAt blk 0 6) (s.runLookup i x blk r outs readers lines) := by
  unfold State.runLookup
  extract_lets c b badReplica flags count n firstP step pass total fs occs groups kept sorted drops all bad badKey epoch area ents need full
    s1 s2 s3 s4 s5 em s6 l id s7
  have sound : ∀ j, badReplica j = false := fun j => by simp [badReplica, ok]
  have groups_ : kept = (byKey occs).filterMap fun p => ((s.resolveKey x.st b p.1 false).map fun h => (p.1, p.2, h)) := by
    simp only [kept, groups, List.filterMap_map]
    rfl
  have counts : kept.length ≤ sorted.length ∧ sorted.length ≤ occs.length := by
    have le := kept_le occs fun p => s.resolveKey x.st b p.1 false
    rw [← groups_] at le
    exact le
  have few : occs.length ≤ count := length_lookOccs blk _
  have lenEnts : ents.length = kept.length := length_keyEnts _ _ _
  have taken : 64 + 32 * ents.length + 8 * sorted.length ≤ r.rawLen := by omega
  have header : Fills x.ctx [r] s2 s3 := fills_putBytes whole mem (by simp) s2 (by rw [length_recHead]; omega)
  have entries : Fills x.ctx [r] s3 s4 :=
    (fills_putBytes whole mem (by simp) s3 (by rw [length_entries]; omega)).trans (fills_reachView _ _ _ _)
  have counted : Fills x.ctx [r] s s1 := (frame_bump s _ _ _).fills.trans (frame_bump _ _ _ _).fills
  have ready : Readies x [r] s s4 :=
    ((counted.readies.trans (readies_embDrop s1 badKey 0 pass drops)).trans header.readies).trans entries.readies
  by_cases hf : full = true
  · rw [if_pos hf]
    have logged : Fills x.ctx [r] s4 ((s4.embLog x.st 4 0 b x.ctx noKey 0 pass).raise x.st 0x70 1) :=
      (frame_logErr _ _ _ _).fills.trans (frame_raise _ _ _ _).fills
    exact .full s5 ((ready.trans logged.readies).trans (readies_taintSeq _)) rfl
  · rw [if_neg hf]
    have room : need ≤ r.rawLen := by simpa [full] using hf
    have ready6 : Readies x [r] s s6 := ready.trans (fills_ite (Fills.refl s4) (frame_upd_em s4 _).fills).readies
    have numbered6 : FlightsNumbered s6 := by
      unfold FlightsNumbered
      rw [ready6.marks.sq]
      exact numbered
    have there : s7.flight id = some (s6.readingFlight i x readers lines (.lookup l) []) :=
      flight_launch_readers numbered6 i x readers lines (.lookup l)
    rw [there]
    dsimp only
    generalize requests : List.foldl _ (s7, l) ents.zipIdx = w
    have asked : Asked x.ctx (r :: outs.map (·.2)) s7 l w := by
      have start : Asked x.ctx (r :: outs.map (·.2)) s7 l (s7, l) := ⟨Fills.refl s7, rfl, rfl, rfl⟩
      rw [← requests]
      refine List.foldlRecOn (motive := Asked x.ctx (r :: outs.map (·.2)) s7 l) _ _ start fun y asked e he => ?_
      obtain ⟨filled, recv, step_, outs_⟩ := asked
      split
      next q found =>
        rw [sound, if_neg Bool.false_ne_true]
        have row : 32 * e.1.rowOff + (fitBytes e.1.wrec q.bytes).length ≤ r.rawLen := by
          rw [length_fitBytes]
          exact (keyEnts_fits (List.fst_mem_of_mem_zipIdx he)).trans room
        have entry : 64 + 32 * e.2 + 32 ≤ r.rawLen := by
          have place := (List.mem_zipIdx' he).1
          omega
        have placed := fills_gotRow (c := x.ctx) (l := r :: outs.map (·.2)) (f := s6.readingFlight i x readers lines (.lookup l) [])
          whole mem List.mem_cons_self (y.1.bump x.st Reg.EMB_EC_REPL_HITS 1) rfl recv row entry true
        exact ⟨(filled.trans (frame_bump _ _ _ _).fills).trans placed, recv, step_, outs_⟩
      next => exact ⟨filled.trans (fills_sendLookup _ _ _ _ _ _), recv, step_, outs_⟩
    by_cases got : w.2.keys.all (·.got) = true
    · rw [tryPool_pools got]
      refine .sent s6 _ (.lookup l) .plain ready6 (asked.filled.trans (fills_asOf ?_)) (.inl rfl) rfl
      refine fills_poolLookup (f := s6.readingFlight i x readers lines (.lookup l) []) _ fun p hp => ?_
      rw [asked.outs] at hp
      exact ⟨apart p hp, List.mem_cons_of_mem _ (List.mem_map_of_mem hp)⟩
    · rw [tryPool_waits (by simpa using got)]
      exact .sent s6 w.1 (.lookup l) (.lookup w.2) ready6 asked.filled (.inr ⟨w.2, rfl, asked.recv, asked.step, asked.outs⟩) rfl

end Sys2Proof.Machine

/-! EMB_LOOKUP at issue: what it meets before its record is written, and the two embedding instructions (R94, R165, R166, R170). -/

namespace Sys2Proof.Machine

-- Accesses at issue (R105, R180, R228, R240)

theorem lookAccess_true {s : State} {x : Src} {i : Iss} {b : Opd} {v : LookV} (ok : i.rd = .ok) (goes : (s.lookAccess x i b v).2 = true) :
    s.lookAccess x i b v = (s.reach x.ctx (s.descRanges x [b]), true) := by
  unfold State.lookAccess at goes ⊢
  dsimp only at goes ⊢
  rw [metEcc_ok ok] at goes ⊢
  dsimp only at goes ⊢
  rw [if_neg (by decide)] at goes ⊢
  split at goes
  · cases goes
  · split at goes
    · cases goes
    · rfl
theorem lookMaps_true {s : State} {x : Src} {v : LookV} (goes : (s.lookMaps x v).2 = true) :
    ∃ ts ms, s.lookMaps x v = ((s.jobReach x.st (s.ctx x.ctx).slot ts 1).jobReach x.st (s.ctx x.ctx).slot ms 0, true) := by
  unfold State.lookMaps at goes ⊢
  dsimp only at goes ⊢
  split at goes
  · cases goes
  · exact ⟨_, _, rfl⟩

/-- The lines that a lookup reads at issue: its block's, where no chair names it, and its feature table's. -/
abbrev State.lookReads (u : State) (x : Src) (a : Opd) (v : LookV) : List Nat :=
  (if a.isChair then [] else u.viewLines x.ctx v.blk) ++ u.viewLines x.ctx v.feat
/-- The state in which a lookup has made its accesses at issue. -/
def State.lookMet (u : State) (x : Src) (i : Iss) (a b : Opd) (v : LookV) : State :=
  (((u.readLines x (u.lookReads x a v)).lookAccess x i b v).1.lookMaps x v).1

section Met
variable {u : State} {x : Src} {i : Iss} {a b : Opd} {v : LookV} (ok : i.rd = .ok)
  (access : ((u.readLines x (u.lookReads x a v)).lookAccess x i b v).2 = true)
  (maps : (((u.readLines x (u.lookReads x a v)).lookAccess x i b v).1.lookMaps x v).2 = true)
include ok access maps

theorem met_lookMet : Leads x u (u.lookMet x i a b v) ∧ Alike u (u.lookMet x i a b v) := by
  obtain ⟨ts, ms, eq⟩ := lookMaps_true maps
  unfold State.lookMet
  rw [eq, lookAccess_true ok access]
  refine ⟨(((leads_readLines x u _).trans (leads_reachAs x _ _ _ _ _ _ _ _)).trans (leads_reachAs x _ _ _ _ _ _ _ _)).trans
    (leads_reachAs x _ _ _ _ _ _ _ _), ?_⟩
  exact (((alike_readLines u x _).trans (alike_reachAs _ _ _ _ _ _ _ _)).trans (alike_reachAs _ _ _ _ _ _ _ _)).trans
    (alike_reachAs _ _ _ _ _ _ _ _)

end Met

theorem liftReg_place {k r : Nat} (hk : k < 128) (hr : r ∈ [Reg.SPD_LIFT_k_CFG, Reg.SPD_LIFT_k_BASE, Reg.SPD_LIFT_k_CHAIR]) :
    0x31000 ≤ liftReg k r ∧ liftReg k r < 0x35000 := by
  simp only [List.mem_cons, List.not_mem_nil, or_false] at hr
  unfold Reg.SPD_LIFT_k_CFG Reg.SPD_LIFT_k_BASE Reg.SPD_LIFT_k_CHAIR at hr
  unfold liftReg
  omega
/-- Claims of lines leave the chairs that operands name (R96, R108). -/
theorem readersOf_claimLines (s : State) (x : Src) (ls : List Nat) (c : Nat) (ops : List Opd) :
    (s.claimLines x ls).readersOf c ops = s.readersOf c ops := by
  refine readersOf_congr ?_ (fun st k hk => ?_) c ops
  · refine foldl_keeps (g := fun u : State => u.sp.lifts) (fun u l => ?_) ls s
    have slipped : ∀ e, (u.slip x 6 e l).sp.lifts = u.sp.lifts := fun e => by rw [(frame_slip u x 6 e l).sp (by simp)]
    show (State.sp (if _ then _ else u)).lifts = _
    split
    · exact slipped _
    · rfl
  · have same : ∀ r ∈ [Reg.SPD_LIFT_k_CFG, Reg.SPD_LIFT_k_BASE, Reg.SPD_LIFT_k_CHAIR],
        (s.claimLines x ls).rd st (liftReg k r) = s.rd st (liftReg k r) := fun r hr => by
      obtain ⟨lo, hi⟩ := liftReg_place hk hr
      refine foldl_keeps (g := fun u : State => u.rd st (liftReg k r)) (fun u l => ?_) ls s
      have slipped : ∀ e, (u.slip x 6 e l).rd st (liftReg k r) = u.rd st (liftReg k r) := fun e =>
        rd_slip_other u x 6 e l st (by omega) (by unfold Reg.SEQ_SLIP_TOTAL; omega) (by unfold Reg.UCI_SRC_p_CTRL; omega)
      refine ((frame_setTag _ _ _ _).rd (by simp) _ _).trans ?_
      split
      · exact slipped _
      · rfl
    unfold State.liftCfg
    rw [same _ (by simp), same _ (by simp), same _ (by simp)]

-- What the checks say (R94, R165)

/-- The views that a lookup writes: its record and its outputs. -/
abbrev LookV.writes (v : LookV) : List View := v.recv :: v.outs.map fun w => w.2.1
/-- The outputs of a lookup with the features that they belong to. -/
abbrev LookV.pairs (v : LookV) : List (Feat × View) := v.outs.map fun w => (w.1, w.2.1)

/-- A lookup that passes its checks has room in its record for its keys and occurrences, and writes no reduction buffer. -/
theorem fits_of_lookCheck {s : State} {x : Src} {n : Nat} {a b o : Opd} {v : LookV} (check : s.lookCheck x n a b o v = none) :
    64 + 40 * v.n ≤ v.recv.rawLen ∧ ∀ w ∈ v.writes, w.place ≠ .rb := by
  unfold State.lookCheck at check
  extract_lets fits outs desc extent out at check
  split at check
  · cases check
  split at check
  · cases check
  split at check
  · cases check
  split at check
  · cases check
  next room =>
    refine ⟨Nat.not_lt.1 room, ?_⟩
    split at check
    · cases check
    split at check
    · cases check
    split at check
    · cases check
    next recv =>
      have apart := badAddr_none (by simpa using check)
      intro w hw
      obtain rfl | later := List.mem_cons.1 hw
      · exact fun rb => recv (.inr rb)
      · obtain ⟨g, hg, rfl⟩ := List.mem_map.1 later
        simpa using apart (Opd.none, g.2.1) (List.mem_map.2 ⟨g, hg, rfl⟩)

theorem leAt_bytesOf {s t : State} (h : Alike s t) (c : Nat) {v w : View} (place : w.place = v.place) (addr : w.addr = v.addr)
    {m k off n : Nat} (hm : off + n ≤ m) (hk : off + n ≤ k) : leAt (t.bytesOf c w 0 k) off n = leAt (s.bytesOf c v 0 m) off n := by
  have byte : ∀ j, t.byteOf c w j = s.byteOf c v j := fun j => by
    rw [← h.places.byteOf h.mem]
    unfold State.byteOf State.byteAddr
    rw [place, addr]
  have part : ∀ (u : State) (v : View) (m : Nat), off + n ≤ m →
      ((u.bytesOf c v 0 m).drop off).take n = (List.range n).map fun j => u.byteOf c v (off + j) := fun u v m hm => by
    refine List.ext_getElem (by simp [State.bytesOf]; omega) fun j _ _ => ?_
    simp [State.bytesOf]
  unfold leAt
  rw [part t w k hk, part s v m hm]
  simp only [byte]

/-- A block of any number of occurrences, with weights or without, is no shorter than its header (R164). -/
theorem le_blockLen (p : Prop) [Decidable p] (k : Nat) :
    64 ≤ 2 * ((if p then alignUp (64 + 8 * k) 64 + 2 * k else 64 + 8 * k) / 2) := by
  unfold alignUp
  split <;> omega

/-- The block's header gives the step and the count of occurrences, to whoever finds the same bytes (R164). -/
theorem head_lookViews {s t : State} (alike : Alike s t) (x : Src) (n : Nat) (a b o : Opd) :
    let v := s.lookViews x n a b o
    let blk := t.bytesOf x.ctx v.blk 0 v.blk.rawLen
    leAt blk 0x10 4 % 2 ^ 27 = v.n ∧ leAt blk 0 6 = v.step := by
  intro v blk
  have long : 64 ≤ v.blk.rawLen := le_blockLen _ _
  exact ⟨congrArg (· % 2 ^ 27) (leAt_bytesOf alike x.ctx (v := rawView .spd ((s.rawAddr x a).getD 0) 64) (w := v.blk) rfl rfl
      (by decide) (by omega)),
    leAt_bytesOf alike x.ctx (v := rawView .spd ((s.rawAddr x a).getD 0) 64) (w := v.blk) rfl rfl (by decide) (by omega)⟩

theorem Places.lookLines {s t : State} (h : Places s t) (c : Nat) (v : LookV) : t.lookLines c v = s.lookLines c v := by
  unfold State.lookLines
  simp only [h.viewLines]

-- EMB_LOOKUP (R165, R166)

/-- A lookup at the end of its issue: its record is written, its requests have gone. -/
def State.lookIssued (u : State) (i : Iss) (x : Src) (a b : Opd) (v : LookV) : State :=
  let z := u.lookMet x i a b v
  let w := z.claimLines x (z.lookLines x.ctx v)
  w.runLookup i x (w.bytesOf x.ctx v.blk 0 v.blk.rawLen) v.recv v.pairs (w.readersOf x.ctx [a]) (z.lookLines x.ctx v)

theorem runs_embLookup {s u : State} {i : Iss} {n : Nat} {a b o : Opd} {x : Src} {v : LookV} (begins : s.begin i 0x38 [a] = (u, some x))
    (views : u.lookViews x n a b o = v) (ok : i.rd = .ok) (some_ : n ≠ 0) (timely : u.lookupEarly x.ctx v.step = false)
    (check : u.lookCheck x n a b o v = none) (recv : u.guardedView x.ctx v.recv = false)
    (outs : (v.outs.any fun w => u.guardedView x.ctx w.2.1) = false)
    (access : ((u.readLines x (u.lookReads x a v)).lookAccess x i b v).2 = true)
    (maps : (((u.readLines x (u.lookReads x a v)).lookAccess x i b v).1.lookMaps x v).2 = true) :
    Runs (.embLookup i n a b o) s (u.lookIssued i x a b v) := by
  have unguarded : ¬ (u.guardedView x.ctx v.recv = true ∨ (v.outs.any fun w => u.guardedView x.ctx w.2.1) = true) := by
    simp only [recv, outs, Bool.false_eq_true, or_self, not_false_eq_true]
  have unit : u.embUnit x i.rd = (u, true) := by
    rw [ok]
    rfl
  have reads : (u.readLines x (u.lookReads x a v)).lookAccess x i b v =
      (((u.readLines x (u.lookReads x a v)).lookAccess x i b v).1, true) := Prod.ext rfl access
  have mapped : ((u.readLines x (u.lookReads x a v)).lookAccess x i b v).1.lookMaps x v = (u.lookMet x i a b v, true) :=
    Prod.ext rfl maps
  show execEmbLookup i n a b o s = _
  unfold execEmbLookup
  rw [begins]
  dsimp only
  rw [if_neg some_, views, timely, if_neg Bool.false_ne_true, check]
  dsimp only
  rw [if_neg unguarded, unit]
  dsimp only
  rw [reads]
  dsimp only
  rw [mapped]
  rfl

section Entered
variable {s w : State} {i : Iss} {c : Nat} {l : List View} (ready : Readies (s.srcOf i 0x38 c) l (s.atIssue i 0x38 c) w)
include ready

/-- What a lookup has changed once it is in its queue. -/
theorem entered_launch (readers : List (Nat × Nat)) (lines : List Nat) (b : Body) :
    let t := w.launch i (s.srcOf i 0x38 c) readers lines b
    Places s t ∧ MemOutside s t c l ∧ SameRegs s t i ∧ Frame lookParts s t := by
  have issued := alike_atIssue s i 0x38 c
  have launched := places_launch w i (s.srcOf i 0x38 c) readers lines b
  have standing := standing_launch w i (s.srcOf i 0x38 c) readers lines b []
  refine ⟨(issued.places.trans ready.places).trans launched, fun a away => ?_, ready.marks.sameRegs readers lines b [], ?_⟩
  · refine (standing.mrd a).trans ((ready.outside a fun v hv r hr j hj => ?_).trans (issued.mrd a))
    rw [issued.places.byteAddr]
    exact away v hv r hr j hj
  · exact (((frame_atIssue s i 0x38 c).mono (by simp [reachParts])).trans ready.frame).step (frame_launch_readers _ _ _ _ _ _ _)

end Entered

/-- What a lookup leaves as it enters its unit. -/
theorem embLookup_enters {s : State} {i : Iss} {c : Nat} {a b : Opd} {v : LookV} {n : Nat} {o : Opd} (ok : i.rd = .ok)
    (numbered : FlightsNumbered s) (views : (s.atIssue i 0x38 c).lookViews (s.srcOf i 0x38 c) n a b o = v) :
    let x := s.srcOf i 0x38 c
    let u := s.atIssue i 0x38 c
    u.lookCheck x n a b o v = none → ((u.readLines x (u.lookReads x a v)).lookAccess x i b v).2 = true →
    (((u.readLines x (u.lookReads x a v)).lookAccess x i b v).1.lookMaps x v).2 = true →
    let t := u.lookIssued i x a b v
    ∃ f, Launches s t i c f ∧ (f.body = .plain ∨ ∃ l : LookupF, f.body = .lookup l ∧ l.recv = v.recv ∧ l.step = v.step ∧ l.outs = v.pairs) ∧
      f.lines = u.lookLines c v ∧ f.chairs = u.readersOf c [a] ∧ MemOutside s t c v.writes ∧ SameRegs s t i ∧ Frame lookParts s t := by
  intro x u check access maps t
  obtain ⟨leads, alike⟩ := met_lookMet (a := a) ok access maps
  obtain ⟨room, apart⟩ := fits_of_lookCheck check
  let z := u.lookMet x i a b v
  let w := z.claimLines x (z.lookLines x.ctx v)
  have claimed : Alike u w := alike.trans (alike_claimLines z x _)
  have ready : Readies x v.writes u w := (leads.toMeets.trans (meets_claimLines x z _)).readies claimed
  have lines : z.lookLines x.ctx v = u.lookLines c v := alike.places.lookLines c v
  have chairs : w.readersOf x.ctx [a] = u.readersOf c [a] := (readersOf_claimLines z x _ _ _).trans (leads.readers c [a])
  have numbered' : FlightsNumbered w := by
    unfold FlightsNumbered
    rw [ready.marks.sq, sq_atIssue]
    exact numbered
  obtain ⟨count, step⟩ := head_lookViews (n := n) claimed x a b o
  rw [views] at count step
  have whole : v.recv.whole := by
    rw [← views]
    exact whole_rawView _ _ _
  have outputs : v.pairs.map (·.2) = v.outs.map fun w => w.2.1 := List.map_map
  have ends := runLookup_ends x (r := v.recv) (outs := v.pairs) (w.readersOf x.ctx [a]) (z.lookLines x.ctx v) numbered' ok whole
    (apart _ (by simp)) (by rw [count]; exact room) fun p hp => by
      obtain ⟨g, hg, rfl⟩ := List.mem_map.1 hp
      exact apart _ (List.mem_cons_of_mem _ (List.mem_map_of_mem hg))
  rw [step] at ends
  cases ends with
  | full w' ready' left =>
    have all := ready.trans (ready'.mono (m := v.writes) (by simp))
    obtain ⟨-, outside, regs, frame⟩ := entered_launch all (w.readersOf x.ctx [a]) (z.lookLines x.ctx v) .plain
    have entered := all.marks.launches_readers (w.readersOf x.ctx [a]) (z.lookLines x.ctx v) .plain []
    rw [← left] at outside regs frame entered
    exact ⟨_, entered, .inl rfl, lines, chairs, outside, regs, frame⟩
  | sent w' z' b b' ready' filled body left =>
    have all := ready.trans (ready'.mono (m := v.writes) (by simp))
    obtain ⟨places, outside, regs, frame⟩ := entered_launch all (w.readersOf x.ctx [a]) (z.lookLines x.ctx v) b
    have entered := all.marks.launches_readers (w.readersOf x.ctx [a]) (z.lookLines x.ctx v) b []
    have marks : Marks i.st i.sq (w'.launch i x (w.readersOf x.ctx [a]) (z.lookLines x.ctx v) b) z' := filled.readies.marks
    rw [outputs] at filled
    have put := (entered.marked marks).putBody numbered b'
    have outside' : MemOutside s z' c v.writes := outside.trans places filled.outside
    have regs' : SameRegs s z' i := fun k => (marks.sreg k).trans (regs k)
    have frame' : Frame lookParts s z' := frame.trans (filled.frame.mono (by simp [reachParts]))
    change t = _ at left
    rw [left]
    exact ⟨_, put, body, lines, chairs, outside', regs', frame'.step (frame_putFlight _ _)⟩

/-- Settles O25: the accesses of a lookup at issue leave its views in place, its record's header, keys and occurrences have the room
that the check asks for, and each row that comes at once fills its own place of the record. -/
theorem embeddingInstructions : Obligations.EmbeddingInstructions := by
  intro i n a b o c s
  refine ⟨?_, ?_, ?_, ?_⟩
  · intro issue ok numbered some_ x u v timely check recv outs y access maps
    obtain ⟨f, enters⟩ := embLookup_enters (v := v) ok numbered rfl check access maps
    exact ⟨_, f, runs_embLookup (begin_atIssue issue 0x38) rfl ok some_ timely check recv outs access maps, enters⟩
  · intro issue ok some_
    exact embGrad_enters issue ok some_
  · rintro rfl issue
    exact ⟨_, runs_embLookup_empty issue b o, (sameFlights_posted s i _ c).flights, sem_posted s i _ c, sameRegs_posted s i _ c,
      (sameFlights_posted s i _ c).frame⟩
  · rintro rfl issue
    exact ⟨_, runs_embGrad_empty issue o, (sameFlights_posted s i _ c).flights, sem_posted s i _ c, sameRegs_posted s i _ c,
      (sameFlights_posted s i _ c).frame⟩

end Sys2Proof.Machine
